-- ==== Sys2Proof/Word.lean ====
section
/-! DEFINITION. The word types of the Voxaec. -/

namespace Sys2Proof

/-- A lane register's width (R4). -/
abbrev Word := BitVec 32
/-- A register pair's width (R4). -/
abbrev Dword := BitVec 64
/-- One byte of memory. -/
abbrev Byte := BitVec 8
/-- An instruction word (R2): 128 bits, held little-endian in one 16-byte unit. -/
abbrev CodeWord := BitVec 128

end Sys2Proof
end

