-- ==== Sys2Proof/Syntax.lean ====
section
/-! DEFINITION. The instructions and steps of the Voxaec: one constructor per row of the opcode table. A row with
a 128-bit word carries its decoded fields; a step of the hardware or of the host carries what the step acts on. -/

namespace Sys2Proof

/-! ## Operand fields (R21 to R39) -/

/-- The register file a file select names (R24); select 3 is reserved and never decoded. -/
inductive RFile | v | k | q
  deriving DecidableEq, Repr

/-- A register field with its file select (R24). -/
structure Reg where
  file : RFile
  num  : BitVec 8
  deriving DecidableEq, Repr

/-- The class of a source modifier (R36). -/
inductive ModClass | identity | rotate | butterfly | broadcast
  deriving DecidableEq, Repr

/-- The 12-bit source modifier (R36). -/
structure Modifier where
  own  : Bool
  dist : BitVec 5
  seg  : BitVec 3
  cls  : ModClass
  deriving DecidableEq, Repr

/-- A source operand with its modifier, negate and absolute bits (R25, R26). -/
structure Src where
  reg : Reg
  mod : Modifier
  neg : Bool
  abs : Bool
  deriving DecidableEq, Repr

/-- Operand b: a register source in format A, the immediate in format I (R27, R28). -/
inductive SrcB
  | src (s : Src)
  | imm (v : Word)
  deriving DecidableEq, Repr

/-- The type codes (R38). -/
inductive Ty | u32 | s32 | u64 | s64 | u16x2 | s16x2 | u8x4 | f32 | f64 | bf16x2 | f16x2 | f16 | bf16 | lg6 | u16 | s16
  deriving DecidableEq, Repr

/-- The rounding modes (R39): RNE, RZ, RU, RD. -/
inductive Rnd | rn | rz | ru | rd
  deriving DecidableEq, Repr

/-- The pred field (R22): a predicate number and its negate bit. -/
structure Pred where
  neg : Bool
  num : BitVec 3
  deriving DecidableEq, Repr

/-- The fields of an arithmetic instruction in format A or I (R25, R27). An operand the instruction does not take
is `Src.none` (R23); `sub` is sub[2:0]. -/
structure Alu where
  pred  : Pred
  stall : BitVec 4
  sub   : BitVec 3
  ty    : Ty
  rnd   : Rnd
  sat   : Bool
  ftz   : Bool
  d     : Reg
  a     : Src
  b     : SrcB
  c     : Src
  deriving DecidableEq, Repr

/-- An instruction with the common fields only (R95, R96). -/
structure Ctl where
  pred  : Pred
  stall : BitVec 4
  deriving DecidableEq, Repr

/-- The fixed format I instructions: MOVI, SRD, CSRR, CSRW, CALLSV, SLEEP, TRAP, BRK (R27, R28). -/
structure ImmI where
  pred  : Pred
  stall : BitVec 4
  ty    : Ty
  d     : Reg
  a     : Reg
  imm   : Word
  deriving DecidableEq, Repr

/-- MOVI64 (R144, R35). -/
structure Imm64 where
  pred  : Pred
  stall : BitVec 4
  d     : Reg
  imm   : Dword
  deriving DecidableEq, Repr

/-- The access widths of format M (R30). -/
inductive Width | u8 | s8 | u16 | s16 | b32 | b64 | b128
  deriving DecidableEq, Repr

/-- The orders of format M (R30). -/
inductive Order | plain | rlx | acq | rel | ar | sc
  deriving DecidableEq, Repr

/-- The scopes (R30, R267). -/
inductive Scope | crew | die | dev | sys
  deriving DecidableEq, Repr

/-- The uses of an atomic (R30, R262). -/
inductive Use | sync | unp | comm | nord | qnt | spec
  deriving DecidableEq, Repr

/-- The fields of format M (R29). -/
structure Mem where
  pred  : Pred
  stall : BitVec 4
  width : Width
  d     : BitVec 8
  base  : BitVec 8
  e     : BitVec 8
  win   : BitVec 2
  order : Order
  scope : Scope
  use   : Use
  split : Bool
  cache : BitVec 2
  off   : BitVec 24
  deriving DecidableEq, Repr

/-- The atomic operations (R31). -/
inductive AtomOp | add | min | max | and | or | xor | exch
  deriving DecidableEq, Repr

/-- Format T for the guards (R32, R108); GUARD leaves `ra`, `lo`, `hi` zero. -/
structure Guard where
  pred  : Pred
  stall : BitVec 4
  ra    : BitVec 8
  lo    : BitVec 16
  hi    : BitVec 16
  tgt   : BitVec 24
  deriving DecidableEq, Repr

/-- SKIP (R109): `n` instructions, 1 to 7. -/
structure Skip where
  pred  : Pred
  stall : BitVec 4
  n     : BitVec 3
  deriving DecidableEq, Repr

/-- A commit move (R114). -/
structure Move where
  dst : BitVec 8
  src : BitVec 8
  deriving DecidableEq, Repr

/-- Format T for COMMIT (R113): `pred` selects in SEL and is p7 elsewhere; `count` and `timeout` serve RWAIT. -/
structure Commit where
  pred    : Pred
  stall   : BitVec 4
  ra      : BitVec 8
  rb      : BitVec 8
  tgt0    : BitVec 24
  tgt1    : BitVec 24
  move0   : Option Move
  move1   : Option Move
  count   : BitVec 16
  timeout : BitVec 16
  deriving DecidableEq, Repr

/-- Format H (R33). -/
structure Trc where
  stall   : BitVec 4
  irr     : Bool
  full    : Bool
  traceId : BitVec 16
  budget  : BitVec 5
  len     : BitVec 8
  deriving DecidableEq, Repr

/-- The kinds of MMA (R212) in the order of their sub codes. -/
inductive MmaKind | f64 | f32 | bf16 | f16 | lg6 | i8 | w4
  deriving DecidableEq, Repr

/-- Format X for the matrix instructions (R34); fields an entry does not use are zero. `pair` is sub = 1 where the
entry has a 64-bit form; `kind` serves MMA and MMASP. -/
structure Mat where
  pred  : Pred
  stall : BitVec 4
  kind  : MmaKind
  pair  : Bool
  tile  : BitVec 4
  hA    : BitVec 12
  hB    : BitVec 12
  kr    : BitVec 8
  kc    : BitVec 8
  kp    : BitVec 8
  ta    : Bool
  tb    : Bool
  ovw   : Bool
  sat   : Bool
  vd    : BitVec 8
  vc    : BitVec 8
  deriving DecidableEq, Repr

/-- XCOPY and XCOLL (R292, R299). `sub` is sub[1:0]; `n` is kd or kc. -/
structure Xfer where
  pred  : Pred
  stall : BitVec 4
  sub   : BitVec 2
  n     : BitVec 8
  hD    : BitVec 12
  hS    : BitVec 12
  ka    : BitVec 8
  kv    : BitVec 8
  kp    : BitVec 8
  arr   : Bool
  comp  : Bool
  win   : BitVec 2
  deriving DecidableEq, Repr

/-- XWAIT (R300). -/
structure XWaitF where
  stall : BitVec 4
  n     : BitVec 8
  deriving DecidableEq, Repr

/-- LAUNCH (R311). -/
structure LaunchF where
  pred  : Pred
  stall : BitVec 4
  ks    : BitVec 8
  kp    : BitVec 8
  win   : BitVec 2
  deriving DecidableEq, Repr

/-! ## What the steps without a word act on -/

/-- The fault cause codes (R48). -/
inductive Cause
  | illop | illfield | illreg | illctx | stallshort | idemwrite | budget | fullcohort | misalign | addrovf
  | page | prot | stale | spaddr | qdead | jewel | poison | integrity | trap | brk | timer
  deriving DecidableEq, Repr

/-- A fault record's content (R321). `core` names the page's core for recoverable records. -/
structure FaultRec where
  cause    : Cause
  recov    : Bool
  handler  : Bool
  sideLog  : Bool
  engine   : Bool
  streamC  : Bool
  term     : Bool
  ctx      : Nat
  traceId  : BitVec 16
  offset   : Nat
  lane     : Nat
  core     : Nat
  cmd      : Nat
  wid      : Dword
  addr     : Nat
  crewId   : Dword
  stream   : Nat
  deriving DecidableEq, Repr

/-- The check that found damage (R356). -/
inductive Finder | l2 | hbm | garnet | check
  deriving DecidableEq, Repr

/-- A freeze report to the Crown (R356). `consumer` is the consuming context, none for a dirty-line detection; `tag`, `ownerValid` and `external`
are those of the sector's block; `snapshot` says that the page has a copy in a running launch; `thread` is the consuming thread, or 0. -/
structure Report where
  sector     : Nat
  finder     : Finder
  cause      : Cause
  consumer   : Option Nat
  tag        : Nat
  ownerValid : Bool
  external   : Bool
  snapshot   : Bool
  cluster    : Option Nat
  thread     : Nat
  record     : FaultRec
  deriving DecidableEq, Repr

/-- The owner that a report names (R357): the valid tag's context, none for an external writer, and without a valid tag the consumer. -/
def Report.owner (r : Report) : Option Nat :=
  if r.ownerValid then (if r.external then none else some r.tag) else r.consumer

/-- What the ranks of a collective must give alike (R296): operation, format, source shape and, for .BCAST, the root. -/
structure CollShape where
  op      : BitVec 2
  format  : Nat
  rows    : Nat
  columns : Nat
  root    : Nat
  deriving DecidableEq, Repr

/-- What a Tilpen flit brings, by its type (R378, R379): a read of as many bytes as it names or a write of them, an atomic (with no operation a
compare-and-swap) that answers with the old value, an answer, or a part of what a rank gives a collective, behind the parts before it. -/
inductive FlitBody
  | idle
  | request  (write : Bool) (addr : Nat) (bytes : List Byte) (tag : Nat)
  | atomic   (addr : Nat) (op : Option AtomOp) (cls : BitVec 2) (cmp : List Byte) (bytes : List Byte) (tag : Nat)
  | response (tag : Nat) (bytes : List Byte)
  | collective (op : Nat) (rank : Nat) (shape : CollShape) (elems : List Dword)
  | credit
  deriving DecidableEq, Repr

/-- A flit (R378): its sequence number and traffic class, whether its CRC holds, and its content. -/
structure Flit where
  seq   : BitVec 4
  cls   : BitVec 8
  crcOk : Bool
  body  : FlitBody
  deriving DecidableEq, Repr

/-- An atomic request at a home (R247, R260, R286): the word's physical address, width in bytes, arithmetic class,
operation, and the lanes' operands in ascending lane position. `ctx` is the writing context, `core` the core that sent it and `va` the virtual
address that it used. -/
structure AtomReq where
  addr  : Nat
  size  : Nat
  cls   : BitVec 2
  op    : AtomOp
  half  : Bool
  lanes : List Dword
  ctx   : Nat
  watch : Bool
  core  : Nat
  va    : Nat
  deriving DecidableEq, Repr

/-- A host request's way into HBM (R377): a read of `n` bytes, or a write of bytes. -/
inductive HostReq
  | read (addr n : Nat)
  | write (addr : Nat) (bytes : List Byte)
  deriving DecidableEq, Repr

/-- What POWER_GOOD finds (R383): the signature and key checks, and the units that fail their training or test. -/
structure BringUp where
  sigOk    : Bool
  keyOk    : Bool
  badStacks : List Nat
  badDies  : List Nat
  badFabric : List Nat
  badPorts : List Nat
  internal : Bool
  deriving DecidableEq, Repr

/-- What a wake event reaches (R381). -/
inductive PowerRes
  | core (n : Nat)
  | cluster (n : Nat)
  | die (n : Nat)
  deriving DecidableEq, Repr

/-- The instructions and steps: one constructor per row of the opcode table. -/
inductive Instr
  -- traces, guards and commit (06), and the waits at their boundaries (05)
  | nop (x : Ctl)
  | illegal
  | trc (x : Trc)
  | guard (x : Guard)
  | guardr (x : Guard)
  | guardnz (x : Guard)
  | guardFailFiling (thread alt : Nat)
  | skip (x : Skip)
  | commitNext (x : Commit)
  | commitSel (x : Commit)
  | commitInd (x : Commit)
  | commitCall (x : Commit)
  | commitRet (x : Commit)
  | commitExit (x : Commit)
  | commitBar (x : Commit)
  | commitRwait (x : Commit)
  | rwaitTimeout (crew addr : Nat)
  | matchKey (x : Alu)
  | trigger (x : Ctl)
  | yield (x : Ctl)
  | trap (x : ImmI)
  | brk (x : ImmI)
  | srd (x : ImmI)
  | qstat (x : Alu)
  -- integer and address arithmetic (07)
  | iadd (x : Alu)
  | isub (x : Alu)
  | imul (x : Alu)
  | imulh (x : Alu)
  | imad (x : Alu)
  | imadLong (x : Alu)
  | imin (x : Alu)
  | imax (x : Alu)
  | iaddc (x : Alu)
  | and (x : Alu)
  | or (x : Alu)
  | xor (x : Alu)
  | lop3 (x : Alu) (tt : BitVec 8)
  | shl (x : Alu)
  | shr (x : Alu)
  | sha (x : Alu)
  | funnel (x : Alu)
  | bfe (x : Alu)
  | bfi (x : Alu)
  | popc (x : Alu)
  | clz (x : Alu)
  | brev (x : Alu)
  | prmt (x : Alu)
  | iset (x : Alu)
  | pset (x : Alu)
  | sel (x : Alu)
  | mov (x : Alu)
  | movi (x : ImmI)
  | movi64 (x : Imm64)
  | padd (x : Alu)
  | lea (x : Alu)
  | cvti (x : Alu)
  | shfl (x : Alu)
  | vote (x : Alu)
  | matchv (x : Alu)
  | compact (x : Alu)
  | scan (x : Alu)
  | redux (x : Alu)
  -- floating point (08)
  | fadd (x : Alu)
  | fmul (x : Alu)
  | ffma (x : Alu)
  | dadd (x : Alu)
  | dmul (x : Alu)
  | dfma (x : Alu)
  | hadd2 (x : Alu)
  | hmul2 (x : Alu)
  | hfma2 (x : Alu)
  | fmin (x : Alu)
  | fmax (x : Alu)
  | dmin (x : Alu)
  | dmax (x : Alu)
  | hmin2 (x : Alu)
  | hmax2 (x : Alu)
  | fset (x : Alu)
  | dset (x : Alu)
  | hset2 (x : Alu)
  | fclass (x : Alu)
  | frnd (x : Alu)
  | frcp (x : Alu)
  | frsq (x : Alu)
  | fex2 (x : Alu)
  | flg2 (x : Alu)
  | fsinp (x : Alu)
  | fcosp (x : Alu)
  | drcp (x : Alu)
  | drsq (x : Alu)
  | cvt (x : Alu)
  | pack (x : Alu)
  | l6pack (x : Alu)
  | l6unpk (x : Alu)
  | w4unpk (x : Alu)
  | jewelReexecute (cohort : Nat)
  -- global memory (12, 13)
  | ld (x : Mem)
  | ldSplitGroup (cohort : Nat) (lanes : List Nat)
  | st (x : Mem)
  | atom (x : Mem) (op : AtomOp) (cls : BitVec 2)
  | atomcas (x : Mem)
  | pfetch (x : Mem)
  | kld (x : Mem)
  | fence (x : Mem)
  -- the scratchpad (09)
  | lds (x : Mem)
  | sts (x : Mem)
  | atoms (x : Mem)
  | renew (x : Mem)
  | arm (x : Mem)
  | await (x : Mem)
  | spage (x : Mem)
  -- the matrix unit (10)
  | mma (x : Mat)
  | mmasp (x : Mat)
  | mzero (x : Mat)
  | mwait (x : Mat)
  | mld (x : Mat)
  | mst (x : Mat)
  | mrd (x : Mat)
  | mwr (x : Mat)
  | tdesc (x : Mat)
  | matrixOpStart (core : Nat)
  | tileFetch (op : Nat)
  | mmaGroup (op : Nat)
  | tileOpComplete (op : Nat)
  -- engines (16)
  | xcopy (x : Xfer)
  | xcoll (x : Xfer)
  | xwait (x : XWaitF)
  | launch (x : LaunchF)
  | copyEngineTake (engine : Nat)
  | copyChunk (op : Nat)
  | completionWordWrite (op : Nat)
  | collectiveStep (op : Nat)
  | collectiveReduce (op : Nat)
  -- system registers and services (17)
  | csrr (x : ImmI)
  | csrw (x : ImmI)
  | ctxPtrootWrite (x : ImmI)
  | crewTimerWrite (x : ImmI)
  | errInjectL2Single (x : ImmI)
  | errInjectL2Uncorrectable (x : ImmI)
  | errInjectHbmUncorrectable (x : ImmI)
  | errInjectCheckMismatch (x : ImmI)
  | errInjectFpDisturb (x : ImmI)
  | errInjectDisarm (x : ImmI)
  | injectionMade (ctx : Nat)
  | version (x : ImmI)
  | whoami (x : ImmI)
  | yieldcrew (x : ImmI)
  | injectauth (x : ImmI)
  | faultq (x : ImmI)
  | callsvUnknown (x : ImmI)
  | sleep (x : ImmI)
  | sleepExpire (cohort : Nat)
  -- drawing, waiting and admission (05, 06, 16)
  | cohortDraw (core : Nat)
  | binAged (core : Nat)
  | fullcohortTimeout (core : Nat)
  | traceBufferGrant (core : Nat)
  | conduitStallResume (cohort : Nat)
  | deadlockProbeStart (cohort : Nat)
  | deadlockProbeReturn (crew : Nat)
  | joinDecrement (crew : Nat)
  | crewAdmit (core : Nat)
  | steal (die : Nat)
  -- translation (11)
  | sideLogReplay (core ctx page : Nat)
  | sideLogRoomRetry (core : Nat)
  | pageRetry (core ctx page : Nat)
  -- coherence messages (12)
  | rdtok (agent unit : Nat)
  | wrdie (die unit : Nat)
  | wrall (die unit : Nat)
  | atomMessage (r : AtomReq)
  | probe (unit target : Nat) (one : Bool)
  | ack (unit source tokens : Nat) (owner : Bool)
  | nullack (unit source : Nat)
  | evict (unit agent : Nat)
  | evictdata (unit die : Nat)
  | persreq (agent unit : Nat)
  | persdone (agent unit : Nat)
  | tokenRequestTimeout (unit : Nat)
  | persistentTableRetry (unit : Nat)
  | clusterResponderNullack (unit cluster : Nat)
  -- the Garnet monitor and timers (09, 17)
  | garnetMonitorVisit (core : Nat)
  | garnetRenewTick (core : Nat)
  | awaitStale (cohort : Nat)
  | crewTimerFire (crew : Nat)
  -- pre-emption, fault records and resolution (17, 18)
  | preemptCrew (crew : Nat) (resident : Bool)
  | crewRestore (crew core : Nat)
  | savedCrewRescue (crew : Nat)
  | faultRecordWrite (r : FaultRec)
  | consumerCountWrite (ctx : Nat)
  | resolveWrite (ctx : Nat)
  -- streams and launches (16)
  | tailWake (stream : Nat)
  | streamCommandStart
  | cmdLaunch (stream : Nat)
  | cmdCopy (stream : Nat)
  | cmdColl (stream : Nat)
  | cmdWaitmem (stream : Nat)
  | waitmemRecheck (stream : Nat)
  | cmdWritemem (stream : Nat)
  | cmdFence (stream : Nat)
  | cmdBias (stream : Nat)
  | launchWaitRelease (slot : Nat)
  | launchFinish (slot : Nat)
  -- the host, peers and the Crown (12, 20, 22)
  | biasFlipToHost (page : Nat)
  | biasFlipToDevice (page : Nat)
  | hostSnoop (line : Nat)
  | hostMemAccess (r : HostReq)
  | hostCacheResponse (id : Nat) (bytes : List Byte)
  | crownDecide (r : Report)
  | cowCopy (ctx page : Nat)
  | dieLost (die : Nat)
  | tilpenFlitReceive (port : Nat) (f : Flit)
  | tilpenPortDown (port : Nat)
  | peerAccessResponse (id : Nat) (bytes : List Byte)
  -- the mailbox services (22); their payload is in the request buffer
  | status
  | eventack
  | ctxcreate
  | ctxdestroy
  | preempt
  | slice
  | ptroot
  | testenable
  | partition
  | streamtab
  | commcreate
  | peerset
  | snapdesc
  | tolerance
  | nocweight
  | retired
  | tables
  | sleepreq
  | attest
  | mailboxUnknownService
  -- power and bring-up (22)
  | powerEnterC1 (core : Nat)
  | powerEnterC2 (cluster : Nat)
  | powerEnterC3 (die : Nat)
  | powerEnterC4
  | powerWake (r : PowerRes)
  | hostWake
  | thermalThrottle (milliC : Nat) (watts : Nat)
  | overtempShutdown (milliC : Nat)
  | powerGood (b : BringUp)
  | backInvalidateResponse (line : Nat) (bytes : List Byte)
  deriving DecidableEq, Repr

/-- No modifier (R37): the identity class with every other bit zero. -/
def Modifier.none : Modifier := ⟨false, 0, 0, .identity⟩
/-- The encoding of an operand an instruction does not take (R23). -/
def Src.none : Src := ⟨⟨.v, 0⟩, Modifier.none, false, false⟩
/-- The register field of an operand an instruction does not take (R23). -/
def Reg.zero : Reg := ⟨.v, 0⟩
/-- p7, not negated (R22): every active lane. -/
def Pred.always : Pred := ⟨false, 7⟩

/-- A turn: a cohort's next instruction, or a step of the hardware or of the outside. Beside the rows of the table the model has seven
turns of its own: the second half of a pending BF16X2 atomic (R261), an access that lost its translation and is made again (R229), a store that
reaches its home (R348), a way that is quarantined after an error in a clean copy (R354), a set of
an L2 slice that holds a block too many (R241), what a Tilpen port has received and not delivered (R378), and the host's write of a register of BAR0 (R372). -/
inductive Turn
  | issue (cohort : Nat)
  | hw (i : Instr)
  | half
  | reissue (id : Nat)
  | arrive (id : Nat)
  | retireWay (a : Nat)
  | victim (slice set : Nat)
  | serve (port : Nat)
  | mmio (off : Nat) (w : BitVec 32)
  deriving DecidableEq, Repr

/-- The rows that share the arithmetic mould of formats A and I: their tags, for the tables that decoding, encoding
and execution share. -/
inductive AluOp
  | iadd | isub | imul | imulh | imad | imadLong | imin | imax | iaddc | and | or | xor | shl | shr | sha
  | funnel | bfe | bfi | popc | clz | brev | prmt | iset | pset | sel | mov | padd | lea | cvti | shfl | vote
  | matchv | compact | scan | redux | fadd | fmul | ffma | dadd | dmul | dfma | hadd2 | hmul2 | hfma2 | fmin
  | fmax | dmin | dmax | hmin2 | hmax2 | fset | dset | hset2 | fclass | frnd | frcp | frsq | fex2 | flg2
  | fsinp | fcosp | drcp | drsq | cvt | pack | l6pack | l6unpk | w4unpk | matchKey | qstat
  deriving DecidableEq, Repr

/-- The instruction of a tag and its fields. -/
def AluOp.instr : AluOp → Alu → Instr
  | .iadd, x => .iadd x
  | .isub, x => .isub x
  | .imul, x => .imul x
  | .imulh, x => .imulh x
  | .imad, x => .imad x
  | .imadLong, x => .imadLong x
  | .imin, x => .imin x
  | .imax, x => .imax x
  | .iaddc, x => .iaddc x
  | .and, x => .and x
  | .or, x => .or x
  | .xor, x => .xor x
  | .shl, x => .shl x
  | .shr, x => .shr x
  | .sha, x => .sha x
  | .funnel, x => .funnel x
  | .bfe, x => .bfe x
  | .bfi, x => .bfi x
  | .popc, x => .popc x
  | .clz, x => .clz x
  | .brev, x => .brev x
  | .prmt, x => .prmt x
  | .iset, x => .iset x
  | .pset, x => .pset x
  | .sel, x => .sel x
  | .mov, x => .mov x
  | .padd, x => .padd x
  | .lea, x => .lea x
  | .cvti, x => .cvti x
  | .shfl, x => .shfl x
  | .vote, x => .vote x
  | .matchv, x => .matchv x
  | .compact, x => .compact x
  | .scan, x => .scan x
  | .redux, x => .redux x
  | .fadd, x => .fadd x
  | .fmul, x => .fmul x
  | .ffma, x => .ffma x
  | .dadd, x => .dadd x
  | .dmul, x => .dmul x
  | .dfma, x => .dfma x
  | .hadd2, x => .hadd2 x
  | .hmul2, x => .hmul2 x
  | .hfma2, x => .hfma2 x
  | .fmin, x => .fmin x
  | .fmax, x => .fmax x
  | .dmin, x => .dmin x
  | .dmax, x => .dmax x
  | .hmin2, x => .hmin2 x
  | .hmax2, x => .hmax2 x
  | .fset, x => .fset x
  | .dset, x => .dset x
  | .hset2, x => .hset2 x
  | .fclass, x => .fclass x
  | .frnd, x => .frnd x
  | .frcp, x => .frcp x
  | .frsq, x => .frsq x
  | .fex2, x => .fex2 x
  | .flg2, x => .flg2 x
  | .fsinp, x => .fsinp x
  | .fcosp, x => .fcosp x
  | .drcp, x => .drcp x
  | .drsq, x => .drsq x
  | .cvt, x => .cvt x
  | .pack, x => .pack x
  | .l6pack, x => .l6pack x
  | .l6unpk, x => .l6unpk x
  | .w4unpk, x => .w4unpk x
  | .matchKey, x => .matchKey x
  | .qstat, x => .qstat x

/-- The tag and fields of an instruction of the arithmetic mould. -/
def Instr.alu? : Instr → Option (AluOp × Alu)
  | .iadd x => some (.iadd, x)
  | .isub x => some (.isub, x)
  | .imul x => some (.imul, x)
  | .imulh x => some (.imulh, x)
  | .imad x => some (.imad, x)
  | .imadLong x => some (.imadLong, x)
  | .imin x => some (.imin, x)
  | .imax x => some (.imax, x)
  | .iaddc x => some (.iaddc, x)
  | .and x => some (.and, x)
  | .or x => some (.or, x)
  | .xor x => some (.xor, x)
  | .shl x => some (.shl, x)
  | .shr x => some (.shr, x)
  | .sha x => some (.sha, x)
  | .funnel x => some (.funnel, x)
  | .bfe x => some (.bfe, x)
  | .bfi x => some (.bfi, x)
  | .popc x => some (.popc, x)
  | .clz x => some (.clz, x)
  | .brev x => some (.brev, x)
  | .prmt x => some (.prmt, x)
  | .iset x => some (.iset, x)
  | .pset x => some (.pset, x)
  | .sel x => some (.sel, x)
  | .mov x => some (.mov, x)
  | .padd x => some (.padd, x)
  | .lea x => some (.lea, x)
  | .cvti x => some (.cvti, x)
  | .shfl x => some (.shfl, x)
  | .vote x => some (.vote, x)
  | .matchv x => some (.matchv, x)
  | .compact x => some (.compact, x)
  | .scan x => some (.scan, x)
  | .redux x => some (.redux, x)
  | .fadd x => some (.fadd, x)
  | .fmul x => some (.fmul, x)
  | .ffma x => some (.ffma, x)
  | .dadd x => some (.dadd, x)
  | .dmul x => some (.dmul, x)
  | .dfma x => some (.dfma, x)
  | .hadd2 x => some (.hadd2, x)
  | .hmul2 x => some (.hmul2, x)
  | .hfma2 x => some (.hfma2, x)
  | .fmin x => some (.fmin, x)
  | .fmax x => some (.fmax, x)
  | .dmin x => some (.dmin, x)
  | .dmax x => some (.dmax, x)
  | .hmin2 x => some (.hmin2, x)
  | .hmax2 x => some (.hmax2, x)
  | .fset x => some (.fset, x)
  | .dset x => some (.dset, x)
  | .hset2 x => some (.hset2, x)
  | .fclass x => some (.fclass, x)
  | .frnd x => some (.frnd, x)
  | .frcp x => some (.frcp, x)
  | .frsq x => some (.frsq, x)
  | .fex2 x => some (.fex2, x)
  | .flg2 x => some (.flg2, x)
  | .fsinp x => some (.fsinp, x)
  | .fcosp x => some (.fcosp, x)
  | .drcp x => some (.drcp, x)
  | .drsq x => some (.drsq, x)
  | .cvt x => some (.cvt, x)
  | .pack x => some (.pack, x)
  | .l6pack x => some (.l6pack, x)
  | .l6unpk x => some (.l6unpk, x)
  | .w4unpk x => some (.w4unpk, x)
  | .matchKey x => some (.matchKey, x)
  | .qstat x => some (.qstat, x)
  | _ => none

/-- Every tag of the arithmetic mould. -/
def AluOp.all : List AluOp :=
  [.iadd, .isub, .imul, .imulh, .imad, .imadLong, .imin, .imax, .iaddc, .and, .or, .xor, .shl, .shr, .sha,
   .funnel, .bfe, .bfi, .popc, .clz, .brev, .prmt, .iset, .pset, .sel, .mov, .padd, .lea, .cvti, .shfl, .vote,
   .matchv, .compact, .scan, .redux, .fadd, .fmul, .ffma, .dadd, .dmul, .dfma, .hadd2, .hmul2, .hfma2, .fmin,
   .fmax, .dmin, .dmax, .hmin2, .hmax2, .fset, .dset, .hset2, .fclass, .frnd, .frcp, .frsq, .fex2, .flg2,
   .fsinp, .fcosp, .drcp, .drsq, .cvt, .pack, .l6pack, .l6unpk, .w4unpk, .matchKey, .qstat]

/-- A use of registers by an instruction: a file (`none` is the predicate file), the first number, and how many
consecutive registers. -/
structure RegUse where
  file : Option RFile
  num  : Nat
  n    : Nat
  deriving DecidableEq, Repr

/-- What a decode check needs of the cohort beyond the word (R24, R104, R109, R126, R194): the trace's class and F, the
allotments, and the instruction's offset in a trace of length `len`. -/
structure DecodeEnv where
  irr      : Bool
  full     : Bool
  regs     : Nat
  conduits : Nat
  tiles    : Nat
  offset   : Nat
  len      : Nat
  deriving DecidableEq, Repr

end Sys2Proof
end

