-- ==== Sys2Proof/Machine/NumFmt.lean ====
section
/-! DEFINITION. Number formats to the last bit (R50 to R66): exact extended reals, the one rounding, exact sums, integers,
LG6, INT4 and FP4, and the correctly rounded functions of R160. -/

namespace Sys2Proof.Machine

/-- An exact extended real or NaN. `fin s m e sticky` has magnitude m 2^e; with `sticky` it lies strictly between that and
(m + 1) 2^e. Its sign is part of a zero (R53). -/
inductive XReal
  | nan
  | inf (s : Bool)
  | fin (s : Bool) (m : Nat) (e : Int) (sticky : Bool)
  deriving DecidableEq, Repr

/-- A binary format: fraction bits and exponent bits (R50). -/
structure Fmt where
  m  : Nat
  eb : Nat
  deriving DecidableEq, Repr

def f64 : Fmt := ⟨52, 11⟩
def f32 : Fmt := ⟨23, 8⟩
def f16 : Fmt := ⟨10, 5⟩
def bf16 : Fmt := ⟨7, 8⟩

def Fmt.width (F : Fmt) : Nat := F.m + F.eb + 1
def Fmt.bias (F : Fmt) : Nat := 2 ^ (F.eb - 1) - 1
def Fmt.emin (F : Fmt) : Int := 1 - (F.bias : Int)
/-- The encoding of a sign, an exponent field and a fraction. -/
def Fmt.enc (F : Fmt) (s : Bool) (ex fr : Nat) : Nat := s.toNat * 2 ^ (F.m + F.eb) + ex * 2 ^ F.m + fr
def Fmt.allOnes (F : Fmt) : Nat := 2 ^ F.eb - 1
/-- The fixed encodings (R50, R53). -/
def Fmt.canonNaN (F : Fmt) : Nat := F.enc false F.allOnes (2 ^ (F.m - 1))
def Fmt.infOf (F : Fmt) (s : Bool) : Nat := F.enc s F.allOnes 0
def Fmt.zeroOf (F : Fmt) (s : Bool) : Nat := F.enc s 0 0
def Fmt.maxOf (F : Fmt) (s : Bool) : Nat := F.enc s (F.allOnes - 1) (2 ^ F.m - 1)

def Fmt.sign (F : Fmt) (n : Nat) : Bool := n / 2 ^ (F.m + F.eb) % 2 == 1
def Fmt.expo (F : Fmt) (n : Nat) : Nat := n / 2 ^ F.m % 2 ^ F.eb
def Fmt.frac (F : Fmt) (n : Nat) : Nat := n % 2 ^ F.m
def Fmt.isNaN (F : Fmt) (n : Nat) : Bool := F.expo n == F.allOnes && F.frac n != 0
def Fmt.isInf (F : Fmt) (n : Nat) : Bool := F.expo n == F.allOnes && F.frac n == 0
def Fmt.isZero (F : Fmt) (n : Nat) : Bool := F.expo n == 0 && F.frac n == 0
def Fmt.isSub (F : Fmt) (n : Nat) : Bool := F.expo n == 0 && F.frac n != 0

/-- The value an encoding holds (R50). -/
def Fmt.value (F : Fmt) (n : Nat) : XReal :=
  if F.isNaN n then .nan
  else if F.isInf n then .inf (F.sign n)
  else if F.expo n == 0 then .fin (F.sign n) (F.frac n) (F.emin - F.m) false
  else .fin (F.sign n) (2 ^ F.m + F.frac n) (F.expo n - F.bias - F.m) false

/-- R55. -/
def Fmt.flush (F : Fmt) (n : Nat) : Nat := if F.isSub n then F.zeroOf (F.sign n) else n

/-- R53, Overflow. -/
def Fmt.overflow (F : Fmt) (s : Bool) (mode : Rnd) : Nat :=
  match mode, s with
  | .rn, _ => F.infOf s
  | .rz, _ => F.maxOf s
  | .ru, false => F.infOf false
  | .ru, true => F.maxOf true
  | .rd, true => F.infOf true
  | .rd, false => F.maxOf false

/-- Round a magnitude `q + r` with q whole and 0 ≤ r < 1 to a whole number by mode: `half` compares r with one half and
`any` says r > 0 (R53). -/
def roundWhole (s : Bool) (mode : Rnd) (q : Nat) (half : Ordering) (any : Bool) : Nat :=
  let up : Bool := match mode with
    | .rn => half == .gt || (half == .eq && q % 2 == 1)
    | .rz => false
    | .ru => any && !s
    | .rd => any && s
  if up then q + 1 else q

/-- The magnitude m 2^e, with sticky, on the grid 2^g: the whole part and how the rest compares. -/
def onGrid (m : Nat) (e g : Int) (sticky : Bool) : Nat × Ordering × Bool :=
  if e ≥ g then (m * 2 ^ (e - g).toNat, if sticky then .lt else .lt, sticky)
  else
    let d := (g - e).toNat
    let r := m % 2 ^ d
    let h := 2 ^ (d - 1)
    (m / 2 ^ d, if r < h then .lt else if r == h && !sticky then .eq else .gt, r != 0 || sticky)

/-- Round (R53): x rounded once into F. -/
def Fmt.round (F : Fmt) (x : XReal) (mode : Rnd) (ftz : Bool) : Nat :=
  match x with
  | .nan => F.canonNaN
  | .inf s => F.infOf s
  | .fin s m e sticky =>
    if m == 0 && !sticky then F.zeroOf s
    else
      let ex := max ((Nat.log2 m : Int) + e) F.emin
      let g := onGrid m e (ex - F.m) sticky
      let n := roundWhole s mode g.1 g.2.1 g.2.2
      if n == 0 then F.zeroOf s
      else
        let (n, ex) := if n == 2 ^ (F.m + 1) then (2 ^ F.m, ex + 1) else (n, ex)
        if ex > F.bias then F.overflow s mode
        else if n < 2 ^ F.m then (if ftz then F.zeroOf s else F.enc s 0 n)
        else F.enc s (ex + F.bias).toNat (n - 2 ^ F.m)

/-- FinishFloat (R56). -/
def Fmt.finish (F : Fmt) (x : XReal) (mode : Rnd) (ftz sat : Bool) : Nat :=
  let y := F.round x mode ftz
  if sat && F.isInf y then F.maxOf (F.sign y) else y

def XReal.neg : XReal → XReal
  | .nan => .nan
  | .inf s => .inf (!s)
  | .fin s m e t => .fin (!s) m e t

/-- The sign of an exact value; NaN has none. -/
def XReal.sgn : XReal → Bool
  | .nan => false
  | .inf s => s
  | .fin s _ _ _ => s

def XReal.isZero : XReal → Bool
  | .fin _ m _ t => m == 0 && !t
  | _ => false

def XReal.special : XReal → Bool
  | .fin _ _ _ _ => false
  | _ => true

/-- Prod (R154): the exact product with its IEEE specials and zero sign. -/
def XReal.prod : XReal → XReal → XReal
  | .nan, _ | _, .nan => .nan
  | .inf s, .inf s' => .inf (s != s')
  | .inf s, .fin s' m _ t | .fin s' m _ t, .inf s => if m == 0 && !t then .nan else .inf (s != s')
  | .fin s m e _, .fin s' m' e' _ => .fin (s != s') (m * m') (e + e') false

/-- The signed whole multiple of 2^g that an exact finite value is. -/
def XReal.wholeAt (g : Int) : XReal → Int
  | .fin s m e _ => let v := ((m * 2 ^ (e - g).toNat : Nat) : Int); if s then -v else v
  | _ => 0

/-- The smallest exponent of the finite values of a list. -/
def minExp (l : List XReal) (start : Int) : Int :=
  l.foldl (init := start) fun g x => match x with
    | .fin _ m e _ => if m == 0 then g else min g e
    | _ => g

/-- ExactSum (R54). -/
def exactSum (l : List XReal) (mode : Rnd) : XReal :=
  if l.contains .nan || (l.contains (.inf false) && l.contains (.inf true)) then .nan
  else if l.contains (.inf false) then .inf false
  else if l.contains (.inf true) then .inf true
  else
    let g := minExp l 4096
    let t := (l.map (XReal.wholeAt g)).sum
    if t == 0 then
      let allZero := l.all (·.isZero)
      if allZero && l.all (·.sgn) && !l.isEmpty then .fin true 0 0 false
      else if allZero && l.all (!·.sgn) then .fin false 0 0 false
      else .fin (mode == .rd) 0 0 false
    else .fin (t < 0) t.natAbs g false

/-- A value rounded to a whole number (R53 directions). -/
def XReal.toWhole (x : XReal) (mode : Rnd) : Int :=
  match x with
  | .fin s m e t =>
    let g := onGrid m e 0 t
    let n := roundWhole s mode g.1 g.2.1 g.2.2
    if s then -(n : Int) else n
  | _ => 0

/-- An exact whole number. -/
def XReal.ofInt (t : Int) : XReal := .fin (t < 0) t.natAbs 0 false

/-! ## Integers (R57, R58) -/

def wrapInt (t : Int) (n : Nat) : Nat := (t % (2 ^ n : Nat)).toNat
def satU (t : Int) (n : Nat) : Int := min (max t 0) (2 ^ n - 1)
def satS (t : Int) (n : Nat) : Int := min (max t (-(2 ^ (n - 1)))) (2 ^ (n - 1) - 1)

/-- An n-bit result: wrapped, or saturated by signedness, as its bits (R57). -/
def intBits (t : Int) (n : Nat) (signed sat : Bool) : Nat :=
  if sat then wrapInt (if signed then satS t n else satU t n) n else wrapInt t n

/-- An n-bit pattern read by signedness. -/
def intOf (v n : Nat) (signed : Bool) : Int :=
  let v := v % 2 ^ n
  if signed && v ≥ 2 ^ (n - 1) then (v : Int) - 2 ^ n else v

/-- CvtToInt (R58), as its bits. -/
def cvtToInt (x : XReal) (n : Nat) (signed : Bool) (mode : Rnd) : Nat :=
  match x with
  | .nan => 0
  | .inf s => intBits (if s then -(2 ^ n) else 2 ^ n) n signed true
  | _ => intBits (x.toWhole mode) n signed true

/-! ## LG6, INT4 and FP4 (R59 to R64) -/

/-- T of R60. -/
def lgT (k : Nat) : Nat := match k % 4 with | 0 => 1024 | 1 => 1218 | 2 => 1448 | _ => 1722

/-- LogToLin (R60). -/
def logToLin (s : Bool) (k : Nat) (scale : Int) : XReal := .fin s (lgT k) ((k / 4 : Nat) - 14 + scale) false

/-- LogMul (R61); NaR is NaN. Elements are 6-bit patterns. -/
def logMul (a b : Nat) (scaleA scaleB : Int) : XReal :=
  let ka := a % 32
  let kb := b % 32
  let sa := a / 32 % 2 == 1
  let sb := b / 32 % 2 == 1
  if (sa && ka == 0) || (sb && kb == 0) then .nan
  else if ka == 0 || kb == 0 then .fin false 0 0 false
  else .fin (sa != sb) (lgT (ka + kb)) (((ka + kb) / 4 : Nat) - 18 + scaleA + scaleB) false

/-- L6Enc (R62). -/
def l6Enc (x : XReal) (scale : Int) : Nat :=
  match x with
  | .nan | .inf _ => 32
  | .fin s m e _ =>
    let g := min e (scale - 14)
    let a := m * 2 ^ (e - g).toNat
    let v (k : Nat) : Nat := if k == 0 then 0 else lgT k * 2 ^ (scale - 14 - g + (k / 4 : Nat)).toNat
    let dist (k : Nat) : Nat := if a ≥ v k then a - v k else v k - a
    let k := (List.range 32).foldl (init := 0) fun b k =>
      if dist k < dist b || (dist k == dist b && k % 2 == 0) then k else b
    if k == 0 then 0 else s.toNat * 32 + k

/-- W4Val (R63): the value of a code; `fp` selects FP4. -/
def w4Val (code : Nat) (fp : Bool) : XReal :=
  if fp then
    let s := code / 8 % 2 == 1
    let x := code / 2 % 4
    let f := code % 2
    if x == 0 then .fin s f (-1) false else .fin s (2 + f) (x - 2 : Int) false
  else XReal.ofInt (intOf code 4 true)

/-- W4Deq (R64), a BF16 pattern. -/
def w4Deq (code : Nat) (fp : Bool) (g : Nat) : Nat := bf16.round (XReal.prod (w4Val code fp) (bf16.value g)) .rn false

/-! ## Reciprocals and roots (R160, R161) -/

/-- Bits of the working quotients. -/
def recipBits : Nat := 72

/-- 1/x for a finite nonzero x, with sticky. -/
def recip (s : Bool) (m : Nat) (e : Int) : XReal :=
  let k := Nat.log2 m + recipBits
  .fin s (2 ^ k / m) (-e - k) (2 ^ k % m != 0)

/-- The whole square root, found from bit k down. -/
def isqrtFrom (n : Nat) : Nat → Nat → Nat
  | 0, r => if (r + 1) * (r + 1) ≤ n then r + 1 else r
  | k + 1, r =>
    let t := r + 2 ^ (k + 1)
    isqrtFrom n k (if t * t ≤ n then t else r)

/-- 1/√(m 2^e) with sticky. -/
def rsqrt (m : Nat) (e : Int) : XReal :=
  let (m, e) := if e % 2 == 0 then (m, e) else (2 * m, e - 1)
  let k := Nat.log2 m + recipBits
  let n := 2 ^ (2 * k) / m
  let q := isqrtFrom n (k + 1) 0
  .fin false q (-(e / 2) - k) (q * q * m != 2 ^ (2 * k))

/-! ## Powers, logarithms and the sine of πx (R160). A finite working precision with a sticky bit: no FP32 operand comes as
near a rounding boundary as the working error (DEDUCED, log 10). -/

/-- π 2^400 and ln 2 · 2^200, rounded down. -/
def piFixed : Nat :=
  0x3243f6a8885a308d313198a2e03707344a4093822299f31d0082efa98ec4e6c89452821e638d01377be5466cf34e90c6cc0ac
def ln2Fixed : Nat := 0xb17217f7d1cf79abc9e3b39803f2f6af40f343267298b62d8a

/-- Σ t^k / k! on the grid 2^-p, from the term of index k on. -/
def expSeries (p t : Nat) : Nat → Nat → Nat → Nat
  | 0, _, _ => 0
  | f + 1, k, term => term + expSeries p t f (k + 1) (term * t / 2 ^ p / (k + 1))

/-- 2^(m 2^e) with its sign. -/
def exp2 (s : Bool) (m : Nat) (e : Int) : XReal :=
  let p := 200
  if (Nat.log2 m : Int) + e > 12 then (if s then .fin false 1 (-4096) true else .fin false 1 4096 true)
  else
    let whole : Nat := if e ≥ 0 then m * 2 ^ e.toNat else m / 2 ^ (-e).toNat
    let rest : Nat := if e ≥ 0 then 0 else m % 2 ^ (-e).toNat
    let d : Nat := (-e).toNat
    if rest == 0 then .fin false 1 (if s then -(whole : Int) else whole) false
    else
      -- for a negative operand 2^-(whole + f) = 2^-(whole + 1) 2^(1 - f)
      let f := if s then (2 ^ d - rest) * 2 ^ p / 2 ^ d else rest * 2 ^ p / 2 ^ d
      let n : Int := if s then -(whole : Int) - 1 else whole
      let t := f * ln2Fixed / 2 ^ p
      .fin false (expSeries p t 64 0 (2 ^ p)) (n - p) true

/-- Σ z^(2k+1) / (2k+1) on the grid 2^-p, from the power `zp` of index `k` on; `z2` is z². -/
def atanhSeries (p z2 : Nat) : Nat → Nat → Nat → Nat
  | 0, _, _ => 0
  | f + 1, k, zp => zp / (2 * k + 1) + atanhSeries p z2 f (k + 1) (zp * z2 / 2 ^ p)

/-- log2 (m 2^e) for a nonzero m. -/
def flog2 (m : Nat) (e : Int) : XReal :=
  let p := 200
  let n := Nat.log2 m
  let ex : Int := n + e
  if m == 2 ^ n then XReal.ofInt ex
  else
    let x := m * 2 ^ p / 2 ^ n
    let z := (x - 2 ^ p) * 2 ^ p / (x + 2 ^ p)
    let l := 2 * atanhSeries p (z * z / 2 ^ p) 80 0 z * 2 ^ p / ln2Fixed
    let t : Int := ex * 2 ^ p + l
    .fin (t < 0) t.natAbs (-p) true

/-- Σ (-1)^i t^(2i+1) / (2i+1)! on the grid 2^-p, from the term of index `i` on. -/
def sinSeries (p t2 : Nat) : Nat → Nat → Nat → Int
  | 0, _, _ => 0
  | f + 1, i, term => (term : Int) - sinSeries p t2 f (i + 1) (term * t2 / 2 ^ p / ((2 * i + 2) * (2 * i + 3)))

/-- sin (π n / 2^k), k ≥ 1, with its sign; a zero has the sign `zs`. -/
def sinPi (s : Bool) (n k : Nat) (zs : Bool) : XReal :=
  let q := n % 2 ^ (k + 1)
  let (s, q) := if q ≥ 2 ^ k then (!s, q - 2 ^ k) else (s, q)
  let q := if q > 2 ^ (k - 1) then 2 ^ k - q else q
  if q == 0 then .fin zs 0 0 false
  else if q == 2 ^ (k - 1) then .fin s 1 0 false
  else
    let p := 160 + (k - Nat.log2 q)
    let t := q * 2 ^ p / 2 ^ k * (piFixed / 2 ^ (400 - p)) / 2 ^ p
    .fin s (sinSeries p (t * t / 2 ^ p) 64 0 t).toNat (-p) true

/-- FSINP (R161) of a finite value. -/
def sinpOf (s : Bool) (m : Nat) (e : Int) : XReal :=
  if m == 0 then .fin s 0 0 false
  else if e ≥ 0 then .fin s 0 0 false
  else sinPi s m (-e).toNat s

/-- FCOSP (R161) of a finite value: cos πx = sin π(x + 1/2). -/
def cospOf (m : Nat) (e : Int) : XReal :=
  if e ≥ 0 then (if m * 2 ^ e.toNat % 2 == 0 then .fin false 1 0 false else .fin true 1 0 false)
  else
    let k := (-e).toNat
    sinPi false (m + 2 ^ (k - 1)) k false

/-- f(a) of R160, R161 for the unary functions. -/
inductive UnFn | rcp | rsq | ex2 | lg2 | sinp | cosp
  deriving DecidableEq, Repr

def UnFn.apply (f : UnFn) (x : XReal) : XReal :=
  match f, x with
  | _, .nan => .nan
  | .rcp, .inf s => .fin s 0 0 false
  | .rcp, .fin s m e _ => if m == 0 then .inf s else recip s m e
  | .rsq, .inf s => if s then .nan else .fin false 0 0 false
  | .rsq, .fin s m e _ => if m == 0 then .inf s else if s then .nan else rsqrt m e
  | .ex2, .inf s => if s then .fin false 0 0 false else .inf false
  | .ex2, .fin s m e _ => if m == 0 then .fin false 1 0 false else exp2 s m e
  | .lg2, .inf s => if s then .nan else .inf false
  | .lg2, .fin s m e _ => if m == 0 then .inf true else if s then .nan else flog2 m e
  | .sinp, .inf _ | .cosp, .inf _ => .nan
  | .sinp, .fin s m e _ => sinpOf s m e
  | .cosp, .fin _ m e _ => cospOf m e

/-! ## The matrix group (R66) -/

/-- MmaGroup on a floating accumulator. -/
def mmaGroupF (F : Fmt) (acc : Nat) (ps : List XReal) (sat : Bool) : Nat :=
  F.finish (exactSum (F.value acc :: ps) .rn) .rn false sat

/-- MmaGroup on INT32. -/
def mmaGroupI (acc : Nat) (ps : List Int) (sat : Bool) : Nat := intBits (intOf acc 32 true + ps.sum) 32 true sat

/-! ## Jewel's comparison (R168) -/

/-- The class of an encoding for case 1: NaN, infinity, zero, finite nonzero. -/
def Fmt.cls (F : Fmt) (n : Nat) : Nat := if F.isNaN n then 0 else if F.isInf n then 1 else if F.isZero n then 2 else 3

/-- floor(log2 |x|) of a finite nonzero value. -/
def XReal.binade : XReal → Option Int
  | .fin _ m e _ => if m == 0 then none else some (Nat.log2 m + e)
  | _ => none

/-- Whether result r diverges from its shadow r', both encodings of F, with the exact addends of a sum or fused form; no
addends for the other forms. -/
def Fmt.diverges (F : Fmt) (r r' : Nat) (addends : List XReal) : Bool :=
  let special := addends.any (·.special)
  let emax := (addends.filterMap (·.binade)).foldl (init := (none : Option Int)) fun b x =>
    some (match b with | none => x | some y => max x y)
  let bin := if F.isSub r then F.emin else (F.value r).binade.getD 0
  let cancelled := !special && match emax with
    | none => false
    | some top => F.isZero r || (F.cls r == 3 && bin + 6 < top)
  let c1 := if cancelled then (if F.cls r == 2 then 3 else F.cls r) != (if F.cls r' == 2 then 3 else F.cls r')
    else F.cls r != F.cls r'
  let c2 := !F.isNaN r && !F.isNaN r' && F.sign r != F.sign r' && !(cancelled && F.isZero r)
  let c3 := !cancelled && !special && F.cls r == 3 && F.cls r' == 3 &&
    (let d := exactSum [F.value r, (F.value r').neg] .rn
     match exactSum [.fin false 1 (bin - 5) false, (match d with | .fin _ m e t => .fin true m e t | x => x)] .rn with
     | .fin true m _ _ => m != 0
     | _ => false)
  c1 || c2 || c3

end Sys2Proof.Machine
end

