-- ==== Sys2Proof/Machine/Flags.lean ====
section
/-! DEFINITION. What an instruction writes into a predicate: compares (R141, R156), predicate logic (R142), carry (R133). -/

namespace Sys2Proof.Machine

/-- ISET's condition codes (R141). -/
def intCond (cc : Nat) (a b : Int) : Bool :=
  match cc with
  | 0 => a == b
  | 1 => a != b
  | 2 => a < b
  | 3 => a ≤ b
  | 4 => a > b
  | _ => a ≥ b

/-- PSET's functions (R142). -/
def predFn (fn : Nat) (a b : Bool) : Bool :=
  match fn with
  | 0 => a && b
  | 1 => a || b
  | 2 => a != b
  | 3 => a && !b
  | 4 => a || !b
  | 5 => !(a && b)
  | 6 => !(a || b)
  | _ => a == b

/-- The order key of a number pattern: -0 and +0 compare equal (R156). -/
def Fmt.key (F : Fmt) (n : Nat) : Int :=
  let m := ((n % 2 ^ (F.m + F.eb) : Nat) : Int)
  if F.sign n then -m else m

/-- The floating-point condition codes (R156). -/
def floatCond (F : Fmt) (cc a b : Nat) : Bool :=
  let nan := F.isNaN a || F.isNaN b
  let x := F.key a
  let y := F.key b
  match cc with
  | 0 => !nan && x == y
  | 1 => nan || x != y
  | 2 => !nan && x < y
  | 3 => !nan && x ≤ y
  | 4 => !nan && x > y
  | 5 => !nan && x ≥ y
  | 6 => !nan
  | _ => nan

/-- IADDC (R133): the sum and the carry. -/
def addCarry (n a b : Nat) (cin : Bool) : Nat × Bool :=
  let t := a + b + cin.toNat
  (t % 2 ^ n, t ≥ 2 ^ n)

end Sys2Proof.Machine
end

