-- ==== Sys2Proof/Decode.lean ====
section
/-! DEFINITION. The decoder: 128-bit words to instructions or to a decode cause (R21 to R42), the checks that need
the trace's class and the allotment (R24, R104, R126), and the encoder. Every format is a list of field widths, lowest
bits first, as the manual's tables give them. -/

namespace Sys2Proof

/-! ## Cutting a word into fields -/

/-- The values of consecutive fields of the given widths, lowest bits first. -/
def unpack : List Nat → Nat → List Nat
  | [], _ => []
  | w :: ws, n => n % 2 ^ w :: unpack ws (n / 2 ^ w)

/-- The number whose consecutive fields, lowest bits first, hold the values. -/
def packFields : List Nat → List Nat → Nat
  | w :: ws, v :: vs => v % 2 ^ w + 2 ^ w * packFields ws vs
  | _, _ => 0

/-- Format A (R25). -/
def widthsA : List Nat := [8, 4, 4, 4, 8, 8, 8, 8, 12, 12, 12, 2, 2, 2, 2, 4, 2, 1, 1, 1, 1, 1, 1, 1, 1, 18]
/-- Format I (R27). -/
def widthsI : List Nat := [8, 4, 4, 4, 8, 8, 12, 2, 2, 4, 2, 1, 5, 32, 32]
/-- Format M (R29). -/
def widthsM : List Nat := [8, 4, 4, 4, 8, 8, 2, 3, 3, 3, 1, 2, 2, 8, 4, 24, 40]
/-- Format T (R32). -/
def widthsT : List Nat := [8, 4, 4, 4, 8, 8, 24, 24, 16, 16, 2, 10]
/-- Format H (R33). -/
def widthsH : List Nat := [8, 4, 4, 1, 1, 2, 16, 5, 8, 79]
/-- Format X for the matrix instructions (R34, R35). -/
def widthsX : List Nat := [8, 4, 4, 4, 4, 4, 12, 12, 8, 8, 8, 1, 1, 1, 1, 4, 8, 8, 28]
/-- Format X for the engine instructions (R292). -/
def widthsE : List Nat := [8, 4, 4, 4, 8, 12, 12, 8, 8, 8, 1, 1, 2, 48]
/-- XWAIT (R300). -/
def widthsW : List Nat := [8, 4, 4, 4, 56, 8, 44]

/-- The opcode of a word (R21). -/
def opOf (n : Nat) : Nat := n % 256

/-! ## Codes -/

def RFile.code : RFile → Nat
  | .v => 0 | .k => 1 | .q => 2

def RFile.ofCode : Nat → Option RFile
  | 0 => some .v | 1 => some .k | 2 => some .q | _ => none

def ModClass.code : ModClass → Nat
  | .identity => 0 | .rotate => 1 | .butterfly => 2 | .broadcast => 3

def ModClass.ofCode : Nat → Option ModClass
  | 0 => some .identity | 1 => some .rotate | 2 => some .butterfly | 3 => some .broadcast | _ => none

/-- R38. -/
def Ty.code : Ty → Nat
  | .u32 => 0 | .s32 => 1 | .u64 => 2 | .s64 => 3 | .u16x2 => 4 | .s16x2 => 5 | .u8x4 => 6 | .f32 => 7 | .f64 => 8
  | .bf16x2 => 9 | .f16x2 => 10 | .f16 => 11 | .bf16 => 12 | .lg6 => 13 | .u16 => 14 | .s16 => 15

def Ty.ofCode : Nat → Ty
  | 0 => .u32 | 1 => .s32 | 2 => .u64 | 3 => .s64 | 4 => .u16x2 | 5 => .s16x2 | 6 => .u8x4 | 7 => .f32 | 8 => .f64
  | 9 => .bf16x2 | 10 => .f16x2 | 11 => .f16 | 12 => .bf16 | 13 => .lg6 | 14 => .u16 | _ => .s16

/-- R39. -/
def Rnd.code : Rnd → Nat
  | .rn => 0 | .rz => 1 | .ru => 2 | .rd => 3

def Rnd.ofCode : Nat → Rnd
  | 0 => .rn | 1 => .rz | 2 => .ru | _ => .rd

/-- R30. -/
def Width.code : Width → Nat
  | .u8 => 0 | .s8 => 1 | .u16 => 2 | .s16 => 3 | .b32 => 4 | .b64 => 5 | .b128 => 6

def Width.ofCode : Nat → Option Width
  | 0 => some .u8 | 1 => some .s8 | 2 => some .u16 | 3 => some .s16 | 4 => some .b32 | 5 => some .b64
  | 6 => some .b128 | _ => none

def Order.code : Order → Nat
  | .plain => 0 | .rlx => 1 | .acq => 2 | .rel => 3 | .ar => 4 | .sc => 5

def Order.ofCode : Nat → Option Order
  | 0 => some .plain | 1 => some .rlx | 2 => some .acq | 3 => some .rel | 4 => some .ar | 5 => some .sc | _ => none

def Scope.code : Scope → Nat
  | .crew => 0 | .die => 1 | .dev => 2 | .sys => 3

def Scope.ofCode : Nat → Option Scope
  | 0 => some .crew | 1 => some .die | 2 => some .dev | 3 => some .sys | _ => none

def Use.code : Use → Nat
  | .sync => 0 | .unp => 1 | .comm => 2 | .nord => 3 | .qnt => 4 | .spec => 5

def Use.ofCode : Nat → Option Use
  | 0 => some .sync | 1 => some .unp | 2 => some .comm | 3 => some .nord | 4 => some .qnt | 5 => some .spec | _ => none

/-- R31. -/
def AtomOp.code : AtomOp → Nat
  | .add => 0 | .min => 1 | .max => 2 | .and => 3 | .or => 4 | .xor => 5 | .exch => 6

def AtomOp.ofCode : Nat → Option AtomOp
  | 0 => some .add | 1 => some .min | 2 => some .max | 3 => some .and | 4 => some .or | 5 => some .xor
  | 6 => some .exch | _ => none

/-- R212. -/
def MmaKind.code : MmaKind → Nat
  | .f64 => 0 | .f32 => 1 | .bf16 => 2 | .f16 => 3 | .lg6 => 4 | .i8 => 5 | .w4 => 6

def MmaKind.ofCode : Nat → Option MmaKind
  | 0 => some .f64 | 1 => some .f32 | 2 => some .bf16 | 3 => some .f16 | 4 => some .lg6 | 5 => some .i8
  | 6 => some .w4 | _ => none

/-- The fault cause codes (R48). -/
def Cause.code : Cause → Nat
  | .illop => 0x01 | .illfield => 0x02 | .illreg => 0x03 | .illctx => 0x04 | .stallshort => 0x05 | .idemwrite => 0x06
  | .budget => 0x07 | .fullcohort => 0x08 | .misalign => 0x09 | .addrovf => 0x0a | .page => 0x10 | .prot => 0x11
  | .stale => 0x12 | .spaddr => 0x13 | .qdead => 0x14 | .jewel => 0x18 | .poison => 0x19 | .integrity => 0x1a
  | .trap => 0x20 | .brk => 0x21 | .timer => 0x22

/-- The source modifier (R36), as bits [11] empty, [10:6] distance, [5:3] s, [2:0] class. -/
def Modifier.code (m : Modifier) : Nat :=
  packFields [3, 3, 5, 1] [m.cls.code, m.seg.toNat, m.dist.toNat, m.own.toNat]

def Modifier.ofCode (n : Nat) : Option Modifier :=
  match unpack [3, 3, 5, 1] n with
  | [c, s, d, o] => (ModClass.ofCode c).map fun cls => ⟨o == 1, BitVec.ofNat 5 d, BitVec.ofNat 3 s, cls⟩
  | _ => none

def Pred.code (p : Pred) : Nat := packFields [3, 1] [p.num.toNat, p.neg.toNat]

def Pred.ofCode (n : Nat) : Pred := ⟨n / 8 == 1, BitVec.ofNat 3 (n % 8)⟩

/-- The pred value 0xF, reserved on every opcode (R22). -/
def Pred.reserved (p : Pred) : Bool := p.neg && p.num == 7

/-! ## Types -/

def Ty.is64 : Ty → Bool
  | .u64 | .s64 | .f64 => true
  | _ => false

def Ty.isFloat : Ty → Bool
  | .f32 | .f64 | .bf16x2 | .f16x2 | .f16 | .bf16 => true
  | _ => false

/-- The types on which negate and absolute act (R26): signed integers and floats. -/
def Ty.signed : Ty → Bool
  | .s32 | .s64 | .s16x2 | .s16 => true
  | t => t.isFloat

/-! ## The shape of each arithmetic instruction (R94, R98, R130 to R166) -/

/-- How wide an operand is: absent, one register, a pair, or a predicate number. -/
inductive Span | absent | one | pair | pred
  deriving DecidableEq, Repr

/-- The files an operand accepts. -/
inductive Files | vkq | vk | v | q
  deriving DecidableEq, Repr

/-- What an entry says of one operand: its span, its files, whether a source modifier may stand on it, and whether
negate and absolute may. -/
structure OpSpec where
  span  : Span
  files : Files
  mod   : Bool
  sgn   : Bool
  deriving DecidableEq, Repr

/-- What an entry says of a form (a sub value and a type): its operands and which option bits it honours. -/
structure Shape where
  d   : OpSpec
  a   : OpSpec
  b   : OpSpec
  c   : OpSpec
  ok  : Bool
  rnd : Bool
  sat : Bool
  ftz : Bool
  deriving DecidableEq, Repr

def OpSpec.absent : OpSpec := ⟨.absent, .v, false, false⟩
def OpSpec.pred : OpSpec := ⟨.pred, .v, false, false⟩
/-- A register source; negate and absolute follow the type (R26). -/
def OpSpec.src (wide sgn : Bool) : OpSpec := ⟨if wide then .pair else .one, .vkq, true, sgn⟩
def OpSpec.dst (wide : Bool) : OpSpec := ⟨if wide then .pair else .one, .vkq, false, false⟩
/-- A lane-exchange operand: no modifier, no sign bits, the given files (R148). -/
def OpSpec.lane (wide : Bool) (f : Files) : OpSpec := ⟨if wide then .pair else .one, f, false, false⟩

/-- The integer source types of CVTI, by sub (R146): width in bits and signedness. -/
def cvtiSrc : Nat → Nat × Bool
  | 0 => (32, false) | 1 => (32, true) | 2 => (64, false) | 3 => (64, true)
  | 4 => (16, false) | 5 => (16, true) | 6 => (8, false) | _ => (8, true)

/-- The source types of CVT, by sub (R162). -/
def cvtSrc : Nat → Ty
  | 0 => .u32 | 1 => .s32 | 2 => .u64 | 3 => .s64 | 4 => .f32 | 5 => .f64 | 6 => .f16 | _ => .bf16

/-- The opcode of each arithmetic tag (R40). -/
def AluOp.opcode : AluOp → Nat
  | .matchKey => 0x07 | .qstat => 0xe4
  | .iadd => 0x20 | .isub => 0x21 | .imul => 0x22 | .imulh => 0x23 | .imad => 0x24 | .imadLong => 0x24
  | .imin => 0x25 | .imax => 0x26 | .iaddc => 0x27 | .and => 0x28 | .or => 0x29 | .xor => 0x2a
  | .shl => 0x2c | .shr => 0x2d | .sha => 0x2e | .funnel => 0x2f | .bfe => 0x30 | .bfi => 0x31
  | .popc => 0x32 | .clz => 0x33 | .brev => 0x34 | .prmt => 0x35 | .iset => 0x36 | .pset => 0x37
  | .sel => 0x38 | .mov => 0x39 | .padd => 0x3c | .lea => 0x3d | .cvti => 0x3e
  | .shfl => 0x80 | .vote => 0x81 | .matchv => 0x82 | .compact => 0x83 | .scan => 0x84 | .redux => 0x85
  | .fadd => 0x50 | .fmul => 0x51 | .ffma => 0x52 | .fmin => 0x53 | .fmax => 0x54 | .fset => 0x55
  | .fclass => 0x56 | .frnd => 0x57 | .frcp => 0x58 | .frsq => 0x59 | .fex2 => 0x5a | .flg2 => 0x5b
  | .fsinp => 0x5c | .fcosp => 0x5d | .dadd => 0x60 | .dmul => 0x61 | .dfma => 0x62 | .dmin => 0x63
  | .dmax => 0x64 | .dset => 0x65 | .drcp => 0x66 | .drsq => 0x67 | .hadd2 => 0x68 | .hmul2 => 0x69
  | .hfma2 => 0x6a | .hmin2 => 0x6b | .hmax2 => 0x6c | .hset2 => 0x6d | .cvt => 0x70 | .pack => 0x71
  | .l6pack => 0x72 | .l6unpk => 0x73 | .w4unpk => 0x74

/-- Whether sub[3] = 1 selects format I (R40). -/
def AluOp.immOk : AluOp → Bool
  | .iadd | .isub | .imul | .imulh | .imin | .imax | .iaddc | .and | .or | .xor | .shl | .shr | .sha | .bfe
  | .iset | .pset | .sel | .padd | .lea | .fadd | .fmul | .fmin | .fmax | .fset | .dadd | .dmul | .dmin | .dmax
  | .dset | .hadd2 | .hmul2 | .hmin2 | .hmax2 | .hset2 => true
  | _ => false

/-- Whether the entry lists the sub[2:0] value; any other raises ILLOP (R41). -/
def AluOp.subOk (o : AluOp) (sub : Nat) : Bool :=
  match o with
  | .iaddc | .sel | .pset | .lea | .cvti | .cvt | .fset | .dset | .hset2 => true
  | .imad => sub == 0
  | .imadLong => sub == 1
  | .iset => sub < 6
  | .funnel | .pack | .l6unpk => sub < 2
  | .shfl | .w4unpk => sub < 4
  | .vote => sub < 5
  | .scan => sub < 7
  | .redux => sub < 7 && sub != 1
  | _ => sub == 0

/-- The operands and option bits of each entry for a sub value and a type; `ok` says the entry lists the type. IMAD.LONG (R132) takes a q
operand for c and d, with an odd number too: DESIGN CHOICE, log 49. L6PACK takes ftz = 1: R164 has it honoured, where R55 names CVT as the one
exception to its test (DESIGN CHOICE, log 49). -/
def AluOp.shape (o : AluOp) (sub : Nat) (ty : Ty) : Shape :=
  let z := OpSpec.absent
  let w := ty.is64
  let int7 : List Ty := [.u32, .s32, .u64, .s64, .u16x2, .s16x2, .u8x4]
  let two (tys : List Ty) (sat : Bool) : Shape :=
    ⟨.dst w, .src w true, .src w true, z, tys.contains ty, false, sat, false⟩
  let fl2 (tys : List Ty) : Shape := ⟨.dst w, .src w true, .src w true, z, tys.contains ty, true, true, true⟩
  let fl3 (tys : List Ty) : Shape := ⟨.dst w, .src w true, .src w true, .src w true, tys.contains ty, true, true, true⟩
  let flm (tys : List Ty) : Shape := ⟨.dst w, .src w true, .src w true, z, tys.contains ty, false, false, true⟩
  let flc (tys : List Ty) : Shape := ⟨.pred, .src w true, .src w true, z, tys.contains ty, false, false, true⟩
  let un (d : OpSpec) (tys : List Ty) : Shape := ⟨d, .src w false, z, z, tys.contains ty, false, false, false⟩
  let sf (t : Ty) (rnd : Bool) : Shape := ⟨.dst w, .src w true, z, z, ty == t, rnd, true, true⟩
  match o with
  | .iadd | .isub => two int7 true
  | .imul => two [.u32, .s32, .u64, .s64, .u16x2, .s16x2] true
  | .imulh => two [.u32, .s32, .u64, .s64] false
  | .imin | .imax => two int7 false
  | .imad => ⟨.dst w, .src w true, .src w true, .src w true, [Ty.u32, .s32, .u64, .s64].contains ty, false, true, false⟩
  | .imadLong => ⟨.dst true, .src false true, .src false true, .src true false, [Ty.u32, .s32].contains ty, false, false, false⟩
  | .iaddc | .and | .or | .xor => two [.u32, .u64] false
  | .shl | .shr => ⟨.dst w, .src w false, .src false false, z, [Ty.u32, .u64].contains ty, false, false, false⟩
  | .sha => ⟨.dst w, .src w true, .src false true, z, [Ty.s32, .s64].contains ty, false, false, false⟩
  | .funnel | .prmt => ⟨.dst false, .src false false, .src false false, .src false false, ty == .u32, false, false, false⟩
  | .bfe => ⟨.dst w, .src w true, .src false true, z, [Ty.u32, .s32, .u64, .s64].contains ty, false, false, false⟩
  | .bfi => ⟨.dst w, .src w false, .src w false, .src false false, [Ty.u32, .u64].contains ty, false, false, false⟩
  | .popc | .clz => un (.dst false) [.u32, .u64]
  | .brev => un (.dst w) [.u32, .u64]
  | .iset => ⟨.pred, .src w true, .src w true, z, [Ty.u32, .s32, .u64, .s64].contains ty, false, false, false⟩
  | .pset => ⟨.pred, .pred, .pred, z, ty == .u32, false, false, false⟩
  | .sel => two [.u32, .u64] false
  | .mov => un (.dst w) [.u32, .u64]
  | .padd | .lea => ⟨⟨.pair, .vk, false, false⟩, ⟨.pair, .vk, true, false⟩, .src false true, z, [Ty.u32, .s32].contains ty, false, false, false⟩
  | .cvti => ⟨.dst w, .src ((cvtiSrc sub).1 == 64) false, z, z,
      [Ty.u32, .s32, .u64, .s64, .u16, .s16].contains ty, false, true, false⟩
  | .shfl => ⟨.lane w .v, .lane w .v, .lane false .v, z, [Ty.u32, .u64].contains ty, false, false, false⟩
  | .vote => ⟨if sub < 3 then .pred else .lane false .vk, .pred, z, z, ty == .u32, false, false, false⟩
  | .matchv => ⟨.lane false .v, .lane w .v, z, z, [Ty.u32, .u64].contains ty, false, false, false⟩
  | .compact => ⟨.lane w .v, .lane w .v, z, .pred, [Ty.u32, .u64].contains ty, false, false, false⟩
  | .scan => ⟨.lane w .v, .lane w .v, z, z, [Ty.u32, .s32, .u64, .s64].contains ty, false, false, false⟩
  | .redux => ⟨.lane w .vk, .lane w .v, z, z, [Ty.u32, .s32, .u64, .s64].contains ty, false, false, false⟩
  | .fadd | .fmul => fl2 [.f32]
  | .ffma => fl3 [.f32]
  | .dadd | .dmul => fl2 [.f64]
  | .dfma => fl3 [.f64]
  | .hadd2 | .hmul2 => fl2 [.f16x2, .bf16x2]
  | .hfma2 => fl3 [.f16x2, .bf16x2]
  | .fmin | .fmax => flm [.f32]
  | .dmin | .dmax => flm [.f64]
  | .hmin2 | .hmax2 => flm [.f16x2, .bf16x2]
  | .fset => flc [.f32]
  | .dset => flc [.f64]
  | .hset2 => ⟨.dst false, .src w true, .src w true, z, [Ty.f16x2, .bf16x2].contains ty, false, false, true⟩
  | .fclass => ⟨.dst false, .src w true, z, z, [Ty.f32, .f64].contains ty, false, false, false⟩
  | .frnd => ⟨.dst w, .src w true, z, z, [Ty.f32, .f64].contains ty, true, true, true⟩
  | .frcp | .frsq => sf .f32 true
  | .fex2 | .flg2 | .fsinp | .fcosp => sf .f32 false
  | .drcp | .drsq => sf .f64 true
  | .cvt =>
    let ts := cvtSrc sub
    ⟨.dst w, .src ts.is64 ts.signed, z, z,
      [Ty.u32, .s32, .u64, .s64, .f32, .f64, .f16, .bf16].contains ty && (ts.isFloat || ty.isFloat), true, true, true⟩
  | .pack => ⟨.dst false, .src (sub == 1) true, .src (sub == 1) true, z, [Ty.bf16x2, .f16x2].contains ty, true, true, true⟩
  | .l6pack => ⟨.dst false, .src true false, .src true false, .src false false, ty == .lg6, false, false, true⟩
  | .l6unpk => ⟨.dst true, .src false false, z, .src false false, ty == .f32, false, true, true⟩
  | .w4unpk => ⟨.dst true, .src false false, z, .src false false, ty == .bf16x2, false, false, false⟩
  | .matchKey => ⟨z, .src false false, z, z, ty == .u32, false, false, false⟩
  | .qstat => ⟨.lane false .vk, ⟨.one, .q, false, false⟩, z, z, ty == .u32, false, false, false⟩

/-- The type that decides on negate and absolute (R26): the source's in CVT, the instruction's elsewhere. -/
def AluOp.signTy (o : AluOp) (sub : Nat) (ty : Ty) : Ty :=
  if o == .cvt then cvtSrc sub else ty

/-! ## Field checks (R22 to R28, R35 to R39) -/

/-- A modifier's own constraint (R37). -/
def Modifier.legal (m : Modifier) : Bool :=
  match m.cls with
  | .identity => m == Modifier.none
  | c => 1 ≤ m.seg.toNat && m.seg.toNat ≤ 5 && m.dist.toNat < 2 ^ m.seg.toNat &&
      (c != .butterfly || [1, 2, 4, 8, 16].contains m.dist.toNat)

def Files.admits : Files → RFile → Bool
  | .vkq, _ => true
  | .vk, f => f != .q
  | .v, f => f == .v
  | .q, f => f == .q

/-- Whether a register field suits what the entry says of a destination (R24, R130). -/
def Reg.fits (r : Reg) (o : OpSpec) : Bool :=
  match o.span with
  | .absent => r == Reg.zero
  | .pred => r.file == .v && r.num.toNat < 8
  | _ => o.files.admits r.file

/-- Whether a source suits what the entry says of it: register file, modifier and sign bits (R23, R24, R26). -/
def Src.fits (x : Src) (o : OpSpec) (signed : Bool) : Bool :=
  x.reg.fits o && x.mod.legal && (x.mod == Modifier.none || (o.mod && x.reg.file == .v)) &&
    ((!x.neg && !x.abs) || (o.sgn && signed))

/-- Whether the immediate suits the type (R28) and, in PSET, the predicate value (R142). -/
def immFits (o : AluOp) (ty : Ty) (v : Word) : Bool :=
  match o, ty with
  | .pset, _ => v.toNat < 2
  | _, .lg6 => false
  | _, .u16 | _, .s16 | _, .f16 | _, .bf16 => v.toNat < 65536
  | _, _ => true

/-- Whether every field of an arithmetic instruction is one its entry allows: the ILLFIELD test of R22 to R28, R37 to R39,
R55, R57. -/
def aluFieldsOk (o : AluOp) (x : Alu) : Bool :=
  let s := o.shape x.sub.toNat x.ty
  let sg := (o.signTy x.sub.toNat x.ty).signed
  s.ok && !x.pred.reserved && (x.rnd == .rn || s.rnd) && (!x.sat || s.sat) && (!x.ftz || s.ftz) &&
    x.d.fits s.d && x.a.fits s.a sg && x.c.fits s.c sg &&
    match x.b with
    | .src b => b.fits s.b sg
    | .imm v => immFits o x.ty v && !x.a.neg && !x.a.abs && !x.ftz && x.c == Src.none

/-! ## The arithmetic formats -/

/-- The tag an opcode and sub[2:0] name (R40, R41). -/
def aluOf (op sub : Nat) : Option AluOp :=
  AluOp.all.find? fun o => o.opcode == op && o.subOk sub

/-- A format A word of the arithmetic mould. -/
def decodeA (o : AluOp) (n : Nat) : Except Cause Instr :=
  match unpack widthsA n with
  | [_, p, st, sub, d, a, b, c, ma, mb, mc, fa, fb, fc, fd, ty, rnd, sat, ftz, na, nb, nc, aa, ab, ac, z] =>
    match RFile.ofCode fa, RFile.ofCode fb, RFile.ofCode fc, RFile.ofCode fd,
      Modifier.ofCode ma, Modifier.ofCode mb, Modifier.ofCode mc with
    | some fa, some fb, some fc, some fd, some ma, some mb, some mc =>
      let x : Alu := ⟨Pred.ofCode p, BitVec.ofNat 4 st, BitVec.ofNat 3 (sub % 8), Ty.ofCode ty, Rnd.ofCode rnd,
        sat == 1, ftz == 1, ⟨fd, BitVec.ofNat 8 d⟩, ⟨⟨fa, BitVec.ofNat 8 a⟩, ma, na == 1, aa == 1⟩,
        .src ⟨⟨fb, BitVec.ofNat 8 b⟩, mb, nb == 1, ab == 1⟩, ⟨⟨fc, BitVec.ofNat 8 c⟩, mc, nc == 1, ac == 1⟩⟩
      if z == 0 && aluFieldsOk o x then .ok (o.instr x) else .error .illfield
    | _, _, _, _, _, _, _ => .error .illfield
  | _ => .error .illfield

/-- A format I word of the arithmetic mould (R27). -/
def decodeI (o : AluOp) (n : Nat) : Except Cause Instr :=
  match unpack widthsI n with
  | [_, p, st, sub, d, a, ma, fa, fd, ty, rnd, sat, z, imm, z'] =>
    match RFile.ofCode fa, RFile.ofCode fd, Modifier.ofCode ma with
    | some fa, some fd, some ma =>
      let x : Alu := ⟨Pred.ofCode p, BitVec.ofNat 4 st, BitVec.ofNat 3 (sub % 8), Ty.ofCode ty, Rnd.ofCode rnd,
        sat == 1, false, ⟨fd, BitVec.ofNat 8 d⟩, ⟨⟨fa, BitVec.ofNat 8 a⟩, ma, false, false⟩,
        .imm (BitVec.ofNat 32 imm), Src.none⟩
      if z == 0 && z' == 0 && aluFieldsOk o x then .ok (o.instr x) else .error .illfield
    | _, _, _ => .error .illfield
  | _ => .error .illfield

/-- LOP3 (R135): bits [103:96] are the truth table in place of type, rnd, sat and ftz (R35). -/
def lop3FieldsOk (x : Alu) : Bool :=
  let o : OpSpec := .src false false
  !x.pred.reserved && x.ty == .u32 && x.rnd == .rn && !x.sat && !x.ftz && x.sub == 0 && x.d.fits (.dst false) &&
    x.a.fits o false && x.c.fits o false &&
    match x.b with
    | .src b => b.fits o false
    | .imm _ => false

def decodeLop3 (n : Nat) : Except Cause Instr :=
  match unpack [8, 4, 4, 4, 8, 8, 8, 8, 12, 12, 12, 2, 2, 2, 2, 8, 1, 1, 1, 1, 1, 1, 18] n with
  | [_, p, st, _, d, a, b, c, ma, mb, mc, fa, fb, fc, fd, tt, na, nb, nc, aa, ab, ac, z] =>
    match RFile.ofCode fa, RFile.ofCode fb, RFile.ofCode fc, RFile.ofCode fd,
      Modifier.ofCode ma, Modifier.ofCode mb, Modifier.ofCode mc with
    | some fa, some fb, some fc, some fd, some ma, some mb, some mc =>
      let x : Alu := ⟨Pred.ofCode p, BitVec.ofNat 4 st, 0, .u32, .rn, false, false, ⟨fd, BitVec.ofNat 8 d⟩,
        ⟨⟨fa, BitVec.ofNat 8 a⟩, ma, na == 1, aa == 1⟩, .src ⟨⟨fb, BitVec.ofNat 8 b⟩, mb, nb == 1, ab == 1⟩,
        ⟨⟨fc, BitVec.ofNat 8 c⟩, mc, nc == 1, ac == 1⟩⟩
      if z == 0 && lop3FieldsOk x then .ok (.lop3 x (BitVec.ofNat 8 tt)) else .error .illfield
    | _, _, _, _, _, _, _ => .error .illfield
  | _ => .error .illfield

/-! ## The fixed format I instructions -/

/-- The special registers SRD reads (R97): whether each may be read as u32, and as u64. -/
def srdTypes : Nat → Bool × Bool
  | 0x00 | 0x01 | 0x0a | 0x0b | 0x0c | 0x0f | 0x10 | 0x11 => (true, false)
  | 0x02 | 0x0d | 0x0e | 0x12 | 0x13 => (false, true)
  | 0x03 | 0x04 | 0x05 | 0x06 | 0x07 | 0x08 | 0x09 => (true, true)
  | _ => (false, false)

/-- The system registers (R314): the width of each selector in bits, 0 when it is reserved. -/
def sysWidth : Nat → Nat
  | 0x000 | 0x002 | 0x003 | 0x008 | 0x030 | 0x0f0 => 64
  | 0x001 | 0x004 | 0x005 | 0x006 | 0x007 | 0x010 | 0x011 | 0x020 => 32
  | _ => 0

/-- The ten opcodes of the fixed format I instructions. -/
inductive ImmOp | trap | brk | movi | srd | csrr | csrw | callsv | sleep
  deriving DecidableEq, Repr

def ImmOp.opcode : ImmOp → Nat
  | .trap => 0x09 | .brk => 0x0a | .movi => 0x3a | .srd => 0x3f | .csrr => 0xf0 | .csrw => 0xf1 | .callsv => 0xf2
  | .sleep => 0xf3

def ImmOp.all : List ImmOp := [.trap, .brk, .movi, .srd, .csrr, .csrw, .callsv, .sleep]

/-- The ILLFIELD test of the fixed format I instructions (R97, R125, R144, R334). -/
def immFieldsOk (o : ImmOp) (x : ImmI) : Bool :=
  let n := x.imm.toNat
  let tyW := (x.ty == .u32 && sysWidth n == 32) || (x.ty == .u64 && sysWidth n == 64)
  !x.pred.reserved &&
  match o with
  | .trap | .brk => x.ty == .u32 && x.d == Reg.zero && x.a == Reg.zero
  | .movi => [Ty.u32, .s64, .u64].contains x.ty && x.a == Reg.zero
  | .srd => x.d.file != .q && x.a == Reg.zero && ((x.ty == .u32 && (srdTypes n).1) || (x.ty == .u64 && (srdTypes n).2))
  | .csrr => x.d.file != .q && x.a == Reg.zero && tyW
  | .csrw => x.d == Reg.zero && x.a.file != .q && tyW
  | .callsv => x.ty == .u64 && x.d.file == .v && x.a.file == .v
  | .sleep => x.ty == .u32 && x.d == Reg.zero && x.a == Reg.zero

/-- The instruction of a fixed format I word: CALLSV and CSRW have a row for each service, and for each register with a
behaviour of its own (R220, R332, R337). -/
def ImmOp.instr (o : ImmOp) (x : ImmI) : Instr :=
  match o with
  | .trap => .trap x
  | .brk => .brk x
  | .movi => .movi x
  | .srd => .srd x
  | .csrr => .csrr x
  | .csrw => if x.imm == 0x008 then .ctxPtrootWrite x else if x.imm == 0x030 then .crewTimerWrite x else .csrw x
  | .callsv =>
    if x.imm == 0 then .version x else if x.imm == 1 then .whoami x else if x.imm == 2 then .yieldcrew x
    else if x.imm == 3 then .injectauth x else if x.imm == 4 then .faultq x else .callsvUnknown x
  | .sleep => .sleep x

def decodeImm (o : ImmOp) (n : Nat) : Except Cause Instr :=
  match unpack widthsI n with
  | [_, p, st, _, d, a, ma, fa, fd, ty, rnd, sat, z, imm, z'] =>
    match RFile.ofCode fa, RFile.ofCode fd with
    | some fa, some fd =>
      let x : ImmI := ⟨Pred.ofCode p, BitVec.ofNat 4 st, Ty.ofCode ty, ⟨fd, BitVec.ofNat 8 d⟩, ⟨fa, BitVec.ofNat 8 a⟩,
        BitVec.ofNat 32 imm⟩
      if z == 0 && z' == 0 && ma == 0 && rnd == 0 && sat == 0 && immFieldsOk o x then .ok (o.instr x)
      else .error .illfield
    | _, _ => .error .illfield
  | _ => .error .illfield

def decodeMovi64 (n : Nat) : Except Cause Instr :=
  match unpack [8, 4, 4, 4, 8, 8, 12, 2, 2, 4, 2, 1, 5, 64] n with
  | [_, p, st, _, d, a, ma, fa, fd, ty, rnd, sat, z, imm] =>
    match RFile.ofCode fd with
    | some fd =>
      let x : Imm64 := ⟨Pred.ofCode p, BitVec.ofNat 4 st, ⟨fd, BitVec.ofNat 8 d⟩, BitVec.ofNat 64 imm⟩
      if z == 0 && a == 0 && ma == 0 && fa == 0 && ty == 2 && rnd == 0 && sat == 0 && !x.pred.reserved && fd != .q
      then .ok (.movi64 x) else .error .illfield
    | none => .error .illfield
  | _ => .error .illfield

/-! ## Format M -/

/-- The opcodes of format M but for ATOM and ATOMCAS, which read aop and class. -/
inductive MemOp | ld | st | atomcas | pfetch | kld | fence | lds | sts | atoms | renew | arm | await | spage
  deriving DecidableEq, Repr

def MemOp.opcode : MemOp → Nat
  | .ld => 0xa0 | .st => 0xa1 | .atomcas => 0xa3 | .pfetch => 0xa4 | .kld => 0xa5 | .fence => 0xa6 | .lds => 0xc0
  | .sts => 0xc1 | .atoms => 0xc2 | .renew => 0xc3 | .arm => 0xc4 | .await => 0xc5 | .spage => 0xc6

def MemOp.all : List MemOp :=
  [.ld, .st, .atomcas, .pfetch, .kld, .fence, .lds, .sts, .atoms, .renew, .arm, .await, .spage]

def MemOp.instr : MemOp → Mem → Instr
  | .ld, x => .ld x | .st, x => .st x | .atomcas, x => .atomcas x | .pfetch, x => .pfetch x | .kld, x => .kld x
  | .fence, x => .fence x | .lds, x => .lds x | .sts, x => .sts x | .atoms, x => .atoms x | .renew, x => .renew x
  | .arm, x => .arm x | .await, x => .await x | .spage, x => .spage x

/-- A scratchpad form's fields that must be zero (R29, R186). -/
def spadFields (x : Mem) : Bool :=
  x.win == 0 && x.use == .sync && !x.split && x.cache == 0 && x.scope == .crew

/-- R30: a plain access requires scope 0. -/
def scopeOk (x : Mem) : Bool := x.order != .plain || x.scope == .crew

/-- The uses of an atomic against its order, operation and d (R262, R264). -/
def atomUseOk (x : Mem) (cas exch : Bool) : Bool :=
  match x.use with
  | .sync => x.order != .plain
  | .unp => x.order == .rlx
  | .comm | .qnt => x.order == .rlx && x.d == 0 && !exch && !cas
  | .nord | .spec => x.order == .rlx && x.d != 0

/-- The ILLFIELD test of format M (R30, R186 to R192, R256 to R266, R279). -/
def memFieldsOk (o : MemOp) (x : Mem) : Bool :=
  !x.pred.reserved &&
  match o with
  | .ld => [Order.plain, .rlx, .acq, .sc].contains x.order && scopeOk x && x.use == .sync && x.e == 0
  | .st => [Width.u8, .u16, .b32, .b64, .b128].contains x.width && [Order.plain, .rlx, .rel, .sc].contains x.order &&
      scopeOk x && x.use == .sync && !x.split && x.e == 0
  | .atomcas => [Width.b32, .b64].contains x.width && atomUseOk x true false && !x.split && x.d != 0
  | .pfetch => [Width.b32, .b64].contains x.width && x.d == 0 && x.e == 0 && x.order == .plain && x.scope == .crew &&
      x.use == .sync && !x.split
  | .kld => [Width.b32, .b64, .b128].contains x.width && x.e == 0 && x.order == .plain && x.scope == .crew &&
      x.use == .sync && !x.split && x.cache == 0
  | .fence => x.width == .u8 && [Order.acq, .rel, .ar, .sc].contains x.order && x.d == 0 && x.base == 0 && x.win == 0 &&
      x.use == .sync && !x.split && x.cache == 0 && x.e == 0 && x.off == 0
  | .lds => [Order.plain, .rlx, .acq, .sc].contains x.order && spadFields x && x.e == 0
  | .sts => [Width.u8, .u16, .b32, .b64, .b128].contains x.width && [Order.plain, .rlx, .rel, .sc].contains x.order &&
      spadFields x && x.e == 0
  | .atoms => [Width.b32, .b64].contains x.width && spadFields x
  | .renew | .arm | .await | .spage => x.width == .b32 && x.order == .plain && spadFields x && x.e == 0

/-- The combinations of operation, class and width of ATOM (R31). -/
def atomComboOk (w : Width) (op : AtomOp) (cls : BitVec 2) : Bool :=
  match cls.toNat, op with
  | 0, _ => w == .b32 || w == .b64
  | 1, _ => w == .b32 || w == .b64
  | 2, .add | 2, .min | 2, .max => w == .b32 || w == .b64
  | 3, .add => w == .b32 || w == .u16
  | _, _ => false

/-- The fields of an atomic (R260, R264). A cache policy other than 0 is admitted (R29, R30), although the entries list none: DESIGN CHOICE,
log 49. -/
def atomFieldsOk (x : Mem) (op : AtomOp) (cls : BitVec 2) : Bool :=
  !x.pred.reserved && atomComboOk x.width op cls && atomUseOk x false (op == .exch) && !x.split

/-- The common part of a format M word. -/
def decodeMem (n : Nat) : Option (Mem × Nat × Nat × Nat) :=
  match unpack widthsM n with
  | [_, p, st, w, d, base, win, ord, sco, use, spl, pol, cls, e, aop, off, z] =>
    match Width.ofCode w, Order.ofCode ord, Scope.ofCode sco, Use.ofCode use with
    | some w, some ord, some sco, some use =>
      some (⟨Pred.ofCode p, BitVec.ofNat 4 st, w, BitVec.ofNat 8 d, BitVec.ofNat 8 base, BitVec.ofNat 8 e,
        BitVec.ofNat 2 win, ord, sco, use, spl == 1, BitVec.ofNat 2 pol, BitVec.ofNat 24 off⟩, cls, aop, z)
    | _, _, _, _ => none
  | _ => none

def decodeM (o : MemOp) (n : Nat) : Except Cause Instr :=
  match decodeMem n with
  | some (x, cls, aop, z) =>
    if cls == 0 && aop == 0 && z == 0 && memFieldsOk o x then .ok (o.instr x) else .error .illfield
  | none => .error .illfield

def decodeAtom (n : Nat) : Except Cause Instr :=
  match decodeMem n with
  | some (x, cls, aop, z) =>
    match AtomOp.ofCode aop with
    | some op =>
      if z == 0 && atomFieldsOk x op (BitVec.ofNat 2 cls) then .ok (.atom x op (BitVec.ofNat 2 cls)) else .error .illfield
    | none => .error .illfield
  | none => .error .illfield

/-! ## Formats T and H -/

/-- The ILLFIELD test of the guards (R108). -/
def guardFieldsOk (op : Nat) (x : Guard) : Bool :=
  !x.pred.reserved && (op == 0x03 || (x.lo == 0 && x.hi == 0)) && (op != 0x02 || x.ra == 0)

/-- The commit forms in the order of their sub codes (R113). -/
inductive CForm | next | sel | ind | call | ret | exit | bar | rwait
  deriving DecidableEq, Repr

def CForm.code : CForm → Nat
  | .next => 0 | .sel => 1 | .ind => 2 | .call => 3 | .ret => 4 | .exit => 5 | .bar => 6 | .rwait => 7

def CForm.ofCode : Nat → Option CForm
  | 0 => some .next | 1 => some .sel | 2 => some .ind | 3 => some .call | 4 => some .ret | 5 => some .exit
  | 6 => some .bar | 7 => some .rwait | _ => none

def CForm.instr : CForm → Commit → Instr
  | .next, x => .commitNext x | .sel, x => .commitSel x | .ind, x => .commitInd x | .call, x => .commitCall x
  | .ret, x => .commitRet x | .exit, x => .commitExit x | .bar, x => .commitBar x | .rwait, x => .commitRwait x

/-- The ILLFIELD test of COMMIT (R22, R113, R114). -/
def commitFieldsOk (f : CForm) (x : Commit) : Bool :=
  let moves := x.move0.isSome || x.move1.isSome
  let same := match x.move0, x.move1 with
    | some m, some m' => m.dst == m'.dst
    | _, _ => false
  !x.pred.reserved && (f == .sel || x.pred == Pred.always) && !same &&
  (f == .rwait || (x.count == 0 && x.timeout == 0)) &&
  match f with
  | .next => x.ra == 0 && x.rb == 0 && x.tgt0 == 0 && x.tgt1 == 0
  | .sel => x.ra == 0 && x.rb == 0
  | .ind | .ret => x.rb == 0 && x.tgt0 == 0 && x.tgt1 == 0
  | .call => x.rb == 0 && x.tgt1 == 0
  | .exit => x.ra == 0 && x.rb == 0 && x.tgt0 == 0 && x.tgt1 == 0 && !moves
  | .bar => x.rb.toNat < 16 && x.tgt1 == 0
  | .rwait => x.ra == 0 && x.rb.toNat < 7 && x.tgt1 == 0 && !moves

/-- A move field: its enable bit and its register numbers (R114); a disabled move's field is zero (R23). -/
def decodeMove (en v : Nat) : Option Move :=
  if en == 1 then some ⟨BitVec.ofNat 8 (v / 256), BitVec.ofNat 8 (v % 256)⟩ else none

def decodeT (op n : Nat) : Except Cause Instr :=
  match unpack widthsT n with
  | [_, p, st, sub, ra, rb, t0, t1, a, b, en, z] =>
    if op == 0x06 then
      match CForm.ofCode sub with
      | none => .error .illop
      | some f =>
        let rw := f == .rwait
        let x : Commit := ⟨Pred.ofCode p, BitVec.ofNat 4 st, BitVec.ofNat 8 ra, BitVec.ofNat 8 rb, BitVec.ofNat 24 t0,
          BitVec.ofNat 24 t1, decodeMove (en % 2) a, decodeMove (en / 2) b,
          if rw then BitVec.ofNat 16 a else 0, if rw then BitVec.ofNat 16 b else 0⟩
        if z == 0 && (rw || ((en % 2 == 1 || a == 0) && (en / 2 == 1 || b == 0))) && commitFieldsOk f x
        then .ok (f.instr x) else .error .illfield
    else if op == 0x05 then
      let x : Skip := ⟨Pred.ofCode p, BitVec.ofNat 4 st, BitVec.ofNat 3 (t0 - 1)⟩
      if z == 0 && en == 0 && a == 0 && b == 0 && t1 == 0 && ra == 0 && rb == 0 && 2 ≤ t0 && t0 ≤ 8 && !x.pred.reserved
      then .ok (.skip x) else .error .illfield
    else
      let x : Guard := ⟨Pred.ofCode p, BitVec.ofNat 4 st, BitVec.ofNat 8 ra, BitVec.ofNat 16 a, BitVec.ofNat 16 b,
        BitVec.ofNat 24 t0⟩
      if z == 0 && en == 0 && t1 == 0 && rb == 0 && guardFieldsOk op x then
        .ok (if op == 0x02 then .guard x else if op == 0x03 then .guardr x else .guardnz x)
      else .error .illfield
  | _ => .error .illfield

/-- The ILLFIELD test of TRC (R33). -/
def trcFieldsOk (x : Trc) : Bool :=
  x.len != 0 && x.budget.toNat ≤ 16 && (!x.irr || x.budget == 0) && (!x.full || x.irr)

def decodeH (n : Nat) : Except Cause Instr :=
  match unpack widthsH n with
  | [_, p, st, c, f, z, tid, e, len, z'] =>
    let x : Trc := ⟨BitVec.ofNat 4 st, c == 1, f == 1, BitVec.ofNat 16 tid, BitVec.ofNat 5 e, BitVec.ofNat 8 len⟩
    if z == 0 && z' == 0 && p == 7 && trcFieldsOk x then .ok (.trc x) else .error .illfield
  | _ => .error .illfield

/-! ## Format X -/

/-- The matrix opcodes (R40). -/
inductive MatOp | mma | mmasp | mzero | mld | mst | mwait | mrd | mwr | tdesc
  deriving DecidableEq, Repr

def MatOp.opcode : MatOp → Nat
  | .mma => 0xd0 | .mmasp => 0xd1 | .mzero => 0xd2 | .mld => 0xd3 | .mst => 0xd4 | .mwait => 0xd5 | .mrd => 0xd6
  | .mwr => 0xd7 | .tdesc => 0xd8

def MatOp.all : List MatOp := [.mma, .mmasp, .mzero, .mld, .mst, .mwait, .mrd, .mwr, .tdesc]

def MatOp.instr : MatOp → Mat → Instr
  | .mma, x => .mma x | .mmasp, x => .mmasp x | .mzero, x => .mzero x | .mld, x => .mld x | .mst, x => .mst x
  | .mwait, x => .mwait x | .mrd, x => .mrd x | .mwr, x => .mwr x | .tdesc, x => .tdesc x

/-- The kind and pair bit a sub value stands for (R212 to R217); none is ILLOP (R41). -/
def MatOp.sub (o : MatOp) (s : Nat) : Option (MmaKind × Bool) :=
  match o with
  | .mma => (MmaKind.ofCode s).map (·, false)
  | .mmasp => if s == 2 then some (.bf16, false) else if s == 3 then some (.f16, false) else none
  | .mld | .mst | .mrd | .mwr => if s == 0 then some (.f64, false) else if s == 1 then some (.f64, true) else none
  | .mzero | .mwait | .tdesc => if s == 0 then some (.f64, false) else none

def MatOp.subCode (o : MatOp) (x : Mat) : Nat :=
  match o with
  | .mma | .mmasp => x.kind.code
  | _ => x.pair.toNat

/-- The ILLFIELD test of the matrix instructions (R211 to R217). -/
def matFieldsOk (o : MatOp) (x : Mat) : Bool :=
  let noH := x.hA == 0 && x.hB == 0
  let noK := x.kr == 0 && x.kc == 0 && x.kp == 0
  let noV := x.vd == 0 && x.vc == 0
  let noF := !x.ta && !x.tb && !x.ovw && !x.sat
  !x.pred.reserved &&
  match o with
  | .mma => x.pred == Pred.always && noV && !x.pair
  | .mmasp => x.pred == Pred.always && noV && !x.pair && !x.ta && (x.kind == .bf16 || x.kind == .f16)
  | .mzero | .mwait => x.pred == Pred.always && noV && noH && noK && noF && !x.pair && x.kind == .f64
  | .mld => x.pred == Pred.always && noV && x.hB == 0 && x.kp == 0 && !x.tb && !x.ovw && !x.sat && x.kind == .f64
  | .mst => x.pred == Pred.always && noV && x.hB == 0 && x.kp == 0 && !x.tb && !x.ovw && x.kind == .f64
  | .mrd | .mwr => noH && noK && noF && x.kind == .f64
  | .tdesc => x.pred == Pred.always && noV && x.hB == 0 && x.kr == 0 && x.kc == 0 && noF && x.tile == 0 && !x.pair &&
      x.kind == .f64

def decodeX (o : MatOp) (n : Nat) : Except Cause Instr :=
  match unpack widthsX n with
  | [_, p, st, sub, t, z, ha, hb, kr, kc, kp, ta, tb, ov, sa, z', vd, vc, z''] =>
    match o.sub sub with
    | none => .error .illop
    | some (kd, pr) =>
      let x : Mat := ⟨Pred.ofCode p, BitVec.ofNat 4 st, kd, pr, BitVec.ofNat 4 t, BitVec.ofNat 12 ha, BitVec.ofNat 12 hb,
        BitVec.ofNat 8 kr, BitVec.ofNat 8 kc, BitVec.ofNat 8 kp, ta == 1, tb == 1, ov == 1, sa == 1, BitVec.ofNat 8 vd,
        BitVec.ofNat 8 vc⟩
      if z == 0 && z' == 0 && z'' == 0 && matFieldsOk o x then .ok (o.instr x) else .error .illfield
  | _ => .error .illfield

/-- The ILLFIELD test of XCOPY (R292): an unused field is zero. -/
def xcopyFieldsOk (x : Xfer) : Bool :=
  !x.pred.reserved && (x.sub[1] || x.n == 0) && (x.arr || x.ka == 0) &&
    (x.comp || (x.kv == 0 && x.kp == 0 && x.win == 0))

/-- The ILLFIELD test of XCOLL (R299). -/
def xcollFieldsOk (x : Xfer) : Bool :=
  !x.pred.reserved && !x.arr && x.ka == 0 && (x.comp || (x.kv == 0 && x.kp == 0 && x.win == 0))

def decodeE (op n : Nat) : Except Cause Instr :=
  match unpack widthsE n with
  | [_, p, st, sub, kd, ha, hb, ka, kv, kp, a, c, w, z] =>
    if op == 0xe3 then
      if sub != 0 then .error .illop else
      let x : LaunchF := ⟨Pred.ofCode p, BitVec.ofNat 4 st, BitVec.ofNat 8 kd, BitVec.ofNat 8 kp, BitVec.ofNat 2 w⟩
      if z == 0 && ha == 0 && hb == 0 && ka == 0 && kv == 0 && a == 0 && c == 0 && !x.pred.reserved
      then .ok (.launch x) else .error .illfield
    else if sub ≥ 4 then .error .illop
    else
      let x : Xfer := ⟨Pred.ofCode p, BitVec.ofNat 4 st, BitVec.ofNat 2 sub, BitVec.ofNat 8 kd, BitVec.ofNat 12 ha,
        BitVec.ofNat 12 hb, BitVec.ofNat 8 ka, BitVec.ofNat 8 kv, BitVec.ofNat 8 kp, a == 1, c == 1, BitVec.ofNat 2 w⟩
      if op == 0xe0 then (if z == 0 && xcopyFieldsOk x then .ok (.xcopy x) else .error .illfield)
      else (if z == 0 && xcollFieldsOk x then .ok (.xcoll x) else .error .illfield)
  | _ => .error .illfield

def decodeXwait (n : Nat) : Except Cause Instr :=
  match unpack widthsW n with
  | [_, p, st, sub, z, c, z'] =>
    if sub != 0 then .error .illop
    else if z == 0 && z' == 0 && p == 7 then .ok (.xwait ⟨BitVec.ofNat 4 st, BitVec.ofNat 8 c⟩) else .error .illfield
  | _ => .error .illfield

/-- NOP, TRIGGER and YIELD (R42, R95, R96): every bit above the stall field is zero. -/
def decodeCtl (mk : Ctl → Instr) (n : Nat) : Except Cause Instr :=
  match unpack [8, 4, 4, 4, 108] n with
  | [_, p, st, sub, z] =>
    let x : Ctl := ⟨Pred.ofCode p, BitVec.ofNat 4 st⟩
    if sub != 0 then .error .illop
    else if z == 0 && !x.pred.reserved then .ok (mk x) else .error .illfield
  | _ => .error .illfield

/-! ## The decoder -/

/-- The instruction a word stands for, or ILLOP or ILLFIELD (R40, R41, R49). -/
def decodeNat (n : Nat) : Except Cause Instr :=
  let op := opOf n
  let sub := n / 2 ^ 16 % 16
  if op == 0x00 then decodeCtl .nop n
  else if op == 0x01 then decodeH n
  else if op == 0x06 then decodeT op n
  else if 0x02 ≤ op && op ≤ 0x05 then (if sub == 0 then decodeT op n else .error .illop)
  else if op == 0x08 then decodeCtl .trigger n
  else if op == 0x0b then decodeCtl .yield n
  else if op == 0x2b then (if sub == 0 then decodeLop3 n else .error .illop)
  else if op == 0x3b then (if sub == 8 then decodeMovi64 n else .error .illop)
  else if op == 0xa2 then decodeAtom n
  else if op == 0xe2 then decodeXwait n
  else if op == 0xe0 || op == 0xe1 || op == 0xe3 then decodeE op n
  else
    match ImmOp.all.find? (·.opcode == op) with
    | some o => if sub == 8 then decodeImm o n else .error .illop
    | none =>
    match MemOp.all.find? (·.opcode == op) with
    | some o => decodeM o n
    | none =>
    match MatOp.all.find? (·.opcode == op) with
    | some o => decodeX o n
    | none =>
    match aluOf op (sub % 8) with
    | some o =>
      if sub ≥ 8 then (if o.immOk then decodeI o n else .error .illop) else decodeA o n
    | none => .error .illop

/-- The decoder: total on every word. Opcode 0xff and every reserved one raise ILLOP (R41). -/
def decode (w : CodeWord) : Except Cause Instr := if opOf w.toNat == 0xff then .ok .illegal else decodeNat w.toNat

/-! ## Registers an instruction names (R24, R116) -/

def OpSpec.use (o : OpSpec) (r : Reg) : List RegUse :=
  match o.span with
  | .absent => []
  | .pred => [⟨none, r.num.toNat % 8, 1⟩]
  | .one => [⟨some r.file, r.num.toNat, 1⟩]
  | .pair => [⟨some r.file, r.num.toNat, 2⟩]

/-- The predicate a prefix names; p7 is no register (R22, R127). -/
def Pred.use (p : Pred) : List RegUse := if p.num == 7 then [] else [⟨none, p.num.toNat, 1⟩]

def vUse (n : BitVec 8) (c : Nat) : List RegUse := [⟨some .v, n.toNat, c⟩]
def kUse (n : BitVec 8) (c : Nat) : List RegUse := [⟨some .k, n.toNat, c⟩]

/-- How many registers the data of a width takes (R186, R256). -/
def Width.regs : Width → Nat
  | .b64 => 2 | .b128 => 4 | _ => 1

def Alu.reads (o : AluOp) (x : Alu) : List RegUse :=
  let s := o.shape x.sub.toNat x.ty
  (match o with | .matchKey => [] | _ => []) ++ s.a.use x.a.reg ++
    (match x.b with | .src b => s.b.use b.reg | .imm _ => []) ++ s.c.use x.c.reg ++
    (match o with | .iaddc | .sel => (Pred.mk false x.sub).use | _ => [])

def Alu.writes (o : AluOp) (x : Alu) : List RegUse :=
  (o.shape x.sub.toNat x.ty).d.use x.d ++
    (match o with | .iaddc => (Pred.mk false x.sub).use | _ => [])

/-- The registers an instruction names as read operands, a prefix's predicate among them (R116). -/
def Instr.reads (i : Instr) : List RegUse :=
  match i.alu? with
  | some (o, x) => x.pred.use ++ x.reads o
  | none =>
  match i with
  | .lop3 x _ => x.pred.use ++ OpSpec.use (.src false false) x.a.reg ++
      (match x.b with | .src b => OpSpec.use (.src false false) b.reg | .imm _ => []) ++
      OpSpec.use (.src false false) x.c.reg
  | .movi x | .trap x | .brk x | .srd x | .csrr x | .sleep x => x.pred.use
  | .movi64 x => x.pred.use
  | .csrw x | .ctxPtrootWrite x | .crewTimerWrite x =>
      x.pred.use ++ [⟨some x.a.file, x.a.num.toNat, if x.ty.is64 then 2 else 1⟩]
  | .version x | .whoami x | .yieldcrew x | .injectauth x | .faultq x | .callsvUnknown x =>
      x.pred.use ++ vUse x.a.num 2
  | .nop _ => []
  | .trigger x | .yield x => x.pred.use
  | .guard x => x.pred.use
  | .guardr x | .guardnz x => x.pred.use ++ vUse x.ra 1
  | .skip x => x.pred.use
  | .commitSel x => x.pred.use
  | .commitInd x | .commitRet x => vUse x.ra 2
  | .commitBar x => if x.ra == 0xff then [] else kUse x.ra 1
  | .ld x | .kld x | .pfetch x => x.pred.use ++ vUse x.base 2
  | .st x => x.pred.use ++ vUse x.base 2 ++ vUse x.d x.width.regs
  | .atom x _ _ => x.pred.use ++ vUse x.base 2 ++ vUse x.e x.width.regs
  | .atomcas x => x.pred.use ++ vUse x.base 2 ++ vUse x.e (2 * x.width.regs)
  | .fence x => x.pred.use
  | .lds x | .spage x => x.pred.use ++ vUse x.base 1
  | .sts x => x.pred.use ++ vUse x.base 1 ++ vUse x.d x.width.regs
  | .atoms x => x.pred.use ++ vUse x.base 1 ++ vUse x.e x.width.regs
  | .renew x | .arm x | .await x => x.pred.use ++ vUse x.base 1 ++ vUse x.d 1
  | .mma x | .mmasp x => kUse x.kr 1 ++ kUse x.kc 1 ++ kUse x.kp 2
  | .mld x | .mst x => kUse x.kr 1 ++ kUse x.kc 1
  | .mrd x => x.pred.use ++ vUse x.vc 1
  | .mwr x => x.pred.use ++ vUse x.vc 1 ++ vUse x.vd (if x.pair then 2 else 1)
  | .tdesc x => [⟨some .k, x.kp.toNat, 16⟩]
  | .xcopy x => x.pred.use ++ (if x.sub[1] then kUse x.n 3 else []) ++ (if x.arr then kUse x.ka 1 else []) ++
      (if x.comp then kUse x.kv 1 ++ kUse x.kp 2 else [])
  | .xcoll x => x.pred.use ++ kUse x.n 1 ++ (if x.comp then kUse x.kv 1 ++ kUse x.kp 2 else [])
  | .launch x => x.pred.use ++ kUse x.ks 1 ++ kUse x.kp 2
  | _ => []

/-- The registers an instruction writes before any commit (R116): commit moves and a CALL's pair are made at commit. COMMIT.RWAIT's predicate,
which is written at the release, is left out of R117's check: DESIGN CHOICE, log 49. -/
def Instr.writes (i : Instr) : List RegUse :=
  match i.alu? with
  | some (o, x) => x.writes o
  | none =>
  match i with
  | .lop3 x _ => OpSpec.use (.dst false) x.d
  | .movi x | .srd x | .csrr x => [⟨some x.d.file, x.d.num.toNat, if x.ty.is64 then 2 else 1⟩]
  | .movi64 x => [⟨some x.d.file, x.d.num.toNat, 2⟩]
  | .version x | .whoami x | .yieldcrew x | .injectauth x | .faultq x | .callsvUnknown x => vUse x.d.num 2
  | .ld x | .kld x => vUse x.d x.width.regs
  | .atom x _ _ => if x.d == 0 then [] else vUse x.d x.width.regs
  | .atomcas x => vUse x.d x.width.regs
  | .lds x => vUse x.d x.width.regs
  | .atoms x => if x.d == 0 then [] else vUse x.d x.width.regs
  | .await x | .spage x => vUse x.d 1
  | .mrd x => vUse x.vd (if x.pair then 2 else 1)
  | _ => []

/-- Registers a COMMIT names for its moves and its return pair (R113, R114). -/
def Instr.commitRegs (i : Instr) : List RegUse :=
  let mv (x : Commit) : List RegUse := [x.move0, x.move1].flatMap fun m =>
    match m with | some m => vUse m.dst 1 ++ vUse m.src 1 | none => []
  match i with
  | .commitNext x | .commitSel x | .commitInd x | .commitRet x | .commitBar x => mv x
  | .commitCall x => mv x ++ vUse x.ra 2
  | _ => []

/-- The register numbers a file holds for the crew (R24, R126). -/
def RegUse.limit (e : DecodeEnv) (u : RegUse) : Nat :=
  match u.file with
  | none => 8 | some .v => e.regs | some .k => 64 | some .q => e.conduits

/-- A use is misplaced when it starts at a number its size does not divide (R24, R186, R256). DESIGN CHOICE, log 49: the odd number of a 64-bit q operand
does not: R24 speaks of the registers of a pair, and a q operand names one conduit. -/
def RegUse.odd (u : RegUse) : Bool := u.file != some .q && u.n != 3 && u.num % u.n != 0

/-- A use lies within its file (R24, R126). A q operand names one conduit whatever its width. -/
def RegUse.within (e : DecodeEnv) (u : RegUse) : Bool :=
  if u.file == some .q then u.num < u.limit e else u.num + u.n ≤ u.limit e

/-- The tile numbers an instruction names, as first and count (R194, R212, R215, R216). -/
def Instr.tiles : Instr → List (Nat × Nat)
  | .mma x => [(x.tile.toNat, if x.kind == .f64 then 2 else 1)]
  | .mmasp x | .mzero x | .mwait x => [(x.tile.toNat, 1)]
  | .mld x | .mst x | .mrd x | .mwr x => [(x.tile.toNat, if x.pair then 2 else 1)]
  | _ => []

/-- Register numbers that no allotment could admit (R24, R34): the ILLREG a word has in every context. -/
def Instr.regsOk (i : Instr) : Bool :=
  (i.reads ++ i.writes ++ i.commitRegs).all (fun u => !u.odd && (u.file != some .k || u.num + u.n ≤ 64) &&
      (u.file != some .q || u.num < 16)) &&
    i.tiles.all (fun t => t.1 % t.2 == 0 && t.1 + t.2 ≤ 16)

/-- ILLREG against the crew's allotments (R24, R126, R194). QSTAT names its conduit as a q register (R98). -/
def Instr.regsAllotted (e : DecodeEnv) (i : Instr) : Bool :=
  (i.reads ++ i.writes ++ i.commitRegs).all (·.within e) && i.tiles.all fun t => t.1 + t.2 ≤ e.tiles

/-- ILLFIELD that depends on the trace: .SPEC outside a revocable trace (R104), a SKIP whose span reaches the COMMIT (R109). -/
def Instr.fieldInTrace (e : DecodeEnv) : Instr → Bool
  | .atom x _ _ | .atomcas x => x.use != .spec || !e.irr
  | .skip x => e.offset + x.n.toNat + 1 ≤ e.len
  | _ => true

/-- ILLCTX by class (R104, R108, R211, R258, R292): whether the instruction may stand in the trace. -/
def Instr.classOk (e : DecodeEnv) (i : Instr) : Bool :=
  match i with
  | .guard _ | .guardr _ | .guardnz _ => !e.irr
  | .ld x => !x.split || (e.irr && !e.full)
  | _ =>
  if e.irr then true
  else
    (i.reads ++ i.writes).all (fun u => u.file != some .q) && i.writes.all (fun u => u.file != some .k) &&
    match i with
    | .atom x _ _ => x.use == .spec || (x.d == 0 && x.use != .nord)
    | .atomcas x => x.use == .spec
    | .atoms x => x.d == 0
    | .fence _ | .await _ | .qstat _ | .csrw _ | .ctxPtrootWrite _ | .crewTimerWrite _ | .version _ | .whoami _
    | .yieldcrew _ | .injectauth _ | .faultq _ | .callsvUnknown _ | .sleep _ => false
    | .mma _ | .mmasp _ | .mzero _ | .mld _ | .mst _ | .mwait _ | .mrd _ | .mwr _ | .tdesc _ => false
    | .xcopy _ | .xcoll _ | .xwait _ | .launch _ => false
    | _ => true

/-- The decode cause an instruction meets in its trace, in the order of R49: ILLFIELD, ILLREG, ILLCTX. -/
def Instr.causeIn (e : DecodeEnv) (i : Instr) : Option Cause :=
  if !i.fieldInTrace e then some .illfield
  else if !i.regsOk || !i.regsAllotted e then some .illreg
  else if !i.classOk e then some .illctx
  else none

/-- Decoding in a trace: the word's own causes first, then those of its place (R49). -/
def decodeIn (e : DecodeEnv) (w : CodeWord) : Except Cause Instr :=
  match decode w with
  | .error c => .error c
  | .ok i =>
    match i.causeIn e with
    | some c => .error c
    | none => .ok i

/-! ## The encoder -/

def SrcB.reg : SrcB → Src
  | .src s => s
  | .imm _ => Src.none

def encodeAlu (o : AluOp) (x : Alu) : Nat :=
  match x.b with
  | .src b =>
    packFields widthsA [o.opcode, x.pred.code, x.stall.toNat, x.sub.toNat, x.d.num.toNat, x.a.reg.num.toNat,
      b.reg.num.toNat, x.c.reg.num.toNat, x.a.mod.code, b.mod.code, x.c.mod.code, x.a.reg.file.code, b.reg.file.code,
      x.c.reg.file.code, x.d.file.code, x.ty.code, x.rnd.code, x.sat.toNat, x.ftz.toNat, x.a.neg.toNat, b.neg.toNat,
      x.c.neg.toNat, x.a.abs.toNat, b.abs.toNat, x.c.abs.toNat, 0]
  | .imm v =>
    packFields widthsI [o.opcode, x.pred.code, x.stall.toNat, 8 + x.sub.toNat, x.d.num.toNat, x.a.reg.num.toNat,
      x.a.mod.code, x.a.reg.file.code, x.d.file.code, x.ty.code, x.rnd.code, x.sat.toNat, 0, v.toNat, 0]

def encodeLop3 (x : Alu) (tt : BitVec 8) : Nat :=
  let b := x.b.reg
  packFields [8, 4, 4, 4, 8, 8, 8, 8, 12, 12, 12, 2, 2, 2, 2, 8, 1, 1, 1, 1, 1, 1, 18]
    [0x2b, x.pred.code, x.stall.toNat, 0, x.d.num.toNat, x.a.reg.num.toNat, b.reg.num.toNat, x.c.reg.num.toNat,
      x.a.mod.code, b.mod.code, x.c.mod.code, x.a.reg.file.code, b.reg.file.code, x.c.reg.file.code, x.d.file.code,
      tt.toNat, x.a.neg.toNat, b.neg.toNat, x.c.neg.toNat, x.a.abs.toNat, b.abs.toNat, x.c.abs.toNat, 0]

def encodeImm (o : ImmOp) (x : ImmI) : Nat :=
  packFields widthsI [o.opcode, x.pred.code, x.stall.toNat, 8, x.d.num.toNat, x.a.num.toNat, 0, x.a.file.code,
    x.d.file.code, x.ty.code, 0, 0, 0, x.imm.toNat, 0]

def encodeMem (op : Nat) (x : Mem) (cls aop : Nat) : Nat :=
  packFields widthsM [op, x.pred.code, x.stall.toNat, x.width.code, x.d.toNat, x.base.toNat, x.win.toNat, x.order.code,
    x.scope.code, x.use.code, x.split.toNat, x.cache.toNat, cls, x.e.toNat, aop, x.off.toNat, 0]

def moveCode : Option Move → Nat
  | some m => m.dst.toNat * 256 + m.src.toNat
  | none => 0

def encodeCommit (f : CForm) (x : Commit) : Nat :=
  packFields widthsT [0x06, x.pred.code, x.stall.toNat, f.code, x.ra.toNat, x.rb.toNat, x.tgt0.toNat, x.tgt1.toNat,
    if f == .rwait then x.count.toNat else moveCode x.move0, if f == .rwait then x.timeout.toNat else moveCode x.move1,
    x.move0.isSome.toNat + 2 * x.move1.isSome.toNat, 0]

def encodeGuard (op : Nat) (x : Guard) : Nat :=
  packFields widthsT [op, x.pred.code, x.stall.toNat, 0, x.ra.toNat, 0, x.tgt.toNat, 0, x.lo.toNat, x.hi.toNat, 0, 0]

def encodeMat (o : MatOp) (x : Mat) : Nat :=
  packFields widthsX [o.opcode, x.pred.code, x.stall.toNat, o.subCode x, x.tile.toNat, 0, x.hA.toNat, x.hB.toNat,
    x.kr.toNat, x.kc.toNat, x.kp.toNat, x.ta.toNat, x.tb.toNat, x.ovw.toNat, x.sat.toNat, 0, x.vd.toNat, x.vc.toNat, 0]

def encodeXfer (op : Nat) (x : Xfer) : Nat :=
  packFields widthsE [op, x.pred.code, x.stall.toNat, x.sub.toNat, x.n.toNat, x.hD.toNat, x.hS.toNat, x.ka.toNat,
    x.kv.toNat, x.kp.toNat, x.arr.toNat, x.comp.toNat, x.win.toNat, 0]

/-- The word of an instruction, none for a step that carries no word. -/
def encodeNat (i : Instr) : Option Nat :=
  match i.alu? with
  | some (o, x) => some (encodeAlu o x)
  | none =>
  match i with
  | .nop x => some (packFields [8, 4, 4, 4, 108] [0x00, x.pred.code, x.stall.toNat, 0, 0])
  | .trigger x => some (packFields [8, 4, 4, 4, 108] [0x08, x.pred.code, x.stall.toNat, 0, 0])
  | .yield x => some (packFields [8, 4, 4, 4, 108] [0x0b, x.pred.code, x.stall.toNat, 0, 0])
  | .illegal => some 0xff
  | .trc x => some (packFields widthsH [0x01, 7, x.stall.toNat, x.irr.toNat, x.full.toNat, 0, x.traceId.toNat,
      x.budget.toNat, x.len.toNat, 0])
  | .guard x => some (encodeGuard 0x02 x)
  | .guardr x => some (encodeGuard 0x03 x)
  | .guardnz x => some (encodeGuard 0x04 x)
  | .skip x => some (packFields widthsT [0x05, x.pred.code, x.stall.toNat, 0, 0, 0, x.n.toNat + 1, 0, 0, 0, 0, 0])
  | .commitNext x => some (encodeCommit .next x)
  | .commitSel x => some (encodeCommit .sel x)
  | .commitInd x => some (encodeCommit .ind x)
  | .commitCall x => some (encodeCommit .call x)
  | .commitRet x => some (encodeCommit .ret x)
  | .commitExit x => some (encodeCommit .exit x)
  | .commitBar x => some (encodeCommit .bar x)
  | .commitRwait x => some (encodeCommit .rwait x)
  | .lop3 x tt => some (encodeLop3 x tt)
  | .trap x => some (encodeImm .trap x)
  | .brk x => some (encodeImm .brk x)
  | .srd x => some (encodeImm .srd x)
  | .movi x => some (encodeImm .movi x)
  | .movi64 x => some (packFields [8, 4, 4, 4, 8, 8, 12, 2, 2, 4, 2, 1, 5, 64] [0x3b, x.pred.code, x.stall.toNat, 8,
      x.d.num.toNat, 0, 0, 0, x.d.file.code, 2, 0, 0, 0, x.imm.toNat])
  | .csrr x => some (encodeImm .csrr x)
  | .csrw x | .ctxPtrootWrite x | .crewTimerWrite x => some (encodeImm .csrw x)
  | .version x | .whoami x | .yieldcrew x | .injectauth x | .faultq x | .callsvUnknown x => some (encodeImm .callsv x)
  | .sleep x => some (encodeImm .sleep x)
  | .ld x => some (encodeMem 0xa0 x 0 0)
  | .st x => some (encodeMem 0xa1 x 0 0)
  | .atom x op cls => some (encodeMem 0xa2 x cls.toNat op.code)
  | .atomcas x => some (encodeMem 0xa3 x 0 0)
  | .pfetch x => some (encodeMem 0xa4 x 0 0)
  | .kld x => some (encodeMem 0xa5 x 0 0)
  | .fence x => some (encodeMem 0xa6 x 0 0)
  | .lds x => some (encodeMem 0xc0 x 0 0)
  | .sts x => some (encodeMem 0xc1 x 0 0)
  | .atoms x => some (encodeMem 0xc2 x 0 0)
  | .renew x => some (encodeMem 0xc3 x 0 0)
  | .arm x => some (encodeMem 0xc4 x 0 0)
  | .await x => some (encodeMem 0xc5 x 0 0)
  | .spage x => some (encodeMem 0xc6 x 0 0)
  | .mma x => some (encodeMat .mma x)
  | .mmasp x => some (encodeMat .mmasp x)
  | .mzero x => some (encodeMat .mzero x)
  | .mwait x => some (encodeMat .mwait x)
  | .mld x => some (encodeMat .mld x)
  | .mst x => some (encodeMat .mst x)
  | .mrd x => some (encodeMat .mrd x)
  | .mwr x => some (encodeMat .mwr x)
  | .tdesc x => some (encodeMat .tdesc x)
  | .xcopy x => some (encodeXfer 0xe0 x)
  | .xcoll x => some (encodeXfer 0xe1 x)
  | .xwait x => some (packFields widthsW [0xe2, 7, x.stall.toNat, 0, 0, x.n.toNat, 0])
  | .launch x => some (packFields widthsE [0xe3, x.pred.code, x.stall.toNat, 0, x.ks.toNat, 0, 0, 0, 0, x.kp.toNat, 0, 0,
      x.win.toNat, 0])
  | _ => none

/-- The 128-bit word of an instruction (zero for a step that carries none). -/
def encode (i : Instr) : CodeWord := BitVec.ofNat 128 ((encodeNat i).getD 0)

/-! ## Bytes (R2) -/

/-- The little-endian bytes of a number. -/
def bytesOf : Nat → Nat → List Byte
  | 0, _ => []
  | k + 1, n => BitVec.ofNat 8 n :: bytesOf k (n / 256)

/-- The number of little-endian bytes. -/
def natOf : List Byte → Nat
  | [] => 0
  | b :: bs => b.toNat + 256 * natOf bs

/-- The decoder on the sixteen bytes of a word, lowest address first; fewer or more bytes are no word. -/
def decodeBytes (bs : List Byte) : Except Cause Instr :=
  if bs.length == 16 then decode (BitVec.ofNat 128 (natOf bs)) else .error .illop

/-- The instruction the decoder reads from a table row's word: `nbits` bits of `w`, every bit above them zero. -/
def decodeTableWord (nbits w : Nat) : Option Instr :=
  match decodeBytes (bytesOf 16 (w % 2 ^ nbits)) with
  | .ok i => if i.regsOk then some i else none
  | .error _ => none

end Sys2Proof
end

