-- ==== Sys2Proof/Config.lean ====
section
/-! DEFINITION. What an implementation fixes and the manual does not say, and the free values: constants without a
body, so that a claim holds whatever they are. -/

namespace Sys2Proof

/-- A fresh 32-bit value the manual leaves open (R117, R129), drawn with the counter `State.free`. -/
opaque Config.freeWord : Nat → Word
/-- A fresh choice the manual leaves open, drawn with the counter `State.free`. -/
opaque Config.freeNat : Nat → Nat
/-- The slice, 0 to 47 after reduction, that homes a block (R17: a fixed hash of PA[51:9]). -/
opaque Config.homeHash : Nat → Nat
/-- The set of a core TLB, 0 to 63 after reduction, that holds a virtual page (R227: 8-way). -/
opaque Config.tlbSet : Nat → Nat
/-- The version of Rililo (R337, R375). -/
opaque Config.rililoVersion : Word
/-- The device serial number (R379, R384). -/
opaque Config.serial : Word
/-- The base of the write-version table (R237), of the bias table (R240) and of the compression region (R255). -/
opaque Config.wvBase : Nat
opaque Config.biasBase : Nat
opaque Config.compBase : Nat
/-- SHA-384 of the verified Rililo image (R384). -/
opaque Config.imageDigest : Nat
/-- SHA-384 of the fuse configuration and of the setup in force, given as words (R384). -/
opaque Config.setupDigest : List Nat → Nat
/-- The ECDSA signature, 96 bytes, of a report (R384). -/
opaque Config.signature : List Nat → Nat
/-- The bytes of save area that a crew's saved state takes (R325, R327), from its threads, lane registers, live
segments and tiles: the encoding of the save area is not given. -/
opaque Config.saveBytes : Nat → Nat → Nat → Nat → Nat
/-- The stored size code, 1 to 4 after reduction, the compressor chooses for a block that is not all zero (R255). -/
opaque Config.compressCode : List Byte → Nat
/-- How near to 3200 W the package power has to come for the Regulator to lower the clock, in watts (R382). -/
opaque Config.powerMargin : Nat
end Sys2Proof
end

