-- ==== Sys2Proof/Machine/Maps.lean ====
section
/-! DEFINITION. Sparse tables by key: lists of pairs in one canonical form, keys strictly rising and no entry equal to
the value an unlisted key has. -/

namespace Sys2Proof.Machine

/-- A table by key. -/
abbrev Map (α : Type) := List (Nat × α)

variable {α : Type}

/-- The entry of a key, if listed. -/
def Map.find : Map α → Nat → Option α
  | [], _ => none
  | (j, v) :: m, k => if j = k then some v else Map.find m k

/-- The value of a key, `d` where it is not listed. -/
def Map.get (m : Map α) (d : α) (k : Nat) : α := (m.find k).getD d

/-- The table without a key. -/
def Map.erase : Map α → Nat → Map α
  | [], _ => []
  | (j, v) :: m, k => if j = k then Map.erase m k else (j, v) :: Map.erase m k

/-- The table with a key's entry set. -/
def Map.insert : Map α → Nat → α → Map α
  | [], k, w => [(k, w)]
  | (j, v) :: m, k, w =>
    if k < j then (k, w) :: (j, v) :: m else if j = k then (k, w) :: m else (j, v) :: Map.insert m k w

/-- The table with a key's value set; the value of an unlisted key is not listed. -/
def Map.set [DecidableEq α] (m : Map α) (d : α) (k : Nat) (w : α) : Map α :=
  if w = d then m.erase k else m.insert k w

/-- Change the entry of a key, if it is listed. -/
def Map.modify (m : Map α) (k : Nat) (f : α → α) : Map α :=
  m.map fun e => if e.1 = k then (e.1, f e.2) else e

/-- The listed values, in key order. -/
def Map.vals (m : Map α) : List α := m.map (·.2)

/-- Whether every key is at least `lo` and the keys rise strictly. -/
def Map.rising : Nat → Map α → Bool
  | _, [] => true
  | lo, (j, _) :: m => decide (lo ≤ j) && Map.rising (j + 1) m

/-- The canonical form: keys strictly rising, no entry equal to `d`. -/
def Map.wf [DecidableEq α] (m : Map α) (d : α) : Bool := Map.rising 0 m && m.all fun e => decide (e.2 ≠ d)

end Sys2Proof.Machine
end

