-- ==== Sys2Proof/Machine/State.lean ====
section
/-! DEFINITION. The state of the Voxaec as plain data, the ways a step can stop, and the state after reset. The
registers stand in flat tables: lane register n of thread t at key 256 t + n, predicate p at 8 t + p, crew register k of
crew c at 64 c + k, tile word (i, j) of tile a of crew c at 2^16 c + 4096 a + 64 i + j, scratchpad byte o of crew c at
2^20 c + o. -/

namespace Sys2Proof.Machine

/-! ## Contexts -/

/-- The system registers of a context (R314). -/
structure SysRegs where
  trapvec    : Dword
  staletrap  : Word
  tensorbase : BitVec 128
  win0       : Word
  win1       : Word
  win2       : Word
  win3       : Word
  ptroot     : Dword
  chkStall   : Word
  chkIdem    : Word
  binAge     : Word
  errInject  : Dword
  deriving DecidableEq, Repr

/-- The reset values of the field maps: bin.age is 64 (R80), every other register 0. -/
def SysRegs.reset : SysRegs := ⟨0, 0, 0, 0, 0, 0, 0, 0, 0, 0, 64, 0⟩

/-- A recoverable record that is not yet resolved (R233, R322, R328): its sequence number, core and 64 KiB page. -/
structure OpenRec where
  seq  : Nat
  core : Nat
  page : Nat
  deriving DecidableEq, Repr

/-- A communicator (R295, R375): `g` groups of `m` members, the device's own rank, and the peer of each rank. -/
structure Comm where
  g     : Nat
  m     : Nat
  rank  : Nat
  peers : List Nat
  lost  : Bool
  deriving DecidableEq, Repr

/-- A context (R313, R375). `lost` says that records were dropped, `poolGone` lists pool pages that a replay left mapped (R361). -/
structure Ctx where
  num        : Nat
  part       : Nat
  privileged : Bool
  test       : Bool
  grant      : Bool
  alive      : Bool
  regs       : SysRegs
  ringBase   : Nat
  ringM      : Nat
  saveBase   : Nat
  saveSize   : Nat
  vector     : Nat
  lost       : Bool
  records    : List OpenRec
  waiting    : List FaultRec
  comms      : Map Comm
  snapDesc   : List Byte
  poolGone   : List Nat
  deriving DecidableEq, Repr

/-! ## Threads, crews and cohorts -/

/-- A position inside a trace (R318, R327): the instruction, its trace's header address, class, F, trace id, budget and
length, the cohort a split sub-cohort belonged to (0: none), and the 32-thread property of R123. -/
structure Resume where
  addr    : Nat
  hdr     : Nat
  irr     : Bool
  full    : Bool
  traceId : BitVec 16
  budget  : Nat
  len     : Nat
  group   : Nat
  drawnFull : Bool
  deriving DecidableEq, Repr

/-- A filing (R76): next trace, key tag, arrival clock, whether on the overflow list, and a position inside a trace with
the lane's SKIP span and remaining sleep. -/
structure Filing where
  next     : Nat
  tag      : BitVec 16
  arrival  : Nat
  overflow : Bool
  resume   : Option Resume
  skipTo   : Nat
  sleep    : Nat
  deriving DecidableEq, Repr

/-- Why a thread is parked (R232, R236, R238, R357, R360). -/
inductive ParkWhy | page | writeHeld | room | cow | retired
  deriving DecidableEq, Repr

/-- A parked thread (R118, R232, R236): where it waits, what for, the trace and offset it parked in, and the filing that a
retry makes. `unit` is the PTE unit it waits on. -/
structure Park where
  why     : ParkWhy
  core    : Nat
  page    : Nat
  unit    : Option Nat
  pending : Bool
  offset  : Nat
  traceId : BitVec 16
  filing  : Filing
  deriving DecidableEq, Repr

/-- A TRAP or BRK that a commit delivers at a release (R125): cause, code, offset and trace id. -/
structure TrapDue where
  cause   : Cause
  code    : Word
  offset  : Nat
  traceId : BitVec 16
  deriving DecidableEq, Repr

/-- A thread that waits at a barrier or a wait point (R85, R86, R125, R333): its successor, its key tag, a trap to
deliver, and the trace it left with that trace's length. -/
structure Waiting where
  succ    : Nat
  tag     : BitVec 16
  trap    : Option TrapDue
  traceId : BitVec 16
  len     : Nat
  deriving DecidableEq, Repr

/-- Where a thread is (R82); `faulted` is stopped by a cause that ends its context (R315, R324). -/
inductive Place
  | filed (f : Filing)
  | inCohort (c : Nat)
  | leaving (alt : Nat) (core : Nat)
  | parked (p : Park)
  | barrier (n : Nat) (w : Waiting)
  | rwait (addr : Nat) (pred : Nat) (w : Waiting)
  | faulted
  | ended
  deriving DecidableEq, Repr

/-- A thread (R69, R72, R318, R327). `row` is its slot row on the crew's core; `pendRec` the core and page of a record that was pending
when its crew was saved (R328); `relies` the threads
with accesses under way that came before a write whose value it has read, each with the message before which they were made (R273). -/
structure Thread where
  id        : Nat
  crew      : Nat
  ord       : Nat
  wid       : Dword
  row       : Nat
  place     : Place
  handler   : Bool
  trapcause : Word
  trapinfo  : Dword
  trapret   : Dword
  resume    : Option Resume
  timerPend : Bool
  jewelUsed : Bool
  resvLost  : Bool
  pendRec   : Option (Nat × Nat)
  relies    : List (Nat × Nat)
  deriving DecidableEq, Repr

/-- A conduit (R89, R93): capacity, entries with the clock at which each result is written, reserve row in use. -/
structure Conduit where
  cap     : Nat
  fifo    : List (Word × Nat)
  reserve : Bool
  deriving DecidableEq, Repr

/-- A crew barrier (R85): generation, and the target its first arrival read (none: every unexited thread). -/
structure Barrier where
  gen    : Nat
  target : Option Nat
  deriving DecidableEq, Repr

/-- An open group of a wait point (R86): its key is the COMMIT's address. -/
structure Group where
  count   : Nat
  timeout : Nat
  elapsed : Nat
  deriving DecidableEq, Repr

/-- A k write that another cohort may not see yet (R129): register, the value before it in the order of results, the writing cohort with
its threads and its port, the clock at which its result is written, and the cohorts and threads that have seen it. -/
structure KPend where
  reg    : Nat
  old    : Word
  cohort : Nat
  writers : List Nat
  port   : Nat
  ready  : Nat
  seen   : List Nat
  deriving DecidableEq, Repr

/-- A crew (R70, R88, R308, R325, R331, R332). `core` is none while it is saved; `running` is false while it is
descheduled or frozen; `stopping` is its pre-emption under way, true where it is left resident (R326). A saved crew's segments
hold their ages in place of stamps (R182). -/
structure Crew where
  id          : Nat
  ctx         : Nat
  launch      : Nat
  crewId      : Dword
  ordinal     : Nat
  size        : Nat
  core        : Option Nat
  running     : Bool
  timer       : Dword
  clk         : Nat
  triggered   : Bool
  decremented : Bool
  conduits    : List Conduit
  barriers    : Map Barrier
  groups      : Map Group
  kPend       : List KPend
  probe       : Option Nat
  stopping    : Option Bool
  deriving DecidableEq, Repr

/-- What a memory write is (R259, R260, R264): a store of bytes, an atomic with its operand bytes, or nothing (a failed
speculative compare, which still takes its budget entry). -/
inductive EffKind
  | store
  | atom (op : AtomOp) (cls : BitVec 2)
  | nothing
  deriving DecidableEq, Repr

/-- A write to global memory that is buffered or side-logged (R105, R106, R233): its attribution, virtual address, data,
order, scope and use. -/
structure MemEff where
  ctx     : Nat
  crew    : Nat
  thread  : Nat
  traceId : BitVec 16
  offset  : Nat
  va      : Nat
  bytes   : List Byte
  kind    : EffKind
  order   : Order
  scope   : Scope
  use     : Use
  deriving DecidableEq, Repr

/-- Whether a buffered effect is to be translated again at commit, or to enter the side log (R106). -/
inductive Mark | clean | again | sideLog
  deriving DecidableEq, Repr

/-- A buffered effect of a revocable trace (R104). `pa` is the physical key it was translated to at issue, `offset` is an
ATOMS's own. -/
inductive Effect
  | mem (e : MemEff) (pa : Nat) (mark : Mark)
  | sts (a : Nat) (bytes : List Byte) (order : Order)
  | atoms (a size : Nat) (v : Nat) (order : Order) (offset : Nat)
  | renew (a len : Nat)
  | arm (a : Nat) (v : Word)
  | trigger
  | trap (t : TrapDue)
  deriving DecidableEq, Repr

/-- A speculative reservation at a home (R120, R121). -/
structure Resv where
  pa     : Nat
  size   : Nat
  failed : Bool
  deriving DecidableEq, Repr

/-- What a lane of a waiting AWAIT waits on (R191): the word's offset, the generation it must differ from, and whether it
has been found to. -/
structure Await where
  addr : Nat
  gen  : Word
  ok   : Bool
  deriving DecidableEq, Repr

/-- A lane present in a cohort (R36, R94, R105, R109, R120, R191). The lane executes offsets of at least `skipTo`;
`past` says that it has reached its commit point (R110), with `buf` the effects not yet performed, `resv` its commit holds (R122), `logRes`
the side-log entries that it has reserved and not used, and `trap` the trap to deliver. -/
structure Lane where
  pos     : Nat
  tid     : Nat
  skipTo  : Nat
  key     : BitVec 16
  buf     : List Effect
  resv    : List Resv
  await   : Option Await
  past    : Bool
  trap    : Option TrapDue
  logRes  : Nat
  deriving DecidableEq, Repr

/-- What a cohort in flight does (R82, R90, R102, R191, R338). A cohort at AWAIT keeps the instruction's destination and stall. -/
inductive CohSt
  | trc
  | buffer
  | ready
  | conduit (since : Nat)
  | asleep (until' : Nat)
  | await (d : Nat) (stall : BitVec 4)
  deriving DecidableEq, Repr

/-- The file of a fixed-latency result. -/
inductive RegFile | v | p | k
  deriving DecidableEq, Repr

/-- A result that is not readable before `ready` (R44, R46, R47), with the value before it; `tracked` is one of variable latency that stands behind
an earlier write of its register, for which the scoreboard holds the cohort back (R45). -/
structure Pend where
  file  : RegFile
  key   : Nat
  old   : Nat
  ready : Nat
  tracked : Bool
  deriving DecidableEq, Repr

/-- A diverged lane of an irrevocable trace that executes again (R169, R170): the instruction, its offset, the result that the second
execution gives, whether that diverges too, and whether its lane is the lowest that executed. -/
structure Rexec where
  tid    : Nat
  op     : AluOp
  x      : Alu
  offset : Nat
  val    : Nat
  bad    : Bool
  low    : Bool
  deriving DecidableEq, Repr

/-- A cohort in flight (R75, R100, R102, R116, R123, R124). `code` holds the words of its trace by address once they have been
fetched (R101), `pushed` the clock at
which its last push is written (R46), `xops` the operations that a waiting XWAIT waits for (R300). -/
structure Cohort where
  id        : Nat
  core      : Nat
  port      : Nat
  crew      : Nat
  st        : CohSt
  hdr       : Nat
  pc        : Nat
  irr       : Bool
  full      : Bool
  traceId   : BitVec 16
  budget    : Nat
  len       : Nat
  drawnFull : Bool
  group     : Nat
  lanes     : List Lane
  snap      : SysRegs
  readSet   : List (Bool × Nat)
  broken    : List (Bool × Nat)
  pend      : List Pend
  nextIssue : Nat
  yieldFor  : List Nat
  tb        : Nat
  waits     : List Nat
  rexec     : List Rexec
  code      : Option (Map CodeWord)
  pushed    : Nat
  xops      : Option (List Nat)
  deriving DecidableEq, Repr

/-! ## Memory and coherence -/

/-- Memory as bytes by physical key, in the canonical form of `Memory.wf`: device HBM at its address (R17). Keys from 2^52 on name host
memory and keys from 2^53 on peers' memory (R376, R379), which are reached by messages. -/
abbrev Memory := List Host.Cell

/-- What an unlisted byte reads as (the manual gives no power-on contents of HBM). DESIGN CHOICE, log 1. -/
def memDefault : Byte := 0

/-- The canonical form of memory: addresses strictly rising, no byte equal to what an unlisted address reads as. -/
def Memory.wf (m : Memory) : Bool := Map.wf (α := Byte) m memDefault

/-- The writer of a block (R243): a device context, or the host or a peer. -/
inductive Writer
  | ctx (n : Nat)
  | external
  deriving DecidableEq, Repr

/-- A store that is die-performed and not yet device-performed (R246, R276); a counted one has been counted (R237). `eff` holds the core
that made it, and the write as it would be made again. -/
structure DieWrite where
  die    : Nat
  pa     : Nat
  bytes  : List Byte
  writer : Writer
  thread : Nat
  eff    : Option (Nat × MemEff)
  deriving DecidableEq, Repr

/-- The half of a BF16X2 atomic that is still to be performed, the other being performed (R261): its request, thread, key, addend and writer, and the
core's effect where it is one's, and for one that returns a value the name of its lane's wait and the lane's register. -/
structure Half where
  req    : Nat
  thread : Nat
  pa     : Nat
  val    : Nat
  writer : Writer
  eff    : Option (Nat × MemEff)
  ret    : Option (Nat × Nat)
  deriving DecidableEq, Repr

/-- The holder filter of a home (R249): at most four agents, or the fifteen group bits. -/
inductive Filter
  | pointers (l : List Nat)
  | coarse (v : BitVec 15)
  deriving DecidableEq, Repr

/-- A token request being served (R248, R250): its agent, whether it needs every token (or one, or the die's), the replies
expected and got, tokens gathered and the owner token, failures, the clock it was issued, and whether it is persistent. -/
structure TokReq where
  agent      : Nat
  need       : Nat
  expected   : Nat
  got        : Nat
  tokens     : Nat
  owner      : Bool
  fails      : Nat
  since      : Nat
  persistent : Bool
  deriving DecidableEq, Repr

/-- A coherence unit's tokens (R245): at the home, with agents, in flight in Acks and in Evicts by their sender; the owner token's holder
(none: the home, or in flight); the filter; the request at the home and those behind it, the persistent table's requests for it, none of
them at reset. -/
structure CohUnit where
  home    : Nat
  owner   : Option Nat
  held    : Map Nat
  flight  : List (Nat × Bool)
  evicts  : List (Nat × Nat × Bool)
  filter  : Filter
  req     : Option TokReq
  queue   : List TokReq
  pers    : List Nat
  deriving DecidableEq, Repr

/-- A unit after reset: every token at its home. -/
def CohUnit.fresh : CohUnit := ⟨1024, none, [], [], [], .pointers [], none, [], []⟩

/-- The tag of an L2 block (R242, R243): its sectors that are valid, and those that are modified. -/
structure Block where
  owner      : Nat
  ownerValid : Bool
  ext        : Bool
  valid      : BitVec 16
  modified   : BitVec 16
  deriving DecidableEq, Repr

/-- Latent damage of a sector that ECC finds (R339, R354): one flipped bit in L2, or an L2 or HBM error that it cannot correct. -/
inductive Harm | single | l2 | hbm
  deriving DecidableEq, Repr

/-- A cached translation (R227, R228): its agent, context, level (5, 4, 3 a leaf; `leaf` false a walker entry), virtual
page, entry and the units its walk read. -/
structure TlbEntry where
  agent : Nat
  ctx   : Nat
  root  : Nat
  leaf  : Bool
  level : Nat
  vpage : Nat
  pte   : Dword
  units : List Nat
  deriving DecidableEq, Repr

/-- Where the answer to a remote access goes (R376, R379): to lane registers, each lane with the virtual address that it reads (R257); to
the bytes a tile or engine operation has fetched; into the L2 alone; back to the peer behind a port whose access it is; or nowhere. -/
inductive RemoteTo
  | regs (lanes : List (Nat × Nat)) (d : Nat) (width : Width)
  | op (id va : Nat)
  | fill
  | back (port tag : Nat)
  | write
  deriving DecidableEq, Repr

/-- An access awaiting the host's or a peer's answer (R376, R379): its bytes, destination, cohort and thread, the agent that translated it,
whether its page is watched, and whether it has lost its translation, so that it is to be made again (R229). A store that heads for its home in
device HBM stands here too until the home begins it (R229, R348), from the clock `due` on. -/
structure Remote where
  peer   : Bool
  eff    : Option MemEff
  pa     : Nat
  size   : Nat
  cmp    : List Byte
  dest   : RemoteTo
  cohort : Nat
  thread : Nat
  agent  : Nat
  watch  : Bool
  gone   : Bool
  due    : Option Nat
  deriving DecidableEq, Repr

/-- A bias flip (R254): to the host or to the device, and the lines whose answer has arrived. -/
structure Flip where
  page   : Nat
  toHost : Bool
  lines  : List Nat
  stream : Option Nat
  deriving DecidableEq, Repr

/-- Memory-side state beyond the bytes. `fmts` holds the grain of the blocks in some cache and whether their kind is 3 (R226, R242), `proxyFilters` the
filter of die d's proxy for sector n at 4 n + d (R249), `halves` pending halves of BF16X2 atomics (R261), `hostHeld` the sectors that the L2 holds under
the host's coherence, with their bytes, `hostDirty` those that the device has written since (R254, R376), `descs` the sectors that an agent holds in a
metadata cache (R13), `checks` the check values that are not those of their sectors' bytes (R352), `rely` the threads with accesses under way, of which
messages below a number, that come before writes of a sector (R273). -/
structure Coh where
  dieWrites  : List DieWrite
  units      : Map CohUnit
  proxyFilters : Map Filter
  blocks     : Map Block
  fmts       : Map (Nat × Bool)
  halves     : List Half
  hostHeld   : Map (List Byte)
  hostDirty  : List Nat
  descs      : List (Nat × Nat)
  poison     : Map Finder
  harm       : Map Harm
  checks     : Map (BitVec 16)
  rely       : Map (List (Nat × Nat))
  quarantine : List (Nat × Nat × Nat)
  comp       : Map Nat
  bias       : Map Bool
  flips      : List Flip
  remote     : Map Remote
  tlb        : List TlbEntry
  lastPage   : Map TlbEntry
  deriving DecidableEq, Repr

/-! ## Core units and engines -/

/-- The fade tick and power state of a core (R175, R331, R380). `power` is 0 for C0, 1 for C1, 2 for C2. -/
structure CoreSt where
  tick     : Nat
  tickLeft : Nat
  stopped  : Nat
  idle     : Nat
  power    : Nat
  last     : Nat
  deriving DecidableEq, Repr

/-- A scratchpad segment (R176): stamp, expired. A segment that is not listed is never-written. -/
structure Seg where
  stamp   : BitVec 12
  expired : Bool
  deriving DecidableEq, Repr

/-- An entry of a core's side log (R233). -/
structure SideEntry where
  core : Nat
  eff  : MemEff
  unit : Option Nat
  held : Bool
  deriving DecidableEq, Repr

/-- An entry of a core's quantum buffer (R263). -/
structure QEntry where
  core  : Nat
  eff   : MemEff
  pa    : Nat
  watch : Bool
  deriving DecidableEq, Repr

/-- What an operation waits for (R208, R238, R294, R360): why, the virtual page, and the PTE unit, or the damaged sector under
a decision. -/
structure PageWait where
  why  : ParkWhy
  page : Nat
  unit : Option Nat
  deriving DecidableEq, Repr

/-- What the fetch of an operation holds (R206): its pinned lines, and the bytes fetched, by virtual address, with
scratchpad offsets above 2^80, with those that came poisoned (R354). -/
structure OpData where
  lines   : List Nat
  fetched : Map Byte
  bad     : Map Finder
  deriving DecidableEq, Repr

def OpData.none : OpData := ⟨[], [], []⟩

/-- Whom a fault of an operation is attributed to (R208, R294, R302). -/
structure Attr where
  ctx     : Nat
  crew    : Nat
  thread  : Nat
  traceId : BitVec 16
  offset  : Nat
  lane    : Nat
  wid     : Dword
  core    : Nat
  stream  : Option Nat
  cmd     : Nat
  deriving DecidableEq, Repr

/-- What a tile operation does (R203, R212 to R215). -/
inductive TileKind
  | mma (k : MmaKind) (sparse : Bool) (ta tb ovw sat : Bool)
  | zero
  | load (ta : Bool)
  | store (ta sat : Bool)
  deriving DecidableEq, Repr

/-- A tile operation in a matrix queue, with its captured entries, origins and progress (R203, R208, R209), and its place in the order of starts
(R206). -/
structure TileOp where
  id      : Nat
  crew    : Nat
  kind    : TileKind
  tile    : Nat
  pair    : Bool
  ea      : Nat
  eb      : Nat
  haVa    : Nat
  hbVa    : Nat
  io      : Nat
  jo      : Nat
  ko      : Nat
  kl      : Nat
  prog    : Nat
  started : Bool
  turn    : Nat
  retried : Bool
  waiting : Option PageWait
  at'     : Attr
  deriving DecidableEq, Repr

/-- A completion word: virtual address and value (R293). -/
structure Completion where
  va  : Nat
  val : Word
  deriving DecidableEq, Repr

/-- A copy operation (R290 to R294). `prog` counts completed chunks; `word` says the completion word is still due. -/
structure CopyOp where
  id      : Nat
  die     : Nat
  engine  : Option Nat
  ed      : Nat
  es      : Nat
  dVa     : Nat
  sVa     : Nat
  tr      : Bool
  depth   : Nat
  sStride : Nat
  dStride : Nat
  arrival : Option Nat
  comp    : Option Completion
  prog    : Nat
  word    : Bool
  waiting : Option PageWait
  at'     : Attr
  deriving DecidableEq, Repr

/-- A collective operation (R295 to R299): its communicator and position in it, the contributions by rank (with n added, the results by owner), whether a
rank gave another operation, format, shape or root (R296), how many ranks are added, the FP32 sums of the group under way and of the groups before it, and
the chunks of the local destination written. -/
structure CollOp where
  id      : Nat
  comm    : Nat
  index   : Nat
  op      : BitVec 2
  ed      : Nat
  es      : Nat
  dVa     : Nat
  sVa     : Nat
  root    : Nat
  comp    : Option Completion
  got     : Map (List Dword)
  differs : Bool
  added   : Nat
  groupAcc : List Nat
  total   : List Nat
  prog    : Nat
  started : Bool
  word    : Bool
  waiting : Option PageWait
  at'     : Attr
  deriving DecidableEq, Repr

/-- Core units and engines. -/
structure Engines where
  sideLog  : List SideEntry
  quantum  : List QEntry
  tileOps  : List TileOp
  opData   : Map OpData
  tileProg : Map Nat
  copyOps  : List CopyOp
  copyTurn : Map Nat
  collOps  : List CollOp
  collSeq  : Map Nat
  deriving DecidableEq, Repr

/-! ## Launches, streams and the package -/

/-- The phase of a launch (R307). -/
inductive Phase | waiting | running | finished
  deriving DecidableEq, Repr

/-- A launch in its slot: header and residency fields and their progress (R305 to R308, R359 to R361). `decremented` counts the
crews that have ended, `joinSet` says that its counter has been stored, `depended` that a launch that waits for it has started (R357), `status` is
that of its completion record, due once it is finished. -/
structure Launch where
  slot        : Nat
  ctx         : Nat
  stream      : Nat
  cmd         : Nat
  seq         : Nat
  codeBase    : Nat
  frame       : Nat
  join        : Nat
  entry       : Nat
  snapshot    : Bool
  full        : Bool
  mask        : Nat
  widths      : List Nat
  extents     : List Nat
  level       : Nat
  prio        : Nat
  waits       : List Nat
  waitPas     : List Nat
  completion  : Nat
  regs        : Nat
  tiles       : Nat
  depths      : List Nat
  regions     : List (Nat × Nat)
  size        : Nat
  crews       : Nat
  phase       : Phase
  status      : Nat
  decremented : Nat
  shielded    : Bool
  unshielded  : Bool
  replayed    : Bool
  joinSet     : Bool
  depended    : Bool
  snapList    : List (Nat × Nat × Nat)
  deriving DecidableEq, Repr

/-- A continuation record (R308): its die, and either a range of crews or one resumed crew. -/
structure Record where
  die     : Nat
  slot    : Nat
  start   : Nat
  first   : Nat
  count   : Nat
  stride  : Nat
  resumed : Option Nat
  deriving DecidableEq, Repr

/-- What the command processor does for a stream (R301 to R304): the command in progress, whether it has started and whether
only the head is still to advance, the head and tail last seen, the keys of the words whose tokens it holds, and the operation and pages
its command waits for. -/
structure Stream where
  cmd      : Option Nat
  started  : Bool
  done     : Bool
  stopped  : Bool
  disabled : Bool
  head     : Nat
  tail     : Nat
  tailPa   : Option Nat
  watch    : Option Nat
  op       : Option Nat
  pages    : List Nat
  deriving DecidableEq, Repr

/-- A stream before its first command. -/
def Stream.fresh : Stream := ⟨none, false, false, false, false, 0, 0, none, none, none, []⟩

/-- The command processor and the distributors. -/
structure Command where
  streamTab : Nat
  streams   : Map Stream
  launches  : Map Launch
  records   : List Record
  master    : Bool
  deriving DecidableEq, Repr

/-- A peer-table entry (R379). -/
structure Peer where
  port   : Nat
  serial : Nat
  lost   : Bool
  deriving DecidableEq, Repr

/-- A Tilpen port (R378): the next sequence number that it receives and the failed replays in a row, the next that it sends, its replay
buffer, and what it has received and waits to deliver, in order. -/
structure Port where
  up     : Bool
  seq    : BitVec 4
  fails  : Nat
  sent   : BitVec 4
  buffer : List Flit
  inbox  : List FlitBody
  deriving DecidableEq, Repr

/-- A disturbance that is to come (R167, R171), an input of the model: its core, the lane position if it meets one lane only, how many
checked results pass before it, and the bits that it flips. -/
structure Disturb where
  core  : Nat
  lane  : Option Nat
  after : Nat
  flip  : Nat
  deriving DecidableEq, Repr

/-- The package, the Crown and the host port (R357, R363, R372 to R384). `unsaved` lists the crews of which the host driver has been told that
their save was not started (R325), `snoops` holds the data with which a host snoop of a line was answered last (R376), and `retireHeld` retired
pages that the host has listed before step 4 of bring-up (R374). -/
structure Package where
  status      : Word
  failure     : Word
  event       : Word
  response    : Word
  reqBuf      : List Byte
  respBuf     : List Byte
  request     : Option Word
  msix        : List Nat
  clusterPart : List Nat
  partWait    : Map Nat
  slices      : List Nat
  weights     : List Nat
  peers       : Map Peer
  ports       : List Port
  frozen      : Map Nat
  reports     : List Report
  deadDies    : List Nat
  disturb     : List Disturb
  tolCluster  : List Word
  tolDie      : List Word
  tolPackage  : Word
  diePower    : List Nat
  asleep      : Bool
  sleepReq    : Bool
  mhz         : Nat
  powered     : Bool
  retireList  : List Nat
  retireHeld  : List Nat
  snoops      : Map (List Byte)
  unsaved     : List Nat
  wvBase      : Nat
  biasBase    : Nat
  compBase    : Nat
  deriving DecidableEq, Repr

/-- The whole machine. `agenda` holds the turns to take, `later` those that wait for another clock, `cur` the cohort whose instruction executes, `free` the counter
free values are drawn with and `nextId` the next name: the model's own fields, not the manual's. -/
structure State where
  clock   : Nat
  free    : Nat
  nextId  : Nat
  agenda  : List Turn
  later   : List Turn
  cur     : Option Nat
  vreg    : Map Word
  preg    : Map Bool
  kreg    : Map Word
  tiles   : Map Word
  spad    : Map Byte
  segs    : Map Seg
  threads : Map Thread
  crews   : Map Crew
  cohorts : Map Cohort
  ctxs    : Map Ctx
  mem     : Memory
  coh     : Coh
  cores   : List CoreSt
  eng     : Engines
  cmd     : Command
  pkg     : Package
  deriving DecidableEq, Repr

/-! ## How a step stops -/

/-- The faults of a step. The machine of the manual delivers every cause of R48 to a handler, a record or the Crown, which
are next states; a fault here is a use of the step outside the machine's own. -/
inductive Fault
  /-- Raised by an instruction of a cohort when no cohort is issuing. Safe: no run of the machine reaches it. -/
  | noIssuingCohort
  deriving DecidableEq, Repr

/-- The refusals of a step. -/
inductive Refusal
  /-- Raised by a dispatch arm that has no meaning yet. Safe: nothing is claimed of the instruction. -/
  | notModelled (mnemonic : String)
  deriving DecidableEq, Repr

/-! ## Reset -/

/-- A core after reset: tick 0 and a whole tick to run (log 3), in C0. -/
def CoreSt.reset : CoreSt := ⟨0, 3600, 0, 0, 0, 0⟩

def Coh.reset : Coh := ⟨[], [], [], [], [], [], [], [], [], [], [], [], [], [], [], [], [], [], [], []⟩

def Engines.reset : Engines := ⟨[], [], [], [], [], [], [], [], []⟩

def Command.reset : Command := ⟨0, [], [], [], true⟩

def Port.reset : Port := ⟨false, 0, 0, 0, [], []⟩

/-- The registers of R372, R373, R380 and R19 at their reset values; the master distributor serves every core until step 6
of bring-up (R310, R383). The buffers and the response register have none (log 6). -/
def Package.reset : Package where
  status := 0
  failure := 0
  event := 0
  response := 0
  reqBuf := List.replicate 4096 0
  respBuf := List.replicate 4096 0
  request := none
  msix := []
  clusterPart := List.replicate 36 0
  partWait := []
  slices := List.replicate 8 0
  weights := [8, 6, 6, 4, 4, 2, 1]
  peers := []
  ports := List.replicate 16 Port.reset
  frozen := []
  reports := []
  deadDies := []
  disturb := []
  tolCluster := List.replicate 36 40
  tolDie := List.replicate 4 0
  tolPackage := 0
  diePower := List.replicate 4 0
  asleep := false
  sleepReq := false
  mhz := 3600
  powered := true
  retireList := []
  retireHeld := []
  snoops := []
  unsaved := []
  wvBase := 0
  biasBase := 0
  compBase := 0

/-- The machine right after reset, before power-good is handled (R383). -/
def State.reset : State where
  clock := 0
  free := 0
  nextId := 1
  agenda := []
  later := []
  cur := none
  vreg := []
  preg := []
  kreg := []
  tiles := []
  spad := []
  segs := []
  threads := []
  crews := []
  cohorts := []
  ctxs := []
  mem := []
  coh := Coh.reset
  cores := List.replicate 288 CoreSt.reset
  eng := Engines.reset
  cmd := Command.reset
  pkg := Package.reset

end Sys2Proof.Machine
end

