-- ==== Sys2Proof/Machine/Ops.lean ====
section
/-! DEFINITION. The named operations over the tables and the registers, filing (R76), and taking an exception: the
handler's entry (R317), records (R321), and the turns that carry them out. -/

namespace Sys2Proof.Machine

/-! ## The agenda and the free values -/

/-- Add a turn after the others. -/
def State.post (s : State) (t : Turn) : State := { s with agenda := s.agenda ++ [t] }
/-- Add a turn before the others: what it does belongs to the step just made. -/
def State.urge (s : State) (t : Turn) : State := { s with agenda := t :: s.agenda }
/-- Try a turn again in the next clock. -/
def State.defer (s : State) (t : Turn) : State := { s with later := s.later ++ [t] }
/-- Add turns after the others. -/
def State.postAll (s : State) (ts : List Turn) : State := { s with agenda := s.agenda ++ ts }

/-- A choice the manual leaves open, and the state that has drawn it. -/
def State.drawNat (s : State) : Nat × State := (Config.freeNat s.free, { s with free := s.free + 1 })
/-- A 32-bit value the manual leaves open. -/
def State.drawWord (s : State) : Word × State := (Config.freeWord s.free, { s with free := s.free + 1 })

/-! ## Tables -/

def State.setThread (s : State) (t : Thread) : State := { s with threads := s.threads.insert t.id t }
def State.setCrew (s : State) (c : Crew) : State := { s with crews := s.crews.insert c.id c }
def State.setCohort (s : State) (c : Cohort) : State := { s with cohorts := s.cohorts.insert c.id c }
def State.setCtx (s : State) (c : Ctx) : State := { s with ctxs := s.ctxs.insert c.num c }
def State.modThread (s : State) (t : Nat) (f : Thread → Thread) : State := { s with threads := s.threads.modify t f }
def State.modCrew (s : State) (c : Nat) (f : Crew → Crew) : State := { s with crews := s.crews.modify c f }
def State.modCohort (s : State) (c : Nat) (f : Cohort → Cohort) : State := { s with cohorts := s.cohorts.modify c f }
def State.modCtx (s : State) (c : Nat) (f : Ctx → Ctx) : State := { s with ctxs := s.ctxs.modify c f }
def State.modCoh (s : State) (f : Coh → Coh) : State := { s with coh := f s.coh }
def State.modEng (s : State) (f : Engines → Engines) : State := { s with eng := f s.eng }
def State.modCmd (s : State) (f : Command → Command) : State := { s with cmd := f s.cmd }
def State.modPkg (s : State) (f : Package → Package) : State := { s with pkg := f s.pkg }
def State.modLaunch (s : State) (n : Nat) (f : Launch → Launch) : State :=
  s.modCmd fun c => { c with launches := c.launches.modify n f }

/-- A core's unit state (R13, R175). -/
def State.core (s : State) (n : Nat) : CoreSt := s.cores.getD n CoreSt.reset
def State.setCore (s : State) (n : Nat) (c : CoreSt) : State := { s with cores := s.cores.set n c }

/-- The launch of a crew (R308). -/
def State.launchOf (s : State) (c : Crew) : Option Launch := s.cmd.launches.find c.launch

/-- The threads of a crew, in ordinal order (R70). -/
def State.threadsOf (s : State) (crew : Nat) : List Thread := s.threads.vals.filter (·.crew == crew)

/-- The crews on a core (R73). -/
def State.crewsOn (s : State) (core : Nat) : List Crew := s.crews.vals.filter (·.core == some core)

/-- The cohorts of a crew. -/
def State.cohortsOf (s : State) (crew : Nat) : List Cohort := s.cohorts.vals.filter (·.crew == crew)

/-- A crew's threads that have not exited (R85, R88). -/
def State.unexited (s : State) (crew : Nat) : List Thread := (s.threadsOf crew).filter (·.place != .ended)

/-- The system registers of a context (R314); a context that does not exist reads as after reset. -/
def State.regsOf (s : State) (ctx : Nat) : SysRegs := ((s.ctxs.find ctx).map (·.regs)).getD SysRegs.reset

/-- The lane position of a thread (R72). -/
def Thread.lane (t : Thread) : Nat := t.ord % 32

/-- The cluster and the die of a core (R14). -/
def clusterOf (core : Nat) : Nat := core / 8
def dieOf (core : Nat) : Nat := core / 72

/-! ## Lane, predicate and crew registers (R4, R24, R127) -/

def vKey (tid n : Nat) : Nat := 256 * tid + n
def pKey (tid n : Nat) : Nat := 8 * tid + n
def kKey (crew n : Nat) : Nat := 64 * crew + n

def State.getV (s : State) (tid n : Nat) : Word := s.vreg.get 0 (vKey tid n)
def State.setV (s : State) (tid n : Nat) (w : Word) : State := { s with vreg := s.vreg.set 0 (vKey tid n) w }
/-- p7 reads true (R127). -/
def State.getP (s : State) (tid n : Nat) : Bool := n == 7 || s.preg.get false (pKey tid n)
/-- A write to p7 is discarded (R127). -/
def State.setP (s : State) (tid n : Nat) (b : Bool) : State :=
  if n = 7 then s else { s with preg := s.preg.set false (pKey tid n) b }
def State.getK (s : State) (crew n : Nat) : Word := s.kreg.get 0 (kKey crew n)
def State.setK (s : State) (crew n : Nat) (w : Word) : State := { s with kreg := s.kreg.set 0 (kKey crew n) w }

/-- The low and high words of a pair (R4). -/
def loWord (d : Dword) : Word := d.extractLsb' 0 32
def hiWord (d : Dword) : Word := d.extractLsb' 32 32
def pairOf (lo hi : Word) : Dword := hi ++ lo

def State.getV64 (s : State) (tid n : Nat) : Dword := pairOf (s.getV tid n) (s.getV tid (n + 1))
def State.setV64 (s : State) (tid n : Nat) (d : Dword) : State := (s.setV tid n (loWord d)).setV tid (n + 1) (hiWord d)
def State.getK64 (s : State) (crew n : Nat) : Dword := pairOf (s.getK crew n) (s.getK crew (n + 1))

/-! ## Tile words (R195) -/

def tileKey (crew tile i j : Nat) : Nat := 65536 * crew + 4096 * tile + 64 * i + j
def State.getTile (s : State) (crew tile i j : Nat) : Word := s.tiles.get 0 (tileKey crew tile i j)
def State.setTile (s : State) (crew tile i j : Nat) (w : Word) : State :=
  { s with tiles := s.tiles.set 0 (tileKey crew tile i j) w }

/-! ## Precedence (R71) -/

/-- The precedence of a thread, smaller first: priority, enqueue order of its launch, wid. -/
def State.prec (s : State) (t : Thread) : Nat × Nat × Nat :=
  match (s.crews.find t.crew).bind s.launchOf with
  | some l => (7 - l.prio, l.seq, t.wid.toNat)
  | none => (8, 0, t.wid.toNat)

/-- Whether precedence `a` comes before `b`. -/
def precBefore (a b : Nat × Nat × Nat) : Bool :=
  a.1 < b.1 || (a.1 == b.1 && (a.2.1 < b.2.1 || (a.2.1 == b.2.1 && a.2.2 < b.2.2)))

/-- The element whose key comes first, the earlier one on a tie. -/
def firstBy {α : Type} (before : α → α → Bool) : List α → Option α
  | [] => none
  | x :: xs =>
    match firstBy before xs with
    | none => some x
    | some y => if before y x then some y else some x

/-- The highest precedence among a cohort's threads (R102). -/
def State.cohortPrec (s : State) (c : Cohort) : Nat × Nat × Nat :=
  match firstBy (fun (a b : Nat × Nat × Nat) => precBefore a b)
    (c.lanes.filterMap fun l => (s.threads.find l.tid).map s.prec) with
  | some p => p
  | none => (9, 0, 0)

/-! ## Filing (R76) -/

/-- A bin's key (R76): crew, next trace, key tag, and a position inside a trace (R319). -/
structure BinKey where
  crew   : Nat
  next   : Nat
  tag    : BitVec 16
  resume : Option Resume
  deriving DecidableEq, Repr

/-- The key of a filing. Inside a trace the threads of one cohort come together again whatever their tags are (R150). -/
def Filing.key (f : Filing) (crew : Nat) : BinKey := ⟨crew, f.next, if f.resume.isSome then 0 else f.tag, f.resume⟩

/-- A thread's bin key and filing, if it waits in a bin or on the overflow list. -/
def Thread.waits (t : Thread) : Option (BinKey × Filing) :=
  match t.place with
  | .filed f => some (f.key t.crew, f)
  | _ => none

/-- The threads waiting on a core, in a bin or on the overflow list. -/
def State.waitingOn (s : State) (core : Nat) : List (Thread × BinKey × Filing) :=
  s.threads.vals.filterMap fun t =>
    match t.waits with
    | some (k, f) => if (s.crews.find t.crew).any (·.core == some core) then some (t, k, f) else none
    | none => none

/-- The keys of the bins in use on a core (R76). -/
def State.binsOn (s : State) (core : Nat) : List BinKey :=
  (((s.waitingOn core).filter fun e => !e.2.2.overflow).map (·.2.1)).eraseDups

/-- A thread of the overflow list is in a bin. -/
def Thread.toBin (t : Thread) : Thread :=
  match t.place with
  | .filed f => { t with place := .filed { f with overflow := false } }
  | _ => t

/-- The overflow threads of a key move into its bin with their arrival times (R77). -/
def State.takeIn (s : State) (core : Nat) (k : BinKey) : State :=
  (s.waitingOn core).foldl (init := s) fun s e => if e.2.1 == k then s.modThread e.1.id Thread.toBin else s

/-- File a thread (R76, R77): into the bin of its key, into a free bin, to which the overflow threads of the key move, or on the overflow
list. A thread of a saved crew keeps its filing for the restore (R74). -/
def State.file (s : State) (tid : Nat) (f : Filing) : State :=
  match s.threads.find tid with
  | none => s
  | some t =>
    let put (s : State) (overflow : Bool) : State :=
      s.modThread tid fun t => { t with place := .filed { f with overflow := overflow } }
    match (s.crews.find t.crew).bind (·.core) with
    | none => put s false
    | some core =>
      let bins := s.binsOn core
      let k := f.key t.crew
      if bins.contains k then put s false
      else if bins.length < 64 then put (s.takeIn core k) false
      else put s true

/-- A filing at a trace's address. -/
def Filing.at' (next : Nat) (tag : BitVec 16) (now : Nat) : Filing := ⟨next, tag, now, false, none, 0, 0⟩

/-! ## Lanes of a cohort -/

/-- The offset of the instruction at the cohort's pc from its header (R118). -/
def Cohort.offset (c : Cohort) : Nat := c.pc - c.hdr

/-- The position of the cohort's instruction as a resume point (R318, R327). A thread that leaves its cohort alone is drawn again in one that is
partial unless it is drawn with 32 (R123). -/
def Cohort.here (c : Cohort) (addr : Nat) : Resume :=
  ⟨addr, c.hdr, c.irr, c.full, c.traceId, c.budget, c.len, c.group, false⟩

/-- Lanes present and not inside a SKIP span: the active lanes (R22, R109). -/
def Cohort.active (c : Cohort) : List Lane := c.lanes.filter fun l => l.skipTo ≤ c.offset

/-- Take lanes out of a cohort; a cohort without lanes ends (R75, R112). -/
def State.dropLanes (s : State) (cid : Nat) (tids : List Nat) : State :=
  match s.cohorts.find cid with
  | none => s
  | some c =>
    let ls := c.lanes.filter fun l => !tids.contains l.tid
    if ls.isEmpty then { s with cohorts := s.cohorts.erase cid }
    else s.setCohort { c with lanes := ls }

/-- The lane of a thread in its cohort. -/
def Cohort.laneOf (c : Cohort) (tid : Nat) : Option Lane := c.lanes.find? (·.tid == tid)

/-! ## Records (R321) -/

/-- An empty record of a cause. -/
def FaultRec.of (cause : Cause) (ctx : Nat) : FaultRec :=
  ⟨cause, false, false, false, false, false, false, ctx, 0, 0, 0, 0, 0, 0, 0, 0, 0⟩

/-- The record of a cause raised by a thread at an offset of a trace (R321, R324). DESIGN CHOICE, log 25: flag bit 2 is clear, since R317 sets it for the
thread-level causes of a handler and no rule says whether a context-level cause that a handler raises sets it. -/
def State.recordOf (s : State) (cause : Cause) (t : Thread) (core : Nat) (traceId : BitVec 16) (offset addr : Nat) :
    FaultRec :=
  let crew := s.crews.find t.crew
  { FaultRec.of cause ((crew.map (·.ctx)).getD 0) with
    traceId := traceId, offset := offset, lane := t.lane, core := core, wid := t.wid, addr := addr,
    crewId := (crew.map (·.crewId)).getD 0 }

/-- Whether a turn writes a record. -/
def isRecord : Turn → Bool
  | .hw (.faultRecordWrite _) => true
  | _ => false

/-- A record is written next, after those of the same step that came before it. -/
def State.report (s : State) (r : FaultRec) : State :=
  { s with agenda := s.agenda.takeWhile isRecord ++ .hw (.faultRecordWrite r) :: s.agenda.dropWhile isRecord }

/-- Deliver a terminating record (R315): its writing and the end of its context come next (R320, R323). -/
def State.terminateBy (s : State) (r : FaultRec) : State := s.report { r with term := true }

/-! ## The handler (R317, R318) -/

/-- %trapinfo (R318). -/
def trapInfo (offset : Nat) (traceId : BitVec 16) (code : Word) : Dword :=
  (BitVec.ofNat 8 0 ++ BitVec.ofNat 8 offset ++ traceId ++ code)

/-- A thread-level cause and what it leaves (R317, R318): code of %trapinfo[31:0], the trace and offset, the resume
address and a hidden resume point. -/
structure TrapEntry where
  cause   : Cause
  code    : Word
  traceId : BitVec 16
  offset  : Nat
  ret     : Nat
  resume  : Option Resume
  deriving DecidableEq, Repr

/-- TAKE A THREAD-LEVEL CAUSE (R317): with ctx.trapvec.en = 1 and the handler flag 0 the trap registers are written, the
flag is set, the pending key tag goes and the thread is filed at the handler; otherwise a terminating record is delivered,
flag bit 2 set when the thread was in its handler. The caller has taken the thread out of its cohort. -/
def State.enterHandler (s : State) (tid : Nat) (vec : Dword) (core : Nat) (e : TrapEntry) (addr : Nat) : State :=
  match s.threads.find tid with
  | none => s
  | some t =>
    if vec[32] && !t.handler then
      let s := s.modThread tid fun t => { t with
        handler := true, trapcause := BitVec.ofNat 32 e.cause.code, trapinfo := trapInfo e.offset e.traceId e.code,
        trapret := BitVec.ofNat 64 (e.ret % 2 ^ 32), resume := e.resume }
      s.file tid (Filing.at' (loWord vec).toNat 0 s.clock)
    else
      let s := s.modThread tid fun t => { t with place := .faulted }
      s.terminateBy { s.recordOf e.cause t core e.traceId e.offset addr with handler := t.handler }

/-- File a thread at a boundary (R76), where a pending TIMER is taken in place of the filing (R333). -/
def State.boundary (s : State) (tid : Nat) (f : Filing) (traceId : BitVec 16) (offset : Nat) : State :=
  match s.threads.find tid with
  | none => s
  | some t =>
    let s := s.modThread tid fun t => { t with pendRec := none }
    if t.timerPend then
      let s := s.modThread tid fun t => { t with timerPend := false }
      let crew := s.crews.find t.crew
      let vec := (s.regsOf ((crew.map (·.ctx)).getD 0)).trapvec
      s.enterHandler tid vec ((crew.bind (·.core)).getD 0) ⟨.timer, 0, traceId, offset, f.next, f.resume⟩ 0
    else s.file tid f

/-! ## Causes raised in a cohort (R315, R324) -/

/-- A context-level cause in some lanes of a cohort: each thread stops, its buffered effects go, and its terminating record
is delivered, the lowest lane's first. -/
def State.raiseIn (s : State) (c : Cohort) (lanes : List Lane) (cause : Cause) (offset : Nat)
    (addr : Lane → Nat) : State :=
  let s := lanes.foldl (init := s) fun s l =>
    match s.threads.find l.tid with
    | none => s
    | some t =>
      (s.modThread l.tid fun t => { t with place := .faulted }).terminateBy (s.recordOf cause t c.core c.traceId offset (addr l))
  s.dropLanes c.id (lanes.map (·.tid))

/-- Registers that a broken discipline leaves undefined for a lane that runs again or takes an alternative (R117). -/
def State.scramble (s : State) (c : Cohort) (tid : Nat) : State :=
  c.broken.foldl (init := s) fun s (isP, n) =>
    let (w, s) := s.drawWord
    if isP then s.setP tid n w[0] else s.setV tid n w

/-- Roll a lane back to its trace's entry (R118): its buffered effects and key tag go and it leaves the cohort. The caller
says where the thread goes. -/
def State.rollback (s : State) (c : Cohort) (tid : Nat) : State :=
  (s.scramble c tid).dropLanes c.id [tid]

/-- A rolled back lane filed at its trace's own address with key tag 0 (R118). -/
def State.refile (s : State) (c : Cohort) (tid : Nat) : State :=
  let s := s.rollback c tid
  s.file tid (Filing.at' c.hdr 0 s.clock)

/-- Where a thread that stops at the cohort's instruction is filed again (R118, R123, R232): the trace's entry where its header has not been
decoded yet (R101) and in a revocable trace, the exact instruction in an irrevocable one. -/
def State.retryFiling (s : State) (c : Cohort) (l : Lane) : Filing :=
  if c.st == .trc then Filing.at' c.pc 0 s.clock
  else if c.irr then ⟨c.pc, l.key, s.clock, false, some (c.here c.pc), l.skipTo, 0⟩ else Filing.at' c.hdr 0 s.clock

/-- Park a lane's thread (R232, R236, R238): it leaves the cohort, rolled back in a revocable trace. -/
def State.park (s : State) (c : Cohort) (l : Lane) (why : ParkWhy) (page : Nat) (unit : Option Nat) : State :=
  let p : Park := ⟨why, c.core, page, unit, false, c.offset, c.traceId, s.retryFiling c l⟩
  let s := if c.irr then s.dropLanes c.id [l.tid] else s.rollback c l.tid
  s.modThread l.tid fun t => { t with place := .parked p }

/-- The recoverable record of a thread (R232), written next. -/
def State.reportPage (s : State) (c : Cohort) (l : Lane) (cause : Cause) (va : Nat) : State :=
  match s.threads.find l.tid with
  | none => s
  | some t => s.report { s.recordOf cause t c.core c.traceId c.offset va with recov := true }

/-- The core whose record of a page is still open for a restored thread (R328). -/
def State.pendCore (s : State) (c : Cohort) (l : Lane) (page : Nat) : Option Nat :=
  let ctx := ((s.crews.find c.crew).map (·.ctx)).getD 0
  match (s.threads.find l.tid).bind (·.pendRec) with
  | some (n, p) => if p == page && (s.ctxs.find ctx).any (fun x => x.records.any (fun r => r.core == n && r.page == p) ||
      x.waiting.any (fun r => r.core == n && r.addr / 2 ^ 16 == p)) then some n else none
  | none => none

/-- Park on PAGE with a record (R232); a restored thread writes none while its earlier one is not resolved (R328). -/
def State.parkPage (s : State) (c : Cohort) (l : Lane) (va : Nat) (unit : Option Nat) : State :=
  let page := va / 2 ^ 16
  match s.pendCore c l page with
  | some n => s.park { c with core := n } l .page page unit
  | none => (s.park c l .page page unit).reportPage c l .page va

/-! ## The pc -/

/-- Issue is done: the next instruction of the cohort comes at least max(stall, 1) clocks later (R43). -/
def State.advance (s : State) (cid : Nat) (stall : BitVec 4) : State :=
  s.modCohort cid fun c => { c with pc := c.pc + 1, nextIssue := s.clock + max stall.toNat 1, st := .ready }

/-- The instruction does not issue now; it is tried again in a later clock. -/
def State.hold (s : State) (cid : Nat) : State := s.modCohort cid fun c => { c with nextIssue := s.clock + 1 }

/-- Run a cohort's instruction: the issuing cohort is `State.cur`. -/
def onCohort (s : State) (f : Cohort → State → State) : Host.Outcome State Fault Refusal :=
  match s.cur.bind s.cohorts.find with
  | some c => .next (f c { s with cur := none })
  | none => .fault .noIssuingCohort

end Sys2Proof.Machine
end

