-- ==== Sys2Proof/Machine/Memory.lean ====
section
/-! DEFINITION. Memory bytes, atomic arithmetic (R261), coherence tokens (R245 to R251), giving a translation up (R229), what a performed
write does (R237, R243, R246), damage (R352 to R355, R365), the page-table walk (R220 to R225) and the translation caches (R227, R228).
A unit of grain 128 or 512 is kept as its 32-byte sectors, whose tokens move together (log 9). -/

namespace Sys2Proof.Machine

/-! ## Bytes -/

def Memory.read (m : Memory) (a : Nat) : Byte := Map.get (α := Byte) m memDefault a
def Memory.write (m : Memory) (a : Nat) (b : Byte) : Memory := Map.set (α := Byte) m memDefault a b

/-- The bytes from an address on, lowest first. -/
def Memory.readBytes (m : Memory) : Nat → Nat → List Byte
  | _, 0 => []
  | a, n + 1 => m.read a :: Memory.readBytes m (a + 1) n

def Memory.writeBytes : Memory → Nat → List Byte → Memory
  | m, _, [] => m
  | m, a, b :: bs => Memory.writeBytes (m.write a b) (a + 1) bs

/-- The little-endian value of `n` bytes (R2). -/
def Memory.readNat (m : Memory) (a n : Nat) : Nat := natOf (m.readBytes a n)

/-- The first byte key of host memory and of peer memory. -/
def hostKey : Nat := 2 ^ 52
def peerKey : Nat := 2 ^ 53

/-- The end of device HBM (R17). -/
def hbmEnd : Nat := 0x6000000000

/-- The die that homes a physical address (R17). -/
def homeDie (pa : Nat) : Nat := pa / 2 ^ 16 % 8 / 2

/-- The 32-byte sector of a key, and the sectors of a range. -/
def sectorOf (a : Nat) : Nat := a / 32
def sectorsOf (a n : Nat) : List Nat :=
  if n = 0 then [] else (List.range (sectorOf (a + n - 1) - sectorOf a + 1)).map (sectorOf a + ·)

/-- Whether two byte ranges meet. -/
def overlap (a n b m : Nat) : Bool := a < b + m && b < a + n

/-- A byte as a die sees it: its latest die-performed write, else memory (R246, R276). -/
def State.viewByte (s : State) (die a : Nat) : Byte :=
  s.coh.dieWrites.foldl (init := s.mem.read a) fun v w =>
    if w.die == die && w.pa ≤ a then (w.bytes[a - w.pa]?).getD v else v

def State.viewBytes (s : State) (die : Nat) : Nat → Nat → List Byte
  | _, 0 => []
  | a, n + 1 => s.viewByte die a :: State.viewBytes s die (a + 1) n

/-! ## Agents and holder filters (R18, R249) -/

def l1Agent (core : Nat) : Nat := core
def tcAgent (core : Nat) : Nat := 288 + core
def icAgent (core : Nat) : Nat := 576 + core
def copyAgent (die e : Nat) : Nat := 864 + 8 * die + e
def collAgent (c : Nat) : Nat := 896 + c
def cpAgent : Nat := 900
def crownAgent : Nat := 901
def proxyAgent (die : Nat) : Nat := 902 + die
def hostAgent : Nat := 906

/-- The core of a core's agent. -/
def agentCore (a : Nat) : Option Nat := if a < 864 then some (a % 288) else none

/-- The agent a home records for a holder: a core of another die is recorded as its die's proxy (R249). -/
def recorded (home a : Nat) : Nat :=
  match agentCore a with
  | some n => if dieOf n == home then a else proxyAgent (dieOf n)
  | none => a

/-- The group bit of an agent in the coarse vector of a home (R249, R347): none for the home itself. -/
def groupBit (home a : Nat) : Option Nat :=
  match agentCore a with
  | some n => some (clusterOf n % 9)
  | none =>
    if a == hostAgent then some 14
    else if a == crownAgent then some 13
    else if a < crownAgent then some 12
    else
      let d := a - 902
      if d == home then none else some (9 + if d < home then d else d - 1)

/-- Record a holder (R249): a fifth one turns the filter coarse. -/
def Filter.add (f : Filter) (home a : Nat) : Filter :=
  let setBit (v : BitVec 15) (a : Nat) : BitVec 15 :=
    match groupBit home a with
    | some b => v ||| (1#15 <<< b)
    | none => v
  match f with
  | .pointers l =>
    if l.contains a then .pointers l
    else if l.length < 4 then .pointers (l ++ [a])
    else .coarse ((l ++ [a]).foldl setBit 0)
  | .coarse v => .coarse (setBit v a)

/-- An Evict removes its sender's pointer and clears no group bit (R251). -/
def Filter.drop (f : Filter) (a : Nat) : Filter :=
  match f with
  | .pointers l => .pointers (l.filter (· != a))
  | .coarse v => .coarse v

/-- The probe targets of a filter (R250), each of which answers once: the agents pointed at, cluster responder n as 1024 + n,
the proxies of other dies, the 37 engine agents, the Crown and the host; never the requester. -/
def Filter.targets (f : Filter) (home req : Nat) : List Nat :=
  let all := match f with
    | .pointers l => l
    | .coarse v => (List.range 15).flatMap fun b =>
        if !v.getLsbD b then []
        else if b < 9 then [1024 + 9 * home + b]
        else if b < 12 then [proxyAgent (if b - 9 < home then b - 9 else b - 8)]
        else if b == 12 then (List.range 37).map (864 + ·)
        else if b == 13 then [crownAgent]
        else [hostAgent]
  all.filter fun a => a != req && a != recorded home req && a != proxyAgent home

def State.unit (s : State) (sec : Nat) : CohUnit := s.coh.units.get CohUnit.fresh sec
def State.setUnit (s : State) (sec : Nat) (u : CohUnit) : State :=
  s.modCoh fun c => { c with
    units := c.units.set CohUnit.fresh sec u
    descs := c.descs.filter fun d => d.2 != sec || (u.held.find d.1).isSome }

/-- The home die of a sector. -/
def secHome (sec : Nat) : Nat := homeDie (sec * 32)

/-- Whether an agent holds translations (R227). -/
def translates (a : Nat) : Bool := (288 ≤ a && a < 576) || (864 ≤ a && a ≤ 900)

/-- Whether an agent belongs to a die (R12, R18). -/
def onDie (die a : Nat) : Bool :=
  (agentCore a).any (fun n => dieOf n == die) || (864 + 8 * die ≤ a && a < 872 + 8 * die) || a == proxyAgent die

/-! ## Where an access has to wait or to go (R122, R240, R254) -/

/-- Whether a key's page is under a bias flip. -/
def State.flipping (s : State) (key : Nat) : Bool := key < hbmEnd && s.coh.flips.any (·.page == key / 2 ^ 16)

/-- Whether a lane of a thread, past its commit point, stands on commit holds (R122): its home serves it before what waits for them. -/
def State.holder (s : State) (tid : Nat) : Bool :=
  s.cohorts.vals.any fun c => c.lanes.any fun l => l.past && l.tid == tid && !l.resv.isEmpty

/-- The write-version counter of the page of a key (R237). -/
def State.counterOf (s : State) (key : Nat) : Nat := s.pkg.wvBase + 4 * (key / 2 ^ 16)

/-- Whether a flip of a key's page holds an access of a thread, or the page of its write-version counter (R237), which is under a flip or in host
bias, from which it comes back (log 38). A flip to the host waits for the commit holds of its page. -/
def State.flipHolds (s : State) (tid key : Nat) : Bool :=
  (s.flipping key && !(s.holder tid && s.coh.flips.all fun f => f.toHost || f.page != key / 2 ^ 16)) ||
    (key < hbmEnd && (s.flipping (s.counterOf key) || s.coh.bias.get false (s.counterOf key / 2 ^ 16)))

/-- Whether a thread other than `tid` has commit holds on some bytes (R122); no thread is numbered 0. -/
def State.heldBy (s : State) (tid a n : Nat) : Bool :=
  s.cohorts.vals.any fun c => c.lanes.any fun l => l.past && l.tid != tid && l.resv.any fun r => overlap a n r.pa r.size


/-- Whether a key is reached through the host: a kind-1 page, or a page in host bias (R240, R376). -/
def State.viaHost (s : State) (key : Nat) : Bool :=
  (hostKey ≤ key && key < peerKey) || (key < hbmEnd && s.coh.bias.get false (key / 2 ^ 16))

/-- Whether a key's memory is reached by a message to the host or a peer. -/
def State.remoteKey (s : State) (key : Nat) : Bool := s.viaHost key || key ≥ peerKey

/-! ## Blocks, their grain and their ways (R17, R226, R241, R242) -/

/-- A field of an entry. -/
def bits (n lo len : Nat) : Nat := n / 2 ^ lo % 2 ^ len

/-- The L2 block of a key. -/
def blockOf (a : Nat) : Nat := a / 512

/-- The slice of a die, of 192 in the package, that holds a block, and its set; a block's home slice. -/
def sliceIn (die b : Nat) : Nat := 48 * die + Config.homeHash b % 48
def sliceOf (a : Nat) : Nat := sliceIn (homeDie a) (blockOf a)

/-- The set of a slice (R12, R241), of 256: the block's number modulo 256. DEDUCED, log 44: no rule gives the index, and the run of chapter 21
places the block at 0x00_0301_1400 in set 138. -/
def setOf (a : Nat) : Nat := blockOf a % 256

/-- The bit of a sector in its block's tag (R242), and a tag with no sector in it. -/
def secBit (sec : Nat) : BitVec 16 := 1#16 <<< (sec % 16)
def Block.empty : Block := ⟨0, false, false, 0, 0⟩

/-- Whether a block is dirty, whether it holds a sector, and whether that is modified. -/
def Block.dirty (b : Block) : Bool := b.modified != 0
def Block.has (b : Block) (sec : Nat) : Bool := b.valid.getLsbD (sec % 16)
def Block.wrote (b : Block) (sec : Nat) : Bool := b.modified.getLsbD (sec % 16)

/-- The sectors of the coherence unit of a sector, under the grain its block was fetched with. -/
def State.unitSecs (s : State) (sec : Nat) : List Nat :=
  let n := match (s.coh.fmts.get (0, false) (sec / 16)).1 with | 1 => 4 | 2 => 16 | _ => 1
  (List.range n).map (sec / n * n + ·)

/-- Whether a key's block is served at its home and never allocated in L1 (R225, R226). -/
def State.atHome (s : State) (key : Nat) : Bool := (s.coh.fmts.get (0, false) (blockOf key)).2

/-- Whether a block is in some cache, or on its way. -/
def State.blockCached (s : State) (b : Nat) : Bool :=
  (s.coh.blocks.find b).isSome || s.coh.dieWrites.any (fun d => blockOf d.pa == b) || s.coh.hostHeld.any (fun e => e.1 / 16 == b) ||
    s.coh.units.any fun e => e.1 / 16 == b && !(e.2.held.isEmpty && e.2.flight.isEmpty && e.2.evicts.isEmpty && e.2.req.isNone)

/-- A block is reached through a leaf (R226): its grain and kind take effect unless the block is in some cache. -/
def State.noteFmt (s : State) (key pte : Nat) : State :=
  let b := blockOf key
  let fmt := (bits pte 6 2, bits pte 12 4 == 3)
  if key ≥ peerKey || s.coh.fmts.get (0, false) b == fmt || s.blockCached b then s
  else s.modCoh fun c => { c with fmts := c.fmts.set (0, false) b fmt }

/-- The blocks in a set of a slice: those homed there, those that the die's proxy holds there, and those of the host's data. DESIGN CHOICE, log 44:
host data stand in the slice that their own address selects, of which R376 says nothing. -/
def State.blocksIn (s : State) (slice set : Nat) : List Nat :=
  let proxied := s.coh.units.filterMap fun e =>
    let b := e.1 / 16
    if (e.2.held.find (proxyAgent (slice / 48))).isSome && secHome e.1 != slice / 48 && sliceIn (slice / 48) b == slice && b % 256 == set
    then some b else none
  let here (b : Nat) : Bool := sliceOf (512 * b) == slice && b % 256 == set
  (s.coh.blocks.filter fun e => here e.1).map (·.1) ++ proxied.eraseDups ++ ((s.coh.hostHeld.map fun e => e.1 / 16).filter here).eraseDups

/-- The ways of a set that are not quarantined (R362). -/
def State.waysOf (s : State) (slice set : Nat) : Nat :=
  16 - (s.coh.quarantine.filter fun q => q.1 == slice && q.2.1 == set).length

/-- Whether a set of a slice holds no more blocks than ways; it does not where all slices together hold that few blocks of its number. -/
def State.hasRoom (s : State) (slice set : Nat) : Bool :=
  let few := (s.coh.blocks.filter fun e => e.1 % 256 == set).length + (s.coh.units.filter fun e => e.1 / 16 % 256 == set).length +
    (s.coh.hostHeld.filter fun e => e.1 / 16 % 256 == set).length + s.coh.quarantine.length ≤ 16
  few || (s.blocksIn slice set).length ≤ s.waysOf slice set

/-- A set that holds more blocks than ways gives one up next. -/
def State.trimL2 (s : State) (slice set : Nat) : State := if s.hasRoom slice set then s else s.urge (.victim slice set)

/-! ## Atomic operations (R261) -/

/-- R155 on one element. -/
def Fmt.minMax (F : Fmt) (big : Bool) (a b : Nat) : Nat :=
  if F.isNaN a && F.isNaN b then F.canonNaN
  else if F.isNaN a then b
  else if F.isNaN b then a
  else
    -- the key orders numbers; a negative zero stands below a positive one
    let k (n : Nat) : Int := 2 * F.key n + (if F.isZero n && !F.sign n then 1 else 0)
    if big then (if k b > k a then b else a) else (if k b < k a then b else a)

/-- The update of one half of a .BF16X2 atomic. -/
def halfAdd (old e : Nat) : Nat := bf16.round (exactSum [bf16.value old, bf16.value e] .rn) .rn false

/-- Op on n bytes: the new value. -/
def atomOp (op : AtomOp) (cls : Nat) (n old e : Nat) : Nat :=
  let w := 8 * n
  match cls with
  | 2 =>
    let F := if n == 8 then f64 else f32
    match op with
    | .min => F.minMax false old e
    | .max => F.minMax true old e
    | _ => F.finish (exactSum [F.value old, F.value e] .rn) .rn false false
  | 3 => halfAdd (old % 65536) (e % 65536) + 65536 * halfAdd (old / 65536) (e / 65536 % 65536)
  | _ =>
    let sg := cls == 1
    match op with
    | .add => (old + e) % 2 ^ w
    | .min => if intOf e w sg < intOf old w sg then e else old
    | .max => if intOf e w sg > intOf old w sg then e else old
    | .and => Nat.land old e
    | .or => Nat.lor old e
    | .xor => Nat.xor old e
    | .exch => e

/-! ## The side log and messages (R233, R376, R379) -/

/-- The 64 KiB page of a virtual address, with its window bits. -/
def pageOf (va : Nat) : Nat := va / 2 ^ 16

/-- An effect that R233 admits to the side log. -/
def MemEff.logs (e : MemEff) : Bool :=
  match e.kind with
  | .store => (e.order == .plain || e.order == .rlx) && e.use != .spec
  | .atom _ _ => (e.use == .comm || e.use == .qnt || e.use == .unp || e.use == .sync) && e.order == .rlx
  | .nothing => false

/-- Free entries of a core's side log, of 256, beside those that lanes past their commit point have reserved (R110). -/
def State.logRoom (s : State) (core : Nat) : Nat :=
  256 - (s.eng.sideLog.filter (·.core == core)).length -
    ((s.cohorts.vals.filter (·.core == core)).map fun c => (c.lanes.map (·.logRes)).sum).sum

/-- The core number of a side-log entry that is saved with its crew: none of the device's, so that nothing replays it before it is restored (R328). -/
def savedCore : Nat := 1023

/-- Effects in flight enter the side log (R229) and are replayed. -/
def State.divert (s : State) (core : Nat) (es : List MemEff) (unit : Option Nat) : State :=
  (s.modEng fun g => { g with sideLog := g.sideLog ++ es.map fun e => ⟨core, e, unit, false⟩ }).postAll
    (es.map fun e => Turn.hw (.sideLogReplay core e.ctx (pageOf e.va))).eraseDups

/-- Send a flit from a port (R378): it takes the next sequence number and stands in the replay buffer, which holds the last 16. -/
def State.sendFlit (s : State) (port : Nat) (cls : BitVec 8) (b : FlitBody) : State :=
  let send (p : Port) : Port :=
    if p.up then { p with sent := p.sent + 1, buffer := p.buffer.drop (p.buffer.length - 15) ++ [⟨p.sent, cls, true, b⟩] } else p
  s.modPkg fun k => { k with ports := k.ports.modify port send }

/-- The request that an access makes of a peer (R379): the address is the one in that peer's memory. -/
def Remote.body (r : Remote) (id : Nat) : FlitBody :=
  let a := (r.pa - peerKey) % 2 ^ 44
  match r.eff.map fun e => (e.kind, e.bytes) with
  | some (EffKind.atom op cls, bs) => .atomic a (some op) cls [] bs id
  | some (EffKind.store, bs) => if r.cmp.isEmpty then .request true a bs id else .atomic a none 0 r.cmp bs id
  | _ => .request false a (List.replicate r.size 0) id

/-- An access goes out to a peer: in flits of at most 240 bytes, of the demand class (R19, R378). -/
def State.toPeer (s : State) (id : Nat) (r : Remote) : State :=
  match s.pkg.peers.find ((r.pa - peerKey) / 2 ^ 44) with
  | none => s
  | some p =>
    let cut : FlitBody → List FlitBody
      | .request w a bs tag => (List.range ((bs.length + 239) / 240)).map fun i => .request w (a + 240 * i) ((bs.drop (240 * i)).take 240) tag
      | b => [b]
    (cut (r.body id)).foldl (fun s b => s.sendFlit p.port 0 b) s

/-- Send an access to the host or a peer (R376, R379); its answer is a step of the outside. -/
def State.sendRemote (s : State) (r : Remote) : Nat × State :=
  let id := s.nextId
  let s := { s.modCoh (fun c => { c with remote := c.remote.insert id r }) with nextId := id + 1 }
  (id, if r.peer then s.toPeer id r else s)

/-- A write sent to the host or a peer. -/
def State.sendWrite (s : State) (agent : Nat) (e : MemEff) (key : Nat) (watch : Bool) : State :=
  (s.sendRemote ⟨decide (key ≥ peerKey), some e, key, e.bytes.length, [], .write, 0, e.thread, agent, watch, false, none⟩).2

/-- Whether an access brings data: a store brings none. -/
def Remote.reads (r : Remote) : Bool :=
  match r.dest with
  | .write => false
  | .back _ _ => !(r.cmp.isEmpty && r.eff.any (·.kind == .store))
  | _ => true

/-- Whether an access reads one host line, of which it names a half (R376). -/
def Remote.lined (r : Remote) : Bool := !r.peer && r.reads && r.size == 32

/-- Ask the host for the line of a sector (R376), once. -/
def State.askHost (s : State) (agent sec : Nat) : State :=
  if s.coh.remote.any fun e => e.2.dest == .fill && sectorOf e.2.pa == sec then s
  else (s.sendRemote ⟨false, none, 32 * sec, 32, [], .fill, 0, 0, agent, false, false, none⟩).2

/-! ## Giving a token up (R229) -/

/-- Whether an entry is a leaf translation of a virtual address. -/
def TlbEntry.covers (e : TlbEntry) (ctx va : Nat) : Bool :=
  e.leaf && e.ctx == ctx && va / 2 ^ (16 + 10 * (5 - e.level)) == e.vpage

/-- The translations of an agent that meet a condition, in its caches and its last-page registers. -/
def State.transOf (s : State) (agent : Nat) (p : TlbEntry → Bool) : List TlbEntry :=
  (s.coh.tlb ++ s.coh.lastPage.vals).filter fun e => e.agent == agent && p e

/-- Buffered effects of a core that were translated through dropped entries are marked (R106, R229). -/
def State.markBuffered (s : State) (core : Nat) (hit : MemEff → Bool) : State :=
  let mark (b : Effect) : Effect :=
    match b with
    | .mem m pa .clean => if hit m then .mem m pa .again else b
    | _ => b
  { s with cohorts := s.cohorts.map fun (e : Nat × Cohort) =>
      if e.2.core == core then
        (e.1, { e.2 with lanes := e.2.lanes.map fun (l : Lane) => { l with buf := l.buf.map mark } })
      else e }

/-- Entries of a core's quantum buffer that used dropped translations move to the side log while it has room (R229, R263). -/
def State.moveQuantum (s : State) (core : Nat) (hit : MemEff → Bool) (unit : Option Nat) : State :=
  let moved := (s.eng.quantum.filter fun q => q.core == core && hit q.eff).take (s.logRoom core)
  if moved.isEmpty then s
  else (s.modEng fun g => { g with quantum := g.quantum.filter fun q => !moved.contains q }).divert core (moved.map (·.eff)) unit

/-- An access that its home has not begun and that used a dropped translation (R229): a store that R233 admits moves to the side log while
it has room, a read of an operation is asked for again, and any other is translated and sent again. -/
def State.cancelRemote (s : State) (id : Nat) (r : Remote) (hit : MemEff → Bool) (hitVa : Nat → Bool) (unit : Option Nat) : State :=
  let erased := s.modCoh fun c => { c with remote := c.remote.erase id }
  let again := (s.modCoh fun c => { c with remote := c.remote.insert id { r with gone := true } }).post (.reissue id)
  match r.dest, r.eff with
  | .op _ va, _ => if hitVa va then erased else s
  | .write, some e =>
    if !hit e then s
    else match agentCore r.agent, e.logs && e.thread != 0 with
      | some core, true => if s.logRoom core = 0 then again else erased.divert core [e] unit
      | _, _ => again
  | .regs _ _ _, some e => if hit e then again else s
  | _, _ => s

/-- An agent drops translations: what used them is settled (step 2 of R229), and they go from its caches and last-page registers (step 1). -/
def State.dropTrans (s : State) (agent : Nat) (p : TlbEntry → Bool) (unit : Option Nat) : State :=
  let gone := s.transOf agent p
  if gone.isEmpty then s
  else
    let hit (e : MemEff) : Bool := gone.any fun g => g.covers e.ctx e.va
    let hitVa (va : Nat) : Bool := gone.any fun g => g.covers g.ctx va
    let s := match agentCore agent with
      | none => s
      | some core => (s.markBuffered core hit).moveQuantum core hit unit
    let s := s.coh.remote.foldl (init := s) fun s e => if e.2.agent == agent then s.cancelRemote e.1 e.2 hit hitVa unit else s
    s.modCoh fun c => { c with
      tlb := c.tlb.filter fun e => !(e.agent == agent && p e)
      lastPage := c.lastPage.filter fun e => !(e.2.agent == agent && p e.2) }

/-- An agent surrenders its tokens of a sector (R229, R250): what derives from it goes. -/
def State.surrender (s : State) (sec agent : Nat) : State :=
  if translates agent then s.dropTrans agent (fun e => e.units.contains sec) (some sec) else s

/-- A probe or a write that takes an agent's tokens wakes its core (R381). -/
def State.rouse (s : State) (agent : Nat) : State :=
  match agentCore agent with
  | some n => if (s.core n).power = 0 then s else s.urge (.hw (.powerWake (.core n)))
  | none => s

/-- Tokens in flight and those of a waiting request stand at the home again. -/
def CohUnit.absorb (u : CohUnit) : CohUnit :=
  { u with
    home := u.home + (u.flight.map (·.1)).sum + (u.evicts.map (·.2.1)).sum + (u.req.map (·.tokens)).getD 0
    flight := [], evicts := [], req := u.req.map fun r => { r with tokens := 0, owner := false } }

/-- All 1024 tokens of a sector come to its home for a writer, whose filter entry stays (R246, R249). -/
def State.gatherSec (s : State) (writer sec : Nat) : State :=
  let u := s.unit sec
  if u.held = [] && u.flight = [] && u.evicts = [] && u.home == 1024 && u.req = none && u.pers = [] then s
  else
    let s := u.held.foldl (init := s) fun s h => (s.surrender sec h.1).rouse h.1
    let s := s.modCoh fun c => { c with proxyFilters := c.proxyFilters.filter fun e => e.1 / 4 != sec }
    s.setUnit sec { u.absorb with home := 1024, owner := none, held := [], filter := .pointers [recorded (secHome sec) writer] }

/-- All tokens of the coherence unit of a sector come to its home. -/
def State.gather (s : State) (sec writer : Nat) : State := (s.unitSecs sec).foldl (fun s k => s.gatherSec writer k) s

/-! ## What waits at a home (R122, R229, R248, R254, R354) -/

/-- The agents that hold translations under tokens of some sectors (R228). -/
def State.translators (s : State) (secs : List Nat) : List Nat :=
  (secs.flatMap fun sec => ((s.unit sec).held.map (·.1)).filter translates).eraseDups

/-- Whether an agent cannot drop translations yet for want of side-log room (R229): stores on their way use them, or entries of the quantum buffer
whose homes cannot take them now. -/
def State.lateFor (s : State) (a : Nat) (p : TlbEntry → Bool) : Bool :=
  match agentCore a with
  | none => false
  | some core =>
    let gone := s.transOf a p
    let hit (e : MemEff) : Bool := gone.any fun g => g.covers e.ctx e.va
    let out := s.coh.remote.filter fun r => r.2.agent == a && r.2.dest == .write && !r.2.gone && r.2.eff.any fun e => e.logs && hit e
    let due := s.eng.quantum.filter fun q => q.core == core && hit q.eff
    (!out.isEmpty && s.logRoom core < out.length + due.length) ||
      (s.logRoom core < due.length && due.any fun q => s.flipHolds q.eff.thread q.pa || s.heldBy q.eff.thread q.pa q.eff.bytes.length)

/-- Whether a translation cache's tokens of some sectors have to wait for accesses under way. -/
def State.late (s : State) (secs : List Nat) : Bool :=
  (s.translators secs).any fun a => s.lateFor a fun e => secs.any e.units.contains

/-- The proxy of the die that a thread runs on. -/
def State.proxyOf (s : State) (tid : Nat) : Option Nat :=
  (((s.threads.find tid).bind fun t => s.crews.find t.crew).bind (·.core)).map fun n => proxyAgent (dieOf n)

/-- Whether a request stands at the home of some sector of a range before one of an agent: a request that is served, or a persistent one
(R248, R347). -/
def State.queued (s : State) (agent : Option Nat) (a n : Nat) : Bool :=
  a < hbmEnd && (sectorsOf a n).any fun sec =>
    let u := s.unit sec
    u.req.any (fun r => some r.agent != agent) || u.pers.any fun p => some p != agent

/-- Whether a decision on damage in a range is still to be made (R354, R357). -/
def State.undecided (s : State) (a n : Nat) : Bool := s.pkg.reports.any fun r => (sectorsOf a n).contains r.sector

/-- Whether an access of a thread waits at the home: a bias flip or another thread's commit hold. -/
def State.barred (s : State) (tid a n : Nat) : Bool := s.flipHolds tid a || s.heldBy tid a n

/-- Whether a write of a thread, or of another agent as thread 0, waits at the home (R122, R229, R240, R347, R354). -/
def State.stalled (s : State) (tid a n : Nat) : Bool :=
  s.barred tid a n || s.undecided a n || (!s.holder tid && s.queued (s.proxyOf tid) a n) || s.late (sectorsOf a n)

/-- Whether a read by an agent of a thread waits at the home: where it holds no token, it stands behind the requests there, and a token that it
would take from translation caches may be late. -/
def State.readStalled (s : State) (agent tid a n : Nat) : Bool :=
  s.barred tid a n || (a < hbmEnd && (sectorsOf a n).any fun sec =>
    let u := s.unit sec
    u.held.get 0 agent = 0 && ((!s.holder tid && s.queued (some agent) (32 * sec) 32) || (u.home ≤ 1 && s.late [sec])))

/-! ## The leaves of a context (R221, R222, R237, R255) -/

/-- Page size at a level (R221). -/
def pageSize (lvl : Nat) : Nat := 2 ^ (16 + 10 * (5 - lvl))

/-- The root table of a ptroot value (R220). -/
def rootTable (ptroot : Dword) : Nat := bits ptroot.toNat 17 35 * 2 ^ 17

/-- A leaf: the virtual address it begins to map, its level, the address of its entry, and the entry. -/
structure Leaf where
  va    : Nat
  level : Nat
  at'   : Nat
  pte   : Nat
  deriving DecidableEq, Repr

/-- The entries of a table that are not all zero: index and value. -/
def State.tableEntries (s : State) (t n : Nat) : List (Nat × Nat) :=
  let idx := ((s.mem.filter fun (c : Nat × Byte) => t ≤ c.1 && c.1 < t + 8 * n).map fun (c : Nat × Byte) => (c.1 - t) / 8).eraseDups
  idx.map fun i => (i, s.mem.readNat (t + 8 * i) 8)

/-- Every leaf below a table; `fuel` is the levels left. -/
def State.leavesFrom (s : State) : Nat → Nat → Nat → Nat → List Leaf
  | 0, _, _, _ => []
  | fuel + 1, t, lvl, va =>
    (s.tableEntries t (if lvl = 0 then 2 ^ 14 else 1024)).flatMap fun e =>
      let here := va + e.1 * 2 ^ (66 - 10 * lvl)
      if e.2 % 2 == 0 then []
      else if bits e.2 1 1 == 1 then [⟨here, lvl, t + 8 * e.1, e.2⟩]
      else if lvl ≥ 5 then []
      else State.leavesFrom s fuel (bits e.2 13 39 * 2 ^ 13) (lvl + 1) here

/-- The leaves of a context. -/
def State.leaves (s : State) (ctx : Nat) : List Leaf := s.leavesFrom 6 (rootTable (s.regsOf ctx).ptroot) 0 0

/-- The pages of the tables below a table, and its own; `fuel` is the levels left. -/
def State.tablesFrom (s : State) : Nat → Nat → Nat → List Nat
  | 0, _, _ => []
  | fuel + 1, t, lvl =>
    t :: (if lvl = 0 then [t + 2 ^ 16] else []) ++ (s.tableEntries t (if lvl = 0 then 2 ^ 14 else 1024)).flatMap fun e =>
      if e.2 % 2 == 0 || bits e.2 1 1 == 1 || lvl ≥ 5 then [] else State.tablesFrom s fuel (bits e.2 13 39 * 2 ^ 13) (lvl + 1)

/-- The pages of a context's tables, which Rililo has to have in device bias to read and store its leaves (R240, log 38). -/
def State.tablesOf (s : State) (ctx : Nat) : List Nat := ((s.tablesFrom 6 (rootTable (s.regsOf ctx).ptroot) 0).map fun t => t / 2 ^ 16 * 2 ^ 16).eraseDups

/-- The physical page a leaf begins at. -/
def Leaf.pa (l : Leaf) : Nat := bits l.pte 16 36 * 2 ^ 16

/-- Whether a leaf of kind 0 of some context with one bit set maps a physical page of HBM. -/
def State.leafBit (s : State) (bit page : Nat) : Bool :=
  s.ctxs.vals.any fun x => x.alive && (s.leaves x.num).any fun l =>
    bits l.pte 12 4 == 0 && bits l.pte bit 1 == 1 && l.pa ≤ page * 2 ^ 16 && page * 2 ^ 16 < l.pa + pageSize l.level

/-- Whether a leaf watches a physical page (R237), and whether its blocks may be stored compressed (R255). -/
def State.watched (s : State) (page : Nat) : Bool := s.leafBit 10 page
def State.squeezed (s : State) (b : Nat) : Bool := s.leafBit 8 (b / 128)

/-! ## Damage (R352 to R355, R365) -/

/-- The check value of a sector (R352). -/
def checkValue (bs : List Byte) : BitVec 16 :=
  let bit (v : BitVec 16) (_ : Nat) : BitVec 16 := if v[15] then (v <<< 1) ^^^ 0x8bb7 else v <<< 1
  bs.foldl (fun (v : BitVec 16) (b : Byte) => (List.range 8).foldl bit (v ^^^ (b.setWidth 16 <<< 8))) 0

/-- The cause of damage by its finder (R353, R356). -/
def finderCause : Finder → Cause
  | .check => .integrity
  | _ => .poison

/-- The poison of a sector and its finder (R354); a failed die's stacks read poisoned (R364). -/
def State.poisonAt (s : State) (sec : Nat) : Option Finder :=
  (s.coh.poison.find sec).or (if sec * 32 < hbmEnd && s.pkg.deadDies.contains (secHome sec) then some .hbm else none)

/-- The sector a use finds poisoned, with the finder. -/
def State.poisonedIn (s : State) (a n : Nat) : Option (Nat × Finder) :=
  (sectorsOf a n).findSome? fun sec => (s.poisonAt sec).map (sec, ·)

/-- The size code of a block that is written back (R255): 4 where no leaf of kind 0 with compress = 1 maps it. -/
def State.sizeCode (s : State) (b : Nat) : Nat :=
  let bytes := s.mem.readBytes (512 * b) 512
  if !s.squeezed b then 4 else if bytes.all (· == 0) then 0 else Config.compressCode bytes % 4 + 1

/-- Injections of some kinds that are armed at a sector are made now (R339). -/
def State.injectAt (s : State) (kinds : List Nat) (sec : Nat) : State :=
  let hit (x : Ctx) : Bool :=
    let r := x.regs.errInject.toNat
    bits r 63 1 == 1 && kinds.contains (bits r 56 3) && bits r 5 47 == sec
  (s.ctxs.vals.filter hit).reverse.foldl (fun s x => s.urge (.hw (.injectionMade x.num))) s

/-- The sectors of a block. -/
def blockSecs (b : Nat) : List Nat := (List.range 16).map (16 * b + ·)

/-- A block leaves its slice (R241): with its copy goes what ECC would have found in it. -/
def State.dropBlock (s : State) (b : Nat) : State :=
  s.modCoh fun c => { c with blocks := c.blocks.erase b, harm := c.harm.filter fun e => e.1 / 16 != b || e.2 == .hbm }

/-- A block has been written back to HBM and leaves its slice (R243, R255), one of size code 0 with the check values of zeros (R352); injections of kind 3
armed at its sectors are made (R339). -/
def State.toHbm (s : State) (b : Nat) : State :=
  let code := s.sizeCode b
  let s := (s.dropBlock b).modCoh fun c => { c with
    comp := c.comp.set 4 b code, checks := if code = 0 then (blockSecs b).foldl Map.erase c.checks else c.checks }
  (blockSecs b).foldl (fun s k => s.injectAt [3] k) s

/-- Poison some sectors, found by a check. -/
def State.poisonSecs (s : State) (f : Finder) (secs : List Nat) : State :=
  s.modCoh fun c => { c with poison := secs.foldl (fun m k => m.insert k f) c.poison, checks := secs.foldl Map.erase c.checks }

/-- Whether a sector's stored check value is not that of its bytes (R352). -/
def State.mismatch (s : State) (sec : Nat) : Bool :=
  (s.coh.checks.find sec).any fun v => v != checkValue (s.mem.readBytes (32 * sec) 32)

/-- A slice reads a sector (R244, R353, R354, R365): latent damage is found by ECC, and then, where `crc` says so, by its check value. A corrected bit
changes nothing; an uncorrectable clean copy is dropped and fetched again, and its way is quarantined next; other damage poisons the sector, or its whole
block when it is found in HBM in a compressed block. -/
def State.probeHarm (s : State) (crc : Bool) (sec : Nat) : State :=
  let b := (s.coh.blocks.find (sec / 16)).getD Block.empty
  let clear (s : State) : State := s.modCoh fun c => { c with harm := c.harm.erase sec }
  let s := match s.coh.harm.find sec with
    | none => s
    | some .single => clear s
    | some .l2 => if b.wrote sec then (clear s).poisonSecs .l2 [sec] else (clear s).urge (.retireWay (32 * sec))
    | some .hbm =>
      if b.has sec then s
      else (clear s).poisonSecs .hbm (if s.coh.comp.get 4 (sec / 16) < 4 then blockSecs (sec / 16) else [sec])
  if crc && s.mismatch sec then s.poisonSecs .check [sec] else s

/-- A die leaves C3 (R381), as when its home is reached. -/
def State.wakeDie (s : State) (die : Nat) : State :=
  if s.pkg.diePower.getD die 0 = 0 then s else s.modPkg fun p => { p with diePower := p.diePower.set die 0 }
def State.wakeHome (s : State) (a : Nat) : State := s.wakeDie (homeDie a)

/-- A sector is in L2 (R241 to R243), modified or not. -/
def State.fillSec (s : State) (mod : Bool) (sec : Nat) : State :=
  let old := s.coh.blocks.find (sec / 16)
  let b := old.getD Block.empty
  let b := { b with valid := b.valid ||| secBit sec, modified := if mod then b.modified ||| secBit sec else b.modified }
  let s := s.modCoh fun c => { c with blocks := c.blocks.insert (sec / 16) b }
  if old.isSome then s else s.trimL2 (sliceOf (32 * sec)) (setOf (32 * sec))

/-- The sectors of the coherence units of a range. -/
def State.unitsOf (s : State) (a n : Nat) : List Nat := ((sectorsOf a n).flatMap s.unitSecs).eraseDups

/-- Whether the L2 holds a sector of the device's memory. -/
def State.hasSec (s : State) (sec : Nat) : Bool := (s.coh.blocks.find (sec / 16)).any (·.has sec)

/-- The sectors that a fetch of some units brings into L2 beside those that it holds (R242): damage of HBM is found in them. -/
def State.fetchUnits (s : State) (secs : List Nat) : State :=
  secs.foldl (fun s k => if s.hasSec k then s else (s.probeHarm false k).fillSec false k) s

/-- The freeze report of a consumption or a detection (R356). -/
def State.reportOf (s : State) (sec : Nat) (f : Finder) (consumer : Option Nat) (cluster : Option Nat)
    (r : FaultRec) : Report :=
  let b := s.coh.blocks.find (blockOf (sec * 32))
  let valid := (b.map (·.ownerValid)).getD false
  let ext := (b.map (·.ext)).getD false
  let copied := s.cmd.launches.vals.any fun l => l.phase == .running && l.snapList.any fun e => e.2.1 / 2 ^ 16 == sec * 32 / 2 ^ 16
  ⟨sec, f, finderCause f, consumer, (b.map (·.owner)).getD 0, valid, ext, copied, cluster, 0, r⟩

/-- Send a report to the Crown (R356): a consumption by a core freezes its cluster first. -/
def State.sendReport (s : State) (r : Report) : State :=
  let s := match r.cluster with
    | none => s
    | some c =>
      let s := s.modPkg fun p => { p with frozen := p.frozen.insert c (p.frozen.get 0 c + 1) }
      { s with crews := s.crews.map fun (e : Nat × Crew) =>
          if (e.2.core.map clusterOf) == some c then (e.1, { e.2 with running := false }) else e }
  (s.modPkg fun p => { p with reports := p.reports ++ [r] }).post (.hw (.crownDecide r))

/-- A detection of damage by no consumer (R354, R356): the decision runs with no context to blame but the block's owner. -/
def State.detect (s : State) (sec : Nat) (f : Finder) : State :=
  s.sendReport (s.reportOf sec f none none { FaultRec.of (finderCause f) 0 with addr := 0 })

/-- A slice reads some sectors (R353, R354, R365): damage whose detection starts a decision, if any is found. -/
def State.checkSecs (s : State) (crc : Bool) (secs : List Nat) : Option (Nat × Finder) × State :=
  let s' := secs.foldl (fun s k => s.probeHarm crc k) s
  let found := secs.findSome? fun sec =>
    match s.poisonAt sec, s'.poisonAt sec with
    | none, some .l2 => some (sec, Finder.l2)
    | none, some .check => some (sec, Finder.check)
    | _, _ => none
  (found, s')

/-- A slice reads some sectors for no consumer: damage that starts a decision is reported (R354, R365). -/
def State.inspect (s : State) (crc : Bool) (secs : List Nat) : State :=
  match s.checkSecs crc secs with
  | (some (sec, f), s) => s.detect sec f
  | (none, s) => s

/-- The check of the old content by the home of a write. -/
def State.mergeCheck (s : State) (a n : Nat) : Option (Nat × Finder) × State :=
  if a ≥ hbmEnd then (none, s) else s.checkSecs true (sectorsOf a n)

/-- A read by the home slice of device HBM: whole units are fetched into L2 (R241 to R243), and damage is found in what is read; what it shows in the
other sectors of the units, which go with the data, is nobody's consumption (R354, R365). -/
def State.readHome (s : State) (a n : Nat) : State :=
  if a < hbmEnd then
    let mine := sectorsOf a n
    let s := (mine.foldl (fun s k => s.probeHarm true k) (s.wakeHome a)).inspect false ((s.unitsOf a n).filter fun k => !mine.contains k)
    s.fetchUnits (s.unitsOf a n)
  else s

/-- A read by the home slice for no consumer. -/
def State.readIdle (s : State) (a n : Nat) : State :=
  if a < hbmEnd then (s.inspect false (s.unitsOf a n)).readHome a n else s

/-! ## What comes before a write (R273) -/

/-- The side-log entries of a thread. -/
def State.logOf (s : State) (tid : Nat) : List SideEntry := s.eng.sideLog.filter (·.eff.thread == tid)

/-- Whether a thread has writes under way: in a side log, in a quantum buffer, a half, or in messages below a number. -/
def State.underWay (s : State) (w : Nat × Nat) : Bool :=
  !(s.logOf w.1).isEmpty || s.eng.quantum.any (·.eff.thread == w.1) || s.coh.halves.any (·.thread == w.1) ||
    s.coh.remote.any fun e => e.1 < w.2 && e.2.thread == w.1 && e.2.eff.any fun f => f.kind != .nothing

/-- The writes under way that come before what a thread has read (R273). -/
def State.reliesOf (s : State) (tid : Nat) : List (Nat × Nat) := (((s.threads.find tid).map (·.relies)).getD []).filter s.underWay

/-- A write of a thread is performed: what the thread has under way, and what it has read from others that have, comes before it (R273). -/
def State.noteWrite (s : State) (tid key n : Nat) : State :=
  let l := ((tid, s.nextId) :: s.reliesOf tid).filter s.underWay
  if tid = 0 || l.isEmpty then s
  else s.modCoh fun c => { c with rely := (sectorsOf key n).foldl (fun m k => Map.insert m k ((Map.get m [] k ++ l).eraseDups)) c.rely }

/-- A thread has read a place, and relies on what came before the writes of it. -/
def State.noteRead (s : State) (tid key n : Nat) : State :=
  let l := (sectorsOf key n).flatMap (s.coh.rely.get [])
  if l.isEmpty then s else s.modThread tid fun t => { t with relies := (t.relies ++ l).eraseDups }

/-! ## Landing a write at its home (R237, R243, R246) -/

/-- The name under which the command processor's reads and writes for a stream are held. -/
def cpId (n : Nat) : Nat := 2 ^ 40 + n

/-- Turns that a write wakes: parked threads and side-log entries that wait on its sectors (R232, R235), a context's
consumer count and resolve word (R320, R322), a stream's tail and watched word (R301, R304), and a wait list (R307). -/
def State.wakes (s : State) (a n : Nat) : List Turn :=
  let secs := sectorsOf a n
  let parked := s.threads.vals.filterMap fun t =>
    match t.place with
    | .parked p =>
      match p.unit with
      | some u => if secs.contains u && p.why != .retired then
          some (Turn.hw (.pageRetry p.core (((s.crews.find t.crew).map (·.ctx)).getD 0) p.page)) else none
      | none => none
    | _ => none
  let logged := s.eng.sideLog.filterMap fun e =>
    match e.unit with
    | some u => if secs.contains u && e.core != savedCore then some (Turn.hw (.sideLogReplay e.core e.eff.ctx (pageOf e.eff.va))) else none
    | none => none
  let rings := s.ctxs.vals.flatMap fun c =>
    let w := c.ringBase + 64 * 2 ^ c.ringM
    if !c.alive then []
    else (if overlap a n (w + 4) 4 then [Turn.hw (.consumerCountWrite c.num)] else []) ++
      (if overlap a n (w + 8) 4 then [Turn.hw (.resolveWrite c.num)] else [])
  let streams := s.cmd.streams.flatMap fun e =>
    (if e.2.tailPa.any fun p => overlap a n p 4 then [Turn.hw (.tailWake e.1)] else []) ++
      (if e.2.watch.any fun p => overlap a n p 8 then [Turn.hw (.waitmemRecheck e.1)] else [])
  let waits := s.cmd.launches.filterMap fun e =>
    if e.2.phase == .waiting && e.2.waitPas.any (fun p => overlap a n p 4) then some (Turn.hw (.launchWaitRelease e.1))
    else none
  (parked ++ logged ++ rings ++ streams ++ waits).eraseDups

/-- What waits on some bytes looks at them again. Bytes that the command processor has fetched for a look at a word among them go, so that the look reads
them anew (R301, R304, R307). -/
def State.wakeAt (s : State) (a n : Nat) : State :=
  let looks := (s.cmd.streams.filter fun e => (e.2.tailPa.any fun p => overlap a n p 4) || e.2.watch.any fun p => overlap a n p 8).map (·.1) ++
    (s.cmd.launches.vals.filter fun l => l.waitPas.any fun p => overlap a n p 4).map (·.stream)
  let s := if looks.isEmpty then s else s.modEng fun g => { g with opData := looks.foldl (fun m n => Map.erase m (cpId n)) g.opData }
  s.postAll (s.wakes a n)

/-- Reservations on bytes that a write reaches fail (R121). -/
def State.failResv (s : State) (a n : Nat) : State :=
  { s with cohorts := s.cohorts.map fun (e : Nat × Cohort) =>
      (e.1, { e.2 with lanes := e.2.lanes.map fun (l : Lane) =>
        { l with resv := l.resv.map fun (r : Resv) => if overlap a n r.pa r.size then { r with failed := true } else r } }) }

/-- The block tag after a write inside one sector (R243); a write whose writer has been recorded when it was die-performed leaves the tag as it is. -/
def State.tagBlock (s : State) (a : Nat) (w : Option Writer) : State :=
  let tag (b : Block) : Block := match w with
    | some (.ctx n) => { b with owner := n, ownerValid := true, ext := false }
    | some .external => { b with owner := 0xfff, ownerValid := true, ext := true }
    | none => b
  if a < hbmEnd then (s.fillSec true (sectorOf a)).modCoh fun c => { c with blocks := c.blocks.modify (blockOf a) tag } else s

/-- A piece of a write inside one sector, whose unit is fetched (R242): poison stays under a partial write, and a full one clears it (R354). -/
def State.landPiece (s : State) (a : Nat) (bs : List Byte) (w : Option Writer) : State :=
  let sec := sectorOf a
  let s := (s.wakeHome a).gather sec (proxyAgent (homeDie a))
  let s := if a < hbmEnd then s.fetchUnits (s.unitSecs sec) else s
  let full := bs.length == 32 && !s.pkg.deadDies.contains (secHome sec)
  if (s.poisonAt sec).isSome && !full then s
  else
    let s := s.modCoh fun c => { c with poison := c.poison.erase sec, checks := c.checks.erase sec }
    (({ s with mem := s.mem.writeBytes a bs }).tagBlock a w).injectAt [1, 2, 4] sec

/-- Cut bytes at sector boundaries. -/
def pieces : Nat → Nat → List Byte → List (Nat × List Byte)
  | 0, _, _ => []
  | _ + 1, _, [] => []
  | k + 1, a, b :: bs =>
    let n := 32 - a % 32
    (a, (b :: bs).take n) :: pieces k (a + n) ((b :: bs).drop n)

/-- Operations that wait on a write-held page or for a copy go on when its unit is written (R238, R360); those that wait on PAGE go on when the host
driver resolves their record (R208, R294). -/
def State.wakeOps (s : State) (a n : Nat) : State :=
  let secs := sectorsOf a n
  let woken (w : Option PageWait) : Option PageWait :=
    if w.any fun w => (w.why == .writeHeld || w.why == .cow) && w.unit.any secs.contains then none else w
  s.modEng fun g => { g with
    tileOps := g.tileOps.map fun (o : TileOp) => { o with waiting := woken o.waiting }
    copyOps := g.copyOps.map fun (o : CopyOp) => { o with waiting := woken o.waiting }
    collOps := g.collOps.map fun (o : CollOp) => { o with waiting := woken o.waiting } }

/-- Land bytes at their home with all tokens (R246): each sector's piece, the tags, the failed reservations and the turns
the write wakes. -/
def State.landBytes (s : State) (a : Nat) (bs : List Byte) (w : Option Writer) : State :=
  let s := (pieces bs.length a bs).foldl (init := s) fun s p => s.landPiece p.1 p.2 w
  ((s.failResv a bs.length).wakeOps a bs.length).wakeAt a bs.length

/-- Whether a context is alive. -/
def State.living (s : State) (ctx : Nat) : Bool := (s.ctxs.find ctx).any (·.alive)

/-- A die-performed write lands at its home. While a decision on its sector is out, and when its merge check finds damage that starts one, it stays
held (R354); where its page is retired, it enters its core's side log and meets that (R361), unless its context has ended. -/
def State.landDie (s : State) (w : DieWrite) : State :=
  let n := w.bytes.length
  let keep (s : State) : State := s.modCoh fun c => { c with dieWrites := c.dieWrites ++ [w] }
  if s.undecided w.pa n then keep s
  else if s.pkg.retireList.contains (w.pa / 2 ^ 16) then
    match w.eff with
    | some (core, e) =>
      if !s.living e.ctx then s else if s.logRoom core = 0 then keep s else s.divert core [e] none
    | none => s
  else match s.mergeCheck w.pa n with
    | (some (sec, f), s) => keep (s.detect sec f)
    | (none, s) => s.landBytes w.pa w.bytes none

/-- Make die-performed writes device-performed, in order (R246, R270, R273), and with them every other to their units, whose tokens come home. -/
def State.flushDies (s : State) (p : DieWrite → Bool) : State :=
  let secs := (s.coh.dieWrites.filter p).flatMap fun w => s.unitsOf w.pa w.bytes.length
  if secs.isEmpty then s
  else
    let meets (w : DieWrite) : Bool := (sectorsOf w.pa w.bytes.length).any secs.contains
    let out := s.coh.dieWrites.filter meets
    out.foldl State.landDie (s.modCoh fun c => { c with dieWrites := c.dieWrites.filter fun w => !meets w })

/-- The stores that dies have performed in the units of a range come first (R245, R246). -/
def State.flushUnits (s : State) (a n : Nat) : State :=
  let us := s.unitsOf a n
  s.flushDies fun d => (sectorsOf d.pa d.bytes.length).any us.contains

/-- Count a write to a watched page (R237): its counter rises by one before the write is performed, behind the writes of the counter that came
before, and records the write's writer (R243). The home checks the counter's sector as for any atomic (R353). -/
def State.countWrite (s : State) (a : Nat) (w : Writer) : State :=
  let c := s.counterOf a
  let s := (s.flushUnits c 4).inspect true (sectorsOf c 4)
  s.landBytes c (bytesOf 4 ((s.mem.readNat c 4 + 1) % 2 ^ 32)) (some w)

/-- Land a write at its home: counted first on a watched page. -/
def State.land (s : State) (a : Nat) (bs : List Byte) (w : Writer) (watch : Bool) : State :=
  (if watch then s.countWrite a w else s).landBytes a bs (some w)

/-- The old value of a half in its lane's register, whose cohort waits no longer when the other half has been performed too (R261). -/
def State.returnHalf (s : State) (h : Half) (old : Nat) : State :=
  match h.ret with
  | none => s
  | some (id, d) =>
    let w := (s.getV h.thread d).toNat
    let s := (s.noteRead h.thread h.pa 2).setV h.thread d (BitVec.ofNat 32 (if h.pa % 4 = 0 then w / 2 ^ 16 * 2 ^ 16 + old else old * 2 ^ 16 + w % 2 ^ 16))
    if s.coh.halves.any fun g => g.ret.any (·.1 == id) then s
    else { s with cohorts := s.cohorts.map fun (e : Nat × Cohort) => (e.1, { e.2 with waits := e.2.waits.filter (· != id) }) }

/-- Perform a half of a .BF16X2 atomic (R261). It is held for a decision on its sector (R354), and meets a retired page (R361), as a die-performed
store does; one that returns a value stays there until it is translated again. -/
def State.landHalf (s : State) (h : Half) : State :=
  let keep (s : State) : State := s.modCoh fun c => { c with halves := c.halves ++ [h] }
  if s.undecided h.pa 2 || (h.ret.isSome && s.pkg.retireList.contains (h.pa / 2 ^ 16)) then keep s
  else if s.pkg.retireList.contains (h.pa / 2 ^ 16) then
    match h.eff with
    | some (core, e) => if !s.living e.ctx then s else if s.logRoom core = 0 then keep s else s.divert core [e] none
    | none => s
  else match s.mergeCheck h.pa 2 with
    | (some (sec, f), s) => keep (s.detect sec f)
    | (none, s) =>
      let s := s.flushUnits h.pa 2
      let old := s.mem.readNat h.pa 2
      (s.landBytes h.pa (bytesOf 2 (halfAdd old h.val)) (some h.writer)).returnHalf h old

/-- Perform the halves that are still due, in order. -/
def State.flushHalves (s : State) (p : Half → Bool) : State :=
  let out := s.coh.halves.filter p
  if out.isEmpty then s else out.foldl State.landHalf (s.modCoh fun c => { c with halves := c.halves.filter fun h => !p h })

/-- A half of an effect on two bytes, as the side log holds it. -/
def MemEff.half (e : MemEff) (i : Nat) : MemEff := { e with va := e.va + 2 * i, bytes := (e.bytes.drop (2 * i)).take 2 }

/-- Begin a .BF16X2 atomic (R261): one half is performed and the other follows as a turn of its own. Towards other agents no order holds
between the halves, so that either comes first; the lanes of one request make one sequence of each half (R286). `eff` is the core's effect, if it is
one's, and `ret` the name of its lane's wait with the lane's register, if it returns a value. -/
def State.performHalf (s : State) (req tid a e : Nat) (w : Writer) (eff : Option (Nat × MemEff)) (ret : Option (Nat × Nat)) (watch : Bool) : State :=
  let (x, s) := match s.coh.halves.find? fun h => h.req == req && overlap a 4 h.pa 2 with
    | some h => (if h.pa == a then 1 else 0, s)
    | none => let (x, s) := s.drawNat; (x % 2, s)
  let s := s.flushUnits a 4
  let s := if watch then s.countWrite a w else s
  let half (i : Nat) : Half := ⟨req, tid, a + 2 * i, bits e (16 * i) 16, w, eff.map fun x => (x.1, x.2.half i), ret⟩
  let s := s.flushHalves fun h => h.pa == a + 2 * x
  ((s.modCoh fun c => { c with halves := c.halves ++ [half (1 - x)] }).landHalf (half x)).post .half

/-- The name of a request that no other has. -/
def State.newReq (s : State) : Nat × State := (2 * s.nextId, { s with nextId := s.nextId + 1 })

/-! ## Performing a write (R229, R230, R246, R263) -/

/-- Take an entry out of the quantum buffers. -/
def State.unbuffer (s : State) (q : QEntry) : State := s.modEng fun g => { g with quantum := g.quantum.erase q }

/-- An entry of the quantum buffer that its home does not perform now: to the side log, or back into the buffer while that has no room. -/
def State.refuseEntry (s : State) (q : QEntry) : State :=
  if s.logRoom q.core = 0 then s.modEng fun g => { g with quantum := q :: g.quantum } else s.divert q.core [q.eff] none

/-- The home performs an entry of the quantum buffer (R263). One that meets a retired page (R361), or whose merge check finds damage, goes to the
side log, where it waits for the decision (R354). -/
def State.landEntry (s : State) (q : QEntry) : State :=
  let n := q.eff.bytes.length
  if s.pkg.retireList.contains (q.pa / 2 ^ 16) then s.refuseEntry q
  else match s.mergeCheck q.pa n with
    | (some (sec, f), s) => (s.detect sec f).refuseEntry q
    | (none, s) =>
      let s := (s.flushUnits q.pa n).flushHalves fun h => overlap q.pa n h.pa 2
      let w := Writer.ctx q.eff.ctx
      (match q.eff.kind, n with
        | .atom _ 3, 4 =>
          let (req, s) := s.newReq
          s.performHalf req q.eff.thread q.pa (natOf q.eff.bytes) w (some (q.core, q.eff)) none q.watch
        | .atom op cls, _ =>
          s.land q.pa (bytesOf n (atomOp op cls.toNat n (s.mem.readNat q.pa n) (natOf q.eff.bytes))) w q.watch
        | _, _ => s).noteWrite q.eff.thread q.pa n

/-- The quantum entries of an agent's core that use translations about to go, for which the side log has no room, and whose homes can take them. -/
def State.homeless (s : State) (agent : Nat) (p : TlbEntry → Bool) : List QEntry :=
  match agentCore agent with
  | none => []
  | some core =>
    let gone := s.transOf agent p
    let mine := s.eng.quantum.filter fun q => q.core == core && gone.any fun g => g.covers q.eff.ctx q.eff.va
    (mine.take (mine.length - s.logRoom core)).filter fun q => !s.barred q.eff.thread q.pa q.eff.bytes.length

/-- Apply an entry of the quantum buffer (R229, R263): it goes to the host or a peer where its page lies there. Before its home takes tokens from
translation caches, what their homes have begun completes, and the entries that would lose their translation with no room in the side log are
performed. `fuel` is the number of entries. -/
def State.applyEntry : Nat → QEntry → State → State
  | 0, _, s => s
  | fuel + 1, q, s =>
    let s := s.unbuffer q
    if s.remoteKey q.pa then s.sendWrite (tcAgent q.core) q.eff q.pa q.watch
    else
      let units := s.unitsOf q.pa q.eff.bytes.length
      let ts := s.translators units
      let s := if ts.isEmpty then s else (s.flushDies fun _ => true).flushHalves fun _ => true
      let s := (ts.flatMap fun a => s.homeless a fun e => units.any e.units.contains).foldl (init := s) fun s r =>
        if s.eng.quantum.contains r then State.applyEntry fuel r s else s
      s.landEntry q

/-- Apply some entries that are still in the buffer, in order. -/
def State.applyEntries (s : State) (qs : List QEntry) : State :=
  qs.foldl (fun s q => if s.eng.quantum.contains q then State.applyEntry s.eng.quantum.length q s else s) s

/-- Quantum entries of an agent's core that use translations about to go, and for which the side log has no room, are performed at their
homes first (R229), but for those whose homes cannot take them now, which wait there. -/
def State.spill (s : State) (agent : Nat) (p : TlbEntry → Bool) : State := s.applyEntries (s.homeless agent p)

/-- Before tokens are taken from translation caches, the accesses that their homes have begun complete (step 2 of R229): every write that
is performed on a die only, and the second half of an atomic. -/
def State.complete (s : State) (secs : List Nat) : State :=
  let ts := s.translators (secs.flatMap s.unitSecs)
  if ts.isEmpty then s
  else
    let s := (s.flushDies fun _ => true).flushHalves fun _ => true
    ts.foldl (init := s) fun s a => s.spill a fun e => secs.any e.units.contains

/-- Before a write is performed at device scope: what it takes from translation caches is settled, and earlier writes of the same units
come first (R229, R230, R245, R281). -/
def State.firstInLine (s : State) (a n : Nat) : State :=
  ((s.complete (sectorsOf a n)).flushUnits a n).flushHalves fun h => overlap a n h.pa 2

/-- Perform a write at device scope. -/
def State.perform (s : State) (a : Nat) (bs : List Byte) (w : Writer) (watch : Bool) : State :=
  (s.firstInLine a bs.length).land a bs w watch

/-- Perform an atomic at its home (R260). -/
def State.performAtom (s : State) (a n : Nat) (op : AtomOp) (cls e : Nat) (w : Writer) (watch : Bool) : State :=
  let s := s.firstInLine a n
  s.land a (bytesOf n (atomOp op cls n (s.mem.readNat a n) e)) w watch

/-- Perform a .BF16X2 atomic of a request (R261, R286). -/
def State.performPair (s : State) (req tid a e : Nat) (w : Writer) (eff : Option (Nat × MemEff)) (ret : Option (Nat × Nat)) (watch : Bool) : State :=
  (s.complete (sectorsOf a 4)).performHalf req tid a e w eff ret watch

/-- One token moves from a holder. -/
def CohUnit.lose (u : CohUnit) (a : Nat) : CohUnit := { u with held := u.held.set 0 a (u.held.get 0 a - 1) }

/-- The owner token of a sector comes to its home. -/
def State.takeOwner (s : State) (sec : Nat) : State :=
  let u := s.unit sec
  match u.owner with
  | some q => s.setUnit sec { u.lose q with home := u.home + 1, owner := none }
  | none => s

/-- The owner tokens of a block's units come home, with the stores that other dies have performed in it (R246). -/
def State.ownBlock (s : State) (b : Nat) : State :=
  (blockSecs b).foldl State.takeOwner (s.flushDies fun d => overlap (512 * b) 512 d.pa d.bytes.length)

/-- The sectors of a block that a write-back reads and writes: the modified ones that are not poisoned. -/
def State.toWrite (s : State) (b : Nat) : List Nat :=
  (blockSecs b).filter fun k => ((s.coh.blocks.find b).any (·.wrote k)) && (s.poisonAt k).isNone

/-- A block leaves its slice (R246, R255, R365), written back where it is dirty: stores that other dies have performed come first, with the owner
tokens of its units, and its modified sectors are read; damage that they show starts a decision, and the block stays. -/
def State.writeBack (s : State) (b : Nat) : State :=
  let s := s.ownBlock b
  if !(s.coh.blocks.find b).any (·.dirty) then s.dropBlock b
  else match s.checkSecs false (s.toWrite b) with
    | (some (sec, f), s) => s.detect sec f
    | (none, s) => s.toHbm b

/-- Disable a way of a block's set (R362), the lowest that is still enabled. Its dirty sectors that are not poisoned are written back first, as any
write-back (R246, R365). -/
def State.quarantineWay (s : State) (a : Nat) : State :=
  let used := s.coh.quarantine.filter fun q => q.1 == sliceOf a && q.2.1 == setOf a
  let s := s.ownBlock (blockOf a)
  let s := s.inspect false (s.toWrite (blockOf a))
  let s := if (s.coh.blocks.find (blockOf a)).any (·.dirty) then s.toHbm (blockOf a) else s.dropBlock (blockOf a)
  let s := s.modCoh fun c => { c with quarantine := c.quarantine ++ [(sliceOf a, setOf a, used.length)] }
  let s := s.modPkg fun p => { p with event := p.event ||| 8, msix := if p.event[3] then p.msix else p.msix ++ [1] }
  s.trimL2 (sliceOf a) (setOf a)

/-- The holders of a sector on a die beside its L2. -/
def State.dieHolders (s : State) (die sec : Nat) : Map Nat := (s.unit sec).held.filter fun h => onDie die h.1 && h.1 != proxyAgent die

/-- Every token that a die holds of a sector, and the owner token with its data, come to the writing L2 (R246): the home slice of its die,
or its proxy. Translation complexes surrender theirs (R229), and data that come with the owner token are read (R365). The request resets the filter of
the holders that it gathered from (R249, log 33). -/
def State.gatherDie (s : State) (die sec : Nat) : State :=
  let unit := s.unitSecs sec
  let s := s.flushDies fun d => d.die != die && unit.contains (sectorOf d.pa)
  let s := (s.dieHolders die sec).foldl (init := s) fun s h => (s.surrender sec h.1).rouse h.1
  let p := proxyAgent die
  let home := secHome sec
  let s := if (s.unit sec).owner == (if home == die then none else some p) then s else s.inspect false [sec]
  let u := (s.unit sec).absorb
  let mine := s.dieHolders die sec
  let n := (mine.map (·.2)).sum
  let rest : Map Nat := u.held.filter fun h => !mine.contains h
  let kept : Filter := match u.filter with
    | .pointers l => .pointers (l.filter fun a => !(onDie die a))
    | .coarse v => if home == die then .coarse (v &&& 0x7e00) else .coarse v
  if home == die then
    let u := { u with held := rest, home := u.home + n }
    let u := match u.owner with
      | some q => { u.lose q with home := u.home + 1, owner := none }
      | none => u
    s.setUnit sec { u with filter := if u.held.isEmpty then .pointers [p] else kept }
  else
    let u := { u with held := Map.set rest 0 p (Map.get rest 0 p + n) }
    let u := match u.owner with
      | some q => if q == p then u else { u.lose q with held := (u.lose q).held.insert p ((u.lose q).held.get 0 p + 1), owner := some p }
      | none => { u with home := u.home - 1, held := u.held.insert p (u.held.get 0 p + 1), owner := some p }
    let s := s.setUnit sec { u with filter := if u.held.all fun h => h.1 == p then .pointers [p] else kept.add home p }
    let s := s.modCoh fun c => { c with proxyFilters := c.proxyFilters.insert (4 * sec + die) (.pointers [p]) }
    s.trimL2 (sliceIn die (sec / 16)) (setOf (32 * sec))

/-- Perform a plain or relaxed store of a core (R246, R276): die-performed now, with the die's tokens and the owner token, and with its writer in
the block's tag (R243) unless its sector is poisoned (R354); its WrAll follows in the agenda. A store to a unit that translations derive from, or to
a page of kind 3 (R241), is performed at device scope at once. -/
def State.performOnDie (s : State) (core : Nat) (e : MemEff) (a : Nat) (watch : Bool) : State :=
  let die := dieOf core
  let n := e.bytes.length
  let w := Writer.ctx e.ctx
  let secs := s.unitsOf a n
  if s.atHome a || !(s.translators secs).isEmpty then s.perform a e.bytes w watch
  else
    let s := s.flushHalves fun h => overlap a n h.pa 2
    let s := (secs.foldl (fun s sec => s.gatherDie die sec) s).fetchUnits secs
    let s := if watch then s.countWrite a w else s
    let s := if (sectorsOf a n).any fun k => (s.poisonAt k).isSome then s else s.tagBlock a (some w)
    let s := (s.failResv a n).modCoh fun c => { c with dieWrites := c.dieWrites ++ [⟨die, a, e.bytes, w, e.thread, some (core, e)⟩] }
    s.post (.hw (.wrall die (sectorOf a)))

/-! ## Read tokens (R245, R248, R249) -/

/-- An agent of a unit that keeps the token it receives: while a persistent request is served, only its requester (R248). -/
def CohUnit.keeps (u : CohUnit) (a : Nat) : Bool :=
  u.pers.isEmpty || match u.req with
    | some r => r.persistent && r.agent == a
    | none => u.pers.head? == some a

/-- The proxy of a core's die, for a unit that is homed on another, and the tokens that it can give while it keeps one (R247). -/
def proxyFor (sec agent : Nat) : Option Nat :=
  ((agentCore agent).map dieOf).bind fun d => if d == secHome sec then none else some (proxyAgent d)
def CohUnit.spare (u : CohUnit) (sec agent : Nat) : Nat := ((proxyFor sec agent).map fun p => u.held.get 0 p - 1).getD 0

/-- One token passes from the home, or from a holder, to an agent that the filters then name. -/
def State.give (s : State) (sec agent : Nat) (source : Option Nat) : State :=
  let u := s.unit sec
  let home := secHome sec
  let u := match source with
    | none => { u with home := u.home - 1 }
    | some h => u.lose h
  let s := s.setUnit sec { u with
    held := u.held.insert agent (u.held.get 0 agent + 1), filter := u.filter.add home (recorded home agent) }
  match agentCore agent with
  | some n =>
    if dieOf n == home then s
    else
      let f : Filter := (s.coh.proxyFilters.get (.pointers []) (4 * sec + dieOf n)).add (dieOf n) agent
      s.modCoh fun c => { c with proxyFilters := c.proxyFilters.insert (4 * sec + dieOf n) f }
  | none => s

/-- An agent takes a read token of one sector: from its die's proxy where that has one to spare (R247); else from the home, which gives its last one with
the owner token to nobody; else from a holder with more than one; else every token first comes back to the home. -/
def State.grantSec (s : State) (sec agent : Nat) : State :=
  let u := s.unit sec
  if u.held.get 0 agent > 0 || !u.keeps agent then s
  else if u.spare sec agent > 0 then s.give sec agent (proxyFor sec agent)
  else if u.home > (if u.owner.isNone then 1 else 0) then s.give sec agent none
  else
    match u.held.find? fun h => h.2 > 1 with
    | some h => s.give sec agent (some h.1)
    | none => ((s.complete [sec]).gather sec agent).give sec agent none

/-- An agent takes a read token of the unit of a sector; a walker reads at 32-byte grain (R228). -/
def State.grant (s : State) (sec agent : Nat) : State :=
  (if translates agent then [sec] else s.unitSecs sec).foldl (fun s k => s.grantSec k agent) s

/-- Whether a parked thread or a side-log entry of a core waits on a PTE unit, so that its translation complex keeps its token (R228). -/
def State.awaited (s : State) (agent sec : Nat) : Bool :=
  translates agent && (agentCore agent).any fun core =>
    s.eng.sideLog.any (fun e => e.core == core && e.unit == some sec) || s.threads.vals.any fun t => match t.place with
      | .parked p => p.core == core && p.unit == some sec && p.why != .retired
      | _ => false

/-- An agent sends Evict with its tokens of a sector (R251); a proxy with the owner token sends EvictData, with the stores its die has
performed. A translation cache keeps the token of a unit that something waits on (R228), and one that is late (R229). -/
def State.sendEvict (s : State) (sec agent : Nat) : State :=
  if (s.unit sec).held.get 0 agent = 0 || s.awaited agent sec || (translates agent && s.late [sec]) then s
  else
    let s := if translates agent then s.complete [sec] else s.flushDies fun d => proxyAgent d.die == agent && sectorOf d.pa == sec
    let s := s.surrender sec agent
    let u := s.unit sec
    let own := u.owner == some agent
    let s := s.setUnit sec { u with
      held := u.held.erase agent, evicts := u.evicts ++ [(agent, u.held.get 0 agent, own)], owner := if own then none else u.owner }
    s.post (.hw (if own && 902 ≤ agent && agent < 906 then .evictdata sec (agent - 902) else .evict sec agent))

/-- The blocks that an agent holds units of in one set of `sets`, and an eviction of a block of them that the manual leaves open. What a metadata
cache holds is counted by itself (R13). -/
def State.trimCache (s : State) (agent sets cap sec : Nat) (desc : Bool) : State :=
  let mine := s.coh.units.filter fun e => (e.2.held.find agent).isSome && e.1 / 16 % sets == sec / 16 % sets &&
    s.coh.descs.contains (agent, e.1) == desc
  let others := ((mine.map fun e => e.1 / 16).filter (· != sec / 16)).eraseDups
  if others.length < cap then s
  else
    let (x, s) := s.drawNat
    let b := others.getD (x % others.length) 0
    (mine.filter fun e => e.1 / 16 == b).foldl (fun s e => s.sendEvict e.1 agent) s

/-- Read tokens of an L1 for a range (R241, R245): 64 sets of 8 blocks, a block's set being its number modulo 64 (DESIGN CHOICE, log 44: R13 gives
no index). A page of kind 3 is never allocated in it, nor is host data (R376). -/
def State.grantL1 (s : State) (core key n : Nat) : State :=
  if s.atHome key || s.remoteKey key then s
  else
    let s := (sectorsOf key n).foldl (fun s sec => s.grant sec (l1Agent core)) s
    s.trimCache (l1Agent core) 64 8 (sectorOf key) false

/-- Read tokens of an instruction and descriptor cache for a range (R13, R245): 256 blocks of instructions, or 16 of metadata. A sector is counted in
the cache that it was read into first. -/
def State.grantIc (s : State) (core key n : Nat) (desc : Bool) : State :=
  let a := icAgent core
  let new := (sectorsOf key n).filter fun sec => (s.unit sec).held.get 0 a = 0
  let s := (sectorsOf key n).foldl (fun s sec => s.grant sec a) s
  let s := if desc then s.modCoh fun c => { c with descs := c.descs ++ (new.filter fun k => !c.descs.contains (a, k)).map fun k => (a, k) } else s
  s.trimCache a 1 (if desc then 16 else 256) (sectorOf key) desc

/-! ## The walk (R220 to R225) -/

/-- Why memory is touched, for the permissions of R225. -/
inductive Acc | read | write | both | exec
  deriving DecidableEq, Repr

/-- What a walk finds (R224, R238, R360). A table page under a bias flip makes it wait, and one in host bias is asked of the host by sector
(R240). -/
inductive Tr
  | ok (key : Nat) (pte : Dword) (level : Nat) (units : List Nat)
  | page (unit : Nat)
  | prot
  | held (unit : Nat)
  | cow (unit : Nat)
  | damaged (sec : Nat)
  | busy
  | ask (sec : Nat)
  deriving DecidableEq, Repr

/-- The entry's index at a level (R221). -/
def walkIndex (va lvl : Nat) : Nat := if lvl = 0 then va / 2 ^ 66 % 2 ^ 14 else va / 2 ^ (66 - 10 * lvl) % 1024

/-- The memory key of a physical address of a kind (R222). -/
def keyOf (kind pa : Nat) : Nat := if kind == 1 then hostKey + pa else if kind == 2 then peerKey + pa else pa

/-- Permit (R225), with write-held pages (R238) and cow pages (R360). -/
def permit (e : Nat) (acc : Acc) (priv : Bool) (unit : Nat) (ok : Tr) : Tr :=
  let w := bits e 3 1 == 1
  let r := bits e 2 1 == 1
  if bits e 5 1 == 1 && !priv then .prot
  else
    let wr : Tr := if w then (if bits e 9 1 == 1 then .cow unit else ok)
      else if bits e 10 1 == 1 then .held unit else .prot
    match acc with
    | .read => if r then ok else .prot
    | .exec => if bits e 4 1 == 1 then ok else .prot
    | .write => wr
    | .both => if r then wr else .prot

/-- A byte of a page table as a walk reads it with its token (R231): the latest performed write, or the host's copy in host bias. -/
def State.pteByte (s : State) (a : Nat) : Byte :=
  if s.viaHost a then ((s.coh.hostHeld.find (sectorOf a)).bind fun bs => bs[a % 32]?).getD 0
  else s.coh.dieWrites.foldl (init := s.mem.read a) fun v w => if w.pa ≤ a then (w.bytes[a - w.pa]?).getD v else v

def State.pte (s : State) (a : Nat) : Nat := natOf ((List.range 8).map fun i => s.pteByte (a + i))

/-- The walk (R224) by an agent from a table at a level; `fuel` is the levels left. -/
def walkFrom (s : State) (agent va : Nat) (acc : Acc) (priv : Bool) : Nat → Nat → Nat → List Nat → Tr
  | 0, _, _, _ => .prot
  | fuel + 1, t, lvl, units =>
    let a := t + 8 * walkIndex va lvl
    let u := sectorOf a
    if t ≥ hbmEnd then .prot
    else if (s.poisonAt u).isSome || s.pkg.retireList.contains (a / 2 ^ 16) then .damaged u
    else if s.readStalled agent 0 a 8 then .busy
    else if s.viaHost a && (s.coh.hostHeld.find u).isNone then .ask u
    else
      let e := s.pte a
      if bits e 0 1 == 0 then .page u
      else if bits e 1 1 == 0 then
        if lvl == 5 || bits e 2 11 != 0 then .prot
        else walkFrom s agent va acc priv fuel (bits e 13 39 * 2 ^ 13) (lvl + 1) (u :: units)
      else if lvl < 3 || bits e 11 1 == 1 || bits e 6 2 == 3 || bits e 12 4 > 3 then .prot
      else if (bits e 10 1 == 1 || bits e 8 1 == 1) && bits e 12 4 != 0 then .prot
      else
        let size := pageSize lvl
        let base := bits e 16 36 * 2 ^ 16
        let pa := base + va % size
        if base % size != 0 then .prot
        else if bits e 12 4 == 0 && pa ≥ hbmEnd then .prot
        else permit e acc priv u (.ok (keyOf (bits e 12 4) pa) (BitVec.ofNat 64 e) lvl (u :: units))

/-- Translate a virtual address (R224) for an agent and a context's translation, with no effect on any cache. -/
def State.walk (s : State) (agent : Nat) (ptroot : Dword) (priv : Bool) (va : Nat) (acc : Acc) : Tr :=
  walkFrom s agent va acc priv 6 (rootTable ptroot) 0 []

/-- The addresses of the entries that a walk reads from a table at a level on, until it stops. -/
def State.trail (s : State) (va : Nat) : Nat → Nat → Nat → List Nat
  | 0, _, _ => []
  | fuel + 1, t, lvl =>
    let a := t + 8 * walkIndex va lvl
    let e := s.pte a
    if t ≥ hbmEnd then []
    else if bits e 0 1 == 1 && bits e 1 1 == 0 && lvl != 5 && bits e 2 11 == 0 then
      a :: State.trail s va fuel (bits e 13 39 * 2 ^ 13) (lvl + 1)
    else [a]

/-! ## The translation caches (R227, R228) -/

/-- The index of a virtual page at a level in entries of that level. -/
def vpageAt (va lvl : Nat) : Nat := va / 2 ^ (66 - 10 * lvl)

/-- Where an agent's walk starts (R227): at the table that its deepest walker entry of the address names, else at the root. -/
def State.walkStart (s : State) (agent ctx : Nat) (ptroot : Dword) (va : Nat) : Nat × Nat × List Nat :=
  let mine := s.coh.tlb.filter fun e =>
    e.agent == agent && e.ctx == ctx && e.root == ptroot.toNat && !e.leaf && e.vpage == vpageAt va e.level
  match firstBy (fun (a b : TlbEntry) => a.level > b.level) mine with
  | some e => (bits e.pte.toNat 13 39 * 2 ^ 13, e.level + 1, e.units)
  | none => (rootTable ptroot, 0, [])

/-- A walk reads a sector of a page table (R231, R355): writes that a die has performed come first, damage is found, and the agent takes a
read token of it. -/
def State.readPte (s : State) (agent sec : Nat) : State :=
  if s.viaHost (32 * sec) || s.readStalled agent 0 (32 * sec) 32 then s
  else
    let s := (s.flushDies fun d => overlap (32 * sec) 32 d.pa d.bytes.length).flushHalves fun h => overlap (32 * sec) 32 h.pa 2
    (s.probeHarm true sec).grantSec sec agent

/-- An agent's entries that make room for another: the core TLB has 64 sets of 8 ways, an engine's cache 64 entries, a walker cache 256. DESIGN CHOICE,
log 33: the entry that was entered first goes, since R13 and R227 name no victim. -/
def State.crowded (s : State) (e : TlbEntry) : List TlbEntry :=
  let set (x : TlbEntry) : Nat := Config.tlbSet x.vpage % 64
  let mine := s.coh.tlb.filter fun x => x.agent == e.agent && x.leaf == e.leaf && (!e.leaf || e.agent ≥ 576 || set x == set e)
  mine.take (mine.length + 1 - (if !e.leaf then 256 else if e.agent < 576 then 8 else 64))

/-- Enter a translation in its agent's cache; an entry that makes room is dropped as R229 and R263 drop one, and where it cannot be yet the new
translation is not kept. -/
def State.noteEntry (s : State) (e : TlbEntry) : State :=
  if s.coh.tlb.contains e then s
  else
    let out := s.crowded e
    let gone (x : TlbEntry) : Bool := out.contains x
    if s.lateFor e.agent gone then s
    else
      let s := if out.isEmpty then s else (s.spill e.agent gone).dropTrans e.agent gone none
      s.modCoh fun c => { c with tlb := c.tlb ++ [e] }

/-- Enter a walk's translation (R227): the leaf, and in a core's complex the entries above it, each derived from its own unit and those
above it (R228). `as` are the addresses of the entries that the walk read from level `from'` on. -/
def State.noteWalk (s : State) (agent ctx : Nat) (ptroot : Dword) (va from' : Nat) (as : List Nat) (r : Tr) : State :=
  match r with
  | .ok _ pte lvl units =>
    let walker (p : Nat × Nat) : TlbEntry :=
      ⟨agent, ctx, ptroot.toNat, false, p.1, vpageAt va p.1, BitVec.ofNat 64 (s.pte p.2), units.drop (lvl - p.1)⟩
    let tables := if agent < 576 then (List.range (lvl - from')).map fun i => walker (from' + i, as.getD i 0) else []
    let leaf : TlbEntry := ⟨agent, ctx, ptroot.toNat, true, lvl, va / pageSize lvl, pte, units⟩
    (tables ++ [leaf]).foldl State.noteEntry s
  | _ => s

/-- Translate for an agent that has no translation of the address: a walk, whose reads take tokens and find damage, and whose result is
cached. -/
def State.walkFor (s : State) (agent ctx : Nat) (ptroot : Dword) (priv : Bool) (va : Nat) (acc : Acc) : Tr × State :=
  let (t, lvl, units) := s.walkStart agent ctx ptroot va
  let as := s.trail va 6 t lvl
  let s := as.foldl (fun s a => s.readPte agent (sectorOf a)) s
  match walkFrom s agent va acc priv 6 t lvl units with
  | .ask sec => (.ask sec, s.askHost agent sec)
  | r => (r, s.noteWalk agent ctx ptroot va lvl as r)

/-- What a cached leaf gives an access, if it has the permission. -/
def TlbEntry.hit (e : TlbEntry) (priv : Bool) (va : Nat) (acc : Acc) : Option Tr :=
  let n := e.pte.toNat
  let pa := bits n 16 36 * 2 ^ 16 + va % pageSize e.level
  match permit n acc priv (e.units.headD 0) (.ok (keyOf (bits n 12 4) pa) e.pte e.level e.units) with
  | .ok k p l u => some (.ok k p l u)
  | _ => none

/-- Translate for an agent (R227): by the last-page register `slot` if the access has one, else by a cached leaf, else by a walk. A cached entry
without the permission walks again and meets what the walk meets. A block's grain and kind are fixed as it is reached (R226). -/
def State.translate (s : State) (agent ctx : Nat) (ptroot : Dword) (priv : Bool) (va : Nat) (acc : Acc) (slot : Option Nat) : Tr × State :=
  let mine (e : TlbEntry) : Bool := e.agent == agent && e.root == ptroot.toNat && e.covers ctx va
  let cached := ((slot.bind s.coh.lastPage.find).filter mine).or (s.coh.tlb.find? mine)
  let (r, s) := match cached.bind fun e => e.hit priv va acc with
    | some r => (r, s)
    | none => s.walkFor agent ctx ptroot priv va acc
  match r with
  | .ok k pte lvl units =>
    let e : TlbEntry := ⟨agent, ctx, ptroot.toNat, true, lvl, va / pageSize lvl, pte, units⟩
    let s := match slot with
      | some n => s.modCoh fun c => { c with lastPage := c.lastPage.insert n e }
      | none => s
    (r, s.noteFmt k pte.toNat)
  | _ => (r, s)

/-- Whether some addresses that Rililo is to use are in device bias and under no flip (R240). -/
def State.crownReady (s : State) (as : List Nat) : Bool := as.all fun a => !(s.remoteKey a || s.flipHolds 0 a)

/-- Pages that Rililo is to use and that are in host bias are flipped back first. DESIGN CHOICE, log 38: R240 lets Rililo start a flip, and does not
say how it reaches such a page. -/
def State.takeBack (s : State) (as : List Nat) : State :=
  as.foldl (init := s) fun s a =>
    if a < hbmEnd && s.viaHost a && !s.flipping a then s.modCoh fun c => { c with flips := c.flips ++ [⟨a / 2 ^ 16, false, [], none⟩] } else s

/-- The last-page register of a lane (R227): 128 a core, one a port and lane position. -/
def lastPageSlot (core port lane : Nat) : Nat := 128 * core + 32 * port + lane

/-- Drop an agent's translations of its own accord: entries of the quantum buffer that used them move or are performed first. -/
def State.forget (s : State) (agent : Nat) (p : TlbEntry → Bool) : State :=
  if (s.transOf agent p).isEmpty then s else (s.spill agent p).dropTrans agent p none

/-- Every agent drops the translations that meet a condition. -/
def State.forgetAll (s : State) (p : TlbEntry → Bool) : State :=
  (((s.coh.tlb ++ s.coh.lastPage.vals).filter p).map (·.agent)).eraseDups.foldl (fun s a => s.forget a p) s

/-- Every agent drops the translations of a context that were made from other roots than one (R220). -/
def State.dropRoot (s : State) (ctx : Nat) (ptroot : Dword) : State :=
  s.forgetAll fun e => e.ctx == ctx && e.root != ptroot.toNat

/-- A sector that the host takes back, or whose page changes its bias, leaves the L2 and the translations that derive from it (R254, R376); what
watched it there looks again. -/
def State.dropHost (s : State) (sec : Nat) : State :=
  if (s.coh.hostHeld.find sec).isNone then s
  else ((s.forgetAll fun e => e.units.contains sec).modCoh fun c => { c with
    hostHeld := c.hostHeld.erase sec, hostDirty := c.hostDirty.filter (· != sec) }).wakeAt (32 * sec) 32

end Sys2Proof.Machine
end

