-- ==== Sys2Proof/Machine/Operands.lean ====
section
/-! DEFINITION. Operand forms (R24, R26, R28, R36), the pending results of R44 to R47, conduits (R90, R91), the checks at
issue (R47, R117), and the writing of results. -/

namespace Sys2Proof.Machine

/-! ## What a cohort sees of the registers (R44, R46, R47, R129) -/

/-- The value before a result that is not readable yet. -/
def Cohort.pending (c : Cohort) (now : Nat) (f : RegFile) (key : Nat) : Option Nat :=
  (c.pend.find? fun p => p.file == f && p.key == key && p.ready > now).map (·.old)

def State.seenV (s : State) (c : Cohort) (tid n : Nat) : Word :=
  match c.pending s.clock .v (vKey tid n) with
  | some v => BitVec.ofNat 32 v
  | none => s.getV tid n

def State.seenP (s : State) (c : Cohort) (tid n : Nat) : Bool :=
  if n == 7 then true
  else match c.pending s.clock .p (pKey tid n) with
    | some v => v == 1
    | none => s.getP tid n

/-- Whether a lane's predicate reads true, after the negate bit (R22). -/
def State.predTrue (s : State) (c : Cohort) (p : Pred) (tid : Nat) : Bool := s.seenP c tid p.num.toNat != p.neg

/-- The lanes in which an instruction executes (R22, R109). -/
def State.execLanes (s : State) (c : Cohort) (p : Pred) : List Lane := c.active.filter fun l => s.predTrue c p l.tid

/-- Whether a k write is a cohort's own, or one that a thread of it made in another cohort. -/
def KPend.ours (k : KPend) (c : Cohort) : Bool := k.cohort == c.id || c.lanes.any fun l => k.writers.contains l.tid

/-- How many of a crew register's writes, oldest first, a cohort can have seen at most, those whose results are written, and must have seen at
least: up to its own last one or one it has read (R129). -/
def kSeen (c : Cohort) (now : Nat) (es : List KPend) : Nat × Nat :=
  let done := es.takeWhile (·.ready ≤ now)
  let mine (k : KPend) : Bool := k.ours c || k.seen.contains c.id || c.lanes.any fun l => k.seen.contains l.tid
  (done.length, (done.reverse.dropWhile fun k => !mine k).length)

/-- How many of them it sees now, as the hardware chooses. -/
def State.kChoice (s : State) (c : Cohort) (es : List KPend) : Nat × State :=
  let b := kSeen c s.clock es
  if b.1 ≤ b.2 then (b.2, s) else (b.2 + s.drawNat.1 % (b.1 - b.2 + 1), s.drawNat.2)

/-- A cohort and its threads have seen some writes of a crew register, their own among them. -/
def State.kSaw (s : State) (c : Cohort) (es : List KPend) : State :=
  let who := c.id :: c.lanes.map (·.tid)
  let seen := es.filter fun k => !who.all k.seen.contains
  if seen.isEmpty then s else s.modCrew c.crew fun w =>
    { w with kPend := w.kPend.map fun k => if seen.contains k then { k with seen := (who ++ k.seen).eraseDups } else k }

/-- A crew register as a cohort reads it (R44, R129): its own writes after their latency, another cohort's unordered writes old or
new as the hardware chooses, never older than it has read. -/
def State.seenK (s : State) (c : Cohort) (n : Nat) : Word × State :=
  let es := (((s.crews.find c.crew).map (·.kPend)).getD []).filter (·.reg == n)
  let p := s.kChoice c es
  let s := p.2.kSaw c (es.take p.1)
  match es.drop p.1 with
  | k :: _ => (k.old, s)
  | [] => (s.getK c.crew n, s)

def State.seenK64 (s : State) (c : Cohort) (n : Nat) : Dword × State :=
  let (lo, s) := s.seenK c n
  let (hi, s) := s.seenK c (n + 1)
  (pairOf lo hi, s)

/-- Writes of a crew's k registers become visible to all (R85, R129): every one that is written at a barrier, and at a fence those of its threads
with those before them. DESIGN CHOICE, log 49: a completed barrier shows every cohort the written k writes of cohorts that did not arrive at it too, for
which R129 leaves the old or the new value. -/
def State.settleK (s : State) (crew : Nat) (cohort : Option Cohort) : State :=
  s.modCrew crew fun w => { w with kPend := match cohort with
    | none => w.kPend.filter (·.ready > s.clock)
    | some c => w.kPend.filter fun k => !(w.kPend.reverse.dropWhile fun e => !(e.reg == k.reg && e.ours c)).contains k }

/-- Whether a k write of a cohort is not written yet, for which its fence waits (R279). -/
def State.kUnwritten (s : State) (c : Cohort) : Bool :=
  (s.crews.find c.crew).any fun w => w.kPend.any fun k => k.ours c && k.ready > s.clock

/-! ## Source modifiers and sign bits (R26, R36) -/

/-- SourceLane (R36). -/
def sourceLane (m : Modifier) (l : Nat) : Nat :=
  let seg := 2 ^ m.seg.toNat
  let base := l - l % seg
  match m.cls with
  | .identity => l
  | .rotate => base + (l - base + m.dist.toNat) % seg
  | .butterfly => Nat.xor l m.dist.toNat
  | .broadcast => base + m.dist.toNat

/-- ReadModified (R36) of a thread's value. -/
def readModified (c : Cohort) (m : Modifier) (l : Lane) (x : Lane → Nat) : Nat :=
  match c.lanes.find? fun r => r.pos == sourceLane m l.pos with
  | some r => x r
  | none => if m.own then x l else 0

/-- The element widths of a type, low element first. -/
def elemsOf : Ty → List Nat
  | .u32 | .s32 | .f32 | .lg6 => [32]
  | .u64 | .s64 | .f64 => [64]
  | .u16x2 | .s16x2 | .bf16x2 | .f16x2 => [16, 16]
  | .u8x4 => [8, 8, 8, 8]
  | .f16 | .bf16 | .u16 | .s16 => [16]

/-- The binary format of a type's elements. -/
def fmtOf : Ty → Fmt
  | .f64 => f64
  | .f16x2 | .f16 => f16
  | .bf16x2 | .bf16 => bf16
  | _ => f32

/-- Absolute value, negation and flush of one element (R26, R55). -/
def prepElem (float : Bool) (F : Fmt) (n : Nat) (abs neg ftz : Bool) (v : Nat) : Nat :=
  if float then
    let sign := 2 ^ (n - 1)
    let v := if abs then v % sign else v
    let v := if neg then (if v ≥ sign then v - sign else v + sign) else v
    if ftz then F.flush v else v
  else
    let v := if abs && v ≥ 2 ^ (n - 1) then 2 ^ n - v else v
    if neg then (2 ^ n - v) % 2 ^ n else v

/-- A prepared operand (R26): each element in its place, bits above the elements as they are read. -/
def prepare (t : Ty) (abs neg ftz : Bool) (v : Nat) : Nat :=
  match elemsOf t with
  | [n, k] => prepElem t.isFloat (fmtOf t) n abs neg ftz (v % 2 ^ n) + 2 ^ n * prepElem t.isFloat (fmtOf t) k abs neg ftz (v / 2 ^ n % 2 ^ k)
  | [n] => v / 2 ^ n * 2 ^ n + prepElem t.isFloat (fmtOf t) n abs neg ftz (v % 2 ^ n)
  | _ => v

/-- The 64-bit form of an immediate (R28): zero- or sign-extended, or a binary32 value converted exactly. -/
def imm64 (t : Ty) (v : Word) : Nat :=
  match t with
  | .s64 => (v.signExtend 64).toNat
  | .f64 => f64.round (f32.value v.toNat) .rn false
  | _ => v.toNat

/-! ## Conduits (R89 to R91) -/

def Crew.conduit (w : Crew) (n : Nat) : Option Conduit := w.conduits[n]?

/-- Room of a conduit, counting the reserve row while it is in use (R93, R98). -/
def Conduit.room (q : Conduit) : Nat := q.cap + (if q.reserve then 32 else 0) - q.fifo.length

/-- The pops of an instruction, in order a, b, c: conduit and entries a lane. -/
def aluPops (o : AluOp) (x : Alu) : List (Nat × Nat) :=
  let sh := o.shape x.sub.toNat x.ty
  let one (sp : OpSpec) (r : Reg) : List (Nat × Nat) :=
    if r.file == .q && (sp.span == .one || sp.span == .pair) && o != .qstat then
      [(r.num.toNat, if sp.span == .pair then 2 else 1)] else []
  one sh.a x.a.reg ++ (match x.b with | .src b => one sh.b b.reg | .imm _ => []) ++ one sh.c x.c.reg

/-- The push of an instruction. -/
def aluPushes (o : AluOp) (x : Alu) : List (Nat × Nat) :=
  let sp := (o.shape x.sub.toNat x.ty).d
  if x.d.file == .q && (sp.span == .one || sp.span == .pair) then
    [(x.d.num.toNat, if sp.span == .pair then 2 else 1)] else []

/-- Entries an instruction takes of a conduit, or pushes, for m lanes. -/
def entriesOn (l : List (Nat × Nat)) (q m : Nat) : Nat := ((l.filter (·.1 == q)).map fun e => m * e.2).sum

/-- Whether the conditions of R90 hold for m lanes: written entries for every pop, and free room for every push, which is
counted before the pops. -/
def Crew.conduitsReady (w : Crew) (now m : Nat) (pops pushes : List (Nat × Nat)) : Bool :=
  (pops.all fun e => (w.conduit e.1).any fun q =>
    ((q.fifo.take (entriesOn pops e.1 m)).length == entriesOn pops e.1 m) &&
      (q.fifo.take (entriesOn pops e.1 m)).all (·.2 ≤ now)) &&
  pushes.all fun e => (w.conduit e.1).any fun q => entriesOn pushes e.1 m ≤ q.room

/-- Take entries of a conduit in FIFO order; the reserve row returns when the occupancy reaches 0 (R93), which it does not where the same instruction
has reserved room there for its push (R91): `keep` lists the conduits it pushes to. -/
def State.popQ (s : State) (keep : List Nat) (crew q n : Nat) : List Word × State :=
  match (s.crews.find crew).bind (·.conduit q) with
  | none => ([], s)
  | some cd =>
    let rest := cd.fifo.drop n
    ((cd.fifo.take n).map (·.1), s.modCrew crew fun w =>
      { w with conduits := w.conduits.set q { cd with fifo := rest, reserve := cd.reserve && (keep.contains q || !rest.isEmpty) } })

/-- Push entries whose results are written at a clock (R90, R91). -/
def State.pushQ (s : State) (crew q : Nat) (ws : List Word) (ready : Nat) : State :=
  s.modCrew crew fun w => match w.conduit q with
    | none => w
    | some cd => { w with conduits := w.conduits.set q { cd with fifo := cd.fifo ++ ws.map (·, ready) } }

/-- The value a list of popped words gives the i-th executing lane, low word first. -/
def nthPopped (ws : List Word) (wide : Bool) (i : Nat) : Nat :=
  if wide then (ws.getD (2 * i) 0).toNat + 2 ^ 32 * (ws.getD (2 * i + 1) 0).toNat else (ws.getD i 0).toNat

/-! ## Reading a source -/

/-- A lane's own register value, wide or not. -/
def State.laneVal (s : State) (c : Cohort) (n : Nat) (wide : Bool) (l : Lane) : Nat :=
  if wide then (s.seenV c l.tid n).toNat + 2 ^ 32 * (s.seenV c l.tid (n + 1)).toNat else (s.seenV c l.tid n).toNat

/-- The prepared values of a source in the executing lanes, in lane order (R24, R26, R36). -/
def State.readSrc (s : State) (keep : List Nat) (c : Cohort) (lanes : List Lane) (sp : OpSpec) (t : Ty) (ftz : Bool) (x : Src) :
    List Nat × State :=
  let wide := sp.span == .pair
  -- a 32-bit operand of a 64-bit type is prepared as 32 bits (R130, R136, R138)
  let t := if sp.span == .one && t.is64 then .s32 else t
  match sp.span with
  | .absent => (lanes.map fun _ => 0, s)
  | .pred => (lanes.map fun l => (s.seenP c l.tid (x.reg.num.toNat % 8)).toNat, s)
  | _ =>
    match x.reg.file with
    | .v => (lanes.map fun l => prepare t x.abs x.neg ftz
        (readModified c x.mod l (s.laneVal c x.reg.num.toNat wide)), s)
    | .k =>
      if wide then let (v, s) := s.seenK64 c x.reg.num.toNat; (lanes.map fun _ => prepare t x.abs x.neg ftz v.toNat, s)
      else let (v, s) := s.seenK c x.reg.num.toNat; (lanes.map fun _ => prepare t x.abs x.neg ftz v.toNat, s)
    | .q =>
      let (ws, s) := s.popQ keep c.crew x.reg.num.toNat (lanes.length * if wide then 2 else 1)
      ((List.range lanes.length).map fun i => prepare t x.abs x.neg ftz (nthPopped ws wide i), s)

/-- Operand b (R28): a source, or the immediate, which format I gives no modifier and no sign bits. -/
def State.readB (s : State) (keep : List Nat) (c : Cohort) (lanes : List Lane) (sp : OpSpec) (t : Ty) (ftz : Bool) (b : SrcB) :
    List Nat × State :=
  match b with
  | .src x => s.readSrc keep c lanes sp t ftz x
  | .imm v => (lanes.map fun _ => if sp.span == .pair then imm64 t v else v.toNat, s)

/-! ## Writing a result -/

/-- Record a fixed-latency result (R44, R46), or, with latency 0, one that the scoreboard tracks (R45): it is written at once, but in a crew register
after the earlier writes of it by the cohort, and by its threads in other cohorts, the last of them at `least`. DESIGN CHOICE, log 49: only the writing
waits behind an earlier write of longer latency (R46); the instruction issues, and a reader between issue + L and that clock meets the value before
both, as one that comes too early (R47). -/
def State.pendWrite (s : State) (cid : Nat) (f : RegFile) (key old lat least : Nat) : State :=
  s.modCohort cid fun c =>
    let before := (c.pend.filter fun p => p.file == f && p.key == key).foldl (fun m p => max m p.ready) least
    if lat == 0 && !(f == .k && before > s.clock) then { c with pend := c.pend.filter fun p => !(p.file == f && p.key == key) }
    else { c with pend := (c.pend.filter (·.ready > s.clock)) ++ [⟨f, key, old, max (s.clock + lat) before, lat == 0⟩] }

def State.putV (s : State) (cid tid n : Nat) (w : Word) (lat : Nat) : State :=
  (s.pendWrite cid .v (vKey tid n) (s.getV tid n).toNat lat 0).setV tid n w

def State.putP (s : State) (cid tid n : Nat) (b : Bool) (lat : Nat) : State :=
  (s.pendWrite cid .p (pKey tid n) (s.getP tid n).toNat lat 0).setP tid n b

/-- A write of a crew register takes its place in the order of results, of one clock by port (R129): what follows it sees its value before
itself. The second component says that it is the last. DESIGN CHOICE, log 49: of two results of one port and one clock, of which R129 does not say,
that of the later issue remains. -/
def placeK (k : KPend) (w : Word) : List KPend → List KPend × Bool
  | [] => ([k], true)
  | e :: es =>
    if e.reg == k.reg && (e.ready > k.ready || (e.ready == k.ready && e.port > k.port)) then
      ({ k with old := e.old } :: { e with old := w } :: es, false)
    else
      let (es, b) := placeK k w es
      (e :: es, b)

/-- A crew register written by a cohort (R46, R129): other cohorts may see the value before until they are ordered after it. -/
def State.putK (s : State) (cid crew n : Nat) (w : Word) (lat : Nat) : State :=
  let old := s.getK crew n
  let c := s.cohorts.find cid
  let before := ((((s.crews.find crew).map (·.kPend)).getD []).filter fun k => k.reg == n && (k.cohort == cid || c.any k.ours)).foldl
    (fun m k => max m k.ready) 0
  let s := s.pendWrite cid .k (kKey crew n) old.toNat lat before
  match s.crews.find crew with
  | none => s.setK crew n w
  | some r =>
    let writers := (c.map fun c => c.lanes.map (·.tid)).getD []
    let (es, last) := placeK ⟨n, old, cid, writers, (c.map (·.port)).getD 0, max (s.clock + lat) before, []⟩ w r.kPend
    let s := s.modCrew crew fun r => { r with kPend := es }
    if last then s.setK crew n w else s

/-- A value into a lane register or pair. -/
def State.putLane (s : State) (cid tid n : Nat) (wide : Bool) (v lat : Nat) : State :=
  let s := s.putV cid tid n (BitVec.ofNat 32 v) lat
  if wide then s.putV cid tid (n + 1) (BitVec.ofNat 32 (v / 2 ^ 32)) lat else s

/-- A value into a crew register or pair. -/
def State.putCrew (s : State) (cid crew n : Nat) (wide : Bool) (v lat : Nat) : State :=
  let s := s.putK cid crew n (BitVec.ofNat 32 v) lat
  if wide then s.putK cid crew (n + 1) (BitVec.ofNat 32 (v / 2 ^ 32)) lat else s

/-- The words a lane pushes. -/
def pushWords (wide : Bool) (v : Nat) : List Word :=
  if wide then [BitVec.ofNat 32 v, BitVec.ofNat 32 (v / 2 ^ 32)] else [BitVec.ofNat 32 v]

/-- Write the results of the executing lanes (R22, R24): each lane's register or predicate, the crew register from the
lowest lane, or one push in lane order. -/
def State.writeDst (s : State) (c : Cohort) (sp : OpSpec) (d : Reg) (lat : Nat) (res : List (Lane × Nat)) : State :=
  let wide := sp.span == .pair
  match sp.span with
  | .absent => s
  | .pred => res.foldl (init := s) fun s r => s.putP c.id r.1.tid (d.num.toNat % 8) (r.2 % 2 == 1) lat
  | _ =>
    match d.file with
    | .v => res.foldl (init := s) fun s r => s.putLane c.id r.1.tid d.num.toNat wide r.2 lat
    | .k =>
      match res with
      | [] => s
      | r :: _ => s.putCrew c.id c.crew d.num.toNat wide r.2 lat
    | .q =>
      let s := s.pushQ c.crew d.num.toNat (res.flatMap fun r => pushWords wide r.2) (s.clock + lat)
      s.modCohort c.id fun k => { k with pushed := max k.pushed (s.clock + lat) }

/-! ## The checks at issue (R47, R116, R117) -/

/-- The lane and predicate registers among uses: (is a predicate, number). -/
def vpRegs (us : List RegUse) : List (Bool × Nat) :=
  us.flatMap fun u => match u.file with
    | none => if u.num == 7 then [] else [(true, u.num)]
    | some .v => (List.range u.n).map fun i => (false, u.num + i)
    | _ => []

def kRegs (us : List RegUse) : List Nat :=
  us.flatMap fun u => if u.file == some .k then (List.range u.n).map (u.num + ·) else []

/-- Whether an operand is a fixed-latency result read too early (R47). DESIGN CHOICE, log 49: a lane that is present counts, be it active or not, as soon
as some lane is active: R47 says "an instruction with at least one active lane" and does not say whose results count. -/
def State.tooEarly (s : State) (c : Cohort) (us : List RegUse) : Bool :=
  c.pend.any fun p => p.ready > s.clock && !p.tracked && match p.file with
    | .v => (vpRegs us).contains (false, p.key % 256) && c.lanes.any fun l => l.tid == p.key / 256
    | .p => (vpRegs us).contains (true, p.key % 8) && c.lanes.any fun l => l.tid == p.key / 8
    | .k => (kRegs us).contains (p.key % 64)

/-- STALLSHORT (R47): the checker is on and an active lane would read too early. -/
def State.stallShort (s : State) (c : Cohort) (i : Instr) : Bool :=
  c.snap.chkStall[0] && !c.active.isEmpty && s.tooEarly c i.reads

/-- Whether the instruction breaks the discipline the checker sees (R117): a destination read before, or now. -/
def Cohort.breaks (c : Cohort) (i : Instr) : Bool :=
  !c.irr && (vpRegs i.writes).any fun r => c.readSet.contains r || (vpRegs i.reads).contains r

/-- The read set, and the registers written after a read, once an instruction has issued (R117). -/
def Cohort.noteRegs (c : Cohort) (i : Instr) (wrote : Bool) : Cohort :=
  if c.irr then c
  else
    let rs := (c.readSet ++ vpRegs i.reads).eraseDups
    { c with readSet := rs
             broken := if wrote then (c.broken ++ (vpRegs i.writes).filter rs.contains).eraseDups else c.broken }

/-- Issue an instruction that executes lane by lane: STALLSHORT and IDEMWRITE first (R49), then `f` on the executing lanes,
then the read set, the pc and the spacing (R43). -/
def State.issue (s : State) (c : Cohort) (i : Instr) (p : Pred) (stall : BitVec 4)
    (f : State → List Lane → State) : State :=
  if s.stallShort c i then s.raiseIn c c.active .stallshort c.offset fun _ => 0
  else
    let lanes := s.execLanes c p
    let s :=
      if c.snap.chkIdem[0] && c.breaks i && !lanes.isEmpty then s.raiseIn c lanes .idemwrite c.offset fun _ => 0
      else f s lanes
    (s.modCohort c.id fun k => k.noteRegs i (!lanes.isEmpty)).advance c.id stall

/-! ## The arithmetic mould -/

/-- The latency class of R44, in clocks; 0 is variable (R45). -/
def baseLat : AluOp → Nat
  | .imul | .imulh | .imad | .imadLong => 6
  | .dadd | .dmul | .dfma | .dmin | .dmax | .dset => 8
  | .fadd | .fmul | .ffma | .fmin | .fmax | .fset | .fclass | .frnd => 6
  | .hadd2 | .hmul2 | .hfma2 | .hmin2 | .hmax2 | .hset2 => 6
  | .cvt | .pack | .l6pack | .l6unpk | .w4unpk => 6
  | .frcp | .frsq | .fex2 | .flg2 | .fsinp | .fcosp | .drcp | .drsq => 0
  | .shfl | .vote | .matchv | .compact | .scan | .redux => 0
  | _ => 4

/-- The latency of an instruction: one clock more with a source modifier; a popped source makes it variable (R44, R45). -/
def aluLat (o : AluOp) (x : Alu) : Nat :=
  let mods := x.a.mod != Modifier.none || x.c.mod != Modifier.none ||
    (match x.b with | .src b => b.mod != Modifier.none | .imm _ => false)
  if baseLat o == 0 || !(aluPops o x).isEmpty then 0 else baseLat o + if mods then 1 else 0

/-- An executing lane with its prepared operands and the predicate that sub names (R133, R143). -/
structure ExLane where
  lane : Lane
  a    : Nat
  b    : Nat
  c    : Nat
  p    : Bool
  deriving DecidableEq, Repr

/-- The result of a lane: the destination's value, and a predicate written beside it (R133). -/
structure Out where
  d : Nat
  p : Option Bool
  deriving DecidableEq, Repr

/-- The type by which sources are prepared (R26): the source's in CVT, the source width's in PACK, FP32 in L6PACK. -/
def srcTy (o : AluOp) (x : Alu) : Ty :=
  match o with
  | .cvt => cvtSrc x.sub.toNat
  | .pack => if x.sub == 1 then .f64 else .f32
  | .l6pack | .l6unpk | .w4unpk => .u32
  | _ => x.ty

/-- Whether ftz flushes the sources as they are prepared (R55, R153, R162, R165): L6UNPK honours it on results only, CVT on a float source, and
L6PACK flushes its four inputs itself (R164). -/
def flushSrc (o : AluOp) (x : Alu) : Bool := x.ftz && (srcTy o x).isFloat

/-- Read the operands of the executing lanes in the order a, b, c (R90). -/
def State.operands (s : State) (c : Cohort) (o : AluOp) (x : Alu) (lanes : List Lane) : List ExLane × State :=
  let sh := o.shape x.sub.toNat x.ty
  let t := srcTy o x
  let z := flushSrc o x
  let keep := if lanes.isEmpty then [] else (aluPushes o x).map (·.1)
  let (as, s) := s.readSrc keep c lanes sh.a t z x.a
  let (bs, s) := s.readB keep c lanes sh.b t z x.b
  let (cs, s) := s.readSrc keep c lanes sh.c (if o == .imadLong then .u64 else t) z x.c
  ((lanes.zip (as.zip (bs.zip cs))).map fun e => ⟨e.1, e.2.1, e.2.2.1, e.2.2.2, s.seenP c e.1.tid x.sub.toNat⟩, s)

/-- Stall on a conduit (R90): the cohort keeps its context, and its stall's first clock. -/
def State.stallConduit (s : State) (c : Cohort) : State :=
  s.modCohort c.id fun k => match k.st with
    | .conduit _ => k
    | _ => { k with st := .conduit s.clock }

/-- Whether the conduit conditions of an instruction hold now (R90). -/
def State.conduitsOk (s : State) (c : Cohort) (o : AluOp) (x : Alu) : Bool :=
  match s.crews.find c.crew with
  | none => true
  | some w => w.conduitsReady s.clock (s.execLanes c x.pred).length (aluPops o x) (aluPushes o x)

/-- Issue an arithmetic instruction: stall on its conduits (R90), else read, compute on the executing lanes and write. -/
def State.issueAlu (s : State) (c : Cohort) (o : AluOp) (x : Alu) (f : List ExLane → List Out) : State :=
  if !s.conduitsOk c o x then s.stallConduit c
  else s.issue c (o.instr x) x.pred x.stall fun s lanes =>
    let (ex, s) := s.operands c o x lanes
    let out := f ex
    let s := s.writeDst c (o.shape x.sub.toNat x.ty).d x.d (aluLat o x) (lanes.zip (out.map (·.d)))
    (lanes.zip out).foldl (init := s) fun s r =>
      match r.2.p with
      | some b => s.putP c.id r.1.tid x.sub.toNat b (aluLat o x)
      | none => s

/-- Issue an arithmetic instruction that computes each lane by itself. -/
def State.issueLanes (s : State) (c : Cohort) (o : AluOp) (x : Alu) (f : ExLane → Nat) : State :=
  s.issueAlu c o x fun ex => ex.map fun e => ⟨f e, none⟩

end Sys2Proof.Machine
end

