-- ==== Sys2Proof/Machine/Access.lean ====
section
/-! DEFINITION. An access of a thread to global memory: its address (R219), what its translation reaches (R224 to R231), the causes that park
or end a thread (R232, R236, R355), the side log (R233), the quantum buffer (R263), and performing a memory effect
(R246, R260, R261). -/

namespace Sys2Proof.Machine

/-! ## Contexts and attribution -/

/-- The context of a crew. -/
def State.ctxOf (s : State) (crew : Nat) : Nat := ((s.crews.find crew).map (·.ctx)).getD 0
def State.privOf (s : State) (ctx : Nat) : Bool := ((s.ctxs.find ctx).map (·.privileged)).getD false

/-- Change a lane of a cohort. -/
def State.modLane (s : State) (cid tid : Nat) (f : Lane → Lane) : State :=
  s.modCohort cid fun c => { c with lanes := c.lanes.map fun l => if l.tid = tid then f l else l }

/-- A lane as the state now holds it. -/
def State.laneNow (s : State) (cid tid : Nat) : Option Lane := (s.cohorts.find cid).bind (·.laneOf tid)

/-- A memory effect of a lane with its attribution (R233, R243). -/
def State.memEff (s : State) (c : Cohort) (l : Lane) (va : Nat) (bytes : List Byte) (kind : EffKind) (x : Mem) : MemEff :=
  ⟨s.ctxOf c.crew, c.crew, l.tid, c.traceId, c.offset, va, bytes, kind, x.order, x.scope, x.use⟩

/-! ## The address (R219) -/

/-- The sign of off24. -/
def offOf (off : BitVec 24) : Int := intOf off.toNat 24 true

/-- The upper bits of window w (R218). -/
def SysRegs.win (r : SysRegs) (w : BitVec 2) : Word :=
  match w.toNat with
  | 0 => r.win0 | 1 => r.win1 | 2 => r.win2 | _ => r.win3

/-- EA (R219): none is ADDROVF. -/
def eaOf (r : SysRegs) (w : BitVec 2) (base : Dword) (off : BitVec 24) : Option Nat :=
  let low := (base.toNat : Int) + offOf off
  if low < 0 ∨ low ≥ 2 ^ 64 then none else some ((r.win w).toNat % 65536 * 2 ^ 64 + low.toNat)

/-- The bytes of a width (R174). -/
def widthBytes : Width → Nat
  | .u8 | .s8 => 1 | .u16 | .s16 => 2 | .b32 => 4 | .b64 => 8 | .b128 => 16

/-! ## Translation (R224, R227, R355) -/

/-- What an access reaches: a key of memory with the leaf and its unit; a recoverable PAGE (a page not mapped, or a
retired one, R361); a write-held page; a copy-on-write page; PROT; a damaged entry; or a page table that is not to be read now (R240). -/
inductive Reach
  | go (key : Nat) (pte : Dword) (unit : Nat)
  | page (unit : Option Nat)
  | held (unit : Nat)
  | cow (unit : Nat)
  | prot
  | damaged (sec : Nat)
  | busy
  deriving DecidableEq, Repr

/-- The kind and watch fields of a leaf (R222). -/
def pteKind (pte : Dword) : Nat := bits pte.toNat 12 4
def pteWatch (pte : Dword) : Bool := pte[10]

/-- A translation as an access takes it. -/
def State.reachOf (s : State) (r : Tr) : Reach :=
  match r with
  | .ok k pte _ units =>
    let u := units.headD 0
    if k < hbmEnd && s.pkg.retireList.contains (k / 2 ^ 16) then .page (some u) else .go k pte u
  | .page u => .page (some u)
  | .prot => .prot
  | .held u => .held u
  | .cow u => .cow u
  | .damaged sec => if s.pkg.retireList.contains (sec * 32 / 2 ^ 16) then .page none else .damaged sec
  | .busy | .ask _ => .busy

/-- A thread's access translated by its core's complex (R227). -/
def State.reach (s : State) (c : Cohort) (lane : Nat) (va : Nat) (acc : Acc) : Reach × State :=
  let ctx := s.ctxOf c.crew
  let (r, s) := s.translate (tcAgent c.core) ctx c.snap.ptroot (s.privOf ctx) va acc (some (lastPageSlot c.core c.port lane))
  (s.reachOf r, s)

/-! ## Consumption (R355, R356) -/

/-- A consumption by a lane: it stops or rolls back, waits for the decision, and the report goes to the Crown. -/
def State.consume (s : State) (c : Cohort) (l : Lane) (va sec : Nat) (f : Finder) : State :=
  match s.threads.find l.tid with
  | none => s
  | some t =>
    let r := s.recordOf (finderCause f) t c.core c.traceId c.offset va
    (s.park c l .retired (pageOf va) none).sendReport { s.reportOf sec f (some r.ctx) (some (clusterOf c.core)) r with thread := l.tid }

/-- The record of a thread's write, wherever the thread is by now. -/
def State.writeRec (s : State) (core : Nat) (e : MemEff) (cause : Cause) : FaultRec :=
  match s.threads.find e.thread with
  | some t => s.recordOf cause t core e.traceId e.offset e.va
  | none => { FaultRec.of cause e.ctx with traceId := e.traceId, offset := e.offset, core := core, addr := e.va }

/-- A walk for an effect that is past its instruction reads a poisoned entry: a consumption (R355), once for a decision, behind which the effect
waits. -/
def State.consumeWalk (s : State) (r : FaultRec) (tid : Nat) (cluster : Option Nat) (sec : Nat) : State :=
  if s.undecided (32 * sec) 32 then s
  else
    let f := (s.poisonAt sec).getD .hbm
    s.sendReport { s.reportOf sec f (some r.ctx) cluster { r with cause := finderCause f } with thread := tid }

/-- A consumption by the lanes of one read (R266): each stops, and the report is the lowest's. -/
def State.consumeAll (s : State) (c : Cohort) (lanes : List Lane) (va sec : Nat) (f : Finder) : State :=
  match lanes with
  | [] => s
  | low :: rest => (rest.foldl (fun s l => s.park c l .retired (pageOf va) (some sec)) s).consume c low va sec f

/-! ## Where an access that does not reach memory leaves its thread (R232, R236, R238, R360) -/

/-- A lane whose access holds its own thread: one that meets a write-held page does so as one that meets PAGE (R232, R238). One whose page table cannot be
read now comes back silently, as for a full side log; its instruction has waited for that already. -/
def State.holdThread (s : State) (c : Cohort) (l : Lane) (va : Nat) (r : Reach) : State :=
  match r with
  | .go _ _ _ => s
  | .page u => s.parkPage c l va u
  | .held u => s.parkPage c l va (some u)
  | .cow u => (s.park c l .cow (pageOf va) (some u)).urge (.hw (.cowCopy (s.ctxOf c.crew) (pageOf va)))
  | .prot => s.raiseIn c [l] .prot c.offset fun _ => va
  | .damaged sec => s.consume c l va sec ((s.poisonAt sec).getD .hbm)
  | .busy => s.park c l .room (pageOf va) none

/-! ## The side log (R233, R234) -/

/-- Whether a thread has side-log entries for a page. -/
def State.logsPage (s : State) (tid va : Nat) : Bool := (s.logOf tid).any fun e => pageOf e.eff.va == pageOf va

/-- Whether a record of a page and core is not resolved yet, or about to be written. -/
def State.recordOpen (s : State) (ctx core page : Nat) : Bool :=
  let due (t : Turn) : Bool := match t with
    | .hw (.faultRecordWrite r) => r.recov && r.ctx == ctx && r.core == core && pageOf r.addr == page
    | _ => false
  (s.ctxs.find ctx).any (fun x => x.records.any (fun r => r.core == core && r.page == page) ||
    x.waiting.any (fun r => r.core == core && pageOf r.addr == page)) || s.agenda.any due || s.later.any due

/-- Enter the side log (R233); one record is written for a page and core while entries of the page stay there and it is open. -/
def State.log (s : State) (core : Nat) (e : MemEff) (unit : Option Nat) (held record : Bool) : State :=
  let first := !s.eng.sideLog.any fun f => f.core == core && f.eff.ctx == e.ctx && pageOf f.eff.va == pageOf e.va
  let s := s.modEng fun g => { g with sideLog := g.sideLog ++ [⟨core, e, unit, held⟩] }
  if !record || (!first && s.recordOpen e.ctx core (pageOf e.va)) then s
  else match s.threads.find e.thread with
    | none => s
    | some t =>
      s.report { s.recordOf .page t core e.traceId e.offset e.va with recov := true, sideLog := true }

/-- Enter the side log behind the thread's entries of the page (R233), held as they are (R238). -/
def State.logBehind (s : State) (core : Nat) (e : MemEff) : State :=
  match (s.logOf e.thread).find? fun g => pageOf g.eff.va == pageOf e.va with
  | some g => s.log core e g.unit g.held !g.held
  | none => s.log core e none false true

/-! ## Waiting (R234, R240, R270, R379) -/

/-- Whether a thread has a remote write without its answer, for which a condition holds. -/
def State.unanswered (s : State) (tid : Nat) (p : Remote → Bool) : Bool :=
  s.coh.remote.any fun e => e.2.thread == tid && (e.2.eff.any fun f => f.kind != .nothing) && p e.2

/-- Writes that have been performed are relied on no longer. -/
def State.settleRelies (s : State) : State :=
  if s.coh.rely.isEmpty && s.threads.vals.all (·.relies.isEmpty) then s
  else
    let live (l : List (Nat × Nat)) : List (Nat × Nat) := l.filter s.underWay
    { s.modCoh (fun c => { c with rely := (c.rely.map fun e => (e.1, live e.2)).filter fun e => !e.2.isEmpty }) with
      threads := s.threads.map fun (e : Nat × Thread) => (e.1, { e.2 with relies := live e.2.relies }) }

/-- Whether the second half of an atomic of a thread is still to be performed (R261). -/
def State.halfDue (s : State) (tid : Nat) : Bool := s.coh.halves.any (·.thread == tid)

/-- Whether a release of a thread must still wait (R234, R270, R273): it has side-log or quantum entries, messages without their answer, or a write
that is held for a decision (R354), or relies on writes of others that are under way. -/
def State.releaseWaits (s : State) (tid : Nat) : Bool :=
  !(s.logOf tid).isEmpty || s.eng.quantum.any (·.eff.thread == tid) || (s.coh.remote.any fun e => e.2.thread == tid) || s.halfDue tid ||
    (s.coh.dieWrites.any fun w => w.thread == tid && (s.undecided w.pa w.bytes.length || s.pkg.retireList.contains (w.pa / 2 ^ 16))) ||
    !(s.reliesOf tid).isEmpty

/-- Orders with a release, and with an acquire (R270). -/
def releases : Order → Bool
  | .rel | .ar | .sc => true | _ => false
def acquires : Order → Bool
  | .acq | .ar | .sc => true | _ => false

/-- A scope that reaches beyond the die (R267). -/
def wideScope : Scope → Bool
  | .dev | .sys => true | _ => false

/-! ## Performing an effect (R237, R246, R260, R263, R376, R379) -/

/-- Whether a store is to be performed at device scope at once: a release of such a scope (R276), or a speculative update. -/
def MemEff.deviceWide (e : MemEff) : Bool := (releases e.order && wideScope e.scope) || e.use == .spec

/-- Perform a store or an atomic at its home, or a store on its die (R246, R259, R260); the caller has checked it. A failed compare takes
every token (R264). -/
def State.doEff (s : State) (core : Nat) (e : MemEff) (key : Nat) (watch : Bool) : State :=
  let n := e.bytes.length
  let w := Writer.ctx e.ctx
  match e.kind with
  | .nothing => (sectorsOf key n).foldl (fun s sec => s.gather sec (l1Agent core)) (s.firstInLine key n)
  | .store => (if e.deviceWide then s.perform key e.bytes w watch else s.performOnDie core e key watch).noteWrite e.thread key n
  | .atom op cls =>
    if cls == 3 && n == 4 then let (req, s) := s.newReq; (s.performPair req e.thread key (natOf e.bytes) w (some (core, e)) none watch).noteWrite e.thread key n
    else (s.performAtom key n op cls.toNat (natOf e.bytes) w watch).noteWrite e.thread key n

/-- Whether a peer access may be performed (R379). -/
def State.peerOk (s : State) (key : Nat) : Bool :=
  let pa := key - peerKey
  (s.pkg.peers.find (pa / 2 ^ 44)).any fun p => !p.lost && pa % 2 ^ 44 < hbmEnd

/-- Perform an effect wherever its page lies: at its home, at the host, or at a peer. -/
def State.sendEff (s : State) (core : Nat) (e : MemEff) (key : Nat) (watch : Bool) : State :=
  if s.remoteKey key then (if e.kind == .nothing then s else s.sendWrite (tcAgent core) e key watch)
  else s.doEff core e key watch

/-- Flush a core's quantum buffer (R263), in buffer order; an entry whose page is under a bias flip, or whose bytes a commit holds, waits at
its home. -/
def State.flushQuantum (s : State) (core : Nat) : State :=
  s.applyEntries (s.eng.quantum.filter fun q => q.core == core && !s.stalled q.eff.thread q.pa q.eff.bytes.length)

/-- The release condition of R270 and R273 at a scope, its waits (`State.releaseWaits`) being over: what some die has performed may have been read,
and becomes device-performed. -/
def State.releaseFlush (s : State) (core : Nat) (scope : Scope) : State :=
  let s := (s.flushQuantum core).flushHalves fun _ => true
  if wideScope scope then s.flushDies fun _ => true else s

/-- FENCE.SC's part (R277): every write that some die has performed becomes device-performed, so that no later load returns an
older value than its owner held. -/
def State.scFlush (s : State) : State := s.flushDies fun _ => true

/-- What an access or fence of an order does before it, its waits being over. -/
def State.orderFlush (s : State) (core : Nat) (order : Order) (scope : Scope) : State :=
  let s := if releases order then s.releaseFlush core scope else s
  if order == .sc then s.scFlush else s

/-- A quantum update (R263): one entry a lane, flushed when the buffer becomes full. -/
def State.pushQuantum (s : State) (core : Nat) (e : MemEff) (key : Nat) (watch : Bool) : State :=
  let s := s.modEng fun g => { g with quantum := g.quantum ++ [⟨core, e, key, watch⟩] }
  if (s.eng.quantum.filter (·.core == core)).length ≥ 64 then s.flushQuantum core else s

/-! ## What a lane's load sees (R105, R246) -/

/-- A byte at a virtual address behind a lane's buffered effects, youngest first: a store's byte, an atomic's updated
value, else what lies below. -/
def fwdByte (below : Nat → Byte) : List Effect → Nat → Byte
  | [], a => below a
  | .mem e _ _ :: older, a =>
    if e.va ≤ a && a < e.va + e.bytes.length then
      match e.kind with
      | .store => e.bytes.getD (a - e.va) 0
      | .atom op cls =>
        let n := e.bytes.length
        let old := natOf ((List.range n).map fun i => fwdByte below older (e.va + i))
        (bytesOf n (atomOp op cls.toNat n old (natOf e.bytes))).getD (a - e.va) 0
      | .nothing => fwdByte below older a
    else fwdByte below older a
  | _ :: older, a => fwdByte below older a

/-- Whether a byte is supplied by buffered effects, youngest first, without memory: an atomic supplies it where older effects supply its word. -/
def suppliedByte : List Effect → Nat → Bool
  | [], _ => false
  | .mem e _ _ :: older, a =>
    if e.va ≤ a && a < e.va + e.bytes.length then
      match e.kind with
      | .store => true
      | .atom _ _ => (List.range e.bytes.length).all fun i => suppliedByte older (e.va + i)
      | .nothing => suppliedByte older a
    else suppliedByte older a
  | _ :: older, a => suppliedByte older a

/-- Whether every byte of a range is supplied by buffered effects, so that memory is not read. -/
def coveredByStores (buf : List Effect) (va n : Nat) : Bool := (List.range n).all fun i => suppliedByte buf.reverse (va + i)

/-- A byte of memory as an agent of a die reads it: the host's copy of a sector that the L2 holds for it (R254), else the die's view. -/
def State.seenByte (s : State) (die a : Nat) : Byte :=
  if s.viaHost a then ((s.coh.hostHeld.find (sectorOf a)).bind fun bs => bs[a % 32]?).getD 0 else s.viewByte die a

/-- The bytes a lane loads at a key (R105, R246). -/
def State.loadBytes (s : State) (core : Nat) (buf : List Effect) (va key n : Nat) : List Byte :=
  (List.range n).map fun i =>
    fwdByte (fun a => s.seenByte (dieOf core) (key + a - va)) buf.reverse (va + i)

/-- A loaded value in its registers (R257): zero- or sign-extended to 32 bits, or the pair or quad. -/
def State.putLoad (s : State) (cid tid : Nat) (d : BitVec 8) (w : Width) (bs : List Byte) : State :=
  let v := natOf bs
  match w with
  | .s8 => s.putV cid tid d.toNat (BitVec.ofNat 32 (wrapInt (intOf v 8 true) 32)) 0
  | .s16 => s.putV cid tid d.toNat (BitVec.ofNat 32 (wrapInt (intOf v 16 true) 32)) 0
  | .u8 | .u16 | .b32 => s.putV cid tid d.toNat (BitVec.ofNat 32 v) 0
  | .b64 => s.putLane cid tid d.toNat true v 0
  | .b128 => (s.putLane cid tid d.toNat true v 0).putLane cid tid (d.toNat + 2) true (v / 2 ^ 64) 0

/-- The bytes of a source register, pair or quad (R259). -/
def State.srcBytes (s : State) (c : Cohort) (tid : Nat) (d : BitVec 8) (w : Width) : List Byte :=
  let r (i : Nat) : Nat := (s.seenV c tid (d.toNat + i)).toNat
  bytesOf (widthBytes w) (r 0 + (if w.regs ≥ 2 then 2 ^ 32 * r 1 else 0) +
    (if w.regs == 4 then 2 ^ 64 * r 2 + 2 ^ 96 * r 3 else 0))

end Sys2Proof.Machine
end

