-- ==== Sys2Proof/Machine/Global.lean ====
section
/-! DEFINITION. Loads, stores and atomics of global memory, and FENCE (R256 to R266, R279). -/

namespace Sys2Proof.Machine

/-! ## Addresses of the lanes, and waiting -/

/-- A lane's effective address (R219). -/
def State.laneEA (s : State) (c : Cohort) (x : Mem) (l : Lane) : Option Nat :=
  eaOf c.snap x.win (BitVec.ofNat 64 (s.laneVal c x.base.toNat true l)) x.off

/-- What a lane's access would find now, with no effect on the caches. -/
def State.peek (s : State) (c : Cohort) (va : Nat) (acc : Acc) : Tr :=
  s.walk (tcAgent c.core) c.snap.ptroot (s.privOf (s.ctxOf c.crew)) va acc

/-- A core's quantum entries in a sector are flushed before a load of it (R263). -/
def State.flushNamed (s : State) (core key n : Nat) : State :=
  if s.eng.quantum.any (fun q => q.core == core && (sectorsOf q.pa q.eff.bytes.length).any (sectorsOf key n).contains)
  then s.flushQuantum core else s

/-- Whether an access waits at its home before it is performed (R122, R240, R248, R354); one that reads may find damage under decision, and
consumes it. -/
def State.homeWaits (s : State) (agent tid k n : Nat) (acc : Acc) : Bool :=
  match acc with
  | .write => s.stalled tid k n
  | .both => s.barred tid k n || (!s.holder tid && s.queued (s.proxyOf tid) k n) || s.late (sectorsOf k n)
  | _ => s.readStalled agent tid k n

/-- Whether a thread has updates of some bytes in a quantum buffer. -/
def State.ownEntry (s : State) (tid key n : Nat) : Bool := s.eng.quantum.any fun q => q.eff.thread == tid && overlap key n q.pa q.eff.bytes.length

/-- Before some lanes' accesses: a core's quantum entries in the sectors that they read are flushed (R263), and so is the buffer of a thread that has
updates of the bytes that it writes (R281). -/
def State.flushFor (s : State) (c : Cohort) (x : Mem) (n : Nat) (acc : Acc) (lanes : List Lane) : State :=
  lanes.foldl (init := s) fun s l => match (s.laneEA c x l).map fun va => s.peek c va acc with
    | some (.ok k _ _ _) =>
      if acc != .write then s.flushNamed c.core k n else if c.irr && x.use != .qnt && s.ownEntry l.tid k n then s.flushQuantum c.core else s
    | _ => s

/-- Whether a lane's access of n bytes, through a cache of its core, must wait: its page table or its page is under a bias flip (R240), another thread's
commit holds its bytes (R122), it stands behind a request at the home (R347), or it reads bytes of which its thread has a write under way: a page on which
it has side-log entries (R234), or a write that is not performed (R246); a write too waits for the thread's quantum updates of its bytes (R281). A write
that its trace buffers waits for its page table only. -/
def State.laneWaitsAt (s : State) (agent : Nat) (c : Cohort) (x : Mem) (n : Nat) (acc : Acc) (l : Lane) : Bool :=
  match s.laneEA c x l with
  | none => false
  | some va =>
    (match s.peek c va acc with
      | .busy | .ask _ => true
      | .ok k _ _ _ =>
        (c.irr || acc != .write) && (s.homeWaits agent l.tid k n acc || (x.use != .qnt && s.ownEntry l.tid k n) ||
          (acc != .write && s.unanswered l.tid fun r => overlap k n r.pa r.size) ||
          (x.use == .spec && s.viaHost k && (s.coh.hostHeld.find (sectorOf k)).isNone))
      | _ => false) || (acc != .write && s.logsPage l.tid va)

/-- The same through the L1. -/
def State.laneWaits (s : State) (c : Cohort) (x : Mem) (n : Nat) (acc : Acc) (l : Lane) : Bool :=
  s.laneWaitsAt (l1Agent c.core) c x n acc l

/-- An instruction waits: what it needs of the host is asked for. -/
def State.holdFor (s : State) (c : Cohort) (x : Mem) (acc : Acc) (lanes : List Lane) : State :=
  let ask (s : State) (l : Lane) : State :=
    match (s.laneEA c x l).map fun va => s.peek c va acc with
    | some (.ask sec) => s.askHost (tcAgent c.core) sec
    | some (.ok k _ _ _) => if x.use == .spec && s.viaHost k then s.askHost (tcAgent c.core) (sectorOf k) else s
    | _ => s
  (lanes.foldl ask s).hold c.id

/-- Whether the executing lanes' release must wait (R234, R270). -/
def State.lanesReleaseWait (s : State) (lanes : List Lane) : Bool := lanes.any fun l => s.releaseWaits l.tid

/-- Whether an access of an order must wait as a FENCE before it would (R129, R270, R277). -/
def State.orderWaits (s : State) (c : Cohort) (order : Order) (lanes : List Lane) : Bool :=
  s.lanesReleaseWait lanes || (order == .sc && s.kUnwritten c)

/-- What an access of an order does before it (R129, R270, R277): one of order .SC behaves as FENCE.SC first. -/
def State.fenceFirst (s : State) (c : Cohort) (order : Order) (scope : Scope) : State :=
  let s := s.orderFlush c.core order scope
  if order == .sc then s.settleK c.crew (some c) else s

/-- Find a lane's address, or raise ADDROVF or MISALIGN (R219, R256, R49). -/
def State.withEA (s : State) (c : Cohort) (x : Mem) (n : Nat) (l : Lane) (f : State → Nat → State) : State :=
  match s.laneEA c x l with
  | none => s.raiseIn c [l] .addrovf c.offset fun _ => 0
  | some va => if va % n != 0 then s.raiseIn c [l] .misalign c.offset fun _ => va else f s va

/-! ## Reads that leave the device (R254, R257, R376, R379) -/

/-- Whether a key is reached through the host and its sector is not in the L2. -/
def State.hostMiss (s : State) (key : Nat) : Bool := s.viaHost key && (s.coh.hostHeld.find (sectorOf key)).isNone

/-- Whether a read of a key has to be sent to the host or a peer. -/
def State.farRead (s : State) (key : Nat) : Bool := key ≥ peerKey || s.hostMiss key

/-- The other host lines of a host page's coherence unit are asked for with the one that is read (R376). -/
def State.askUnit (s : State) (agent key : Nat) : State :=
  if key ≥ peerKey then s
  else ((s.unitSecs (sectorOf key)).filter fun k => k % 2 == 0 && k / 2 != sectorOf key / 2 && (s.coh.hostHeld.find k).isNone).foldl (fun s k => s.askHost agent k) s

/-- The cohort waits for an answer. -/
def State.await (s : State) (cid id : Nat) : State := s.modCohort cid fun k => { k with waits := k.waits ++ [id] }

/-- A lane's load is sent (R257): the lanes of one instruction, whose messages are numbered from `first` on, that name one sector receive the
data of one fetch. An access no peer serves raises PROT (R379). -/
def State.readRemote (s : State) (c : Cohort) (first : Nat) (l : Lane) (va key : Nat) (e : MemEff) (d : BitVec 8) (w : Width) :
    State :=
  if key ≥ peerKey && !s.peerOk key then s.raiseIn c [l] .prot c.offset fun _ => va
  else
    let sec := sectorOf key
    let same (m : Nat × Remote) : Bool := first ≤ m.1 && m.2.cohort == c.id && sectorOf m.2.pa == sec && !m.2.gone &&
      (match m.2.dest with | .regs _ _ _ => true | _ => false)
    match s.coh.remote.find? same with
    | some m =>
      let join (r : Remote) : Remote := match r.dest with
        | .regs ls d w => { r with dest := .regs (ls ++ [(l.tid, va)]) d w }
        | _ => r
      s.modCoh fun k => { k with remote := k.remote.modify m.1 join }
    | none =>
      let (id, s) := s.sendRemote ⟨decide (key ≥ peerKey), some e, 32 * sec, 32, [], .regs [(l.tid, va)] d.toNat w, c.id, l.tid,
        tcAgent c.core, false, false, none⟩
      (s.askUnit (tcAgent c.core) key).await c.id id

/-- An atomic that returns a value is sent. -/
def State.atomRemote (s : State) (c : Cohort) (l : Lane) (va key : Nat) (e : MemEff) (n : Nat) (cmp : List Byte) (d : BitVec 8)
    (watch : Bool) : State :=
  if key ≥ peerKey && !s.peerOk key then s.raiseIn c [l] .prot c.offset fun _ => va
  else
    let (id, s) := s.sendRemote ⟨decide (key ≥ peerKey), some e, key, n, cmp,
      .regs [(l.tid, va)] d.toNat (if n == 8 then .b64 else .b32), c.id, l.tid, tcAgent c.core, watch, false, none⟩
    s.await c.id id

/-! ## LD and KLD -/

/-- The effective addresses of lanes that have an aligned one, with what their accesses reach, in lane order: every walk comes before the first access
is performed, so that the lanes that name one sector read it as one (R257). -/
def State.reachLanes (s : State) (c : Cohort) (x : Mem) (n : Nat) (acc : Acc) : List Lane → List (Nat × Reach) × State
  | [] => ([], s)
  | l :: ls =>
    match s.laneEA c x l with
    | none => State.reachLanes s c x n acc ls
    | some va =>
      if va % n != 0 then State.reachLanes s c x n acc ls
      else
        let (r, s) := s.reach c l.pos va acc
        let (rest, s) := State.reachLanes s c x n acc ls
        ((l.tid, r) :: rest, s)

/-- The home reads a lane's bytes, which come with a token of its cache where they are sound (R241, R245, R263). -/
def State.touchLoad (s : State) (c : Cohort) (n : Nat) (r : Reach) : State :=
  match r with
  | .go key _ _ =>
    let s := s.flushNamed c.core key n
    if s.farRead key then s
    else
      let s := s.readHome key n
      if (s.poisonedIn key n).isSome then s else s.grantL1 c.core key n
  | _ => s

/-- The halves of a thread's own .BF16X2 atomics in some bytes come first (R261). -/
def State.ownHalves (s : State) (tid key n : Nat) : State :=
  if s.coh.halves.any fun h => h.thread == tid && overlap key n h.pa 2 then s.flushHalves fun h => overlap key n h.pa 2 else s

/-- A lane of LD binds its value (R257); a load that its lane's buffered stores supply needs no page (R105). -/
def State.bindLoad (s : State) (c : Cohort) (first : Nat) (x : Mem) (l : Lane) (va : Nat) (r : Reach) : State :=
  let n := widthBytes x.width
  let buf := if c.irr then [] else l.buf
  match r with
  | .go key _ _ =>
    if s.farRead key then s.readRemote c first l va key (s.memEff c l va [] .nothing x) x.d x.width
    else match if coveredByStores buf va n then none else s.poisonedIn key n with
      | some (sec, f) => s.consume c l va sec f
      | none => (s.noteRead l.tid key n).putLoad c.id l.tid x.d x.width (s.loadBytes c.core buf va key n)
  | .page u =>
    if coveredByStores buf va n then s.putLoad c.id l.tid x.d x.width (s.loadBytes c.core buf va 0 n)
    else s.parkPage c l va u
  | r => s.holdThread c l va r

/-- The lanes of LD (R257): every lane translates, then the sectors are read, then every lane binds its value. -/
def State.loadLanes (s : State) (c : Cohort) (first : Nat) (x : Mem) (lanes : List Lane) : State :=
  let n := widthBytes x.width
  let (rs, s) := s.reachLanes c x n .read lanes
  let s := rs.foldl (fun s q => s.touchLoad c n q.2) s
  let s := rs.foldl (fun s q => match q.2 with | .go key _ _ => s.ownHalves q.1 key n | _ => s) s
  lanes.foldl (init := s) fun s l => s.withEA c x n l fun s va =>
    match rs.find? (·.1 == l.tid) with
    | some q => s.bindLoad c first x l va q.2
    | none => s

/-- The sectors that a splitting load's lanes name, in lane order (R258). -/
def State.splitSectors (s : State) (c : Cohort) (x : Mem) (lanes : List Lane) : List (Nat × Nat) :=
  lanes.filterMap fun l => match (s.laneEA c x l).map fun va => s.peek c va .read with
    | some (.ok k _ _ _) => some (sectorOf k, l.tid)
    | _ => none

/-- The groups after the first of a splitting load (R258): at most four groups by the order in which data are written, which the
memory decides; the lanes of one sector fall in one group, and those that the load does not write join the first. -/
def State.splitGroups (s : State) (named : List (Nat × Nat)) : List (List Nat) × State :=
  let secs := (named.map (·.1)).eraseDups
  let (picks, s) := secs.foldl (init := (([] : List (Nat × Nat)), s)) fun p sec =>
    let (r, s) := p.2.drawNat
    (p.1 ++ [(sec, r % 4)], s)
  let group (g : Nat) : List Nat :=
    (named.filter fun e => picks.any fun q => q.1 == e.1 && q.2 == g).map (·.2)
  ((([0, 1, 2, 3].map group).filter fun g => !g.isEmpty).drop 1, s)

/-- Free cohort contexts of a port, of 16. -/
def State.freeContexts (s : State) (core port : Nat) : Nat :=
  16 - (s.cohorts.vals.filter fun k => k.core == core && k.port == port).length

/-- The groups that leave their cohort (R258): a group that finds no free context stays merged with the group before it. -/
def mergeGroups (free : Nat) (gs : List (List Nat)) : List (List Nat) :=
  if free = 0 then []
  else gs.take (free - 1) ++ (if gs.length < free then [] else [(gs.drop (free - 1)).flatten])

def execLd (x : Mem) (s : State) : Host.Outcome State Fault Refusal :=
  onCohort s fun c s =>
    let lanes := s.execLanes c x.pred
    let s := s.flushFor c x (widthBytes x.width) .read lanes
    if lanes.any (s.laneWaits c x (widthBytes x.width) .read) then s.holdFor c x .read lanes
    else
      let s := if x.order == .sc && !lanes.isEmpty then s.flushQuantum c.core else s
      if x.order == .sc && !lanes.isEmpty && s.orderWaits c x.order lanes then s.hold c.id
      else
        let named := if x.split then s.splitSectors c x lanes else []
        let first := s.nextId
        let s := s.issue c (.ld x) x.pred x.stall fun s lanes =>
          let s := if x.order == .sc && !lanes.isEmpty then s.fenceFirst c .sc x.scope else s
          s.loadLanes c first x lanes
        let (gs, s) := s.splitGroups named
        (mergeGroups (s.freeContexts c.core c.port) gs).reverse.foldl (fun s g => s.urge (.hw (.ldSplitGroup c.id g))) s

/-- LD_SPLIT_GROUP (R44, R258): the lanes become a cohort of their own where a context of the port is free; it has seen the k registers that its
cohort wrote. A group that would take every lane stays where it is. -/
def execLdSplitGroup (cid : Nat) (lanes : List Nat) (s : State) : Host.Outcome State Fault Refusal :=
  .next <|
    match s.cohorts.find cid with
    | none => s
    | some c =>
      let part := c.lanes.filter fun l => lanes.contains l.tid
      let rest := c.lanes.filter fun l => !lanes.contains l.tid
      if s.freeContexts c.core c.port = 0 || part.isEmpty || rest.isEmpty then s
      else
        let mine := c.waits.filter fun w =>
          (Map.find s.coh.remote w).any fun (r : Remote) => match r.dest with
            | .regs ls _ _ => ls.any fun e => part.any (·.tid == e.1)
            | _ => part.any (·.tid == r.thread)
        let new : Cohort := { c with id := s.nextId, lanes := part, group := s.nextId, waits := mine }
        let left := c.waits.filter fun w => !new.waits.contains w
        let owner (m : Nat × Remote) : Nat × Remote := if new.waits.contains m.1 then (m.1, { m.2 with cohort := new.id }) else m
        let s := { s.modCoh (fun k => { k with remote := k.remote.map owner }) with nextId := s.nextId + 1 }
        let s := part.foldl (init := s) fun s l => s.modThread l.tid fun t => { t with place := .inCohort new.id }
        let knows (k : KPend) : KPend := if k.cohort == cid || k.seen.contains cid then { k with seen := new.id :: k.seen } else k
        let s := s.modCrew c.crew fun w => { w with kPend := w.kPend.map knows }
        (s.setCohort { c with lanes := rest, waits := left }).setCohort new

/-- KLD (R234, R266): one read through the instruction and descriptor cache for every executing lane, at the address of the lowest; behind it a lane
sees its own buffered effects (R105, log 21); a fault other than PAGE is raised in each and attributed to the lowest. -/
def State.kldLanes (s : State) (c : Cohort) (x : Mem) (low : Lane) (lanes : List Lane) : State :=
  let n := widthBytes x.width
  let bufOf (l : Lane) : List Effect := if c.irr then [] else l.buf
  match s.laneEA c x low with
  | none => s.raiseIn c lanes .addrovf c.offset fun _ => 0
  | some va =>
    if va % n != 0 then s.raiseIn c lanes .misalign c.offset fun _ => va
    else
      let first := s.nextId
      let (r, s) := s.reach c low.pos va .read
      match r with
      | .go key _ _ =>
        let s := s.flushNamed c.core key n
        if s.farRead key then
          lanes.foldl (fun s l => s.readRemote c first l va key (s.memEff c low va [] .nothing x) x.d x.width) s
        else
          let s := lanes.foldl (fun s l => s.ownHalves l.tid key n) (s.readHome key n)
          match if lanes.all fun l => coveredByStores (bufOf l) va n then none else s.poisonedIn key n with
          | some (sec, f) => s.consumeAll c lanes va sec f
          | none =>
            let s := if s.remoteKey key then s else s.grantIc c.core key n false
            lanes.foldl (fun s l => (s.noteRead l.tid key n).putLoad c.id l.tid x.d x.width (s.loadBytes c.core (bufOf l) va key n)) s
      | .page u =>
        lanes.foldl (init := s) fun s l =>
          if coveredByStores (bufOf l) va n then s.putLoad c.id l.tid x.d x.width (s.loadBytes c.core (bufOf l) va 0 n) else s.parkPage c l va u
      | .prot => s.raiseIn c lanes .prot c.offset fun _ => va
      | .damaged sec => s.consumeAll c lanes va sec ((s.poisonAt sec).getD .hbm)
      | r => lanes.foldl (fun s l => s.holdThread c l va r) s

/-- Whether a thread that receives what KLD reads at an address has a write of its own to it under way (R234, R246). -/
def State.ownUnderWay (s : State) (c : Cohort) (va n : Nat) (l : Lane) : Bool :=
  s.logsPage l.tid va || match s.peek c va .read with
    | .ok k _ _ _ => s.ownEntry l.tid k n || s.unanswered l.tid fun r => overlap k n r.pa r.size
    | _ => false

def execKld (x : Mem) (s : State) : Host.Outcome State Fault Refusal :=
  onCohort s fun c s =>
    match s.execLanes c x.pred with
    | [] => s.issue c (.kld x) x.pred x.stall fun s _ => s
    | low :: rest =>
      let s := s.flushFor c x (widthBytes x.width) .read [low]
      let va := (s.laneEA c x low).getD 0
      if s.laneWaitsAt (icAgent c.core) c x (widthBytes x.width) .read low || rest.any (s.ownUnderWay c va (widthBytes x.width)) then s.holdFor c x .read [low]
      else s.issue c (.kld x) x.pred x.stall fun s lanes => s.kldLanes c x low lanes

/-! ## Buffering and performing (R103 to R106, R123, R233) -/

/-- Append a buffered effect to a lane. -/
def State.buffer (s : State) (c : Cohort) (l : Lane) (e : Effect) : State :=
  s.modLane c.id l.tid fun l => { l with buf := l.buf ++ [e] }

/-- In a revocable trace a lane at its budget raises BUDGET (R103); else `f`. -/
def State.inBudget (s : State) (c : Cohort) (l : Lane) (f : State → State) : State :=
  if !c.irr && l.buf.length ≥ c.budget then s.raiseIn c [l] .budget c.offset fun _ => 0 else f s

/-- Enter the side log, or park silently where it has no room (R233, R236). -/
def State.logOrPark (s : State) (c : Cohort) (l : Lane) (e : MemEff) (f : State → State) : State :=
  if s.logRoom c.core = 0 then s.park c l .room (pageOf e.va) none else f s

/-- Perform a checked write of a lane that buffers nothing: a quantum update enters its buffer, and the halves of a .BF16X2 atomic are performed
one by one, the lanes of one .COMM instruction that name one word as one request (R261, R262). -/
def State.doNow (s : State) (c : Cohort) (e : MemEff) (key : Nat) (watch : Bool) : State :=
  if e.use == .qnt then s.pushQuantum c.core e key watch
  else match e.kind, e.use with
    | .atom _ 3, .comm =>
      (s.performPair (2 * (2 ^ 64 * s.clock + c.id) + 1) e.thread key (natOf e.bytes) (.ctx e.ctx) (some (c.core, e)) none watch).noteWrite e.thread key 4
    | _, _ => s.doEff c.core e key watch

/-- A store heads for its home in device HBM (R229, R348), which it reaches after a time that the manual does not give (log 15). A thread whose store the
side log would not admit waits until it is performed (R229, R270). -/
def State.sendHome (s : State) (agent cohort : Nat) (e : MemEff) (key : Nat) (watch : Bool) : State :=
  let (x, s) := s.drawNat
  let (id, s) := s.sendRemote ⟨false, some e, key, e.bytes.length, [], .write, cohort, e.thread, agent, watch, false, some (s.clock + x % 512)⟩
  (if e.logs then s else s.await cohort id).post (.arrive id)

/-- A write of a lane that buffers nothing is performed, sent, side-logged, or holds its thread (R123, R232, R233, R354); the thread waits for the answer
of one that the side log does not admit (R229, R270). A store is always sent to its home, which begins it when it arrives (R229, R351). -/
def State.writeNow (s : State) (c : Cohort) (l : Lane) (e : MemEff) (acc : Acc) : State :=
  if s.logsPage l.tid e.va then s.logOrPark c l e fun s => s.logBehind c.core e
  else
    let (r, s) := s.reach c l.pos e.va acc
    match r with
    | .go key pte unit =>
      let n := e.bytes.length
      if key ≥ peerKey && !s.peerOk key then s.raiseIn c [l] .prot c.offset fun _ => e.va
      else
        if s.remoteKey key then
          let (id, s) := s.sendRemote ⟨decide (key ≥ peerKey), some e, key, n, [], .write, c.id, e.thread, tcAgent c.core, pteWatch pte, false, none⟩
          if e.logs then s else s.await c.id id
        else if e.kind == .store then s.sendHome (tcAgent c.core) c.id e key (pteWatch pte)
        else
          match s.mergeCheck key n with
          | (some (sec, f), s) =>
            let s := s.detect sec f
            if e.logs then s.logOrPark c l e fun s => s.log c.core e (some unit) false false else s.park c l .room (pageOf e.va) none
          | (none, s) => s.doNow c e key (pteWatch pte)
    | .page u => if e.logs then s.logOrPark c l e fun s => s.log c.core e u false true else s.holdThread c l e.va r
    | .held u => if e.logs then s.logOrPark c l e fun s => s.log c.core e (some u) true false else s.holdThread c l e.va r
    | r => s.holdThread c l e.va r

/-- A write of a lane that a revocable trace buffers: translated and checked now (R106). -/
def State.writeLater (s : State) (c : Cohort) (l : Lane) (e : MemEff) (acc : Acc) : State :=
  let (r, s) := s.reach c l.pos e.va acc
  match r with
  | .go key _ _ => s.buffer c l (.mem e key .clean)
  | .page _ | .held _ => if e.logs then s.buffer c l (.mem e 0 .sideLog) else s.holdThread c l e.va r
  | .cow _ => (s.buffer c l (.mem e 0 .again)).urge (.hw (.cowCopy e.ctx (pageOf e.va)))
  | r => s.holdThread c l e.va r

/-- Issue an access that may release (R270): it waits for what its lanes' threads have under way, and its order takes effect before its lanes. -/
def State.issueMem (s : State) (c : Cohort) (i : Instr) (x : Mem) (n : Nat) (acc : Acc) (f : State → Lane → State) : State :=
  let lanes := s.execLanes c x.pred
  let s := s.flushFor c x n acc lanes
  if lanes.any (s.laneWaits c x n acc) then s.holdFor c x acc lanes
  else
    let rel := c.irr && releases x.order && !lanes.isEmpty
    let s := if rel then s.flushQuantum c.core else s
    if rel && s.orderWaits c x.order lanes then s.hold c.id
    else s.issue c i x.pred x.stall fun s lanes =>
      lanes.foldl f (if rel then s.fenceFirst c x.order x.scope else s)

/-- One lane of ST (R259). -/
def State.storeLane (s : State) (c : Cohort) (x : Mem) (l : Lane) : State :=
  s.inBudget c l fun s => s.withEA c x (widthBytes x.width) l fun s va =>
    let e := s.memEff c l va (s.srcBytes c l.tid x.d x.width) .store x
    if c.irr then s.writeNow c l e .write else s.writeLater c l e .write

def execSt (x : Mem) (s : State) : Host.Outcome State Fault Refusal :=
  onCohort s fun c s => s.issueMem c (.st x) x (widthBytes x.width) .write fun s l => s.storeLane c x l

/-! ## ATOM and ATOMCAS -/

/-- The bytes of an atomic's memory operand (R31). -/
def atomSize (x : Mem) (cls : BitVec 2) : Nat := if cls == 3 then 4 else widthBytes x.width

/-- The operand bytes and arithmetic class as the home applies them: a BF16 value for an FP32 word is that value in FP32,
which every BF16 value has (R261). -/
def atomOperand (x : Mem) (cls : BitVec 2) (e : Nat) : List Byte × BitVec 2 :=
  if cls == 3 && x.width == .u16 then (bytesOf 4 (e % 65536 * 65536), 2) else (bytesOf (atomSize x cls) e, cls)

/-- The old value in an atomic's destination. -/
def State.putOld (s : State) (cid tid : Nat) (d : BitVec 8) (bs : List Byte) : State :=
  s.putLoad cid tid d (if bs.length == 8 then .b64 else .b32) bs

/-- Whether an effect is a .BF16X2 atomic's, or one of the same class. -/
def EffKind.pairs : EffKind → Bool
  | .atom _ cls => cls == 3
  | _ => false

/-- What an atomic does to the old value: the effect that holds the new one. -/
abbrev NewValue := List Byte → EffKind × List Byte

/-- The update that an effect makes of an old value: an atomic's, or a compare-and-swap's where `cmp` is not empty. -/
def MemEff.update (e : MemEff) (cmp : List Byte) : NewValue := fun old =>
  match e.kind with
  | .atom op cls => (.store, bytesOf old.length (atomOp op cls.toNat old.length (natOf old) (natOf e.bytes)))
  | .store => if cmp.isEmpty || old = cmp then (.store, e.bytes) else (.nothing, old)
  | .nothing => (.nothing, old)

/-- A .BF16X2 atomic that returns a value: its halves are performed one by one, and its lane's cohort waits for both (R261). -/
def State.atomHalves (s : State) (c : Cohort) (l : Lane) (key : Nat) (e : MemEff) (d : BitVec 8) (watch : Bool) : State :=
  let id := s.nextId
  let (req, s) := s.newReq
  let s := (s.await c.id id).putV c.id l.tid d.toNat (s.getV l.tid d.toNat) 0
  (s.performPair req l.tid key (natOf e.bytes) (.ctx e.ctx) (some (c.core, e)) (some (id, d.toNat)) watch).noteWrite l.tid key 4

/-- The lane of an atomic that returns a value, outside a revocable trace (R260, R264): a consumption when the word is
poisoned (R355). -/
def State.atomReturn (s : State) (c : Cohort) (l : Lane) (va n : Nat) (e : MemEff) (cmp : List Byte) (d : BitVec 8) : State :=
  let (r, s) := s.reach c l.pos va .both
  match r with
  | .go key pte _ =>
    let s := s.flushNamed c.core key n
    if s.remoteKey key then s.atomRemote c l va key e n cmp d (pteWatch pte)
    else
      let s := s.readHome key n
      match s.poisonedIn key n with
      | some (sec, f) => s.consume c l va sec f
      | none =>
        if e.kind.pairs && n == 4 then s.atomHalves c l key e d (pteWatch pte) else
        let s := s.firstInLine key n
        let old := s.mem.readBytes key n
        let (k, bs) := e.update cmp old
        ((s.noteRead l.tid key n).doEff c.core { e with kind := k, bytes := bs, use := .spec } key (pteWatch pte)).putOld c.id l.tid d old
  | r => s.holdThread c l va r

/-- The lane of a speculative atomic (R120): the value at the home behind the lane's own effects is returned, the word is
reserved once, and the update is buffered. The host's copy of a sector serves for a page in host bias. -/
def State.atomSpec (s : State) (c : Cohort) (l : Lane) (va n : Nat) (e : MemEff) (cmp : List Byte) (d : BitVec 8) : State :=
  let (r, s) := s.reach c l.pos va .both
  match r with
  | .go key _ _ =>
    if key ≥ hostKey then s.raiseIn c [l] .prot c.offset fun _ => va
    else
      let s := (s.flushNamed c.core key n).readHome key n
      match s.poisonedIn key n with
      | some (sec, f) => s.consume c l va sec f
      | none =>
        let s := (s.flushDies fun d => overlap key n d.pa d.bytes.length).flushHalves fun h => overlap key n h.pa 2
        let old := s.loadBytes c.core l.buf va key n
        let (k, bs) := e.update cmp old
        let s := s.modLane c.id l.tid fun l =>
          { l with resv := if l.resv.any fun r => r.pa == key && r.size == n then l.resv else l.resv ++ [⟨key, n, false⟩]
                   buf := l.buf ++ [.mem { e with kind := k, bytes := bs } key .clean] }
        (s.noteRead l.tid key n).putOld c.id l.tid d old
  | r => s.holdThread c l va r

/-- One lane of ATOM (R260). -/
def State.atomLane (s : State) (c : Cohort) (x : Mem) (op : AtomOp) (cls : BitVec 2) (l : Lane) : State :=
  let n := atomSize x cls
  s.inBudget c l fun s => s.withEA c x n l fun s va =>
    let (bs, cl) := atomOperand x cls (natOf (s.srcBytes c l.tid x.e x.width))
    let e := s.memEff c l va bs (.atom op cl) x
    if x.use == .spec then s.atomSpec c l va n e [] x.d
    else if x.d != 0 then s.atomReturn c l va n e [] x.d
    else if c.irr then s.writeNow c l e .write
    else s.writeLater c l e .write

/-- Whether an atomic of a lane without a result stands behind the thread's own accesses (R270, R281): a write to its bytes that is not performed
yet, or, for an acquire, entries of its page in the side log. -/
def State.atomBehind (s : State) (c : Cohort) (x : Mem) (n : Nat) (l : Lane) : Bool :=
  (s.laneEA c x l).any fun va => (acquires x.order && s.logsPage l.tid va) || match s.peek c va .write with
    | .ok k _ _ _ => s.unanswered l.tid fun r => overlap k n r.pa r.size
    | _ => false

def execAtom (x : Mem) (op : AtomOp) (cls : BitVec 2) (s : State) : Host.Outcome State Fault Refusal :=
  onCohort s fun c s =>
    if c.irr && x.d == 0 && (s.execLanes c x.pred).any (s.atomBehind c x (atomSize x cls)) then s.hold c.id
    else s.issueMem c (.atom x op cls) x (atomSize x cls) (if x.d == 0 then .write else .both) fun s l => s.atomLane c x op cls l

/-- One lane of ATOMCAS (R264): e holds the compare value and, after it, the new one. -/
def State.casLane (s : State) (c : Cohort) (x : Mem) (l : Lane) : State :=
  let n := widthBytes x.width
  s.inBudget c l fun s => s.withEA c x n l fun s va =>
    let cmp := s.srcBytes c l.tid x.e x.width
    let e := s.memEff c l va (s.srcBytes c l.tid (x.e + BitVec.ofNat 8 x.width.regs) x.width) .store x
    if x.use == .spec then s.atomSpec c l va n e cmp x.d else s.atomReturn c l va n e cmp x.d

def execAtomcas (x : Mem) (s : State) : Host.Outcome State Fault Refusal :=
  onCohort s fun c s => s.issueMem c (.atomcas x) x (widthBytes x.width) .both fun s l => s.casLane c x l

/-! ## Accesses that are translated and sent again (R229) -/

/-- A load or returning atomic of a lane is made again; a load that waits at its home is sent again later. -/
def State.readAgain (s : State) (c : Cohort) (first : Nat) (r : Remote) (e : MemEff) (l : Lane) (va d : Nat) (w : Width) : State :=
  let n := widthBytes w
  if e.kind != .nothing then s.atomReturn c l va n e r.cmp (BitVec.ofNat 8 d)
  else
    let (q, s) := s.reach c l.pos va .read
    match q with
    | .go key _ _ =>
      let s := s.flushNamed c.core key n
      if s.farRead key then s.readRemote c first l va key e (BitVec.ofNat 8 d) w
      else if s.readStalled (l1Agent c.core) l.tid key n || s.ownEntry l.tid key n then
        let (id, s) := s.sendRemote { r with dest := .regs [(l.tid, va)] d w, cohort := c.id, thread := l.tid, gone := true, due := none }
        (s.await c.id id).defer (.reissue id)
      else
        let s := s.readHome key n
        match s.poisonedIn key n with
        | some (sec, f) => s.consume c l va sec f
        | none =>
          ((s.grantL1 c.core key n).noteRead l.tid key n).putLoad c.id l.tid (BitVec.ofNat 8 d) w
            (s.loadBytes c.core (if c.irr then [] else l.buf) va key n)
    | q => s.holdThread c l va q

/-- The record of a write of an operation that was sent, with the operation's attribution while it is there (R294, R302). -/
def State.effRec (s : State) (id : Nat) (r : Remote) (e : MemEff) (core : Nat) (cause : Cause) : FaultRec :=
  let ats := (s.eng.copyOps.filter (·.id == r.cohort)).map (·.at') ++ (s.eng.collOps.filter (·.id == r.cohort)).map (·.at') ++
    (s.eng.tileOps.filter (·.id == r.cohort)).map (·.at')
  let plain : FaultRec := { FaultRec.of cause e.ctx with engine := true, traceId := e.traceId, offset := e.offset, core := core, addr := e.va }
  match ats with
  | a :: _ => if id = 0 then plain else
      { plain with lane := a.lane, wid := a.wid, streamC := a.stream.isSome, stream := a.stream.getD 0, cmd := a.cmd, engine := a.stream.isNone }
  | [] => plain

/-- A write that cannot be made now is tried again (R208, R229, R294). -/
def State.tryAgain (s : State) (id : Nat) (r : Remote) : State :=
  (s.modCoh fun k => { k with remote := k.remote.insert id { r with gone := true } }).defer (.reissue id)

/-- A write of an operation meets a page that is not mapped: it waits, with one record (R208, R294). -/
def State.tryPage (s : State) (id : Nat) (r : Remote) (e : MemEff) (core : Nat) : State :=
  let s := s.tryAgain id r
  if s.recordOpen e.ctx core (pageOf e.va) then s else s.report { s.effRec id r e core .page with recov := true }

/-- A write that is made again cannot be: an operation's waits, one that R233 admits enters the side log as soon as there is room (R236), and any
other holds its thread (R229, R232), in a commit as an effect that is still to be performed (R106). A walk that reads a poisoned entry consumes
it (R355). -/
def State.refuseAgain (s : State) (id : Nat) (r : Remote) (e : MemEff) (core : Nat) (q : Reach) : State :=
  let dropped := (s.modCoh fun k => { k with remote := k.remote.erase id }).modCohort r.cohort fun c => { c with waits := c.waits.filter (· != id) }
  let enter (u : Option Nat) (held record : Bool) : State :=
    if s.logRoom core = 0 then s.tryAgain id r else dropped.log core e u held record
  if e.thread = 0 then match q with
    | .page _ => s.tryPage id r e core
    | .damaged sec => (s.tryAgain id r).consumeWalk (s.effRec id r e core .poison) 0 (((agentCore r.agent)).map clusterOf) sec
    | _ => s.tryAgain id r
  else if e.logs then match q with
    | .page u => enter u false true
    | .held u => enter (some u) true false
    | .cow u => enter (some u) false false
    | .damaged sec => (s.tryAgain id r).consumeWalk (s.writeRec core e .poison) e.thread (some (clusterOf core)) sec
    | _ => s.tryAgain id r
  else match s.cohorts.find r.cohort with
    | none => s.tryAgain id r
    | some c => match c.laneOf e.thread with
      | none => s.tryAgain id r
      | some l =>
        if c.irr then dropped.holdThread { c with pc := c.hdr + e.offset } l e.va q
        else dropped.modLane c.id l.tid fun l => { l with buf := .mem e 0 .again :: l.buf }

/-- An access that lost its translation before it was performed is translated and sent again: a load or returning atomic for each of its
lanes, a write under its own number, behind the earlier ones. What a context that has ended had under way goes (R323). -/
def State.reissue (s : State) (id : Nat) : State :=
  match s.coh.remote.find id with
  | some r =>
    if !r.gone then s
    else match r.dest, r.eff with
      | .regs ls d w, some e =>
        let s := s.modCoh fun k => { k with remote := k.remote.erase id }
        let s := s.modCohort r.cohort fun c => { c with waits := c.waits.filter (· != id) }
        let first := s.nextId
        ls.foldl (init := s) fun s q =>
          match s.cohorts.find r.cohort with
          | some c => match c.laneOf q.1 with
            | some l => s.readAgain { c with pc := c.hdr + e.offset } first r e l q.2 d w
            | none => s
          | none => s
      | .write, some e =>
        let ctx := e.ctx
        let core := (agentCore r.agent).getD 0
        let gone := s.modCoh fun k => { k with remote := k.remote.erase id }
        if !(s.ctxs.find ctx).any (·.alive) then gone
        else
          let (q, s) := s.translate r.agent ctx (s.regsOf ctx).ptroot (s.privOf ctx) e.va .write none
          match s.reachOf q with
          | .go key pte _ =>
            let far := s.remoteKey key
            let s := s.modCoh fun k => { k with remote := k.remote.insert id { r with
              peer := decide (key ≥ peerKey), pa := key, watch := pteWatch pte, gone := false, due := if far then none else some s.clock } }
            if far then s else s.post (.arrive id)
          | .prot =>
            let s := s.modCoh fun k => { k with remote := k.remote.erase id }
            match s.threads.find e.thread with
            | some t => s.terminateBy (s.recordOf .prot t core e.traceId e.offset e.va)
            | none => s.terminateBy (s.effRec id r e core .prot)
          | .cow u => (s.refuseAgain id r e core (.cow u)).urge (.hw (.cowCopy ctx (pageOf e.va)))
          | q => s.refuseAgain id r e core q
      | _, _ => s.modCoh fun k => { k with remote := k.remote.erase id }
  | none => s

/-- Whether an earlier write of the same agent or thread to some bytes of a write is not performed yet, behind which it is (R259, R281). -/
def State.behind (s : State) (id : Nat) (r : Remote) : Bool :=
  r.eff.any (·.kind != .nothing) && s.coh.remote.any fun (m : Nat × Remote) =>
    m.1 < id && (m.2.agent == r.agent || (m.2.thread == r.thread && r.thread != 0)) &&
      (m.2.eff.any fun (e : MemEff) => e.kind != .nothing) && overlap m.2.pa m.2.size r.pa r.size

/-- A write reaches its home in device HBM (R229, R246, R348), which begins it once nothing stands before it. One whose page has gone to the host
(R240) or has been retired (R361) is translated again; one whose merge check finds damage is held until the decision (R354). An engine's is
performed at device scope (R275). -/
def State.reachHome (s : State) (id : Nat) : State :=
  match s.coh.remote.find id with
  | none => s
  | some r =>
    match r.due, r.eff with
    | some t, some e =>
      let core := (agentCore r.agent).getD 0
      if r.gone then s
      else if s.clock < t || s.stalled r.thread r.pa r.size || s.behind id r then s.defer (.arrive id)
      else if s.remoteKey r.pa || s.pkg.retireList.contains (r.pa / 2 ^ 16) then
        (s.modCoh fun k => { k with remote := k.remote.insert id { r with gone := true } }).post (.reissue id)
      else match s.mergeCheck r.pa r.size with
        | (some (sec, f), s) => (s.detect sec f).defer (.arrive id)
        | (none, s) =>
          let s := (s.modCoh fun k => { k with remote := k.remote.erase id }).modCohort r.cohort fun c =>
            { c with waits := c.waits.filter (· != id) }
          if e.thread = 0 then s.perform r.pa e.bytes (.ctx e.ctx) r.watch else s.doEff core e r.pa r.watch
    | _, _ => s

/-! ## PFETCH and FENCE -/

/-- One lane of PFETCH (R265): it fetches into L2, and into L1 where the policy says so, and nothing when it would fault. -/
def State.prefetchLane (s : State) (c : Cohort) (x : Mem) (l : Lane) : State :=
  let n := if x.width == .b32 then 32 else 512
  match s.laneEA c x l with
  | none => s
  | some va =>
    let va := va - va % n
    let (r, s) := s.reach c l.pos va .read
    match r with
    | .go key _ _ =>
      if key ≥ peerKey then s
      else if s.viaHost key then
        (((s.unitsOf key n).map fun k => k - k % 2).eraseDups.filter fun k => (s.coh.hostHeld.find k).isNone).foldl (fun s k => s.askHost (tcAgent c.core) k) s
      else
        let s := s.readIdle key n
        if (s.poisonedIn key n).isSome || 2 ≤ x.cache.toNat then s else s.grantL1 c.core key n
    | _ => s

def execPfetch (x : Mem) (s : State) : Host.Outcome State Fault Refusal :=
  onCohort s fun c s =>
    let waits (l : Lane) : Bool := match (s.laneEA c x l).map fun va => s.peek c va .read with
      | some .busy | some (.ask _) => true
      | some (.ok k _ _ _) => s.readStalled (l1Agent c.core) l.tid (k / 32 * 32) 32
      | _ => false
    let lanes := s.execLanes c x.pred
    if lanes.any waits then s.holdFor c x .read lanes
    else s.issue c (.pfetch x) x.pred x.stall fun s lanes => lanes.foldl (fun s l => s.prefetchLane c x l) s

/-- FENCE (R279): the quantum buffer is flushed first, and what does not leave it, or leaves it for the side log, is waited for. One at device scope
completes its threads' stores to page tables, whatever its order is (R230). -/
def execFence (x : Mem) (s : State) : Host.Outcome State Fault Refusal :=
  onCohort s fun c s =>
    let lanes := s.execLanes c x.pred
    let s := if lanes.isEmpty then s else s.flushQuantum c.core
    let mine (tid : Nat) : Bool := lanes.any (·.tid == tid)
    if (releases x.order && s.lanesReleaseWait lanes) || (!lanes.isEmpty && s.kUnwritten c) ||
        (wideScope x.scope && lanes.any fun l => s.unanswered l.tid fun r => r.due.isSome) then s.hold c.id
    else s.issue c (.fence x) x.pred x.stall fun s lanes =>
      let s := if wideScope x.scope then s.flushDies fun d => mine d.thread else s
      if lanes.isEmpty then s else (s.orderFlush c.core x.order x.scope).settleK c.crew (some c)

end Sys2Proof.Machine
end

