-- ==== Sys2Proof/Machine/Coherence.lean ====
section
/-! DEFINITION. The coherence messages (R247 to R251, R253): token requests, probes and their answers, evictions, and
persistent requests. A unit here is a 32-byte sector's number (log 9). A probe goes to an agent, or to the responder of
cluster n as target 1024 + n. -/

namespace Sys2Proof.Machine

/-- Whether a proxy's filter names a holder of its die (R249). -/
def Filter.names (f : Filter) (die a : Nat) : Bool :=
  match f with
  | .pointers l => l.contains a
  | .coarse v => (groupBit die a).any fun b => v.getLsbD b

/-- The holders that a probe's target answers for (R250, R253): a cluster's agents, those of a die that its proxy probes, or one
agent; never the requester. -/
def State.answersFor (s : State) (sec target : Nat) : List (Nat × Nat) :=
  let u := s.unit sec
  let requester := u.req.map (·.agent)
  u.held.filter fun h => some h.1 != requester && (h.1 == target || (agentCore h.1).any fun n =>
    1024 + clusterOf n == target || (recorded (secHome sec) h.1 == target &&
      (s.coh.proxyFilters.get (.pointers []) (4 * sec + dieOf n)).names (dieOf n) h.1))

/-- The requests in the persistent tables of a unit's slice (R248). -/
def State.persTable (s : State) (sec : Nat) : Nat :=
  ((s.coh.units.filter fun e => sliceOf (e.1 * 32) == sliceOf (sec * 32)).map fun e => e.2.pers.length).sum

/-- What a request needs: one token, all 1024, or, as a WrDie, the tokens of its die with the owner token. -/
def needDie : Nat := 0

/-- The die of an L2 that writes. -/
def writingDie (agent : Nat) : Nat := agent - 902

/-- Whether a probe's target answers for holders of a die only. -/
def targetOn (die target : Nat) : Bool := if target ≥ 1024 then (target - 1024) / 9 == die else onDie die target

/-- The targets of a request's probes (R250): those that the home's filter names, and for a proxy those of its own die, which its own filter names. A
WrDie asks only those of its die and the holder of the owner token (R246). -/
def State.targetsOf (s : State) (sec : Nat) (r : TokReq) : List Nat :=
  let u := s.unit sec
  let home := secHome sec
  let die := writingDie r.agent
  let named := u.filter.targets home r.agent
  let own := if r.need == 1 || home == die then []
    else ((s.coh.proxyFilters.get (.pointers []) (4 * sec + die)).targets die r.agent).filter (targetOn die)
  if r.need == needDie then named.filter (fun t => u.owner == some t || targetOn die t) ++ own else named ++ own

/-- Send the probes of the request at the home and count the replies it expects (R248, R250); a persistent one demands every token. -/
def State.sendProbes (s : State) (sec : Nat) (r : TokReq) : State :=
  let u := s.unit sec
  let targets := s.targetsOf sec r
  let s := s.setUnit sec { u with req := some { r with expected := targets.length, got := 0, since := s.clock } }
  s.postAll (targets.map fun t => .hw (.probe sec t (r.need == 1 && !r.persistent)))

/-- The tokens that a request at its home can count on: the home's, those gathered, and for a die's request its proxy's, for a reader's what its
die's proxy can give. -/
def CohUnit.reach (u : CohUnit) (sec : Nat) (r : TokReq) : Nat :=
  u.home + r.tokens + if r.need == 1 then u.spare sec r.agent else u.held.get 0 r.agent

/-- Whether a request has what it needs. -/
def State.meets (s : State) (sec : Nat) (r : TokReq) : Bool :=
  let u := s.unit sec
  if r.need == needDie then
    let die := writingDie r.agent
    (s.dieHolders die sec).isEmpty && (r.owner || u.owner == some r.agent || (u.owner.isNone && u.flight.all (!·.2) && u.evicts.all (!·.2.2)))
  else u.reach sec r ≥ r.need

/-- Give a satisfied request its tokens (R246, R248, R249): one token to a reader, in whose cache the block takes its place (R12, R13); all of them, or
its die's with the owner token, to a writing L2, whose stores become device-performed, or die-performed. A persistent request that is satisfied leaves
its requester as the only holder that the filter names. -/
def State.grantReq (s : State) (sec : Nat) (r : TokReq) : State :=
  let s := if r.persistent then s.post (.hw (.persdone r.agent sec)) else s
  let u := s.unit sec
  let s := s.setUnit sec { u with home := u.home + r.tokens, req := some { r with tokens := 0, owner := false } }
  let s :=
    if r.need == 1 then s.grant sec r.agent
    else if r.need == needDie then (s.unitSecs sec).foldl (fun s k => s.gatherDie (writingDie r.agent) k) (s.complete [sec])
    else
      let s := (s.complete [sec]).gather sec r.agent
      s.flushDies fun d => proxyAgent d.die == r.agent && sectorOf d.pa == sec
  let u := s.unit sec
  let s := s.setUnit sec { u with req := none, filter := if r.persistent && r.need == 1 then .pointers [recorded (secHome sec) r.agent] else u.filter }
  if r.need != 1 then s
  else if r.agent < 288 then s.trimCache r.agent 64 8 sec false
  else if 576 ≤ r.agent && r.agent < 864 then s.trimCache r.agent 1 256 sec false
  else if 902 ≤ r.agent && r.agent < 906 then s.trimL2 (sliceIn (writingDie r.agent) (sec / 16)) (setOf (32 * sec))
  else s

/-- Requests that waited behind another are served in turn, until one has to probe; `n` bounds their number. -/
def State.serveQueue (s : State) (sec : Nat) : Nat → State
  | 0 => s
  | n + 1 =>
    let u := s.unit sec
    match u.queue with
    | [] => s
    | r :: q =>
      if u.req.isSome || !u.pers.isEmpty then s
      else
        let s := s.setUnit sec { u with queue := q }
        if s.meets sec r then State.serveQueue (s.grantReq sec r) sec n else s.sendProbes sec r

/-- A request is satisfied, and those behind it are served. -/
def State.satisfy (s : State) (sec : Nat) (r : TokReq) : State :=
  let s := s.grantReq sec r
  s.serveQueue sec (s.unit sec).queue.length

/-- A request that fails is issued again, served as any at the home; its second failure makes it persistent (R248). -/
def State.failReq (s : State) (sec : Nat) (r : TokReq) : State :=
  let u := s.unit sec
  let r := { r with fails := r.fails + 1, tokens := 0, owner := false, since := s.clock }
  let s := s.setUnit sec { u with home := u.home + (u.req.map (·.tokens)).getD 0, req := some r }
  if r.fails ≥ 2 then s.post (.hw (.persreq r.agent sec)) else if s.meets sec r then s.satisfy sec r else s.sendProbes sec r

/-- A reply has come: with every expected reply the request is satisfied or fails (R248, R251), once the tokens of every Evict under way are
credited; a persistent one goes on until it has its tokens. -/
def State.settleReq (s : State) (sec : Nat) : State :=
  match (s.unit sec).req with
  | none => s
  | some r =>
    if r.got < r.expected then s
    else if s.meets sec r then s.satisfy sec r
    else if r.persistent || r.fails ≥ 2 || !(s.unit sec).evicts.isEmpty then s
    else s.failReq sec r

/-- Whether a flip, or a commit hold on some byte of a unit, holds a request of the unit. -/
def State.unitBarred (s : State) (sec : Nat) : Bool := (s.unitSecs sec).any fun k => s.barred 0 (32 * k) 32

/-- A request at a unit's home (R248): served from the home's tokens, or by probes. It waits while the page is under a bias
flip (R254), a commit holds bytes of the unit (R122), or a translation cache's token is late (R229), and stands behind a request at the home, or a
persistent one. In host bias the home has nothing to give: the host is asked for what is read (R254). -/
def State.request (s : State) (sec agent need : Nat) (again : Turn) : State :=
  let u := s.unit sec
  let r : TokReq := ⟨agent, need, 0, 0, 0, false, 0, s.clock, false⟩
  if s.unitBarred sec || s.late [sec] then s.defer again
  else if s.viaHost (32 * sec) then (if need == 1 && (s.coh.hostHeld.find sec).isNone then s.askHost agent sec else s)
  else if (u.req.toList ++ u.queue).any fun q => q.agent == agent && q.need == need then s
  else if u.req.isSome || !u.pers.isEmpty then s.setUnit sec { u with queue := u.queue ++ [r] }
  else if s.meets sec r then s.satisfy sec r
  else s.sendProbes sec r

/-- Whether a write to a sector's unit is still to reach its home in this clock (R351). -/
def State.writeComes (s : State) (sec : Nat) : Bool :=
  let unit := s.unitSecs sec
  s.agenda.any fun t => match t with
    | .hw (.wrall _ k) => unit.contains k
    | .arrive id => (s.coh.remote.find id).any fun r => r.due.any (· ≤ s.clock) && (sectorsOf r.pa r.size).any unit.contains
    | _ => false

/-- RDTOK (R226, R242, R247, R248, R354): a request for one token and the unit's data, which the slice reads; damage in it is found. A write that
reaches the home in the same clock comes first (R351). -/
def execRdtok (agent sec : Nat) (s : State) : Host.Outcome State Fault Refusal :=
  if s.writeComes sec then .next (s.post (.hw (.rdtok agent sec)))
  else
    let s := if s.viaHost (32 * sec) then s else s.readIdle (sec * 32) 32
    .next (if (s.unit sec).held.get 0 agent > 0 then s else s.request sec agent 1 (.hw (.rdtok agent sec)))

/-- WRDIE (R246, R247, R250, R276): the writing L2 asks for its die's tokens and the owner token, with the data of a die that held it;
its stores to the unit are then die-performed. -/
def execWrdie (die sec : Nat) (s : State) : Host.Outcome State Fault Refusal :=
  .next (s.request sec (proxyAgent die) needDie (.hw (.wrdie die sec)))

/-- WRALL (R246, R247, R250, R276): the writing L2 asks for all tokens of a unit. -/
def execWrall (die sec : Nat) (s : State) : Host.Outcome State Fault Refusal :=
  .next (s.request sec (proxyAgent die) 1024 (.hw (.wrall die sec)))

/-- The operand of a lane of an atomic request (R261): .F32.BF16 brings a BF16 value. -/
def laneOperand (r : AtomReq) (d : Dword) : Nat := if r.half then d.toNat % 2 ^ 16 * 2 ^ 16 else d.toNat % 2 ^ (8 * r.size)

/-- The effect of a lane of an atomic request. -/
def laneEff (r : AtomReq) (d : Dword) : MemEff :=
  ⟨r.ctx, 0, 0, 0, 0, r.va, bytesOf r.size (laneOperand r d), .atom r.op (if r.half then 2 else r.cls), .rlx, .dev, .comm⟩

/-- An atomic that meets a retired page raises a recoverable PAGE at its core (R361), and its lanes wait in that core's side log (R233), or for room
in it (R236). -/
def State.refuseAtom (s : State) (r : AtomReq) : State :=
  if s.logRoom r.core < r.lanes.length then s.defer (.hw (.atomMessage r))
  else (r.lanes.foldl (fun s d => s.log r.core (laneEff r d) none false false) s).report
    { FaultRec.of .page r.ctx with recov := true, sideLog := true, core := r.core, addr := r.va }

/-- ATOM_MESSAGE (R246, R247, R260, R261, R286): the home takes all 1024 tokens and applies the lanes one at a time in
ascending lane position, each rounded once; the halves of .BF16X2 are atomics of their own. Nothing is written into a sector that the merge
check finds damaged, before the decision (R354), or that is poisoned; one to a retired page meets PAGE at its core (R361). -/
def execAtomMessage (r : AtomReq) (s : State) : Host.Outcome State Fault Refusal :=
  if s.pkg.retireList.contains (r.addr / 2 ^ 16) then .next (s.refuseAtom r)
  else if s.stalled 0 r.addr r.size then .next (s.defer (.hw (.atomMessage r)))
  else
    match s.mergeCheck r.addr r.size with
    | (some (sec, f), s) => .next ((s.detect sec f).defer (.hw (.atomMessage r)))
    | (none, s) =>
      let (req, s) := if r.cls == 3 && !r.half then s.newReq else (0, s)
      let one (s : State) (d : Dword) : State :=
        if r.cls == 3 && !r.half then s.performPair req 0 r.addr (laneOperand r d) (.ctx r.ctx) (some (r.core, laneEff r d)) none r.watch
        else s.performAtom r.addr r.size r.op (if r.half then 2 else r.cls.toNat) (laneOperand r d) (.ctx r.ctx) r.watch
      .next (r.lanes.foldl one s)

/-- What an agent holds of a sector goes to its home. -/
def State.comeHome (s : State) (sec agent : Nat) : State :=
  if (s.unit sec).held.get 0 agent = 0 then s
  else
    let s := (s.flushDies fun d => proxyAgent d.die == agent && sectorOf d.pa == sec).surrender sec agent
    let s := s.rouse agent
    let u := s.unit sec
    s.setUnit sec { u with
      home := u.home + u.held.get 0 agent, held := u.held.erase agent, owner := if u.owner == some agent then none else u.owner }

/-- Some tokens that an agent keeps others beside go to the home. -/
def State.sendHomeward (s : State) (sec agent n : Nat) : State :=
  let u := s.unit sec
  if u.held.get 0 agent ≤ n then s.comeHome sec agent
  else s.setUnit sec { u with home := u.home + n, held := u.held.set 0 agent (u.held.get 0 agent - n) }

/-- PROBE (R229, R248, R250, R251, R253): the target answers once with what it holds now: an Ack with its tokens (one token for
RdTok, which a holder of more than one gives, or one that holds no other role), or a NullAck. The owner token comes with its
die's data, which are read for it (R365). Tokens of the other sectors of a wide unit go with it (log 9). A home that holds a commit hold answers after
it (R122), and a translation complex once its writes under way have been performed (R229). -/
def execProbe (sec target : Nat) (one : Bool) (s : State) : Host.Outcome State Fault Refusal :=
  if ((s.unitSecs sec).any fun k => s.heldBy 0 (32 * k) 32) || s.late [sec] then .next (s.defer (.hw (.probe sec target one)))
  else
    let owned := (s.answersFor sec target).any fun h => (s.unit sec).owner == some h.1
    let s := if owned then (s.flushDies fun d => some (proxyAgent d.die) == (s.unit sec).owner && sectorOf d.pa == sec).inspect false (s.unitSecs sec)
      else s
    let s := if (s.answersFor sec target).any fun h => translates h.1 then s.complete [sec] else s
    let hs := s.answersFor sec target
    let owner := (s.unit sec).owner
    let give : List (Nat × Nat) :=
      if one then
        match hs.find? fun h => h.2 > 1 with
        | some h => [(h.1, 1)]
        | none =>
          match hs.find? fun h => owner != some h.1 with
          | some h => [(h.1, 1)]
          | none => []
      else hs
    if give.isEmpty then
      .next (s.post (if target ≥ 1024 then .hw (.clusterResponderNullack sec (target - 1024)) else .hw (.nullack sec target)))
    else
      let leaving := give.filter fun g => (s.unit sec).held.get 0 g.1 == g.2
      let s := leaving.foldl (init := s) fun s g => (s.surrender sec g.1).rouse g.1
      let s := ((s.unitSecs sec).filter (· != sec)).foldl (init := s) fun s k => give.foldl (init := s) fun s g =>
        if leaving.contains g then s.comeHome k g.1 else s.sendHomeward k g.1 g.2
      let u := s.unit sec
      let n := (give.map (·.2)).sum
      let own := owner.any fun o => leaving.any (·.1 == o)
      let held := give.foldl (init := u.held) fun m g =>
        Map.set m 0 g.1 (Map.get m 0 g.1 - g.2)
      let s := s.setUnit sec { u with held := held, flight := u.flight ++ [(n, own)], owner := if own then none else u.owner }
      .next (s.post (.hw (.ack sec target n own)))

/-- Tokens that arrive at a home (R251): credited to the waiting request, or returned to the pool. -/
def CohUnit.credit (u : CohUnit) (n : Nat) (owner : Bool) : CohUnit :=
  match u.req with
  | some r => { u with req := some { r with tokens := r.tokens + n, owner := r.owner || owner } }
  | none => { u with home := u.home + n }

/-- Count a reply of the request at the home (R250). -/
def CohUnit.reply (u : CohUnit) : CohUnit := { u with req := u.req.map fun r => { r with got := r.got + 1 } }

/-- ACK (R247, R250): the surrendered tokens arrive and are credited, and the reply is counted. -/
def execAck (sec _source tokens : Nat) (owner : Bool) (s : State) : Host.Outcome State Fault Refusal :=
  let u := s.unit sec
  let u := if u.flight.contains (tokens, owner) then { u with flight := u.flight.erase (tokens, owner) }.credit tokens owner else u
  .next ((s.setUnit sec u.reply).settleReq sec)

/-- Whether the filter's group of a probe target holds no token, so that a NullAck clears its bit (R251). -/
def State.groupEmpty (s : State) (sec target : Nat) : Bool :=
  let engines := 864 ≤ target && target ≤ 900
  (s.unit sec).held.all fun h => if engines then !(864 ≤ h.1 && h.1 ≤ 900) else !((s.answersFor sec target).contains h)

/-- The group bit of a probe target. -/
def targetBit (home target : Nat) : Option Nat := if target ≥ 1024 then some (target % 1024 % 9) else groupBit home target

/-- A NullAck of a target is counted; in coarse mode it clears its group's bit (R250, R251). -/
def State.nullReply (s : State) (sec target : Nat) : State :=
  let u := s.unit sec
  let f : Filter := match u.filter, targetBit (secHome sec) target with
    | .coarse v, some b => if s.groupEmpty sec target then .coarse (v &&& ~~~(1#15 <<< b)) else .coarse v
    | f, _ => f
  (s.setUnit sec { u.reply with filter := f }).settleReq sec

/-- NULLACK (R247, R250, R251). -/
def execNullack (sec source : Nat) (s : State) : Host.Outcome State Fault Refusal := .next (s.nullReply sec source)

/-- CLUSTER_RESPONDER_NULLACK (R253): the responder of a cluster that holds no token answers; no agent is reached. -/
def execClusterResponderNullack (sec cluster : Nat) (s : State) : Host.Outcome State Fault Refusal :=
  .next (s.nullReply sec (1024 + cluster))

/-- An Evict or EvictData of an agent arrives (R251): its tokens are credited, and its pointers go. -/
def State.evictArrives (s : State) (sec agent : Nat) (e : Nat × Nat × Bool) : State :=
  let u := s.unit sec
  let home := secHome sec
  let gone (a : Nat) : Bool := u.held.all fun h => recorded home h.1 != a
  let f := if gone (recorded home agent) then u.filter.drop (recorded home agent) else u.filter
  let s := match agentCore agent with
    | some n =>
      let k := 4 * sec + dieOf n
      if (s.coh.proxyFilters.find k).isNone || (u.held.find agent).isSome then s
      else s.modCoh fun c => { c with proxyFilters := c.proxyFilters.modify k fun f => f.drop agent }
    | none => s
  (s.setUnit sec ({ u with evicts := u.evicts.erase e, filter := f }.credit e.2.1 e.2.2)).settleReq sec

/-- EVICT (R247, R249, R251): an agent drops a clean unit and sends its tokens; as they arrive they are credited to the waiting request or
return to the pool. The holder of the owner token drops its unit by EvictData instead. -/
def execEvict (sec agent : Nat) (s : State) : Host.Outcome State Fault Refusal :=
  match (s.unit sec).evicts.find? (·.1 == agent) with
  | some e => .next (s.evictArrives sec agent e)
  | none => .next (if (s.unit sec).owner == some agent then s else (s.unitSecs sec).foldl (fun s k => s.sendEvict k agent) s)

/-- EVICTDATA (R246, R247, R251): a proxy drops a dirty unit; its die's stores are thereby device-performed, and its tokens with
the owner token come home. -/
def execEvictdata (sec die : Nat) (s : State) : Host.Outcome State Fault Refusal :=
  match (s.unit sec).evicts.find? (·.1 == proxyAgent die) with
  | some e => .next (s.evictArrives sec (proxyAgent die) e)
  | none => .next ((s.unitSecs sec).foldl (fun s k => s.sendEvict k (proxyAgent die)) s)

/-- Serve the persistent request of the lowest agent (R248): it is sent to every target, each of which forwards all its tokens. A request that it
displaces stands behind it, and the tokens that one had gathered return to the pool. -/
def State.servePers (s : State) (sec : Nat) : State :=
  let u := s.unit sec
  match u.pers with
  | [] => s.serveQueue sec u.queue.length
  | a :: _ =>
    let all := u.req.toList ++ u.queue
    let mine (r : TokReq) : Bool := r.agent == a
    let r : TokReq := (all.find? mine).getD ⟨a, if a < 902 then 1 else 1024, 0, 0, 0, false, 2, s.clock, true⟩
    let r := { r with tokens := 0, owner := false, persistent := true, fails := 2 }
    let behind := (all.filter fun q => !mine q).map fun (q : TokReq) => { q with tokens := 0, owner := false }
    let u := { u with home := u.home + (u.req.map (·.tokens)).getD 0, req := some r, queue := behind }
    (((s.setUnit sec u).sendProbes sec r)).settleReq sec

/-- PERSREQ (R247, R248): the home records the request, unless its table is full, and serves the lowest agent's. -/
def execPersreq (agent sec : Nat) (s : State) : Host.Outcome State Fault Refusal :=
  let u := s.unit sec
  if u.pers.contains agent then .next s
  else if s.persTable sec ≥ 32 then .next (s.defer (.hw (.persistentTableRetry sec)))
  else
    let s := s.setUnit sec { u with pers := (u.pers.filter (· < agent)) ++ agent :: u.pers.filter (· > agent) }
    .next (if u.pers.isEmpty then s.servePers sec else s)

/-- PERSDONE (R247, R248): the home releases the holders, and the next persistent request is served. -/
def execPersdone (agent sec : Nat) (s : State) : Host.Outcome State Fault Refusal :=
  let u := s.unit sec
  if u.pers.contains agent then
    .next ((s.setUnit sec { u with pers := u.pers.filter (· != agent) }).servePers sec)
  else .next s

/-- Whether a request has aged 2048 clocks. -/
def TokReq.old (r : TokReq) (now : Nat) : Bool := now ≥ r.since + 2048

/-- Requests behind another one that age fail as any other does (R248). -/
def State.ageQueue (s : State) (sec : Nat) : State :=
  let u := s.unit sec
  let aged (r : TokReq) : TokReq := if r.old s.clock then { r with fails := r.fails + 1, since := s.clock } else r
  let due := (u.queue.filter fun r => r.old s.clock && r.fails ≥ 1 && !u.pers.contains r.agent).map (·.agent)
  (s.setUnit sec { u with queue := u.queue.map aged }).postAll (due.map fun a => .hw (.persreq a sec))

/-- Whether a request stands behind another one and has found the table full. -/
def CohUnit.queuedPers (u : CohUnit) (now : Nat) (r : TokReq) : Bool := r.fails ≥ 2 && !u.pers.contains r.agent && now ≥ r.since + 64

/-- Requests behind another one that found the table full are issued again (R248). -/
def State.retryQueue (s : State) (sec : Nat) : State :=
  let u := s.unit sec
  let due := u.queue.filter (u.queuedPers s.clock)
  let s := s.setUnit sec { u with queue := u.queue.map fun r => if due.contains r then { r with since := s.clock } else r }
  if s.persTable sec < 32 then s.postAll (due.map fun r => .hw (.persreq r.agent sec)) else s

/-- TOKEN_REQUEST_TIMEOUT (R248): a request not satisfied within 2048 clocks fails; a persistent one is sent to the holders again. -/
def execTokenRequestTimeout (sec : Nat) (s : State) : Host.Outcome State Fault Refusal :=
  let s := s.ageQueue sec
  match (s.unit sec).req with
  | some r =>
    if !r.old s.clock then .next s
    else if r.got ≥ r.expected && s.meets sec r then .next (s.satisfy sec r)
    else if r.persistent then .next (s.sendProbes sec r)
    else if r.fails ≥ 2 then .next s
    else .next (s.failReq sec r)
  | none => .next s

/-- PERSISTENT_TABLE_RETRY (R248): a request that found the table full is issued again every 64 clocks until an entry is free. -/
def execPersistentTableRetry (sec : Nat) (s : State) : Host.Outcome State Fault Refusal :=
  let s := s.retryQueue sec
  match (s.unit sec).req with
  | some r =>
    if r.fails < 2 || r.persistent then .next s
    else if s.clock < r.since + 64 then .next (s.defer (.hw (.persistentTableRetry sec)))
    else if s.persTable sec < 32 then .next (s.post (.hw (.persreq r.agent sec)))
    else if r.got ≥ r.expected && s.meets sec r then .next (s.satisfy sec r)
    else .next ((s.sendProbes sec r).defer (.hw (.persistentTableRetry sec)))
  | none => .next s

end Sys2Proof.Machine
end

