-- ==== Sys2Proof/Machine/Scratch.lean ====
section
/-! DEFINITION. The Garnet scratchpad (R172 to R193): segments with their stamps, reads that may be stale, writes, arrival
words, and the scratchpad instructions. -/

namespace Sys2Proof.Machine

/-! ## Segments (R172, R176) -/

def spadKey (crew o : Nat) : Nat := 2 ^ 20 * crew + o
def segKey (crew j : Nat) : Nat := 4096 * crew + j

/-- The poison table's key of a 32-byte part of a segment (R354), and the key of a byte, by which reads are seen to rely on writes (R273). -/
def partKey (crew o : Nat) : Nat := 2 ^ 60 + spadKey crew o / 32
def spadByteKey (crew o : Nat) : Nat := 2 ^ 65 + spadKey crew o

/-- The regions of a crew: segments and lifetime each (R172). -/
def State.regionsOf (s : State) (crew : Nat) : List (Nat × Nat) :=
  (((s.crews.find crew).bind s.launchOf).map (·.regions)).getD []

/-- The window size of a crew in bytes (R172). -/
def State.window (s : State) (crew : Nat) : Nat := 256 * ((s.regionsOf crew).map (·.1)).sum

/-- The region of a window segment, counted from `i`, and its lifetime. -/
def regionAt : List (Nat × Nat) → Nat → Nat → Nat × Nat
  | [], i, _ => (i, 0)
  | (n, life) :: rs, i, j => if j < n then (i, life) else regionAt rs (i + 1) (j - n)

/-- The tick of a crew's core, as stamps hold it (R175, R176). -/
def State.tickOf (s : State) (crew : Nat) : BitVec 12 :=
  BitVec.ofNat 12 (s.core (((s.crews.find crew).bind (·.core)).getD 0)).tick

/-- A segment's age (R176). -/
def State.ageOf (s : State) (crew : Nat) (g : Seg) : Nat := (s.tickOf crew - g.stamp).toNat

/-- Whether segment j is live (R176, R177). -/
def State.liveSeg (s : State) (crew j : Nat) : Bool :=
  match s.segs.find (segKey crew j) with
  | none => false
  | some g => !g.expired && s.ageOf crew g ≤ (regionAt (s.regionsOf crew) 0 j).2

/-- The bytes at an offset, none when the segment read is stale (R177). A read of n bytes lies in one segment, or reads each
segment it touches. -/
def State.spadRead (s : State) (crew o n : Nat) : Option (List Byte) :=
  if (List.range ((o + n - 1) / 256 - o / 256 + 1)).all fun i => s.liveSeg crew (o / 256 + i) then
    some ((List.range n).map fun i => s.spad.get 0 (spadKey crew (o + i)))
  else none

/-- A bank reads a 32-byte part (R354): an error in it that its ECC cannot correct poisons it. Such errors are inputs of the model (log 14). -/
def State.probePart (s : State) (crew o : Nat) : State :=
  let p := partKey crew o
  match s.coh.harm.find p with
  | none => s
  | some h => s.modCoh fun c => { c with harm := c.harm.erase p, poison := if h == .single then c.poison else c.poison.insert p .garnet }

/-- Stamp a segment with the current tick (R178). -/
def State.stamp (s : State) (crew j : Nat) : State :=
  { s with segs := s.segs.insert (segKey crew j) ⟨s.tickOf crew, false⟩ }

/-- A write of bytes inside one segment (R178): the bytes of a segment that is not live become zero first. A poisoned part
takes a write of all its bytes only (R354). -/
def State.spadWriteSeg (s : State) (crew o : Nat) (bs : List Byte) : State :=
  let j := o / 256
  let s := (s.probePart crew o).probePart crew (o + bs.length - 1)
  let s := if s.liveSeg crew j then s
    else { s with spad := s.spad.filter fun (e : Nat × Byte) => e.1 / 256 != spadKey crew (256 * j) / 256 }
  let s := (List.range bs.length).foldl (init := s) fun s i =>
    let p := partKey crew (o + i)
    if (s.coh.poison.find p).isSome && !(o ≤ (o + i) / 32 * 32 && (o + i) / 32 * 32 + 32 ≤ o + bs.length) then s
    else { s with spad := s.spad.set 0 (spadKey crew (o + i)) (bs.getD i 0) }
  let whole := (List.range bs.length).filterMap fun i =>
    if (o + i) % 32 == 0 && i + 32 ≤ bs.length then some (partKey crew (o + i)) else none
  let s := if whole.isEmpty then s else s.modCoh fun c => { c with poison := c.poison.filter fun e => !whole.contains e.1 }
  s.stamp crew j

/-- A write of bytes, segment by segment. -/
def State.spadWriteFrom (s : State) (crew : Nat) : Nat → Nat → List Byte → State
  | 0, _, _ => s
  | _ + 1, _, [] => s
  | k + 1, o, b :: bs =>
    let n := 256 - o % 256
    State.spadWriteFrom (s.spadWriteSeg crew o ((b :: bs).take n)) crew k (o + n) ((b :: bs).drop n)

/-! ## STALE (R180) -/

/-- STALE in a lane: the thread stops precisely, or its lane is rolled back; ctx.staletrap routes it to the handler. -/
def State.raiseStale (s : State) (c : Cohort) (l : Lane) (a : Nat) : State :=
  let s := if c.irr then s.dropLanes c.id [l.tid] else s.rollback c l.tid
  if c.snap.staletrap[0] then
    let ret := if c.irr then c.pc else c.hdr
    let e : TrapEntry := ⟨.stale, BitVec.ofNat 32 a, c.traceId, c.offset, ret, if c.irr then some (c.here c.pc) else none⟩
    s.enterHandler l.tid c.snap.trapvec c.core e a
  else match s.threads.find l.tid with
    | none => s
    | some t => (s.modThread l.tid fun t => { t with place := .faulted }).terminateBy (s.recordOf .stale t c.core c.traceId c.offset a)

/-! ## AWAIT's conditions (R191) -/

/-- The generation of the arrival word at an offset (R184), none when its segment is stale. -/
def State.generation (s : State) (crew o : Nat) : Option Word :=
  (s.spadRead crew (o + 8) 4).map fun bs => BitVec.ofNat 32 (natOf bs)

/-- Test the waiting lanes of a cohort at AWAIT: stale ones raise STALE, conditions found true stay true, and when all are, every lane receives its word's
generation, with what came before the updates counted towards it, and the cohort goes on. R191 says of a lane found true both that it stays satisfied and
that it raises STALE as its word's age passes L: here its STALE comes with the read at release. DESIGN CHOICE, log 49. -/
def State.awaitTest (s : State) (cid : Nat) : State :=
  match s.cohorts.find cid with
  | none => s
  | some c =>
    match c.st with
    | .await d stall =>
      let look (l : Lane) : Lane := match l.await with
        | none => l
        | some w => { l with await := some { w with ok := w.ok || (s.generation c.crew w.addr).any (· != w.gen) } }
      let lanes := c.lanes.map look
      let ready := lanes.all fun l => l.await.all (·.ok)
      let stale := lanes.filter fun l => l.await.any fun w => (ready || !w.ok) && (s.generation c.crew w.addr).isNone
      let s := s.setCohort { c with lanes := lanes }
      if !stale.isEmpty then
        stale.foldl (init := s) fun s l => s.raiseStale c l ((l.await.map (·.addr)).getD 0)
      else if ready then
        let s := lanes.foldl (init := s) fun s l => match l.await with
          | none => s
          | some w => (s.noteRead l.tid (spadByteKey c.crew w.addr) 16).putV cid l.tid d ((s.generation c.crew w.addr).getD 0) 0
        (s.modCohort cid fun k => { k with lanes := k.lanes.map fun l => { l with await := none } }).advance cid stall
      else s
    | _ => s

/-- Test a cohort again while stale lanes leave it, so that the lanes left are released in the same clock; `n` bounds the tests. -/
def State.awaitTests (s : State) (cid : Nat) : Nat → State
  | 0 => s
  | n + 1 => State.awaitTests (s.awaitTest cid) cid n

def State.awaitSettle (s : State) (cid : Nat) : State :=
  s.awaitTests cid (((s.cohorts.find cid).map fun c => c.lanes.length + 1).getD 0)

/-- A write to a crew's scratchpad, and the tests of its waiting AWAITs (R178, R191). -/
def State.spadWrite (s : State) (crew o : Nat) (bs : List Byte) : State :=
  let s := s.spadWriteFrom crew bs.length o bs
  (s.cohortsOf crew).foldl (fun s c => s.awaitSettle c.id) s

/-! ## Saving segments, and leaving C1 and C2 (R182, R331, R381) -/

/-- Segments of a crew as they are saved (R182): live ones, with their ages. -/
def State.saveSegs (s : State) (crew : Nat) : State :=
  { s with segs := s.segs.filterMap fun (e : Nat × Seg) =>
      if e.1 / 4096 == crew then
        if s.liveSeg crew (e.1 % 4096) then some (e.1, { e.2 with stamp := s.tickOf crew - e.2.stamp }) else none
      else some e }

/-- Saved segments come back with stamps that continue their ages (R182). -/
def State.restoreSegs (s : State) (crew : Nat) : State :=
  { s with segs := s.segs.map fun (e : Nat × Seg) =>
      if e.1 / 4096 == crew then (e.1, { e.2 with stamp := s.tickOf crew - e.2.stamp }) else e }

/-- A cluster leaves C2 for C1: its clocks go on, and its crews return. Its die has left C3 by then (R381). -/
def State.wakeCluster (s : State) (cl : Nat) : State :=
  let s := s.wakeDie (cl / 9)
  let slept := (List.range 8).map (8 * cl + ·) |>.filter fun n => (s.core n).power == 2
  slept.foldl (init := s) fun s n =>
    let k := s.core n
    let s := s.setCore n { k with power := 1, stopped := k.stopped + (s.clock - k.last), last := s.clock }
    (s.crewsOn n).foldl (init := s) fun s w =>
      (s.restoreSegs w.id).setCrew { w with running := w.stopping.isNone && (s.pkg.frozen.find cl).isNone }

/-- A core comes to C0. -/
def State.wakeCore (s : State) (n : Nat) : State :=
  if (s.core n).power = 0 then s
  else
    let s := s.wakeDie (dieOf n)
    let s := if (s.core n).power = 2 then s.wakeCluster (clusterOf n) else s
    s.setCore n { s.core n with power := 0, idle := 0 }

/-- The core of a crew comes to C0 before its scratchpad is used by an engine. -/
def State.wakeFor (s : State) (crew : Nat) : State :=
  match (s.crews.find crew).bind (·.core) with
  | some n => s.wakeCore n
  | none => s

/-- R185: b bytes have arrived; none is STALE. -/
def State.arrive (s : State) (crew o b : Nat) : Option State :=
  match s.spadRead crew o 16 with
  | none => none
  | some bs =>
    let v := natOf bs
    let target := bits v 0 32
    let count := min (bits v 32 32 + b) (2 ^ 32 - 1)
    let gen := bits v 64 32
    let armed := bits v 96 1
    let full := armed == 1 && target != 0
    let gens := if full then count / target else 0
    let left := if full then count % target else count
    some (s.spadWrite crew o (bytesOf 16 (target + 2 ^ 32 * left + 2 ^ 64 * ((gen + gens) % 2 ^ 32) + 2 ^ 96 * armed)))

/-! ## Effects (R186, R188 to R190) -/

/-- RENEW (R189): the live segments of a range are stamped. -/
def State.renew (s : State) (crew a len : Nat) : State :=
  (List.range (len / 256)).foldl (init := s) fun s i =>
    if s.liveSeg crew (a / 256 + i) then s.stamp crew (a / 256 + i) else s

/-- ARM (R190): the generation is unchanged in a live segment, 0 in another. -/
def State.arm (s : State) (crew a : Nat) (v : Word) : State :=
  let gen := ((s.generation crew a).getD 0).toNat
  s.spadWrite crew a (bytesOf 16 (v.toNat + 2 ^ 64 * gen + (if v == 0 then 0 else 2 ^ 96)))

/-- The addition of an ATOMS whose word has been found live (R110, R188): it is not checked again, and its segment has kept its data. -/
def State.atomsAdd (s : State) (crew a size v : Nat) : State :=
  let old := natOf ((List.range size).map fun i => s.spad.get 0 (spadKey crew (a + i)))
  (s.stamp crew (a / 256)).spadWrite crew a (bytesOf size (old + v))

/-- Perform a scratchpad effect of a thread. -/
def State.spadEff (s : State) (crew tid : Nat) (e : Effect) : State :=
  match e with
  | .sts a bs _ => (s.spadWrite crew a bs).noteWrite tid (spadByteKey crew a) bs.length
  | .atoms a n v _ _ => ((s.noteRead tid (spadByteKey crew a) n).atomsAdd crew a n v).noteWrite tid (spadByteKey crew a) n
  | .renew a len => s.renew crew a len
  | .arm a v => (s.arm crew a v).noteWrite tid (spadByteKey crew a) 16
  | _ => s

/-! ## Lanes of the scratchpad instructions (R174) -/

/-- The address of a lane, exact. -/
def State.spadAddr (s : State) (c : Cohort) (x : Mem) (l : Lane) : Int :=
  ((s.seenV c l.tid x.base.toNat).toNat : Int) + offOf x.off

/-- MISALIGN and SPADDR of an access of `n` bytes at alignment `k` (R49, R174); else `f`. DESIGN CHOICE, log 49: where the exact address is negative or
at least 2^32, of which no rule gives the record's address field, it is shown modulo 2^32. -/
def State.withSpad (s : State) (c : Cohort) (x : Mem) (k n : Nat) (l : Lane) (f : State → Nat → State) : State :=
  let a := s.spadAddr c x l
  let shown := (a % 2 ^ 32).toNat -- DESIGN CHOICE, log 49
  if a % k ≠ 0 then s.raiseIn c [l] .misalign c.offset fun _ => shown
  else if a < 0 ∨ a + n > s.window c.crew then s.raiseIn c [l] .spaddr c.offset fun _ => shown
  else f s a.toNat

/-- A byte behind a lane's buffered scratchpad effects, youngest first (R105, R186). -/
def fwdSpad (below : Nat → Byte) : List Effect → Nat → Byte
  | [], a => below a
  | .sts o bs _ :: older, a => if o ≤ a && a < o + bs.length then bs.getD (a - o) 0 else fwdSpad below older a
  | .atoms o n v _ _ :: older, a =>
    if o ≤ a && a < o + n then
      (bytesOf n (natOf ((List.range n).map fun i => fwdSpad below older (o + i)) + v)).getD (a - o) 0
    else fwdSpad below older a
  | .arm o v :: older, a =>
    if o ≤ a && a < o + 16 then
      if o + 8 ≤ a && a < o + 12 then fwdSpad below older a
      else (bytesOf 16 (v.toNat + (if v == 0 then 0 else 2 ^ 96))).getD (a - o) 0
    else fwdSpad below older a
  | _ :: older, a => fwdSpad below older a

/-- Whether a buffered effect supplies a byte. DESIGN CHOICE, log 49: an ARM, which leaves the generation as it is (R190), supplies the 12 other bytes of
its word, so that an LDS of the generation is checked under R177; R186 does not say which bytes an ARM supplies. -/
def suppliesByte (a : Nat) : Effect → Bool
  | .sts o bs _ => o ≤ a && a < o + bs.length
  | .atoms o n _ _ _ => o ≤ a && a < o + n
  | .arm o _ => o ≤ a && a < o + 16 && !(o + 8 ≤ a && a < o + 12)
  | _ => false

/-- Issue a scratchpad instruction lane by lane, in ascending lane position; one that releases waits as R270 says, and so does an LDS.SC, in a trace of
either class (R105); one of order .SC behaves as FENCE.SC first (R277). -/
def State.issueSpad (s : State) (c : Cohort) (i : Instr) (x : Mem) (f : State → Lane → State) : State :=
  let lanes := s.execLanes c x.pred
  let rel := (c.irr || i == .lds x) && releases x.order && !lanes.isEmpty
  let s := if rel then s.flushQuantum c.core else s
  if rel && s.orderWaits c x.order lanes then s.hold c.id
  else s.issue c i x.pred x.stall fun s lanes => lanes.foldl f (if rel then s.fenceFirst c x.order .crew else s)

/-- Sixteen bytes that nothing gives, from four free words. -/
def State.drawBytes (s : State) : List Byte × State :=
  let (a, s) := s.drawWord
  let (b, s) := s.drawWord
  let (c, s) := s.drawWord
  let (d, s) := s.drawWord
  (bytesOf 16 (a.toNat + 2 ^ 32 * b.toNat + 2 ^ 64 * c.toNat + 2 ^ 96 * d.toNat), s)

/-- One lane of LDS (R187). -/
def State.ldsLane (s : State) (c : Cohort) (x : Mem) (l : Lane) : State :=
  let n := widthBytes x.width
  s.withSpad c x n n l fun s a =>
    let buf := if c.irr then [] else l.buf
    let own := (List.range n).all fun i => buf.any (suppliesByte (a + i))
    match own, s.spadRead c.crew a n with
    | false, none => s.raiseStale c l a
    | own, some bs =>
      let s := if own then s else (s.probePart c.crew a).noteRead l.tid (spadByteKey c.crew a) n
      match if own then none else s.coh.poison.find (partKey c.crew a) with
      | some f => s.consume c l a (partKey c.crew a) f
      | none => s.putLoad c.id l.tid x.d x.width
          ((List.range n).map fun i => fwdSpad (fun o => if o < a then s.spad.get 0 (spadKey c.crew o) else bs.getD (o - a)
            (s.spad.get 0 (spadKey c.crew o))) buf.reverse (a + i))
    | true, none =>
      -- an ATOMS behind a stale segment forwards a value that nothing gives (log 11)
      let (bs, s) := s.drawBytes
      s.putLoad c.id l.tid x.d x.width
        ((List.range n).map fun i => fwdSpad (fun o => bs.getD (o % 16) 0) buf.reverse (a + i))

def execLds (x : Mem) (s : State) : Host.Outcome State Fault Refusal :=
  onCohort s fun c s => s.issueSpad c (.lds x) x fun s l => s.ldsLane c x l

/-- One lane of STS (R187): buffered in a revocable trace (R104). -/
def State.stsLane (s : State) (c : Cohort) (x : Mem) (l : Lane) : State :=
  let n := widthBytes x.width
  s.inBudget c l fun s => s.withSpad c x n n l fun s a =>
    let bs := s.srcBytes c l.tid x.d x.width
    if c.irr then (s.spadWrite c.crew a bs).noteWrite l.tid (spadByteKey c.crew a) n else s.buffer c l (.sts a bs x.order)

def execSts (x : Mem) (s : State) : Host.Outcome State Fault Refusal :=
  onCohort s fun c s => s.issueSpad c (.sts x) x fun s l => s.stsLane c x l

/-- One lane of ATOMS (R188). -/
def State.atomsLane (s : State) (c : Cohort) (x : Mem) (l : Lane) : State :=
  let n := widthBytes x.width
  s.inBudget c l fun s => s.withSpad c x n n l fun s a =>
    let v := natOf (s.srcBytes c l.tid x.e x.width)
    if !c.irr then s.buffer c l (.atoms a n v x.order c.offset)
    else
      let s := s.probePart c.crew a
      match s.spadRead c.crew a n with
      | none => s.raiseStale c l a
      | some old =>
        match s.coh.poison.find (partKey c.crew a), x.d == 0 with
        | some f, false => s.consume c l a (partKey c.crew a) f
        | some _, true => s
        | none, noret =>
          let s := ((s.noteRead l.tid (spadByteKey c.crew a) n).atomsAdd c.crew a n v).noteWrite l.tid (spadByteKey c.crew a) n
          if noret then s else s.putLoad c.id l.tid x.d x.width old

def execAtoms (x : Mem) (s : State) : Host.Outcome State Fault Refusal :=
  onCohort s fun c s => s.issueSpad c (.atoms x) x fun s l => s.atomsLane c x l

/-- One lane of RENEW (R189): its address is checked before its length, so that a length of 0 raises MISALIGN and SPADDR too. DESIGN CHOICE,
log 49, as is the address that a record shows. -/
def State.renewLane (s : State) (c : Cohort) (x : Mem) (l : Lane) : State :=
  s.inBudget c l fun s =>
    let a := s.spadAddr c x l
    let len := (s.seenV c l.tid x.d.toNat).toNat
    let shown := (a % 2 ^ 32).toNat
    if a % 256 ≠ 0 ∨ len % 256 ≠ 0 then s.raiseIn c [l] .misalign c.offset fun _ => shown
    else if a < 0 ∨ a + len > s.window c.crew then s.raiseIn c [l] .spaddr c.offset fun _ => shown
    else if c.irr then s.renew c.crew a.toNat len
    else s.buffer c l (.renew a.toNat len)

def execRenew (x : Mem) (s : State) : Host.Outcome State Fault Refusal :=
  onCohort s fun c s => s.issueSpad c (.renew x) x fun s l => s.renewLane c x l

/-- One lane of ARM (R190). -/
def State.armLane (s : State) (c : Cohort) (x : Mem) (l : Lane) : State :=
  s.inBudget c l fun s => s.withSpad c x 16 16 l fun s a =>
    let v := s.seenV c l.tid x.d.toNat
    if c.irr then (s.arm c.crew a v).noteWrite l.tid (spadByteKey c.crew a) 16 else s.buffer c l (.arm a v)

def execArm (x : Mem) (s : State) : Host.Outcome State Fault Refusal :=
  onCohort s fun c s => s.issueSpad c (.arm x) x fun s l => s.armLane c x l

/-- One lane of AWAIT at issue (R191): what it waits on. -/
def State.awaitLane (s : State) (c : Cohort) (x : Mem) (l : Lane) : State :=
  s.withSpad c x 16 16 l fun s a =>
    let g := s.seenV c l.tid x.d.toNat
    s.modLane c.id l.tid fun l => { l with await := some ⟨a, g, false⟩ }

/-- AWAIT (R191): the conditions are tested at issue; the pc stays until every lane's has been found true. -/
def execAwait (x : Mem) (s : State) : Host.Outcome State Fault Refusal :=
  onCohort s fun c s =>
    if s.stallShort c (.await x) then s.raiseIn c c.active .stallshort c.offset fun _ => 0
    else
      match s.execLanes c x.pred with
      | [] => s.advance c.id x.stall
      | lanes =>
        let s := lanes.foldl (fun s l => s.awaitLane c x l) s
        (s.modCohort c.id fun k => { k with st := .await x.d.toNat x.stall }).awaitSettle c.id

/-- SPAGE (R192): a segment's state. -/
def State.spageWord (s : State) (crew a : Nat) : Word :=
  let j := a / 256
  let (i, life) := regionAt (s.regionsOf crew) 0 j
  match s.segs.find (segKey crew j) with
  | none => BitVec.ofNat 32 (2 ^ 31 + i * 2 ^ 16)
  | some g =>
    let age := s.ageOf crew g
    BitVec.ofNat 32 ((if g.expired || age > life then 2 ^ 30 else 0) + i * 2 ^ 16 + age)

def State.spageLane (s : State) (c : Cohort) (x : Mem) (l : Lane) : State :=
  s.withSpad c x 4 4 l fun s a => s.putV c.id l.tid x.d.toNat (s.spageWord c.crew a) 0

def execSpage (x : Mem) (s : State) : Host.Outcome State Fault Refusal :=
  onCohort s fun c s => s.issueSpad c (.spage x) x fun s l => s.spageLane c x l

/-- AWAIT_STALE (R177, R191): the age of a waited-on word has passed its lifetime. -/
def execAwaitStale (cid : Nat) (s : State) : Host.Outcome State Fault Refusal := .next (s.awaitSettle cid)

end Sys2Proof.Machine
end

