-- ==== Sys2Proof/Machine/Tensor.lean ====
section
/-! DEFINITION. Tensor entries (R196 to R202) and the accesses of tile and engine operations (R205, R208, R227, R291, R294). -/

namespace Sys2Proof.Machine

/-! ## Entries (R197, R198) -/

/-- A tensor entry's fields; `space` is true for the scratchpad and `clean` when every reserved bit is 0. -/
structure TEntry where
  valid      : Bool
  clean      : Bool
  compressed : Bool
  space      : Bool
  format     : Nat
  base       : Nat
  rows       : Nat
  columns    : Nat
  stride     : Nat
  scale      : Int
  scBase     : Nat
  scStride   : Nat
  mdBase     : Nat
  mdStride   : Nat
  deriving DecidableEq, Repr

/-- The entry that 512 bits give. -/
def TEntry.of (n : Nat) : TEntry where
  valid := bits n 480 1 == 1
  clean := bits n 482 30 == 0 && bits n 216 40 == 0 && bits n 100 4 == 0 && bits n 81 15 == 0
  compressed := bits n 481 1 == 1
  space := bits n 80 1 == 1
  format := bits n 96 4
  base := bits n 0 80
  rows := bits n 112 32
  columns := bits n 144 32
  stride := bits n 176 40
  scale := intOf (bits n 104 8) 8 true
  scBase := bits n 256 80
  scStride := bits n 336 32
  mdBase := bits n 368 80
  mdStride := bits n 448 32

/-- The bytes of an element, of a group of four LG6 elements, or of a byte of two nibbles. -/
def unitBytes : Nat → Nat
  | 0 | 5 => 4
  | 1 => 8
  | 2 | 3 => 2
  | 6 => 3
  | _ => 1

/-- The element size of the byte formats, by which base and stride are aligned; 1 for the others (R199). -/
def alignOf (format : Nat) : Nat := if format ≤ 5 then unitBytes format else 1

/-- What R202 finds wrong with an entry, given the formats allowed and whether it must be compressed, and whether memory only is
allowed. -/
def TEntry.check (e : TEntry) (formats : List Nat) (compressed memOnly : Bool) : Option Cause :=
  if !e.valid || !e.clean || !formats.contains e.format || e.compressed != compressed || (memOnly && e.space) ||
      (e.space && e.base / 2 ^ 32 != 0) then some .prot
  else if e.base % alignOf e.format != 0 || e.stride % alignOf e.format != 0 then some .misalign
  else none

/-- The virtual address of entry h (R196); none when it carries out of bit 63. -/
def entryVa (r : SysRegs) (h : Nat) : Option Nat :=
  let t := bits r.tensorbase.toNat 6 74 * 64
  if t % 2 ^ 64 + 64 * h ≥ 2 ^ 64 then none else some (t + 64 * h)

/-! ## Elements (R199, R200) -/

/-- A byte's key in what an operation fetches: its virtual address, or 2^80 + its offset in the window. -/
def spadByte (o : Nat) : Nat := 2 ^ 80 + o

/-- The key of a byte at a distance from a memory base (R199): none when its address carries out of bit 63. -/
def memByte (base off : Nat) : Option Nat := if base % 2 ^ 64 + off ≥ 2 ^ 64 then none else some (base + off)

/-- The key of a byte of a tensor, z bytes of plane offset in. -/
def TEntry.byteAt (e : TEntry) (off : Nat) : Option Nat :=
  if e.space then some (spadByte (e.base % 2 ^ 32 + off)) else memByte e.base off

def TEntry.inside (e : TEntry) (row col : Nat) : Bool := row < e.rows && col < e.columns

/-- The distance from the base of the bytes that hold an element. -/
def TEntry.offset (e : TEntry) (row col : Nat) : Nat :=
  row * e.stride + (if e.format == 6 then 3 * (col / 4) else if e.format ≥ 7 then col / 2 else col * unitBytes e.format)

/-- The keys of the bytes that hold an element; none for one that lies outside. -/
def TEntry.elemBytes (e : TEntry) (row col : Nat) : List (Option Nat) :=
  if e.inside row col then (List.range (unitBytes e.format)).map fun b => e.byteAt (e.offset row col + b) else []

/-- An element's code in the bytes that hold it. -/
def pickElem (format col v : Nat) : Nat :=
  if format == 6 then bits v (6 * (col % 4)) 6 else if format ≥ 7 then bits v (4 * (col % 2)) 4 else v

/-- Elem (R199) from fetched bytes: the zero code outside the tensor. -/
def TEntry.elem (e : TEntry) (m : Map Byte) (row col : Nat) : Nat :=
  if e.inside row col then
    pickElem e.format col (natOf ((e.elemBytes row col).map fun k => (k.map fun k => Map.get m 0 k).getD 0))
  else 0

/-- The keys of the two bytes of a scale (R200). -/
def TEntry.scaleBytes (e : TEntry) (row col : Nat) (kRows : Bool) : List (Option Nat) :=
  if e.inside row col then
    let off := if kRows then row / 32 * e.scStride + 2 * col else row * e.scStride + 2 * (col / 32)
    [memByte e.scBase off, memByte e.scBase (off + 1)]
  else []

/-- The value of a W4 element, a BF16 pattern: +0 outside the tensor (R199, R200). -/
def TEntry.w4 (e : TEntry) (m : Map Byte) (row col : Nat) (kRows : Bool) : Nat :=
  if e.inside row col then
    w4Deq (e.elem m row col) (e.format == 8)
      (natOf ((e.scaleBytes row col kRows).map fun k => (k.map fun k => Map.get m 0 k).getD 0))
  else 0

/-- The key of the byte of a metadata nibble (R200). -/
def TEntry.mdByte (e : TEntry) (row q : Nat) : Option Nat := memByte e.mdBase (row * e.mdStride + q / 2)

/-- A metadata nibble from fetched bytes. -/
def TEntry.nibble (e : TEntry) (m : Map Byte) (row q : Nat) : Nat :=
  bits (((e.mdByte row q).map fun k => (Map.get m 0 k).toNat).getD 0) (4 * (q % 2)) 4

/-! ## Attribution and faults (R208, R294) -/

/-- The record of a fault of an operation. -/
def State.recOf (s : State) (a : Attr) (cause : Cause) (addr : Nat) : FaultRec :=
  { FaultRec.of cause a.ctx with
    engine := a.stream.isNone, streamC := a.stream.isSome, traceId := a.traceId, offset := a.offset, lane := a.lane, core := a.core,
    cmd := a.cmd, wid := a.wid, addr := addr, crewId := ((s.crews.find a.crew).map (·.crewId)).getD 0,
    stream := a.stream.getD 0 }

/-- The attribution of an operation that a lane of a cohort issues. -/
def State.attrOf (s : State) (c : Cohort) (l : Lane) : Attr :=
  ⟨s.ctxOf c.crew, c.crew, l.tid, c.traceId, c.offset, l.pos, ((s.threads.find l.tid).map (·.wid)).getD 0, c.core, none, 0⟩

/-- A context-level fault of an operation. -/
def State.faultOp (s : State) (a : Attr) (cause : Cause) (addr : Nat) : State := s.terminateBy (s.recOf a cause addr)

/-- The recoverable record of an operation that waits on PAGE, at the address that failed; none for a silent wait. -/
def State.pageOp (s : State) (a : Attr) (va : Option Nat) : State :=
  match va with
  | some va => s.report { s.recOf a .page va with recov := true }
  | none => s

/-- A consumption by an operation (R355, R356): that of a tile operation freezes its core's cluster, that of an engine freezes nothing. -/
def State.consumeOp (s : State) (agent : Nat) (a : Attr) (va sec : Nat) (f : Finder) : State :=
  s.sendReport (s.reportOf sec f (some a.ctx) ((agentCore agent).map clusterOf) (s.recOf a (finderCause f) va))

/-! ## Reaching memory -/

/-- What an access of an operation meets: a key of device memory with its leaf, a key reached by message, a wait with or without
a record, a fault, a damaged sector, or what is not to be touched now: a page under a flip, or bytes that a commit holds. -/
inductive Hit
  | go (key : Nat) (pte : Dword) (unit : Nat)
  | remote (key : Nat) (pte : Dword)
  | wait (w : PageWait) (record : Option Nat)
  | fault (cause : Cause) (addr : Nat)
  | damaged (sec : Nat)
  | busy
  deriving DecidableEq, Repr

/-- Translate an access of an operation to n bytes (R122, R208, R240, R294, R360, R379). -/
def State.opReach (s : State) (agent : Nat) (a : Attr) (va n : Nat) (acc : Acc) : Hit × State :=
  let (r, s) := s.translate agent a.ctx (s.regsOf a.ctx).ptroot (s.privOf a.ctx) va acc none
  match s.reachOf r with
  | .go key pte u =>
    if (if acc == .read then s.readStalled agent 0 key n else s.stalled 0 key n) then (.busy, s)
    else if key ≥ peerKey && !s.peerOk key then (.fault .prot va, s)
    else if s.remoteKey key then (.remote key pte, s)
    else (.go key pte u, s)
  | .page u => (.wait ⟨.page, pageOf va, u⟩ (some va), s)
  | .held u => (.wait ⟨.writeHeld, pageOf va, some u⟩ none, s)
  | .cow u => (.wait ⟨.cow, pageOf va, some u⟩ none, s.urge (.hw (.cowCopy a.ctx (pageOf va))))
  | .prot => (.fault .prot va, s)
  | .damaged sec => (.damaged sec, s)
  | .busy => (.busy, s)

/-- Whether an answer for an operation is still out. -/
def State.opAsked (s : State) (id : Nat) : Bool := s.coh.remote.any fun (e : Nat × Remote) =>
  match e.2.dest with | .op i _ => i == id | _ => false

/-- An operation asks for some sectors of the 512-byte line of a key: the host by the 64-byte lines that their units cover (R376), a peer by pieces
that one flit carries (R378, R379). -/
def State.askOp (s : State) (agent id va key : Nat) (secs : List Nat) : State :=
  let peer := decide (key ≥ peerKey)
  let ask (s : State) (a n : Nat) : State :=
    (s.sendRemote ⟨peer, none, a, n, [], .op id (va - va % 512 + a % 512), 0, 0, agent, false, false, none⟩).2
  if peer then ((secs.map (· / 4)).eraseDups).foldl (fun s q => ask s (128 * q) 128) s
  else (((secs.flatMap s.unitSecs).map (· / 2)).eraseDups).foldl (fun s l => ask s (64 * l) 64) s

/-- Whether a write of an operation still awaits its answer. -/
def State.opWriting (s : State) (id : Nat) : Bool := s.coh.remote.any fun (e : Nat × Remote) =>
  match e.2.dest with | .write => e.2.cohort == id && e.2.thread == 0 && id != 0 | _ => false

/-- Keep fetched bytes for an operation. -/
def State.putFetched (s : State) (id : Nat) (bs : List (Nat × Byte)) : State :=
  s.modEng fun g =>
    let d := g.opData.get OpData.none id
    { g with opData := g.opData.insert id { d with fetched := bs.foldr (fun b m => Map.insert m b.1 b.2) d.fetched } }

/-- What fetching the bytes of one line comes to. -/
inductive Fetch
  | ok
  | asked
  | wait (w : PageWait) (record : Option Nat)
  | fault (cause : Cause) (addr : Nat)
  | damaged (sec : Nat) (f : Finder) (addr : Nat)
  | busy
  deriving DecidableEq, Repr

/-- Note fetched bytes that came poisoned, for an engine, which goes on with them (R354). -/
def State.putBad (s : State) (id : Nat) (bs : List (Nat × Finder)) : State :=
  if bs.isEmpty then s
  else s.modEng fun g =>
    let d := g.opData.get OpData.none id
    { g with opData := g.opData.insert id { d with bad := bs.foldl (fun m b => Map.insert m b.1 b.2) d.bad } }

/-- Read the scratchpad bytes of an operation, which lie in one segment (R177, R202, R354); `soft` goes on with poisoned ones. -/
def State.fetchSpad (s : State) (soft : Bool) (a : Attr) (id : Nat) (os : List Nat) : Fetch × State :=
  let s := (os.map (· / 32)).eraseDups.foldl (fun s p => s.probePart a.crew (32 * p)) (s.wakeFor a.crew)
  match os.find? fun o => o ≥ s.window a.crew with
  | some o => (.fault .spaddr o, s)
  | none =>
    match os.find? fun o => (s.spadRead a.crew o 1).isNone with
    | some o => (.fault .stale o, s)
    | none =>
      let bad := os.filterMap fun o => (s.coh.poison.find (partKey a.crew o)).map (o, ·)
      match soft, bad with
      | false, (o, f) :: _ => (.damaged (partKey a.crew o) f o, s)
      | _, _ => (.ok, (s.putFetched id (os.map fun o => (spadByte o, s.spad.get 0 (spadKey a.crew o)))).putBad id
          (bad.map fun b => (spadByte b.1, b.2)))

/-- Read the memory bytes of an operation, which lie in one 512-byte line, at device scope (R205): writes that a die has
performed on them are performed there first. The slice reads the whole line; damage that an engine's read finds starts a decision where R354 says so,
and the engine goes on (R353). DESIGN CHOICE, log 23: such a decision has no consumer, since R355 names no copy engine among the consumers. -/
def State.fetchMem (s : State) (soft : Bool) (agent : Nat) (a : Attr) (id : Nat) (vas : List Nat) (md : Nat → Bool) :
    Fetch × State :=
  match vas with
  | [] => (.ok, s)
  | va :: _ =>
    let (h, s) := s.opReach agent a va (512 - va % 512) .read
    match h with
    | .go key _ _ =>
      let line := key - key % 512
      let keys := vas.map fun v => (v, line + v % 512)
      let s := s.flushDies fun d => overlap line 512 d.pa d.bytes.length
      let used := (keys.map fun k => sectorOf k.2).eraseDups
      let s := if soft then s.inspect true used else s
      let s := (used.foldl (fun s k => s.readHome (32 * k) 32) s).readIdle line 512
      let s := if vas.any md then s.grantIc a.core line 512 true else s
      let bad := keys.filterMap fun k => (s.poisonAt (sectorOf k.2)).map fun f => (k, f)
      match soft, bad with
      | false, (k, f) :: _ => (.damaged (sectorOf k.2) f k.1, s)
      | _, _ => (.ok, (s.putFetched id (keys.map fun k => (k.1, s.mem.read k.2))).putBad id (bad.map fun b => (b.1.1, b.2)))
    | .remote key _ =>
      let line := key - key % 512
      let keys := vas.map fun v => (v, line + v % 512)
      -- what the L2 holds of host data serves (R254, R376)
      if keys.all fun k => !s.farRead k.2 then (.ok, s.putFetched id (keys.map fun k => (k.1, s.seenByte 0 k.2)))
      else (.asked, s.askOp agent id va key (keys.map fun k => sectorOf k.2).eraseDups)
    | .wait w r => (.wait w r, s)
    | .fault c x => (.fault c x, s)
    | .damaged sec => (.damaged sec ((s.poisonAt sec).getD .hbm) va, s)
    | .busy => (.busy, s)

/-- Fetch the bytes of one line of an operation, of those it needs; the metadata cache keeps a line with metadata (R201). -/
def State.fetchLine (s : State) (soft : Bool) (agent : Nat) (a : Attr) (id : Nat) (keys : List Nat)
    (md : Nat → Bool := fun _ => false) : Fetch × State :=
  match keys with
  | [] => (.ok, s)
  | k :: _ => if k ≥ 2 ^ 80 then s.fetchSpad soft a id (keys.map (· - 2 ^ 80)) else s.fetchMem soft agent a id keys md

/-- What writing bytes comes to. -/
inductive Wrote
  | ok
  | wait (w : PageWait) (record : Option Nat)
  | fault (cause : Cause) (addr : Nat)
  | busy
  deriving DecidableEq, Repr

/-- Write bytes of an operation to memory, inside one line, at device scope (R205, R293, R354), on a watched page sector by sector, each counted (R237).
A walk that reads a poisoned entry consumes it (R355). -/
def State.storeMem (s : State) (agent : Nat) (a : Attr) (id va : Nat) (bs : List Byte) : Wrote × State :=
  let (h, s) := s.opReach agent a va bs.length .write
  match h with
  | .go key pte _ =>
    match s.mergeCheck key bs.length with
    | (some (sec, f), s) => (.wait ⟨.retired, pageOf va, some sec⟩ none, s.detect sec f)
    | (none, s) => (.ok, if pteWatch pte then (pieces bs.length key bs).foldl (fun s p => s.perform p.1 p.2 (.ctx a.ctx) true) s
        else s.perform key bs (.ctx a.ctx) false)
  | .remote key pte =>
    let e : MemEff := ⟨a.ctx, a.crew, 0, a.traceId, a.offset, va, bs, .store, .rlx, .dev, .sync⟩
    (.ok, (s.sendRemote ⟨decide (key ≥ peerKey), some e, key, bs.length, [], .write, id, 0, agent, pteWatch pte, false, none⟩).2)
  | .wait w r => (.wait w r, s)
  | .fault c x => (.fault c x, s)
  | .damaged sec => (.wait ⟨.retired, pageOf va, some sec⟩ none, s.consumeOp agent a va sec ((s.poisonAt sec).getD .hbm))
  | .busy => (.busy, s)

/-- Write bytes of an operation to a crew's scratchpad, inside one segment (R178, R202). -/
def State.storeSpad (s : State) (a : Attr) (o : Nat) (bs : List Byte) : Wrote × State :=
  if o + bs.length > s.window a.crew then (.fault .spaddr o, s) else (.ok, (s.wakeFor a.crew).spadWrite a.crew o bs)

/-- Write the bytes of an element or run: to memory, or to the scratchpad. -/
def State.storeAt (s : State) (agent : Nat) (a : Attr) (id : Nat) (key : Option Nat) (bs : List Byte) : Wrote × State :=
  match key with
  | none => (.fault .addrovf 0, s)
  | some k => if k ≥ 2 ^ 80 then s.storeSpad a (k - 2 ^ 80) bs else s.storeMem agent a id k bs

/-! ## Capturing an entry at issue (R201) -/

/-- Read entry h for a cohort through the instruction and descriptor cache; the lanes whose access fails have been dealt
with when there is none. -/
def State.capture (s : State) (c : Cohort) (lanes : List Lane) (h : BitVec 12) : Option (Nat × Nat) × State :=
  match lanes with
  | [] => (none, s)
  | low :: _ =>
    match entryVa c.snap h.toNat with
    | none => (none, s.raiseIn c lanes .addrovf c.offset fun _ => 0)
    | some va =>
      let (r, s) := s.reach c low.pos va .read
      match r with
      | .go key _ _ =>
        if key ≥ peerKey && !s.peerOk key then (none, s.raiseIn c lanes .prot c.offset fun _ => va)
        else if s.remoteKey key then
          let m := (s.eng.opData.get OpData.none c.id).fetched
          (some (natOf ((List.range 64).map fun i => Map.get m 0 (va + i)), va), s)
        else
          let s := (s.flushNamed c.core key 64).readHome key 64
          match s.poisonedIn key 64 with
          | some (sec, f) => (none, s.consumeAll c lanes va sec f)
          | none => (some (natOf (s.viewBytes (dieOf c.core) key 64), va),
              lanes.foldl (fun s l => s.noteRead l.tid key 64) (s.grantIc c.core key 64 false))
      | .prot => (none, s.raiseIn c lanes .prot c.offset fun _ => va)
      | .damaged sec => (none, s.consumeAll c lanes va sec ((s.poisonAt sec).getD .hbm))
      | r => (none, lanes.foldl (fun s l => s.holdThread c l va r) s)

/-- Whether entry h can be captured now: not while its page is under a flip (R240) or its bytes are held, not while a thread has a write
of its own under way there (R234, R246), and, in memory reached by message, once its bytes have come (R376, R379). -/
def State.entryReady (s : State) (c : Cohort) (h : BitVec 12) : Bool × State :=
  match entryVa c.snap h.toNat with
  | none => (true, s)
  | some va =>
    match s.peek c va .read with
    | .busy => (false, s)
    | .ask sec => (false, s.askHost (tcAgent c.core) sec)
    | .ok key _ _ _ =>
      let s := s.flushNamed c.core key 64
      if c.active.any fun l => s.readStalled (icAgent c.core) l.tid key 64 || s.ownUnderWay c va 64 l then (false, s)
      else if !s.remoteKey key || (key ≥ peerKey && !s.peerOk key) then (true, s)
      else if s.opAsked c.id then (false, s)
      else if (List.range 64).all fun i => ((s.eng.opData.get OpData.none c.id).fetched.find (va + i)).isSome then (true, s)
      else (false, s.askOp (tcAgent c.core) c.id va key (sectorsOf key 64))
    | _ => (true, s)

/-- Whether the entries of an instruction can be captured now. -/
def State.entriesReady (s : State) (c : Cohort) : List (BitVec 12) → Bool × State
  | [] => (true, s)
  | h :: hs =>
    match s.entryReady c h with
    | (true, s) => State.entriesReady s c hs
    | r => r

/-- Capture the entries of an instruction, in order. -/
def State.captures (s : State) (c : Cohort) (lanes : List Lane) : List (BitVec 12) → Option (List (Nat × Nat)) × State
  | [] => (some [], s)
  | h :: hs =>
    match s.capture c lanes h with
    | (none, s) => (none, s)
    | (some e, s) =>
      match State.captures s c lanes hs with
      | (some es, s) => (some (e :: es), s)
      | r => r

/-- The bytes kept for the entries of a cohort's instruction go. -/
def State.dropFetched (s : State) (id : Nat) : State := s.modEng fun g => { g with opData := g.opData.erase id }

end Sys2Proof.Machine
end

