-- ==== Sys2Proof/Machine/Command.lean ====
section
/-! DEFINITION. The command processor's accesses and the stream descriptors (R301 to R303). -/

namespace Sys2Proof.Machine

/-- A stream descriptor (R301). -/
structure StreamDesc where
  head     : Nat
  tail     : Nat
  context  : Nat
  enabled  : Bool
  fed      : Bool
  priority : Nat
  size     : Nat
  ring     : Nat
  deriving DecidableEq, Repr

/-- The descriptor of a stream, as its table holds it; none where no table is set. -/
def State.streamDesc (s : State) (n : Nat) : Option StreamDesc :=
  if s.cmd.streamTab = 0 || n ≥ 1024 then none
  else
    let d := s.mem.readNat (s.cmd.streamTab + 64 * n) 64
    some { head := bits d 256 80, tail := bits d 128 80, context := bits d 96 12, enabled := bits d 92 1 == 1,
           fed := bits d 91 1 == 1, priority := bits d 88 3, size := bits d 80 8, ring := bits d 0 80 }

def State.stream (s : State) (n : Nat) : Stream := s.cmd.streams.get Stream.fresh n

def State.modStream (s : State) (n : Nat) (f : Stream → Stream) : State :=
  s.modCmd fun c => { c with streams := c.streams.insert n (f (c.streams.get Stream.fresh n)) }

/-- Whom the command processor's accesses for a command are attributed to. -/
def streamAttr (ctx n cmd : Nat) : Attr := ⟨ctx, 0, 0, 0, 0, 0, 0, 0, some n, cmd⟩

/-- A stream stops at its command (R301): a record for the host driver, not terminating. -/
def State.stopStream (s : State) (ctx n cmd : Nat) (cause : Cause) (addr : Nat) : State :=
  ((s.modStream n fun t => { t with stopped := true }).dropFetched (cpId n)).report (s.recOf (streamAttr ctx n cmd) cause addr)

/-- What a read or write by the command processor comes to: a value; later, when an answer or a page has come; or the stream stopped. -/
inductive Got
  | val (v : Nat)
  | later
  deriving DecidableEq, Repr

/-- A page the command processor waits for: its record is written once. -/
def State.cpWait (s : State) (a : Attr) (n : Nat) (w : PageWait) (record : Option Nat) : State :=
  if (s.stream n).pages.contains w.page then s
  else
    (s.modStream n fun t => { t with pages := t.pages ++ [w.page] }).pageOp a record

/-- Fetch what is still missing of some bytes for a stream, line by line, and give their value. The bytes are kept until the look ends, since
words of peer memory are in no cache and arrive one after another (R379). -/
def State.cpFetch (s : State) (ctx n cmd va k : Nat) : Nat → Got × State
  | 0 => (.later, s)
  | fuel + 1 =>
    let a := streamAttr ctx n cmd
    let m : Map Byte := (s.eng.opData.get OpData.none (cpId n)).fetched.filter fun e => va ≤ e.1 && e.1 < va + k
    if m.length == k then (.val (natOf m.vals), s)
    else
      let missing := ((List.range k).map (va + ·)).filter fun i => (m.find i).isNone
      match s.fetchLine false cpAgent a (cpId n) (missing.filter fun j => j / 512 == missing.headD 0 / 512) with
      | (.ok, s) => State.cpFetch s ctx n cmd va k fuel
      | (.asked, s) | (.busy, s) => (.later, s)
      | (.wait w r, s) => (.later, s.cpWait a n w r)
      | (.fault cause addr, s) => (.later, s.stopStream ctx n cmd cause addr)
      | (.damaged sec f addr, s) =>
        if (s.stream n).pages.contains (pageOf addr) then (.later, s)
        else (.later, (s.cpWait a n ⟨.retired, pageOf addr, some sec⟩ none).consumeOp cpAgent a addr sec f)

/-- Read k bytes for a stream with acquire at system scope. -/
def State.cpRead (s : State) (ctx n cmd va k : Nat) : Got × State :=
  if s.opAsked (cpId n) then (.later, s) else s.cpFetch ctx n cmd va k (k / 512 + 3)

/-- A look of the command processor for a stream ends: what it has fetched goes, unless an answer for it is still out. -/
def State.endLook (s : State) (n : Nat) : State := if s.opAsked (cpId n) then s else s.dropFetched (cpId n)

/-- Write bytes for a stream with release at system scope, inside one line. -/
def State.cpWrite (s : State) (ctx n cmd va : Nat) (bs : List Byte) : Got × State :=
  let a := streamAttr ctx n cmd
  match s.storeMem cpAgent a (cpId n) va bs with
  | (.ok, s) => (.val 0, s)
  | (.busy, s) => (.later, s)
  | (.wait w r, s) => (.later, s.cpWait a n w r)
  | (.fault cause addr, s) => (.later, s.stopStream ctx n cmd cause addr)

/-- The command processor takes a read token on the unit of a word that it is about to read (R301, R304), and the key of the word, so that no later
write goes unnoticed; behind what stands at the home its request waits there (R347). A word of host memory is watched through the L2's copy (R376). -/
def State.cpWatch (s : State) (ctx va : Nat) : Option Nat × State :=
  match s.walk cpAgent (s.regsOf ctx).ptroot (s.privOf ctx) va .read with
  | .ok key _ _ _ => (some key, if s.remoteKey key then s
      else if s.readStalled cpAgent 0 key 4 then s.post (.hw (.rdtok cpAgent (sectorOf key))) else s.grant (sectorOf key) cpAgent)
  | _ => (none, s)

/-- The head of a stream advances past its complete command (R301, R303). -/
def State.advanceHead (s : State) (n : Nat) : State :=
  match s.streamDesc n, (s.stream n).cmd with
  | some d, some k =>
    match s.cpWrite d.context n k d.head (bytesOf 4 ((k + 1) % 2 ^ 32)) with
    | (.val _, s) => s.modStream n fun t => { t with
        cmd := none, started := false, done := false, op := none, watch := none, pages := [], head := (k + 1) % 2 ^ 32 }
    | (.later, s) => s
  | _, _ => s

/-- A stream's command is complete. -/
def State.finishCmd (s : State) (n : Nat) : State := (s.modStream n fun t => { t with done := true }).advanceHead n

/-- An interrupt of a context's vector (R372). -/
def State.signal (s : State) (ctx : Nat) : State :=
  match s.ctxs.find ctx with
  | some x => if x.vector ≥ 2 then s.modPkg fun p => { p with msix := p.msix ++ [x.vector] } else s
  | none => s

/-- An event bit of BAR0 (R372): vector 1 when it is newly set. -/
def State.setEvent (s : State) (b : Nat) : State :=
  s.modPkg fun p =>
    { p with event := p.event ||| (1 <<< b), msix := if p.event.getLsbD b then p.msix else p.msix ++ [1] }

end Sys2Proof.Machine
end

