-- ==== Sys2Proof/Machine/Integer.lean ====
section
/-! DEFINITION. Integer and address arithmetic, moves, and lane exchange (R130 to R149). -/

namespace Sys2Proof.Machine

/-- The signed integer types. -/
def isSigned : Ty → Bool
  | .s32 | .s64 | .s16x2 | .s16 => true
  | _ => false

/-- The scalar width of a type. -/
def widthOf (t : Ty) : Nat := if t.is64 then 64 else 32

/-- Apply a function to the elements of up to three operands (R50, R131). -/
def mapElems (ws : List Nat) (f : Nat → Nat → Nat → Nat → Nat) (a b c : Nat) : Nat :=
  match ws with
  | [] => 0
  | w :: ws => f w (a % 2 ^ w) (b % 2 ^ w) (c % 2 ^ w) % 2 ^ w +
      2 ^ w * mapElems ws f (a / 2 ^ w) (b / 2 ^ w) (c / 2 ^ w)

/-- The mould of R131: the exact integer of each element, wrapped or saturated. -/
def intMould (x : Alu) (t : Int → Int → Int → Int) (e : ExLane) : Nat :=
  let sg := isSigned x.ty
  mapElems (elemsOf x.ty) (fun w a b c => intBits (t (intOf a w sg) (intOf b w sg) (intOf c w sg)) w sg x.sat) e.a e.b e.c

def execIadd (x : Alu) (s : State) : Host.Outcome State Fault Refusal :=
  onCohort s fun c s => s.issueLanes c .iadd x (intMould x fun a b _ => a + b)

def execIsub (x : Alu) (s : State) : Host.Outcome State Fault Refusal :=
  onCohort s fun c s => s.issueLanes c .isub x (intMould x fun a b _ => a - b)

def execImul (x : Alu) (s : State) : Host.Outcome State Fault Refusal :=
  onCohort s fun c s => s.issueLanes c .imul x (intMould x fun a b _ => a * b)

/-- Bits [2n-1:n] of the exact product (R131). -/
def execImulh (x : Alu) (s : State) : Host.Outcome State Fault Refusal :=
  onCohort s fun c s => s.issueLanes c .imulh x (intMould x fun a b _ => (a * b) / 2 ^ widthOf x.ty)

def execImad (x : Alu) (s : State) : Host.Outcome State Fault Refusal :=
  onCohort s fun c s => s.issueLanes c .imad x (intMould x fun a b d => a * b + d)

/-- R132. -/
def imadLong (x : Alu) (e : ExLane) : Nat :=
  wrapInt (intOf e.a 32 (isSigned x.ty) * intOf e.b 32 (isSigned x.ty) + e.c) 64

def execImadLong (x : Alu) (s : State) : Host.Outcome State Fault Refusal :=
  onCohort s fun c s => s.issueLanes c .imadLong x (imadLong x)

def execImin (x : Alu) (s : State) : Host.Outcome State Fault Refusal :=
  onCohort s fun c s => s.issueLanes c .imin x (intMould x fun a b _ => min a b)

def execImax (x : Alu) (s : State) : Host.Outcome State Fault Refusal :=
  onCohort s fun c s => s.issueLanes c .imax x (intMould x fun a b _ => max a b)

/-- R133: the sum into d, the carry into the predicate that sub names. -/
def iaddc (x : Alu) (e : ExLane) : Out :=
  let r := addCarry (widthOf x.ty) e.a e.b e.p
  ⟨r.1, some r.2⟩

def execIaddc (x : Alu) (s : State) : Host.Outcome State Fault Refusal :=
  onCohort s fun c s => s.issueAlu c .iaddc x fun ex => ex.map (iaddc x)

def execAnd (x : Alu) (s : State) : Host.Outcome State Fault Refusal :=
  onCohort s fun c s => s.issueLanes c .and x fun e => Nat.land e.a e.b

def execOr (x : Alu) (s : State) : Host.Outcome State Fault Refusal :=
  onCohort s fun c s => s.issueLanes c .or x fun e => Nat.lor e.a e.b

def execXor (x : Alu) (s : State) : Host.Outcome State Fault Refusal :=
  onCohort s fun c s => s.issueLanes c .xor x fun e => Nat.xor e.a e.b

/-- Bits of a list, lowest first. -/
def ofBits : List Bool → Nat
  | [] => 0
  | b :: bs => b.toNat + 2 * ofBits bs

/-- R135: bit j of the result is the truth table's bit 4 c[j] + 2 b[j] + a[j]. -/
def lop3 (tt : BitVec 8) (a b c : Nat) : Nat :=
  ofBits ((List.range 32).map fun j =>
    tt.getLsbD ((c.testBit j).toNat * 4 + (b.testBit j).toNat * 2 + (a.testBit j).toNat))

/-- A conduit that a single register of LOP3 names. -/
def onConduit (r : Reg) : List (Nat × Nat) := if r.file == .q then [(r.num.toNat, 1)] else []

/-- The pops of LOP3, in order a, b, c. -/
def lop3Pops (x : Alu) : List (Nat × Nat) :=
  onConduit x.a.reg ++ (match x.b with | .src b => onConduit b.reg | .imm _ => []) ++ onConduit x.c.reg

/-- LOP3 has no type field: its operands are 32-bit registers of any file (R35, R135). -/
def execLop3 (x : Alu) (tt : BitVec 8) (s : State) : Host.Outcome State Fault Refusal :=
  onCohort s fun c s =>
    let sp := OpSpec.src false false
    let pops := lop3Pops x
    let ready := match s.crews.find c.crew with
      | none => true
      | some w => w.conduitsReady s.clock (s.execLanes c x.pred).length pops (onConduit x.d)
    if !ready then s.stallConduit c
    else s.issue c (.lop3 x tt) x.pred x.stall fun s lanes =>
      let keep := if lanes.isEmpty then [] else (onConduit x.d).map (·.1)
      let (as, s) := s.readSrc keep c lanes sp .u32 false x.a
      let (bs, s) := s.readB keep c lanes sp .u32 false x.b
      let (cs, s) := s.readSrc keep c lanes sp .u32 false x.c
      let mods := x.a.mod != Modifier.none || x.c.mod != Modifier.none ||
        (match x.b with | .src b => b.mod != Modifier.none | .imm _ => false)
      let lat := if pops.isEmpty then 4 + (if mods then 1 else 0) else 0
      s.writeDst c (OpSpec.dst false) x.d lat
        ((lanes.zip (as.zip (bs.zip cs))).map fun e => (e.1, lop3 tt e.2.1 e.2.2.1 e.2.2.2))

/-- R136: a × 2^c mod 2^n; 0 when c ≥ n. -/
def shl (n : Nat) (e : ExLane) : Nat := if e.b ≥ n then 0 else e.a * 2 ^ e.b % 2 ^ n
def shr (n : Nat) (e : ExLane) : Nat := if e.b ≥ n then 0 else e.a / 2 ^ e.b
/-- R136: floor(a / 2^c) with a signed; all sign bits when c ≥ n. -/
def sha (n : Nat) (e : ExLane) : Nat := wrapInt (intOf e.a n true / 2 ^ min e.b n) n

def execShl (x : Alu) (s : State) : Host.Outcome State Fault Refusal :=
  onCohort s fun c s => s.issueLanes c .shl x (shl (widthOf x.ty))

def execShr (x : Alu) (s : State) : Host.Outcome State Fault Refusal :=
  onCohort s fun c s => s.issueLanes c .shr x (shr (widthOf x.ty))

def execSha (x : Alu) (s : State) : Host.Outcome State Fault Refusal :=
  onCohort s fun c s => s.issueLanes c .sha x (sha (widthOf x.ty))

/-- R137. -/
def funnel (x : Alu) (e : ExLane) : Nat :=
  let v := e.b * 2 ^ 32 + e.a
  let n := min e.c 32
  if x.sub == 0 then v / 2 ^ n % 2 ^ 32 else v * 2 ^ n / 2 ^ 32 % 2 ^ 32

def execFunnel (x : Alu) (s : State) : Host.Outcome State Fault Refusal :=
  onCohort s fun c s => s.issueLanes c .funnel x (funnel x)

/-- R138, BFE: bits past the top are the sign bit of a signed type, else 0. -/
def bfe (x : Alu) (e : ExLane) : Nat :=
  let n := widthOf x.ty
  let len := min (e.b / 256 % 256) n
  let pos := e.b % 256
  if len == 0 then 0
  else
    let v := if isSigned x.ty then wrapInt (intOf e.a n true / 2 ^ pos) len else e.a / 2 ^ pos % 2 ^ len
    if isSigned x.ty then wrapInt (intOf v len true) n else v

def execBfe (x : Alu) (s : State) : Host.Outcome State Fault Refusal :=
  onCohort s fun c s => s.issueLanes c .bfe x (bfe x)

/-- R138, BFI. -/
def bfi (x : Alu) (e : ExLane) : Nat :=
  let n := widthOf x.ty
  let len := min (e.c / 256 % 256) n
  let pos := e.c % 256
  let m := (2 ^ len - 1) * 2 ^ pos % 2 ^ n
  Nat.lor (Nat.land e.a (2 ^ n - 1 - m)) (Nat.land (e.b * 2 ^ pos % 2 ^ n) m)

def execBfi (x : Alu) (s : State) : Host.Outcome State Fault Refusal :=
  onCohort s fun c s => s.issueLanes c .bfi x (bfi x)

/-- R139. -/
def popc (n a : Nat) : Nat := ((List.range n).filter a.testBit).length
def clz (n a : Nat) : Nat := if a == 0 then n else n - 1 - Nat.log2 a
def brev (n a : Nat) : Nat := ofBits ((List.range n).map fun j => a.testBit (n - 1 - j))

def execPopc (x : Alu) (s : State) : Host.Outcome State Fault Refusal :=
  onCohort s fun c s => s.issueLanes c .popc x fun e => popc (widthOf x.ty) e.a

def execClz (x : Alu) (s : State) : Host.Outcome State Fault Refusal :=
  onCohort s fun c s => s.issueLanes c .clz x fun e => clz (widthOf x.ty) e.a

def execBrev (x : Alu) (s : State) : Host.Outcome State Fault Refusal :=
  onCohort s fun c s => s.issueLanes c .brev x fun e => brev (widthOf x.ty) e.a

/-- R140: the bytes of the result, ascending. -/
def prmtByte (x c i prev : Nat) : Nat :=
  if i ≥ 1 && c.testBit (16 + i) then (if prev ≥ 128 then 255 else 0)
  else if c.testBit (12 + i) then 0
  else x / 2 ^ (8 * (c / 2 ^ (3 * i) % 8)) % 256

def prmt (a b c : Nat) : Nat :=
  let x := b * 2 ^ 32 + a
  let y0 := prmtByte x c 0 0
  let y1 := prmtByte x c 1 y0
  let y2 := prmtByte x c 2 y1
  let y3 := prmtByte x c 3 y2
  y0 + 256 * y1 + 65536 * y2 + 16777216 * y3

def execPrmt (x : Alu) (s : State) : Host.Outcome State Fault Refusal :=
  onCohort s fun c s => s.issueLanes c .prmt x fun e => prmt e.a e.b e.c

/-- R141. -/
def iset (x : Alu) (e : ExLane) : Bool :=
  let n := widthOf x.ty
  intCond x.sub.toNat (intOf e.a n (isSigned x.ty)) (intOf e.b n (isSigned x.ty))

def execIset (x : Alu) (s : State) : Host.Outcome State Fault Refusal :=
  onCohort s fun c s => s.issueLanes c .iset x fun e => (iset x e).toNat

/-- R142: in format I, imm32[0] is the second value. -/
def execPset (x : Alu) (s : State) : Host.Outcome State Fault Refusal :=
  onCohort s fun c s => s.issueLanes c .pset x fun e => (predFn x.sub.toNat (e.a % 2 == 1) (e.b % 2 == 1)).toNat

def execSel (x : Alu) (s : State) : Host.Outcome State Fault Refusal :=
  onCohort s fun c s => s.issueLanes c .sel x fun e => if e.p then e.a else e.b

def execMov (x : Alu) (s : State) : Host.Outcome State Fault Refusal :=
  onCohort s fun c s => s.issueLanes c .mov x fun e => e.a

/-- The lanes a fixed format I instruction executes in, once its push has room (R90). -/
def State.issueImm (s : State) (c : Cohort) (i : Instr) (p : Pred) (stall : BitVec 4) (d : Reg) (wide : Bool) (lat : Nat)
    (f : State → List Lane → List (Lane × Nat)) : State :=
  let push := if d.file == .q then [(d.num.toNat, if wide then 2 else 1)] else []
  let ready := match s.crews.find c.crew with
    | none => true
    | some w => w.conduitsReady s.clock (s.execLanes c p).length [] push
  if !ready then s.stallConduit c
  else s.issue c i p stall fun s lanes => s.writeDst c (OpSpec.dst wide) d lat (f s lanes)

/-- R144: the immediate extended by the type (R28). -/
def execMovi (x : ImmI) (s : State) : Host.Outcome State Fault Refusal :=
  onCohort s fun c s => s.issueImm c (.movi x) x.pred x.stall x.d x.ty.is64 4 fun _ ls =>
    ls.map fun l => (l, imm64 x.ty x.imm)

def execMovi64 (x : Imm64) (s : State) : Host.Outcome State Fault Refusal :=
  onCohort s fun c s => s.issueImm c (.movi64 x) x.pred x.stall x.d true 4 fun _ ls => ls.map fun l => (l, x.imm.toNat)

/-- R145. -/
def padd (x : Alu) (scale : Nat) (e : ExLane) : Nat := wrapInt (e.a + intOf e.b 32 (isSigned x.ty) * 2 ^ scale) 64

def execPadd (x : Alu) (s : State) : Host.Outcome State Fault Refusal :=
  onCohort s fun c s => s.issueLanes c .padd x (padd x 0)

def execLea (x : Alu) (s : State) : Host.Outcome State Fault Refusal :=
  onCohort s fun c s => s.issueLanes c .lea x (padd x x.sub.toNat)

/-- The width and signedness of CVTI's destination type (R146). -/
def cvtiDst : Ty → Nat × Bool
  | .s32 => (32, true)
  | .u64 => (64, false)
  | .s64 => (64, true)
  | .u16 => (16, false)
  | .s16 => (16, true)
  | _ => (32, false)

/-- R146. -/
def cvti (x : Alu) (a : Nat) : Nat :=
  let src := cvtiSrc x.sub.toNat
  let (m, sg) := cvtiDst x.ty
  let y := intBits (intOf a src.1 src.2) m sg x.sat
  if m == 16 then wrapInt (intOf y 16 sg) 32 else y

def execCvti (x : Alu) (s : State) : Host.Outcome State Fault Refusal :=
  onCohort s fun c s => s.issueLanes c .cvti x fun e => cvti x e.a

/-! ## Lane exchange (R147 to R149) -/

/-- The lane SHFL reads for lane position l under control c; negative or above 31 is no lane (R149). -/
def shflSrc (sub l c : Nat) : Int :=
  match sub with
  | 0 => (c % 32 : Nat)
  | 1 => ((l + c % 32) % 32 : Nat)
  | 2 => (l : Int) + intOf c 6 true
  | _ =>
    let e := if 1 ≤ c % 8 && c % 8 ≤ 5 then c % 8 else 5
    let seg := 2 ^ e
    let base := l - l % seg
    (base + seg - 1 - (l - base) : Nat)

/-- R149: a present lane supplies its value whether or not it participates. -/
def execShfl (x : Alu) (s : State) : Host.Outcome State Fault Refusal :=
  onCohort s fun c s =>
    let wide := x.ty.is64
    let val (s : State) (l : Lane) : Nat := s.laneVal c x.a.reg.num.toNat wide l
    let s₀ := s
    s.issueAlu c .shfl x fun ex => ex.map fun e =>
      let src := shflSrc x.sub.toNat e.lane.pos e.b
      match if 0 ≤ src ∧ src ≤ 31 then c.lanes.find? fun r => (r.pos : Int) == src else none with
      | some r => ⟨val s₀ r, none⟩
      | none => ⟨if e.b.testBit 6 then e.a else 0, none⟩

/-- The mask of some lanes. -/
def laneMask (ls : List ExLane) : Nat := (ls.map fun e => 2 ^ e.lane.pos).sum

/-- R149. -/
def vote (sub : Nat) (ex : List ExLane) : Nat :=
  let t := ex.filter fun e => e.a == 1
  match sub with
  | 0 => (t.length == ex.length).toNat
  | 1 => (!t.isEmpty).toNat
  | 2 => (t.isEmpty || t.length == ex.length).toNat
  | 3 => laneMask t
  | _ => t.length

def execVote (x : Alu) (s : State) : Host.Outcome State Fault Refusal :=
  onCohort s fun c s => s.issueAlu c .vote x fun ex => ex.map fun _ => ⟨vote x.sub.toNat ex, none⟩

def execMatchv (x : Alu) (s : State) : Host.Outcome State Fault Refusal :=
  onCohort s fun c s => s.issueAlu c .matchv x fun ex =>
    ex.map fun e => ⟨laneMask (ex.filter fun f => f.a == e.a), none⟩

/-- R149: the values of predicate-true lanes in rank order, 0 beyond them. -/
def execCompact (x : Alu) (s : State) : Host.Outcome State Fault Refusal :=
  onCohort s fun c s => s.issueAlu c .compact x fun ex =>
    let vals := (ex.filter fun e => e.c == 1).map (·.a)
    (List.range ex.length).map fun q => ⟨vals.getD q 0, none⟩

/-- The operations of SCAN and REDUX, by sub (ADD and ADD.EXC share one), and their identities (R149). -/
def exchOp (t : Ty) (sub a b : Nat) : Nat :=
  let n := widthOf t
  let sg := isSigned t
  match sub with
  | 0 | 1 => (a + b) % 2 ^ n
  | 2 => if intOf a n sg ≤ intOf b n sg then a else b
  | 3 => if intOf a n sg ≥ intOf b n sg then a else b
  | 4 => Nat.land a b
  | 5 => Nat.lor a b
  | _ => Nat.xor a b

def exchId (t : Ty) (sub : Nat) : Nat :=
  let n := widthOf t
  match sub with
  | 2 => if isSigned t then 2 ^ (n - 1) - 1 else 2 ^ n - 1
  | 3 => if isSigned t then 2 ^ (n - 1) else 0
  | 4 => 2 ^ n - 1
  | _ => 0

/-- SCAN (R149), ascending; sub 1 is exclusive. -/
def scanFrom (t : Ty) (sub : Nat) : Nat → List ExLane → List Out
  | _, [] => []
  | acc, e :: es =>
    let next := exchOp t sub acc e.a
    ⟨if sub == 1 then acc else next, none⟩ :: scanFrom t sub next es

def execScan (x : Alu) (s : State) : Host.Outcome State Fault Refusal :=
  onCohort s fun c s => s.issueAlu c .scan x (scanFrom x.ty x.sub.toNat (exchId x.ty x.sub.toNat))

def execRedux (x : Alu) (s : State) : Host.Outcome State Fault Refusal :=
  onCohort s fun c s => s.issueAlu c .redux x fun ex =>
    let r := ex.foldl (fun acc e => exchOp x.ty x.sub.toNat acc e.a) (exchId x.ty x.sub.toNat)
    ex.map fun _ => ⟨r, none⟩

end Sys2Proof.Machine
end

