-- ==== Sys2Proof/Machine/FloatingPoint.lean ====
section
/-! DEFINITION. Floating-point arithmetic and conversions (R153 to R166) and Jewel's checks (R167 to R171). -/

namespace Sys2Proof.Machine

/-! ## Results -/

/-- An exact result of one element and the addends whose cancellation weakens its check (R154, R168). -/
structure Exact where
  val     : XReal
  addends : List XReal
  deriving DecidableEq, Repr

/-- The exact value of each form of R154 on three elements. -/
inductive ArithFn | add | mul | fma
  deriving DecidableEq, Repr

def ArithFn.exact (g : ArithFn) (F : Fmt) (rnd : Rnd) (a b c : Nat) : Exact :=
  let x := F.value a
  let y := F.value b
  let z := F.value c
  match g with
  | .add => ⟨exactSum [x, y] rnd, [x, y]⟩
  | .mul => ⟨XReal.prod x y, []⟩
  | .fma => ⟨exactSum [XReal.prod x y, z] rnd, [XReal.prod x y, z]⟩

/-- A part of a lane's result: its format, its lowest bit, its encoding and the addends for its check. -/
structure Part where
  fmt     : Fmt
  lo      : Nat
  res     : Nat
  addends : List XReal
  deriving DecidableEq, Repr

/-- The result of a lane: its parts put together. -/
def joinParts (ps : List Part) : Nat := (ps.map fun p => p.res * 2 ^ p.lo).sum

/-- The parts of R154's result for a type: one, or two halves. -/
def arithParts (g : ArithFn) (x : Alu) (e : ExLane) : List Part :=
  let F := fmtOf x.ty
  let part (lo : Nat) : Part :=
    let cut (v : Nat) : Nat := v / 2 ^ lo % 2 ^ F.width
    let r := g.exact F x.rnd (cut e.a) (cut e.b) (cut e.c)
    ⟨F, lo, F.finish r.val x.rnd x.ftz x.sat, r.addends⟩
  match elemsOf x.ty with
  | [_, _] => [part 0, part 16]
  | _ => [part 0]

/-- The part of R160's result. -/
def unaryParts (f : UnFn) (x : Alu) (e : ExLane) : List Part :=
  let F := fmtOf x.ty
  [⟨F, 0, F.finish (f.apply (F.value e.a)) x.rnd x.ftz x.sat, []⟩]

/-! ## Disturbance (R171, R339) -/

/-- The contexts whose err.inject arms a disturbance of a core (R339 kind 5): the next checked result meets them all. -/
def State.armedFp (s : State) (core : Nat) : List Ctx :=
  s.ctxs.vals.filter fun x => x.regs.errInject[63] && bits x.regs.errInject.toNat 56 3 == 5 &&
    bits x.regs.errInject.toNat 5 9 == core

/-- An injection is made: arm reads 0 from now on (R339). -/
def State.disarm (s : State) (ctx : Nat) : State :=
  s.modCtx ctx fun x => { x with regs := { x.regs with errInject := x.regs.errInject &&& 0x7fffffffffffffff } }

/-- What the disturbances to come make of a checked result of a core (R171), and the state in which they have counted it. -/
def State.strike (s : State) (core lane res : Nat) : Nat × State :=
  let sees (d : Disturb) : Bool := d.core == core && d.lane.all (· == lane)
  let left (d : Disturb) : Option Disturb :=
    if sees d then (if d.after = 0 then none else some { d with after := d.after - 1 }) else some d
  ((s.pkg.disturb.filter fun d => sees d && d.after == 0).foldl (fun v d => Nat.xor v d.flip) res,
    s.modPkg fun p => { p with disturb := p.disturb.filterMap left })

/-- A lane's parts after the disturbances, and whether one of them diverges from its shadow (R167, R168). The shadow's result r' is the
undisturbed result, rounded: DESIGN CHOICE, log 49. -/
def State.strikeParts (s : State) (core lane : Nat) : List Part → (List Part × Bool) × State
  | [] => (([], false), s)
  | p :: ps =>
    let (r, s) := s.strike core lane p.res
    let r := if r = p.res then r else r % 2 ^ p.fmt.width
    let ((qs, bad), s) := State.strikeParts s core lane ps
    (({ p with res := r } :: qs, bad || (r != p.res && p.fmt.diverges r p.res p.addends)), s)

/-! ## The checked issue (R168 to R170) -/

/-- The lanes' parts after the disturbances, with whether each lane diverged. -/
def State.strikeLanes (s : State) (core : Nat) : List (Lane × List Part) → List (Lane × List Part × Bool) × State
  | [] => ([], s)
  | (l, ps) :: rest =>
    let ((qs, bad), s) := s.strikeParts core l.pos ps
    let (more, s) := State.strikeLanes s core rest
    ((l, qs, bad) :: more, s)

/-- The lanes' parts once they are checked: an injection of kind 5 makes the lowest lane diverge (R339). -/
def State.checkLanes (s : State) (core : Nat) (all : List (Lane × List Part)) : List (Lane × List Part × Bool) × State :=
  let (got, s) := s.strikeLanes core all
  match s.armedFp core, got with
  | y :: ys, (l, ps, _) :: rest => ((l, ps, true) :: rest, (y :: ys).foldl (fun (s : State) (y : Ctx) => s.disarm y.num) s)
  | _, _ => (got, s)

/-- A lane of a revocable trace whose checked result diverged (R169): rolled back once, JEWEL on a second time. -/
def State.divergence (s : State) (c : Cohort) (l : Lane) : State :=
  match s.threads.find l.tid with
  | none => s
  | some t =>
    if t.jewelUsed then s.raiseIn c [l] .jewel c.offset fun _ => 0
    else (s.refile c l.tid).modThread l.tid fun t => { t with jewelUsed := true }

/-- What a push writes where lanes execute again (R169 to R171): each lane's checked value, and for a lane that executes again what its second
execution gives. DESIGN CHOICE, log 49: where that diverges too, and JEWEL stops the lane, its entry of the row holds the undisturbed result; R169 does
not say what it holds, or that none is pushed. -/
def pushed (all : List (Lane × List Part)) (got again : List (Lane × List Part × Bool)) : List (Lane × Nat) :=
  all.map fun a =>
    match again.find? (·.1.tid == a.1.tid), got.find? (·.1.tid == a.1.tid) with
    | some (_, ps, false), _ => (a.1, joinParts ps)
    | none, some (_, ps, _) => (a.1, joinParts ps)
    | _, _ => (a.1, joinParts a.2)

/-- Issue a checked instruction: a diverged result is not written. In an irrevocable trace its lane executes again (R169). Its v or k result is
readable when the first execution's would have been; where results are pushed, all of them are readable 16 clocks after the first execution's
would have been: DESIGN CHOICE within R170's bound, log 49. -/
def State.issueChecked (s : State) (c : Cohort) (o : AluOp) (x : Alu) (parts : ExLane → List Part) : State :=
  if !s.conduitsOk c o x then s.stallConduit c
  else s.issue c (o.instr x) x.pred x.stall fun s lanes =>
    let (ex, s) := s.operands c o x lanes
    let sp := (o.shape x.sub.toNat x.ty).d
    let all := ex.map fun e => (e.lane, parts e)
    let (got, s) := s.checkLanes c.core all
    let res := got.map fun g => (g.1, joinParts g.2.1)
    let bad := (got.filter (·.2.2)).map (·.1.tid)
    if bad.isEmpty then s.writeDst c sp x.d (aluLat o x) res
    else
      let mine := all.filter fun a => bad.contains a.1.tid
      let (again, s) := if c.irr then s.strikeLanes c.core mine else ([], s)
      let s :=
        if x.d.file == .q then s.writeDst c sp x.d (aluLat o x + 16) (pushed all got again)
        else if x.d.file == .k then
          (if res.head?.any fun r => bad.contains r.1.tid then s else s.writeDst c sp x.d (aluLat o x) res)
        else s.writeDst c sp x.d (aluLat o x) (res.filter fun r => !bad.contains r.1.tid)
      if c.irr then
        let entry (g : Lane × List Part × Bool) : Rexec :=
          ⟨g.1.tid, o, x, c.offset, joinParts g.2.1, g.2.2, res.head?.any fun r => r.1.tid == g.1.tid⟩
        (s.modCohort c.id fun k => { k with rexec := k.rexec ++ again.map entry }).urge (.hw (.jewelReexecute c.id))
      else mine.foldl (fun s a => s.divergence c a.1) s

/-- JEWEL_REEXECUTE (R44, R169, R170): in the clock of the first execution the diverged lanes execute again and write, with the latency of that; a second
divergence is JEWEL. -/
def execJewelReexecute (cid : Nat) (s : State) : Host.Outcome State Fault Refusal :=
  .next <|
    match s.cohorts.find cid with
    | none => s
    | some c =>
      let s := s.modCohort cid fun k => { k with rexec := [] }
      c.rexec.foldl (init := s) fun s r =>
        match c.laneOf r.tid with
        | none => s
        | some l =>
          if r.bad then s.raiseIn { c with pc := c.hdr + r.offset } [l] .jewel r.offset fun _ => 0
          else if r.x.d.file == .q || (r.x.d.file == .k && !r.low) then s
          else s.writeDst c (r.op.shape r.x.sub.toNat r.x.ty).d r.x.d (aluLat r.op r.x) [(l, r.val)]

/-! ## R154 -/

def execFadd (x : Alu) (s : State) : Host.Outcome State Fault Refusal :=
  onCohort s fun c s => s.issueChecked c .fadd x (arithParts .add x)

def execFmul (x : Alu) (s : State) : Host.Outcome State Fault Refusal :=
  onCohort s fun c s => s.issueChecked c .fmul x (arithParts .mul x)

def execFfma (x : Alu) (s : State) : Host.Outcome State Fault Refusal :=
  onCohort s fun c s => s.issueChecked c .ffma x (arithParts .fma x)

def execDadd (x : Alu) (s : State) : Host.Outcome State Fault Refusal :=
  onCohort s fun c s => s.issueChecked c .dadd x (arithParts .add x)

def execDmul (x : Alu) (s : State) : Host.Outcome State Fault Refusal :=
  onCohort s fun c s => s.issueChecked c .dmul x (arithParts .mul x)

def execDfma (x : Alu) (s : State) : Host.Outcome State Fault Refusal :=
  onCohort s fun c s => s.issueChecked c .dfma x (arithParts .fma x)

def execHadd2 (x : Alu) (s : State) : Host.Outcome State Fault Refusal :=
  onCohort s fun c s => s.issueChecked c .hadd2 x (arithParts .add x)

def execHmul2 (x : Alu) (s : State) : Host.Outcome State Fault Refusal :=
  onCohort s fun c s => s.issueChecked c .hmul2 x (arithParts .mul x)

def execHfma2 (x : Alu) (s : State) : Host.Outcome State Fault Refusal :=
  onCohort s fun c s => s.issueChecked c .hfma2 x (arithParts .fma x)

/-! ## Minimum, maximum, compare, class (R155 to R158) -/

/-- R155, per half for the pair forms. -/
def floatMinMax (big : Bool) (x : Alu) (e : ExLane) : Nat :=
  let F := fmtOf x.ty
  mapElems (elemsOf x.ty) (fun _ a b _ => F.minMax big a b) e.a e.b e.c

def execFmin (x : Alu) (s : State) : Host.Outcome State Fault Refusal :=
  onCohort s fun c s => s.issueLanes c .fmin x (floatMinMax false x)

def execFmax (x : Alu) (s : State) : Host.Outcome State Fault Refusal :=
  onCohort s fun c s => s.issueLanes c .fmax x (floatMinMax true x)

def execDmin (x : Alu) (s : State) : Host.Outcome State Fault Refusal :=
  onCohort s fun c s => s.issueLanes c .dmin x (floatMinMax false x)

def execDmax (x : Alu) (s : State) : Host.Outcome State Fault Refusal :=
  onCohort s fun c s => s.issueLanes c .dmax x (floatMinMax true x)

def execHmin2 (x : Alu) (s : State) : Host.Outcome State Fault Refusal :=
  onCohort s fun c s => s.issueLanes c .hmin2 x (floatMinMax false x)

def execHmax2 (x : Alu) (s : State) : Host.Outcome State Fault Refusal :=
  onCohort s fun c s => s.issueLanes c .hmax2 x (floatMinMax true x)

/-- R156. -/
def floatSet (x : Alu) (e : ExLane) : Nat := (floatCond (fmtOf x.ty) x.sub.toNat e.a e.b).toNat

def execFset (x : Alu) (s : State) : Host.Outcome State Fault Refusal :=
  onCohort s fun c s => s.issueLanes c .fset x (floatSet x)

def execDset (x : Alu) (s : State) : Host.Outcome State Fault Refusal :=
  onCohort s fun c s => s.issueLanes c .dset x (floatSet x)

/-- R157. -/
def hset2 (x : Alu) (e : ExLane) : Nat :=
  let F := fmtOf x.ty
  mapElems [16, 16] (fun _ a b _ => if floatCond F x.sub.toNat a b then 0xffff else 0) e.a e.b e.c

def execHset2 (x : Alu) (s : State) : Host.Outcome State Fault Refusal :=
  onCohort s fun c s => s.issueLanes c .hset2 x (hset2 x)

/-- R158: the bit of the class. -/
def fclass (F : Fmt) (a : Nat) : Nat :=
  let neg := F.sign a
  let k :=
    if F.isNaN a then (if F.frac a / 2 ^ (F.m - 1) == 1 then 9 else 8)
    else if F.isInf a then (if neg then 0 else 7)
    else if F.isZero a then (if neg then 3 else 4)
    else if F.isSub a then (if neg then 2 else 5)
    else if neg then 1 else 6
  2 ^ k

def execFclass (x : Alu) (s : State) : Host.Outcome State Fault Refusal :=
  onCohort s fun c s => s.issueLanes c .fclass x fun e => fclass (fmtOf x.ty) e.a

/-- R159. -/
def frnd (F : Fmt) (x : Alu) (a : Nat) : Nat :=
  match F.value a with
  | .nan => F.canonNaN
  | .inf n => F.finish (.inf n) x.rnd false x.sat
  | .fin n m e t =>
    let k := XReal.toWhole (.fin n m e t) x.rnd
    if k == 0 then F.zeroOf n else F.round (XReal.ofInt k) .rn false

def execFrnd (x : Alu) (s : State) : Host.Outcome State Fault Refusal :=
  onCohort s fun c s => s.issueLanes c .frnd x fun e => frnd (fmtOf x.ty) x e.a

/-! ## Reciprocals, roots, transcendentals (R160, R161); the first four kinds are checked (R167) -/

def execFrcp (x : Alu) (s : State) : Host.Outcome State Fault Refusal :=
  onCohort s fun c s => s.issueChecked c .frcp x (unaryParts .rcp x)

def execFrsq (x : Alu) (s : State) : Host.Outcome State Fault Refusal :=
  onCohort s fun c s => s.issueChecked c .frsq x (unaryParts .rsq x)

def execDrcp (x : Alu) (s : State) : Host.Outcome State Fault Refusal :=
  onCohort s fun c s => s.issueChecked c .drcp x (unaryParts .rcp x)

def execDrsq (x : Alu) (s : State) : Host.Outcome State Fault Refusal :=
  onCohort s fun c s => s.issueChecked c .drsq x (unaryParts .rsq x)

/-- An unchecked function's result; rnd is RNE there (R160). -/
def unary (f : UnFn) (x : Alu) (e : ExLane) : Nat := joinParts (unaryParts f x e)

def execFex2 (x : Alu) (s : State) : Host.Outcome State Fault Refusal :=
  onCohort s fun c s => s.issueLanes c .fex2 x (unary .ex2 x)

def execFlg2 (x : Alu) (s : State) : Host.Outcome State Fault Refusal :=
  onCohort s fun c s => s.issueLanes c .flg2 x (unary .lg2 x)

def execFsinp (x : Alu) (s : State) : Host.Outcome State Fault Refusal :=
  onCohort s fun c s => s.issueLanes c .fsinp x (unary .sinp x)

def execFcosp (x : Alu) (s : State) : Host.Outcome State Fault Refusal :=
  onCohort s fun c s => s.issueLanes c .fcosp x (unary .cosp x)

/-! ## Conversions (R162 to R166) -/

/-- R162: an integer is exact; a float destination rounds, an integer one saturates. -/
def cvt (x : Alu) (a : Nat) : Nat :=
  let ts := cvtSrc x.sub.toNat
  let v : XReal := match ts with
    | .u32 => XReal.ofInt (intOf a 32 false)
    | .s32 => XReal.ofInt (intOf a 32 true)
    | .u64 => XReal.ofInt (intOf a 64 false)
    | .s64 => XReal.ofInt (intOf a 64 true)
    | t => (fmtOf t).value (a % 2 ^ (fmtOf t).width)
  if x.ty.isFloat then (fmtOf x.ty).finish v x.rnd x.ftz x.sat
  else cvtToInt v (if x.ty.is64 then 64 else 32) (isSigned x.ty) x.rnd

def execCvt (x : Alu) (s : State) : Host.Outcome State Fault Refusal :=
  onCohort s fun c s => s.issueLanes c .cvt x fun e => cvt x e.a

/-- R163. -/
def pack (x : Alu) (e : ExLane) : Nat :=
  let S := if x.sub == 1 then f64 else f32
  let E := fmtOf x.ty
  let one (v : Nat) : Nat := E.finish (S.value v) x.rnd x.ftz x.sat
  one e.a + 65536 * one e.b

def execPack (x : Alu) (s : State) : Host.Outcome State Fault Refusal :=
  onCohort s fun c s => s.issueLanes c .pack x (pack x)

/-- The signed scale in the low byte of c (R164, R165). -/
def scaleOf (c : Nat) : Int := intOf c 8 true

/-- R164: ftz acts on the four inputs. -/
def l6pack (x : Alu) (e : ExLane) : Nat :=
  let enc (v : Nat) : Nat := l6Enc (f32.value (prepElem true f32 32 false false x.ftz (v % 2 ^ 32))) (scaleOf e.c)
  enc e.a + 2 ^ 6 * enc (e.a / 2 ^ 32) + 2 ^ 12 * enc e.b + 2 ^ 18 * enc (e.b / 2 ^ 32)

def execL6pack (x : Alu) (s : State) : Host.Outcome State Fault Refusal :=
  onCohort s fun c s => s.issueLanes c .l6pack x (l6pack x)

/-- R165: one element. -/
def l6unpkElem (x : Alu) (v : Nat) (scale : Int) : Nat :=
  if v == 32 then f32.canonNaN
  else if v % 32 == 0 then 0
  else f32.finish (logToLin (v / 32 == 1) (v % 32) scale) .rn x.ftz x.sat

def l6unpk (x : Alu) (e : ExLane) : Nat :=
  let el (j : Nat) : Nat := l6unpkElem x (bits e.a (6 * (2 * x.sub.toNat + j)) 6) (scaleOf e.c)
  el 0 + 2 ^ 32 * el 1

def execL6unpk (x : Alu) (s : State) : Host.Outcome State Fault Refusal :=
  onCohort s fun c s => s.issueLanes c .l6unpk x (l6unpk x)

/-- R166. -/
def w4unpk (x : Alu) (e : ExLane) : Nat :=
  let w (i : Nat) : Nat :=
    w4Deq (bits e.a (4 * (4 * (x.sub.toNat / 2 % 2) + i)) 4) (x.sub[0]) (e.c % 65536)
  w 0 + 2 ^ 16 * w 1 + 2 ^ 32 * w 2 + 2 ^ 48 * w 3

def execW4unpk (x : Alu) (s : State) : Host.Outcome State Fault Refusal :=
  onCohort s fun c s => s.issueLanes c .w4unpk x (w4unpk x)

end Sys2Proof.Machine
end

