-- ==== Sys2Proof/Machine/Matrix.lean ====
section
/-! DEFINITION. The matrix unit (R194 to R217): the queue of tile operations, their start, fetch, groups and completion, and the
matrix instructions. -/

namespace Sys2Proof.Machine

/-! ## The queue (R203, R204) -/

/-- The tiles an operation names. -/
def TileOp.tiles (o : TileOp) : List Nat := if o.pair then [o.tile, o.tile + 1] else [o.tile]

/-- Whether an operation of a crew names a tile. -/
def TileOp.names (o : TileOp) (crew : Nat) (ts : List Nat) : Bool := o.crew == crew && o.tiles.any ts.contains

/-- The operations of a core's queue and unit, oldest first; those of a saved crew are not there (R209). DESIGN CHOICE, log 49: one that the unit has
started keeps its queue entry until it completes, of which R203 does not say. -/
def State.opsOf (s : State) (core : Nat) : List TileOp :=
  s.eng.tileOps.filter fun o => o.at'.core == core && (s.crews.find o.crew).any (·.core == some core)

def State.tileOp (s : State) (id : Nat) : Option TileOp := s.eng.tileOps.find? (·.id == id)

def State.modTileOp (s : State) (id : Nat) (f : TileOp → TileOp) : State :=
  s.modEng fun g => { g with tileOps := g.tileOps.map fun o => if o.id = id then f o else o }

/-- An operation leaves the unit, with its pins. -/
def State.dropTileOp (s : State) (id : Nat) : State :=
  s.modEng fun g => { g with tileOps := g.tileOps.filter (·.id != id), opData := g.opData.erase id }

/-- Whether an earlier operation of a crew on some tiles is still pending (R204). -/
def State.tileBusy (s : State) (crew : Nat) (ts : List Nat) : Bool := s.eng.tileOps.any (·.names crew ts)

/-- Whether an older operation is pending on the tiles of an operation. -/
def olderPending : List TileOp → TileOp → Bool
  | [], _ => false
  | p :: ps, o => if p.id == o.id then false else p.names o.crew o.tiles || olderPending ps o

/-- A queue entry before it is placed: the handles captured, origins and lengths. -/
structure TileSpec where
  kind : TileKind
  tile : Nat
  pair : Bool
  io   : Nat
  jo   : Nat
  ko   : Nat
  kl   : Nat
  deriving DecidableEq, Repr

/-- Enter the matrix queue (R203). -/
def State.enqueueTile (s : State) (c : Cohort) (l : Lane) (t : TileSpec) (es : List (Nat × Nat)) : State :=
  let a := es.getD 0 (0, 0)
  let b := es.getD 1 (0, 0)
  let o : TileOp := ⟨s.nextId, c.crew, t.kind, t.tile, t.pair, a.1, b.1, a.2, b.2, t.io, t.jo, t.ko, t.kl, 0, false, 0, false,
    none, s.attrOf c l⟩
  { s.modEng (fun g => { g with tileOps := g.tileOps ++ [o] }) with nextId := s.nextId + 1 }

/-- Issue a tile operation (R203, R211): FULLCOHORT first where it applies, in the whole cohort (R49), a stall while the queue is full, then the
capture of its entries and its place in the queue, attributed to the lowest lane present (R208). -/
def State.issueTile (s : State) (c : Cohort) (i : Instr) (x : Mat) (full : Bool) (hs : List (BitVec 12))
    (spec : State → TileSpec × State) : State :=
  if full && !c.drawnFull then s.raiseIn c c.lanes .fullcohort c.offset fun _ => 0
  else if (s.opsOf c.core).length ≥ 32 then s.hold c.id
  else
    match s.entriesReady c hs with
    | (false, s) => s.hold c.id
    | (true, s) =>
      s.issue c i x.pred x.stall fun s lanes =>
        match lanes with
        | [] => s
        | l :: _ =>
          match s.captures c lanes hs with
          | (none, s) => s
          | (some es, s) =>
            let (t, s) := spec s
            (s.enqueueTile c (c.lanes.headD l) t es).dropFetched c.id

/-- The origins and lengths of an MMA or MMASP (R212, R213): the length is at most 4096, and a sparse form ignores low bits. -/
def State.mmaSpec (s : State) (c : Cohort) (x : Mat) (sparse : Bool) : TileSpec × State :=
  let (io, s) := s.seenK c x.kr.toNat
  let (jo, s) := s.seenK c x.kc.toNat
  let (ko, s) := s.seenK c x.kp.toNat
  let (kl, s) := s.seenK c (x.kp.toNat + 1)
  let cut (n : Nat) : Nat := if sparse then n - n % 4 else n
  (⟨.mma x.kind sparse x.ta x.tb x.ovw x.sat, x.tile.toNat, x.kind == .f64 && !sparse, io.toNat, jo.toNat,
    cut ko.toNat, cut (min kl.toNat 4096)⟩, s)

/-- R212. -/
def execMma (x : Mat) (s : State) : Host.Outcome State Fault Refusal :=
  onCohort s fun c s => s.issueTile c (.mma x) x true [x.hA, x.hB] fun s => s.mmaSpec c x false

/-- R213. -/
def execMmasp (x : Mat) (s : State) : Host.Outcome State Fault Refusal :=
  onCohort s fun c s => s.issueTile c (.mmasp x) x true [x.hA, x.hB] fun s => s.mmaSpec c x true

/-- MZERO (R214). -/
def execMzero (x : Mat) (s : State) : Host.Outcome State Fault Refusal :=
  onCohort s fun c s => s.issueTile c (.mzero x) x false [] fun s => (⟨.zero, x.tile.toNat, false, 0, 0, 0, 0⟩, s)

/-- The origins of MLD and MST (R215). -/
def State.moveSpec (s : State) (c : Cohort) (x : Mat) (k : TileKind) : TileSpec × State :=
  let (io, s) := s.seenK c x.kr.toNat
  let (jo, s) := s.seenK c x.kc.toNat
  (⟨k, x.tile.toNat, x.pair, io.toNat, jo.toNat, 0, 0⟩, s)

def execMld (x : Mat) (s : State) : Host.Outcome State Fault Refusal :=
  onCohort s fun c s => s.issueTile c (.mld x) x false [x.hA] fun s => s.moveSpec c x (.load x.ta)

def execMst (x : Mat) (s : State) : Host.Outcome State Fault Refusal :=
  onCohort s fun c s => s.issueTile c (.mst x) x false [x.hA] fun s => s.moveSpec c x (.store x.ta x.sat)

/-- The tiles an instruction names. -/
def matTiles (x : Mat) : List Nat := if x.pair then [x.tile.toNat, x.tile.toNat + 1] else [x.tile.toNat]

/-- MWAIT (R214). -/
def execMwait (x : Mat) (s : State) : Host.Outcome State Fault Refusal :=
  onCohort s fun c s =>
    if s.tileBusy c.crew (matTiles x) then s.hold c.id else s.issue c (.mwait x) x.pred x.stall fun s _ => s

/-- The element a coordinate names (R216): row and column. -/
def coordOf (w : Word) : Nat × Nat := (w.toNat / 64 % 64, w.toNat % 64)

def execMrd (x : Mat) (s : State) : Host.Outcome State Fault Refusal :=
  onCohort s fun c s =>
    if s.tileBusy c.crew (matTiles x) then s.hold c.id
    else s.issue c (.mrd x) x.pred x.stall fun s lanes =>
      lanes.foldl (init := s) fun s l =>
        let (i, j) := coordOf (s.seenV c l.tid x.vc.toNat)
        let lo := (s.getTile c.crew x.tile.toNat i j).toNat
        let hi := if x.pair then (s.getTile c.crew (x.tile.toNat + 1) i j).toNat else 0
        s.putLane c.id l.tid x.vd.toNat x.pair (lo + 2 ^ 32 * hi) 0

def execMwr (x : Mat) (s : State) : Host.Outcome State Fault Refusal :=
  onCohort s fun c s =>
    if s.tileBusy c.crew (matTiles x) then s.hold c.id
    else s.issue c (.mwr x) x.pred x.stall fun s lanes =>
      lanes.foldl (init := s) fun s l =>
        let (i, j) := coordOf (s.seenV c l.tid x.vc.toNat)
        let s' := s.setTile c.crew x.tile.toNat i j (s.seenV c l.tid x.vd.toNat)
        if x.pair then s'.setTile c.crew (x.tile.toNat + 1) i j (s.seenV c l.tid (x.vd.toNat + 1)) else s'

/-- The 16 crew registers from kb on, as bytes. -/
def State.descBytes (s : State) (c : Cohort) (kb : Nat) : Nat → List Byte × State
  | 0 => ([], s)
  | n + 1 =>
    let (w, s) := s.seenK c kb
    let (bs, s) := State.descBytes s c (kb + 1) n
    (bytesOf 4 w.toNat ++ bs, s)

/-- Whether TDESC can store its entry now: not while its page or a page table is under a flip (R240) or its bytes are held (R122), nor behind
a write of one of its threads that is in the side log or under way. -/
def State.tdescReady (s : State) (c : Cohort) (h : BitVec 12) : Bool × State :=
  match entryVa c.snap h.toNat with
  | none => (true, s)
  | some va =>
    if c.active.any fun l => s.logsPage l.tid va then (false, s)
    else match s.peek c va .write with
      | .busy => (false, s)
      | .ask sec => (false, s.askHost (tcAgent c.core) sec)
      | .ok key _ _ _ => (!(c.active.any fun l => s.stalled l.tid key 64 || s.unanswered l.tid fun r => overlap key 64 r.pa r.size), s)
      | _ => (true, s)

/-- TDESC (R217): one relaxed store of the cohort, whose PAGE and PROT are precise. -/
def execTdesc (x : Mat) (s : State) : Host.Outcome State Fault Refusal :=
  onCohort s fun c s =>
    match s.tdescReady c x.hA with
    | (false, s) => s.hold c.id
    | (true, s) => s.issue c (.tdesc x) x.pred x.stall fun s lanes =>
      match lanes with
      | [] => s
      | low :: _ =>
        match entryVa c.snap x.hA.toNat with
        | none => s.raiseIn c lanes .addrovf c.offset fun _ => 0
        | some va =>
          let (bs, s) := s.descBytes c x.kp.toNat 16
          let e : MemEff := ⟨s.ctxOf c.crew, c.crew, low.tid, c.traceId, c.offset, va, bs, .store, .rlx, .dev, .sync⟩
          let (r, s) := s.reach c low.pos va .write
          match r with
          | .go key pte _ =>
            if key ≥ peerKey && !s.peerOk key then s.raiseIn c lanes .prot c.offset fun _ => va
            else if s.remoteKey key then s.sendEff c.core e key (pteWatch pte)
            else
              match s.mergeCheck key 64 with
              | (some (sec, f), s) => lanes.foldl (fun s l => s.park c l .room (pageOf va) none) (s.detect sec f)
              | (none, s) => s.doEff c.core e key (pteWatch pte)
          | .prot => s.raiseIn c lanes .prot c.offset fun _ => va
          | .damaged sec => s.consumeAll c lanes va sec ((s.poisonAt sec).getD .hbm)
          | r => lanes.foldl (fun s l => s.holdThread c l va r) s

/-! ## Starting (R202, R203) -/

/-- The format codes of the operands of an MMA kind. -/
def mmaFormats : MmaKind → List Nat × List Nat
  | .f64 => ([1], [1])
  | .f32 => ([0], [0])
  | .bf16 => ([2], [2])
  | .f16 => ([3], [3])
  | .lg6 => ([6], [6])
  | .i8 => ([4], [4])
  | .w4 => ([2], [7, 8])

/-- What R202 finds wrong with an operation's entries: the cause and the entry's address. Where both entries are faulty EA's fault is raised:
DESIGN CHOICE, log 49. -/
def TileOp.check (o : TileOp) : Option (Cause × Nat) :=
  let look (e va : Nat) (fs : List Nat) (sparse : Bool) : Option (Cause × Nat) :=
    ((TEntry.of e).check fs sparse false).map (·, va)
  match o.kind with
  | .zero => none
  | .mma k sparse _ _ _ _ => (look o.ea o.haVa (mmaFormats k).1 sparse).or (look o.eb o.hbVa (mmaFormats k).2 false)
  | .load _ => look o.ea o.haVa (if o.pair then [1] else [0, 2, 3, 4, 5, 6, 7, 8]) false
  | .store _ _ => look o.ea o.haVa (if o.pair then [1] else [0, 2, 3, 4, 5]) false

/-- A fault of a tile operation: it is dropped (R208). -/
def State.faultTile (s : State) (o : TileOp) (cause : Cause) (addr : Nat) : State :=
  (s.dropTileOp o.id).faultOp o.at' cause addr

/-- Whether an operation is a matrix product, which stops at a group boundary; the others complete once started (R209). -/
def TileOp.product (o : TileOp) : Bool :=
  match o.kind with
  | .mma _ _ _ _ _ _ => true
  | _ => false

/-- Whether the unit may work for an operation: its crew is on a core, and is not being pre-empted unless the operation is one that
completes first (R209). -/
def State.tileRuns (s : State) (o : TileOp) : Bool :=
  o.waiting.isNone && (s.crews.find o.crew).any fun k =>
    k.core == some o.at'.core && (k.stopping.isNone || (o.started && !o.product))

/-- The operation that MATRIX_OP_START starts: the oldest with no older operation pending on its tiles. -/
def State.nextTile (s : State) (core : Nat) : Option TileOp :=
  let ops := s.opsOf core
  ops.find? fun o => !o.started && s.tileRuns o && !olderPending ops o

/-- MATRIX_OP_START. -/
def execMatrixOpStart (core : Nat) (s : State) : Host.Outcome State Fault Refusal :=
  .next <|
    match s.nextTile core with
    | none => s
    | some o =>
      match o.check with
      | some (cause, va) => s.faultTile o cause va
      | none =>
        { s.modTileOp o.id (fun o => { o with started := true, turn := s.nextId }) with nextId := s.nextId + 1 }

/-! ## What a group needs (R205, R212, R213, R215) -/

/-- Products of a group (R66). -/
def mmaProducts : MmaKind → Nat
  | .f64 => 4
  | .f32 => 8
  | _ => 16

/-- The groups of an operation; rows, for MLD. -/
def TileOp.groups (o : TileOp) : Nat :=
  match o.kind with
  | .mma k _ _ _ _ _ => (o.kl + mmaProducts k - 1) / mmaProducts k
  | .load _ => 64
  | _ => 0

/-- The positions of K of a group. -/
def TileOp.ks (o : TileOp) (k : MmaKind) (grp : Nat) : List Nat :=
  (List.range (mmaProducts k)).filterMap fun i => if mmaProducts k * grp + i < o.kl then some (mmaProducts k * grp + i) else none

/-- The quads of a sparse group, counted from the K origin (R213). -/
def TileOp.quads (o : TileOp) (grp : Nat) : List Nat :=
  (List.range 4).filterMap fun i => if 16 * grp + 4 * i < o.kl then some (4 * grp + i) else none

/-- The stored position of A(i, k), and of B(k, j) (R212). -/
def TileOp.posA (o : TileOp) (ta : Bool) (i k : Nat) : Nat × Nat := if ta then (o.ko + k, o.io + i) else (o.io + i, o.ko + k)
def TileOp.posB (o : TileOp) (tb : Bool) (k j : Nat) : Nat × Nat := if tb then (o.jo + j, o.ko + k) else (o.ko + k, o.jo + j)

/-- The stored position of tile element (i, j) in MLD and MST (R215). -/
def TileOp.posT (o : TileOp) (ta : Bool) (i j : Nat) : Nat × Nat := if ta then (o.io + j, o.jo + i) else (o.io + i, o.jo + j)

/-- The keys of the bytes that a group reads, where `pick` gives the positions of a sparse operation's quad that some nibble selects (R213);
none is an address that carries out. -/
def TileOp.needs (o : TileOp) (grp : Nat) (pick : Nat → List Nat) : List (Option Nat) :=
  let ea := TEntry.of o.ea
  let eb := TEntry.of o.eb
  let all := List.range 64
  match o.kind with
  | .mma k false ta tb _ _ =>
    (o.ks k grp).flatMap fun q =>
      all.flatMap fun i =>
        let a := o.posA ta i q
        let b := o.posB tb q i
        ea.elemBytes a.1 a.2 ++ eb.elemBytes b.1 b.2 ++ (if k == .w4 then eb.scaleBytes b.1 b.2 (!tb) else [])
  | .mma _ true _ tb _ _ =>
    (o.quads grp).flatMap fun q =>
      all.flatMap fun i =>
        ea.elemBytes (o.io + i) (2 * q) ++ ea.elemBytes (o.io + i) (2 * q + 1) ++ [ea.mdByte (o.io + i) q] ++
          (pick q).flatMap fun m =>
            let b := o.posB tb (4 * q + m) i
            eb.elemBytes b.1 b.2
  | .load ta =>
    all.flatMap fun j =>
      let p := o.posT ta grp j
      ea.elemBytes p.1 p.2 ++ (if ea.format ≥ 7 then ea.scaleBytes p.1 p.2 true else [])
  | _ => []

/-- What is fetched for an operation. -/
def State.fetchedOf (s : State) (id : Nat) : Map Byte := (s.eng.opData.get OpData.none id).fetched

/-- The positions of a quad that the nibbles fetched so far select (R213). -/
def TileOp.picks (o : TileOp) (m : Map Byte) (q : Nat) : List Nat :=
  let e := TEntry.of o.ea
  ((List.range 64).flatMap fun i =>
    if (e.mdByte (o.io + i) q).any fun k => (m.find k).isSome then
      let n := e.nibble m (o.io + i) q
      [bits n 0 2, bits n 2 2]
    else []).eraseDups

/-- The keys that a group still needs, each once. Those of B that metadata select are known once all its metadata have come, so that a sector of B
is read by one fetch (R205). -/
def State.missingAt (s : State) (o : TileOp) (grp : Nat) : List (Option Nat) :=
  let m := s.fetchedOf o.id
  let lack (ks : List (Option Nat)) : List (Option Nat) :=
    (ks.filter fun k => match k with | none => true | some k => (m.find k).isNone).eraseDups
  match lack (o.needs grp fun _ => []) with
  | [] => lack (o.needs grp (o.picks m))
  | ks => ks

/-- The keys that the operation's next group still needs. -/
def State.missing (s : State) (o : TileOp) : List (Option Nat) := s.missingAt o o.prog

/-- The lines pinned on a core, each counted once (R206): those of a context's memory, and those of a crew's scratchpad. -/
def State.pinned (s : State) (core : Nat) : Nat :=
  ((s.opsOf core).flatMap fun o => (s.eng.opData.get OpData.none o.id).lines.map fun l =>
    (if l ≥ 2 ^ 71 then o.crew else o.at'.ctx, l)).eraseDups.length

/-- The operation whose next group is the oldest on a core, by their starts (R206). -/
def State.oldestOp (s : State) (core : Nat) : Option TileOp :=
  firstBy (fun a b => a.turn < b.turn) ((s.opsOf core).filter fun p => p.started && p.prog < p.groups)

/-- Whether an operation's group is the oldest on its core, whose lines come before those of any other (R206). -/
def State.oldestGroup (s : State) (o : TileOp) : Bool := (s.oldestOp o.at'.core).all (·.id == o.id)

/-- The groups of an operation that are not consumed. -/
def TileOp.remaining (o : TileOp) : List Nat := (List.range (o.groups - o.prog)).map (o.prog + ·)

/-- Whether a line of an operation's next group must wait (R206): while a group of an operation that started before lacks lines, and where it would be the
513th. Lines come in the order of their groups (DEDUCED, log 54), so that the oldest always finds room. -/
def State.lineWaits (s : State) (o : TileOp) : Bool :=
  !s.oldestGroup o && (s.pinned o.at'.core ≥ 512 ||
    (s.opsOf o.at'.core).any fun p => p.started && p.turn < o.turn && p.remaining.any fun g => !(s.missingAt p g).isEmpty)

/-- The metadata bytes of a group. -/
def TileOp.metadata (o : TileOp) (grp : Nat) : List Nat :=
  match o.kind with
  | .mma _ true _ _ _ _ => (o.quads grp).flatMap fun q => (List.range 64).filterMap fun i => (TEntry.of o.ea).mdByte (o.io + i) q
  | _ => []

/-- The keys that some groups of an operation can use. -/
def TileOp.keysOf (o : TileOp) (gs : List Nat) : List Nat := gs.flatMap fun g => (o.needs g fun _ => [0, 1, 2, 3]).filterMap fun k => k

/-- The next group has been consumed (R206): a line stays pinned while a later group uses it, and so does what was read for one. -/
def State.unpin (s : State) (o : TileOp) : State :=
  let d := s.eng.opData.get OpData.none o.id
  let later := o.keysOf (o.remaining.drop 1)
  let kept : OpData := ⟨d.lines.filter fun l => later.any (· / 512 == l), d.fetched.filter fun b => later.contains b.1,
    d.bad.filter fun b => later.contains b.1⟩
  s.modEng fun g => { g with opData := g.opData.insert o.id kept }

/-- Operations give up their pins and their place among the groups, and start again behind those that have started meanwhile. What they have read stays
read (R205). -/
def State.restart (s : State) (p : TileOp → Bool) : State :=
  let ids := (s.eng.tileOps.filter p).map (·.id)
  s.modEng fun g => { g with
    tileOps := g.tileOps.map fun o => if ids.contains o.id then { o with started := false } else o
    opData := g.opData.map fun d => if ids.contains d.1 then (d.1, { d.2 with lines := [] }) else d }

/-- An operation begins to wait at its next group or row (R208). DESIGN CHOICE, log 54: while it waits it is not among the groups that R206 orders, and
it starts again when it goes on; the manual does not say whether its group still counts as the oldest. -/
def State.waitTile (s : State) (o : TileOp) (w : PageWait) : State :=
  (s.restart (·.id == o.id)).modTileOp o.id fun o => { o with waiting := some w }

/-! ## The elements of a tile -/

/-- An element of an operation's tile, or of its pair. -/
def State.tileElem (s : State) (o : TileOp) (i j : Nat) : Nat :=
  (s.getTile o.crew o.tile i j).toNat + (if o.pair then 2 ^ 32 * (s.getTile o.crew (o.tile + 1) i j).toNat else 0)

def State.putElem (s : State) (o : TileOp) (i j v : Nat) : State :=
  let s := s.setTile o.crew o.tile i j (BitVec.ofNat 32 v)
  if o.pair then s.setTile o.crew (o.tile + 1) i j (BitVec.ofNat 32 (v / 2 ^ 32)) else s

/-- The tile element that MLD makes of an element's code (R215). -/
def loadElem (e : TEntry) (m : Map Byte) (row col : Nat) : Nat :=
  let v := e.elem m row col
  let wide (F : Fmt) (v : Nat) : Nat := f32.round (F.value v) .rn false
  match e.format with
  | 0 | 1 | 5 => v
  | 2 => wide bf16 v
  | 3 => wide f16 v
  | 4 => wrapInt (intOf v 8 true) 32
  | 6 =>
    let k := v % 32
    let sg := v / 32 % 2 == 1
    if k == 0 then (if sg then f32.canonNaN else 0) else f32.finish (logToLin sg k e.scale) .rn false false
  | _ => wide bf16 (e.w4 m row col true)

/-- The bytes that MST makes of a tile element (R215). -/
def storeElem (format v : Nat) (sat : Bool) : List Byte :=
  match format with
  | 1 => bytesOf 8 v
  | 2 => bytesOf 2 (bf16.finish (f32.value v) .rn false sat)
  | 3 => bytesOf 2 (f16.finish (f32.value v) .rn false sat)
  | 4 => bytesOf 1 (intBits (intOf v 32 true) 8 true sat)
  | _ => bytesOf 4 v

/-! ## Fetching (R205, R206, R208) -/

/-- Convert the row of an MLD whose bytes have come. -/
def State.loadRow (s : State) (o : TileOp) (ta : Bool) : State :=
  let e := TEntry.of o.ea
  let m := s.fetchedOf o.id
  let s := (List.range 64).foldl (init := s) fun s j =>
    let p := o.posT ta o.prog j
    s.putElem o o.prog j (loadElem e m p.1 p.2)
  (s.unpin o).modTileOp o.id fun o => { o with prog := o.prog + 1 }

/-- Of the keys that a group needs, those that the next fetch reads: one line of memory, or one segment of the scratchpad; with them what the operation
still needs of their sectors, each of which is so read by one fetch (R205). -/
def State.nextKeys (s : State) (o : TileOp) (k : Nat) (ks : List (Option Nat)) : List Nat :=
  let grain := if k ≥ 2 ^ 80 then 256 else 512
  let now := (k :: ks.filterMap fun k => k).filter fun j => j / grain == k / grain
  let secs := (now.map (· / 32)).eraseDups
  let m := s.fetchedOf o.id
  now ++ ((o.keysOf o.remaining).filter fun j => secs.contains (j / 32) && (m.find j).isNone && !now.contains j).eraseDups

/-- Pin a line for an operation. -/
def State.pin (s : State) (id line : Nat) : State :=
  s.modEng fun g =>
    let d := g.opData.get OpData.none id
    { g with opData := g.opData.insert id { d with lines := (d.lines ++ [line]).eraseDups } }

/-- Fetch a line for a later group of an operation (R206), whose next group has its lines, as those before it have. What a fetch cannot
bring now is left for the group itself to meet. -/
def State.fetchAhead (s : State) (o : TileOp) : State :=
  match (o.remaining.drop 1).find? fun g => !(s.missingAt o g).isEmpty with
  | none => s
  | some g =>
    match s.missingAt o g with
    | some k :: ks =>
      if s.lineWaits o || s.pinned o.at'.core ≥ 512 then s
      else match s.fetchLine false (tcAgent o.at'.core) o.at' o.id (s.nextKeys o k ks) (o.metadata g).contains with
        | (.ok, s) | (.asked, s) => s.pin o.id (k / 512)
        | _ => s
    | _ => s

/-- TILE_FETCH (R206): fetch and pin one line of the operation's next group or, that being there, of a later one. -/
def execTileFetch (id : Nat) (s : State) : Host.Outcome State Fault Refusal :=
  .next <|
    match s.tileOp id with
    | none => s
    | some o =>
      if !o.started || !s.tileRuns o || o.prog ≥ o.groups || s.opAsked id then s
      else
        match s.missing o with
        | [] => match o.kind with
          | .load ta => s.loadRow o ta
          | _ => s.fetchAhead o
        | none :: _ => s.faultTile o .addrovf 0
        | some k :: ks =>
          let line := k / 512
          let pinned := (s.eng.opData.get OpData.none id).lines.contains line
          if !pinned && s.lineWaits o then s
          else
            match s.fetchLine false (tcAgent o.at'.core) o.at' id (s.nextKeys o k ks) (o.metadata o.prog).contains with
            | (.ok, s) | (.asked, s) => s.pin id line
            | (.busy, s) => s
            | (.fault cause addr, s) => s.faultTile o cause addr
            | (.wait w rec', s) => (s.waitTile o w).pageOp o.at' rec'
            | (.damaged sec f addr, s) =>
              (s.waitTile o ⟨.retired, pageOf addr, some sec⟩).consumeOp (tcAgent o.at'.core) o.at' addr sec f

/-! ## A group (R66, R210, R212, R213) -/

/-- The exact products of a group for element (i, j). -/
def TileOp.products (o : TileOp) (m : Map Byte) (k : MmaKind) (sparse ta tb : Bool) (i j : Nat) : List XReal :=
  let ea := TEntry.of o.ea
  let eb := TEntry.of o.eb
  let F := match k with | .f64 => f64 | .f32 => f32 | .f16 => f16 | _ => bf16
  if sparse then
    (o.quads o.prog).flatMap fun q =>
      let nib := ea.nibble m (o.io + i) q
      (List.range 2).map fun h =>
        let b := o.posB tb (4 * q + bits nib (2 * h) 2) j
        XReal.prod (F.value (ea.elem m (o.io + i) (2 * q + h))) (F.value (eb.elem m b.1 b.2))
  else
    (o.ks k o.prog).map fun q =>
      let a := o.posA ta i q
      let b := o.posB tb q j
      let x := ea.elem m a.1 a.2
      match k with
      | .lg6 => logMul x (eb.elem m b.1 b.2) ea.scale eb.scale
      | .w4 => XReal.prod (bf16.value x) (bf16.value (eb.w4 m b.1 b.2 (!tb)))
      | .i8 => XReal.ofInt (intOf x 8 true * intOf (eb.elem m b.1 b.2) 8 true)
      | _ => XReal.prod (F.value x) (F.value (eb.elem m b.1 b.2))

/-- The accumulator of a group's element: 0 in the first group of an overwriting operation. -/
def State.accOf (s : State) (o : TileOp) (ovw : Bool) (i j : Nat) : Nat :=
  if ovw && o.prog == 0 then 0 else s.tileElem o i j

/-- MmaGroup of an operation's element. -/
def State.groupElem (s : State) (o : TileOp) (k : MmaKind) (sparse ta tb ovw sat : Bool) (i j : Nat) : Nat :=
  let ps := o.products (s.fetchedOf o.id) k sparse ta tb i j
  let acc := s.accOf o ovw i j
  match k with
  | .i8 => mmaGroupI acc (ps.map fun p => p.toWhole .rz) sat
  | .f64 => mmaGroupF f64 acc ps sat
  | _ => mmaGroupF f32 acc ps sat

/-- Write a group's results and count it (R209, R212). -/
def State.writeGroup (s : State) (o : TileOp) (vals : List (Nat × Nat × Nat)) : State :=
  let s := vals.foldl (fun s v => s.putElem o v.1 v.2.1 v.2.2) s
  ((s.unpin o).modTileOp o.id fun o => { o with prog := o.prog + 1, retried := false }).modEng fun g =>
    { g with tileProg := g.tileProg.set 0 (16 * o.crew + o.tile) (o.prog + 1) }

/-- The elements of a group after the disturbances to come, in row order, and whether one of them diverges (R210). -/
def State.strikeElems (s : State) (core w : Nat) (wrong : Nat → Nat → Nat → Nat → Bool) :
    List (Nat × Nat × Nat) → (List (Nat × Nat × Nat) × Bool) × State
  | [] => (([], false), s)
  | (i, j, v) :: vs =>
    let (r, s) := if s.pkg.disturb.isEmpty then (v, s) else s.strike core 64 v
    let ((ws, bad), s) := State.strikeElems s core w wrong vs
    let r := if r = v then r else r % 2 ^ w
    (((i, j, r) :: ws, bad || wrong i j r v), s)

/-- MMA_GROUP: with every byte of the group fetched, its elements are computed from the accumulator, checked, and written; a
group that diverges is repeated once, then JEWEL (R210). -/
def execMmaGroup (id : Nat) (s : State) : Host.Outcome State Fault Refusal :=
  .next <|
    match s.tileOp id with
    | none => s
    | some o =>
      match o.kind with
      | .mma k sparse ta tb ovw sat =>
        if !o.started || !s.tileRuns o || o.prog ≥ o.groups || !(s.missing o).isEmpty then s
        else
          let cells := (List.range 64).flatMap fun i => (List.range 64).map fun j => (i, j)
          let vals := cells.map fun e => (e.1, e.2, s.groupElem o k sparse ta tb ovw sat e.1 e.2)
          let F := if k == .f64 then f64 else f32
          let wrong (i j r v : Nat) : Bool :=
            r != v && (k == .i8 || F.diverges r v (F.value (s.accOf o ovw i j) :: o.products (s.fetchedOf o.id) k sparse ta tb i j))
          let ((got, bad), t) := s.strikeElems o.at'.core (F.width) wrong vals
          let (bad, t) := match t.armedFp o.at'.core with
            | [] => (bad, t)
            | ys => (true, ys.foldl (fun (t : State) (y : Ctx) => t.disarm y.num) t)
          if !bad then t.writeGroup o got
          else if o.retried then t.faultTile o .jewel 0
          else t.modTileOp id fun o => { o with retried := true }
      | _ => s

/-! ## Completion (R203, R214, R215) -/

/-- The key of the bytes that an MST writes for element n, counted in stored order; none where its address carries out. -/
def TileOp.storeKey (o : TileOp) (n : Nat) : Option Nat :=
  let e := TEntry.of o.ea
  let off := e.offset (o.io + n / 64) (o.jo + n % 64)
  if (e.byteAt (off + unitBytes e.format - 1)).isNone then none else e.byteAt off

/-- The stores that an MST makes of some elements, in order: the number of the first element, the key and the bytes. Elements that follow each other in
one sector are written together (R237). -/
def State.storeRuns (s : State) (o : TileOp) (ta sat : Bool) : List Nat → List (Nat × Option Nat × List Byte)
  | [] => []
  | n :: ns =>
    let e := TEntry.of o.ea
    let rest := State.storeRuns s o ta sat ns
    if !e.inside (o.io + n / 64) (o.jo + n % 64) then rest
    else
      let bs := storeElem e.format (if ta then s.tileElem o (n % 64) (n / 64) else s.tileElem o (n / 64) (n % 64)) sat
      match o.storeKey n, rest with
      | some k, (m, some j, cs) :: rs =>
        if j == k + bs.length && j / 32 == k / 32 then (n, some k, bs ++ cs) :: rs else (n, some k, bs) :: (m, some j, cs) :: rs
      | key, rest => (n, key, bs) :: rest

/-- What the stores of an MST come to: the elements done, and how they stopped. -/
def State.storeElems (s : State) (o : TileOp) : List (Nat × Option Nat × List Byte) → Wrote × Nat × State
  | [] => (.ok, 4096, s)
  | r :: rs =>
    match s.storeAt (tcAgent o.at'.core) o.at' o.id r.2.1 r.2.2 with
    | (.ok, s) => State.storeElems s o rs
    | (w, s) => (w, r.1, s)

/-- The operation is done: its progress counter reads 0 (R212). -/
def State.finishTile (s : State) (o : TileOp) : State :=
  (s.dropTileOp o.id).modEng fun g => { g with tileProg := g.tileProg.erase (16 * o.crew + o.tile) }

/-- Every word of an operation's tiles becomes 0. -/
def State.zeroTiles (s : State) (o : TileOp) : State :=
  { s with tiles := s.tiles.filter fun (e : Nat × Word) => !o.tiles.any fun t => e.1 / 4096 == 16 * o.crew + t }

/-- TILE_OP_COMPLETE: what an operation still does at its end, and its leaving the queue. -/
def execTileOpComplete (id : Nat) (s : State) : Host.Outcome State Fault Refusal :=
  .next <|
    match s.tileOp id with
    | none => s
    | some o =>
      if !o.started || !s.tileRuns o || (o.prog < o.groups) || s.opWriting id then s
      else
        match o.kind with
        | .zero => (s.zeroTiles o).finishTile o
        | .mma _ _ _ _ ovw _ => (if o.kl == 0 && ovw then s.zeroTiles o else s).finishTile o
        | .load _ => s.finishTile o
        | .store ta sat =>
          if o.prog ≥ 4096 then s.finishTile o
          else match s.storeElems o (s.storeRuns o ta sat ((List.range 4096).drop o.prog)) with
          | (.ok, _, s) =>
            if s.opWriting id then s.modTileOp id fun o => { o with prog := 4096 } else s.finishTile o
          | (.busy, n, s) => s.modTileOp id fun o => { o with prog := n }
          | (.fault cause addr, _, s) => s.faultTile o cause addr
          | (.wait w rec', n, s) =>
            (s.modTileOp id fun o => { o with prog := n, waiting := some w }).pageOp o.at' rec'

end Sys2Proof.Machine
end

