-- ==== Sys2Proof/Machine/Traces.lean ====
section
/-! DEFINITION. TRC, the guards, SKIP, COMMIT and its forms, TRAP, BRK (R100 to R125), the waits at trace boundaries (R85, R86), and
MATCH, TRIGGER, YIELD, SRD, QSTAT (R94 to R98). -/

namespace Sys2Proof.Machine

/-! ## NOP, ILLEGAL, TRC -/

/-- R42. -/
def execNop (x : Ctl) (s : State) : Host.Outcome State Fault Refusal :=
  onCohort s fun c s => s.issue c (.nop x) x.pred x.stall fun s _ => s

/-- A decode fault (R49, R324): raised for every thread of the cohort before the word executes. -/
def State.raiseAll (s : State) (c : Cohort) (cause : Cause) (addr : Nat) : State :=
  s.raiseIn c c.lanes cause c.offset fun _ => addr

/-- R41. -/
def execIllegal (s : State) : Host.Outcome State Fault Refusal := onCohort s fun c s => s.raiseAll c .illop 0

/-- TRC (R124): the trace begins; a revocable one with a budget waits for its trace-buffer entries (R102). A TRC anywhere
else is ILLCTX (R100). -/
def execTrc (x : Trc) (s : State) : Host.Outcome State Fault Refusal :=
  onCohort s fun c s =>
    if c.st ≠ .trc then s.raiseAll c .illctx 0
    else s.setCohort { c with
      hdr := c.pc, pc := c.pc + 1, irr := x.irr, full := x.full, traceId := x.traceId, budget := x.budget.toNat,
      len := x.len.toNat, readSet := [], broken := [], nextIssue := s.clock + max x.stall.toNat 1,
      st := if !x.irr && x.budget != 0 then .buffer else .ready }

/-! ## Guards and SKIP (R107 to R109) -/

/-- A branch target relative to an instruction: the address plus a 24-bit signed offset. -/
def codeTarget (a : Nat) (t : BitVec 24) : Nat := (((a : Int) + offOf t) % 2 ^ 32).toNat

/-- A lane fails a guard: it leaves the trace at once, and with it its attempt (R122); it is filed at the alternative once its results are
written. -/
def State.failGuard (s : State) (c : Cohort) (alt : Nat) (l : Lane) : State :=
  let s := s.rollback c l.tid
  (s.modThread l.tid fun t => { t with place := .leaving alt c.core, resvLost := false }).post (.hw (.guardFailFiling l.tid alt))

/-- Issue a guard: `p` predicates it, `pass` says which of those lanes pass. -/
def State.issueGuard (s : State) (c : Cohort) (i : Instr) (p : Pred) (x : Guard) (pass : State → Lane → Bool) : State :=
  s.issue c i p x.stall fun s lanes =>
    (lanes.filter fun l => !pass s l).foldl (init := s) fun s l => s.failGuard c (codeTarget c.pc x.tgt) l

/-- R108: the pred field names the tested predicate. -/
def execGuard (x : Guard) (s : State) : Host.Outcome State Fault Refusal :=
  onCohort s fun c s => s.issueGuard c (.guard x) Pred.always x fun s l => s.predTrue c x.pred l.tid

/-- R108: sext(lo) ≤ va ≤ sext(hi) as s32. -/
def execGuardr (x : Guard) (s : State) : Host.Outcome State Fault Refusal :=
  onCohort s fun c s => s.issueGuard c (.guardr x) x.pred x fun s l =>
    let v := (s.seenV c l.tid x.ra.toNat).toInt
    x.lo.toInt ≤ v && v ≤ x.hi.toInt

def execGuardnz (x : Guard) (s : State) : Host.Outcome State Fault Refusal :=
  onCohort s fun c s => s.issueGuard c (.guardnz x) x.pred x fun s l => s.seenV c l.tid x.ra.toNat != 0

/-- GUARD_FAIL_FILING (R107): the thread is filed at the alternative with key tag 0. -/
def execGuardFailFiling (tid alt : Nat) (s : State) : Host.Outcome State Fault Refusal :=
  .next <|
    match s.threads.find tid with
    | some t => if t.place = .leaving alt (((s.crews.find t.crew).bind (·.core)).getD 0)
        then s.file tid (Filing.at' alt 0 s.clock) else s
    | none => s

/-- SKIP (R109): the lanes whose predicate is true do not execute the next n instructions. -/
def execSkip (x : Skip) (s : State) : Host.Outcome State Fault Refusal :=
  onCohort s fun c s => s.issue c (.skip x) x.pred x.stall fun s lanes =>
    lanes.foldl (init := s) fun s l =>
      s.modLane c.id l.tid fun l => { l with skipTo := max l.skipTo (c.offset + x.n.toNat + 1) }

/-! ## Delivering a trap at a boundary (R125, R317) -/

/-- File a thread at its successor, or at its handler when a TRAP or BRK is due (R125); a RET or EXIT clears nothing here. -/
def State.fileOrTrap (s : State) (tid : Nat) (trap : Option TrapDue) (vec : Dword) (core : Nat) (f : Filing)
    (traceId : BitVec 16) (offset : Nat) : State :=
  match trap with
  | some d => s.enterHandler tid vec core ⟨d.cause, d.code, d.traceId, d.offset, f.next, f.resume⟩ 0
  | none => s.boundary tid f traceId offset

/-- The vector that a thread outside any cohort uses (R316). -/
def State.vecNow (s : State) (crew : Nat) : Dword := (s.regsOf (s.ctxOf crew)).trapvec

/-- Release a waiting thread (R85, R86, R125, R333). -/
def State.releaseWaiter (s : State) (t : Thread) (w : Waiting) : State :=
  s.fileOrTrap t.id w.trap (s.vecNow t.crew) (((s.crews.find t.crew).bind (·.core)).getD 0)
    (Filing.at' w.succ w.tag s.clock) w.traceId w.len

/-! ## Barriers (R85) -/

/-- The threads that have arrived at barrier n. -/
def State.arrived (s : State) (crew n : Nat) : List (Thread × Waiting) :=
  (s.threadsOf crew).filterMap fun t => match t.place with
    | .barrier m w => if m = n then some (t, w) else none
    | _ => none

/-- Complete barrier n if its arrivals reach the target (R85). -/
def State.checkBarrier (s : State) (crew n : Nat) : State :=
  match s.crews.find crew with
  | none => s
  | some w =>
    let b := w.barriers.get ⟨0, none⟩ n
    let a := s.arrived crew n
    let target := b.target.getD (s.unexited crew).length
    if a.isEmpty || a.length < target then s
    else
      let s := s.setCrew { w with barriers := w.barriers.insert n ⟨(b.gen + 1) % 2 ^ 32, none⟩ }
      a.foldl (fun s e => s.releaseWaiter e.1 e.2) (s.settleK crew none)

/-- Arrive at barrier n; the first arrival of a generation reads the target. -/
def State.arriveBar (s : State) (tid crew n : Nat) (target : Option Nat) (w : Waiting) : State :=
  let first := (s.arrived crew n).isEmpty
  let s := if first then s.modCrew crew fun k =>
      { k with barriers := k.barriers.insert n ⟨(k.barriers.get ⟨0, none⟩ n).gen, target⟩ } else s
  (s.modThread tid fun t => { t with place := .barrier n w }).checkBarrier crew n

/-! ## Wait points (R86) -/

/-- The threads of a wait point's group. -/
def State.inGroup (s : State) (crew addr : Nat) : List (Thread × Nat × Waiting) :=
  (s.threadsOf crew).filterMap fun t => match t.place with
    | .rwait a p w => if a = addr then some (t, p, w) else none
    | _ => none

/-- Release a group with its predicate (R86). -/
def State.releaseGroup (s : State) (crew addr : Nat) (b : Bool) : State :=
  let g := s.inGroup crew addr
  let s := s.modCrew crew fun k => { k with groups := k.groups.erase addr }
  g.foldl (fun s e => (s.setP e.1.id e.2.1 b).releaseWaiter e.1 e.2.2) s

/-- Arrive at a wait point: the first arrival opens a group; reaching the count releases it. -/
def State.arriveRwait (s : State) (tid crew addr pred count timeout : Nat) (w : Waiting) : State :=
  let fresh := ((s.crews.find crew).bind fun k => k.groups.find addr).isNone
  let s := if fresh then s.modCrew crew fun k => { k with groups := k.groups.insert addr ⟨count, timeout, 0⟩ } else s
  let s := s.modThread tid fun t => { t with place := .rwait addr pred w }
  let count := (((s.crews.find crew).bind fun k => k.groups.find addr).map (·.count)).getD count
  if (s.inGroup crew addr).length ≥ count then s.releaseGroup crew addr true
  else if fresh && timeout = 0 then s.post (.hw (.rwaitTimeout crew addr))
  else s

/-- RWAIT_TIMEOUT (R86): the timer has reached timeout × 16 clocks. -/
def execRwaitTimeout (crew addr : Nat) (s : State) : Host.Outcome State Fault Refusal :=
  .next <|
    match (s.crews.find crew).bind fun k => k.groups.find addr with
    | some g => if 16 * g.timeout ≤ g.elapsed then s.releaseGroup crew addr false else s
    | none => s

/-! ## The end of a thread (R85, R88, R115) -/

/-- A thread ends: its crew's barriers are re-evaluated, and the crew's decrement and end follow the last one. -/
def State.endThread (s : State) (tid : Nat) : State :=
  match s.threads.find tid with
  | none => s
  | some t =>
    let s := s.modThread tid fun t => { t with place := .ended }
    let s := ((s.crews.find t.crew).map fun k => k.barriers.map (·.1)).getD []
      |>.foldl (fun s n => s.checkBarrier t.crew n) s
    if (s.unexited t.crew).isEmpty then s.post (.hw (.joinDecrement t.crew)) else s

/-! ## Commit (R110 to R115) -/

/-- What a COMMIT's form does (R113). -/
inductive Form
  | next | sel | ind | call | ret | exit | bar | rwait
  deriving DecidableEq, Repr

/-- How far a lane's commit has come: done; waiting with later lanes behind it (an effect that waits); waiting by itself. -/
inductive Went | done | waitAll | waitSelf
  deriving DecidableEq, Repr

/-- Whether an effect is of the side-log kind (R106). -/
def Effect.logs : Effect → Bool
  | .mem e _ _ => e.logs
  | _ => false

/-- The order of a buffered scratchpad effect. -/
def Effect.order : Effect → Order
  | .sts _ _ o | .atoms _ _ _ o _ => o
  | _ => .plain

/-- A lane's first effect is performed or in the side log; the entry reserved for it is used or free (R110). -/
def State.popEffect (s : State) (cid tid : Nat) : State :=
  s.modLane cid tid fun l => { l with
    buf := l.buf.drop 1
    logRes := l.logRes - (if l.buf.head?.any Effect.logs then 1 else 0) }

/-- The record of a page that an effect past its commit point waits on (R106), once while no record of it is open. -/
def State.reportOnce (s : State) (c : Cohort) (l : Lane) (e : MemEff) : State :=
  if s.recordOpen e.ctx c.core (pageOf e.va) then s
  else match s.threads.find l.tid with
    | none => s
    | some t => s.report { s.recordOf .page t c.core c.traceId e.offset e.va with recov := true }

/-- Perform an effect of a commit in device memory, at its own scope (R111), or send it to the host or a peer. -/
def State.performScoped (s : State) (c : Cohort) (e : MemEff) (key : Nat) (watch : Bool) : State :=
  if s.remoteKey key then
    (if e.kind == .nothing then s
     else (s.sendRemote ⟨decide (key ≥ peerKey), some e, key, e.bytes.length, [], .write, c.id, e.thread, tcAgent c.core, watch, false, none⟩).2)
  else if e.kind == .store && wideScope e.scope then (s.perform key e.bytes (.ctx e.ctx) watch).noteWrite e.thread key e.bytes.length
  else s.doEff c.core e key watch

/-- Perform one buffered memory effect past the commit point (R106, R110, R122, R233, R240). It stands behind the thread's own writes to its bytes
(R281), an acquire behind the entries of its page in the side log (R270), and one whose merge check finds damage behind the decision (R354). A walk
that reads a poisoned entry consumes it (R355), once for a decision. -/
def State.performMem (s : State) (c : Cohort) (l : Lane) (e : MemEff) (mark : Mark) : Went × State :=
  let n := e.bytes.length
  let acc := if e.use == .spec then Acc.both else Acc.write
  let s := if releases e.order then s.flushQuantum c.core else s
  if releases e.order && s.releaseWaits l.tid then (.waitAll, s)
  else if e.kind != .nothing && s.logsPage l.tid e.va then
    if e.logs then (.done, s.logBehind c.core e) else (.waitAll, s)
  else
    let (r, s) := s.reach c l.pos e.va acc
    let wait (s : State) (u : Option Nat) (held record : Bool) : Went × State :=
      if e.logs then (.done, s.log c.core e u held record)
      else (.waitAll, if record || held then s.reportOnce c l e else s)
    match r with
    | .go key pte unit =>
      if mark == .sideLog then
        (.done, (s.log c.core e (some unit) false false).post (.hw (.sideLogReplay c.core e.ctx (pageOf e.va))))
      else if s.stalled l.tid key n || (e.use != .qnt && s.ownEntry l.tid key n) ||
          (s.unanswered l.tid fun r => r.due.isSome && overlap key n r.pa r.size) then (.waitAll, s)
      else if key ≥ peerKey && !s.peerOk key then
        (.done, s.raiseIn c [l] .prot e.offset fun _ => e.va)
      else
        match (if e.kind == .nothing || s.remoteKey key then (none, s) else s.mergeCheck key n) with
        | (some (sec, f), s) => (.waitAll, s.detect sec f)
        | (none, s) => (.done, (s.fenceFirst c e.order e.scope).performScoped c e key (pteWatch pte))
    | .page u => wait s u false true
    | .held u => wait s (some u) true false
    | .cow u => wait (s.urge (.hw (.cowCopy e.ctx (pageOf e.va)))) (some u) false false
    | .prot => (.done, s.raiseIn c [l] .prot e.offset fun _ => e.va)
    | .damaged sec => (.waitAll, s.consumeWalk (s.writeRec c.core e .poison) l.tid (some (clusterOf c.core)) sec)
    | .busy => (.waitAll, s)

/-- Whether a lane's commit waits for an effect that is not wholly performed: for the answer to a speculative update, whose hold stands until it is
performed (R122), to an acquire (R270), and to any other write that could not enter the side log (R229), and for the second half of an atomic (R111,
R261). -/
def State.laneAwaits (s : State) (cid tid : Nat) : Bool :=
  s.halfDue tid || s.coh.remote.any fun r => r.2.cohort == cid && r.2.thread == tid && r.2.dest == .write && r.2.eff.any fun e => !e.logs

/-- Whether an effect of an earlier lane of a commit is still to be performed: at the host or a peer, as long as it is not answered (R111). -/
def State.earlierAwaits (s : State) (cid tid : Nat) : Bool :=
  s.coh.remote.any fun r => r.2.cohort == cid && r.2.thread != tid && r.2.dest == .write && r.2.eff.isSome

/-- Request the crew's decrement (R88, R95): the first request only. -/
def State.requestTrigger (s : State) (c : Cohort) : State :=
  if (s.crews.find c.crew).any fun k => k.triggered || k.decremented then s
  else ((s.releaseFlush c.core .sys).modCrew c.crew fun k => { k with triggered := true }).urge (.hw (.joinDecrement c.crew))

/-- Perform a lane's effects in trace order (R110 step 3), at most `fuel` of them, which is their number; the lane is done once none of them is under
way. -/
def State.performEffects (s : State) (c : Cohort) (tid : Nat) : Nat → Went × State
  | 0 => (if s.laneAwaits c.id tid || (s.laneNow c.id tid).any (!·.buf.isEmpty) then .waitAll else .done, s)
  | fuel + 1 =>
    match s.laneNow c.id tid with
    | none => (.done, s)
    | some l =>
      if s.laneAwaits c.id tid then (.waitAll, s)
      else match l.buf with
      | [] => (.done, s)
      | e :: _ =>
        let rel := releases e.order
        if (rel || e == .trigger) && s.releaseWaits tid then (.waitAll, s)
        else
          let s := if rel then s.orderFlush c.core e.order .crew else s
          let (w, s) := match e with
            | .mem m _ mark => s.performMem c l m mark
            | .trigger => (Went.done, s.requestTrigger c)
            | .trap d => (Went.done, s.modLane c.id tid fun l => { l with trap := l.trap.or (some d) })
            | e => (Went.done, s.spadEff c.crew tid e)
          match w with
          | .done => State.performEffects (s.popEffect c.id tid) c tid fuel
          | w => (w, s)

/-- The cohorts with a lane of higher precedence that holds a live reservation which this lane's updates would break, and has been rolled
back for one in its attempt already (R122). -/
def State.deferredBy (s : State) (l : Lane) : List Nat :=
  let mine := l.buf.filterMap fun b => match b with
    | .mem e pa _ => if e.use == .spec && e.kind == .store then some (pa, e.bytes.length) else none
    | _ => none
  match s.threads.find l.tid with
  | none => []
  | some t => (s.cohorts.vals.filter fun k => k.lanes.any fun r =>
      r.tid != l.tid && !r.past && r.resv.any (fun v => !v.failed && mine.any fun m => overlap m.1 m.2 v.pa v.size) &&
        (s.threads.find r.tid).any fun u => u.resvLost && precBefore (s.prec u) (s.prec t)).map (·.id)

/-- Side-log entries that a lane reserves before its commit point (R110). -/
def Lane.logNeeds (l : Lane) : Nat := (l.buf.filter Effect.logs).length

/-- The successor of a lane that is filed (R113), its registers being final. -/
def State.succOf (s : State) (f : Form) (x : Commit) (pc tid : Nat) : Nat :=
  match f with
  | .next => pc + 1
  | .sel => if s.getP tid x.pred.num.toNat != x.pred.neg then codeTarget pc x.tgt0 else codeTarget pc x.tgt1
  | .ind | .ret => (s.getV64 tid x.ra.toNat).toNat
  | _ => codeTarget pc x.tgt0

/-- The commit moves (R114): both sources are read before either destination is written. -/
def State.moves (s : State) (tid : Nat) (x : Commit) : State :=
  let val (m : Option Move) : Word := match m with | some m => s.getV tid m.src.toNat | none => 0
  let put (s : State) (m : Option Move) (w : Word) : State := match m with | some m => s.setV tid m.dst.toNat w | none => s
  put (put s x.move0 (val x.move0)) x.move1 (val x.move1)

/-- The form-specific action of a lane (R115, R125, R319), which has left the cohort. -/
def State.formAction (s : State) (c : Cohort) (f : Form) (x : Commit) (l : Lane) : State :=
  let vec := c.snap.trapvec
  let go (s : State) (fl : Filing) : State := s.fileOrTrap l.tid l.trap vec c.core fl c.traceId c.len
  let succ := s.succOf f x c.pc l.tid
  match f with
  | .call =>
    let s := s.setV64 l.tid x.ra.toNat (BitVec.ofNat 64 (c.pc + 1))
    go s (Filing.at' succ l.key s.clock)
  | .exit =>
    match l.trap with
    | some d => s.enterHandler l.tid vec c.core ⟨d.cause, d.code, d.traceId, d.offset, 0xffffffff, none⟩ 0
    | none => s.endThread l.tid
  | .bar =>
    let (target, s) := if x.ra == 0xff then (none, s)
      else let (v, s) := s.seenK c x.ra.toNat; (some v.toNat, s)
    s.arriveBar l.tid c.crew x.rb.toNat target ⟨succ, l.key, l.trap, c.traceId, c.len⟩
  | .rwait =>
    s.arriveRwait l.tid c.crew c.pc x.rb.toNat x.count.toNat x.timeout.toNat ⟨succ, l.key, l.trap, c.traceId, c.len⟩
  | .ret =>
    match s.threads.find l.tid with
    | none => s
    | some t =>
      if t.handler && succ == t.trapret.toNat then
        let s := s.modThread l.tid fun t => { t with handler := false }
        if succ == 0xffffffff then
          match l.trap with
          | some d => s.enterHandler l.tid vec c.core ⟨d.cause, d.code, d.traceId, d.offset, succ, none⟩ 0
          | none => s.endThread l.tid
        else
          match t.resume with
          | some r =>
            if r.addr == succ then
              let s := s.modThread l.tid fun t => { t with handler := false, resume := none }
              go s { Filing.at' succ 0 s.clock with resume := some r }
            else go s (Filing.at' succ l.key s.clock)
          | none => go s (Filing.at' succ l.key s.clock)
      else go s (Filing.at' succ l.key s.clock)
  | _ => go s (Filing.at' succ l.key s.clock)

/-- Whether an arrival must wait for the thread's own writes (R85, R115): its effects are performed before it arrives. -/
def Form.arrives : Form → Bool
  | .bar | .rwait => true
  | _ => false

/-- A RET of a handler that ends its thread as the EXIT before it would have (R319). -/
def State.retEnds (s : State) (c : Cohort) (x : Commit) (l : Lane) : Bool :=
  (s.threads.find l.tid).any fun t => t.handler && t.trapret == 0xffffffff && (s.moves l.tid x).succOf .ret x c.pc l.tid == 0xffffffff

/-- Whether a lane's form ends its thread. -/
def State.formEnds (s : State) (c : Cohort) (f : Form) (x : Commit) (l : Lane) : Bool := f == .exit || (f == .ret && s.retEnds c x l)

/-- Whether a lane cannot reach its commit point beside another that has (R122): its words are under the other's holds, or the other has an effect on
them still to perform. -/
def State.holdsClash (s : State) (l : Lane) : Bool :=
  let words := l.resv.map fun r => (r.pa, r.size)
  let writes (b : List Effect) : List (Nat × Nat) := b.filterMap fun b => match b with
    | .mem e pa _ => some (pa, e.bytes.length)
    | _ => none
  let meet (a b : List (Nat × Nat)) : Bool := a.any fun p => b.any fun q => overlap p.1 p.2 q.1 q.2
  !l.resv.isEmpty && s.cohorts.vals.any fun c => c.lanes.any fun r =>
    r.past && r.tid != l.tid && (meet (words ++ writes l.buf) (r.resv.map fun v => (v.pa, v.size)) || meet words (writes r.buf))

/-- Commit one lane (R110): validation, the commit point, its effects, its moves and its form's action. From its commit point its holds stand
until its effects are performed (R122). A lane that is deferred for a later lane of its own COMMIT lets the lanes behind it go on (log 50). A thread
ends once its writes are performed (R115). With `stay` the lane does not leave its cohort yet, for a cohort that is to pass straight on (R79). -/
def State.commitLane (s : State) (c : Cohort) (f : Form) (x : Commit) (stay : Bool) (tid : Nat) : Went × State :=
  match s.laneNow c.id tid with
  | none => (.done, s)
  | some l =>
    let finish (s : State) : Went × State :=
      let s := if f.arrives then s.flushQuantum c.core else s
      if stay then (.done, s.modLane c.id tid fun l => { l with resv := [] })
      else if (f.arrives && s.releaseWaits tid) || (s.formEnds c f x l && (s.halfDue tid || s.unanswered tid fun _ => true)) then (.waitSelf, s)
      else match s.laneNow c.id tid with
        | none => (.done, s)
        | some l => (.done, ((s.moves tid x).dropLanes c.id [tid]).formAction c f x l)
    let effects (s : State) : Went × State :=
      match s.performEffects c tid l.buf.length with
      | (.done, s) => finish s
      | r => r
    if c.irr then effects (s.modThread tid fun t => { t with jewelUsed := false })
    else if l.past then effects s
    else
      let dead := l.buf.findSome? fun b => match b with
        | .atoms a n _ _ off => if (s.spadRead c.crew a n).isNone then some (a, off) else none
        | _ => none
      if l.resv.any (·.failed) then
        (.done, (s.refile c tid).modThread tid fun t => { t with resvLost := true })
      else match dead with
        | some (a, off) => (.done, s.raiseStale { c with pc := c.hdr + off } l a)
        | none =>
          let by' := s.deferredBy l
          if !by'.isEmpty then (if by'.all (· == c.id) then .waitSelf else .waitAll, s)
          else if s.holdsClash l || s.logRoom c.core < l.logNeeds then (.waitAll, s)
          else
            let s := s.modThread tid fun t => { t with jewelUsed := false, resvLost := false }
            effects (s.modLane c.id tid fun l => { l with past := true, logRes := l.logNeeds })

/-- Commit the lanes in ascending lane position (R110, R111), at most `n` + 1 of them; lanes behind one whose effects wait, or are still to be
performed at their scope, do not begin. -/
def State.commitLanes (s : State) (c : Cohort) (f : Form) (x : Commit) (stay : Bool) : Nat → List Nat → State
  | _, [] => s
  | n, tid :: tids =>
    if !c.irr && s.earlierAwaits c.id tid then s
    else match s.commitLane c f x stay tid, n with
    | (.waitAll, s), _ => s
    | (.waitSelf, s), n => State.commitLanes s c f x stay n tids
    | (.done, s), n + 1 => State.commitLanes s c f x stay n tids
    | (.done, s), 0 => s

/-- Whether every lane of a cohort has performed its effects. -/
def State.allDone (s : State) (cid : Nat) : Bool :=
  (s.cohorts.find cid).all fun c => c.lanes.all fun l => l.past && l.buf.isEmpty && !s.laneAwaits cid l.tid

/-- The filing key a whole cohort shares (R79), if it may pass straight on: 32 lanes with no trap or TIMER, one successor, one tag, and no
waiting thread of that key. -/
def State.passKey (s : State) (c : Cohort) (f : Form) (x : Commit) : Option (Nat × BitVec 16) :=
  match f, c.lanes with
  | .exit, _ | .bar, _ | .rwait, _ => none
  | _, [] => none
  | _, l :: ls =>
    let succ (l : Lane) : Nat := (s.moves l.tid x).succOf f x c.pc l.tid
    let plain (l : Lane) : Bool := !(l.buf.any fun b => match b with | .trap _ => true | _ => false) && l.trap.isNone &&
      !l.resv.any (·.failed) && (s.threads.find l.tid).any fun t => !t.timerPend
    if (l :: ls).length == 32 && (l :: ls).all (fun r => plain r && r.key == l.key && succ r == succ l) &&
      !(s.waitingOn c.core).any (fun e => e.2.1 == ⟨c.crew, succ l, l.key, none⟩) then some (succ l, l.key)
    else none

/-- A cohort that has committed whole passes straight on to its successor (R79): it awaits that trace's TRC. -/
def State.passOn (s : State) (c : Cohort) (next : Nat) : State :=
  let tids := c.lanes.map (·.tid)
  let filed := tids.all fun t => (s.threads.find t).any fun t => match t.place with
    | .filed f => f.next == next && f.resume.isNone
    | _ => false
  if !filed then s
  else
    let s := tids.foldl (init := s) fun s t => s.modThread t fun t => { t with place := .inCohort c.id }
    let s := s.dropRoot (s.ctxOf c.crew) (s.regsOf (s.ctxOf c.crew)).ptroot
    s.setCohort { c with
      st := .trc, hdr := next, pc := next, irr := true, full := false, traceId := 0, budget := 0, len := 0,
      drawnFull := true, group := 0, snap := s.regsOf (s.ctxOf c.crew), readSet := [], broken := [], pend := [],
      nextIssue := s.clock + 1, yieldFor := [], tb := 0, waits := [], rexec := [], code := none, pushed := 0, xops := none,
      lanes := c.lanes.map fun l => ⟨l.pos, l.tid, 0, 0, [], [], none, false, none, 0⟩ }

/-- How many lanes beyond the first may commit before anything else happens: in a revocable trace pre-emption may fall between two lanes
(R119, R285), where the manual does not say. A cohort that is to pass straight on commits whole. -/
def State.commitQuota (s : State) (c : Cohort) (whole : Bool) : Nat × State :=
  if c.irr || whole || c.lanes.length ≤ 1 then (c.lanes.length, s) else s.drawNat

/-- COMMIT (R110): it waits until every result of the trace is written, a push's among them (R46). Lanes that must wait stay in the cohort, whose
COMMIT issues again. The lanes of a cohort that is to pass straight on leave together, once all have performed their effects (R79). -/
def State.commit (s : State) (c : Cohort) (f : Form) (x : Commit) : State :=
  let late := (c.pend.filter (·.ready > s.clock)).foldl (fun m p => max m p.ready) c.pushed
  if late > s.clock then s.modCohort c.id fun c => { c with nextIssue := late }
  else
    let pass := s.passKey c f x
    let s := if !c.irr || c.lanes.any (s.formEnds c f x) then s.flushQuantum c.core else s
    let (n, s) := s.commitQuota c pass.isSome
    let tids := c.lanes.map (·.tid)
    let s := if c.irr || pass.isNone then s.commitLanes c f x false n tids
      else
        let s := s.commitLanes c f x true n tids
        if s.allDone c.id then s.commitLanes c f x false n tids else s
    if (s.cohorts.find c.id).isSome then s.hold c.id
    else match pass with
      | some (next, _) => s.passOn c next
      | none => s

def execCommitNext (x : Commit) (s : State) : Host.Outcome State Fault Refusal :=
  onCohort s fun c s => s.commit c .next x

def execCommitSel (x : Commit) (s : State) : Host.Outcome State Fault Refusal :=
  onCohort s fun c s => s.commit c .sel x

def execCommitInd (x : Commit) (s : State) : Host.Outcome State Fault Refusal :=
  onCohort s fun c s => s.commit c .ind x

def execCommitCall (x : Commit) (s : State) : Host.Outcome State Fault Refusal :=
  onCohort s fun c s => s.commit c .call x

def execCommitRet (x : Commit) (s : State) : Host.Outcome State Fault Refusal :=
  onCohort s fun c s => s.commit c .ret x

def execCommitExit (x : Commit) (s : State) : Host.Outcome State Fault Refusal :=
  onCohort s fun c s => s.commit c .exit x

def execCommitBar (x : Commit) (s : State) : Host.Outcome State Fault Refusal :=
  onCohort s fun c s => s.commit c .bar x

def execCommitRwait (x : Commit) (s : State) : Host.Outcome State Fault Refusal :=
  onCohort s fun c s => s.commit c .rwait x

/-! ## TRAP and BRK (R125) -/

/-- One lane: at once in an irrevocable trace, a buffered effect in a revocable one. -/
def State.trapLane (s : State) (c : Cohort) (cause : Cause) (code : Word) (l : Lane) : State :=
  if c.irr then
    (s.dropLanes c.id [l.tid]).enterHandler l.tid c.snap.trapvec c.core
      ⟨cause, code, c.traceId, c.offset, c.pc + 1, some (c.here (c.pc + 1))⟩ 0
  else s.inBudget c l fun s => s.buffer c l (.trap ⟨cause, code, c.offset, c.traceId⟩)

def execTrap (x : ImmI) (s : State) : Host.Outcome State Fault Refusal :=
  onCohort s fun c s => s.issue c (.trap x) x.pred x.stall fun s lanes =>
    lanes.foldl (fun s l => s.trapLane c .trap x.imm l) s

def execBrk (x : ImmI) (s : State) : Host.Outcome State Fault Refusal :=
  onCohort s fun c s => s.issue c (.brk x) x.pred x.stall fun s lanes =>
    lanes.foldl (fun s l => s.trapLane c .brk x.imm l) s

/-! ## MATCH, TRIGGER, YIELD (R94 to R96) -/

/-- R94. -/
def execMatchKey (x : Alu) (s : State) : Host.Outcome State Fault Refusal :=
  onCohort s fun c s =>
    if !s.conduitsOk c .matchKey x then s.stallConduit c
    else s.issue c (.matchKey x) x.pred x.stall fun s lanes =>
      let (ex, s) := s.operands c .matchKey x lanes
      ex.foldl (init := s) fun s e => s.modLane c.id e.lane.tid fun l => { l with key := BitVec.ofNat 16 e.a }

/-- R95: at issue the request releases the triggering thread's own accesses (R88). -/
def execTrigger (x : Ctl) (s : State) : Host.Outcome State Fault Refusal :=
  onCohort s fun c s =>
    let low := (s.execLanes c x.pred).take 1
    let s := if c.irr && !low.isEmpty then s.flushQuantum c.core else s
    if c.irr && s.lanesReleaseWait low then s.hold c.id
    else s.issue c (.trigger x) x.pred x.stall fun s lanes =>
      if c.irr then (if lanes.isEmpty then s else s.requestTrigger c)
      else lanes.foldl (init := s) fun s l => s.inBudget c l fun s => s.buffer c l .trigger

/-- Whether a cohort could issue at this clock: its crew runs, or it is being pre-empted and lanes past their commit points are still
to complete (R119, R326); its cluster is not frozen (R356); the scoreboard holds it for results that it tracks (R45). -/
def State.canIssue (s : State) (c : Cohort) : Bool :=
  (c.st == .ready || c.st == .trc) && c.nextIssue ≤ s.clock && c.waits.isEmpty && c.yieldFor.isEmpty && c.rexec.isEmpty &&
    (s.pkg.frozen.find (clusterOf c.core)).isNone && (c.pend.all fun p => !p.tracked || p.ready ≤ s.clock) &&
    (s.crews.find c.crew).any fun k => k.running || (k.stopping.isSome && !c.irr && c.lanes.any (·.past))

/-- R96. -/
def execYield (x : Ctl) (s : State) : Host.Outcome State Fault Refusal :=
  onCohort s fun c s => s.issue c (.yield x) x.pred x.stall fun s lanes =>
    if lanes.isEmpty then s
    else
      let others := (s.cohorts.vals.filter fun k => k.id != c.id && k.core == c.core && k.port == c.port && s.canIssue k).map (·.id)
      s.modCohort c.id fun k => { k with yieldFor := others }

/-! ## SRD and QSTAT (R97, R98) -/

/-- Field i of a wid under a launch's widths (R69). -/
def widField (widths : List Nat) (wid i : Nat) : Nat :=
  wid / 2 ^ (widths.take i).sum % 2 ^ (widths.getD i 0)

/-- The value a special register has for a thread (R97). -/
def State.special (s : State) (c : Cohort) (l : Lane) (sel : Nat) : Nat :=
  let t : Option Thread := s.threads.find l.tid
  let wid := ((t.map Thread.wid).getD 0).toNat
  let crew : Option Crew := s.crews.find c.crew
  match sel with
  | 0x00 => l.pos
  | 0x01 => 32 * (t.map Thread.row).getD 0 + l.pos
  | 0x02 => wid
  | 0x09 => ((crew.map Crew.crewId).getD 0).toNat
  | 0x0a => c.core
  | 0x0b => dieOf c.core
  | 0x0c => s.ctxOf c.crew
  | 0x0d => s.clock - (s.core c.core).stopped
  | 0x0e => (crew.map Crew.clk).getD 0
  | 0x0f => (s.core c.core).tick
  | 0x10 => if c.lanes.length == 32 then 1 else 0
  | 0x11 => ((t.map Thread.trapcause).getD 0).toNat
  | 0x12 => ((t.map Thread.trapinfo).getD 0).toNat
  | 0x13 => ((t.map Thread.trapret).getD 0).toNat
  | k => if 0x03 ≤ k && k ≤ 0x08 then
      widField (((crew.bind s.launchOf).map (·.widths)).getD []) wid (k - 3) else 0

def execSrd (x : ImmI) (s : State) : Host.Outcome State Fault Refusal :=
  onCohort s fun c s => s.issueImm c (.srd x) x.pred x.stall x.d x.ty.is64 0 fun s lanes =>
    lanes.map fun l => (l, s.special c l x.imm.toNat)

/-- QSTAT's word (R98). -/
def qstatWord (q : Conduit) : Nat :=
  (if q.reserve then 2 ^ 30 else 0) + 2 ^ 16 * (q.room % 2 ^ 13) + q.fifo.length % 2 ^ 13

def execQstat (x : Alu) (s : State) : Host.Outcome State Fault Refusal :=
  onCohort s fun c s => s.issue c (.qstat x) x.pred x.stall fun s lanes =>
    let v := (((s.crews.find c.crew).bind (·.conduit x.a.reg.num.toNat)).map qstatWord).getD 0
    s.writeDst c (OpSpec.lane false .vk) x.d (baseLat .qstat) (lanes.map fun l => (l, v))

end Sys2Proof.Machine
end

