-- ==== Sys2Proof/Machine/Engines.lean ====
section
/-! DEFINITION. The copy engines, the collective engines, XCOPY, XCOLL, XWAIT and LAUNCH (R290 to R300, R311). -/

namespace Sys2Proof.Machine

/-! ## Copies: what is moved (R291, R293) -/

def State.copyOp (s : State) (id : Nat) : Option CopyOp := s.eng.copyOps.find? (·.id == id)
def State.collOp (s : State) (id : Nat) : Option CollOp := s.eng.collOps.find? (·.id == id)

def State.modCopy (s : State) (id : Nat) (f : CopyOp → CopyOp) : State :=
  s.modEng fun g => { g with copyOps := g.copyOps.map fun o => if o.id = id then f o else o }

def State.modColl (s : State) (id : Nat) (f : CollOp → CollOp) : State :=
  s.modEng fun g => { g with collOps := g.collOps.map fun o => if o.id = id then f o else o }

/-- Columns in units: elements, groups of four or bytes of two. -/
def TEntry.unitCols (e : TEntry) (columns : Nat) : Nat :=
  if e.format == 6 then (columns + 3) / 4 else if e.format ≥ 7 then (columns + 1) / 2 else columns

/-- The whole groups and bytes that R293 requires of a source's columns. -/
def TEntry.wholeCols (e : TEntry) : Bool :=
  (e.format != 6 || e.columns % 4 == 0) && (e.format < 7 || e.columns % 2 == 0)

/-- The byte at a distance inside unit (row, unit column) of a tensor in a plane. -/
def TEntry.unitByte (e : TEntry) (plane row ucol b : Nat) : Option Nat :=
  e.byteAt (plane + row * e.stride + ucol * unitBytes e.format + b)

/-- The bytes a copy writes (R291): in all, and the source and destination keys of byte i in write order. -/
def CopyOp.total (o : CopyOp) : Nat :=
  let es := TEntry.of o.es
  o.depth * es.rows * es.unitCols es.columns * unitBytes es.format

def CopyOp.byte (o : CopyOp) (i : Nat) : Option Nat × Option Nat :=
  let es := TEntry.of o.es
  let ed := TEntry.of o.ed
  let u := unitBytes es.format
  let cols := if o.tr then es.rows else es.unitCols es.columns
  let rows := if o.tr then es.columns else es.rows
  let n := i / u
  let z := n / (rows * cols)
  let r := n / cols % rows
  let c := n % cols
  (if o.tr then es.unitByte (z * o.sStride) c r (i % u) else es.unitByte (z * o.sStride) r c (i % u),
    ed.unitByte (z * o.dStride) r c (i % u))

/-- The keys of the chunk that a copy's progress counter names. -/
def CopyOp.chunk (o : CopyOp) : List (Option Nat × Option Nat) :=
  (List.range (min 4096 (o.total - 4096 * o.prog))).map fun i => o.byte (4096 * o.prog + i)

/-- The checks of R202 and R293: the cause and the entry's address. -/
def CopyOp.check (o : CopyOp) : Option (Cause × Nat) :=
  let all := [0, 1, 2, 3, 4, 5, 6, 7, 8]
  let es := TEntry.of o.es
  let ed := TEntry.of o.ed
  let mem := o.at'.stream.isSome
  let bad := ed.format != es.format || (o.tr && es.format != 2 && es.format != 3) || !es.wholeCols ||
    (if o.tr then ed.rows < es.columns || ed.columns < es.rows else ed.rows < es.rows || ed.columns < es.columns)
  ((ed.check all false mem).map (·, o.dVa)).or (((es.check all false mem).map (·, o.sVa)).or
    (if bad then some (.prot, o.dVa) else none))

/-! ## Copies: moving -/

/-- An operation leaves its engine. -/
def State.dropCopy (s : State) (id : Nat) : State :=
  s.modEng fun g => { g with copyOps := g.copyOps.filter (·.id != id), opData := g.opData.erase id }

def State.faultCopy (s : State) (o : CopyOp) (cause : Cause) (addr : Nat) : State :=
  (s.dropCopy o.id).faultOp o.at' cause addr

/-- A copy is complete (R300); a stream's command with it (R302). -/
def State.finishCopy (s : State) (o : CopyOp) : State :=
  let s := s.dropCopy o.id
  match o.at'.stream with
  | some n => s.finishCmd n
  | none => s

/-- Whether an engine may work for an operation: its crew is on a core and is not being pre-empted, or it has none. -/
def State.attrRuns (s : State) (a : Attr) : Bool :=
  a.stream.isSome || (s.crews.find a.crew).any fun k => k.core == some a.core && k.stopping.isNone

/-- Whether a copy stands inside a chunk: it then goes on to the chunk's end (R294). -/
def State.inChunk (s : State) (o : CopyOp) : Bool :=
  o.engine.isSome && o.waiting.isNone && ((s.eng.opData.find o.id).isSome || s.opAsked o.id)

/-- Whether a copy is inside a chunk, or writes that it has sent are not answered. -/
def State.copyBusy (s : State) (o : CopyOp) : Bool := s.inChunk o || (o.engine.isSome && o.waiting.isNone && s.opWriting o.id)

/-- Whether an engine may work for a copy now. -/
def State.copyRuns (s : State) (o : CopyOp) : Bool :=
  s.attrRuns o.at' || (s.inChunk o && (s.crews.find o.at'.crew).any (·.core == some o.at'.core))

/-- The keys among some that are not fetched yet. -/
def State.lacking (s : State) (id : Nat) (keys : List Nat) : List Nat :=
  let m := s.fetchedOf id
  (keys.filter fun k => (m.find k).isNone).eraseDups

/-- What an engine does with the fetch of a line: go on, or stop. -/
inductive Moved
  | ok
  | stop
  deriving DecidableEq, Repr

/-- Fetch every byte of some keys, line by line, at most `fuel` lines; a stop has been dealt with by `halt`. -/
def State.fetchAll (s : State) (soft : Bool) (agent : Nat) (a : Attr) (id : Nat) (keys : List Nat) (halt : Fetch → State → State) :
    Nat → Moved × State
  | 0 => (.stop, s)
  | fuel + 1 =>
    match s.lacking id keys with
    | [] => (.ok, s)
    | k :: ks =>
      let grain := if k ≥ 2 ^ 80 then 256 else 512
      match s.fetchLine soft agent a id ((k :: ks).filter fun j => j / grain == k / grain) with
      | (.ok, s) => State.fetchAll s soft agent a id keys halt fuel
      | (r, s) => (.stop, halt r s)

/-- Runs of bytes with consecutive keys inside one sector, in write order. -/
def runsOf : List (Nat × Byte) → List (Nat × List Byte)
  | [] => []
  | (k, b) :: rest =>
    match runsOf rest with
    | (j, bs) :: rs => if j == k + 1 && j / 32 == k / 32 then (k, b :: bs) :: rs else (k, [b]) :: (j, bs) :: rs
    | [] => [(k, [b])]

/-- Meet the destination of a chunk, by the first key of each run, before any of it is written (R294, R360): what stops it, if anything does. -/
def State.tryWrites (s : State) (agent : Nat) (a : Attr) : List Nat → Option Wrote × State
  | [] => (none, s)
  | k :: ks =>
    if k ≥ 2 ^ 80 then
      if k - 2 ^ 80 ≥ s.window a.crew then (some (.fault .spaddr (k - 2 ^ 80)), s) else State.tryWrites s agent a ks
    else
      match s.opReach agent a k (32 - k % 32) .write with
      | (.go _ _ _, s) | (.remote _ _, s) => State.tryWrites s agent a ks
      | (.wait w r, s) => (some (.wait w r), s)
      | (.fault c x, s) => (some (.fault c x), s)
      | (.damaged sec, s) => (some (.wait ⟨.retired, pageOf k, some sec⟩ none), s.consumeOp agent a k sec ((s.poisonAt sec).getD .hbm))
      | (.busy, s) => (some .busy, s)

/-- Poison reaches the sector that a run is written to (R354). -/
def State.spoil (s : State) (agent : Nat) (a : Attr) (key : Nat) (f : Finder) : State :=
  if key ≥ 2 ^ 80 then s.modCoh fun c => { c with poison := c.poison.insert (partKey a.crew (key - 2 ^ 80)) f }
  else match s.opReach agent a key 1 .write with
    | (.go k _ _, s) => s.modCoh fun c => { c with poison := c.poison.insert (sectorOf k) f }
    | (_, s) => s

/-- Write runs in order; what stopped them, if anything did. -/
def State.writeRuns (s : State) (agent : Nat) (a : Attr) (id : Nat) (bad : List (Nat × Finder)) :
    List (Nat × List Byte) → Option Wrote × State
  | [] => (none, s)
  | r :: rs =>
    match s.storeAt agent a id (some r.1) r.2 with
    | (.ok, s) =>
      let s := match bad.find? fun b => b.1 / 32 == r.1 / 32 with
        | some b => s.spoil agent a r.1 b.2
        | none => s
      State.writeRuns s agent a id bad rs
    | (w, s) => (some w, s)

/-- A copy waits for a page; its record is written once, as it begins to wait. -/
def State.waitCopy (s : State) (o : CopyOp) (w : PageWait) (record : Option Nat) : State :=
  (s.modCopy o.id fun o => { o with waiting := some w }).pageOp o.at' record

/-- What a stop of a copy leaves. -/
def State.stopCopy (s : State) (o : CopyOp) (w : Wrote) : State :=
  match w with
  | .ok | .busy => s
  | .fault c x => s.faultCopy o c x
  | .wait w r => s.waitCopy o w r

def State.haltCopy (s : State) (o : CopyOp) (r : Fetch) : State :=
  match r with
  | .ok | .asked | .busy => s
  | .fault c x => s.faultCopy o c x
  | .wait w r => s.waitCopy o w r
  | .damaged sec f addr => (s.waitCopy o ⟨.retired, pageOf addr, some sec⟩ none).consumeOp (copyAgent o.die 0) o.at' addr sec f

/-- Report a chunk's bytes to the arrival word (R185, R293); its address is checked first (R174). -/
def State.reportArrival (s : State) (o : CopyOp) (n : Nat) : State :=
  match o.arrival with
  | none => s
  | some w =>
    if w % 16 != 0 then s.faultCopy o .misalign w
    else if w + 16 > s.window o.at'.crew then s.faultCopy o .spaddr w
    else match (s.wakeFor o.at'.crew).arrive o.at'.crew w n with
      | some s => s
      | none => s.faultCopy o .stale w

/-- COPY_ENGINE_TAKE (R290): the oldest entry of the next queue in turn; its entries are checked as it starts (R202, R293). -/
def execCopyEngineTake (engine : Nat) (s : State) : Host.Outcome State Fault Refusal :=
  .next <|
    let die := engine / 8
    let load := (s.eng.copyOps.filter fun o => o.engine == some engine).length
    if load ≥ 4 then s
    else
      let turn := s.eng.copyTurn.get 0 die
      let core (i : Nat) : Nat := 72 * die + (turn + i) % 72
      let pick := (List.range 72).findSome? fun i =>
        (s.eng.copyOps.find? fun o => o.engine.isNone && o.at'.stream.isNone && o.at'.core == core i && s.attrRuns o.at').map (i, ·)
      let fromStream := s.eng.copyOps.find? fun o => o.engine.isNone && o.at'.stream.isSome && o.die == die
      match pick.or (fromStream.map (71, ·)) with
      | none => s
      | some (i, o) =>
        let s := s.modEng fun g => { g with copyTurn := g.copyTurn.insert die ((turn + i + 1) % 72) }
        match o.check with
        | some (cause, va) => s.faultCopy o cause va
        | none => s.modCopy o.id fun o => { o with engine := some engine }

/-- COPY_CHUNK (R291, R293): read every source byte of the chunk, then write every destination byte, then report its bytes. A chunk begins when
the writes of the one before it have been answered. The last chunk of a copy with no completion word ends it. -/
def execCopyChunk (id : Nat) (s : State) : Host.Outcome State Fault Refusal :=
  .next <|
    match s.copyOp id with
    | none => s
    | some o =>
      match o.engine with
      | none => s
      | some e =>
        let agent := copyAgent (e / 8) (e % 8)
        if o.waiting.isSome || !s.copyRuns o || s.opAsked id then s
        else if 4096 * o.prog ≥ o.total then
          if o.comp.isSome || s.opWriting id then s else s.finishCopy o
        else if s.opWriting id then s
        else
          let bytes := o.chunk
          if bytes.any fun b => b.1.isNone || b.2.isNone then s.faultCopy o .addrovf 0
          else
            let src := bytes.filterMap (·.1)
            let dst := bytes.filterMap (·.2)
            match s.fetchAll true agent o.at' id src (fun r s => s.haltCopy o r) 8192 with
            | (.stop, s) => s
            | (.ok, s) =>
              let d := s.eng.opData.get OpData.none id
              let runs := runsOf (dst.zip (src.map fun k => Map.get d.fetched 0 k))
              match s.tryWrites agent o.at' (runs.map (·.1)) with
              | (some w, s) => s.stopCopy o w
              | (none, s) =>
                let bad := (src.zip dst).filterMap fun p => (d.bad.find p.1).map (p.2, ·)
                match s.writeRuns agent o.at' id bad runs with
                | (some w, s) => s.stopCopy o w
                | (none, s) =>
                  let s := (s.dropFetched id).modCopy id fun o => { o with prog := o.prog + 1 }
                  let s := s.reportArrival o bytes.length
                  if 4096 * (o.prog + 1) ≥ o.total && o.comp.isNone && !s.opWriting id then
                    match s.copyOp id with
                    | some o => s.finishCopy o
                    | none => s
                  else s

/-! ## XCOPY, XWAIT -/

/-- Whether a released lane may go on: R275. -/
def State.enginesRelease (s : State) (core : Nat) (lanes : List Lane) : State :=
  if lanes.isEmpty then s else s.releaseFlush core .dev

/-- The completion that the flags of an instruction name (R293). -/
def State.completionOf (s : State) (c : Cohort) (x : Xfer) : Option Completion × State :=
  if x.comp then
    let (v, s) := s.seenK c x.kv.toNat
    let (p, s) := s.seenK64 c x.kp.toNat
    (some ⟨(c.snap.win x.win).toNat % 65536 * 2 ^ 64 + p.toNat, v⟩, s)
  else (none, s)

/-- Issue an engine instruction: it waits for queue entries, for the release of its lanes (R275) and for its tensor entries, which it then
captures. -/
def State.issueXfer (s : State) (c : Cohort) (i : Instr) (x : Xfer) (free : Nat)
    (f : State → List Lane → Nat × Nat → Nat × Nat → State) : State :=
  let lanes := s.execLanes c x.pred
  let s := if lanes.isEmpty then s else s.flushQuantum c.core
  if lanes.length > free || s.lanesReleaseWait lanes then s.hold c.id
  else
    match (if lanes.isEmpty then (true, s) else s.entriesReady c [x.hD, x.hS]) with
    | (false, s) => s.hold c.id
    | (true, s) => s.issue c i x.pred x.stall fun s lanes =>
      if lanes.isEmpty then s
      else
        match s.captures c lanes [x.hD, x.hS] with
        | (some [d, e], s) => (f (s.enginesRelease c.core lanes) lanes d e).dropFetched c.id
        | (_, s) => s

/-- Enter the copy queue (R290). -/
def State.enqueueCopy (s : State) (o : CopyOp) : State :=
  { s.modEng (fun g => { g with copyOps := g.copyOps ++ [{ o with id := s.nextId }] }) with nextId := s.nextId + 1 }

/-- Free entries of a core's copy queue, of 32; the operations of a saved crew are not in it (R294). -/
def State.copyRoom (s : State) (core : Nat) : Nat :=
  32 - (s.eng.copyOps.filter fun o => o.engine.isNone && o.at'.stream.isNone && o.at'.core == core &&
    (s.crews.find o.at'.crew).any (·.core == some core)).length

/-- R292, R293. -/
def execXcopy (x : Xfer) (s : State) : Host.Outcome State Fault Refusal :=
  onCohort s fun c s =>
    s.issueXfer c (.xcopy x) x (s.copyRoom c.core) fun s lanes d e =>
      let (arr, s) := if x.arr then let (w, s) := s.seenK c x.ka.toNat; (some w.toNat, s) else (none, s)
      let (comp, s) := s.completionOf c x
      let planes := x.sub[1]
      let (n, s) := if planes then s.seenK c x.n.toNat else (1, s)
      let (ss, s) := if planes then s.seenK c (x.n.toNat + 1) else (0, s)
      let (ds, s) := if planes then s.seenK c (x.n.toNat + 2) else (0, s)
      lanes.foldl (init := s) fun s l =>
        s.enqueueCopy ⟨0, dieOf c.core, none, d.1, e.1, d.2, e.2, x.sub[0], max n.toNat 1, ss.toNat, ds.toNat, arr, comp, 0,
          comp.isSome, none, s.attrOf c l⟩

/-- Operations of a crew that are not complete (R300). -/
def State.engineOps (s : State) (crew : Nat) : List Nat :=
  ((s.eng.copyOps.filter fun o => o.at'.crew == crew && o.at'.stream.isNone).map (·.id)) ++
    ((s.eng.collOps.filter fun o => o.at'.crew == crew && o.at'.stream.isNone).map (·.id))

/-- XWAIT (R300): as it begins to wait it notes the operations issued before it, which alone it counts. -/
def execXwait (x : XWaitF) (s : State) : Host.Outcome State Fault Refusal :=
  onCohort s fun c s =>
    let ops := (s.engineOps c.crew).filter fun i => c.xops.all fun l => l.contains i
    if ops.length > x.n.toNat then (s.modCohort c.id fun k => { k with xops := some ops }).hold c.id
    else s.issue c (.xwait x) Pred.always x.stall fun s _ => s.modCohort c.id fun k => { k with xops := none }

/-! ## Collectives (R295 to R299) -/

/-- The collective queue has 64 entries. DESIGN CHOICE, log 28: an operation holds its entry until it is complete; R295 does not say when the entry is
freed. -/
def State.collRoom (s : State) : Nat := 64 - s.eng.collOps.length

/-- Enter the collective queue: the next operation of its communicator. -/
def State.enqueueColl (s : State) (o : CollOp) : State :=
  let k := 64 * o.at'.ctx + o.comm
  let i := s.eng.collSeq.get 0 k
  { s.modEng (fun g => { g with
      collOps := g.collOps ++ [{ o with id := s.nextId, index := i }], collSeq := g.collSeq.insert k (i + 1) }) with
    nextId := s.nextId + 1 }

/-- An operation as it enters: communicator, operation and root, the entries and the completion. -/
def newColl (comm : Nat) (op : BitVec 2) (root : Nat) (d e : Nat × Nat) (comp : Option Completion) (a : Attr) : CollOp :=
  ⟨0, comm, 0, op, d.1, e.1, d.2, e.2, root, comp, [], false, 0, [], [], 0, false, comp.isSome, none, a⟩

/-- R299. -/
def execXcoll (x : Xfer) (s : State) : Host.Outcome State Fault Refusal :=
  onCohort s fun c s =>
    s.issueXfer c (.xcoll x) x s.collRoom fun s lanes d e =>
      let (kc, s) := s.seenK c x.n.toNat
      let (comp, s) := s.completionOf c x
      lanes.foldl (init := s) fun s l =>
        s.enqueueColl (newColl (kc.toNat % 64) x.sub (bits kc.toNat 8 9) d e comp (s.attrOf c l))

/-- The communicator of an operation. -/
def State.commOf (s : State) (o : CollOp) : Option Comm := (s.ctxs.find o.at'.ctx).bind fun x => x.comms.find o.comm

def Comm.n (k : Comm) : Nat := k.g * k.m

/-- Rows a rank owns (R297). -/
def Comm.q (k : Comm) (rows : Nat) : Nat := (rows + k.n - 1) / k.n

/-- The rows of a rank's chunk. -/
def Comm.chunk (k : Comm) (rows rank : Nat) : List Nat :=
  (List.range (k.q rows)).filterMap fun r => if rank * k.q rows + r < rows then some (rank * k.q rows + r) else none

/-- The units of some rows of a source, in order: row and unit column. -/
def unitCells (rows : List Nat) (ucols : Nat) : List (Nat × Nat) :=
  rows.flatMap fun r => (List.range ucols).map fun c => (r, c)

/-- The rows whose elements rank `rank`'s source gives this device (R297). -/
def CollOp.wanted (o : CollOp) (k : Comm) (rows : Nat) : List Nat :=
  if o.op.toNat < 2 then k.chunk rows k.rank else List.range rows

/-- The ranks that contribute to this device. -/
def CollOp.givers (o : CollOp) (k : Comm) : List Nat := if o.op == 3 then [o.root] else List.range k.n

/-- What a rank gives with its part in a collective (R296). -/
def CollOp.shape (o : CollOp) : CollShape :=
  let e := TEntry.of o.es
  ⟨o.op, e.format, e.rows, e.columns, if o.op == 3 then o.root else 0⟩

/-- A part of a peer's contribution arrives, behind the parts before it; one whose rank gives something else is noted (R296). -/
def CollOp.take (o : CollOp) (rank : Nat) (shape : CollShape) (elems : List Dword) : CollOp :=
  { o with got := o.got.insert rank (o.got.get [] rank ++ elems), differs := o.differs || shape != o.shape }

/-- The checks at the start of a collective (R202, R297, R299, R379). -/
def CollOp.check (o : CollOp) (k : Option Comm) : Option (Cause × Nat) :=
  let fs := if o.op.toNat < 2 then [0, 2, 3] else [0, 1, 2, 3, 4, 5, 6, 7, 8]
  let es := TEntry.of o.es
  let ed := TEntry.of o.ed
  match k with
  | none => some (.prot, o.dVa)
  | some k =>
    let rows := match o.op.toNat with
      | 1 => k.q es.rows
      | 2 => k.n * es.rows
      | _ => es.rows
    let bad := ed.format != es.format || !es.wholeCols || ed.rows < rows || ed.columns < es.columns || k.lost ||
      (o.op == 3 && o.root ≥ k.n)
    ((ed.check fs false true).map (·, o.dVa)).or (((es.check fs false true).map (·, o.sVa)).or
      (if bad then some (.prot, o.dVa) else none))

def State.dropColl (s : State) (id : Nat) : State :=
  s.modEng fun g => { g with collOps := g.collOps.filter (·.id != id), opData := g.opData.erase id }

def State.faultColl (s : State) (o : CollOp) (cause : Cause) (addr : Nat) : State :=
  (s.dropColl o.id).faultOp o.at' cause addr

def State.finishColl (s : State) (o : CollOp) : State :=
  let s := s.dropColl o.id
  match o.at'.stream with
  | some n => s.finishCmd n
  | none => s

def State.waitColl (s : State) (o : CollOp) (w : PageWait) (record : Option Nat) : State :=
  (s.modColl o.id fun o => { o with waiting := some w }).pageOp o.at' record

/-- What a stop of a collective leaves; damage that would be sent to a peer is consumed (R355, R356). -/
def State.haltColl (s : State) (o : CollOp) (r : Fetch) : State :=
  match r with
  | .ok | .asked | .busy => s
  | .fault c x => s.faultColl o c x
  | .wait w r => s.waitColl o w r
  | .damaged sec f addr =>
    (s.waitColl o ⟨.retired, pageOf addr, some sec⟩ none).consumeOp (collAgent (o.comm % 4)) o.at' addr sec f

def State.stopColl (s : State) (o : CollOp) (w : Wrote) : State :=
  match w with
  | .ok | .busy => s
  | .fault c x => s.faultColl o c x
  | .wait w r => s.waitColl o w r

/-- Whether a context is saved: every crew that it has is (log 50). -/
def State.ctxSaved (s : State) (ctx : Nat) : Bool :=
  let mine := s.crews.vals.filter fun k => k.ctx == ctx
  !mine.isEmpty && mine.all (·.core.isNone)

/-- The collective that an engine serves: the oldest of its communicators (R295), unless its context is saved (R296). -/
def State.collTurn (s : State) (o : CollOp) : Bool :=
  match s.eng.collOps.find? fun p => p.comm % 4 == o.comm % 4 with
  | some p => p.id == o.id && !s.ctxSaved o.at'.ctx
  | none => false

/-- Elements that a contribution must hold; more means that the ranks disagree (R296). -/
def CollOp.expects (o : CollOp) (k : Comm) (rank : Nat) : Nat :=
  let es := TEntry.of o.es
  let rows := if rank ≥ k.n then (k.chunk es.rows (rank - k.n)).length else (o.wanted k es.rows).length
  rows * es.unitCols es.columns

/-- The local destination's units in write order, with their values, once everything has come (R297). -/
def CollOp.result (o : CollOp) (k : Comm) : List (Nat × Nat × Dword) :=
  let es := TEntry.of o.es
  let cols := es.unitCols es.columns
  let place (row : Nat) (vals : List Dword) : List (Nat × Nat × Dword) :=
    vals.zipIdx.map fun v => (row + v.2 / cols, v.2 % cols, v.1)
  match o.op.toNat with
  | 0 => (List.range k.n).flatMap fun r => place (r * k.q es.rows) (o.got.get [] (k.n + r))
  | 1 => place 0 (o.got.get [] (k.n + k.rank))
  | 2 => (List.range k.n).flatMap fun r => place (r * es.rows) (o.got.get [] r)
  | _ => place 0 (o.got.get [] o.root)

/-- Whether all of a contribution has come, or of the result of a rank's chunk, numbered n above the rank. -/
def CollOp.whole (o : CollOp) (k : Comm) (rank : Nat) : Bool := (o.got.get [] rank).length ≥ o.expects k rank

/-- Whether everything the destination needs has come. -/
def CollOp.ready (o : CollOp) (k : Comm) : Bool :=
  match o.op.toNat with
  | 0 => (List.range k.n).all fun r => o.whole k (k.n + r)
  | 1 => (o.got.find (k.n + k.rank)).isSome
  | _ => (o.givers k).all (o.whole k)

/-- The bytes of the local destination in write order. -/
def CollOp.bytes (o : CollOp) (k : Comm) : List (Option Nat × Byte) :=
  let ed := TEntry.of o.ed
  (o.result k).flatMap fun v =>
    (bytesOf (unitBytes ed.format) v.2.2.toNat).zipIdx.map fun b => (ed.unitByte 0 v.1 v.2.1 b.2, b.1)

/-- What this device gives a collective goes to a rank (R297): from the port of its peer, in flits of the collective class with at most 240 bytes
(R19, R378). DESIGN CHOICE, log 28: the operation's own number names it on the links. -/
def State.sendColl (s : State) (o : CollOp) (k : Comm) (to' rank : Nat) (vals : List Dword) : State :=
  match s.pkg.peers.find (k.peers.getD to' 0) with
  | none => s
  | some p =>
    let per := 240 / unitBytes o.shape.format
    (List.range ((vals.length + per - 1) / per)).foldl (init := s) fun s i =>
      s.sendFlit p.port 4 (.collective o.id rank o.shape ((vals.drop (per * i)).take per))

/-- To every other rank goes what a function gives for it. -/
def State.sendRanks (s : State) (o : CollOp) (k : Comm) (rank : Nat) (vals : Nat → List Dword) : State :=
  (List.range k.n).foldl (fun s j => if j = k.rank then s else s.sendColl o k j rank (vals j)) s

/-- The local source of a collective, read, contributed, and sent to the peers (R297). A rank that gives nothing reads nothing. Damage in what a peer
is sent is consumed (R355); in the rows of a reduce-scatter that stay here it goes to the destination sectors that its bytes would reach (R354). -/
def State.collRead (s : State) (o : CollOp) (k : Comm) : State :=
  let es := TEntry.of o.es
  let ed := TEntry.of o.ed
  let agent := collAgent (o.comm % 4)
  let cells (rows : List Nat) : List (Nat × Nat) := unitCells rows (es.unitCols es.columns)
  let keyOf (u : Nat × Nat) : List (Option Nat) := (List.range (unitBytes es.format)).map fun b => es.unitByte 0 u.1 u.2 b
  let keysOf (rows : List Nat) : List Nat := ((cells rows).flatMap keyOf).filterMap fun k => k
  let own := k.chunk es.rows k.rank
  let stays (r : Nat) : Bool := o.op == 1 && own.contains r
  let all := (cells (List.range es.rows)).flatMap keyOf
  if all.any (·.isNone) then s.faultColl o .addrovf 0
  else
    let halt (r : Fetch) (s : State) : State := s.haltColl o r
    match s.fetchAll false agent o.at' o.id (keysOf ((List.range es.rows).filter (!stays ·))) halt (all.length + 1) with
    | (.stop, s) => s
    | (.ok, s) => match s.fetchAll true agent o.at' o.id (keysOf ((List.range es.rows).filter stays)) halt (all.length + 1) with
      | (.stop, s) => s
      | (.ok, s) =>
        let d := s.eng.opData.get OpData.none o.id
        let vals (rows : List Nat) : List Dword := (cells rows).map fun u =>
          BitVec.ofNat 64 (natOf ((keyOf u).map fun k => (k.map fun k => Map.get d.fetched 0 k).getD 0))
        let spoilt := own.zipIdx.flatMap fun r => (cells [r.1]).flatMap fun u => (keyOf u).zipIdx.filterMap fun b =>
          match b.1.bind d.bad.find, ed.unitByte 0 r.2 u.2 b.2 with
          | some f, some at' => some (at', f)
          | _, _ => none
        let s := (s.modColl o.id fun o => { o with got := o.got.insert k.rank (vals (o.wanted k es.rows)) }).dropFetched o.id
        (s.putBad o.id spoilt).sendRanks o k k.rank fun j => vals (if o.op.toNat < 2 then k.chunk es.rows j else List.range es.rows)

/-- COLLECTIVE_STEP (R296, R297): the next step of the collective at the head of its engine: its checks, its own source, or 4096
bytes of its destination. -/
def execCollectiveStep (id : Nat) (s : State) : Host.Outcome State Fault Refusal :=
  .next <|
    match s.collOp id with
    | none => s
    | some o =>
      if !s.collTurn o || o.waiting.isSome || s.opAsked id then s
      else
        let k := s.commOf o
        if !o.started then
          match o.check k with
          | some (cause, va) => s.faultColl o cause va
          | none => s.modColl id fun o => { o with started := true }
        else match k with
        | none => s.faultColl o .prot o.dVa
        | some k =>
          if k.lost then s.faultColl o .prot o.dVa
          else if o.differs || o.got.any (fun e => e.2.length > o.expects k e.1) then s.faultColl o .prot o.dVa
          else if (o.got.find k.rank).isNone && (o.givers k).contains k.rank then s.collRead o k
          else if !o.ready k then s
          else
            let all := o.bytes k
            if 4096 * o.prog ≥ all.length then
              if o.comp.isSome || s.opWriting id then s else s.finishColl o
            else
              let part := (all.drop (4096 * o.prog)).take 4096
              if part.any (·.1.isNone) then s.faultColl o .addrovf 0
              else
                let runs := runsOf (part.filterMap fun b => b.1.map (·, b.2))
                let agent := collAgent (o.comm % 4)
                match s.tryWrites agent o.at' (runs.map (·.1)) with
                | (some w, s) => s.stopColl o w
                | (none, s) =>
                  match s.writeRuns agent o.at' id (s.eng.opData.get OpData.none id).bad runs with
                  | (some w, s) => s.stopColl o w
                  | (none, s) =>
                    let s := s.modColl id fun o => { o with prog := o.prog + 1 }
                    if 4096 * (o.prog + 1) ≥ all.length && o.comp.isNone && !s.opWriting id then s.finishColl o else s

/-- RoundF32(ExactSum([a, b])) (R298). -/
def addF32 (a b : Nat) : Nat := f32.round (exactSum [f32.value a, f32.value b] .rn) .rn false

/-- An element as FP32, exactly; a NaN is canonical. -/
def asF32 (format : Nat) (v : Nat) : Nat :=
  match format with
  | 2 => f32.round (bf16.value v) .rn false
  | 3 => f32.round (f16.value v) .rn false
  | _ => f32.round (f32.value v) .rn false

/-- Red's last rounding into the format (R298). -/
def fromF32 (format : Nat) (v : Nat) : Nat :=
  match format with
  | 2 => bf16.round (f32.value v) .rn false
  | 3 => f16.round (f32.value v) .rn false
  | _ => f32.round (f32.value v) .rn false

/-- COLLECTIVE_REDUCE (R298): the contribution of the next rank in order is added, group by group; the last gives the chunk's
result, which .ALLRED sends to every rank (R297). -/
def execCollectiveReduce (id : Nat) (s : State) : Host.Outcome State Fault Refusal :=
  .next <|
    match s.collOp id with
    | none => s
    | some o =>
      match s.commOf o with
      | none => s
      | some k =>
        if o.op.toNat ≥ 2 || !o.started || o.added ≥ k.n then s
        else
          let vals := o.got.get [] o.added
          if vals.length > o.expects k o.added then s.faultColl o .prot o.dVa
          else if !o.whole k o.added then s
          else
            let F := (TEntry.of o.es).format
            let xs := vals.map fun v => asF32 F v.toNat
            let acc := if o.added % k.m == 0 then xs else (o.groupAcc.zip xs).map fun p => addF32 p.1 p.2
            let last := o.added % k.m == k.m - 1
            let total := if !last then o.total
              else if o.added / k.m == 0 then acc else (o.total.zip acc).map fun p => addF32 p.1 p.2
            let done := o.added + 1 == k.n
            let result := total.map fun v => BitVec.ofNat 64 (fromF32 F v)
            let s := s.modColl id fun o => { o with
              added := o.added + 1, groupAcc := acc, total := total
              got := if done then o.got.insert (k.n + k.rank) result else o.got }
            if done && o.op == 0 then s.sendRanks o k (k.n + k.rank) fun _ => result else s

/-! ## Completion words (R293, R299) -/

/-- Write a completion word: a 32-bit store with release at device scope, 4-byte aligned. -/
def State.storeWord (s : State) (agent : Nat) (a : Attr) (id : Nat) (w : Completion) : Wrote × State :=
  if w.va % 4 != 0 then (.fault .misalign w.va, s) else s.storeMem agent a id w.va (bytesOf 4 w.val.toNat)

/-- COMPLETION_WORD_WRITE: once every chunk is device-performed. -/
def execCompletionWordWrite (id : Nat) (s : State) : Host.Outcome State Fault Refusal :=
  .next <|
    match s.copyOp id, s.collOp id with
    | some o, _ =>
      match o.comp, o.engine with
      | some w, some e =>
        if 4096 * o.prog < o.total || o.waiting.isSome || s.opWriting id || !s.copyRuns o then s
        else if !o.word then s.finishCopy o
        else match s.storeWord (copyAgent (e / 8) (e % 8)) o.at' id w with
          | (.ok, s) =>
            let s := s.modCopy id fun o => { o with word := false }
            if s.opWriting id then s else s.finishCopy o
          | (r, s) => s.stopCopy o r
      | _, _ => s
    | none, some o =>
      match o.comp, s.commOf o with
      | some w, some k =>
        if !o.started || !o.ready k || 4096 * o.prog < (o.bytes k).length || o.waiting.isSome || s.opWriting id then s
        else if !o.word then s.finishColl o
        else match s.storeWord (collAgent (o.comm % 4)) o.at' id w with
          | (.ok, s) =>
            let s := s.modColl id fun o => { o with word := false }
            if s.opWriting id then s else s.finishColl o
          | (r, s) => s.stopColl o r
      | _, _ => s
    | none, none => s

/-! ## LAUNCH (R311) -/

/-- What appending one command comes to. -/
inductive Append | done | later | refused
  deriving DecidableEq, Repr

/-- Append a LAUNCH command that names a header to a stream: the command, then the tail with release at system scope. -/
def State.appendLaunch (s : State) (ctx n header : Nat) : Append × State :=
  match s.streamDesc n with
  | none => (.refused, s)
  | some d =>
    if !d.fed || !d.enabled || d.context != ctx || (s.stream n).disabled then (.refused, s)
    else
      match s.cpRead ctx n 0 d.head 4 with
      | (.later, s) => (.later, s.endLook n)
      | (.val head, s) =>
        match s.cpRead ctx n 0 d.tail 4 with
        | (.later, s) => (.later, s.endLook n)
        | (.val tail, s) =>
          let s := s.endLook n
          if (tail + 2 ^ 32 - head) % 2 ^ 32 ≥ 2 ^ d.size then (.later, s)
          else
            let cmd := bytesOf 64 (1 + 2 ^ 128 * header)
            match s.cpWrite ctx n tail (d.ring + 64 * (tail % 2 ^ d.size)) cmd with
            | (.later, s) => (.later, s)
            | (.val _, s) =>
              match s.cpWrite ctx n tail d.tail (bytesOf 4 ((tail + 1) % 2 ^ 32)) with
              | (.later, s) => (.later, s)
              | (.val _, s) => (.done, s)

/-- Append for the lanes in order; a lane that has appended is marked until the instruction has issued for all. -/
def State.launchLanes (s : State) (c : Cohort) (n header : Nat) : List Lane → Bool × State
  | [] => (true, s)
  | l :: ls =>
    if l.past then State.launchLanes s c n header ls
    else match s.appendLaunch (s.ctxOf c.crew) n header with
      | (.later, s) => (false, s)
      | (.done, s) => State.launchLanes (s.modLane c.id l.tid fun l => { l with past := true }) c n header ls
      | (.refused, s) => State.launchLanes (s.raiseIn c [l] .prot c.offset fun _ => header) c n header ls

def execLaunch (x : LaunchF) (s : State) : Host.Outcome State Fault Refusal :=
  onCohort s fun c s =>
    let lanes := s.execLanes c x.pred
    let s := if lanes.isEmpty then s else s.flushQuantum c.core
    if s.lanesReleaseWait lanes then s.hold c.id
    else if s.stallShort c (.launch x) then s.raiseIn c c.active .stallshort c.offset fun _ => 0
    else
      let (p, s) := s.seenK64 c x.kp.toNat
      let (n, s) := s.seenK c x.ks.toNat
      match (s.enginesRelease c.core lanes).launchLanes c n.toNat ((c.snap.win x.win).toNat % 65536 * 2 ^ 64 + p.toNat) lanes with
      | (false, s) => s.hold c.id
      | (true, s) =>
        let s := s.modCohort c.id fun k => { k with lanes := k.lanes.map fun l => { l with past := false } }
        match s.cohorts.find c.id with
        | some c => s.issue c (.launch x) x.pred x.stall fun s _ => s
        | none => s

end Sys2Proof.Machine
end

