-- ==== Sys2Proof/Machine/Tables.lean ====
section
/-! DEFINITION. Storing into the leaves of a context's page tables, and snapshots (R359, R360). -/

namespace Sys2Proof.Machine

/-- Store a leaf at device scope; the home checks the old content (R353). A store whose check starts a decision writes nothing: its page is retired by
then (R354, R361). -/
def State.storeLeaf (s : State) (ctx : Nat) (l : Leaf) (pte : Nat) : State :=
  let s := s.inspect true (sectorsOf l.at' 8)
  if s.undecided l.at' 8 then s else s.perform l.at' (bytesOf 8 pte) (.ctx ctx) false

/-- A leaf with its cow bit (bit 9) set or cleared. -/
def withCow (pte : Nat) (b : Bool) : Nat := pte - 2 ^ 9 * bits pte 9 1 + 2 ^ 9 * b.toNat

/-- A leaf with another physical page. -/
def withPage (pte pa : Nat) : Nat := pte - 2 ^ 16 * bits pte 16 36 + 2 ^ 16 * (pa / 2 ^ 16)

/-! ## Snapshots (R359, R360) -/

/-- The pool and ranges of a snapshot descriptor. -/
def Ctx.pool (x : Ctx) : List Nat :=
  let n := natOf x.snapDesc
  (List.range (bits n 128 32)).map fun i => bits n 0 52 + 2 ^ 16 * i

def Ctx.ranges (x : Ctx) : List (Nat × Nat) :=
  let n := natOf x.snapDesc
  (List.range (min (bits n 160 32) 8)).map fun i => (bits n (256 + 128 * i) 80, bits n (336 + 128 * i) 32)

/-- Whether a context is snapshot-protected. -/
def Ctx.shielded (x : Ctx) : Bool := !x.pool.isEmpty

/-- The leaves that a context's descriptor protects: 64 KiB, kind 0, writable, inside a range. -/
def State.guarded (s : State) (x : Ctx) : List Leaf :=
  (s.leaves x.num).filter fun l =>
    l.level == 5 && bits l.pte 12 4 == 0 && bits l.pte 3 1 == 1 &&
      x.ranges.any fun r => r.1 ≤ l.va && l.va < r.1 + 2 ^ 16 * r.2

/-- The Crown sets or clears cow in some leaves. -/
def State.setCow (s : State) (ctx : Nat) (ls : List Leaf) (b : Bool) : State :=
  ls.foldl (init := s) fun s l => if (bits l.pte 9 1 == 1) == b then s else s.storeLeaf ctx l (withCow l.pte b)

/-- The protected running launches of a context that have no copy of a virtual page yet. -/
def State.needCopy (s : State) (ctx page : Nat) : List Launch :=
  s.cmd.launches.vals.filter fun l => l.ctx == ctx && l.shielded && l.phase == .running && l.snapList.all (·.1 != page)

/-- The cow bits that a launch leaves behind are cleared, but for those that another protected launch still needs (R360). -/
def State.clearCow (s : State) (x : Ctx) (slot : Nat) : State :=
  s.setCow x.num ((s.leaves x.num).filter fun l =>
    bits l.pte 9 1 == 1 && (s.needCopy x.num (l.va / 2 ^ 16)).all (·.slot == slot)) false

/-- The homes of two pages read the source and check the destination's old content (R353, R365): damage that they show starts a decision. -/
def State.inspectPages (s : State) (src dst : Nat) : State :=
  ((s.flushDies fun d => overlap src 65536 d.pa d.bytes.length).inspect true (sectorsOf src 65536)).inspect true (sectorsOf dst 65536)

/-- Copy a 64 KiB page with its poison (R354, R360). Nothing is written into a sector on which a decision is out, whose poison stays (R354). -/
def State.copyPage (s : State) (ctx src dst : Nat) : State :=
  let s := s.inspectPages src dst
  let barred := (s.pkg.reports.map (·.sector)).filter fun k => dst / 32 ≤ k && k < dst / 32 + 2048
  let put (s : State) (a n : Nat) : State := s.perform (dst + a) (s.mem.readBytes (src + a) n) (.ctx ctx) false
  let s := if barred.isEmpty then put s 0 65536
    else ((List.range 2048).filter fun i => !barred.contains (dst / 32 + i)).foldl (fun s i => put s (32 * i) 32) s
  (sectorsOf src 65536).foldl (init := s) fun s sec => match s.poisonAt sec with
    | some f => s.modCoh fun c => { c with poison := c.poison.insert (sec - sectorOf src + sectorOf dst) f }
    | none => s

/-- Pool pages in use by a context. -/
def State.poolUsed (s : State) (x : Ctx) : List Nat :=
  x.poolGone ++ (s.cmd.launches.vals.filter (·.ctx == x.num)).flatMap fun l => l.snapList.map (·.2.2)

/-- Pool pages of a context that are free and not retired (R361). -/
def State.poolFree (s : State) (x : Ctx) : List Nat := x.pool.filter fun q => !(s.poolUsed x).contains q && !s.pkg.retireList.contains (q / 2 ^ 16)

/-- A launch loses its protection (R360). -/
def State.unshield (s : State) (x : Ctx) (slot : Nat) : State :=
  (s.modLaunch slot fun l => { l with shielded := false, unshielded := true, snapList := [] }).clearCow x slot

/-- A launch takes its copy of the page that a leaf maps, in the first free pool page; with none it loses its protection. -/
def State.copyFor (s : State) (x : Ctx) (page pa slot : Nat) : State :=
  match s.poolFree x with
  | [] => s.unshield x slot
  | q :: _ => (s.copyPage x.num pa q).modLaunch slot fun l => { l with snapList := l.snapList ++ [(page, pa, q)] }

/-- COW_COPY (R360): each protected launch that has no copy of the page takes one, and the page's leaf is stored with cow = 0. A page whose leaf
has no cow bit any more needs nothing; the context's tables and the pages come back first where they are in host bias, and a flip is waited for (R240),
as is a decision on damage in the pages (R354). -/
def execCowCopy (ctx page : Nat) (s : State) : Host.Outcome State Fault Refusal :=
  .next <|
    let cowLeaf (s : State) : Option Leaf := (s.leaves ctx).find? fun l => l.va == page * 2 ^ 16 && l.level == 5 && bits l.pte 9 1 == 1
    if !s.crownReady (s.tablesOf ctx) then (s.takeBack (s.tablesOf ctx)).defer (.hw (.cowCopy ctx page))
    else match s.ctxs.find ctx, cowLeaf s with
    | some x, some leaf =>
      let needs := s.needCopy ctx page
      let free := (s.poolFree x).take needs.length
      let used := if needs.isEmpty then [] else leaf.pa :: free
      let s := free.foldl (fun s q => if s.crownReady used then s.inspectPages leaf.pa q else s) s
      if !s.crownReady used || used.any (s.undecided · 65536) then (s.takeBack used).defer (.hw (.cowCopy ctx page))
      else
        let s := needs.foldl (fun s l => s.copyFor x page leaf.pa l.slot) s
        match cowLeaf s with
        | some leaf => s.storeLeaf ctx leaf (withCow leaf.pte false)
        | none => s
    | _, _ => s

end Sys2Proof.Machine
end

