-- ==== Sys2Proof/Machine/Fetch.lean ====
section
/-! DEFINITION. Fetching and decoding a cohort's next instruction (R49, R100, R101, R219), and placing a word where the next
step fetches it. -/

namespace Sys2Proof.Machine

/-- The virtual address of a code address (R100, R219): none is ADDROVF. -/
def State.codeVa (s : State) (crew pc : Nat) : Option Nat :=
  let base := (((s.crews.find crew).bind s.launchOf).map (·.codeBase)).getD 0
  let low := base % 2 ^ 64 + 16 * pc
  if low ≥ 2 ^ 64 then none else some (base / 2 ^ 64 * 2 ^ 64 + low)

/-- What decoding needs of a cohort's place (R24, R104, R109, R126, R194). A header is awaited in no class yet. -/
def State.decodeEnv (s : State) (c : Cohort) : DecodeEnv :=
  match (s.crews.find c.crew).bind s.launchOf with
  | none => ⟨c.irr, c.full, 0, 0, 0, c.offset, c.len⟩
  | some l => ⟨c.st == .trc || c.irr, c.full, l.regs, l.depths.length, l.tiles, c.offset, if c.st == .trc then 255 else c.len⟩

def isCommit : Instr → Bool
  | .commitNext _ | .commitSel _ | .commitInd _ | .commitCall _ | .commitRet _ | .commitExit _ | .commitBar _
  | .commitRwait _ => true
  | _ => false

def isTrc : Instr → Bool
  | .trc _ => true
  | _ => false

/-- Whether a word may stand where it stands (R100, R101): a TRC at a trace's entry and nowhere else, a COMMIT at offset N and
nowhere else. -/
def placeOk (c : Cohort) (i : Instr) : Bool :=
  if i = .illegal then true
  else if c.st == .trc then isTrc i
  else !isTrc i && (isCommit i == (c.offset == c.len))

/-- What comes of fetching: the instruction to execute, or a state in which it is not. -/
inductive Fetched
  | run (i : Instr) (s : State)
  | stop (s : State)

/-- Decode a word for the cohort that issues (R49): a cause is raised for every thread of the cohort. -/
def State.decodeFor (s : State) (cid : Nat) (c : Cohort) (w : CodeWord) : Fetched :=
  match decodeIn (s.decodeEnv c) w with
  | .error k => .stop (s.raiseAll c k 0)
  | .ok i => if placeOk c i then .run i { s with cur := some cid } else .stop (s.raiseAll c .illctx 0)

/-- The words among n bytes at a key, from code address a on; a word that is all zero is not listed. -/
def Memory.words (m : Memory) (key n a : Nat) : Map CodeWord :=
  (m.filter fun (c : Nat × Byte) => key ≤ c.1 && c.1 < key + n).foldl (init := []) fun (w : Map CodeWord) (c : Nat × Byte) =>
    let i := a + (c.1 - key) / 16
    w.set 0 i (w.get 0 i ||| (c.2.setWidth 128 <<< (8 * ((c.1 - key) % 16))))

/-- The code addresses from a on, n of them, in pieces that each lie in one 512-byte line. -/
def codePieces (a : Nat) : Nat → Nat → List (Nat × Nat)
  | 0, _ => []
  | _, 0 => []
  | fuel + 1, n =>
    let k := min n (32 - a % 32)
    (a, k) :: codePieces (a + k) fuel (n - k)

/-- What comes of reading code: its words, or a state in which it cannot be read. -/
inductive Code
  | ok (m : Map CodeWord) (s : State)
  | stop (s : State)

/-- Read pieces of a trace's code for a cohort (R101, R219, R232, R376, R379): a translation fault is precise, and a poisoned word is consumed
by the fill (R355). -/
def State.readCode (s : State) (cid : Nat) (c : Cohort) : List (Nat × Nat) → Map CodeWord → Code
  | [], m => .ok m s
  | (a, n) :: rest, m =>
    match s.codeVa c.crew a with
    | none => .stop (s.raiseAll c .addrovf 0)
    | some va =>
      let ctx := s.ctxOf c.crew
      let (r, s) := s.translate (tcAgent c.core) ctx c.snap.ptroot (s.privOf ctx) va .exec none
      match s.reachOf r with
      | .go key _ _ =>
        if s.readStalled (icAgent c.core) 0 key (16 * n) then .stop (s.hold cid)
        else if s.remoteKey key then
          let got := (s.eng.opData.get OpData.none cid).fetched
          if key ≥ peerKey && !s.peerOk key then .stop (s.raiseAll c .prot va)
          else if s.opAsked cid then .stop (s.hold cid)
          else if (List.range (16 * n)).all fun i => (got.find (va + i)).isSome then
            State.readCode s cid c rest (m ++ Memory.words (got.map fun b => (b.1, b.2)) va (16 * n) a)
          else .stop ((s.askOp (tcAgent c.core) cid va key (sectorsOf key (16 * n))).hold cid)
        else
          let s := s.readHome key (16 * n)
          match s.poisonedIn key (16 * n) with
          | some (sec, f) => .stop (s.consumeAll c c.lanes va sec f)
          | none => State.readCode (s.grantIc c.core key (16 * n) false) cid c rest (m ++ Memory.words s.mem key (16 * n) a)
      | .prot => .stop (s.raiseAll c .prot va)
      | .damaged sec => .stop (s.consumeAll c c.lanes va sec ((s.poisonAt sec).getD .hbm))
      | .busy => .stop (s.hold cid)
      | r => .stop (c.lanes.foldl (fun s l => s.holdThread c l va r) s)

/-- The last code address of the trace that a header begins, or the header's own where the word is no TRC. -/
def traceEnd (h : Nat) (w : CodeWord) : Nat :=
  match decode w with
  | .ok (.trc x) => h + x.len.toNat
  | _ => h

/-- Read the code of a cohort's trace before the first of its instructions issues (R101): from the header on where one is awaited, else from
the instruction at which the cohort resumes. -/
def State.fetchTrace (s : State) (cid : Nat) (c : Cohort) : Code :=
  if c.st == .trc then
    match s.readCode cid c [(c.pc, 1)] [] with
    | .ok m s =>
      let last := traceEnd c.pc (Map.get m 0 c.pc)
      s.readCode cid c (codePieces (c.pc + 1) 9 (last - c.pc)) m
    | r => r
  else s.readCode cid c (codePieces c.pc 9 (c.hdr + c.len + 1 - c.pc)) []

/-- Fetch and decode a cohort's next instruction. -/
def State.fetch (s : State) (cid : Nat) : Fetched :=
  match s.cohorts.find cid with
  | none => .stop s
  | some c =>
    if !s.canIssue c then .stop s
    else
      let s := { s with cohorts := s.cohorts.map fun (e : Nat × Cohort) =>
        (e.1, { e.2 with yieldFor := e.2.yieldFor.filter (· != cid) }) }
      match c.code with
      | some m => s.decodeFor cid c (Map.get m 0 c.pc)
      | none =>
        match s.fetchTrace cid c with
        | .stop s => .stop s
        | .ok m s => ((s.dropFetched cid).modCohort cid fun k => { k with code := some m }).decodeFor cid c (Map.get m 0 c.pc)

/-! ## Whether a trace carries F (R77) -/

/-- The name under which the headers that a crew's core reads from the host and from peers for its bins are held. -/
def headId (crew : Nat) : Nat := 2 ^ 41 + crew

/-- What a core knows of the word at a code address: its bytes, that they are at the host or a peer, or that there is nothing to read there. -/
inductive Head
  | word (w : CodeWord)
  | far (va key : Nat)
  | none

/-- The word at a code address of a crew. DESIGN CHOICE, log 49: one that a walk does not reach, or that waits, counts as no header; R77 does not
speak of it. -/
def State.headAt (s : State) (crew pc : Nat) : Head :=
  match s.codeVa crew pc, (s.crews.find crew).bind (·.core) with
  | some va, some core =>
    let ctx := s.ctxOf crew
    match s.walk (tcAgent core) (s.regsOf ctx).ptroot (s.privOf ctx) va .exec with
    | .ok key _ _ _ =>
      if s.remoteKey key then
        let got := (s.eng.opData.get OpData.none (headId crew)).fetched
        if (got.find va).isSome then .word (BitVec.ofNat 128 (natOf ((List.range 16).map fun i => got.get 0 (va + i))))
        else if key ≥ peerKey && !s.peerOk key then .none
        else .far va key
      else .word (BitVec.ofNat 128 (s.mem.readNat key 16))
    | _ => .none
  | _, _ => .none

/-- The header at a code address of a crew, where its core knows it and the word is a TRC. -/
def State.peekTrc (s : State) (crew pc : Nat) : Option Trc :=
  match s.headAt crew pc with
  | .word w => match decode w with
    | .ok (.trc x) => some x
    | _ => none
  | _ => none

/-- A core reads a header that lies at the host or a peer. -/
def State.askHead (s : State) (crew pc : Nat) : State :=
  match s.headAt crew pc, (s.crews.find crew).bind (·.core) with
  | .far va key, some core =>
    if s.opAsked (headId crew) then s
    else s.askOp (tcAgent core) (headId crew) va key [sectorOf key]
  | _, _ => s

/-! ## Placing a word (the log says how a program comes to run) -/

/-- The opcodes and uses that only a revocable trace admits. -/
def wantsRevocable (w : Nat) : Bool :=
  let op := opOf w
  (2 ≤ op && op ≤ 4) || ((op == 0xa2 || op == 0xa3) && bits w 44 3 == 5)

/-- Page tables at 0x2_0000, 0x4_0000, 0x4_2000 and 0x4_4000 that map the 64 GiB at address 0 to itself (R221 to R223), and a
word at address 0x10. -/
def placedMemory (m : Memory) (w : Nat) : Memory :=
  let m := m.writeBytes 0x44000 (bytesOf 8 0x1f)
  let m := m.writeBytes 0x42000 (bytesOf 8 0x44001)
  let m := m.writeBytes 0x40000 (bytesOf 8 0x42001)
  let m := m.writeBytes 0x20000 (bytesOf 8 0x40001)
  m.writeBytes 0x10 (bytesOf 16 w)

/-- A launch of one crew of one thread whose code begins at address 0, with every allotment at its largest. -/
def placedLaunch : Launch where
  slot := 0
  ctx := 0
  stream := 0
  cmd := 0
  seq := 0
  codeBase := 0
  frame := 0
  join := 0x1000
  entry := 1
  snapshot := false
  full := false
  mask := 0
  widths := [0, 0, 0, 0, 0, 0]
  extents := [1, 1, 1, 1, 1, 1]
  level := 0
  prio := 0
  waits := []
  waitPas := []
  completion := 0x1010
  regs := 256
  tiles := 16
  depths := List.replicate 16 4
  regions := [(16, 320)]
  size := 1
  crews := 1
  phase := .running
  status := 0
  decremented := 0
  shielded := false
  unshielded := false
  replayed := false
  joinSet := true
  depended := false
  snapList := []

def placedCtx : Ctx where
  num := 0
  part := 0
  privileged := true
  test := true
  grant := false
  alive := true
  regs := { SysRegs.reset with ptroot := 0x20000 }
  ringBase := 0x50000
  ringM := 6
  saveBase := 0x60000
  saveSize := 0
  vector := 0
  lost := false
  records := []
  waiting := []
  comms := []
  snapDesc := []
  poolGone := []

def placedCrew : Crew where
  id := 1
  ctx := 0
  launch := 0
  crewId := 0
  ordinal := 0
  size := 1
  core := some 0
  running := true
  timer := 0
  clk := 0
  triggered := false
  decremented := false
  conduits := List.replicate 16 ⟨4, [], false⟩
  barriers := []
  groups := []
  kPend := []
  probe := none
  stopping := none

def placedThread : Thread := ⟨2, 1, 0, 0, 0, .inCohort 3, false, 0, 0, 0, none, false, false, false, none, []⟩

/-- The cohort of that thread at address 1: awaiting a TRC, at the COMMIT of a trace, or inside a trace of either class, a long one for SKIP. -/
def placedCohort (w : Nat) (now : Nat) : Cohort :=
  let op := opOf w
  { id := 3, core := 0, port := 0, crew := 1, st := if op == 1 then .trc else .ready, hdr := if op == 1 then 1 else 0, pc := 1,
    irr := !wantsRevocable w, full := false, traceId := 0, budget := 16, len := if op == 6 then 1 else if op == 5 then 255 else 2, drawnFull := false,
    group := 0, lanes := [⟨0, 2, 0, 0, [], [], none, false, none, 0⟩], snap := { SysRegs.reset with ptroot := 0x20000 },
    readSet := [], broken := [], pend := [], nextIssue := now, yieldFor := [], tb := 0, waits := [], rexec := [], code := none, pushed := 0, xops := none }

/-- The state with a word placed where the next step fetches it. -/
def State.placeWord (s : State) (w : Nat) : State :=
  { s with
    mem := placedMemory s.mem w
    ctxs := s.ctxs.insert 0 placedCtx
    crews := s.crews.insert 1 placedCrew
    threads := s.threads.insert 2 placedThread
    cohorts := s.cohorts.insert 3 (placedCohort w s.clock)
    cmd := { s.cmd with launches := s.cmd.launches.insert 0 placedLaunch }
    nextId := max s.nextId 4
    cur := none
    agenda := .issue 3 :: s.agenda }

end Sys2Proof.Machine
end

