-- ==== Sys2Proof/Machine/Scheduling.lean ====
section
/-! DEFINITION. Drawing cohorts (R75 to R80, R99), the trace buffer (R102), stalled conduits and probes (R90 to R93), the end of a
crew (R88), admission and stealing (R72 to R74, R308 to R310). -/

namespace Sys2Proof.Machine

/-! ## Bins and overflow groups (R76 to R78) -/

/-- A waiting thread with its key and filing. -/
abbrev Waiter := Thread × BinKey × Filing

/-- Whether the trace of a key carries F (R33, R77). -/
def State.keyFull (s : State) (k : BinKey) : Bool :=
  match k.resume with
  | some r => r.full
  | none => (s.peekTrc k.crew k.next).any (·.full)

/-- Whether it is known whether a key's trace carries F: its header has been read where the host or a peer holds it. -/
def State.keyKnown (s : State) (k : BinKey) : Bool :=
  k.resume.isSome || match s.headAt k.crew k.next with
    | .far _ _ => false
    | _ => true

/-- A group of waiting threads of one key: a bin, or an overflow group. -/
structure WaitGroup where
  key      : BinKey
  overflow : Bool
  threads  : List Waiter
  deriving DecidableEq, Repr

/-- Whether every lane position is held by some thread. -/
def WaitGroup.full (g : WaitGroup) : Bool := (List.range 32).all fun l => g.threads.any fun w => w.1.lane == l

/-- The arrival of the oldest thread. -/
def WaitGroup.oldest (g : WaitGroup) : Nat := g.threads.foldl (fun m w => min m w.2.2.arrival) ((g.threads.head?.map fun w => w.2.2.arrival).getD 0)

/-- The groups of a core: its bins, and its overflow threads by key. -/
def State.groupsOn (s : State) (core : Nat) : List WaitGroup :=
  let ws := s.waitingOn core
  let keys (o : Bool) : List BinKey := ((ws.filter fun w => w.2.2.overflow == o).map (·.2.1)).eraseDups
  let mk (o : Bool) (k : BinKey) : WaitGroup := ⟨k, o, ws.filter fun w => w.2.1 == k && w.2.2.overflow == o⟩
  (keys false).map (mk false) ++ (keys true).map (mk true)

/-- Whether a group has waited bin.age clocks (R77, R80). -/
def State.aged (s : State) (g : WaitGroup) : Bool :=
  let age := (s.regsOf (s.ctxOf g.key.crew)).binAge.toNat % 65536
  s.clock ≥ g.oldest + age

/-- The waiting thread of highest precedence of a group. -/
def State.groupTop (s : State) (g : WaitGroup) : Option Thread :=
  firstBy (fun (a b : Thread) => precBefore (s.prec a) (s.prec b)) (g.threads.map (·.1))

/-- The oldest of the overflow groups that age may make drawable: the longest wait, a tie to higher precedence. -/
def State.oldestOverflow (s : State) (gs : List WaitGroup) : Option WaitGroup :=
  firstBy (fun (a b : WaitGroup) => a.oldest < b.oldest || (a.oldest == b.oldest &&
      match s.groupTop a, s.groupTop b with
      | some x, some y => precBefore (s.prec x) (s.prec y)
      | _, _ => false))
    (gs.filter fun g => g.overflow && s.keyKnown g.key && !s.keyFull g.key)

/-- The group that a port draws (R78): the full drawable one, else the aged one, with the thread of highest precedence. -/
def State.pickGroup (s : State) (core : Nat) : Option WaitGroup :=
  let gs := (s.groupsOn core).filter fun g => (s.crews.find g.key.crew).any (·.running)
  let fulls := gs.filter fun g => g.full && (!g.overflow || s.keyFull g.key)
  let old := (s.oldestOverflow gs).toList.filter s.aged
  let ages := (gs.filter fun g => !g.overflow && !g.full && s.keyKnown g.key && !s.keyFull g.key && s.aged g) ++ old
  let best (l : List WaitGroup) : Option WaitGroup :=
    firstBy (fun (a b : WaitGroup) => match s.groupTop a, s.groupTop b with
      | some x, some y => precBefore (s.prec x) (s.prec y)
      | _, _ => false) l
  (best fulls).or (best ages)

/-- The threads that a draw takes: at each lane position the one that arrived first, a tie to the lower wid. -/
def WaitGroup.take (g : WaitGroup) : List Waiter :=
  (List.range 32).filterMap fun l =>
    firstBy (fun (a b : Waiter) => a.2.2.arrival < b.2.2.arrival ||
        (a.2.2.arrival == b.2.2.arrival && a.1.wid.toNat < b.1.wid.toNat))
      (g.threads.filter fun w => w.1.lane == l)

/-- Draw a group into a cohort of a port (R75, R319, R338). Threads whose saved sleep differs stay for the next draw. The cohort takes the
system registers as they now are (R47, R218, R220). DESIGN CHOICE, log 49: a cohort that resumes inside a trace takes them too, its chk.stall
and its windows among them; the manual names the next trace boundary, and saves no value a cohort. -/
def State.makeCohort (s : State) (core port : Nat) (g : WaitGroup) : State :=
  let all := g.take
  let sleep := (all.head?.map fun w => w.2.2.sleep).getD 0
  let ws := all.filter fun w => w.2.2.sleep == sleep
  let id := s.nextId
  let lanes := ws.map fun w => (⟨w.1.lane, w.1.id, w.2.2.skipTo, if g.key.resume.isSome then w.2.2.tag else 0, [], [], none, false, none, 0⟩ : Lane)
  let clk := ((s.crews.find g.key.crew).map (·.clk)).getD 0
  let regs := s.regsOf (s.ctxOf g.key.crew)
  let base : Cohort :=
    { id := id, core := core, port := port, crew := g.key.crew, st := .trc, hdr := g.key.next, pc := g.key.next, irr := true,
      full := false, traceId := 0, budget := 0, len := 0, drawnFull := ws.length == 32, group := 0, lanes := lanes,
      snap := regs, readSet := [], broken := [], pend := [], nextIssue := s.clock + 1, yieldFor := [], tb := 0, waits := [],
      rexec := [], code := none, pushed := 0, xops := none }
  let c : Cohort := match g.key.resume with
    | none => base
    | some r => { base with
        st := if sleep > 0 then .asleep (clk + sleep) else .ready
        hdr := r.hdr, pc := r.addr, irr := r.irr, full := r.full, traceId := r.traceId, budget := r.budget, len := r.len
        group := r.group, drawnFull := r.drawnFull || ws.length == 32 }
  let s := (ws.foldl (init := s) fun s w => s.setThread { w.1 with place := .inCohort id }).dropFetched (headId g.key.crew)
  { s.setCohort c with nextId := id + 1 }

/-- A draw: translations made from a root that goes out of use go first (R220). -/
def State.draw (s : State) (core port : Nat) (g : WaitGroup) : State :=
  let ctx := s.ctxOf g.key.crew
  (s.dropRoot ctx (s.regsOf ctx).ptroot).makeCohort core port g

/-- Cohorts a port holds (R75). -/
def State.portLoad (s : State) (core port : Nat) : Nat :=
  (s.cohorts.vals.filter fun k => k.core == core && k.port == port).length

/-- COHORT_DRAW (R78): the ports with a free context draw, in ascending number. -/
def execCohortDraw (core : Nat) (s : State) : Host.Outcome State Fault Refusal :=
  .next <| (List.range 4).foldl (init := s) fun s port =>
    if s.portLoad core port ≥ 16 then s
    else match s.pickGroup core with
      | some g => s.draw core port g
      | none => s

/-- Whether a group's header has to be read before it is known whether the group can be drawn: a partial group that has aged, or a full overflow group,
which a trace with F may take at once (R77). -/
def State.headWanted (s : State) (g : WaitGroup) : Bool := !s.keyKnown g.key && (if g.full then g.overflow else s.aged g)

/-- BIN_AGED (R77): a partial bin whose oldest thread has waited bin.age clocks is drawable, and the ports draw what they find. A header that lies at
the host or a peer is read first. -/
def execBinAged (core : Nat) (s : State) : Host.Outcome State Fault Refusal :=
  .next <|
    let s' := ((s.groupsOn core).filter s.headWanted).foldl (fun s g => s.askHead g.key.crew g.key.next) s
    if (s.pickGroup core).isSome then s'.urge (.hw (.cohortDraw core)) else s'

/-- FULLCOHORT_TIMEOUT (R77, R99, R324). -/
def execFullcohortTimeout (core : Nat) (s : State) : Host.Outcome State Fault Refusal :=
  .next <|
    match (s.groupsOn core).find? fun g => s.keyFull g.key && !g.full && s.clock ≥ g.oldest + 2 ^ 20 with
    | none => s
    | some g =>
      match s.groupTop g with
      | none => s
      | some t =>
        let hdr := (g.key.resume.map (·.hdr)).getD g.key.next
        let id := ((g.key.resume.map (·.traceId)).or ((s.peekTrc g.key.crew hdr).map (·.traceId))).getD 0
        s.terminateBy (s.recordOf .fullcohort t core id 0 ((s.codeVa g.key.crew hdr).getD 0))

/-! ## The trace buffer (R102) -/

/-- Grant waiting cohorts in precedence order while entries last. -/
def State.grantTb (s : State) (core : Nat) : List Cohort → State
  | [] => s
  | c :: cs =>
    let used := ((s.cohorts.vals.filter fun k => k.core == core).map (·.tb)).sum
    if used + 32 * c.budget > 8192 then s
    else State.grantTb (s.modCohort c.id fun k => { k with tb := 32 * c.budget, st := .ready }) core cs

/-- Cohorts in precedence order; `fuel` is their number. -/
def State.byPrec (s : State) : Nat → List Cohort → List Cohort
  | 0, _ => []
  | n + 1, cs =>
    match firstBy (fun (a b : Cohort) => precBefore (s.cohortPrec a) (s.cohortPrec b)) cs with
    | none => []
    | some c => c :: State.byPrec s n (cs.filter (·.id != c.id))

/-- TRACE_BUFFER_GRANT. -/
def execTraceBufferGrant (core : Nat) (s : State) : Host.Outcome State Fault Refusal :=
  .next <|
    let ws := s.cohorts.vals.filter fun c => c.core == core && c.st == .buffer
    s.grantTb core (s.byPrec ws.length ws)

/-! ## Conduits (R90, R92, R93) -/

/-- The instruction at a cohort's pc, once its code has been fetched. -/
def State.peekInstr (s : State) (c : Cohort) : Option Instr :=
  c.code.bind fun m => (decodeIn (s.decodeEnv c) (Map.get m 0 c.pc)).toOption

/-- The predicate, pops and push of an instruction that may name conduits. -/
def conduitUse (i : Instr) : Option (Pred × List (Nat × Nat) × List (Nat × Nat)) :=
  let imm (p : Pred) (d : Reg) (wide : Bool) : Option (Pred × List (Nat × Nat) × List (Nat × Nat)) :=
    if d.file == .q then some (p, [], [(d.num.toNat, if wide then 2 else 1)]) else none
  match i.alu? with
  | some (o, x) => some (x.pred, aluPops o x, aluPushes o x)
  | none => match i with
    | .movi x | .srd x | .csrr x => imm x.pred x.d x.ty.is64
    | .movi64 x => imm x.pred x.d true
    | .lop3 x _ => some (x.pred, lop3Pops x, onConduit x.d)
    | _ => none

/-- What a stalled cohort waits for: its pops and pushes with its executing lanes. -/
def State.stalledOn (s : State) (c : Cohort) : Option (Nat × List (Nat × Nat) × List (Nat × Nat)) :=
  (s.peekInstr c).bind fun i => (conduitUse i).map fun u => ((s.execLanes c u.1).length, u.2.1, u.2.2)

/-- Whether a stalled cohort could issue: its conditions hold, or its instruction is no conduit instruction any more. -/
def State.conduitReadyAt (s : State) (c : Cohort) : Bool :=
  match s.stalledOn c, s.crews.find c.crew with
  | some (m, pops, pushes), some w => w.conduitsReady s.clock m pops pushes
  | _, _ => true

/-- CONDUIT_STALL_RESUME. -/
def execConduitStallResume (cid : Nat) (s : State) : Host.Outcome State Fault Refusal :=
  .next <|
    match s.cohorts.find cid with
    | none => s
    | some c =>
      match c.st with
      | .conduit _ => if s.conduitReadyAt c then s.setCohort { c with st := .ready } else s
      | _ => s

/-- Whether a crew meets the conditions of a probe (R92). -/
def State.deadlocked (s : State) (crew : Nat) : Bool :=
  match s.crews.find crew with
  | none => false
  | some w =>
    let stuck (c : Cohort) : Bool := (match c.st with | .conduit _ => true | _ => false) && !s.conduitReadyAt c
    let core := w.core.getD 0
    let on := s.cohorts.vals.filter (·.core == core)
    let packed := on.length ≥ 64 && on.all fun c => match c.st with | .conduit _ => true | _ => false
    (s.unexited crew).all (fun t => match t.place with
      | .inCohort k => (s.cohorts.find k).any stuck
      | .barrier _ _ | .rwait _ _ _ => true
      | .filed f => packed && !f.overflow
      | _ => false) &&
    w.conduits.all fun q => q.fifo.all fun e => e.2 ≤ s.clock

/-- DEADLOCK_PROBE_START: 512 stalled clocks. A probe whose conditions do not hold dies, and the stall is counted anew. -/
def execDeadlockProbeStart (cid : Nat) (s : State) : Host.Outcome State Fault Refusal :=
  .next <|
    match s.cohorts.find cid with
    | none => s
    | some c =>
      match c.st with
      | .conduit since =>
        if s.clock < since + 512 then s
        else if s.deadlocked c.crew then s.modCrew c.crew fun w => { w with probe := w.probe.or (some cid) }
        else s.setCohort { c with st := .conduit s.clock }
      | _ => s

/-- The conduits on which a cohort's push or pop lacks room or entries. -/
def Crew.shortOn (w : Crew) (now m : Nat) (uses : List (Nat × Nat)) (push : Bool) : List Nat :=
  (uses.map (·.1)).filter fun q => !w.conduitsReady now m (if push then [] else uses.filter (·.1 == q)) (if push then uses.filter (·.1 == q) else [])

/-- The stalls of a crew: cohort, conduit. -/
def State.stalls (s : State) (w : Crew) (push : Bool) : List (Cohort × Nat) :=
  (s.cohortsOf w.id).flatMap fun c =>
    match c.st, s.stalledOn c with
    | .conduit _, some (m, pops, pushes) => (w.shortOn s.clock m (if push then pushes else pops) push).map fun q => (c, q)
    | _, _ => []

/-- QDEAD (R93, R324). -/
def State.qdead (s : State) (l : List (Cohort × Nat)) : State :=
  let q := l.foldl (fun m e => min m e.2) ((l.head?.map (·.2)).getD 0)
  match (s.byPrec l.length ((l.filter (·.2 == q)).map (·.1))).head? with
  | none => s
  | some c =>
    match c.lanes.head?.bind fun l => s.threads.find l.tid with
    | none => s
    | some t => s.terminateBy (s.recordOf .qdead t c.core c.traceId c.offset (q % 16))

/-- DEADLOCK_PROBE_RETURN (R92, R93): a probe whose conditions no longer hold dies, and its cohort's stall is counted anew. -/
def execDeadlockProbeReturn (crew : Nat) (s : State) : Host.Outcome State Fault Refusal :=
  .next <|
    match s.crews.find crew with
    | none => s
    | some w =>
      match w.probe with
      | none => s
      | some cid =>
        let s := s.modCrew crew fun w => { w with probe := none }
        let restart (s : State) : State := s.modCohort cid fun c => match c.st with
          | .conduit _ => { c with st := .conduit s.clock }
          | _ => c
        if !s.deadlocked crew then restart s
        else
          let pushes := s.stalls w true
          match pushes with
          | [] => s.qdead (s.stalls w false)
          | p :: _ =>
            let q := pushes.foldl (fun m e => min m e.2) p.2
            match w.conduit q with
            | none => s
            | some cd =>
              if cd.reserve then s.qdead (pushes.filter (·.2 == q))
              else restart (s.modCrew crew fun w => { w with conduits := w.conduits.set q { cd with reserve := true } })

/-! ## The end of a crew (R88, R203) -/

/-- Whether every store of a crew has been performed: side log, quantum entries, messages and MSTs. -/
def State.crewStored (s : State) (crew : Nat) : Bool :=
  !(s.eng.sideLog.any fun e => e.eff.crew == crew) && !(s.eng.quantum.any fun q => q.eff.crew == crew) &&
    !(s.coh.remote.any fun (e : Nat × Remote) => e.2.eff.any fun (m : MemEff) => m.crew == crew) &&
    !(s.eng.tileOps.any fun o => o.crew == crew && match o.kind with | .store _ _ => true | _ => false)

/-- Whom the decrement of a join counter is attributed to: the crew, by its lowest thread. -/
def State.crewAttr (s : State) (w : Crew) : Attr :=
  let t := (s.threadsOf w.id).head?
  ⟨w.ctx, w.id, 0, 0, 0, ((t.map Thread.lane).getD 0), ((t.map Thread.wid).getD 0), w.core.getD 0, none, 0⟩

/-- Decrement the launch's join counter: an atomic subtraction with release at system scope, which its home checks as any atomic (R353); for a crew that
is saved meanwhile the command processor translates it. A walk that reads a poisoned entry consumes it (R355). -/
def State.decrement (s : State) (w : Crew) (l : Launch) : State :=
  let core := w.core.getD 0
  let agent := (w.core.map tcAgent).getD cpAgent
  let s := s.releaseFlush core .sys
  let a := s.crewAttr w
  let e : MemEff := ⟨w.ctx, w.id, 0, 0, 0, l.join, bytesOf 4 (2 ^ 32 - 1), .atom .add 0, .rel, .sys, .sync⟩
  let paid (s : State) : State := s.modCrew w.id fun w => { w with decremented := true }
  match s.opReach agent a l.join 4 .both with
  | (.go key pte _, s) => match s.mergeCheck key 4 with
    | (some (sec, f), s) => s.detect sec f
    | (none, s) => if s.undecided key 4 then s else paid (s.doEff core e key (pteWatch pte))
  | (.remote key pte, s) => paid (s.sendEff core e key (pteWatch pte))
  | (.wait p record, s) => if s.recordOpen w.ctx core p.page then s else s.pageOp a record
  | (.fault cause addr, s) => s.faultOp a cause addr
  | (.damaged sec, s) => s.consumeWalk (s.recOf a .poison l.join) 0 (w.core.map clusterOf) sec
  | (.busy, s) => s

/-- Free what a crew held. -/
def State.freeCrew (s : State) (w : Crew) : State :=
  { s with
    threads := s.threads.filter fun (e : Nat × Thread) => e.2.crew != w.id
    crews := s.crews.erase w.id
    vreg := s.vreg.filter fun (e : Nat × Word) => !(s.threads.find (e.1 / 256)).any fun t => t.crew == w.id
    preg := s.preg.filter fun (e : Nat × Bool) => !(s.threads.find (e.1 / 8)).any fun t => t.crew == w.id
    kreg := s.kreg.filter fun (e : Nat × Word) => e.1 / 64 != w.id
    tiles := s.tiles.filter fun (e : Nat × Word) => e.1 / 65536 != w.id
    spad := s.spad.filter fun (e : Nat × Byte) => e.1 / 2 ^ 20 != w.id
    segs := s.segs.filter fun (e : Nat × Seg) => e.1 / 4096 != w.id
    eng := { s.eng with tileProg := s.eng.tileProg.filter fun (e : Nat × Nat) => e.1 / 16 != w.id }
    coh := { s.coh with poison := s.coh.poison.filter fun (e : Nat × Finder) =>
      !(2 ^ 60 ≤ e.1 && (e.1 - 2 ^ 60) * 32 / 2 ^ 20 == w.id) } }

/-- JOIN_DECREMENT (R88): the decrement, at the first TRIGGER or after the last exit; then, after the last exit and its last
operation, the crew's resources go, and its launch may have finished. -/
def execJoinDecrement (crew : Nat) (s : State) : Host.Outcome State Fault Refusal :=
  .next <|
    match s.crews.find crew with
    | none => s
    | some w =>
      match s.launchOf w with
      | none => s
      | some l =>
        let exited := (s.unexited crew).isEmpty
        let s := match w.core with
          | some core => if exited then s.flushQuantum core else s
          | none => s
        if !w.decremented then
          if w.triggered || (exited && s.crewStored crew) then s.decrement w l else s
        else if exited && s.crewStored crew && !(s.eng.tileOps.any (·.crew == crew)) &&
            !(s.eng.copyOps.any fun o => o.at'.crew == crew && o.at'.stream.isNone) then
          ((s.freeCrew w).modLaunch w.launch fun l => { l with decremented := l.decremented + 1 }).post (.hw (.launchFinish w.launch))
        else s

/-! ## Admission (R72 to R74, R308, R310) -/

/-- Rows of thread slots a crew needs (R72). -/
def rowsOf (t : Nat) : Nat := (t + 31) / 32

/-- What a launch's crew takes of each item of R73: crews, registers, segments, tiles, conduit entries. -/
def Launch.needs (l : Launch) : List Nat :=
  [1, rowsOf l.size * 32 * l.regs, (l.regions.map (·.1)).sum, l.tiles, (l.depths.map (· * l.size)).sum]

def coreTotals : List Nat := [32, 262144, 4096, 16, 4096]

/-- Free rows at a lane position of a core, lowest first (R72). -/
def State.freeRows (s : State) (core lane : Nat) : List Nat :=
  let used := s.threads.vals.filterMap fun t =>
    if t.lane == lane && (s.crews.find t.crew).any (·.core == some core) then some t.row else none
  (List.range 128).filter fun r => !used.contains r

/-- Whether a crew of a launch fits on a core (R73). -/
def State.fits (s : State) (core : Nat) (l : Launch) : Bool :=
  let there := (s.crewsOn core).filterMap s.launchOf
  let sum (i : Nat) : Nat := ((there.map fun k => k.needs.getD i 0)).sum
  let rows (p : Nat) : Nat := (there.map fun k => if p < k.size then rowsOf k.size else 0).sum
  ((List.range 5).all fun i => sum i + l.needs.getD i 0 ≤ coreTotals.getD i 0) &&
    (List.range (min l.size 32)).all fun p => rows p + rowsOf l.size ≤ 128

/-- Whether a launch may be admitted on a core in C0: its mask, its partition, and the core in service (R252, R305, R363). -/
def State.serves (s : State) (core : Nat) (l : Launch) : Bool :=
  let cl := clusterOf core
  let part := ((s.ctxs.find l.ctx).map (·.part)).getD 0
  (l.mask == 0 || l.mask.testBit cl) && s.pkg.clusterPart.getD cl 0 == part && (s.pkg.partWait.find cl).isNone &&
    (s.pkg.frozen.find cl).isNone && !s.pkg.deadDies.contains (dieOf core) && s.pkg.powered &&
    s.pkg.status[31] && (s.ctxs.find l.ctx).any (·.alive)

/-- Whether a launch may be admitted on a core now: a core in C1 or C2 wakes first (R381). -/
def State.permits (s : State) (core : Nat) (l : Launch) : Bool := s.serves core l && (s.core core).power == 0

/-- Where a record's next crew stands in its launch. -/
def State.recOrd (s : State) (r : Record) : Nat := match r.resumed with
  | some k => ((s.crews.find k).map (·.ordinal)).getD 0
  | none => r.first

/-- Whether record `a` stands before record `b` (R71, R83, R308): in a launch the lower crew, so that a resumed crew stands ahead of every crew of a
higher identifier that is still to come. DEDUCED, log 51: the lower crew of a range record is not behind it, since the resumed one may wait for what that
one publishes (R83, R343). -/
def State.recBefore (s : State) (a b : Record) : Bool :=
  match s.cmd.launches.find a.slot, s.cmd.launches.find b.slot with
  | some x, some y =>
    if x.slot == y.slot then s.recOrd a < s.recOrd b
    else precBefore (7 - x.prio, x.seq, 0) (7 - y.prio, y.seq, 0)
  | _, _ => false

/-- Whether a record's crew would pass a resumed crew of lower identifier of its launch, which comes first wherever either can be admitted (R83). -/
def State.passes (s : State) (r : Record) : Bool :=
  s.cmd.records.any fun q => q.slot == r.slot && q.resumed.isSome && s.recOrd q < s.recOrd r

/-- Whether the side log and the matrix queue of a core have room for what a saved crew brings (R203, R233). -/
def State.roomFor (s : State) (core crew : Nat) : Bool :=
  (s.eng.sideLog.filter fun e => e.eff.crew == crew).length ≤ s.logRoom core &&
    (s.eng.tileOps.filter fun o => o.crew == crew).length + (s.opsOf core).length ≤ 32

/-- Whether a record's crew can be admitted on a core now. -/
def State.admits (s : State) (core : Nat) (r : Record) : Bool :=
  match s.cmd.launches.find r.slot with
  | none => false
  | some l => l.phase == .running && s.permits core l && s.fits core l && r.resumed.all (s.roomFor core)

/-- The records a core may take from: its die's, or every one under the master distributor (R310); a saved crew is restored on any core of
its partition (R329), ahead of the launch's crews still to come (R83). -/
def State.recordsFor (s : State) (core : Nat) : List Record :=
  s.cmd.records.filter fun r => s.cmd.master || r.die == dieOf core || r.resumed.isSome

/-- The record a core takes a crew of. -/
def State.pickRecord (s : State) (core : Nat) : Option Record :=
  firstBy s.recBefore ((s.recordsFor core).filter fun r => s.admits core r && !s.passes r)

/-- The mixed-radix digits of an ordinal, each shifted to its field. -/
def spread (n : Nat) : List (Nat × Nat) → Nat → Nat
  | [], _ => 0
  | (w, e) :: fs, sh => n % e * 2 ^ sh + spread (n / e) fs (sh + w)

/-- The fields of a launch: width and extent. -/
def Launch.fields (l : Launch) : List (Nat × Nat) := l.widths.zip l.extents

/-- The identifier of the crew of an ordinal (R308), and the wid of a thread of it by its crew ordinal (R69, R70). -/
def Launch.crewIdOf (l : Launch) (ord : Nat) : Nat := spread ord (l.fields.drop l.level) 0
def Launch.widBase (l : Launch) : Nat := (l.widths.take l.level).sum
def Launch.widOf (l : Launch) (ord t : Nat) : Nat := l.crewIdOf ord * 2 ^ l.widBase + spread t (l.fields.take l.level) 0

/-- Give the threads of a crew their rows (R72), the lowest free at each lane position. -/
def State.giveRows (s : State) (core : Nat) : List Thread → State
  | [] => s
  | t :: ts =>
    let row := (s.freeRows core t.lane).headD 0
    State.giveRows (s.setThread { t with row := row }) core ts

/-- A crew that was stopped and left resident runs again (R325); in C2 it waits for its cluster (R182). -/
def State.resumeCrew (s : State) (w : Crew) : State :=
  s.setCrew { w with stopping := none, running := w.core.all fun n => (s.pkg.frozen.find (clusterOf n)).isNone && (s.core n).power < 2 }

/-- The lowest crew of a launch below an ordinal that was stopped and left resident. -/
def State.leftBelow (s : State) (slot ord : Nat) : Option Crew :=
  firstBy (fun (a b : Crew) => a.ordinal < b.ordinal)
    (s.crews.vals.filter fun w => w.launch == slot && w.ordinal < ord && w.core.isSome && w.stopping == some true)

/-- CREW_ADMIT (R73, R74, R308): the lowest crew of the first record whose crew fits; a resumed crew is restored. A lower crew of the launch that
was left resident runs again first (R83). -/
def execCrewAdmit (core : Nat) (s : State) : Host.Outcome State Fault Refusal :=
  .next <|
    match s.pickRecord core with
    | none => s
    | some r =>
      match s.leftBelow r.slot (s.recOrd r) with
      | some w => s.resumeCrew w
      | none => match r.resumed, s.cmd.launches.find r.slot with
      | some crew, _ => s.urge (.hw (.crewRestore crew core))
      | none, none => s
      | none, some l =>
        let id := s.nextId
        let rest := if r.count ≤ 1 then [] else [{ r with first := r.first + r.stride, count := r.count - 1 }]
        let s := s.modCmd fun c => { c with records := c.records.flatMap fun q => if q = r then rest else [q] }
        let w : Crew :=
          { id := id, ctx := l.ctx, launch := l.slot, crewId := BitVec.ofNat 64 (l.crewIdOf r.first), ordinal := r.first,
            size := l.size, core := some core, running := true, timer := 0, clk := 0, triggered := false,
            decremented := false, conduits := l.depths.map fun d => ⟨d * l.size, [], false⟩, barriers := [], groups := [],
            kPend := [], probe := none, stopping := none }
        let s := { s.setCrew w with nextId := id + 1 + l.size }
        let ts := (List.range l.size).map fun i =>
          (⟨id + 1 + i, id, i, BitVec.ofNat 64 (l.widOf r.first i), 128, .ended, false, 0, 0, 0, none, false, false, false, none, []⟩ : Thread)
        -- the slots are given while no thread of the crew holds one yet
        let s := s.giveRows core ts
        ts.foldl (init := s) fun s t => s.file t.id (Filing.at' l.entry 0 s.clock)

/-- Whether a core is able to admit a crew: in C0 and in service, with a free crew slot (R73). -/
def State.canAdmit (s : State) (core : Nat) : Bool :=
  (s.core core).power == 0 && (s.pkg.frozen.find (clusterOf core)).isNone && !s.pkg.deadDies.contains (dieOf core) &&
    s.pkg.powered && s.pkg.status[31] && (s.crewsOn core).length < 32

/-- The cores of a die. -/
def coresOf (die : Nat) : List Nat := (List.range 72).map (72 * die + ·)

/-- Whether a core of a die that is able to admit a crew may take one of a launch: its mask and its partition permit the core (R252, R308). -/
def State.mayTake (s : State) (die : Nat) (r : Record) : Bool :=
  (s.cmd.launches.find r.slot).any fun l => (coresOf die).any fun c => s.canAdmit c && s.permits c l

/-- The record that a die steals from: the highest in precedence of the others' with two crews or more, a tie to the lower die. DEDUCED, log 51: a
record whose crews no core of the die may take is none of them, since a crew that it took could never be admitted (R343). -/
def State.stealable (s : State) (die : Nat) : Option Record :=
  firstBy (fun a b => s.recBefore a b || (!s.recBefore b a && a.die < b.die))
    (s.cmd.records.filter fun r => r.die != die && r.resumed.isNone && r.count ≥ 2 && s.mayTake die r)

/-- Whether a die's distributor has a core able to admit a crew and no record that fits it (R309). -/
def State.starved (s : State) (die : Nat) : Bool :=
  !s.cmd.master && (coresOf die).any fun c => s.canAdmit c && !(s.recordsFor c).any (s.admits c)

/-- STEAL (R309): the upper half of another die's record passes to a starved distributor. -/
def execSteal (die : Nat) (s : State) : Host.Outcome State Fault Refusal :=
  .next <|
    if !s.starved die then s
    else match s.stealable die with
      | none => s
      | some r =>
        let keep := (r.count + 1) / 2
        let taken : Record := { r with die := die, first := r.first + r.stride * keep, count := r.count - keep }
        s.modCmd fun c => { c with
          records := (c.records.flatMap fun q => if q = r then [{ r with count := keep }] else [q]) ++ [taken] }

end Sys2Proof.Machine
end

