-- ==== Sys2Proof/Machine/System.lean ====
section
/-! DEFINITION. System registers, Rililo's services and SLEEP (R314, R334 to R339). -/

namespace Sys2Proof.Machine

/-! ## Reading and writing the registers (R314, R335, R336) -/

/-- The bits that a register's map does not reserve. -/
def csrMask (sel : Nat) : Nat :=
  match sel with
  | 0x000 => 2 ^ 33 - 1
  | 0x001 | 0x010 | 0x011 => 1
  | 0x002 => 2 ^ 64 - 64
  | 0x003 | 0x004 | 0x005 | 0x006 | 0x007 | 0x020 => 2 ^ 16 - 1
  | 0x008 => 2 ^ 52 - 2 ^ 17
  | 0x030 => 2 ^ 64 - 1
  | _ => 2 ^ 63 + 7 * 2 ^ 56 + (2 ^ 52 - 32)

/-- The value of a selector as a crew reads it (R335). -/
def State.readCsr (s : State) (crew sel : Nat) : Nat :=
  let r := s.regsOf (s.ctxOf crew)
  match sel with
  | 0x000 => r.trapvec.toNat
  | 0x001 => r.staletrap.toNat
  | 0x002 => (r.tensorbase.extractLsb' 0 64).toNat
  | 0x003 => (r.tensorbase.extractLsb' 64 64).toNat
  | 0x004 => r.win0.toNat
  | 0x005 => r.win1.toNat
  | 0x006 => r.win2.toNat
  | 0x007 => r.win3.toNat
  | 0x008 => Nat.land r.ptroot.toNat (csrMask 0x008)
  | 0x010 => r.chkStall.toNat
  | 0x011 => r.chkIdem.toNat
  | 0x020 => r.binAge.toNat
  | 0x030 => ((s.crews.find crew).map fun k => k.timer.toNat).getD 0
  | _ => r.errInject.toNat

/-- A register of the map with a value. -/
def SysRegs.write (r : SysRegs) (sel v : Nat) : SysRegs :=
  match sel with
  | 0x000 => { r with trapvec := BitVec.ofNat 64 v }
  | 0x001 => { r with staletrap := BitVec.ofNat 32 v }
  | 0x002 => { r with tensorbase := r.tensorbase.extractLsb' 64 64 ++ BitVec.ofNat 64 v }
  | 0x003 => { r with tensorbase := BitVec.ofNat 64 v ++ r.tensorbase.extractLsb' 0 64 }
  | 0x004 => { r with win0 := BitVec.ofNat 32 v }
  | 0x005 => { r with win1 := BitVec.ofNat 32 v }
  | 0x006 => { r with win2 := BitVec.ofNat 32 v }
  | 0x007 => { r with win3 := BitVec.ofNat 32 v }
  | 0x008 => { r with ptroot := BitVec.ofNat 64 v }
  | 0x010 => { r with chkStall := BitVec.ofNat 32 v }
  | 0x011 => { r with chkIdem := BitVec.ofNat 32 v }
  | 0x020 => { r with binAge := BitVec.ofNat 32 v }
  | 0x0f0 => { r with errInject := BitVec.ofNat 64 v }
  | _ => r

/-- The kind field of an err.inject value (R339). -/
def injectKind (v : Nat) : Nat := bits v 56 3

/-- What R336 checks of a write; err.inject admits no reserved kind, whatever its arm bit (log 29). -/
def State.csrAllowed (s : State) (ctx sel v : Nat) : Bool :=
  let x := s.ctxs.find ctx
  let priv := s.privOf ctx
  Nat.land v (csrMask sel) == v && (sel != 0x008 || priv) &&
    (sel != 0x0f0 || (priv && x.any (·.grant) && 1 ≤ injectKind v && injectKind v ≤ 5))

/-- Perform a write on every core (R220, R332, R336). Translations made from an old root are dropped now, for the units that take the new one
at once, and again as each cohort takes it (`State.draw`, `State.passOn`). -/
def State.performCsr (s : State) (crew sel v : Nat) : State :=
  let ctx := s.ctxOf crew
  if sel = 0x030 then s.modCrew crew fun k => { k with timer := BitVec.ofNat 64 v }
  else
    let s := if sel = 0x008 then s.dropRoot ctx (BitVec.ofNat 64 v) else s
    s.modCtx ctx fun x => { x with regs := x.regs.write sel v }

/-- CSRW (R336): the lowest executing lane's value, or PROT in that lane. -/
def State.csrWrite (s : State) (c : Cohort) (i : Instr) (x : ImmI) : State :=
  s.issue c i x.pred x.stall fun s lanes =>
    match lanes with
    | [] => s
    | l :: _ =>
      let wide := x.ty.is64
      let (v, s) := if x.a.file == .k then
          (if wide then let (v, s) := s.seenK64 c x.a.num.toNat; (v.toNat, s)
           else let (v, s) := s.seenK c x.a.num.toNat; (v.toNat, s))
        else (s.laneVal c x.a.num.toNat wide l, s)
      if s.csrAllowed (s.ctxOf c.crew) x.imm.toNat v then s.performCsr c.crew x.imm.toNat v
      else s.raiseIn c [l] .prot c.offset fun _ => 0

def execCsrr (x : ImmI) (s : State) : Host.Outcome State Fault Refusal :=
  onCohort s fun c s => s.issueImm c (.csrr x) x.pred x.stall x.d x.ty.is64 0 fun s lanes =>
    lanes.map fun l => (l, s.readCsr c.crew x.imm.toNat)

def execCsrw (x : ImmI) (s : State) : Host.Outcome State Fault Refusal :=
  onCohort s fun c s => s.csrWrite c (.csrw x) x

/-- R220. -/
def execCtxPtrootWrite (x : ImmI) (s : State) : Host.Outcome State Fault Refusal :=
  onCohort s fun c s => s.csrWrite c (.ctxPtrootWrite x) x

/-- R332: a compare value that has passed fires the timer in the clock after the write. -/
def execCrewTimerWrite (x : ImmI) (s : State) : Host.Outcome State Fault Refusal :=
  onCohort s fun c s => s.csrWrite c (.crewTimerWrite x) x

/-! ## err.inject (R339) -/

/-- A write of err.inject by its register form: what it arms depends on the kind in its value. -/
def State.injectWrite (s : State) (c : Cohort) (i : Instr) (x : ImmI) : State := s.csrWrite c i { x with imm := 0x0f0 }

/-- Kind 1. -/
def execErrInjectL2Single (x : ImmI) (s : State) : Host.Outcome State Fault Refusal :=
  onCohort s fun c s => s.injectWrite c (.errInjectL2Single x) x

/-- Kind 2. -/
def execErrInjectL2Uncorrectable (x : ImmI) (s : State) : Host.Outcome State Fault Refusal :=
  onCohort s fun c s => s.injectWrite c (.errInjectL2Uncorrectable x) x

/-- Kind 3. -/
def execErrInjectHbmUncorrectable (x : ImmI) (s : State) : Host.Outcome State Fault Refusal :=
  onCohort s fun c s => s.injectWrite c (.errInjectHbmUncorrectable x) x

/-- Kind 4. -/
def execErrInjectCheckMismatch (x : ImmI) (s : State) : Host.Outcome State Fault Refusal :=
  onCohort s fun c s => s.injectWrite c (.errInjectCheckMismatch x) x

/-- Kind 5. -/
def execErrInjectFpDisturb (x : ImmI) (s : State) : Host.Outcome State Fault Refusal :=
  onCohort s fun c s => s.injectWrite c (.errInjectFpDisturb x) x

/-- arm = 0. -/
def execErrInjectDisarm (x : ImmI) (s : State) : Host.Outcome State Fault Refusal :=
  onCohort s fun c s => s.injectWrite c (.errInjectDisarm x) x

/-- The target sector of an armed injection of kinds 1 to 4. -/
def Ctx.target (x : Ctx) : Nat := bits x.regs.errInject.toNat 5 47

/-- INJECTION_MADE: kinds 1 and 2 damage the sector just written into its slice, and kind 4 changes its check value to another, which the manual
leaves open; kind 3 damages the copy in HBM, to which its block has just been written back, and a copy in L2 is clean with no valid owner. Kind 5
is made where the result is checked. -/
def execInjectionMade (ctx : Nat) (s : State) : Host.Outcome State Fault Refusal :=
  .next <|
    match s.ctxs.find ctx with
    | none => s
    | some x =>
      let sec := x.target
      let hurt (s : State) (h : Harm) : State := (s.modCoh fun c => { c with harm := c.harm.insert sec h }).disarm ctx
      let right := checkValue (s.mem.readBytes (32 * sec) 32)
      if !x.regs.errInject[63] then s
      else match injectKind x.regs.errInject.toNat with
        | 1 => hurt s .single
        | 2 => hurt s .l2
        | 4 =>
          let (v, s) := s.drawWord
          let v := v.setWidth 16
          (s.modCoh fun c => { c with checks := c.checks.insert sec (if v = right then ~~~v else v) }).disarm ctx
        | 3 =>
          let clean := s.coh.blocks.modify (blockOf (sec * 32)) fun b => { b with modified := 0, ownerValid := false }
          hurt (s.modCoh fun c => { c with blocks := clean }) .hbm
        | _ => s

/-! ## CALLSV (R337) -/

/-- Issue a service: each executing lane's argument gives its result. -/
def State.service (s : State) (c : Cohort) (i : Instr) (x : ImmI) (f : State → Lane → Nat → Nat) : State :=
  s.issueImm c i x.pred x.stall x.d true 0 fun s lanes =>
    lanes.map fun l => (l, f s l (s.laneVal c x.a.num.toNat true l))

def execVersion (x : ImmI) (s : State) : Host.Outcome State Fault Refusal :=
  onCohort s fun c s => s.service c (.version x) x fun _ _ _ => Config.rililoVersion.toNat

def execWhoami (x : ImmI) (s : State) : Host.Outcome State Fault Refusal :=
  onCohort s fun c s => s.service c (.whoami x) x fun s _ _ =>
    let n := s.ctxOf c.crew
    n % 4096 + 4096 * (s.privOf n).toNat + 2 ^ 13 * (((s.ctxs.find n).map (·.part)).getD 0 % 8)

/-- One request a cohort: the crew is pre-empted after the call. -/
def execYieldcrew (x : ImmI) (s : State) : Host.Outcome State Fault Refusal :=
  onCohort s fun c s =>
    let asks := !(s.execLanes c x.pred).isEmpty
    let s := s.service c (.yieldcrew x) x fun _ _ _ => 0
    if asks then s.post (.hw (.preemptCrew c.crew false)) else s

/-- The answers to a list of requests in lane order, and the grant they leave. -/
def injectAuth (test : Bool) (args : List Nat) (grant : Bool) : List Nat × Bool :=
  args.foldl (init := (([] : List Nat), grant)) fun r a =>
    if a % 2 == 1 then (r.1 ++ [if test then 0 else 1], r.2 || test) else (r.1 ++ [0], false)

def execInjectauth (x : ImmI) (s : State) : Host.Outcome State Fault Refusal :=
  onCohort s fun c s =>
    let ctx := s.ctxOf c.crew
    let test := (s.ctxs.find ctx).any (·.test)
    let grant := (s.ctxs.find ctx).any (·.grant)
    let args := (s.execLanes c x.pred).map (s.laneVal c x.a.num.toNat true)
    let r := injectAuth test args grant
    let stalls := s.stallShort c (.injectauth x)
    let s := s.service c (.injectauth x) x fun _ _ a => if a % 2 == 1 && !test then 1 else 0
    if stalls then s else s.modCtx ctx fun k => { k with grant := r.2 }

/-- Unconsumed records of a context (R320, R337). -/
def State.faultQueue (s : State) (ctx : Nat) : Nat :=
  match s.ctxs.find ctx with
  | none => 0
  | some k =>
    let w := k.ringBase + 64 * 2 ^ k.ringM
    (s.mem.readNat w 4 + 2 ^ 32 - s.mem.readNat (w + 4) 4) % 2 ^ 32

/-- The page of the words after a context's ring. -/
def State.ringPage (s : State) (ctx : Nat) : List Nat := ((s.ctxs.find ctx).map fun k => k.ringBase + 64 * 2 ^ k.ringM).toList

/-- FAULTQ (R337): Rililo reads the counts, whose page comes back first where it is in host bias (R240, log 38). -/
def execFaultq (x : ImmI) (s : State) : Host.Outcome State Fault Refusal :=
  onCohort s fun c s =>
    let at' := s.ringPage (s.ctxOf c.crew)
    if !s.crownReady at' && !(s.execLanes c x.pred).isEmpty then (s.takeBack at').hold c.id else s.service c (.faultq x) x fun s _ _ => s.faultQueue (s.ctxOf c.crew)

def execCallsvUnknown (x : ImmI) (s : State) : Host.Outcome State Fault Refusal :=
  onCohort s fun c s => s.service c (.callsvUnknown x) x fun _ _ _ => 2 ^ 64 - 1

/-! ## SLEEP (R338) -/

def execSleep (x : ImmI) (s : State) : Host.Outcome State Fault Refusal :=
  onCohort s fun c s =>
    let waits := !(s.execLanes c x.pred).isEmpty && x.imm != 0
    let now := ((s.crews.find c.crew).map (·.clk)).getD 0
    let s := s.issue c (.sleep x) x.pred x.stall fun s _ => s
    if waits then s.modCohort c.id fun k => { k with st := .asleep (now + x.imm.toNat) } else s

/-- SLEEP_EXPIRE: the crew's clock has advanced far enough. -/
def execSleepExpire (cid : Nat) (s : State) : Host.Outcome State Fault Refusal :=
  .next <|
    match s.cohorts.find cid with
    | none => s
    | some c =>
      match c.st with
      | .asleep t =>
        if (s.crews.find c.crew).any fun k => t ≤ k.clk then s.modCohort cid fun k => { k with st := .ready } else s
      | _ => s

end Sys2Proof.Machine
end

