-- ==== Sys2Proof/Machine/Traps.lean ====
section
/-! DEFINITION. Fault records and the end of a context (R320 to R323), retries and replays (R232 to R236), the Garnet monitor
(R176, R181), the crew timer (R333), and pre-emption and restore (R325 to R330, R340). -/

namespace Sys2Proof.Machine

/-! ## Completion records (R307) -/

/-- The 16 bytes of a launch's completion record. -/
def Launch.completionBytes (l : Launch) : List Byte :=
  bytesOf 16 (l.status + 2 ^ 32 * l.unshielded.toNat + 2 ^ 33 * l.snapshot.toNat + 2 ^ 64 * l.decremented)

/-- Write the completion record of a finished launch with release at system scope; its slot is then free. -/
def State.completeLaunch (s : State) (slot : Nat) : State :=
  match s.cmd.launches.find slot with
  | none => s
  | some l =>
    match s.cpWrite l.ctx l.stream l.cmd l.completion l.completionBytes with
    | (.later, s) => s
    | (.val _, s) =>
      ((s.signal l.ctx).modCmd fun c => { c with launches := c.launches.erase slot }).modStream l.stream fun t => { t with pages := [] }

/-- A launch has finished with a status; its completion record is due. -/
def State.finishLaunch (s : State) (slot status : Nat) : State :=
  (s.modLaunch slot fun l => { l with phase := .finished, status := status }).completeLaunch slot

/-! ## The end of a context (R323) -/

/-- What a lane past its commit point has still to perform goes out on its own (R110), each effect in memory that its translation reaches: its home, or the
host, performs it when it can. -/
def State.sendRest (s : State) (c : Cohort) (tid : Nat) : State :=
  match s.laneNow c.id tid with
  | none => s
  | some l => l.buf.foldl (init := s) fun s b => match b with
    | .mem e _ _ =>
      let (r, s) := s.reach c l.pos e.va .write
      match r with
      | .go key pte _ =>
        if e.kind == .nothing || (key ≥ peerKey && !s.peerOk key) then s
        else if s.remoteKey key then s.sendWrite (tcAgent c.core) e key (pteWatch pte)
        else
          let (id, s) := s.sendRemote ⟨false, some e, key, e.bytes.length, [], .write, 0, e.thread, tcAgent c.core, pteWatch pte, false, some s.clock⟩
          s.post (.arrive id)
      | _ => s
    | _ => s

/-- Drop a context's operations and free what its crews held (steps 1, 3, 4 and 7). Lanes past their commit points complete; `keep` says that their
effects which must wait are performed later, and an entry of the quantum buffer whose home cannot take it yet is flushed when it can
(`State.settleQuantum`). -/
def State.dropCrews (s : State) (keep : Bool) (p : Crew → Bool) : State :=
  let out := s.crews.vals.filter p
  let ids := out.map (·.id)
  let s := (s.cohorts.vals.filter fun k => ids.contains k.crew).foldl (init := s) fun s c =>
    (c.lanes.filter (·.past)).foldl (init := s) fun s l =>
      let s := (s.performEffects c l.tid l.buf.length).2
      if keep then s.sendRest c l.tid else s
  let s := (out.filterMap (·.core)).eraseDups.foldl (init := s) State.flushQuantum
  let s := { s with cohorts := s.cohorts.filter fun (e : Nat × Cohort) => !ids.contains e.2.crew }
  let gone := (s.eng.tileOps.filter fun o => ids.contains o.crew).map (·.id) ++
    (s.eng.copyOps.filter fun o => ids.contains o.at'.crew).map (·.id) ++ (s.eng.collOps.filter fun o => ids.contains o.at'.crew).map (·.id)
  let s := s.modEng fun g => { g with
    tileOps := g.tileOps.filter fun o => !ids.contains o.crew
    copyOps := g.copyOps.filter fun o => !ids.contains o.at'.crew
    collOps := g.collOps.filter fun o => !ids.contains o.at'.crew
    sideLog := g.sideLog.filter fun e => !ids.contains e.eff.crew
    opData := g.opData.filter fun d => !gone.contains d.1 }
  let s := out.foldl (fun s w => s.freeCrew w) s
  s.modCmd fun c => { c with records := c.records.filter fun r => !(r.resumed.any ids.contains) }

/-- End a context (R323). -/
def State.endContext (s : State) (ctx : Nat) : State :=
  match s.ctxs.find ctx with
  | none => s
  | some x =>
    if !x.alive then s
    else
      let s := s.dropCrews true fun w => w.ctx == ctx
      let gone := (s.eng.copyOps.filter fun o => o.at'.ctx == ctx).map (·.id) ++ (s.eng.collOps.filter fun o => o.at'.ctx == ctx).map (·.id)
      let s := s.modEng fun g => { g with
        copyOps := g.copyOps.filter fun o => o.at'.ctx != ctx
        collOps := g.collOps.filter fun o => o.at'.ctx != ctx
        sideLog := g.sideLog.filter fun e => e.eff.ctx != ctx
        opData := g.opData.filter fun d => !gone.contains d.1 }
      let slots := (s.cmd.launches.filter fun e => e.2.ctx == ctx && e.2.phase != .finished).map (·.1)
      let s := s.modCmd fun c => { c with
        records := c.records.filter fun r => !slots.contains r.slot
        streams := c.streams.map fun (e : Nat × Stream) =>
          if (s.streamDesc e.1).any (·.context == ctx) then (e.1, { e.2 with disabled := true }) else e }
      let s := slots.foldl (fun s n => s.finishLaunch n 3) s
      s.modCtx ctx fun x => { x with alive := false, records := [], waiting := [] }

/-! ## Fault records (R320, R321) -/

/-- The 64 bytes of a record; bit 6 of the flags tells that records were lost before it. -/
def recordBytes (r : FaultRec) (lost : Bool) : List Byte :=
  let flags := r.recov.toNat + 4 * r.handler.toNat + 8 * r.sideLog.toNat + 16 * r.engine.toNat + 32 * r.streamC.toNat +
    64 * lost.toNat + 128 * r.term.toNat
  bytesOf 1 r.cause.code ++ bytesOf 1 flags ++ bytesOf 2 (r.ctx % 4096) ++ bytesOf 2 r.traceId.toNat ++ bytesOf 1 r.offset ++
    bytesOf 1 r.lane ++ bytesOf 2 r.core ++ bytesOf 2 0 ++ bytesOf 4 r.cmd ++ bytesOf 8 r.wid.toNat ++
    bytesOf 16 (r.addr % 2 ^ 80) ++ bytesOf 8 r.crewId.toNat ++ bytesOf 2 r.stream ++ bytesOf 14 0

/-- The address of the words after a context's ring: producer count, consumer count, resolve word. -/
def Ctx.words (x : Ctx) : Nat := x.ringBase + 64 * 2 ^ x.ringM

/-- The producer and consumer counts. -/
def State.counts (s : State) (x : Ctx) : Nat × Nat := (s.mem.readNat x.words 4, s.mem.readNat (x.words + 4) 4)

/-- Whether a context's ring is full. -/
def State.ringFull (s : State) (x : Ctx) : Bool :=
  let c := s.counts x
  (c.1 + 2 ^ 32 - c.2) % 2 ^ 32 == 2 ^ x.ringM

/-- Whether a read of a context's consumer count and resolve word waits at the home (R347). -/
def State.wordsWait (s : State) (x : Ctx) : Bool := !s.remoteKey x.words && s.readStalled crownAgent 0 (x.words + 4) 8

/-- The device holds a read token on a context's consumer count and resolve word (R320, R322), so that a write of them reaches it; behind what stands at
the home its request waits there (R347). -/
def State.watchWords (s : State) (x : Ctx) : State :=
  if s.remoteKey x.words then s
  else (sectorsOf (x.words + 4) 8).foldl (init := s) fun s k =>
    if s.readStalled crownAgent 0 (32 * k) 32 then s.post (.hw (.rdtok crownAgent k)) else s.grant k crownAgent

/-- The addresses that the writing of a context's next record touches. -/
def State.recordAt (s : State) (x : Ctx) : List Nat := [x.ringBase + 64 * ((s.counts x).1 % 2 ^ x.ringM), x.words]

/-- Write a record and advance the producer count, each with release at system scope; a recoverable one stays open. -/
def State.putRecord (s : State) (x : Ctx) (r : FaultRec) : State :=
  let n := (s.counts x).1
  let w := Writer.ctx x.num
  let s := s.perform (x.ringBase + 64 * (n % 2 ^ x.ringM)) (recordBytes r x.lost) w false
  let s := (s.perform x.words (bytesOf 4 ((n + 1) % 2 ^ 32)) w false).watchWords x
  (s.modCtx x.num fun x => { x with
    lost := false
    records := if r.recov then x.records ++ [⟨n, r.core, pageOf r.addr⟩] else x.records }).signal x.num

/-- Whether a ring cannot be written: its page is retired (R361), or a check of its old content has started the decision that retires it (R353, R354). -/
def State.ringDead (s : State) (x : Ctx) : Bool :=
  [(x.ringBase + 64 * ((s.counts x).1 % 2 ^ x.ringM), 64), (x.words, 12)].any fun e =>
    s.undecided e.1 e.2 || s.pkg.retireList.contains (e.1 / 2 ^ 16)

/-- Write a record into a ring that can be written now (R320): a terminating one is dropped when the ring is full, another waits for room; a terminating
one ends its context. A ring that damage leaves unwritable takes no more. -/
def State.recordNow (s : State) (r : FaultRec) : State :=
  match s.ctxs.find r.ctx with
  | none => s
  | some x =>
    if !x.alive then s
    else
      let s := (s.recordAt x).foldl (fun s a => s.inspect true (sectorsOf a (if a == x.words then 12 else 64))) s
      let full := s.ringFull x || s.ringDead x
      let s := if full then
          s.modCtx x.num fun x => if r.term then { x with lost := true } else { x with waiting := x.waiting ++ [r] }
        else s.putRecord x r
      if r.term then s.endContext x.num else s

/-- Write a record: a ring in host bias comes back first, and a flip is waited for (R240, log 38). -/
def State.writeRecord (s : State) (r : FaultRec) : State :=
  match (s.ctxs.find r.ctx).filter (·.alive) with
  | none => s
  | some x =>
    if !s.crownReady (s.recordAt x) then (s.takeBack (s.recordAt x)).defer (.hw (.faultRecordWrite r)) else s.recordNow r

/-- FAULT_RECORD_WRITE (R320, R321, R323). -/
def execFaultRecordWrite (r : FaultRec) (s : State) : Host.Outcome State Fault Refusal := .next (s.writeRecord r)

/-- CONSUMER_COUNT_WRITE: the device reads the count with a new token, and a record that waits is written once there is room. -/
def execConsumerCountWrite (ctx : Nat) (s : State) : Host.Outcome State Fault Refusal :=
  .next <|
    match s.ctxs.find ctx with
    | none => s
    | some x =>
      if !s.crownReady (s.recordAt x) then (s.takeBack (s.recordAt x)).defer (.hw (.consumerCountWrite ctx))
      else if s.wordsWait x then s.defer (.hw (.consumerCountWrite ctx))
      else
      let s := s.watchWords x
      match x.waiting with
      | [] => s
      | r :: rs =>
        if s.ringFull x || s.ringDead x then s
        else
          let s := s.putRecord { x with waiting := rs } r
          let s := s.modCtx ctx fun x => { x with waiting := rs }
          if rs.isEmpty then s else s.post (.hw (.consumerCountWrite ctx))

/-- Operations and streams of a context that wait on a page go on. -/
def State.resumeOps (s : State) (ctx page : Nat) : State :=
  let woken (a : Attr) (w : Option PageWait) : Option PageWait :=
    if a.ctx == ctx && w.any fun w => w.page == page && w.why == .page then none else w
  let s := s.modEng fun g => { g with
    tileOps := g.tileOps.map fun (o : TileOp) => { o with waiting := woken o.at' o.waiting }
    copyOps := g.copyOps.map fun (o : CopyOp) => { o with waiting := woken o.at' o.waiting }
    collOps := g.collOps.map fun (o : CollOp) => { o with waiting := woken o.at' o.waiting } }
  s.modCmd fun c => { c with streams := c.streams.map fun (e : Nat × Stream) =>
    if (s.streamDesc e.1).any (·.context == ctx) then (e.1, { e.2 with pages := e.2.pages.filter (· != page) }) else e }

/-- Replays of a context's entries of a page, on every core that has some. -/
def State.replaysOf (s : State) (ctx page : Nat) : List Turn :=
  ((s.eng.sideLog.filter fun e => e.eff.ctx == ctx && pageOf e.eff.va == page && e.core != savedCore).map fun e => Turn.hw (.sideLogReplay e.core ctx page)).eraseDups

/-- RESOLVE_WRITE (R322): the record of the sequence number is resolved; its page's threads retry and its side-log entries are
replayed, those of a crew that was restored on another core meanwhile among them (R328). -/
def execResolveWrite (ctx : Nat) (s : State) : Host.Outcome State Fault Refusal :=
  .next <|
    match s.ctxs.find ctx with
    | none => s
    | some x =>
      if !s.crownReady [x.words] then (s.takeBack [x.words]).defer (.hw (.resolveWrite ctx))
      else if s.wordsWait x then s.defer (.hw (.resolveWrite ctx))
      else
      let s := s.watchWords x
      match x.records.find? (·.seq == s.mem.readNat (x.words + 8) 4) with
      | none => s
      | some r =>
        let s := s.modCtx ctx fun x => { x with records := x.records.filter (· != r) }
        (s.resumeOps ctx r.page).postAll (.hw (.pageRetry r.core ctx r.page) :: s.replaysOf ctx r.page)

/-! ## Retries and replays (R232, R235, R236) -/

/-- A parked thread is filed again (R333). -/
def State.unpark (s : State) (t : Thread) (p : Park) : State :=
  s.boundary t.id { p.filing with arrival := s.clock } p.traceId p.offset

/-- PAGE_RETRY (R232, R322): threads parked on the page on the core retry. -/
def execPageRetry (core ctx page : Nat) (s : State) : Host.Outcome State Fault Refusal :=
  .next <| s.threads.vals.foldl (init := s) fun s t =>
    match t.place with
    | .parked p =>
      if p.core == core && p.page == page && p.why != .room && s.ctxOf t.crew == ctx &&
          (s.crews.find t.crew).any (·.core.isSome) then s.unpark t p
      else s
    | _ => s

/-- SIDE_LOG_ROOM_RETRY (R236): with a free entry, the threads held for one issue their accesses again. -/
def execSideLogRoomRetry (core : Nat) (s : State) : Host.Outcome State Fault Refusal :=
  .next <|
    if s.logRoom core = 0 then s
    else s.threads.vals.foldl (init := s) fun s t =>
      match t.place with
      | .parked p =>
        if p.core == core && p.why == .room && (s.crews.find t.crew).any (·.core.isSome) then s.unpark t p else s
      | _ => s

/-- Whether an entry is the first of its thread, and the first for its page (R234). -/
def firstEntry : List SideEntry → SideEntry → Bool
  | [], _ => true
  | f :: fs, e =>
    if f == e then true
    else !(f.eff.thread == e.eff.thread || (f.core == e.core && f.eff.ctx == e.eff.ctx && pageOf f.eff.va == pageOf e.eff.va)) &&
      firstEntry fs e

/-- The side log without the first entry equal to one. -/
def dropEntry : List SideEntry → SideEntry → List SideEntry
  | [], _ => []
  | f :: fs, e => if f = e then fs else f :: dropEntry fs e

/-- The record of the original access of an entry. -/
def State.entryRec (s : State) (e : SideEntry) (cause : Cause) : FaultRec :=
  let t := s.threads.find e.eff.thread
  let w := s.crews.find e.eff.crew
  { FaultRec.of cause e.eff.ctx with
    sideLog := true, traceId := e.eff.traceId, offset := e.eff.offset, lane := (t.map Thread.lane).getD 0, core := e.core,
    wid := (t.map Thread.wid).getD 0, addr := e.eff.va, crewId := (w.map Crew.crewId).getD 0 }

/-- Replay one entry (R235): performed and gone, or still in its place. -/
def State.replayEntry (s : State) (e : SideEntry) : State :=
  let ctx := e.eff.ctx
  let acc := Acc.write
  let keep (u : Option Nat) (held : Bool) (s : State) : State :=
    s.modEng fun g => { g with sideLog := g.sideLog.map fun f => if f = e then { e with unit := u, held := held } else f }
  let (r, s) := s.translate (tcAgent e.core) ctx (s.regsOf ctx).ptroot (s.privOf ctx) e.eff.va acc none
  match s.reachOf r with
  | .go key pte unit =>
    if s.stalled e.eff.thread key e.eff.bytes.length then s
    else if key ≥ peerKey && !s.peerOk key then s.terminateBy (s.entryRec e .prot)
    else
      let gone (s : State) : State := s.modEng fun g => { g with sideLog := dropEntry g.sideLog e }
      if s.remoteKey key then gone (s.sendEff e.core e.eff key (pteWatch pte))
      else match s.mergeCheck key e.eff.bytes.length with
        | (some (sec, f), s) => keep (some unit) false (s.detect sec f)
        | (none, s) => gone (s.doEff e.core e.eff key (pteWatch pte))
  | .page u =>
    let s := keep u false s
    if s.recordOpen ctx e.core (pageOf e.eff.va) then s else s.report { s.entryRec e .page with recov := true }
  | .held u => keep (some u) true s
  | .cow u => (keep (some u) false s).urge (.hw (.cowCopy ctx (pageOf e.eff.va)))
  | .prot => s.terminateBy (s.entryRec e .prot)
  | .damaged sec => s.consumeWalk (s.entryRec e .poison) e.eff.thread (some (clusterOf e.core)) sec
  | .busy => s

/-- SIDE_LOG_REPLAY (R234, R235): the entries of the page, in order, each when it is first of its thread and page. Entries of other
pages that then come first, and threads held for room, follow. -/
def execSideLogReplay (core ctx page : Nat) (s : State) : Host.Outcome State Fault Refusal :=
  .next <|
    let mine := s.eng.sideLog.filter fun e => e.core == core && e.eff.ctx == ctx && pageOf e.eff.va == page
    let before := s.eng.sideLog.length
    let s := mine.foldl (init := s) fun s e =>
      if s.eng.sideLog.contains e && firstEntry s.eng.sideLog e then s.replayEntry e else s
    if s.eng.sideLog.length < before then
      let next := (s.eng.sideLog.filter fun e => e.core == core && mine.any (fun m => m.eff.thread == e.eff.thread) &&
        pageOf e.eff.va != page).map fun e => Turn.hw (.sideLogReplay core e.eff.ctx (pageOf e.eff.va))
      s.postAll (next.eraseDups ++ [.hw (.sideLogRoomRetry core)])
    else s

/-! ## Fade and timers (R176, R181, R333) -/

/-- The segments of the crews on a core that satisfy `p`, changed by `f`. -/
def State.modSegs (s : State) (core : Nat) (p : Crew → Bool) (f : Nat → Nat → Seg → Seg) : State :=
  { s with segs := s.segs.map fun (e : Nat × Seg) =>
      if (s.crews.find (e.1 / 4096)).any fun w => w.core == some core && p w then (e.1, f (e.1 / 4096) (e.1 % 4096) e.2) else e }

/-- The lifetime of a segment of a crew. -/
def State.lifeOf (s : State) (crew j : Nat) : Nat := (regionAt (s.regionsOf crew) 0 j).2

/-- Whether a lane past its commit point has found a segment live for an ATOMS that is still to be performed (R110). -/
def State.foundLive (s : State) (crew j : Nat) : Bool :=
  (s.cohortsOf crew).any fun c => c.lanes.any fun l => l.past && l.buf.any fun b => match b with
    | .atoms a _ _ _ _ => a / 256 == j
    | _ => false

/-- GARNET_MONITOR_VISIT (R176): segments of running crews whose age exceeds their lifetime are marked expired, but for those that a commit has
found live (R110). -/
def execGarnetMonitorVisit (core : Nat) (s : State) : Host.Outcome State Fault Refusal :=
  .next <| s.modSegs core (·.running) fun crew j g =>
    if s.ageOf crew g > s.lifeOf crew j && !s.foundLive crew j then { g with expired := true } else g

/-- GARNET_RENEW_TICK (R181): at a tick, each segment of a descheduled resident crew that was live before it keeps its age; one that was past
its lifetime already is marked, but for those that a commit has found live (R110). -/
def execGarnetRenewTick (core : Nat) (s : State) : Host.Outcome State Fault Refusal :=
  .next <| s.modSegs core (fun w => !w.running) fun crew j g =>
    let age := s.ageOf crew g
    if g.expired || age == 0 || (age - 1 > s.lifeOf crew j && s.foundLive crew j) then g
    else if age - 1 ≤ s.lifeOf crew j then { g with stamp := g.stamp + 1 } else { g with expired := true }

/-- CREW_TIMER_FIRE (R333). -/
def execCrewTimerFire (crew : Nat) (s : State) : Host.Outcome State Fault Refusal :=
  .next <|
    match s.crews.find crew with
    | none => s
    | some w =>
      if w.timer[63] && w.timer.toNat % 2 ^ 63 ≤ w.clk then
        let s := s.setCrew { w with timer := w.timer &&& 0x7fffffffffffffff }
        (s.unexited crew).foldl (init := s) fun s t => s.modThread t.id fun t => { t with timerPend := true }
      else s

/-! ## Pre-emption (R325 to R328) -/

/-- The filing of a lane that pre-emption saves: the trace's entry, or the exact instruction with what it keeps (R119, R123, R338). The lanes
of an irrevocable cohort share its name, and so come together again (R150). -/
def State.savedFiling (s : State) (c : Cohort) (l : Lane) (clk : Nat) : Filing :=
  if c.st == .trc then Filing.at' c.pc 0 s.clock
  else if !c.irr then Filing.at' c.hdr 0 s.clock
  else
    -- a lane whose part of the instruction is done skips the rest of it
    let skip := if l.past then max l.skipTo (c.offset + 1) else l.skipTo
    ⟨c.pc, l.key, s.clock, false, some { ({ c with group := c.id }.here c.pc) with drawnFull := c.drawnFull }, skip, match c.st with | .asleep t => t - clk | _ => 0⟩

/-- Stop a cohort's lanes that are short of their commit points: they are saved where they stand (R119, R326). -/
def State.stopLanes (s : State) (c : Cohort) (clk : Nat) : State :=
  (c.lanes.filter fun l => c.irr || !l.past).foldl (init := s) fun s l =>
    let f := s.savedFiling c l clk
    let s := if c.irr then s.dropLanes c.id [l.tid] else s.rollback c l.tid
    s.modThread l.tid fun t => { t with place := .filed f }

/-- Whether the work that a crew has started is done (R326): no lane past its commit point, no second execution and no answer out, no entry of the quantum
buffer, no store on its way to its home (DESIGN CHOICE, log 30: R326 does not name those), no MZERO, MLD or MST under way that is not itself waiting
(R209), no copy inside a chunk (R294). -/
def State.drained (s : State) (crew : Nat) : Bool :=
  (s.cohortsOf crew).isEmpty && !(s.eng.quantum.any fun q => q.eff.crew == crew) &&
    !(s.coh.remote.any fun (e : Nat × Remote) => e.2.due.isSome && e.2.eff.any fun (m : MemEff) => m.crew == crew) &&
    !(s.eng.tileOps.any fun o => o.crew == crew && o.started && o.waiting.isNone && !o.product) &&
    !(s.eng.copyOps.any fun o => o.at'.crew == crew && o.at'.stream.isNone && s.copyBusy o)

/-- The bytes of save area a crew takes, at least one, and those taken of a context. -/
def State.saveSize (s : State) (w : Crew) : Nat :=
  let l := s.launchOf w
  Config.saveBytes w.size ((l.map (·.regs)).getD 0) (s.segs.filter fun e => e.1 / 4096 == w.id).length ((l.map (·.tiles)).getD 0) + 1

def State.savedBytes (s : State) (ctx : Nat) : Nat :=
  ((s.crews.vals.filter fun k => k.ctx == ctx && (k.core.isNone || k.stopping == some false)).map s.saveSize).sum

/-- Whether a crew's save, beside others under way that take some bytes, would overflow its context's save area (R325). -/
def State.overflows (s : State) (w : Crew) (beside : Nat) : Bool :=
  s.savedBytes w.ctx + beside + s.saveSize w > ((s.ctxs.find w.ctx).map (·.saveSize)).getD 0

/-- What a crew's copies have fetched for a chunk still to come goes; what its tile operations have read stays read (R205). -/
def State.dropData (s : State) (crew : Nat) : State :=
  let mine := (s.eng.copyOps.filter fun o => o.at'.crew == crew && o.at'.stream.isNone).map (·.id)
  s.modEng fun g => { g with opData := g.opData.filter fun d => !mine.contains d.1 }

/-- Steps 3 and 4 of R326: the state of R327 is saved and the crew returns to its die's distributor. What its die has performed for it
becomes device-performed first, since it may come back on another die (R281); in C2 its segments are saved already (R182). -/
def State.saveCrew (s : State) (w : Crew) (core : Nat) : State :=
  let s := ((s.flushDies fun d => d.die == dieOf core).dropData w.id).restart (·.crew == w.id)
  let s := if (s.core core).power == 2 then s else s.saveSegs w.id
  let s := { s with threads := s.threads.map fun (e : Nat × Thread) =>
    if e.2.crew == w.id then
      match e.2.place with
      | .parked p => (e.1, { e.2 with place := .parked { p with pending := true } })
      | .leaving alt _ => (e.1, { e.2 with place := .filed (Filing.at' alt 0 s.clock) })
      | _ => e
    else e }
  let s := s.modEng fun g => { g with
    sideLog := g.sideLog.map fun e => if e.eff.crew == w.id then { e with core := savedCore } else e
    copyOps := g.copyOps.map fun o => if o.at'.crew == w.id then { o with engine := none } else o }
  let s := s.modCrew w.id fun k => { k with
    core := none, running := false, stopping := none, kPend := [], probe := none
    conduits := k.conduits.map fun q => { q with fifo := q.fifo.map fun e => (e.1, 0) } }
  s.modCmd fun c => { c with records := c.records ++ [⟨dieOf core, w.launch, 0, w.ordinal, 1, 1, some w.id⟩] }

/-- PREEMPT_CREW (R326): stop; drain, trying again until the started work is done; then leave the crew resident, or save and release
it. A save that would overflow the save area is not started, and the host driver is told (R325). A crew of a frozen cluster waits for the decision
(R358). Every result is written by then, so that a
later read returns it (R47). -/
def execPreemptCrew (crew : Nat) (resident : Bool) (s : State) : Host.Outcome State Fault Refusal :=
  .next <|
    match s.crews.find crew with
    | none => s
    | some w =>
      match w.core with
      | none => s
      | some core =>
        if (s.pkg.frozen.find (clusterOf core)).isSome then s.defer (.hw (.preemptCrew crew resident))
        else if !resident && w.stopping != some false && s.overflows w 0 then
          s.modPkg fun p => { p with unsaved := if p.unsaved.contains crew then p.unsaved else p.unsaved ++ [crew] }
        else
          let s := (s.setCrew { w with running := false, stopping := some resident, probe := none }).restart fun o => o.crew == crew && o.product
          let s := (s.cohortsOf crew).foldl (init := s) fun s c =>
            if c.waits.isEmpty && c.rexec.isEmpty then s.stopLanes c w.clk else s
          let s := if (s.cohortsOf crew).isEmpty then s.flushQuantum core else s
          if !s.drained crew then s
          else if resident then (s.dropData crew).modCrew crew fun k => { k with kPend := [] }
            else match s.crews.find crew with
              | some w => s.saveCrew w core
              | none => s

/-! ## Restore (R329, R340) -/

/-- Threads with the filings they return to, in arrival order. -/
def insertByArrival (x : Thread × Filing) : List (Thread × Filing) → List (Thread × Filing)
  | [] => [x]
  | y :: ys => if x.2.arrival < y.2.arrival then x :: y :: ys else y :: insertByArrival x ys

/-- CREW_RESTORE (R329): on a core that can admit the crew, everything saved returns, once the core's side log and queue have room for the crew's entries
(R203, R233); the units that the entries wait on are held by the new core's complex (R228). DESIGN CHOICE, log 49, twice: threads come back with the clocks
at which they arrived, so that the time saved counts towards bin.age and the limit of R99, of which R74 and R77 say nothing; and the crew's operations
stand where they stood among those of other crews (R209 orders its own only). -/
def execCrewRestore (crew core : Nat) (s : State) : Host.Outcome State Fault Refusal :=
  .next <|
    match s.crews.find crew, s.cmd.records.find? (·.resumed == some crew) with
    | some w, some r =>
      if w.core.isSome || !s.admits core r then s
      else
        let s := s.modCmd fun c => { c with records := c.records.filter (· != r) }
        let ts := s.threadsOf crew
        let s := ts.foldl (init := s) fun s t => s.setThread { t with row := 128 }
        let s := s.setCrew { w with core := some core, running := true, stopping := none }
        let s := s.giveRows core (s.threadsOf crew)
        let s := s.restoreSegs crew
        let move (a : Attr) : Attr := { a with core := core }
        let s := s.modEng fun g => { g with
          sideLog := g.sideLog.map fun e => if e.eff.crew == crew then { e with core := core } else e
          tileOps := g.tileOps.map fun (o : TileOp) => if o.crew == crew then { o with at' := move o.at' } else o
          copyOps := g.copyOps.map fun (o : CopyOp) =>
            if o.at'.crew == crew then { o with at' := move o.at', die := dieOf core } else o }
        let s := ((s.eng.sideLog.filter fun e => e.eff.crew == crew).filterMap (·.unit)).eraseDups.foldl (init := s) fun s u =>
          if s.readStalled (tcAgent core) 0 (32 * u) 32 then s.post (.hw (.rdtok (tcAgent core) u)) else s.grantSec u (tcAgent core)
        let back := (s.threadsOf crew).foldl (init := ([] : List (Thread × Filing))) fun l t => match t.place with
          | .filed f => insertByArrival (t, f) l
          | .parked p => insertByArrival (t, p.filing) l
          | _ => l
        back.foldl (init := s) fun s e => match e.1.place with
          | .parked p =>
            let s := s.boundary e.1.id e.2 p.traceId p.offset
            if p.pending && p.why == .page then s.modThread e.1.id fun t => { t with pendRec := some (p.core, p.page) } else s
          | _ => s.file e.1.id e.2
    | _, _ => s

/-- Whether some core that a launch permits can admit a saved crew of it, waking first where it is in C1 or C2 (R381). -/
def State.anyRoom (s : State) (l : Launch) (crew : Nat) : Bool :=
  (List.range 288).any fun n => s.serves n l && s.fits n l && s.roomFor n crew

/-- SAVED_CREW_RESCUE (R340): the lowest unexited crew of its launch, saved and with no core to return to, takes the place of the
highest resident one. -/
def execSavedCrewRescue (crew : Nat) (s : State) : Host.Outcome State Fault Refusal :=
  .next <|
    match s.crews.find crew with
    | none => s
    | some w =>
      match s.launchOf w with
      | none => s
      | some l =>
        let peers := s.crews.vals.filter fun k => k.launch == w.launch
        let lowest := (peers.all fun k => w.crewId.toNat ≤ k.crewId.toNat || (s.unexited k.id).isEmpty) &&
          s.cmd.records.all fun r => r.slot != w.launch || r.resumed.isSome || w.ordinal < r.first
        if w.core.isSome || !lowest || s.anyRoom l crew then s
        else
          let cands := peers.filter fun k => k.core.any fun n => s.serves n l
          match firstBy (fun (a b : Crew) => a.crewId.toNat > b.crewId.toNat) cands with
          | some k => s.urge (.hw (.preemptCrew k.id false))
          | none => s

end Sys2Proof.Machine
end

