-- ==== Sys2Proof/Machine/Crown.lean ====
section
/-! DEFINITION. The Crown's decision on damage (R357, R358, R361), the loss of a die (R363, R364), the host's accesses and bias
flips (R240, R254, R376, R377), and the Tilpen ports and peers (R378, R379). -/

namespace Sys2Proof.Machine

/-! ## Starting a launch again (R307, R308, R361) -/

/-- Store a launch's crew count in its join counter, with release at system scope. -/
def State.storeJoin (s : State) (l : Launch) : State :=
  if l.joinSet then s
  else match s.cpWrite l.ctx l.stream l.cmd l.join (bytesOf 4 l.crews) with
    | (.val _, s) => s.modLaunch l.slot fun l => { l with joinSet := true }
    | (.later, s) => s

/-- What the crews of a launch have under way in device memory is discarded (R361): what a die has performed is performed at its home, and no more
of the rest lands behind the copies (DEDUCED, log 35). -/
def State.dropWrites (s : State) (mine : Nat → Bool) : State :=
  let ours (x : Option (Nat × MemEff)) : Bool := x.any fun x => mine x.2.crew
  let s := s.flushDies fun d => ours d.eff
  (s.modEng fun g => { g with quantum := g.quantum.filter fun q => !mine q.eff.crew }).modCoh fun c => { c with
    remote := c.remote.filter fun e => !(e.2.pa < hbmEnd && e.2.eff.any fun f => mine f.crew)
    halves := c.halves.filter fun h => !ours h.eff
    dieWrites := c.dieWrites.filter fun d => !ours d.eff }

/-- Replay a launch (R361): its crews stop and what they had under way is discarded, its copies are put back but for the retired page,
whose leaf takes the copy, its join counter is stored again, and the launch starts again, unprotected. -/
def State.replay (s : State) (x : Ctx) (l : Launch) (pg : Nat) : State :=
  let mine (c : Nat) : Bool := (s.crews.find c).any (·.launch == l.slot)
  let s := ((s.dropWrites mine).dropCrews false fun w => w.launch == l.slot).dropWrites mine
  let s := s.modCmd fun c => { c with records := c.records.filter (·.slot != l.slot) }
  let s := l.snapList.foldl (init := s) fun s e =>
    if e.2.1 / 2 ^ 16 == pg then
      match (s.leaves x.num).find? fun f => f.va == e.1 * 2 ^ 16 && f.level == 5 with
      | some f => (s.storeLeaf x.num f (withPage f.pte e.2.2)).modCtx x.num fun x => { x with poolGone := x.poolGone ++ [e.2.2] }
      | none => s
    else s.copyPage x.num e.2.2 e.2.1
  let s := s.clearCow x l.slot
  let s := s.modLaunch l.slot fun l => { l with
    phase := .waiting, decremented := 0, shielded := false, replayed := true, joinSet := false, snapList := [] }
  match s.cmd.launches.find l.slot with
  | some l => (s.storeJoin l).post (.hw (.launchWaitRelease l.slot))
  | none => s

/-! ## What a flip to the host waits for (R254) -/

/-- Whether the home's persistent requests for a page cannot be served yet: a commit holds bytes of it (R122, R248), a request stands before them at
some unit (R347), or a translation cache has to wait with its token (R229). -/
def State.flipWaits (s : State) (page : Nat) : Bool :=
  s.heldBy 0 (page * 2 ^ 16) 65536 || s.undecided (page * 2 ^ 16) 65536 ||
    (s.coh.units.any fun e => e.1 * 32 / 2 ^ 16 == page && (e.2.req.isSome || !e.2.pers.isEmpty)) ||
    s.late ((s.coh.units.filter fun e => e.1 * 32 / 2 ^ 16 == page).map (·.1))

/-! ## The decision (R357) -/

/-- Retire a page (R361): it joins the list and is reported to the host driver. -/
def State.retirePage (s : State) (pg : Nat) : State :=
  if s.pkg.retireList.contains pg then s
  else (s.modPkg fun p => { p with retireList := p.retireList ++ [pg] }).setEvent 2

/-- A frozen cluster resumes after its last decision (R358): every crew of it that is not stopped otherwise; in C2 it waits for the cluster (R182). -/
def State.unfreeze (s : State) (cl : Nat) : State :=
  let n := s.pkg.frozen.get 0 cl
  if n > 1 then s.modPkg fun p => { p with frozen := p.frozen.insert cl (n - 1) }
  else
    let s := s.modPkg fun p => { p with frozen := p.frozen.erase cl }
    { s with crews := s.crews.map fun (e : Nat × Crew) =>
        if (e.2.core.map clusterOf) == some cl && e.2.stopping.isNone && e.2.core.all fun n => (s.core n).power < 2 then
          (e.1, { e.2 with running := true }) else e }

/-- The PTE unit that a context's page waits on now, on a core: of a page that may be read, or else executed (R366). -/
def State.unitOf (s : State) (core ctx page : Nat) : Option Nat :=
  let unit (acc : Acc) : Option Nat := match s.walk (tcAgent core) (s.regsOf ctx).ptroot (s.privOf ctx) (page * 2 ^ 16) acc with
    | .ok _ _ _ us => us.head?
    | .page u | .held u | .cow u => some u
    | _ => none
  (unit .read).or (unit .exec)

/-- Whether an effect of a thread at an address is still to be performed: in its lane's buffer, in a side log, or on its way. -/
def State.effDue (s : State) (tid va : Nat) : Bool :=
  (s.logOf tid).any (·.eff.va == va) || (s.coh.remote.any fun e => e.2.thread == tid && e.2.eff.any (·.va == va)) ||
    s.cohorts.vals.any fun c => c.lanes.any fun l => l.tid == tid && l.past && l.buf.any fun b => match b with
      | .mem e _ _ => e.va == va
      | _ => false

/-- A consumer that survives (R357, R366): its thread is parked as on a recoverable PAGE, with a record of the report's cause. One whose effect met the
damage behind its instruction has the record, and its effect waits where it is. -/
def State.parkConsumer (s : State) (q : Report) : State :=
  let r := q.record
  let page := pageOf r.addr
  let record (s : State) : State := s.report { r with recov := true, term := false }
  match s.threads.find q.thread with
  | none => s
  | some t => match t.place with
    | .parked p =>
      if p.why == .retired && p.page == page then
        record (s.setThread { t with place := .parked { p with why := .page, unit := s.unitOf r.core r.ctx page } })
      else if s.effDue t.id r.addr then record s else s
    | _ => if s.effDue t.id r.addr then record s else s

/-- What waited for a decision on a sector goes on, and meets the retired page: operations and streams (R208, R294), the threads that
stopped with a reported one, whose record is theirs too (R266), and side-log entries, whose replay meets it (R235). -/
def State.resumeDecided (s : State) (sec : Nat) : State :=
  let woken (w : Option PageWait) : Option PageWait := if w.any (fun w => w.why == .retired && w.unit == some sec) then none else w
  let s := s.modEng fun g => { g with
    tileOps := g.tileOps.map fun (o : TileOp) => { o with waiting := woken o.waiting }
    copyOps := g.copyOps.map fun (o : CopyOp) => { o with waiting := woken o.waiting }
    collOps := g.collOps.map fun (o : CollOp) => { o with waiting := woken o.waiting } }
  let retired (ctx page : Nat) : Bool := match s.walk cpAgent (s.regsOf ctx).ptroot (s.privOf ctx) (page * 2 ^ 16) .read with
    | .ok k _ _ _ => s.pkg.retireList.contains (k / 2 ^ 16)
    | _ => true
  let go (e : Nat × Stream) : Nat × Stream :=
    match s.streamDesc e.1 with
    | some d => (e.1, { e.2 with pages := e.2.pages.filter fun p => !retired d.context p })
    | none => e
  let s := s.threads.vals.foldl (init := s) fun s t => match t.place with
    | .parked p =>
      if p.why == .retired && p.unit == some sec then
        s.setThread { t with place := .parked { p with why := .page, unit := s.unitOf p.core (s.ctxOf t.crew) p.page } }
      else s
    | _ => s
  let stopped (e : SideEntry) : Bool := e.core != savedCore &&
    match s.reachOf (s.walk (tcAgent e.core) (s.regsOf e.eff.ctx).ptroot (s.privOf e.eff.ctx) e.eff.va .write) with
    | .page _ => true
    | _ => false
  let replays := ((s.eng.sideLog.filter stopped).map fun e => Turn.hw (.sideLogReplay e.core e.eff.ctx (pageOf e.eff.va))).eraseDups
  (s.modCmd fun c => { c with streams := c.streams.map go }).postAll replays

/-- The owner of a report that still exists (R357). -/
def State.ownerOf (s : State) (r : Report) : Option Ctx := (r.owner.bind s.ctxs.find).filter (·.alive)

/-- The launch of a context that may be replayed for a page (R357). -/
def State.replayable (s : State) (ctx pg : Nat) : Option Launch :=
  s.cmd.launches.vals.find? fun l => l.ctx == ctx && l.phase == .running && l.snapList.any (fun e => e.2.1 / 2 ^ 16 == pg) &&
    l.shielded && !l.replayed && !l.depended

/-- What the Crown touches when it replays a launch (R361): its pages, their copies, and the context's tables. -/
def State.replayAt (s : State) (x : Ctx) (l : Launch) : List Nat :=
  l.snapList.flatMap (fun e => [e.2.1, e.2.2]) ++ s.tablesOf x.num

/-- The pages that a decision has to wait for: those that a replay touches, or the terminating record. -/
def State.decideAt (s : State) (r : Report) : List Nat :=
  let pg := r.sector * 32 / 2 ^ 16
  match s.ownerOf r with
  | some x => match (if r.sector * 32 < hbmEnd then s.replayable x.num pg else none) with
    | some l => s.replayAt x l
    | none => s.recordAt x
  | none => []

/-- Whether the Crown can use some pages for a decision: as `State.crownReady`, but for one whose flip to the host has not begun to gather, since
that may be waiting for the decision. -/
def State.decideReady (s : State) (as : List Nat) : Bool :=
  as.all fun a => !s.remoteKey a && (!s.flipping a || s.flipWaits (a / 2 ^ 16))

/-- CROWN_DECIDE (R357, R358): one decision for every report of the sector; a report already decided adds nothing. Decisions are made in the order of
their reports, and one waits until the pages that it needs are the device's (R240, log 38). -/
def execCrownDecide (r : Report) (s : State) : Host.Outcome State Fault Refusal :=
  .next <|
    let same := s.pkg.reports.filter (·.sector == r.sector)
    if !same.contains r then s
    else if !s.decideReady (s.decideAt r) then (s.takeBack (s.decideAt r)).defer (.hw (.crownDecide r))
    else if s.pkg.reports.head?.any (·.sector != r.sector) then s.defer (.hw (.crownDecide r))
    else
      let pg := r.sector * 32 / 2 ^ 16
      let inHbm := r.sector * 32 < hbmEnd
      let s := s.modPkg fun p => { p with reports := p.reports.filter (·.sector != r.sector) }
      let s := match s.ownerOf r with
        | none => s
        | some x => match (if inHbm then s.replayable x.num pg else none) with
          | some l => s.replay x l pg
          | none => s.recordNow { r.record with ctx := x.num, term := true, recov := false }
      let s := if inHbm then s.retirePage pg else s
      let s := if r.finder == .l2 then s.quarantineWay (r.sector * 32) else s
      let s := (same.filterMap (·.cluster)).foldl State.unfreeze s
      let s := (same.filter (·.consumer.isSome)).foldl State.parkConsumer s
      s.resumeDecided r.sector

/-! ## The loss of a die (R363, R364) -/

/-- Whether a context has a crew, an operation, a record or a page on a die (R363). -/
def State.usesDie (s : State) (x : Ctx) (die : Nat) : Bool :=
  (s.crews.vals.any fun w => w.ctx == x.num && w.core.any fun n => dieOf n == die) ||
  (s.eng.tileOps.any fun o => o.at'.ctx == x.num && dieOf o.at'.core == die) ||
  (s.eng.copyOps.any fun o => o.at'.ctx == x.num && o.die == die) ||
  (s.cmd.records.any fun r => r.die == die && (s.cmd.launches.find r.slot).any fun l => l.ctx == x.num) ||
  (s.leaves x.num).any fun l => (bits l.pte 12 4 == 0 || bits l.pte 12 4 == 3) && (l.level < 5 || homeDie l.pa == die)

/-- The census of one unit (R364): what the failed die held or had in flight is created again at the home when the owner token survives; else
the unit is poisoned. Requests of the die's agents go. -/
def State.census (s : State) (die sec : Nat) : State :=
  let u := s.unit sec
  let ours (a : Nat) : Bool := !onDie die a
  let held : Map Nat := u.held.filter fun h => ours h.1
  let evicts := u.evicts.filter fun e => ours e.1
  let req := u.req.filter fun r => ours r.agent
  let lost := u.owner.any (onDie die) || u.evicts.any fun e => onDie die e.1 && e.2.2
  let f : Filter := match u.filter with
    | .pointers l => .pointers (l.filter ours)
    | f => f
  let there := (held.map (·.2)).sum + (evicts.map (·.2.1)).sum + (u.flight.map (·.1)).sum + (req.map (·.tokens)).getD 0
  let s := s.setUnit sec { u with
    home := 1024 - there, held := held, evicts := evicts, req := req, queue := u.queue.filter (fun r => ours r.agent)
    pers := u.pers.filter ours, owner := if lost then none else u.owner, filter := f }
  let s := if lost then s.modCoh fun c => { c with poison := c.poison.insert sec .hbm } else s
  s.serveQueue sec (s.unit sec).queue.length

/-- DIE_LOST (R310, R363, R364): contexts that use the die are terminated, the census runs, dirty blocks homed on the die are dropped
with their contexts, and the device goes on without it. -/
def execDieLost (die : Nat) (s : State) : Host.Outcome State Fault Refusal :=
  .next <|
    if s.pkg.deadDies.contains die || die ≥ 4 then s
    else
      let stuck := (s.coh.dieWrites.filter fun d => d.die != die && homeDie d.pa == die).filterMap fun d => match d.writer with
        | .ctx n => some n | .external => none
      let victims := (s.ctxs.vals.filter fun x => x.alive && (s.usesDie x die || stuck.contains x.num)).map (·.num)
      let s := s.modCoh fun c => { c with dieWrites := c.dieWrites.filter fun d => d.die != die && homeDie d.pa != die }
      let s := victims.foldl State.endContext s
      let s := (s.coh.units.map (·.1)).foldl (fun s sec => if secHome sec == die then s else s.census die sec) s
      let s := s.modCoh fun c => { c with
        units := c.units.filter fun e => secHome e.1 != die
        blocks := c.blocks.filter fun e => homeDie (e.1 * 512) != die
        remote := c.remote.filter fun e => !(e.2.due.isSome && (agentCore e.2.agent).any fun n => dieOf n == die)
        proxyFilters := c.proxyFilters.filter fun e => e.1 % 4 != die && secHome (e.1 / 4) != die
        tlb := c.tlb.filter fun e => !onDie die e.agent
        lastPage := c.lastPage.filter fun e => !onDie die e.2.agent }
      let s := s.modPkg fun p => { p with deadDies := p.deadDies ++ [die], status := p.status &&& ~~~(BitVec.twoPow 32 (16 + die)) }
      (s.modCmd fun c => { c with master := true }).setEvent 0

/-! ## Answers from the host and from peers (R254, R376, R379) -/

/-- A byte of a page reached through the host, as the device can know it. -/
def State.hostByte (s : State) (a : Nat) : Byte :=
  match s.coh.hostHeld.find (sectorOf a) with
  | some bs => bs.getD (a % 32) 0
  | none => s.mem.read a

/-- The device's copies of host data take a completed write of the device, and are dirty from then on (R376). -/
def State.patchHeld (s : State) (a : Nat) (bs : List Byte) : State :=
  let put (m : Map (List Byte)) (i : Nat) : Map (List Byte) := m.modify (sectorOf (a + i)) fun l => l.set ((a + i) % 32) (bs.getD i 0)
  let secs := (sectorsOf a bs.length).filter fun k => (s.coh.hostHeld.find k).isSome && !s.coh.hostDirty.contains k
  s.modCoh fun c => { c with hostHeld := (List.range bs.length).foldl put c.hostHeld, hostDirty := c.hostDirty ++ secs }

/-- A write that the host or a peer has completed (R237, R246, R376, R379). A page in host bias is device memory, into which it goes, counted
where the page is watched. -/
def State.completed (s : State) (r : Remote) (bytes : List Byte) : State :=
  match r.eff with
  | none => s
  | some e =>
    if e.kind == .nothing then s
    else
      let old := if r.reads then bytes.take r.size else (List.range r.size).map fun i => s.hostByte (r.pa + i)
      match e.update r.cmp old with
      | (.nothing, _) => s
      | (_, new) =>
        let w := match r.dest with | .back _ _ => Writer.external | _ => .ctx e.ctx
        let s := if r.pa < hbmEnd then s.land r.pa new w r.watch else s.wakeAt r.pa r.size
        (if r.peer then s else s.patchHeld r.pa new).noteWrite r.thread r.pa r.size

/-- Data that the host has answered with are held in L2 (R254, R376): of a host line the sectors that its unit covers. -/
def State.holdHost (s : State) (r : Remote) (bytes : List Byte) : State :=
  if r.peer || !r.reads || r.size % 32 != 0 || !s.viaHost r.pa then s
  else
    let first := if r.lined then r.pa - r.pa % 64 else r.pa
    let secs := if r.lined then (s.unitSecs (sectorOf r.pa)).filter fun k => k / 2 == sectorOf r.pa / 2 else sectorsOf r.pa r.size
    let put (m : Map (List Byte)) (sec : Nat) : Map (List Byte) := m.insert sec ((bytes.drop (32 * sec - first)).take 32)
    (s.modCoh fun c => { c with
      hostHeld := secs.foldl put c.hostHeld, hostDirty := c.hostDirty.filter fun k => !secs.contains k }).trimL2 (sliceOf r.pa) (setOf r.pa)

/-- A lane receives its bytes of an answer (R105, R257). -/
def State.bindLane (s : State) (r : Remote) (d : Nat) (w : Width) (bytes : List Byte) (lane : Nat × Nat) : State :=
  match s.cohorts.find r.cohort with
  | none => s
  | some c =>
    match c.laneOf lane.1 with
    | none => s
    | some l =>
      let buf := if c.irr || r.eff.any (·.kind != .nothing) then [] else l.buf
      let below (a : Nat) : Byte := bytes.getD (lane.2 % 32 - r.pa % 32 + (a - lane.2)) 0
      (s.noteRead lane.1 r.pa r.size).putLoad c.id lane.1 (BitVec.ofNat 8 d) w ((List.range (widthBytes w)).map fun i => fwdByte below buf.reverse (lane.2 + i))

/-- What an access's answer does: the write is complete, the L2 holds the data, and the bytes go where they are awaited, of a host line the half that
is addressed. -/
def State.answer (s : State) (id : Nat) (r : Remote) (bytes : List Byte) : State :=
  let s := s.modCoh fun c => { c with remote := c.remote.erase id }
  let s := (s.completed r bytes).holdHost r bytes
  let bytes := if r.lined then bytes.drop (r.pa % 64) else bytes
  let s := s.modCohort r.cohort fun c => { c with waits := c.waits.filter (· != id) }
  match r.dest with
  | .write | .fill => s
  | .back port tag => s.sendFlit port 0 (.response tag (if r.reads then bytes.take r.size else []))
  | .op op va => s.putFetched op ((List.range r.size).map fun i => (va + i, bytes.getD i 0))
  | .regs lanes d w => lanes.foldl (fun s l => s.bindLane r d w bytes l) s

/-- An answer to an access of a kind. One that is not awaited, or that brings too few bytes for a read, is ignored, as is one to an access that
has lost its translation and is made again; one waits while its page is under a flip (R254), another thread's commit holds its bytes (R122), or
an earlier write stands before it. -/
def State.answered (s : State) (peer : Bool) (id : Nat) (bytes : List Byte) (again : Turn) : State :=
  match s.coh.remote.find id with
  | none => s
  | some r =>
    if r.peer != peer || r.gone || r.due.isSome || (r.reads && bytes.length < (if r.lined then 64 else r.size)) then s
    else if s.stalled r.thread r.pa r.size || s.behind id r then s.defer again
    else s.answer id r bytes

/-- HOST_CACHE_RESPONSE (R246, R376): the host answers a CXL.cache request. -/
def execHostCacheResponse (id : Nat) (bytes : List Byte) (s : State) : Host.Outcome State Fault Refusal :=
  .next (s.answered false id bytes (.hw (.hostCacheResponse id bytes)))

/-- PEER_ACCESS_RESPONSE (R379): a load is bound, and a write is system-performed, as the peer's response arrives. -/
def execPeerAccessResponse (id : Nat) (bytes : List Byte) (s : State) : Host.Outcome State Fault Refusal :=
  .next (s.answered true id bytes (.hw (.peerAccessResponse id bytes)))

/-- The key of the line that a host snoop names: a host line, or from 2^46 on a line of the device's own memory in host bias (R254). -/
def snoopKey (line : Nat) : Nat := if line < 2 ^ 46 then hostKey + 64 * line else 64 * (line - 2 ^ 46)

/-- HOST_SNOOP (R376): the unit's tokens come from the device's holders before the snoop of a line is answered, with the data where they are dirty;
the L2's copy goes with what was made from it, and what waits on the line looks again. -/
def execHostSnoop (line : Nat) (s : State) : Host.Outcome State Fault Refusal :=
  .next <|
    let a := snoopKey line
    let secs := sectorsOf a 64
    if s.late secs then s.defer (.hw (.hostSnoop line))
    else
      let dirty := secs.any s.coh.hostDirty.contains
      let data := (List.range 64).map fun i => s.hostByte (a + i)
      let s := s.modPkg fun p => { p with snoops := if dirty then p.snoops.insert line data else p.snoops.erase line }
      let s := secs.foldl (init := s) fun s sec =>
        let s := (s.complete [sec]).dropHost sec
        if a < hbmEnd then s
        else
          let s := s.gather sec hostAgent
          s.setUnit sec { s.unit sec with filter := .pointers [] }
      (s.failResv a 64).wakeAt a 64

/-- Whether the device is ready (R373). -/
def State.ready (s : State) : Bool := s.pkg.status[31]

/-- A write that enters from the host or a peer (R237, R243, R353, R354, R361): counted on a watched page; one that meets a retired page
or whose merge check finds damage writes nothing. Copies that the L2 holds of a page in host bias go first (R254). -/
def State.outsideWrite (s : State) (a : Nat) (bs : List Byte) : State :=
  if a + bs.length > hbmEnd || s.pkg.retireList.contains (a / 2 ^ 16) then s
  else
    let s := (sectorsOf a bs.length).foldl State.dropHost s
    match s.mergeCheck a bs.length with
    | (some (sec, f), s) => s.detect sec f
    | (none, s) => s.perform a bs .external (s.watched (a / 2 ^ 16))

/-- An atomic of a peer at its home (R379): the old value, and the state with the new one. -/
def State.outsideAtom (s : State) (a : Nat) (op : Option AtomOp) (cls : BitVec 2) (cmp bs : List Byte) : List Byte × State :=
  let n := bs.length
  if a + n > hbmEnd || s.pkg.retireList.contains (a / 2 ^ 16) then ([], s)
  else match s.mergeCheck a n with
    | (some (sec, f), s) => ([], s.detect sec f)
    | (none, s) =>
      let s := s.firstInLine a n
      let old := s.mem.readBytes a n
      let watch := s.watched (a / 2 ^ 16)
      let e : MemEff := ⟨0, 0, 0, 0, 0, a, bs, match op with | some o => .atom o cls | none => .store, .rlx, .sys, .sync⟩
      if cls = 3 && op.isSome then let (req, s) := s.newReq; (old, s.performPair req 0 a (natOf bs) .external none none watch)
      else match e.update cmp old with
        | (.nothing, _) => (old, s)
        | (_, new) => (old, s.land a new .external watch)

/-- A read at device scope by an agent that keeps no token (R379): the home has one of each unit. -/
def State.homeToken (s : State) (sec : Nat) : State :=
  (s.unitSecs sec).foldl (init := s) fun s k => if (s.unit k).home = 0 then (s.firstInLine (32 * k) 32).gather k hostAgent else s

/-- A read that leaves the device (R353 to R355, R377): it takes the tokens of a device-scope read, and damage that it finds poisons; dirty
damage starts a decision. -/
def State.outsideRead (s : State) (a n : Nat) (agent : Option Nat) : State :=
  if a + n > hbmEnd || s.pkg.retireList.contains (a / 2 ^ 16) then s
  else
    let s := s.flushDies fun d => overlap a n d.pa d.bytes.length
    let s := match s.mergeCheck a n with
      | (some (sec, .l2), s) => s.detect sec .l2
      | (_, s) => s
    (sectorsOf a n).foldl (fun s sec => match agent with | some g => s.grant sec g | none => s.homeToken sec) (s.readHome a n)

/-- HOST_MEM_ACCESS (R240, R377, R381, R383): retried before the device is ready, until the package has left C4, while the page is under a bias flip,
and while what stands before it at the home does (R122, R347). -/
def execHostMemAccess (r : HostReq) (s : State) : Host.Outcome State Fault Refusal :=
  .next <|
    let a := match r with | .read a _ => a | .write a _ => a
    let waits := match r with
      | .read a n => s.readStalled hostAgent 0 a n
      | .write a bs => s.stalled 0 a bs.length
    if !s.ready || s.pkg.asleep || s.flipping a || waits then s.defer (.hw (.hostMemAccess r))
    else match r with
      | .read a n => s.outsideRead a n (some hostAgent)
      | .write a bs => s.outsideWrite a bs

/-! ## Bias flips (R240, R254) -/

/-- What a peer asked for, of which the host has been asked. -/
def Remote.peerBody (r : Remote) (tag : Nat) : FlitBody :=
  match r.eff.map fun e => (e.kind, e.bytes) with
  | some (EffKind.atom op cls, bs) => .atomic r.pa (some op) cls [] bs tag
  | some (EffKind.store, bs) => if r.cmp.isEmpty then .request true r.pa bs tag else .atomic r.pa none 0 r.cmp bs tag
  | _ => .request false r.pa (List.replicate r.size 0) tag

/-- Accesses that were sent under the old bias are made again under the new one (R240). -/
def State.resend (s : State) (page : Nat) : State :=
  s.coh.remote.foldl (init := s) fun s (m : Nat × Remote) =>
    if m.2.pa ≥ hbmEnd || m.2.pa / 2 ^ 16 != page then s
    else match m.2.dest with
      | .regs _ _ _ | .write =>
        (s.modCoh fun c => { c with remote := c.remote.insert m.1 { m.2 with gone := true } }).post (.reissue m.1)
      | .back port tag =>
        let s := s.modCoh fun c => { c with remote := c.remote.erase m.1 }
        (s.modPkg fun p => { p with ports := p.ports.modify port fun q => { q with inbox := m.2.peerBody tag :: q.inbox } }).post (.serve port)
      | _ => s.modCoh fun c => { c with remote := c.remote.erase m.1 }

/-- A flip is over: host data of the page leave the L2, the bit changes, and the stream's command, when this was its last page, is complete. -/
def State.endFlip (s : State) (page : Nat) (toHost : Bool) : State :=
  let f := s.coh.flips.find? (·.page == page)
  let held := (s.coh.hostHeld.map (·.1)).filter fun sec => sec * 32 / 2 ^ 16 == page
  let s := held.foldl State.dropHost s
  let s := s.modCoh fun c => { c with flips := c.flips.filter (·.page != page), bias := c.bias.set false page toHost }
  let s := s.resend page
  match f.bind (·.stream) with
  | some n => if s.coh.flips.any (·.stream == some n) then s else s.finishCmd n
  | none => s

/-- A page's unit comes home for the host (R254): what the device has begun there is complete, its tokens are gathered, and the requests that wait
for it are made again under the new bias. -/
def State.returnUnit (s : State) (sec : Nat) : State :=
  let s := ((s.complete [sec]).flushHalves fun h => sectorOf h.pa == sec).gatherSec hostAgent sec
  s.modCoh fun c => { c with units := c.units.erase sec }

/-- BIAS_FLIP_TO_HOST: once the home's persistent requests are served, every token of the page comes home in ascending address, dirty blocks are
written back, and the bit is set. The page is under the flip from its first step on. -/
def execBiasFlipToHost (page : Nat) (s : State) : Host.Outcome State Fault Refusal :=
  .next <|
    if s.flipWaits page then
      (s.modCoh fun c => if c.flips.any (·.page == page) then c else { c with flips := c.flips ++ [⟨page, true, [], none⟩] }).defer
        (.hw (.biasFlipToHost page))
    else
      let s := s.flushDies fun d => d.pa / 2 ^ 16 == page
      let s := (sectorsOf (page * 2 ^ 16) 65536).foldl State.returnUnit s
      let dirty := (s.coh.blocks.filter fun e => e.1 / 128 == page && e.2.dirty).map (·.1)
      let s := dirty.foldl State.writeBack s
      let s := s.modCoh fun c => { c with blocks := c.blocks.filter fun e => e.1 / 128 != page }
      s.endFlip page true

/-- BIAS_FLIP_TO_DEVICE: a back-invalidate snoop goes out for each of the page's 1024 lines; accesses wait for the answers. -/
def execBiasFlipToDevice (page : Nat) (s : State) : Host.Outcome State Fault Refusal :=
  .next <| s.modCoh fun c =>
    match c.flips.find? (·.page == page) with
    | some _ => c
    | none => { c with flips := c.flips ++ [⟨page, false, [], none⟩] }

/-- BACK_INVALIDATE_RESPONSE (R254): the answer of one line, with its write-back when it brings data; after the last the bit is cleared. -/
def execBackInvalidateResponse (line : Nat) (bytes : List Byte) (s : State) : Host.Outcome State Fault Refusal :=
  .next <|
    let page := line / 1024
    match s.coh.flips.find? fun f => f.page == page && !f.toHost with
    | none => s
    | some f =>
      if f.lines.contains line then s
      else
        let s := if bytes.length == 64 then s.outsideWrite (64 * line) bytes else s
        let lines := f.lines ++ [line]
        let s := s.modCoh fun c => { c with flips := c.flips.map fun (g : Flip) => if g.page == page then { g with lines := lines } else g }
        if lines.length ≥ 1024 then s.endFlip page false else s

/-! ## Tilpen ports and peers (R378, R379) -/

/-- A PROT against whom an access that no peer can serve any more was issued (R379). -/
def State.failRemote (s : State) (id : Nat) (r : Remote) : State :=
  let s := s.modCoh fun c => { c with remote := c.remote.erase id }
  match r.eff, r.dest with
  | some e, d =>
    let core := ((s.crews.find e.crew).bind (·.core)).getD 0
    let fail (s : State) (l : Nat × Nat) : State :=
      let rec' := match s.threads.find l.1 with
        | some t => s.recordOf .prot t core e.traceId e.offset l.2
        | none => s.effRec id r e core .prot
      s.terminateBy { rec' with ctx := e.ctx }
    (match d with | .regs lanes _ _ => lanes | _ => [(e.thread, e.va)]).foldl fail s
  | none, .op id va =>
    match s.eng.tileOps.find? (·.id == id), s.copyOp id, s.collOp id with
    | some o, _, _ => s.faultOp o.at' .prot va
    | _, some o, _ => s.faultCopy o .prot va
    | _, _, some o => s.faultColl o .prot va
    | _, _, _ =>
      match s.cohorts.find id with
      | some c => s.raiseIn c c.lanes .prot c.offset fun _ => va
      | none =>
        let n := id - cpId 0
        match s.streamDesc n, (s.stream n).cmd with
        | some d, some k => if id ≥ cpId 0 then s.stopStream d.context n k .prot va else s
        | _, _ => s
  | none, _ => s

/-- Take a port down (R378): the peers behind it are lost, and with them their communicators, the accesses that wait on them and the
collectives under way. -/
def State.portDown (s : State) (port : Nat) : State :=
  let s := s.modPkg fun p => { p with
    ports := p.ports.set port { (p.ports.getD port Port.reset) with up := false, fails := 0 }
    peers := p.peers.map fun (e : Nat × Peer) => if e.2.port == port then (e.1, { e.2 with lost := true }) else e }
  let lost (i : Nat) : Bool := (s.pkg.peers.find i).any (·.lost)
  let loseComm (k : Nat × Comm) : Nat × Comm := if k.2.peers.any lost then (k.1, { k.2 with lost := true }) else k
  let s := { s with ctxs := s.ctxs.map fun (e : Nat × Ctx) => (e.1, { e.2 with comms := e.2.comms.map loseComm }) }
  let s := s.setEvent 1
  let out := s.coh.remote.filter fun e => e.2.peer && lost ((e.2.pa - peerKey) / 2 ^ 44)
  let s := out.foldl (fun s e => s.failRemote e.1 e.2) s
  (s.eng.collOps.filter fun o => (s.commOf o).any (·.lost)).foldl (fun s o => s.faultColl o .prot o.dVa) s

/-- TILPEN_PORT_DOWN. -/
def execTilpenPortDown (port : Nat) (s : State) : Host.Outcome State Fault Refusal :=
  .next (if port < 16 then s.portDown port else s)

/-- The host is asked for the sectors of a peer's read of a page in host bias that the L2 does not hold (R254). -/
def State.askFor (s : State) (a n : Nat) : State :=
  ((sectorsOf a n).filter fun k => (s.coh.hostHeld.find k).isNone).foldl (fun s k => s.askHost (proxyAgent (homeDie a)) k) s

/-- Whether what a peer asks for waits at its home (R122, R240, R347), or in C4 (R381), or, read in host bias, for the host's data (R254). -/
def State.bodyWaits (s : State) : FlitBody → Bool
  | .request true a bs _ | .atomic a _ _ _ bs _ => s.pkg.asleep || s.flipping a || s.stalled 0 a bs.length
  | .request false a bs _ => s.pkg.asleep || s.flipping a || s.readStalled hostAgent 0 a bs.length ||
      (s.viaHost a && (sectorsOf a bs.length).any fun k => (s.coh.hostHeld.find k).isNone)
  | _ => false

/-- A peer's write or atomic that meets a page in host bias goes on to the host (R240, R254, R379), whose answer the response waits for. -/
def State.passOnward (s : State) (port a : Nat) (kind : EffKind) (cmp bs : List Byte) (tag : Nat) : State :=
  let e : MemEff := ⟨0, 0, 0, 0, 0, a, bs, kind, .rlx, .sys, .sync⟩
  (s.sendRemote ⟨false, some e, a, bs.length, cmp, .back port tag, 0, 0, proxyAgent (homeDie a), s.watched (a / 2 ^ 16), false, none⟩).2

/-- What a delivered flit does (R379): a request is performed at its home, or at the host in host bias, and the response goes back from the port with
what was read. A request that reaches a retired page, or lies beyond HBM, gets no data. -/
def State.deliver (s : State) (port : Nat) (b : FlitBody) : State :=
  let away (a n : Nat) : Bool := a + n > hbmEnd || s.pkg.retireList.contains (a / 2 ^ 16)
  match b with
  | .idle | .credit => s
  | .request true a bs tag =>
    if s.viaHost a && !away a bs.length then s.passOnward port a .store [] bs tag
    else (s.outsideWrite a bs).sendFlit port 0 (.response tag [])
  | .request false a bs tag =>
    let n := bs.length
    if away a n then s.sendFlit port 0 (.response tag [])
    else if s.viaHost a then s.sendFlit port 0 (.response tag ((List.range n).map fun i => s.hostByte (a + i)))
    else
      let s := s.outsideRead a n none
      s.sendFlit port 0 (.response tag (s.mem.readBytes a n))
  | .atomic a op cls cmp bs tag =>
    if s.viaHost a && !away a bs.length then
      s.passOnward port a (match op with | some o => .atom o cls | none => .store) cmp bs tag
    else
      let (old, s) := s.outsideAtom a op cls cmp bs
      s.sendFlit port 0 (.response tag old)
  | .response tag bs => s.answered true tag bs (.hw (.peerAccessResponse tag bs))
  | .collective op rank shape elems => s.modColl op (·.take rank shape elems)

/-- What a port has received is delivered in the order sent (R378); what has to wait keeps its place. -/
def State.servePort (s : State) (port : Nat) : State :=
  match (s.pkg.ports.getD port Port.reset).inbox with
  | [] => s
  | b :: bs =>
    if s.bodyWaits b then
      (match b with | .request false a d _ => if s.viaHost a then s.askFor a d.length else s | _ => s).defer (.serve port)
    else
      let s := (s.modPkg fun p => { p with ports := p.ports.modify port fun q => { q with inbox := bs } }).deliver port b
      if bs.isEmpty then s else s.post (.serve port)

/-- The bytes of a flit's payload: at most 240 (R378). -/
def flitPayload : FlitBody → Nat
  | .request _ _ bs _ | .response _ bs => bs.length
  | .atomic _ _ _ cmp bs _ => cmp.length + bs.length
  | .collective _ _ shape elems => elems.length * unitBytes shape.format
  | .idle | .credit => 0

/-- TILPEN_FLIT_RECEIVE (R378, R379): a flit whose CRC fails is replayed by its sender, the 64th failure in a row takes the port down; one
in sequence is taken, and delivered behind those that wait. A payload has 240 bytes at most. -/
def execTilpenFlitReceive (port : Nat) (f : Flit) (s : State) : Host.Outcome State Fault Refusal :=
  .next <|
    let p := s.pkg.ports.getD port Port.reset
    let setPort (p : Port) : State := s.modPkg fun k => { k with ports := k.ports.set port p }
    if !p.up || port ≥ 16 || flitPayload f.body > 240 then s
    else if !f.crcOk then
      if p.fails + 1 ≥ 64 then s.portDown port else setPort { p with fails := p.fails + 1 }
    else if f.seq != p.seq then s
    else
      let s := setPort { p with seq := p.seq + 1, fails := 0, inbox := p.inbox ++ [f.body] }
      if p.inbox.isEmpty then s.servePort port else s

end Sys2Proof.Machine
end

