-- ==== Sys2Proof/Machine/Streams.lean ====
section
/-! DEFINITION. Stream commands (R301 to R304), launches (R305 to R308, R359) and their ends (R307, R360). -/

namespace Sys2Proof.Machine

/-! ## Commands (R302) -/

/-- A field of a record: `len` bytes at an offset. -/
def field (w off len : Nat) : Nat := bits w (8 * off) (8 * len)

/-- The fields that the table of R302 names for an opcode: offset and width in bytes; none for another opcode. -/
def cmdFields : Nat → Option (List (Nat × Nat))
  | 1 => some [(0x10, 16)]
  | 2 => some [(4, 1), (8, 2), (0xa, 2), (0x10, 4), (0x14, 4), (0x18, 4), (0x20, 4), (0x30, 16)]
  | 3 => some [(4, 1), (8, 2), (0xa, 2), (0xc, 1), (0xe, 2), (0x20, 4), (0x30, 16)]
  | 4 => some [(4, 1), (0x10, 16), (0x20, 8), (0x28, 8)]
  | 5 => some [(4, 1), (0x10, 16), (0x28, 8)]
  | 6 => some []
  | 7 => some [(4, 1), (0x10, 16), (0x20, 4)]
  | _ => none

/-- The bits of byte 4 that an opcode may set. -/
def cmdFlags : Nat → Nat
  | 2 | 3 | 4 => 7
  | 5 => 4
  | 7 => 1
  | _ => 0

/-- What is wrong with a command (R302): its opcode; a byte the table does not name, a flag bit, a handle above 4095 or an address
above 80 bits. -/
def malformed (w : Nat) : Option Cause :=
  let op := field w 0 1
  match cmdFields op with
  | none => some .illop
  | some fs =>
    let named (i : Nat) : Bool := i == 0 || fs.any fun f => f.1 ≤ i && i < f.1 + f.2
    let stray := (List.range 64).any fun i => !named i && field w i 1 != 0
    let flags := fs.any (·.1 == 4) && Nat.land (field w 4 1) (255 - cmdFlags op) != 0
    let wide := fs.any fun f => f.2 == 16 && field w f.1 16 ≥ 2 ^ 80
    let handles := (op == 2 || op == 3) && (field w 8 2 ≥ 4096 || field w 0xa 2 ≥ 4096)
    if stray || flags || wide || handles then some .illfield else none

/-- The step of a command's opcode. -/
def cmdStep (op n : Nat) : Instr :=
  if op == 1 then .cmdLaunch n else if op == 2 then .cmdCopy n else if op == 3 then .cmdColl n
  else if op == 4 then .cmdWaitmem n else if op == 5 then .cmdWritemem n else if op == 6 then .cmdFence n else .cmdBias n

/-- Whether a stream is served (R301, R323): its table's page is the device's, and under no flip (R240). -/
def State.served (s : State) (n : Nat) : Bool :=
  s.crownReady [s.cmd.streamTab] && !(s.stream n).stopped && !(s.stream n).disabled && (s.streamDesc n).any fun d => d.enabled && (s.ctxs.find d.context).any (·.alive)

/-- The 64 bytes of command k. -/
def State.readCmd (s : State) (d : StreamDesc) (n k : Nat) : Got × State :=
  s.cpRead d.context n k (d.ring + 64 * (k % 2 ^ d.size)) 64

/-- Run the command in progress of a stream: its descriptor, number and word; a command that cannot be read yet is tried again. A turn that was left over
from an earlier command of another opcode does nothing. -/
def State.onCmd (s : State) (n : Nat) (again : Instr) (f : StreamDesc → Nat → Nat → State → State) : State :=
  match s.streamDesc n, (s.stream n).cmd with
  | some d, some k =>
    if !s.served n || (s.stream n).done then s
    else
      let t := match s.readCmd d n k with
        | (.val w, s) => if again == cmdStep (field w 0 1) n || again == Instr.waitmemRecheck n then f d k w s else s
        | (.later, s) => s.defer (.hw again)
      t.endLook n
  | _, _ => s

/-- A wake whose reads have not been answered is made again; that of a stream whose tail has not been read yet is due anyhow. -/
def State.wakeAgain (s : State) (n : Nat) : State := if (s.stream n).tailPa.isSome then s.defer (.hw (.tailWake n)) else s

/-- TAIL_WAKE (R301): the command processor reads the tail again, with a read token on it; a tail too far ahead stops the stream. DESIGN CHOICE, log 38:
a tail in a peer's memory, of which the device can hold no token, is read once and looked at again as the device itself writes it. -/
def execTailWake (n : Nat) (s : State) : Host.Outcome State Fault Refusal :=
  .next <|
    match s.streamDesc n with
    | none => s
    | some d =>
      if !s.served n then s
      else
        let (key, s) := s.cpWatch d.context d.tail
        let s := s.modStream n fun t => { t with tailPa := key }
        match s.cpRead d.context n (s.stream n).head d.tail 4 with
        | (.later, s) => (s.endLook n).wakeAgain n
        | (.val tail, s) =>
          match (if (s.stream n).cmd.isSome then (Got.val (s.stream n).head, s) else s.cpRead d.context n (s.stream n).head d.head 4) with
          | (.later, s) => (s.endLook n).wakeAgain n
          | (.val head, s) =>
            let s := (s.endLook n).modStream n fun t => { t with head := head, tail := tail }
            if (tail + 2 ^ 32 - head) % 2 ^ 32 > 2 ^ d.size then s.stopStream d.context n head .illfield d.tail
            else if tail == head then s
            else s.post (.hw .streamCommandStart)

/-- Streams with a command ready to start, the highest priority first, a tie to the lower number (R303). -/
def State.readyStreams (s : State) : List (Nat × StreamDesc) :=
  let all := s.cmd.streams.filterMap fun e =>
    match s.streamDesc e.1 with
    | some d => if s.served e.1 && e.2.cmd.isNone && e.2.head != e.2.tail then some (e.1, d) else none
    | none => none
  (List.range 8).reverse.flatMap fun p => all.filter fun e => e.2.priority == p

/-- Start the first command that can be read. -/
def State.startFirst (s : State) : List (Nat × StreamDesc) → State
  | [] => s
  | (n, d) :: rest =>
    let k := (s.stream n).head
    match s.readCmd d n k with
    | (.later, s) => State.startFirst (s.endLook n) rest
    | (.val w, s) =>
      let s := s.endLook n
      match malformed w with
      | some cause => s.stopStream d.context n k cause (d.ring + 64 * (k % 2 ^ d.size))
      | none => (s.modStream n fun t => { t with cmd := some k, started := false, done := false }).post (.hw (cmdStep (field w 0 1) n))

/-- STREAM_COMMAND_START (R302, R303). A head that could not be written yet is written first. -/
def execStreamCommandStart (s : State) : Host.Outcome State Fault Refusal :=
  .next <|
    let late := s.cmd.streams.filter fun e => e.2.done
    let s := late.foldl (fun s e => s.advanceHead e.1) s
    s.startFirst s.readyStreams

/-! ## Launch headers and residency records (R305 to R307) -/

/-- The entries of a byte list of a field. -/
def fieldList (w off len n : Nat) : List Nat := (List.range n).map fun i => field w (off + len * i) len

/-- What refuses a header (R307), as far as the header tells. DESIGN CHOICE, log 38: a code base, join counter, residency or completion address that is
misaligned is a field outside its range, and so refused; R307 names no misalignment. -/
def headerBad (h : Nat) : Bool :=
  let ws := fieldList h 0x50 1 6
  let es := fieldList h 0x58 8 6
  let level := field h 0x56 1
  let addrs := [0x00, 0x10, 0x20, 0x30, 0xd0] ++ (List.range 4).map (0x90 + 16 * ·)
  addrs.any (fun o => field h o 16 ≥ 2 ^ 80) || field h 0 16 % 16 != 0 || field h 0x20 16 % 4 != 0 || field h 0x30 16 % 64 != 0 ||
    field h 0xd0 16 % 16 != 0 || field h 0x44 4 ≥ 4 || field h 0x48 8 ≥ 2 ^ 36 || field h 0x57 1 > 8 || field h 0x88 4 > 4 ||
    field h 0x8c 4 != 0 || field h 0xe0 32 != 0 || ws.sum > 64 || level > 6 ||
    (ws.zip es).any fun p => p.2 < 1 || p.2 > 2 ^ p.1

/-- The product of extents. -/
def product : List Nat → Nat
  | [] => 1
  | x :: xs => x * product xs

/-- Regions of a residency record: segments and lifetime. -/
def regionList (r : Nat) : List (Nat × Nat) :=
  (List.range (field r 5 1)).map fun i =>
    let w := field r (0x20 + 4 * i) 4
    (if bits w 0 12 == 0 then 4096 else bits w 0 12, bits w 12 9)

/-- What refuses a residency record (R306, R307). -/
def recordBad (r : Nat) : Bool :=
  let regs := field r 0 2
  let t := field r 8 4
  let n := field r 3 1
  let depths := fieldList r 0x10 1 16
  let regions := field r 5 1
  let words := fieldList r 0x20 4 16
  regs % 8 != 0 || regs < 8 || regs > 256 || field r 2 1 > 16 || n > 16 || field r 4 1 > 16 || regions > 16 || field r 6 2 != 0 ||
    field r 0x60 32 != 0 || t < 1 || t > 1024 ||
    (depths.take n).any (fun d => d < 1 || d > 64) || (depths.drop n).any (· != 0) ||
    (words.take regions).any (fun w => bits w 21 11 != 0 || bits w 12 9 < 1 || bits w 12 9 > 320) || (words.drop regions).any (· != 0) ||
    (t + 31) / 32 * 32 * regs > 262144 || ((regionList r).map (·.1)).sum > 4096 || ((depths.take n).map (· * t)).sum > 4096

/-- Clusters that a mask permits a context (R252, R305). -/
def State.clusters (s : State) (ctx mask : Nat) : List Nat :=
  let part := ((s.ctxs.find ctx).map (·.part)).getD 0
  (List.range 36).filter fun c => (mask == 0 || mask.testBit c) && s.pkg.clusterPart.getD c 0 == part

/-- The status that refuses a launch (R307): 1 for its header, 2 for its residency record. -/
def State.refusal (s : State) (ctx h r : Nat) : Option Nat :=
  let es := fieldList h 0x58 8 6
  let level := field h 0x56 1
  let t := field r 8 4
  if headerBad h || product (es.drop level) ≥ 2 ^ 32 || (s.clusters ctx (field h 0x48 8)).isEmpty then some 1
  else if recordBad r || t != product (es.take level) || (bits (field h 0x44 4) 1 1 == 1 && t % 32 != 0) then some 2
  else none

/-- A launch as it takes a slot. -/
def newLaunch (slot ctx n cmd seq streamPrio h r : Nat) : Launch where
  slot := slot
  ctx := ctx
  stream := n
  cmd := cmd
  seq := seq
  codeBase := field h 0 16
  frame := field h 0x10 16
  join := field h 0x20 16
  entry := field h 0x40 4
  snapshot := field h 0x44 4 % 2 == 1
  full := bits (field h 0x44 4) 1 1 == 1
  mask := field h 0x48 8
  widths := fieldList h 0x50 1 6
  extents := fieldList h 0x58 8 6
  level := field h 0x56 1
  prio := if field h 0x57 1 == 8 then streamPrio else field h 0x57 1
  waits := fieldList h 0x90 16 (field h 0x88 4)
  waitPas := []
  completion := field h 0xd0 16
  regs := field r 0 2
  tiles := field r 2 1
  depths := (fieldList r 0x10 1 16).take (field r 3 1)
  regions := regionList r
  size := field r 8 4
  crews := product ((fieldList h 0x58 8 6).drop (field h 0x56 1))
  phase := .waiting
  status := 0
  decremented := 0
  shielded := false
  unshielded := false
  replayed := false
  joinSet := false
  depended := false
  snapList := []

/-- Refuse a launch (R307): its join counter is stored as 0, its completion record written, and a record that is neither recoverable nor
terminating reported; the stream goes on. -/
def State.refuse (s : State) (d : StreamDesc) (n k header status : Nat) (h : Nat) (again : Turn) : State :=
  match s.cpWrite d.context n k (field h 0x20 16 % 2 ^ 80) (bytesOf 4 0) with
  | (.later, s) => s.defer again
  | (.val _, s) =>
    match s.cpWrite d.context n k (field h 0xd0 16 % 2 ^ 80) (bytesOf 16 (status + 2 ^ 33 * (field h 0x44 4 % 2))) with
    | (.later, s) => s.defer again
    | (.val _, s) =>
      let r := { FaultRec.of .prot d.context with streamC := true, stream := n, cmd := k, addr := header }
      ((s.signal d.context).report r).finishCmd n

/-- CMD_LAUNCH (R303, R305 to R307): the launch is checked and refused, or takes a slot; the command is complete once its join counter
reads zero. DESIGN CHOICE, log 38: a launch is enqueued, as R71 compares launches, when it takes its slot; R312 speaks of the store of the tail, R307 of the
start. -/
def execCmdLaunch (n : Nat) (s : State) : Host.Outcome State Fault Refusal :=
  .next <| s.onCmd n (.cmdLaunch n) fun d k w s =>
    let again := Turn.hw (.cmdLaunch n)
    let header := field w 0x10 16
    if (s.stream n).started then
      let join := ((s.stream n).op).getD 0
      if s.cmd.launches.vals.any fun l => l.stream == n && l.cmd == k && !l.joinSet then s.defer again
      else
        let (key, s) := s.cpWatch d.context join
        let s := s.modStream n fun t => { t with watch := key }
        match s.cpRead d.context n k join 4 with
        | (.later, s) => s.defer again
        | (.val 0, s) => s.finishCmd n
        | (.val _, s) => if key.any (· < peerKey) then s else s.defer again
    else if header % 64 != 0 then s.stopStream d.context n k .misalign header
    else match s.cpRead d.context n k header 256 with
      | (.later, s) => s.defer again
      | (.val h, s) =>
        let refuse (status : Nat) (s : State) : State := s.refuse d n k header status h again
        if headerBad h then refuse 1 s
        else match s.cpRead d.context n k (field h 0x30 16) 128 with
          | (.later, s) => s.defer again
          | (.val r, s) =>
            match s.refusal d.context h r with
            | some status => refuse status s
            | none =>
              match (List.range 1024).find? fun i => (s.cmd.launches.find i).isNone with
              | none => s.defer again
              | some slot =>
                let l := newLaunch slot d.context n k s.nextId d.priority h r
                let s := { s.modCmd (fun c => { c with launches := c.launches.insert slot l }) with nextId := s.nextId + 1 }
                let s := s.modStream n fun t => { t with started := true, op := some l.join }
                ((s.storeJoin l).post (.hw (.launchWaitRelease slot))).defer again

/-- Watch the counters of a wait list: their keys. -/
def State.watchWaits (s : State) (l : Launch) : State :=
  let r := l.waits.foldl (init := (([] : List Nat), s)) fun p a =>
    let (key, s) := p.2.cpWatch l.ctx a
    (p.1 ++ key.toList, s)
  r.2.modLaunch l.slot fun l => { l with waitPas := r.1 }

/-- Read the counters of a wait list: whether all are zero; none while one cannot be read yet. -/
def State.readWaits (s : State) (l : Launch) : List Nat → Option Bool × State
  | [] => (some true, s)
  | a :: as =>
    match s.cpRead l.ctx l.stream l.cmd a 4 with
    | (.later, s) => (none, s)
    | (.val v, s) =>
      match State.readWaits s l as with
      | (none, s) => (none, s)
      | (some z, s) => (some (v == 0 && z), s)

/-- The continuation records of a launch (R308): crew c on die d_(c mod k). -/
def State.recordsOf (s : State) (l : Launch) : List Record :=
  let all := ((s.clusters l.ctx l.mask).map (· / 9)).eraseDups
  let live := all.filter fun d => !s.pkg.deadDies.contains d
  let dies := if live.isEmpty then all else live
  let k := dies.length
  (dies.zip (List.range k)).filterMap fun (d, j) =>
    let count := (l.crews + k - 1 - j) / k
    if count = 0 then none else some ⟨d, l.slot, l.entry, j, count, k, none⟩

/-- The launches whose join counters a starting launch names have had a dependant start (R357). -/
def State.dependOn (s : State) (l : Launch) : State :=
  s.modCmd fun c => { c with launches := c.launches.map fun (e : Nat × Launch) =>
    if e.2.ctx == l.ctx && l.waits.contains e.2.join then (e.1, { e.2 with depended := true }) else e }

/-- The pages of the tables in which the Crown stores cow bits as a launch starts or ends, of a launch that asks for protection (R359, R360). -/
def State.cowEntries (s : State) (l : Launch) : List Nat :=
  if l.snapshot && (s.ctxs.find l.ctx).any (·.shielded) then s.tablesOf l.ctx else []

/-- Make a launch's records, once its protection is set up (R359). -/
def State.startLaunch (s : State) (l : Launch) : State :=
  let s := match s.ctxs.find l.ctx with
    | some x =>
      if !l.snapshot || l.replayed then s
      else if !x.shielded then s.modLaunch l.slot fun l => { l with unshielded := true }
      else (s.setCow l.ctx (s.guarded x) true).modLaunch l.slot fun l => { l with shielded := true }
    | none => s
  let s := (s.dependOn l).modLaunch l.slot fun l => { l with phase := .running, waitPas := [] }
  s.modCmd fun c => { c with records := c.records ++ s.recordsOf l }

/-- LAUNCH_WAIT_RELEASE (R307, R308): a launch whose wait list reads zero becomes continuation records, while its dies' queues have
room. -/
def execLaunchWaitRelease (slot : Nat) (s : State) : Host.Outcome State Fault Refusal :=
  .next <|
    let again := Turn.hw (.launchWaitRelease slot)
    match s.cmd.launches.find slot with
    | none => s
    | some l =>
      if l.phase != .waiting then s
      else
        let s := s.storeJoin l
        if !((s.cmd.launches.find slot).any (·.joinSet)) then s.defer again
        else
          let s := s.watchWaits l
          let keys := ((s.cmd.launches.find slot).map (·.waitPas)).getD []
          match s.readWaits l l.waits with
          | (none, s) => (s.endLook l.stream).defer again
          | (some false, s) =>
            let s := s.endLook l.stream
            if keys.length == l.waits.length && keys.all (· < peerKey) then s else s.defer again
          | (some true, s) =>
            let full := (s.recordsOf l).any fun r => (s.cmd.records.filter (·.die == r.die)).length ≥ 256 + 65536
            let s := s.endLook l.stream
            if full then s.defer again
            else if !s.crownReady (s.cowEntries l) then (s.takeBack (s.cowEntries l)).defer again
            else s.startLaunch l

/-- LAUNCH_FINISH (R307, R360): every crew has exited; remaining cow bits are cleared, pool pages released, and the completion record is
written. -/
def execLaunchFinish (slot : Nat) (s : State) : Host.Outcome State Fault Refusal :=
  .next <|
    match s.cmd.launches.find slot with
    | none => s
    | some l =>
      match l.phase with
      | .waiting => s
      | .finished => s.completeLaunch slot
      | .running =>
        if l.decremented < l.crews then s
        else if !s.crownReady (s.cowEntries l) then (s.takeBack (s.cowEntries l)).defer (.hw (.launchFinish slot))
        else
          let s := match s.ctxs.find l.ctx with
            | some x => if l.shielded then (s.clearCow x slot).modLaunch slot fun l => { l with snapList := [] } else s
            | none => s
          s.finishLaunch slot (if l.replayed then 4 else 0)

/-! ## The other commands (R302, R304) -/

/-- Read a tensor entry of the stream's context. -/
def State.cpEntry (s : State) (d : StreamDesc) (n k h : Nat) (f : Nat × Nat → State → State) (again : Turn) : State :=
  match entryVa (s.regsOf d.context) h with
  | none => s.stopStream d.context n k .addrovf 0
  | some va =>
    match s.cpRead d.context n k va 64 with
    | (.later, s) => s.defer again
    | (.val e, s) => f (e, va) s

/-- The completion word of a command. -/
def cmdCompletion (w : Nat) : Option Completion :=
  if bits (field w 4 1) 2 1 == 1 then some ⟨field w 0x30 16, BitVec.ofNat 32 (field w 0x20 4)⟩ else none

/-- CMD_COPY: a copy without a crew (R292 to R294), on the engines of a die the manual leaves open. -/
def execCmdCopy (n : Nat) (s : State) : Host.Outcome State Fault Refusal :=
  .next <| s.onCmd n (.cmdCopy n) fun d k w s =>
    let again := Turn.hw (.cmdCopy n)
    if (s.stream n).started then s
    else s.cpEntry d n k (field w 8 2) (again := again) fun ed s =>
      s.cpEntry d n k (field w 0xa 2) (again := again) fun es s =>
        let (x, s) := s.drawNat
        let dies := (List.range 4).filter fun i => !s.pkg.deadDies.contains i
        let planes := bits (field w 4 1) 1 1 == 1
        let id := s.nextId
        let s := s.enqueueCopy ⟨0, dies.getD (x % dies.length) 0, none, ed.1, es.1, ed.2, es.2, field w 4 1 % 2 == 1,
          if planes then max (field w 0x10 4) 1 else 1, if planes then field w 0x14 4 else 0, if planes then field w 0x18 4 else 0,
          none, cmdCompletion w, 0, (cmdCompletion w).isSome, none, streamAttr d.context n k⟩
        s.modStream n fun t => { t with started := true, op := some id }

/-- CMD_COLL: a collective without a crew (R295 to R299). -/
def execCmdColl (n : Nat) (s : State) : Host.Outcome State Fault Refusal :=
  .next <| s.onCmd n (.cmdColl n) fun d k w s =>
    let again := Turn.hw (.cmdColl n)
    if (s.stream n).started then s
    else if s.collRoom = 0 then s.defer again
    else s.cpEntry d n k (field w 8 2) (again := again) fun ed s =>
      s.cpEntry d n k (field w 0xa 2) (again := again) fun es s =>
        let id := s.nextId
        let s := s.enqueueColl (newColl (field w 0xc 1) (BitVec.ofNat 2 (field w 4 1)) (field w 0xe 2) ed es (cmdCompletion w)
          (streamAttr d.context n k))
        s.modStream n fun t => { t with started := true, op := some id }

/-- Whether the condition of a WAITMEM holds (R304). -/
def waitmemHolds (w v : Nat) : Bool :=
  let flags := field w 4 1
  let n := if bits flags 2 1 == 1 then 64 else 32
  let x := Nat.land v (field w 0x20 8) % 2 ^ n
  let y := field w 0x28 8 % 2 ^ n
  match flags % 4 with
  | 0 => x == y
  | 1 => x != y
  | 2 => y ≤ x
  | _ => intOf y n true ≤ intOf x n true

/-- CMD_WAITMEM (R304): complete when the condition is true; else the word is watched. -/
def execCmdWaitmem (n : Nat) (s : State) : Host.Outcome State Fault Refusal :=
  .next <| s.onCmd n (.cmdWaitmem n) fun d k w s =>
    let again := Turn.hw (.cmdWaitmem n)
    let va := field w 0x10 16
    let size := if bits (field w 4 1) 2 1 == 1 then 8 else 4
    if va % size != 0 then s.stopStream d.context n k .misalign va
    else
      let (key, s) := s.cpWatch d.context va
      let s := s.modStream n fun t => { t with started := true, watch := key }
      match s.cpRead d.context n k va size with
      | (.later, s) => s.defer again
      | (.val v, s) =>
        if waitmemHolds w v then s.finishCmd n
        else if key.any (· < peerKey) then s else s.defer again

/-- WAITMEM_RECHECK (R304): the watched word has been written, so the command looks at it again. -/
def execWaitmemRecheck (n : Nat) (s : State) : Host.Outcome State Fault Refusal :=
  .next <| s.onCmd n (.waitmemRecheck n) fun _ _ w s => s.post (.hw (cmdStep (field w 0 1) n))

/-- CMD_WRITEMEM (R302, R304): complete when the write is system-performed. -/
def execCmdWritemem (n : Nat) (s : State) : Host.Outcome State Fault Refusal :=
  .next <| s.onCmd n (.cmdWritemem n) fun d k w s =>
    let again := Turn.hw (.cmdWritemem n)
    let va := field w 0x10 16
    let size := if bits (field w 4 1) 2 1 == 1 then 8 else 4
    if (s.stream n).started then if s.opWriting (cpId n) then s.defer again else s.finishCmd n
    else if va % size != 0 then s.stopStream d.context n k .misalign va
    else match s.cpWrite d.context n k va (bytesOf size (field w 0x28 8)) with
      | (.later, s) => s.defer again
      | (.val _, s) =>
        let s := s.modStream n fun t => { t with started := true }
        if s.opWriting (cpId n) then s.defer again else s.finishCmd n

/-- CMD_FENCE (R302): complete when the stream's earlier launches have finished and their writes are system-performed; its earlier commands
are complete by R303. -/
def execCmdFence (n : Nat) (s : State) : Host.Outcome State Fault Refusal :=
  .next <| s.onCmd n (.cmdFence n) fun d _ _ s =>
    if s.cmd.launches.vals.any (fun l => l.stream == n && l.phase != .finished) ||
        s.coh.remote.vals.any (fun r => r.eff.any fun e => e.ctx == d.context) then s.defer (.hw (.cmdFence n))
    else (s.flushDies fun x => x.writer == .ctx d.context).finishCmd n

/-- The physical pages of a BIAS command; none when one must be waited for or has stopped the stream. -/
def State.biasPages (s : State) (d : StreamDesc) (n k va : Nat) : Nat → Option (List Nat) × State
  | 0 => (some [], s)
  | m + 1 =>
    match State.biasPages s d n k va m with
    | (none, s) => (none, s)
    | (some ps, s) =>
      let a := streamAttr d.context n k
      let here := va + 65536 * m
      let got (key : Nat) (s : State) : Option (List Nat) × State :=
        if key < hbmEnd then (some (ps ++ [key / 2 ^ 16]), s) else (none, s.stopStream d.context n k .prot here)
      match s.opReach cpAgent a here 1 .read with
      | (.go key _ _, s) => got key s
      | (.remote key _, s) => got key s
      | (.wait w r, s) => (none, s.cpWait a n w r)
      | (.fault cause addr, s) => (none, s.stopStream d.context n k cause addr)
      | (.damaged sec, s) => (none, if s.undecided (32 * sec) 32 then s else s.consumeOp cpAgent a here sec ((s.poisonAt sec).getD .hbm))
      | (.busy, s) => (none, s)

/-- CMD_BIAS (R240, R254, R302): accesses to the pages wait from now until each has flipped. -/
def execCmdBias (n : Nat) (s : State) : Host.Outcome State Fault Refusal :=
  .next <| s.onCmd n (.cmdBias n) fun d k w s =>
    let va := field w 0x10 16
    let toHost := field w 4 1 % 2 == 1
    if (s.stream n).started then s
    else if va % 65536 != 0 then s.stopStream d.context n k .misalign va
    else match s.biasPages d n k va (field w 0x20 4) with
      | (none, s) => if (s.stream n).stopped then s else s.defer (.hw (.cmdBias n))
      | (some ps, s) =>
        let ps := ps.eraseDups
        let s := s.modStream n fun t => { t with started := true }
        if ps.isEmpty then s.finishCmd n
        else
          let s := s.modCoh fun c => { c with flips := c.flips ++ ps.map fun p => ⟨p, toHost, [], some n⟩ }
          s.postAll (ps.map fun p => .hw (if toHost then .biasFlipToHost p else .biasFlipToDevice p))

end Sys2Proof.Machine
end

