-- ==== Sys2Proof/Machine/Mailbox.lean ====
section
/-! DEFINITION. BAR0, the mailbox and its services (R372 to R375, R384). The host's writes to BAR0 come from outside, as turns of the
agenda; a service's step is the answering agent's. -/

namespace Sys2Proof.Machine

/-! ## Requests and responses (R374) -/

/-- The numbers of the services (R375). -/
def serviceNumbers : List Nat :=
  [0x0001, 0x0002, 0x0010, 0x0011, 0x0012, 0x0013, 0x0014, 0x0015, 0x0020, 0x0021, 0x0022, 0x0023, 0x0024, 0x0025, 0x0026, 0x0027,
   0x0028, 0x0029, 0x0030]

/-- The step of a number that a request names. -/
def serviceStep : Nat → Instr
  | 0x0001 => .status
  | 0x0002 => .eventack
  | 0x0010 => .ctxcreate
  | 0x0011 => .ctxdestroy
  | 0x0012 => .preempt
  | 0x0013 => .slice
  | 0x0014 => .ptroot
  | 0x0015 => .testenable
  | 0x0020 => .partition
  | 0x0021 => .streamtab
  | 0x0022 => .commcreate
  | 0x0023 => .peerset
  | 0x0024 => .snapdesc
  | 0x0025 => .tolerance
  | 0x0026 => .nocweight
  | 0x0027 => .retired
  | 0x0028 => .tables
  | 0x0029 => .sleepreq
  | 0x0030 => .attest
  | _ => .mailboxUnknownService

/-- A field of the request message: `len` bytes at an offset. -/
def Package.reqField (p : Package) (off len : Nat) : Nat := natOf ((p.reqBuf.drop off).take len)

/-- The word of a buffer that an offset of BAR0 names. -/
def bufWord (buf : List Byte) (off : Nat) : Word := BitVec.ofNat 32 (natOf ((buf.drop (off % 4096)).take 4))

/-- What the host reads at an offset of BAR0 that is a multiple of 4 (R372): the write-only request register and every offset that is not
listed read as zero (R4). -/
def Package.mmioRead (p : Package) (off : Nat) : Word :=
  if off / 4096 == 1 then bufWord p.reqBuf off
  else if off / 4096 == 2 then bufWord p.respBuf off
  else match off with
    | 0x0000 => p.status
    | 0x0004 => p.failure
    | 0x000c => p.response
    | 0x0010 => p.event
    | _ => 0

/-- The host writes a word to BAR0 (R372, R374): the request buffer takes it, the request register submits a request, and every other write is ignored
(R4). While a request is unanswered a write is ignored: of the buffer too, so that the earlier request proceeds as it is (DEDUCED, log 39). -/
def State.mmioWrite (s : State) (off : Nat) (w : Word) : State :=
  if s.pkg.request.isSome then s
  else if off / 4096 == 1 then
    let o := off % 4096 / 4 * 4
    s.modPkg fun p => { p with reqBuf := p.reqBuf.take o ++ bytesOf 4 w.toNat ++ p.reqBuf.drop (o + 4) }
  else if off == 0x0008 then
    (s.modPkg fun p => { p with request := some w }).post (.hw (serviceStep (s.pkg.reqField 0 2)))
  else s

/-- A field of the request's payload. -/
def State.arg (s : State) (off len : Nat) : Nat := s.pkg.reqField (16 + off) len

/-- Whether payload bytes are all zero. -/
def State.argZero (s : State) (off len : Nat) : Bool := s.arg off len == 0

/-- Answer the request (R374): the response message is written, then the response register, and vector 0 is signalled. -/
def State.respond (s : State) (q : Word) (status : Nat) (payload : List Byte) : State :=
  s.modPkg fun p =>
    let body := if status = 0 then payload else []
    let msg := bytesOf 2 (p.reqField 0 2) ++ bytesOf 2 body.length ++ bytesOf 4 q.toNat ++ bytesOf 4 status ++ bytesOf 4 0 ++ body
    { p with respBuf := msg ++ p.respBuf.drop msg.length, response := q, request := none, msix := p.msix ++ [0] }

/-- What a service comes to: a status and its response payload. -/
structure Answer where
  status  : Nat
  payload : List Byte
  state   : State

/-- Done, or refused with a status. -/
def done (s : State) (payload : List Byte) : Answer := ⟨0, payload, s⟩
def refused (s : State) (status : Nat) : Answer := ⟨status, [], s⟩

/-- Whether the answering agent serves a number at this stage (R374). -/
def State.staged (s : State) (n : Nat) : Bool :=
  let early := n == 0x0001 || n == 0x0030
  if s.ready then true
  else early || (n == 0x0027 && 2 ≤ s.pkg.status.toNat % 16)

/-- Serve the pending request if it asks for service n (R374): malformed messages give 2; a service that is not served at this stage
gives 5; `len` checks the payload's length. -/
def State.serve (s : State) (n : Nat) (len : Nat → Bool) (f : State → Answer) : State :=
  match s.pkg.request with
  | none => s
  | some q =>
    if s.pkg.reqField 0 2 != n then s
    else if !s.staged n then s.respond q 5 []
    else
      let k := s.pkg.reqField 2 2
      if k > 4080 || !len k || s.pkg.reqField 4 4 != q.toNat || s.pkg.reqField 8 8 != 0 then s.respond q 2 []
      else
        let a := f s
        a.state.respond q a.status a.payload

/-- A service on a context that exists: none gives status 3. -/
def State.onCtx (s : State) (f : Ctx → Answer) : Answer :=
  match s.ctxs.find (s.arg 0 2) with
  | some x => if x.alive then f x else refused s 3
  | none => refused s 3

/-! ## The services (R375) -/

/-- STATUS. -/
def execStatus (s : State) : Host.Outcome State Fault Refusal :=
  .next <| s.serve 0x0001 (· == 0) fun s =>
    done s (bytesOf 4 s.pkg.status.toNat ++ bytesOf 4 s.pkg.failure.toNat ++ bytesOf 4 Config.rililoVersion.toNat ++
      bytesOf 4 s.pkg.event.toNat)

/-- EVENTACK. -/
def execEventack (s : State) : Host.Outcome State Fault Refusal :=
  .next <| s.serve 0x0002 (· == 4) fun s =>
    done (s.modPkg fun p => { p with event := p.event &&& ~~~(BitVec.ofNat 32 (s.arg 0 4)) }) []

/-- A ptroot value as the register holds it: its reserved bits read as zero (R220). -/
def rootOf (v : Nat) : Dword := BitVec.ofNat 64 (Nat.land v (csrMask 0x008))

/-- CTXCREATE (R220, R313, R320): a number in use is not permitted, nor a field outside its range. The words after the ring are cleared, and the
device holds a read token on those that it waits for. A ring in host bias comes back first. -/
def execCtxcreate (s : State) : Host.Outcome State Fault Refusal :=
  let words := s.arg 8 8 + 64 * 2 ^ s.arg 4 1
  if s.pkg.request.isSome && words < hbmEnd && !s.crownReady [words] then .next ((s.takeBack [words]).defer (.hw .ctxcreate))
  else
    .next <| s.serve 0x0010 (· == 48) fun s =>
      let n := s.arg 0 2
      let m := s.arg 4 1
      let v := s.arg 5 1
      let ring := s.arg 8 8
      let save := s.arg 16 8
      if s.arg 3 1 ≥ 4 || !s.argZero 6 2 || !s.argZero 40 8 then refused s 2
      else if n ≥ 4096 || (s.ctxs.find n).any (·.alive) || s.arg 2 1 ≥ 8 || m < 6 || m > 16 || (v != 0 && (v < 2 || v > 63)) ||
          ring % 64 != 0 || ring + 64 * 2 ^ m + 12 > hbmEnd || save % 65536 != 0 then refused s 3
      else
        let x : Ctx :=
          { num := n, part := s.arg 2 1, privileged := s.arg 3 1 % 2 == 1, test := s.arg 3 1 / 2 == 1, grant := false, alive := true,
            regs := { SysRegs.reset with ptroot := rootOf (s.arg 32 8) }, ringBase := ring, ringM := m, saveBase := save,
            saveSize := s.arg 24 8, vector := v, lost := false, records := [], waiting := [], comms := [], snapDesc := [], poolGone := [] }
        let s := (s.perform x.words (bytesOf 12 0) .external false).watchWords x
        done (s.setCtx x) []

/-- CTXDESTROY: a running context is terminated first (R323). -/
def execCtxdestroy (s : State) : Host.Outcome State Fault Refusal :=
  .next <| s.serve 0x0011 (· == 2) fun s =>
    match s.ctxs.find (s.arg 0 2) with
    | none => refused s 3
    | some x =>
      let s := (s.endContext x.num).forgetAll fun e => e.ctx == x.num
      done { s with ctxs := s.ctxs.erase x.num } []

/-- The crews of a list whose saves find room, in order, beside each other. -/
def State.saveable (s : State) : List Crew → Nat → List Crew
  | [], _ => []
  | w :: ws, k => if s.overflows w k then State.saveable s ws k else w :: State.saveable s ws (k + s.saveSize w)

/-- PREEMPT (R325): the crews of a context on the cores of the mask. A save that would overflow the save area is not started, which status 4 tells
(DEDUCED from its name: a resource is exhausted; log 51). -/
def execPreempt (s : State) : Host.Outcome State Fault Refusal :=
  .next <| s.serve 0x0012 (· == 44) fun s =>
    if s.arg 2 1 ≥ 2 || !s.argZero 3 5 then refused s 2
    else s.onCtx fun x =>
      let mask := s.arg 8 36
      let crews := s.crews.vals.filter fun w => w.ctx == x.num && w.core.any mask.testBit
      let resident := s.arg 2 1 == 1
      let out := if resident then crews else s.saveable crews 0
      let t := s.postAll (out.map fun w => .hw (.preemptCrew w.id resident))
      if out.length == crews.length then done t [] else refused t 4

/-- SLICE. -/
def execSlice (s : State) : Host.Outcome State Fault Refusal :=
  .next <| s.serve 0x0013 (· == 8) fun s =>
    if !s.argZero 1 3 then refused s 2
    else if s.arg 0 1 ≥ 8 then refused s 3
    else done (s.modPkg fun p => { p with slices := p.slices.set (s.arg 0 1) (s.arg 4 4) }) []

/-- PTROOT (R220): for each cohort the new root takes effect at its next trace boundary (`State.draw`, `State.passOn`). -/
def execPtroot (s : State) : Host.Outcome State Fault Refusal :=
  .next <| s.serve 0x0014 (· == 16) fun s =>
    if !s.argZero 2 6 then refused s 2
    else s.onCtx fun x =>
      let root := rootOf (s.arg 8 8)
      done ((s.dropRoot x.num root).modCtx x.num fun x => { x with regs := { x.regs with ptroot := root } }) []

/-- TESTENABLE (R339). -/
def execTestenable (s : State) : Host.Outcome State Fault Refusal :=
  .next <| s.serve 0x0015 (· == 4) fun s =>
    if s.arg 2 1 ≥ 2 || !s.argZero 3 1 then refused s 2
    else s.onCtx fun x => done (s.modCtx x.num fun x => { x with test := s.arg 2 1 == 1 }) []

/-- Whether a cluster has a resident crew. -/
def State.occupied (s : State) (cl : Nat) : Bool := s.crews.vals.any fun w => (w.core.map clusterOf) == some cl

/-- PARTITION (R252): each cluster's change takes effect at once, or waits until the cluster has no resident crew. -/
def execPartition (s : State) : Host.Outcome State Fault Refusal :=
  .next <| s.serve 0x0020 (· == 36) fun s =>
    let want (i : Nat) : Nat := s.arg i 1
    if (List.range 36).any fun i => want i ≥ 8 then refused s 3
    else
      let late := (List.range 36).filter fun i => want i != s.pkg.clusterPart.getD i 0 && s.occupied i
      let parts := (List.range 36).map fun i => if late.contains i then s.pkg.clusterPart.getD i 0 else want i
      done (s.modPkg fun p => { p with clusterPart := parts, partWait := late.map fun i => (i, want i) })
        (bytesOf 8 ((late.map (2 ^ ·)).sum))

/-- STREAMTAB (R301): the streams of the new table start afresh, and the tails of those that are served are read. -/
def execStreamtab (s : State) : Host.Outcome State Fault Refusal :=
  .next <| s.serve 0x0021 (· == 8) fun s =>
    let base := s.arg 0 8
    if base % 65536 != 0 || base + 65536 > hbmEnd then refused s 3
    else
      let s := s.modCmd fun c => { c with streamTab := base, streams := [] }
      let live := (List.range 1024).filter s.served
      done (s.postAll (live.map fun n => .hw (.tailWake n))) []

/-- COMMCREATE (R295). -/
def execCommcreate (s : State) : Host.Outcome State Fault Refusal :=
  .next <| s.serve 0x0022 (fun k => k == 8 + s.arg 3 1 * s.arg 4 1) fun s =>
    let c := s.arg 2 1
    let g := s.arg 3 1
    let m := s.arg 4 1
    let own := s.arg 5 1
    let peers := (List.range (g * m)).map fun i => s.arg (8 + i) 1
    if !s.argZero 6 2 then refused s 2
    else s.onCtx fun x =>
      let bad := (List.range (g * m)).any fun i =>
        if i == own then peers.getD i 0 != 0xff else (s.pkg.peers.find (peers.getD i 0)).isNone
      if c ≥ 64 || g < 1 || g > 17 || m < 2 || m > 17 || own ≥ g * m || bad then refused s 3
      else
        let k : Comm := ⟨g, m, own, peers, peers.any fun i => (s.pkg.peers.find i).any (·.lost)⟩
        done (s.modCtx x.num fun x => { x with comms := x.comms.insert c k }) []

/-- PEERSET (R379). -/
def execPeerset (s : State) : Host.Outcome State Fault Refusal :=
  .next <| s.serve 0x0023 (· == 24) fun s =>
    let i := s.arg 0 1
    let port := s.arg 1 1
    if s.arg 2 1 ≥ 2 || !s.argZero 3 5 then refused s 2
    else if i ≥ 32 || port ≥ 16 then refused s 3
    else done (s.modPkg fun p => { p with
      peers := if s.arg 2 1 == 1 then p.peers.insert i ⟨port, s.arg 8 16, false⟩ else p.peers.erase i }) []

/-- Whether the 256 bytes of a snapshot descriptor are well formed: 2 for bytes that must be zero, 3 for a field outside its range
(R359). -/
def snapStatus (d : Nat) : Nat :=
  let base := field d 0 16
  let n := field d 0x14 4
  let ranges := (List.range n).map fun i => (field d (0x20 + 16 * i) 10, field d (0x2e + 16 * i) 2)
  if field d 0x18 8 != 0 || field d 0xa0 96 != 0 || base ≥ 2 ^ 52 || ranges.any (·.2 != 0) then 2
  else if n > 8 || base % 65536 != 0 || field d 0x10 4 < 1 || field d 0x10 4 > 65536 || base + 65536 * field d 0x10 4 > hbmEnd ||
      ranges.any (·.1 % 65536 != 0) then 3
  else 0

/-- SNAPDESC (R359). -/
def execSnapdesc (s : State) : Host.Outcome State Fault Refusal :=
  .next <| s.serve 0x0024 (· == 258) fun s =>
    s.onCtx fun x =>
      let st := snapStatus (s.arg 2 256)
      if st != 0 then refused s st
      else done (s.modCtx x.num fun x => { x with snapDesc := bytesOf 256 (s.arg 2 256), poolGone := [] }) []

/-- TOLERANCE (R380). -/
def execTolerance (s : State) : Host.Outcome State Fault Refusal :=
  .next <| s.serve 0x0025 (· == 8) fun s =>
    let i := s.arg 1 1
    let v := BitVec.ofNat 32 (s.arg 4 4)
    if !s.argZero 2 2 then refused s 2
    else
      match s.arg 0 1 with
      | 0 => if i < 36 then done (s.modPkg fun p => { p with tolCluster := p.tolCluster.set i v }) [] else refused s 3
      | 1 => if i < 4 then done (s.modPkg fun p => { p with tolDie := p.tolDie.set i v }) [] else refused s 3
      | 2 => done (s.modPkg fun p => { p with tolPackage := v }) []
      | _ => refused s 3

/-- NOCWEIGHT (R19, R20). -/
def execNocweight (s : State) : Host.Outcome State Fault Refusal :=
  .next <| s.serve 0x0026 (· == 7) fun s =>
    let ws := (List.range 7).map fun i => s.arg i 1
    if ws.any fun w => w < 1 || w > 15 then refused s 3
    else done (s.modPkg fun p => { p with weights := ws }) []

/-- Retire the pages of a list (R361). -/
def State.retireAll (s : State) (pages : List Nat) : State :=
  s.modPkg fun p => { p with retireList := p.retireList ++ (pages.filter fun g => !p.retireList.contains g).eraseDups }

/-- RETIRED (R361, R374, R383): the pages of the list are retired, before step 4 of bring-up at that step. -/
def execRetired (s : State) : Host.Outcome State Fault Refusal :=
  .next <| s.serve 0x0027 (· % 8 == 0) fun s =>
    let n := s.pkg.reqField 2 2 / 8
    let pages := (List.range n).map fun i => s.arg (8 * i) 8
    if !s.ready && s.pkg.status.toNat % 16 < 4 then done (s.modPkg fun p => { p with retireHeld := p.retireHeld ++ pages }) []
    else done (s.retireAll pages) []

/-- TABLES (R237, R240, R255). -/
def execTables (s : State) : Host.Outcome State Fault Refusal :=
  .next <| s.serve 0x0028 (· == 0) fun s =>
    done s (bytesOf 8 s.pkg.wvBase ++ bytesOf 8 s.pkg.biasBase ++ bytesOf 8 s.pkg.compBase)

/-- SLEEPREQ (R380). -/
def execSleepreq (s : State) : Host.Outcome State Fault Refusal :=
  .next <| s.serve 0x0029 (· == 0) fun s => done (s.modPkg fun p => { p with sleepReq := true }) []

/-- The partition and context setup in force, as words (R384). -/
def State.setup (s : State) : List Nat :=
  s.pkg.clusterPart ++ (s.ctxs.vals.filter (·.alive)).flatMap fun x =>
    [x.num, x.part, x.privileged.toNat, x.test.toNat, x.ringM, x.vector, x.ringBase, x.saveBase, x.saveSize]

/-- ATTEST (R384): the report that the security engine signs. -/
def execAttest (s : State) : Host.Outcome State Fault Refusal :=
  .next <| s.serve 0x0030 (· == 48) fun s =>
    let body := bytesOf 48 (s.arg 0 48) ++ bytesOf 48 Config.imageDigest ++ bytesOf 48 (Config.setupDigest s.setup) ++
      bytesOf 4 Config.rililoVersion.toNat ++ bytesOf 4 Config.serial.toNat
    done s (body ++ bytesOf 96 (Config.signature (body.map (·.toNat))))

/-- A service number the table does not give: status 1; before the device is ready, status 5 as every other service. -/
def execMailboxUnknownService (s : State) : Host.Outcome State Fault Refusal :=
  .next <|
    match s.pkg.request with
    | none => s
    | some q =>
      if serviceNumbers.contains (s.pkg.reqField 0 2) then s
      else s.respond q (if s.ready then 1 else 5) []

end Sys2Proof.Machine
end

