-- ==== Sys2Proof/Machine/Power.lean ====
section
/-! DEFINITION. Power states (R380, R381), heat (R382), and start-up (R383). -/

namespace Sys2Proof.Machine

/-! ## Entering power states (R380) -/

/-- Whether a core has nothing to do: no cohort of it can issue, and its matrix and copy queues are empty. -/
def State.quiet (s : State) (core : Nat) : Bool :=
  !(s.cohorts.vals.any fun c => c.core == core && s.canIssue c) &&
    !(s.eng.tileOps.any fun o => o.at'.core == core && (s.crews.find o.crew).any (·.core.isSome)) &&
    !(s.eng.copyOps.any fun o => o.engine.isNone && o.at'.stream.isNone && o.at'.core == core &&
      (s.crews.find o.at'.crew).any (·.core.isSome))

/-- POWER_ENTER_C1: 1024 clocks with nothing to do, 40 ns within the cluster's tolerance. -/
def execPowerEnterC1 (core : Nat) (s : State) : Host.Outcome State Fault Refusal :=
  .next <|
    let k := s.core core
    if core < 288 && k.power == 0 && k.idle ≥ 1024 && s.quiet core && 40 ≤ (s.pkg.tolCluster.getD (clusterOf core) 0).toNat then
      s.setCore core { k with power := 1, last := s.clock }
    else s

/-- Whether a cluster may enter C2: all eight cores in C1 for 16 384 clocks, no crew in SLEEP or with its timer armed. -/
def State.mayC2 (s : State) (cl : Nat) : Bool :=
  let cores := (List.range 8).map (8 * cl + ·)
  cl < 36 && (cores.all fun n => (s.core n).power == 1 && s.clock - (s.core n).last ≥ 16384) &&
    3000 ≤ (s.pkg.tolCluster.getD cl 0).toNat &&
    !(s.crews.vals.any fun w => w.core.any cores.contains &&
      (w.timer[63] || (s.cohortsOf w.id).any fun c => match c.st with | .asleep _ => true | _ => false))

/-- The caches of a core are dropped with Evict (R229, R251, R263). -/
def State.evictCore (s : State) (n : Nat) : State :=
  [tcAgent n, l1Agent n, icAgent n].foldl (init := s) fun s a =>
    let s := s.forget a fun _ => true
    (s.coh.units.filter fun e => (e.2.held.find a).isSome).foldl (fun s e => s.sendEvict e.1 a) s

/-- POWER_ENTER_C2 (R182, R325, R331): caches are dropped, resident crews descheduled with their live segments saved, and %clock stops. -/
def execPowerEnterC2 (cl : Nat) (s : State) : Host.Outcome State Fault Refusal :=
  .next <|
    if !s.mayC2 cl then s
    else (List.range 8).foldl (init := s) fun s i =>
      let n := 8 * cl + i
      let s := (s.crewsOn n).foldl (fun s w => (s.saveSegs w.id).setCrew { w with running := false }) s
      (s.evictCore n).setCore n { s.core n with power := 2, last := s.clock }

/-- POWER_ENTER_C3: all nine clusters in C2, the die's copy engines idle, and no home on it serving a request. -/
def execPowerEnterC3 (die : Nat) (s : State) : Host.Outcome State Fault Refusal :=
  .next <|
    if die < 4 && ((List.range 72).all fun i => (s.core (72 * die + i)).power == 2) && 5000 ≤ (s.pkg.tolDie.getD die 0).toNat &&
        !(s.eng.copyOps.any fun o => o.die == die && o.engine.isSome) &&
        !(s.coh.units.any fun e => secHome e.1 == die && e.2.req.isSome) then
      s.modPkg fun p => { p with diePower := p.diePower.set die 1 }
    else s

/-- POWER_ENTER_C4: all dies in service in C3, every engine idle, no stream with a ready command, the host's sleep request, and a package
tolerance of any exit time. -/
def execPowerEnterC4 (s : State) : Host.Outcome State Fault Refusal :=
  .next <|
    if ((List.range 4).all fun d => s.pkg.deadDies.contains d || s.pkg.diePower.getD d 0 == 1) && s.eng.copyOps.isEmpty &&
        s.eng.collOps.isEmpty && s.eng.tileOps.isEmpty && s.readyStreams.isEmpty && s.pkg.sleepReq &&
        s.pkg.tolPackage == 0xffffffff then
      s.modPkg fun p => { p with asleep := true, sleepReq := false }
    else s

/-! ## Leaving them (R381) -/

/-- POWER_WAKE: the first wake event of a core, a cluster or a die; in C4 only the host's wake counts. -/
def execPowerWake (r : PowerRes) (s : State) : Host.Outcome State Fault Refusal :=
  .next <|
    if s.pkg.asleep then s
    else match r with
      | .core n => s.wakeCore n
      | .cluster n => s.wakeCluster n
      | .die n => s.wakeDie n

/-- HOST_WAKE (R380): the package leaves C4. -/
def execHostWake (s : State) : Host.Outcome State Fault Refusal := .next (s.modPkg fun p => { p with asleep := false })

/-! ## Heat (R382) -/

/-- How near to 3200 W counts as approaching it: less than all of it. -/
def powerMargin : Nat := Config.powerMargin % 3200

/-- The clock changes its frequency: what is left of each core's fade tick takes as long as before (R175, R382). -/
def State.scaleTicks (s : State) (old new : Nat) : State :=
  { s with cores := s.cores.map fun k => { k with tickLeft := (k.tickLeft * new + old - 1) / old } }

/-- THERMAL_THROTTLE: near its limits the clock goes down by 100 MHz, to 1.8 GHz; else it goes up again. -/
def execThermalThrottle (milliC watts : Nat) (s : State) : Host.Outcome State Fault Refusal :=
  .next <|
    let t := s.modPkg fun p =>
      { p with mhz := if milliC ≥ 100000 || watts + powerMargin ≥ 3200 then max 1800 (p.mhz - 100) else min 3600 (p.mhz + 100) }
    t.scaleTicks s.pkg.mhz t.pkg.mhz

/-- OVERTEMP_SHUTDOWN: at 115 °C power goes from every die, and with it all that the device held. -/
def execOvertempShutdown (milliC : Nat) (s : State) : Host.Outcome State Fault Refusal :=
  .next <|
    if milliC < 115000 then s
    else { State.reset with clock := s.clock, free := s.free, nextId := s.nextId, pkg := { Package.reset with powered := false } }

/-! ## Start-up (R373, R383) -/

/-- A status register with its step, its dies, failed and ready. -/
def statusOf (step : Nat) (dies : List Nat) (failed ready : Bool) : Word :=
  BitVec.ofNat 32 (step + (dies.map fun d => 2 ^ (16 + d)).sum + 2 ^ 30 * failed.toNat + 2 ^ 31 * ready.toNat)

/-- The failure register's value for a unit and code. -/
def failureOf (unit code : Nat) : Word := BitVec.ofNat 32 (256 * (unit % 256) + code)

/-- The dies in service, as bring-up has found them. -/
def State.dies (s : State) : List Nat := (List.range 4).filter fun d => !s.pkg.deadDies.contains d

/-- Bring-up stops at a step (R373). -/
def State.bringUpStops (s : State) (step code : Nat) : State :=
  s.modPkg fun p => { p with status := statusOf step (if step < 4 then [] else s.dies) true false, failure := failureOf 0 code }

/-- A step of bring-up begins, and power-good's turn goes on with it (R373, R383). -/
def State.bringUpTo (s : State) (step : Nat) (b : BringUp) : State :=
  (s.modPkg fun p => { p with status := statusOf step (if step < 4 then [] else s.dies) false false }).defer (.hw (.powerGood b))

/-- The failure register after some units have failed: it holds the last. -/
def lastFailure (old : Word) (fails : List (Nat × Nat)) : Word :=
  match fails.getLast? with
  | some (u, code) => failureOf u code
  | none => old

/-- What a step of bring-up does (R383). A stack or die that fails leaves its die out, a port that fails stays down. -/
def State.bringUp (s : State) (b : BringUp) (step : Nat) : State :=
  match step with
  | 3 =>
    let out := ((b.badStacks.map (· / 2)) ++ b.badFabric ++ b.badDies).eraseDups
    let fails := b.badStacks.map (·, 3) ++ b.badFabric.map (·, 4) ++ b.badDies.map (·, 5)
    s.modPkg fun p => { p with deadDies := out, failure := lastFailure p.failure fails }
  | 4 => (s.retireAll s.pkg.retireHeld).modPkg fun p => { p with
      wvBase := Config.wvBase, biasBase := Config.biasBase, compBase := Config.compBase, retireHeld := [] }
  | 5 => s.modCmd fun c => { c with master := true }
  | 6 =>
    let s := s.modPkg fun p => { p with
      ports := (List.range 16).map fun i => { Port.reset with up := !b.badPorts.contains i }
      failure := lastFailure p.failure (b.badPorts.map (·, 6)), status := statusOf 6 s.dies false true }
    s.modCmd fun c => { c with master := !s.pkg.deadDies.isEmpty }
  | _ => s

/-- POWER_GOOD: the steps 1 to 6, one a turn, each reported while it runs. A key or a signature that fails stops step 1; Rililo's own failure stops one of the
others, which the manual leaves open. -/
def execPowerGood (b : BringUp) (s : State) : Host.Outcome State Fault Refusal :=
  .next <|
    let step := s.pkg.status.toNat % 16
    if !s.pkg.powered || s.ready || s.pkg.status[30] then s
    else if step = 0 then s.bringUpTo 1 b
    else if step = 1 then
      if !b.keyOk then s.bringUpStops 1 2 else if !b.sigOk then s.bringUpStops 1 1 else s.bringUpTo 2 b
    else
      let (x, s) := s.drawNat
      if b.internal && (step ≥ 6 || x % 2 == 1) then s.bringUpStops step 7
      else
        let s := s.bringUp b step
        if step ≥ 6 then s else s.bringUpTo (step + 1) b

end Sys2Proof.Machine
end

