-- ==== Sys2Proof/Machine/Dispatch.lean ====
section
/-! DEFINITION. One arm per instruction and step: its meaning. -/

namespace Sys2Proof.Machine

def exec (i : Instr) (s : State) : Host.Outcome State Fault Refusal :=
  match i with
  -- traces, guards and commit (06), and the waits at their boundaries (05)
  | .nop x => Sys2Proof.Machine.execNop x s
  | .illegal => Sys2Proof.Machine.execIllegal s
  | .trc x => Sys2Proof.Machine.execTrc x s
  | .guard x => Sys2Proof.Machine.execGuard x s
  | .guardr x => Sys2Proof.Machine.execGuardr x s
  | .guardnz x => Sys2Proof.Machine.execGuardnz x s
  | .guardFailFiling thread alt => Sys2Proof.Machine.execGuardFailFiling thread alt s
  | .skip x => Sys2Proof.Machine.execSkip x s
  | .commitNext x => Sys2Proof.Machine.execCommitNext x s
  | .commitSel x => Sys2Proof.Machine.execCommitSel x s
  | .commitInd x => Sys2Proof.Machine.execCommitInd x s
  | .commitCall x => Sys2Proof.Machine.execCommitCall x s
  | .commitRet x => Sys2Proof.Machine.execCommitRet x s
  | .commitExit x => Sys2Proof.Machine.execCommitExit x s
  | .commitBar x => Sys2Proof.Machine.execCommitBar x s
  | .commitRwait x => Sys2Proof.Machine.execCommitRwait x s
  | .rwaitTimeout crew addr => Sys2Proof.Machine.execRwaitTimeout crew addr s
  | .matchKey x => Sys2Proof.Machine.execMatchKey x s
  | .trigger x => Sys2Proof.Machine.execTrigger x s
  | .yield x => Sys2Proof.Machine.execYield x s
  | .trap x => Sys2Proof.Machine.execTrap x s
  | .brk x => Sys2Proof.Machine.execBrk x s
  | .srd x => Sys2Proof.Machine.execSrd x s
  | .qstat x => Sys2Proof.Machine.execQstat x s
  -- integer and address arithmetic (07)
  | .iadd x => Sys2Proof.Machine.execIadd x s
  | .isub x => Sys2Proof.Machine.execIsub x s
  | .imul x => Sys2Proof.Machine.execImul x s
  | .imulh x => Sys2Proof.Machine.execImulh x s
  | .imad x => Sys2Proof.Machine.execImad x s
  | .imadLong x => Sys2Proof.Machine.execImadLong x s
  | .imin x => Sys2Proof.Machine.execImin x s
  | .imax x => Sys2Proof.Machine.execImax x s
  | .iaddc x => Sys2Proof.Machine.execIaddc x s
  | .and x => Sys2Proof.Machine.execAnd x s
  | .or x => Sys2Proof.Machine.execOr x s
  | .xor x => Sys2Proof.Machine.execXor x s
  | .lop3 x tt => Sys2Proof.Machine.execLop3 x tt s
  | .shl x => Sys2Proof.Machine.execShl x s
  | .shr x => Sys2Proof.Machine.execShr x s
  | .sha x => Sys2Proof.Machine.execSha x s
  | .funnel x => Sys2Proof.Machine.execFunnel x s
  | .bfe x => Sys2Proof.Machine.execBfe x s
  | .bfi x => Sys2Proof.Machine.execBfi x s
  | .popc x => Sys2Proof.Machine.execPopc x s
  | .clz x => Sys2Proof.Machine.execClz x s
  | .brev x => Sys2Proof.Machine.execBrev x s
  | .prmt x => Sys2Proof.Machine.execPrmt x s
  | .iset x => Sys2Proof.Machine.execIset x s
  | .pset x => Sys2Proof.Machine.execPset x s
  | .sel x => Sys2Proof.Machine.execSel x s
  | .mov x => Sys2Proof.Machine.execMov x s
  | .movi x => Sys2Proof.Machine.execMovi x s
  | .movi64 x => Sys2Proof.Machine.execMovi64 x s
  | .padd x => Sys2Proof.Machine.execPadd x s
  | .lea x => Sys2Proof.Machine.execLea x s
  | .cvti x => Sys2Proof.Machine.execCvti x s
  | .shfl x => Sys2Proof.Machine.execShfl x s
  | .vote x => Sys2Proof.Machine.execVote x s
  | .matchv x => Sys2Proof.Machine.execMatchv x s
  | .compact x => Sys2Proof.Machine.execCompact x s
  | .scan x => Sys2Proof.Machine.execScan x s
  | .redux x => Sys2Proof.Machine.execRedux x s
  -- floating point (08)
  | .fadd x => Sys2Proof.Machine.execFadd x s
  | .fmul x => Sys2Proof.Machine.execFmul x s
  | .ffma x => Sys2Proof.Machine.execFfma x s
  | .dadd x => Sys2Proof.Machine.execDadd x s
  | .dmul x => Sys2Proof.Machine.execDmul x s
  | .dfma x => Sys2Proof.Machine.execDfma x s
  | .hadd2 x => Sys2Proof.Machine.execHadd2 x s
  | .hmul2 x => Sys2Proof.Machine.execHmul2 x s
  | .hfma2 x => Sys2Proof.Machine.execHfma2 x s
  | .fmin x => Sys2Proof.Machine.execFmin x s
  | .fmax x => Sys2Proof.Machine.execFmax x s
  | .dmin x => Sys2Proof.Machine.execDmin x s
  | .dmax x => Sys2Proof.Machine.execDmax x s
  | .hmin2 x => Sys2Proof.Machine.execHmin2 x s
  | .hmax2 x => Sys2Proof.Machine.execHmax2 x s
  | .fset x => Sys2Proof.Machine.execFset x s
  | .dset x => Sys2Proof.Machine.execDset x s
  | .hset2 x => Sys2Proof.Machine.execHset2 x s
  | .fclass x => Sys2Proof.Machine.execFclass x s
  | .frnd x => Sys2Proof.Machine.execFrnd x s
  | .frcp x => Sys2Proof.Machine.execFrcp x s
  | .frsq x => Sys2Proof.Machine.execFrsq x s
  | .fex2 x => Sys2Proof.Machine.execFex2 x s
  | .flg2 x => Sys2Proof.Machine.execFlg2 x s
  | .fsinp x => Sys2Proof.Machine.execFsinp x s
  | .fcosp x => Sys2Proof.Machine.execFcosp x s
  | .drcp x => Sys2Proof.Machine.execDrcp x s
  | .drsq x => Sys2Proof.Machine.execDrsq x s
  | .cvt x => Sys2Proof.Machine.execCvt x s
  | .pack x => Sys2Proof.Machine.execPack x s
  | .l6pack x => Sys2Proof.Machine.execL6pack x s
  | .l6unpk x => Sys2Proof.Machine.execL6unpk x s
  | .w4unpk x => Sys2Proof.Machine.execW4unpk x s
  | .jewelReexecute cohort => Sys2Proof.Machine.execJewelReexecute cohort s
  -- global memory (12, 13)
  | .ld x => Sys2Proof.Machine.execLd x s
  | .ldSplitGroup cohort lanes => Sys2Proof.Machine.execLdSplitGroup cohort lanes s
  | .st x => Sys2Proof.Machine.execSt x s
  | .atom x op cls => Sys2Proof.Machine.execAtom x op cls s
  | .atomcas x => Sys2Proof.Machine.execAtomcas x s
  | .pfetch x => Sys2Proof.Machine.execPfetch x s
  | .kld x => Sys2Proof.Machine.execKld x s
  | .fence x => Sys2Proof.Machine.execFence x s
  -- the scratchpad (09)
  | .lds x => Sys2Proof.Machine.execLds x s
  | .sts x => Sys2Proof.Machine.execSts x s
  | .atoms x => Sys2Proof.Machine.execAtoms x s
  | .renew x => Sys2Proof.Machine.execRenew x s
  | .arm x => Sys2Proof.Machine.execArm x s
  | .await x => Sys2Proof.Machine.execAwait x s
  | .spage x => Sys2Proof.Machine.execSpage x s
  -- the matrix unit (10)
  | .mma x => Sys2Proof.Machine.execMma x s
  | .mmasp x => Sys2Proof.Machine.execMmasp x s
  | .mzero x => Sys2Proof.Machine.execMzero x s
  | .mwait x => Sys2Proof.Machine.execMwait x s
  | .mld x => Sys2Proof.Machine.execMld x s
  | .mst x => Sys2Proof.Machine.execMst x s
  | .mrd x => Sys2Proof.Machine.execMrd x s
  | .mwr x => Sys2Proof.Machine.execMwr x s
  | .tdesc x => Sys2Proof.Machine.execTdesc x s
  | .matrixOpStart core => Sys2Proof.Machine.execMatrixOpStart core s
  | .tileFetch op => Sys2Proof.Machine.execTileFetch op s
  | .mmaGroup op => Sys2Proof.Machine.execMmaGroup op s
  | .tileOpComplete op => Sys2Proof.Machine.execTileOpComplete op s
  -- engines (16)
  | .xcopy x => Sys2Proof.Machine.execXcopy x s
  | .xcoll x => Sys2Proof.Machine.execXcoll x s
  | .xwait x => Sys2Proof.Machine.execXwait x s
  | .launch x => Sys2Proof.Machine.execLaunch x s
  | .copyEngineTake engine => Sys2Proof.Machine.execCopyEngineTake engine s
  | .copyChunk op => Sys2Proof.Machine.execCopyChunk op s
  | .completionWordWrite op => Sys2Proof.Machine.execCompletionWordWrite op s
  | .collectiveStep op => Sys2Proof.Machine.execCollectiveStep op s
  | .collectiveReduce op => Sys2Proof.Machine.execCollectiveReduce op s
  -- system registers and services (17)
  | .csrr x => Sys2Proof.Machine.execCsrr x s
  | .csrw x => Sys2Proof.Machine.execCsrw x s
  | .ctxPtrootWrite x => Sys2Proof.Machine.execCtxPtrootWrite x s
  | .crewTimerWrite x => Sys2Proof.Machine.execCrewTimerWrite x s
  | .errInjectL2Single x => Sys2Proof.Machine.execErrInjectL2Single x s
  | .errInjectL2Uncorrectable x => Sys2Proof.Machine.execErrInjectL2Uncorrectable x s
  | .errInjectHbmUncorrectable x => Sys2Proof.Machine.execErrInjectHbmUncorrectable x s
  | .errInjectCheckMismatch x => Sys2Proof.Machine.execErrInjectCheckMismatch x s
  | .errInjectFpDisturb x => Sys2Proof.Machine.execErrInjectFpDisturb x s
  | .errInjectDisarm x => Sys2Proof.Machine.execErrInjectDisarm x s
  | .injectionMade ctx => Sys2Proof.Machine.execInjectionMade ctx s
  | .version x => Sys2Proof.Machine.execVersion x s
  | .whoami x => Sys2Proof.Machine.execWhoami x s
  | .yieldcrew x => Sys2Proof.Machine.execYieldcrew x s
  | .injectauth x => Sys2Proof.Machine.execInjectauth x s
  | .faultq x => Sys2Proof.Machine.execFaultq x s
  | .callsvUnknown x => Sys2Proof.Machine.execCallsvUnknown x s
  | .sleep x => Sys2Proof.Machine.execSleep x s
  | .sleepExpire cohort => Sys2Proof.Machine.execSleepExpire cohort s
  -- drawing, waiting and admission (05, 06, 16)
  | .cohortDraw core => Sys2Proof.Machine.execCohortDraw core s
  | .binAged core => Sys2Proof.Machine.execBinAged core s
  | .fullcohortTimeout core => Sys2Proof.Machine.execFullcohortTimeout core s
  | .traceBufferGrant core => Sys2Proof.Machine.execTraceBufferGrant core s
  | .conduitStallResume cohort => Sys2Proof.Machine.execConduitStallResume cohort s
  | .deadlockProbeStart cohort => Sys2Proof.Machine.execDeadlockProbeStart cohort s
  | .deadlockProbeReturn crew => Sys2Proof.Machine.execDeadlockProbeReturn crew s
  | .joinDecrement crew => Sys2Proof.Machine.execJoinDecrement crew s
  | .crewAdmit core => Sys2Proof.Machine.execCrewAdmit core s
  | .steal die => Sys2Proof.Machine.execSteal die s
  -- translation (11)
  | .sideLogReplay core ctx page => Sys2Proof.Machine.execSideLogReplay core ctx page s
  | .sideLogRoomRetry core => Sys2Proof.Machine.execSideLogRoomRetry core s
  | .pageRetry core ctx page => Sys2Proof.Machine.execPageRetry core ctx page s
  -- coherence messages (12)
  | .rdtok agent unit => Sys2Proof.Machine.execRdtok agent unit s
  | .wrdie die unit => Sys2Proof.Machine.execWrdie die unit s
  | .wrall die unit => Sys2Proof.Machine.execWrall die unit s
  | .atomMessage r => Sys2Proof.Machine.execAtomMessage r s
  | .probe unit target one => Sys2Proof.Machine.execProbe unit target one s
  | .ack unit source tokens owner => Sys2Proof.Machine.execAck unit source tokens owner s
  | .nullack unit source => Sys2Proof.Machine.execNullack unit source s
  | .evict unit agent => Sys2Proof.Machine.execEvict unit agent s
  | .evictdata unit die => Sys2Proof.Machine.execEvictdata unit die s
  | .persreq agent unit => Sys2Proof.Machine.execPersreq agent unit s
  | .persdone agent unit => Sys2Proof.Machine.execPersdone agent unit s
  | .tokenRequestTimeout unit => Sys2Proof.Machine.execTokenRequestTimeout unit s
  | .persistentTableRetry unit => Sys2Proof.Machine.execPersistentTableRetry unit s
  | .clusterResponderNullack unit cluster => Sys2Proof.Machine.execClusterResponderNullack unit cluster s
  -- the Garnet monitor and timers (09, 17)
  | .garnetMonitorVisit core => Sys2Proof.Machine.execGarnetMonitorVisit core s
  | .garnetRenewTick core => Sys2Proof.Machine.execGarnetRenewTick core s
  | .awaitStale cohort => Sys2Proof.Machine.execAwaitStale cohort s
  | .crewTimerFire crew => Sys2Proof.Machine.execCrewTimerFire crew s
  -- pre-emption, fault records and resolution (17, 18)
  | .preemptCrew crew resident => Sys2Proof.Machine.execPreemptCrew crew resident s
  | .crewRestore crew core => Sys2Proof.Machine.execCrewRestore crew core s
  | .savedCrewRescue crew => Sys2Proof.Machine.execSavedCrewRescue crew s
  | .faultRecordWrite r => Sys2Proof.Machine.execFaultRecordWrite r s
  | .consumerCountWrite ctx => Sys2Proof.Machine.execConsumerCountWrite ctx s
  | .resolveWrite ctx => Sys2Proof.Machine.execResolveWrite ctx s
  -- streams and launches (16)
  | .tailWake stream => Sys2Proof.Machine.execTailWake stream s
  | .streamCommandStart => Sys2Proof.Machine.execStreamCommandStart s
  | .cmdLaunch stream => Sys2Proof.Machine.execCmdLaunch stream s
  | .cmdCopy stream => Sys2Proof.Machine.execCmdCopy stream s
  | .cmdColl stream => Sys2Proof.Machine.execCmdColl stream s
  | .cmdWaitmem stream => Sys2Proof.Machine.execCmdWaitmem stream s
  | .waitmemRecheck stream => Sys2Proof.Machine.execWaitmemRecheck stream s
  | .cmdWritemem stream => Sys2Proof.Machine.execCmdWritemem stream s
  | .cmdFence stream => Sys2Proof.Machine.execCmdFence stream s
  | .cmdBias stream => Sys2Proof.Machine.execCmdBias stream s
  | .launchWaitRelease slot => Sys2Proof.Machine.execLaunchWaitRelease slot s
  | .launchFinish slot => Sys2Proof.Machine.execLaunchFinish slot s
  -- the host, peers and the Crown (12, 20, 22)
  | .biasFlipToHost page => Sys2Proof.Machine.execBiasFlipToHost page s
  | .biasFlipToDevice page => Sys2Proof.Machine.execBiasFlipToDevice page s
  | .hostSnoop line => Sys2Proof.Machine.execHostSnoop line s
  | .hostMemAccess r => Sys2Proof.Machine.execHostMemAccess r s
  | .hostCacheResponse id bytes => Sys2Proof.Machine.execHostCacheResponse id bytes s
  | .crownDecide r => Sys2Proof.Machine.execCrownDecide r s
  | .cowCopy ctx page => Sys2Proof.Machine.execCowCopy ctx page s
  | .dieLost die => Sys2Proof.Machine.execDieLost die s
  | .tilpenFlitReceive port f => Sys2Proof.Machine.execTilpenFlitReceive port f s
  | .tilpenPortDown port => Sys2Proof.Machine.execTilpenPortDown port s
  | .peerAccessResponse id bytes => Sys2Proof.Machine.execPeerAccessResponse id bytes s
  -- the mailbox services (22); their payload is in the request buffer
  | .status => Sys2Proof.Machine.execStatus s
  | .eventack => Sys2Proof.Machine.execEventack s
  | .ctxcreate => Sys2Proof.Machine.execCtxcreate s
  | .ctxdestroy => Sys2Proof.Machine.execCtxdestroy s
  | .preempt => Sys2Proof.Machine.execPreempt s
  | .slice => Sys2Proof.Machine.execSlice s
  | .ptroot => Sys2Proof.Machine.execPtroot s
  | .testenable => Sys2Proof.Machine.execTestenable s
  | .partition => Sys2Proof.Machine.execPartition s
  | .streamtab => Sys2Proof.Machine.execStreamtab s
  | .commcreate => Sys2Proof.Machine.execCommcreate s
  | .peerset => Sys2Proof.Machine.execPeerset s
  | .snapdesc => Sys2Proof.Machine.execSnapdesc s
  | .tolerance => Sys2Proof.Machine.execTolerance s
  | .nocweight => Sys2Proof.Machine.execNocweight s
  | .retired => Sys2Proof.Machine.execRetired s
  | .tables => Sys2Proof.Machine.execTables s
  | .sleepreq => Sys2Proof.Machine.execSleepreq s
  | .attest => Sys2Proof.Machine.execAttest s
  | .mailboxUnknownService => Sys2Proof.Machine.execMailboxUnknownService s
  -- power and bring-up (22)
  | .powerEnterC1 core => Sys2Proof.Machine.execPowerEnterC1 core s
  | .powerEnterC2 cluster => Sys2Proof.Machine.execPowerEnterC2 cluster s
  | .powerEnterC3 die => Sys2Proof.Machine.execPowerEnterC3 die s
  | .powerEnterC4 => Sys2Proof.Machine.execPowerEnterC4 s
  | .powerWake r => Sys2Proof.Machine.execPowerWake r s
  | .hostWake => Sys2Proof.Machine.execHostWake s
  | .thermalThrottle milliC watts => Sys2Proof.Machine.execThermalThrottle milliC watts s
  | .overtempShutdown milliC => Sys2Proof.Machine.execOvertempShutdown milliC s
  | .powerGood b => Sys2Proof.Machine.execPowerGood b s
  | .backInvalidateResponse line bytes => Sys2Proof.Machine.execBackInvalidateResponse line bytes s

end Sys2Proof.Machine
end

