-- ==== Sys2Proof/Machine/Sched.lean ====
section
/-! DEFINITION. The passing of a clock, and the turns that are then due. Where the manual leaves open which of several things comes
first, the order here is one of those it allows, or is drawn freely. -/

namespace Sys2Proof.Machine

/-! ## What a clock changes by itself -/

/-- A core's clock: the fade tick, at least 1 µs long (R175), and the count of its idle clocks (R380). -/
def State.tickCore (s : State) (n : Nat) : CoreSt :=
  let k := s.core n
  let k := if k.tickLeft ≤ 1 then { k with tick := k.tick + 1, tickLeft := s.pkg.mhz + Config.freeNat (s.free + n) }
    else { k with tickLeft := k.tickLeft - 1 }
  { k with idle := if s.quiet n then k.idle + 1 else 0 }

/-- A crew's clock, and the timers of its wait points (R86, R331): they count while the crew is resident and scheduled. -/
def Crew.count (w : Crew) : Crew :=
  if w.running && w.core.isSome then
    { w with clk := w.clk + 1, groups := w.groups.map fun (e : Nat × Group) => (e.1, { e.2 with elapsed := e.2.elapsed + 1 }) }
  else w

/-- Changes of partition that waited for a cluster to be free (R252). -/
def State.settleParts (s : State) : State :=
  let now := s.pkg.partWait.filter fun e => !s.occupied e.1
  if now.isEmpty then s
  else s.modPkg fun p => { p with
    clusterPart := now.foldl (fun l e => l.set e.1 e.2) p.clusterPart
    partWait := p.partWait.filter fun e => !now.contains e }

/-- A YIELD no longer waits for cohorts that have ended (R96). -/
def State.settleYields (s : State) : State :=
  { s with cohorts := s.cohorts.map fun (e : Nat × Cohort) =>
      (e.1, { e.2 with yieldFor := e.2.yieldFor.filter fun k => (s.cohorts.find k).isSome }) }

/-- Entries of the quantum buffer whose crews have ended are flushed when their homes take them (R323). -/
def State.settleQuantum (s : State) : State :=
  (((s.eng.quantum.filter fun q => (s.crews.find q.eff.crew).isNone).map (·.core)).eraseDups).foldl State.flushQuantum s

/-- Crews that were stopped and left resident run again, in ascending order, none of them before a lower crew of its launch that is saved (R83). Nothing
says when (log 51): the latest is the end of every 2^16th clock, so that each runs again. -/
def State.resumeLeft (s : State) : State :=
  let saved (w : Crew) : Bool := s.crews.vals.any fun k => k.launch == w.launch && k.ordinal < w.ordinal && k.core.isNone
  if s.clock % 2 ^ 16 != 0 then s
  else (s.crews.vals.filter fun w => w.stopping == some true && w.core.isSome && s.drained w.id && !saved w).foldl State.resumeCrew s

/-- Whether a page of HBM holds write-version counters (R237). -/
def State.counterPage (s : State) (a : Nat) : Bool := a < s.pkg.wvBase + 4 * (hbmEnd / 2 ^ 16) && s.pkg.wvBase < a + 2 ^ 16

/-- Pages that the device needs whatever happens come back to it where they are in host bias (log 38): the stream table's, and the counters'
pages (R237). -/
def State.settleTab (s : State) : State :=
  let s := if s.cmd.streamTab = 0 then s else s.takeBack [s.cmd.streamTab]
  s.takeBack (((s.coh.bias.filter fun e => e.2).map fun e => 2 ^ 16 * e.1).filter s.counterPage)

/-! ## What is due on a core -/

/-- A step that is due under a condition. -/
def due (b : Bool) (i : Instr) : List Turn := if b then [.hw i] else []

/-- The groups of a core whose crews run, and whether a port has room for a cohort. -/
def State.runsOn (s : State) (n : Nat) : List WaitGroup := (s.groupsOn n).filter fun g => (s.crews.find g.key.crew).any (·.running)
def State.roomOn (s : State) (n : Nat) : Bool := (List.range 4).any fun p => s.portLoad n p < 16

/-- Whether age makes a bin of a core drawable, or lets the core read a header that it does not know. -/
def State.agedOn (s : State) (n : Nat) : Bool :=
  s.roomOn n && (s.runsOn n).any fun g =>
    (s.headWanted g && !s.opAsked (headId g.key.crew)) ||
      (!g.full && s.aged g && s.keyKnown g.key && !g.overflow && !s.keyFull g.key)

/-- Whether a group of a core has waited too long to be full (R99). -/
def State.lateOn (s : State) (n : Nat) : Bool := (s.runsOn n).any fun g => s.keyFull g.key && !g.full && s.clock ≥ g.oldest + 2 ^ 20

/-- Whether a core's bins ask for something. -/
def State.binsDue (s : State) (n : Nat) : Bool := s.agedOn n || s.lateOn n || (s.roomOn n && (s.pickGroup n).isSome)

/-- Whether a thread waits for room in a core's side log (R236). -/
def State.roomParked (s : State) (n : Nat) : Bool := s.threads.vals.any fun t => match t.place with
  | .parked p => p.core == n && p.why == .room
  | _ => false

/-- Whether work waits on a core that is in C1 or C2 (R381). -/
def State.wakeDue (s : State) (n : Nat) : Bool :=
  -- in C2 the crews are descheduled until their cluster returns
  let up : State := { s with crews := s.crews.map fun (e : Nat × Crew) =>
    if ((s.core n).power == 2) && (e.2.core == some n) then (e.1, { e.2 with running := e.2.stopping.isNone }) else e }
  (up.cohorts.vals.any fun c => c.core == n && up.canIssue c) || up.binsDue n || (s.roomParked n && s.logRoom n > 0) ||
    (s.recordsFor n).any fun r => (s.cmd.launches.find r.slot).any fun l => l.phase == .running && s.serves n l && s.fits n l

/-- The turns due on a core for its bins, its buffers and its fade; in C1 its segments still age (R176), and in C1 and C2 work wakes it. -/
def State.dueCore (s : State) (n : Nat) (ticked : Bool) : List Turn :=
  let k := s.core n
  due (ticked && k.power < 2 && k.tick % 64 == 0) (.garnetMonitorVisit n) ++
  if k.power != 0 then due (s.wakeDue n) (.powerWake (.core n))
  else
    (if s.agedOn n then [.hw (.binAged n)] else due (s.roomOn n && (s.pickGroup n).isSome) (.cohortDraw n)) ++
    due (s.lateOn n) (.fullcohortTimeout n) ++
    due (s.cohorts.vals.any fun c => c.core == n && c.st == .buffer) (.traceBufferGrant n) ++
    due (s.pickRecord n).isSome (.crewAdmit n) ++
    due (s.nextTile n).isSome (.matrixOpStart n) ++
    due (s.roomParked n && s.logRoom n > 0) (.sideLogRoomRetry n) ++
    due (k.idle ≥ 1024 && 40 ≤ (s.pkg.tolCluster.getD (clusterOf n) 0).toNat) (.powerEnterC1 n)

/-- The cohort that a port issues (R43, R83): one that has been held for 256 clocks, the highest in precedence; else one of those that can
issue, which the manual leaves open. -/
def State.dueIssue (s : State) (n port : Nat) : List Turn × State :=
  if (s.core n).power != 0 then ([], s)
  else
    let cs := s.cohorts.vals.filter fun c => c.core == n && c.port == port && s.canIssue c
    match s.byPrec cs.length (cs.filter fun c => s.clock ≥ c.nextIssue + 255), cs with
    | c :: _, _ => ([.issue c.id], s)
    | [], [] => ([], s)
    | [], c :: cs =>
      let (x, s) := s.drawNat
      ([.issue ((c :: cs).getD (x % (cs.length + 1)) c).id], s)

/-- The turns due for a cohort that waits (R90, R92, R169, R180, R338). -/
def State.dueCohort (s : State) (c : Cohort) : List Turn :=
  (if c.rexec.isEmpty then [] else [.hw (.jewelReexecute c.id)]) ++
  match c.st with
  | .asleep t => if (s.crews.find c.crew).any fun w => t ≤ w.clk then [.hw (.sleepExpire c.id)] else []
  | .conduit since =>
    if s.conduitReadyAt c then [.hw (.conduitStallResume c.id)]
    else if s.clock ≥ since + 512 && (s.crews.find c.crew).any (·.probe.isNone) then [.hw (.deadlockProbeStart c.id)] else []
  | .await _ _ =>
    if (s.core c.core).power < 2 && c.lanes.any fun l => l.await.any fun w => !w.ok && (s.generation c.crew w.addr).isNone then [.hw (.awaitStale c.id)] else []
  | _ => []

/-- The turns due for a crew (R86, R88, R92, R326, R333, R340). -/
def State.dueCrew (s : State) (w : Crew) : List Turn :=
  due w.probe.isSome (.deadlockProbeReturn w.id) ++
  due (w.timer[63] && w.timer.toNat % 2 ^ 63 ≤ w.clk) (.crewTimerFire w.id) ++
  w.groups.flatMap (fun g => due (16 * g.2.timeout ≤ g.2.elapsed) (.rwaitTimeout w.id g.1)) ++
  due ((w.triggered && !w.decremented) || (s.unexited w.id).isEmpty) (.joinDecrement w.id) ++
  (match w.stopping with
    | some r => due (!r || !s.drained w.id) (.preemptCrew w.id r)
    | none => []) ++
  due (w.core.isNone && (s.launchOf w).any fun l => !s.anyRoom l w.id) (.savedCrewRescue w.id)

/-! ## What is due elsewhere -/

/-- The turns due for tile operations (R203 to R215). -/
def State.dueTiles (s : State) : List Turn :=
  s.eng.tileOps.flatMap fun o =>
    if !o.started || !s.tileRuns o then []
    else if o.prog ≥ o.groups then [.hw (.tileOpComplete o.id)]
    else match o.kind with
      | .mma _ _ _ _ _ _ => .hw (.tileFetch o.id) :: due (s.missing o).isEmpty (.mmaGroup o.id)
      | _ => [.hw (.tileFetch o.id)]

/-- The turns due for copies and collectives (R290 to R299). -/
def State.dueEngines (s : State) : List Turn :=
  let untaken (die : Nat) : Bool := s.eng.copyOps.any fun o => o.engine.isNone && o.die == die && s.attrRuns o.at'
  (List.range 32).flatMap (fun e => due (untaken (e / 8)) (.copyEngineTake e)) ++
  s.eng.copyOps.flatMap (fun o =>
    if o.engine.isNone || o.waiting.isSome || !s.copyRuns o then []
    else if 4096 * o.prog ≥ o.total && o.comp.isSome then [.hw (.completionWordWrite o.id)] else [.hw (.copyChunk o.id)]) ++
  s.eng.collOps.flatMap fun o =>
    if !s.collTurn o || o.waiting.isSome then []
    else .hw (.collectiveReduce o.id) :: .hw (.collectiveStep o.id) :: due o.comp.isSome (.completionWordWrite o.id)

/-- The turns due for streams and launches (R301 to R308). -/
def State.dueStreams (s : State) : List Turn :=
  (if s.cmd.streamTab = 0 then []
    else (List.range 1024).flatMap fun n => due (s.served n && (s.stream n).tailPa.isNone) (.tailWake n)) ++
  due (s.cmd.streams.any (fun e => e.2.done) || !s.readyStreams.isEmpty) .streamCommandStart ++
  s.cmd.launches.vals.flatMap fun l =>
    due (l.phase == .finished || (l.phase == .running && l.decremented ≥ l.crews)) (.launchFinish l.slot)

/-- Side-log entries whose pages have become writable by other means than the store that they wait for (R235). -/
def State.dueLog (s : State) : List Turn :=
  (s.eng.sideLog.filterMap fun e =>
    match s.reachOf (s.walk (tcAgent e.core) (s.regsOf e.eff.ctx).ptroot (s.privOf e.eff.ctx) e.eff.va .write) with
    | .go key _ _ => if s.stalled e.eff.thread key e.eff.bytes.length || e.core == savedCore then none else some (Turn.hw (.sideLogReplay e.core e.eff.ctx (pageOf e.eff.va)))
    | _ => none).eraseDups

/-- The turns due at homes (R248). -/
def State.dueUnits (s : State) : List Turn :=
  s.coh.units.flatMap fun e =>
    let old (r : TokReq) : Bool := r.old s.clock && (r.fails < 2 || r.persistent)
    due (e.2.req.any old || e.2.queue.any old) (.tokenRequestTimeout e.1) ++
    due (e.2.queue.any (e.2.queuedPers s.clock)) (.persistentTableRetry e.1)

/-- The power states that the Regulator enters (R380). -/
def State.duePower (s : State) : List Turn :=
  let deep (d : Nat) : Bool := (List.range 72).all fun i => (s.core (72 * d + i)).power == 2
  ((List.range 36).filterMap fun c => if s.mayC2 c then some (.hw (.powerEnterC2 c)) else none) ++
  ((List.range 4).filterMap fun d => if deep d && s.pkg.diePower.getD d 0 == 0 then some (.hw (.powerEnterC3 d)) else none) ++
  (if s.pkg.sleepReq then [.hw .powerEnterC4] else [])

/-- Time slicing (R325, R375): at the end of a slice of a partition, the crews of its contexts make way for records of others. -/
def State.dueSlices (s : State) : List Turn :=
  let partOf (ctx : Nat) : Nat := ((s.ctxs.find ctx).map (·.part)).getD 0
  let waiting (ctx : Nat) : Bool := s.cmd.records.any fun r => (s.cmd.launches.find r.slot).any fun l =>
    l.ctx != ctx && partOf l.ctx == partOf ctx
  s.crews.vals.filterMap fun w =>
    let n := s.pkg.slices.getD (partOf w.ctx) 0
    if n != 0 && s.clock % (n * s.pkg.mhz) == 0 && w.running && waiting w.ctx then some (.hw (.preemptCrew w.id false)) else none

/-- The dies whose distributors may steal (R309). -/
def State.dueSteals (s : State) : List Turn :=
  if s.cmd.master then []
  else (List.range 4).filterMap fun d =>
    if s.starved d && (s.stealable d).isSome then some (.hw (.steal d)) else none

/-! ## What happens when the manual does not say -/

/-- A block leaves its slice for another (R241): one of the set, which the manual leaves open. The home's is written back where it is dirty,
and a proxy gives the units of the block up. -/
def State.victim (s : State) (slice set : Nat) : State :=
  let bs := s.blocksIn slice set
  if bs.length ≤ s.waysOf slice set then s
  else
    let (x, s) := s.drawNat
    let b := bs.getD (x % bs.length) 0
    let p := proxyAgent (slice / 48)
    let s :=
      if sliceOf (512 * b) == slice then
        if (s.coh.blocks.find b).isSome then s.writeBack b else (blockSecs b).foldl State.dropHost s
      else (s.coh.units.filter fun e => e.1 / 16 == b && (e.2.held.find p).isSome).foldl (fun s e => s.sendEvict e.1 p) s
    s.trimL2 slice set

/-- A half of an atomic that returns a value, whose page has been retired, is translated again (R361); where its page is not mapped it waits, with one
record (R232). -/
def State.moveHalf (s : State) (h : Half) : State :=
  match h.ret, h.eff with
  | some _, some (core, e) =>
    if !s.pkg.retireList.contains (h.pa / 2 ^ 16) then s
    else
      let (q, s) := s.translate (tcAgent core) e.ctx (s.regsOf e.ctx).ptroot (s.privOf e.ctx) e.va .both none
      match s.reachOf q with
      | .go key _ _ => if s.remoteKey key then s else s.modCoh fun c => { c with halves := c.halves.map fun (g : Half) => if g = h then { g with pa := key } else g }
      | .page _ => if s.recordOpen e.ctx core (pageOf e.va) then s else s.report { s.writeRec core e .page with recov := true }
      | .prot => s.terminateBy (s.writeRec core e .prot)
      | _ => s
  | _, _ => s

/-- The half of an atomic that is due (R261): the first that no other thread's commit hold and nothing else at its home holds back. What its tokens are
taken from is settled first (R229), and the lanes of a request make one sequence at a word. -/
def State.secondHalf (s : State) : State :=
  let s := s.coh.halves.foldl State.moveHalf s
  match s.coh.halves.find? fun h => !(s.stalled h.thread h.pa 2 || (h.ret.isSome && s.pkg.retireList.contains (h.pa / 2 ^ 16))) with
  | some h => (s.complete [sectorOf h.pa]).flushHalves fun g => g.req == h.req && g.pa == h.pa
  | none => if s.coh.halves.isEmpty then s else s.defer .half

/-- A turn that is no step of the table: what belongs to a step that has been made, and the host's writes to BAR0. -/
def State.other (t : Turn) (s : State) : State :=
  match t with
  | .half => s.secondHalf
  | .reissue id => s.reissue id
  | .arrive id => s.reachHome id
  | .retireWay a => s.quarantineWay a
  | .victim slice set => s.victim slice set
  | .serve port => s.servePort port
  | .mmio off w => s.mmioWrite off w
  | .issue _ | .hw _ => s

/-- One choice a clock: an agent evicts a unit, a block leaves L2, the L2 drops a sector of the host's, a resident crew that was stopped
runs again after the lower ones of its launch (R83), a holder filter is lost, or nothing (R241, R249, R251, R325, R376). -/
def State.spontaneous (s : State) : State :=
  let (x, s) := s.drawNat
  let pick {α : Type} (l : List α) : Option α := l[x / 8 % (l.length + 1)]?
  match x % 8 with
  | 0 =>
    match pick (s.coh.units.flatMap fun e => e.2.held.map fun h => (e.1, h.1)) with
    | some (sec, a) =>
      let dirty := (s.unit sec).owner == some a && 902 ≤ a && a < 906
      s.post (.hw (if dirty then .evictdata sec (a - 902) else .evict sec a))
    | none => s
  | 1 =>
    match pick (s.coh.blocks.filter fun e => e.1 < hbmEnd / 512) with
    | some e => s.writeBack e.1
    | none => s
  | 2 =>
    match pick (s.coh.hostHeld.map (·.1)) with
    | some sec => s.dropHost sec
    | none => s
  | 3 =>
    let lower (w : Crew) : Bool := s.crews.vals.any fun k => k.launch == w.launch && k.ordinal < w.ordinal && (k.core.isNone || k.stopping == some true)
    match pick (s.crews.vals.filter fun w => w.stopping == some true && w.core.isSome && s.drained w.id && !lower w) with
    | some w => s.resumeCrew w
    | none => s
  | 4 =>
    match pick s.coh.units with
    | some e => s.setUnit e.1 { e.2 with filter := .coarse (BitVec.allOnes 15) }
    | none => s
  | _ => s

/-! ## One clock -/

/-- The ports that have a cohort, in ascending order: their issues of one clock take effect in it (R91, R129, R203). -/
def State.ports (s : State) : List Nat :=
  (s.cohorts.vals.foldl (fun (m : Map Unit) c => m.insert (4 * c.core + c.port) ()) []).map (·.1)

/-- The issue turns of every port with a cohort. -/
def State.dueIssues (s : State) : List Turn × State :=
  s.ports.foldl (init := ([], s)) fun (r : List Turn × State) p =>
    let (t, s) := r.2.dueIssue (p / 4) (p % 4)
    (r.1 ++ t, s)

/-- One clock passes (R15). While the cores are held in reset, in C4, and without power, only the clock runs. -/
def State.idle (s : State) : State :=
  let old := s
  let s := { s with clock := s.clock + 1, agenda := s.later, later := [] }
  if !s.ready || !s.pkg.powered || s.pkg.asleep then s
  else
    let s := { s with
      cores := (List.range 288).map s.tickCore
      crews := s.crews.map fun (e : Nat × Crew) => (e.1, e.2.count)
      free := s.free + 288 }
    let s := s.settleParts.settleYields.settleRelies.settleQuantum.settleTab.resumeLeft
    let live := (List.range 288).filter fun n => !s.pkg.deadDies.contains (dieOf n)
    let ticked (n : Nat) : Bool := (s.core n).tick != (old.core n).tick
    let (issues, s) := s.dueIssues
    let s := s.spontaneous
    s.postAll (
      (live.filterMap fun n => if ticked n && (s.core n).power != 2 then some (.hw (.garnetRenewTick n)) else none) ++
      issues ++
      (live.flatMap fun n => s.dueCore n (ticked n)) ++
      (s.cohorts.vals.flatMap s.dueCohort) ++ (s.crews.vals.flatMap s.dueCrew) ++
      s.dueTiles ++ s.dueEngines ++ s.dueStreams ++ s.dueLog ++ s.dueUnits ++ s.duePower ++ s.dueSlices ++ s.dueSteals)

end Sys2Proof.Machine
end

