-- ==== Sys2Proof/Machine/Step.lean ====
section
/-! DEFINITION. One step: the first turn of the agenda, or, when it is empty, the passing of a clock. -/

namespace Sys2Proof.Machine

/-- One step of the machine. -/
def step (s : State) : Host.Outcome State Fault Refusal :=
  match s.agenda with
  | [] => .next s.idle
  | .issue c :: rest =>
    match State.fetch { s with agenda := rest } c with
    | .run i s => exec i s
    | .stop s => .next s
  | .hw i :: rest => exec i { s with agenda := rest, cur := none }
  | t :: rest => .next (State.other t { s with agenda := rest })

/-- The state with an instruction's word stored where the next step fetches it: the agenda's first turn issues a cohort of
one thread whose code the word is. -/
def State.withFetchWord (s : State) (nbits w : Nat) : State := s.placeWord (w % 2 ^ nbits % 2 ^ 128)

end Sys2Proof.Machine
end

