-- ==== Sys2Proof/WellFormed.lean ====
section
/-! DEFINITION. The instructions an encoding admits: the field checks of the manual's entries and register numbers that some
allotment can hold. A step that carries no word is well formed as it stands. -/

namespace Sys2Proof

/-- The selectors whose CSRW has a row of its own (R220, R332). -/
def csrwPlain (x : ImmI) : Bool := x.imm != 0x008 && x.imm != 0x030

/-- Field checks of the words (R22 to R42 and the entries). -/
def Instr.fieldsOk (i : Instr) : Bool :=
  match i.alu? with
  | some (o, x) => o.subOk x.sub.toNat && aluFieldsOk o x && (match x.b with | .src _ => true | .imm _ => o.immOk)
  | none =>
  match i with
  | .nop x | .trigger x | .yield x => !x.pred.reserved
  | .trc x => trcFieldsOk x
  | .guard x => guardFieldsOk 0x02 x
  | .guardr x => guardFieldsOk 0x03 x
  | .guardnz x => guardFieldsOk 0x04 x
  | .skip x => !x.pred.reserved && x.n != 0
  | .commitNext x => commitFieldsOk .next x
  | .commitSel x => commitFieldsOk .sel x
  | .commitInd x => commitFieldsOk .ind x
  | .commitCall x => commitFieldsOk .call x
  | .commitRet x => commitFieldsOk .ret x
  | .commitExit x => commitFieldsOk .exit x
  | .commitBar x => commitFieldsOk .bar x
  | .commitRwait x => commitFieldsOk .rwait x
  | .lop3 x _ => lop3FieldsOk x
  | .trap x => immFieldsOk .trap x
  | .brk x => immFieldsOk .brk x
  | .srd x => immFieldsOk .srd x
  | .movi x => immFieldsOk .movi x
  | .movi64 x => !x.pred.reserved && x.d.file != .q
  | .csrr x => immFieldsOk .csrr x
  | .csrw x => immFieldsOk .csrw x && csrwPlain x
  | .ctxPtrootWrite x => immFieldsOk .csrw x && x.imm == 0x008
  | .crewTimerWrite x => immFieldsOk .csrw x && x.imm == 0x030
  | .version x => immFieldsOk .callsv x && x.imm == 0
  | .whoami x => immFieldsOk .callsv x && x.imm == 1
  | .yieldcrew x => immFieldsOk .callsv x && x.imm == 2
  | .injectauth x => immFieldsOk .callsv x && x.imm == 3
  | .faultq x => immFieldsOk .callsv x && x.imm == 4
  | .callsvUnknown x => immFieldsOk .callsv x && 5 ≤ x.imm.toNat
  | .sleep x => immFieldsOk .sleep x
  | .ld x => memFieldsOk .ld x
  | .st x => memFieldsOk .st x
  | .atom x op cls => atomFieldsOk x op cls
  | .atomcas x => memFieldsOk .atomcas x
  | .pfetch x => memFieldsOk .pfetch x
  | .kld x => memFieldsOk .kld x
  | .fence x => memFieldsOk .fence x
  | .lds x => memFieldsOk .lds x
  | .sts x => memFieldsOk .sts x
  | .atoms x => memFieldsOk .atoms x
  | .renew x => memFieldsOk .renew x
  | .arm x => memFieldsOk .arm x
  | .await x => memFieldsOk .await x
  | .spage x => memFieldsOk .spage x
  | .mma x => matFieldsOk .mma x
  | .mmasp x => matFieldsOk .mmasp x
  | .mzero x => matFieldsOk .mzero x
  | .mwait x => matFieldsOk .mwait x
  | .mld x => matFieldsOk .mld x
  | .mst x => matFieldsOk .mst x
  | .mrd x => matFieldsOk .mrd x
  | .mwr x => matFieldsOk .mwr x
  | .tdesc x => matFieldsOk .tdesc x
  | .xcopy x => xcopyFieldsOk x
  | .xcoll x => xcollFieldsOk x
  | .launch x => !x.pred.reserved
  | _ => true

/-- A well-formed instruction: its fields are admissible and its register numbers exist (R24). -/
def Instr.wf (i : Instr) : Bool := i.fieldsOk && i.regsOk

/-- Whether the decoder can give the instruction: it has a word of its own. -/
def Instr.coded (i : Instr) : Bool := (encodeNat i).isSome

end Sys2Proof
end

