-- ==== Sys2Proof/Claims.lean ====
section
/-! DEFINITION. The predicates that the statements are made of: what an instruction finds, what it leaves, and the values that the rules give. -/

namespace Sys2Proof.Claims
open Sys2Proof.Machine

/-! ## Numbers -/

/-- The binary formats of R50. -/
def formats : List Fmt := [f64, f32, f16, bf16]

/-- The number an exact value is; what lies beyond every number, and NaN, has none here. -/
def real : XReal → ℚ
  | .fin s m e _ => (if s then -1 else 1) * (m : ℚ) * 2 ^ e
  | _ => 0

/-- An exact number: neither special nor inexact. -/
def exact : XReal → Prop
  | .fin _ _ _ t => t = false
  | _ => False

/-- A value in the order of the extended numbers. -/
def extended : XReal → WithBot (WithTop ℚ)
  | .nan => 0
  | .inf true => ⊥
  | .inf false => ⊤
  | .fin s m e t => ((real (.fin s m e t) : WithTop ℚ) : WithBot (WithTop ℚ))

/-- A significand rounded to a whole number by a mode (R53). -/
def rounded (mode : Rnd) (s : Bool) (q : ℚ) : Int :=
  match mode with
  | .rn => if q - ⌊q⌋ < 1 / 2 ∨ (q - ⌊q⌋ = 1 / 2 ∧ ⌊q⌋ % 2 = 0) then ⌊q⌋ else ⌊q⌋ + 1
  | .rz => ⌊q⌋
  | .ru => if s then ⌊q⌋ else ⌈q⌉
  | .rd => if s then ⌈q⌉ else ⌊q⌋

/-- Whether an instruction or step is executed by a cohort. -/
def ofCohort (i : Instr) : Prop :=
  i.coded = true ∨ ∃ x, i = .errInjectL2Single x ∨ i = .errInjectL2Uncorrectable x ∨ i = .errInjectHbmUncorrectable x ∨
    i = .errInjectCheckMismatch x ∨ i = .errInjectFpDisturb x ∨ i = .errInjectDisarm x

/-! ## What the statements are about -/

/-- `c` is the cohort whose instruction executes. -/
abbrev Issues (s : State) (c : Cohort) : Prop := s.cur = some c.id ∧ s.cohorts.find c.id = some c

/-- The state in which a meaning begins: the turn has been taken. -/
def begun (s : State) : State := { s with cur := none }

/-- Neither the stall checker (R47) nor the idempotence checker (R117) stops the instruction. -/
abbrev Passes (s : State) (c : Cohort) (i : Instr) (p : Pred) : Prop :=
  s.stallShort c i = false ∧ (c.snap.chkIdem[0] && c.breaks i && !(s.execLanes c p).isEmpty) = false

/-- The state once an instruction whose effect is `u` is done: its registers are noted (R117) and the cohort goes on (R43). -/
def finished (s u : State) (c : Cohort) (i : Instr) (p : Pred) (stall : BitVec 4) : State :=
  (u.modCohort c.id fun k => k.noteRegs i (!(s.execLanes c p).isEmpty)).advance c.id stall

/-- The cohort has gone on to its next instruction, max(stall, 1) clocks later (R43), and no other cohort has changed. -/
def Advanced (s t : State) (c : Cohort) (stall : BitVec 4) : Prop :=
  (∃ k, t.cohorts.find c.id = some k ∧ k.pc = c.pc + 1 ∧ k.nextIssue = s.clock + max stall.toNat 1 ∧ k.st = .ready ∧
    k.lanes = c.lanes ∧ k.hdr = c.hdr ∧ k.irr = c.irr ∧ k.crew = c.crew) ∧
  ∀ n, n ≠ c.id → t.cohorts.find n = s.cohorts.find n

/-- A thread waits at a code address with a key tag and a resume point, filed now (R76). -/
def FiledAt (s t : State) (tid next : Nat) (tag : BitVec 16) (resume : Option Resume) : Prop :=
  ∃ th f, t.threads.find tid = some th ∧ th.place = .filed f ∧ f.next = next ∧ f.tag = tag ∧ f.resume = resume ∧ f.arrival = s.clock

/-- The cohort is the commit of one lane of an irrevocable trace with nothing left to wait for (R110). -/
abbrev CommitsAlone (s : State) (c : Cohort) (l : Lane) (th : Thread) : Prop :=
  Issues s c ∧ c.irr = true ∧ c.lanes = [l] ∧ l.buf = [] ∧ (∀ p ∈ c.pend, p.ready ≤ s.clock) ∧ c.pushed ≤ s.clock ∧
    s.laneAwaits c.id l.tid = false ∧ s.threads.find l.tid = some th

/-- The state in which the lane has passed its commit point, its Jewel allowance renewed (R118), and has left the cohort with its commit moves
made (R114). -/
def left (s : State) (c : Cohort) (l : Lane) (x : Commit) : State :=
  { ((begun s).modThread l.tid fun t => { t with jewelUsed := false }).moves l.tid x with cohorts := s.cohorts.erase c.id }

/-- Everything but registers, crews, cohorts and the free counter is as before; every byte of memory is, as each die sees it. -/
structure RestKept (s t : State) : Prop where
  clock   : t.clock = s.clock
  nextId  : t.nextId = s.nextId
  agenda  : t.agenda = s.agenda
  later   : t.later = s.later
  tiles   : t.tiles = s.tiles
  spad    : t.spad = s.spad
  segs    : t.segs = s.segs
  threads : t.threads = s.threads
  ctxs    : t.ctxs = s.ctxs
  coh     : t.coh = s.coh
  cores   : t.cores = s.cores
  eng     : t.eng = s.eng
  cmd     : t.cmd = s.cmd
  pkg     : t.pkg = s.pkg
  bytes   : ∀ a, t.mem.read a = s.mem.read a
  views   : ∀ die a, t.viewByte die a = s.viewByte die a

/-- The registers of every file and the crews are as before. -/
structure RegsKept (s t : State) : Prop where
  v     : t.vreg = s.vreg
  p     : t.preg = s.preg
  k     : t.kreg = s.kreg
  crews : t.crews = s.crews

/-- A crew without what reading and writing registers may change: its conduits and the unordered k writes. -/
def bare (w : Crew) : Crew := { w with conduits := [], kPend := [] }

/-- Every crew is as before but for those. -/
structure CrewsKept (s t : State) : Prop where
  crew : ∀ n, (t.crews.find n).map bare = (s.crews.find n).map bare

/-- Whether a destination takes whole registers: one or a pair. -/
def takesRegs (sp : OpSpec) : Prop := sp.span = .one ∨ sp.span = .pair

/-- Whether register n of a file is among those that a destination takes. -/
def isDest (sp : OpSpec) (d : Reg) (f : RFile) (n : Nat) : Prop :=
  d.file = f ∧ ((takesRegs sp ∧ n = d.num.toNat) ∨ (sp.span = .pair ∧ n = d.num.toNat + 1))

/-- What results in lane order leave in a destination, seen from `s`, in which the operands have been read: each lane's register (of two
results of one thread the later counts), the crew register of the lowest executing lane where every earlier write of it is written before,
the pushed entries; and every other register and conduit as before (R22, R24, R90, R127, R129). -/
structure Written (s t : State) (c : Cohort) (sp : OpSpec) (d : Reg) (lat : Nat) (res : List (Lane × Nat)) : Prop where
  lane : ∀ (i : Nat) (r : Lane × Nat), res[i]? = some r → (∀ (j : Nat) (q : Lane × Nat), i < j → res[j]? = some q → q.1.tid ≠ r.1.tid) → d.file = .v → takesRegs sp →
    t.getV r.1.tid d.num.toNat = BitVec.ofNat 32 r.2 ∧
      (sp.span = .pair → t.getV r.1.tid (d.num.toNat + 1) = BitVec.ofNat 32 (r.2 / 2 ^ 32))
  pred : ∀ (i : Nat) (r : Lane × Nat), res[i]? = some r → (∀ (j : Nat) (q : Lane × Nat), i < j → res[j]? = some q → q.1.tid ≠ r.1.tid) → sp.span = .pred →
    t.getP r.1.tid (d.num.toNat % 8) = (d.num.toNat % 8 == 7 || r.2 % 2 == 1)
  crew : ∀ (r : Lane × Nat) (i : Nat), res.head? = some r → d.file = .k → i = 0 ∧ takesRegs sp ∨ i = 1 ∧ sp.span = .pair →
    (∀ w, s.crews.find c.crew = some w → ∀ e ∈ w.kPend, e.reg = d.num.toNat + i → e.ready < s.clock + lat) →
    t.getK c.crew (d.num.toNat + i) = BitVec.ofNat 32 (r.2 / 2 ^ (32 * i))
  conduit : ∀ w q, s.crews.find c.crew = some w → w.conduit d.num.toNat = some q → d.file = .q → takesRegs sp →
    ∃ w', t.crews.find c.crew = some w' ∧ w'.conduit d.num.toNat = some
      { q with fifo := q.fifo ++ (res.flatMap fun r => pushWords (sp.span == .pair) r.2).map (·, s.clock + lat) }
  vKept : ∀ tid n, n < 256 → ¬((∃ r ∈ res, r.1.tid = tid) ∧ isDest sp d .v n) → t.getV tid n = s.getV tid n
  pKept : ∀ tid n, n < 8 → ¬((∃ r ∈ res, r.1.tid = tid) ∧ sp.span = .pred ∧ n = d.num.toNat % 8) → t.getP tid n = s.getP tid n
  kKept : ∀ crew n, n < 64 → ¬(crew = c.crew ∧ isDest sp d .k n) → t.getK crew n = s.getK crew n
  crews : CrewsKept s t
  qKept : ∀ crew q, ¬(crew = c.crew ∧ isDest sp d .q q) →
    (t.crews.find crew).bind (·.conduit q) = (s.crews.find crew).bind (·.conduit q)

/-- What reading operands may change: entries leave conduits (R90), and a crew register's earlier value is seen no more (R129). -/
structure OperandsRead (s t : State) : Prop where
  v     : t.vreg = s.vreg
  p     : t.preg = s.preg
  k     : t.kreg = s.kreg
  cohorts : t.cohorts = s.cohorts
  crews : CrewsKept s t
  rest  : RestKept s t

/-! ## The results of the arithmetic instructions -/

/-- The value that the rule of an integer instruction gives a lane (R131, R132, R134 to R146). -/
def integerRule : AluOp → Option (Alu → ExLane → Nat)
  | .iadd => some fun x => intMould x fun a b _ => a + b
  | .isub => some fun x => intMould x fun a b _ => a - b
  | .imul => some fun x => intMould x fun a b _ => a * b
  | .imulh => some fun x => intMould x fun a b _ => (a * b) / 2 ^ widthOf x.ty
  | .imad => some fun x => intMould x fun a b d => a * b + d
  | .imadLong => some imadLong
  | .imin => some fun x => intMould x fun a b _ => min a b
  | .imax => some fun x => intMould x fun a b _ => max a b
  | .and => some fun _ e => Nat.land e.a e.b
  | .or => some fun _ e => Nat.lor e.a e.b
  | .xor => some fun _ e => Nat.xor e.a e.b
  | .shl => some fun x => shl (widthOf x.ty)
  | .shr => some fun x => shr (widthOf x.ty)
  | .sha => some fun x => sha (widthOf x.ty)
  | .funnel => some funnel
  | .bfe => some bfe
  | .bfi => some bfi
  | .popc => some fun x e => popc (widthOf x.ty) e.a
  | .clz => some fun x e => clz (widthOf x.ty) e.a
  | .brev => some fun x e => brev (widthOf x.ty) e.a
  | .prmt => some fun _ e => prmt e.a e.b e.c
  | .iset => some fun x e => (iset x e).toNat
  | .pset => some fun x e => (predFn x.sub.toNat (e.a % 2 == 1) (e.b % 2 == 1)).toNat
  | .sel => some fun _ e => if e.p then e.a else e.b
  | .mov => some fun _ e => e.a
  | .padd => some fun x => padd x 0
  | .lea => some fun x => padd x x.sub.toNat
  | .cvti => some fun x e => cvti x e.a
  | _ => none

/-- The value that the rule of a floating-point instruction outside Jewel's checks gives a lane (R155 to R166). -/
def floatRule : AluOp → Option (Alu → ExLane → Nat)
  | .fmin | .dmin | .hmin2 => some (floatMinMax false)
  | .fmax | .dmax | .hmax2 => some (floatMinMax true)
  | .fset | .dset => some floatSet
  | .hset2 => some hset2
  | .fclass => some fun x e => fclass (fmtOf x.ty) e.a
  | .frnd => some fun x e => frnd (fmtOf x.ty) x e.a
  | .fex2 => some (unary .ex2)
  | .flg2 => some (unary .lg2)
  | .fsinp => some (unary .sinp)
  | .fcosp => some (unary .cosp)
  | .cvt => some fun x e => cvt x e.a
  | .pack => some pack
  | .l6pack => some l6pack
  | .l6unpk => some l6unpk
  | .w4unpk => some w4unpk
  | _ => none

/-- The parts that the rule of a checked floating-point instruction gives a lane (R154, R160, R167). -/
def checkedRule : AluOp → Option (Alu → ExLane → List Part)
  | .fadd | .dadd | .hadd2 => some (arithParts .add)
  | .fmul | .dmul | .hmul2 => some (arithParts .mul)
  | .ffma | .dfma | .hfma2 => some (arithParts .fma)
  | .frcp | .drcp => some (unaryParts .rcp)
  | .frsq | .drsq => some (unaryParts .rsq)
  | _ => none

/-- The values that the rule of a lane exchange gives the executing lanes, in lane order (R147 to R149). -/
def exchangeRule (s : State) (c : Cohort) : AluOp → Option (Alu → List ExLane → List Nat)
  | .shfl => some fun x ex => ex.map fun e =>
      let src := shflSrc x.sub.toNat e.lane.pos e.b
      match if 0 ≤ src ∧ src ≤ 31 then c.lanes.find? fun r => (r.pos : Int) == src else none with
      | some r => s.laneVal c x.a.reg.num.toNat x.ty.is64 r
      | none => if e.b.testBit 6 then e.a else 0
  | .vote => some fun x ex => ex.map fun _ => vote x.sub.toNat ex
  | .matchv => some fun _ ex => ex.map fun e => laneMask (ex.filter fun f => f.a == e.a)
  | .compact => some fun _ ex => (List.range ex.length).map fun q => ((ex.filter fun e => e.c == 1).map (·.a)).getD q 0
  | .scan => some fun x ex => (scanFrom x.ty x.sub.toNat (exchId x.ty x.sub.toNat) ex).map (·.d)
  | .redux => some fun x ex => ex.map fun _ =>
      ex.foldl (fun acc e => exchOp x.ty x.sub.toNat acc e.a) (exchId x.ty x.sub.toNat)
  | _ => none

/-- The executing lanes with their operands as read, and the state that has read them (R90). -/
def readOperands (s : State) (c : Cohort) (o : AluOp) (x : Alu) : List ExLane × State :=
  (begun s).operands c o x (s.execLanes c x.pred)

/-- An arithmetic instruction completes: its operands are read, the values of its rule go to its destination, nothing else changes, and the
cohort goes on. -/
def ArithmeticCompletes (s : State) (c : Cohort) (o : AluOp) (x : Alu) (vals : List ExLane → List Nat) : Prop :=
  let r := readOperands s c o x
  ∃ t, exec (o.instr x) s = .next t ∧ OperandsRead (begun s) r.2 ∧
    Written r.2 t c (o.shape x.sub.toNat x.ty).d x.d (aluLat o x) ((s.execLanes c x.pred).zip (vals r.1)) ∧
    RestKept s t ∧ Advanced s t c x.stall

/-- The instruction may issue: its conduits are ready (R90) and no checker stops it. -/
abbrev MayIssue (s : State) (c : Cohort) (o : AluOp) (x : Alu) : Prop :=
  Issues s c ∧ s.conduitsOk c o x = true ∧ Passes s c (o.instr x) x.pred ∧ (o.instr x).regsOk = true

/-! ## The instructions that write a value their fields and the machine give -/

/-- MOVI, MOVI64, SRD, CSRR and the services of CALLSV that only answer (R97, R144, R335, R337). -/
inductive ValueInstr
  | movi (x : ImmI) | movi64 (x : Imm64) | srd (x : ImmI) | csrr (x : ImmI)
  | version (x : ImmI) | whoami (x : ImmI) | faultq (x : ImmI) | callsvUnknown (x : ImmI)

def ValueInstr.instr : ValueInstr → Instr
  | .movi x => .movi x | .movi64 x => .movi64 x | .srd x => .srd x | .csrr x => .csrr x
  | .version x => .version x | .whoami x => .whoami x | .faultq x => .faultq x | .callsvUnknown x => .callsvUnknown x

/-- The fields of format I, as MOVI64 has them too. -/
def ValueInstr.fields : ValueInstr → ImmI
  | .movi x | .srd x | .csrr x | .version x | .whoami x | .faultq x | .callsvUnknown x => x
  | .movi64 x => ⟨x.pred, x.stall, .u64, x.d, ⟨.v, 0⟩, 0⟩

/-- Whether the destination is a pair. -/
def ValueInstr.wide : ValueInstr → Bool
  | .movi x | .srd x | .csrr x => x.ty.is64
  | _ => true

/-- R44, R45. -/
def ValueInstr.latency : ValueInstr → Nat
  | .movi _ | .movi64 _ => 4
  | _ => 0

/-- The value a lane's destination takes. -/
def ValueInstr.value (s : State) (c : Cohort) (l : Lane) : ValueInstr → Nat
  | .movi x => imm64 x.ty x.imm
  | .movi64 x => x.imm.toNat
  | .srd x => s.special c l x.imm.toNat
  | .csrr x => s.readCsr c.crew x.imm.toNat
  | .version _ => Config.rililoVersion.toNat
  | .whoami _ =>
    let n := s.ctxOf c.crew
    n % 4096 + 4096 * (s.privOf n).toNat + 2 ^ 13 * (((s.ctxs.find n).map (·.part)).getD 0 % 8)
  | .faultq _ => s.faultQueue (s.ctxOf c.crew)
  | .callsvUnknown _ => 2 ^ 64 - 1

/-- A destination's push, and the conduits a list of operands names. -/
def pushOf (d : Reg) (wide : Bool) : List (Nat × Nat) := if d.file == .q then [(d.num.toNat, if wide then 2 else 1)] else []

/-- The conduit conditions of an instruction of some pops and pushes hold (R90). -/
abbrev ConduitsReady (s : State) (c : Cohort) (p : Pred) (pops pushes : List (Nat × Nat)) : Prop :=
  ∀ w, s.crews.find c.crew = some w → w.conduitsReady s.clock (s.execLanes c p).length pops pushes = true

/-! ## Memory -/

/-- The state in which some lanes' accesses begin, the updates of quantum buffers that come before them flushed (R263, R281). -/
def flushed (s : State) (c : Cohort) (x : Mem) (n : Nat) (acc : Acc) (lanes : List Lane) : State := (begun s).flushFor c x n acc lanes

/-- An instruction of format M of one executing lane with an aligned address va of n bytes, which nothing makes wait: `b` is the state at its issue,
and `u` the one in which the lane acts, what its order asks for done where the instruction is one that orders (R256, R270, R277). -/
abbrev LaneActs (rel : Bool) (s b u : State) (c : Cohort) (x : Mem) (l : Lane) (n : Nat) (acc : Acc) (i : Instr) (va : Nat) : Prop :=
  let f := flushed s c x n acc [l]
  Issues s c ∧ s.execLanes c x.pred = [l] ∧ f.laneWaits c x n acc l = false ∧ b = (if rel then f.flushQuantum c.core else f) ∧
    (rel = true → b.orderWaits c x.order [l] = false) ∧ b.execLanes c x.pred = [l] ∧ Passes b c i x.pred ∧
    u = (if rel then b.fenceFirst c x.order x.scope else b) ∧ u.laneEA c x l = some va ∧ va % n = 0

/-- No write is under way between a die, an atomic or a quantum buffer and its home. -/
structure Quiet (s : State) : Prop where
  dies    : s.coh.dieWrites = []
  halves  : s.coh.halves = []
  quantum : s.eng.quantum = []

/-- Nothing that the home slices hold is damaged (R353, R364). -/
structure Sound (s : State) : Prop where
  harm   : s.coh.harm = []
  checks : s.coh.checks = []
  poison : s.coh.poison = []
  dies   : s.pkg.deadDies = []

/-- The bytes at a place hold new ones, and every other byte of memory is as before but the version counter of a watched page, which has risen by one
(R237, R246). -/
structure Landed (s t : State) (counter key : Nat) (new : List Byte) (watch : Bool) : Prop where
  bytes : ∀ a, ¬(watch = true ∧ counter ≤ a ∧ a < counter + 4) →
    t.mem.read a = if key ≤ a ∧ a < key + new.length then new.getD (a - key) 0 else s.mem.read a
  count : watch = true → counter + 4 ≤ key ∨ key + new.length ≤ counter →
    t.mem.readNat counter 4 = (s.mem.readNat counter 4 + 1) % 2 ^ 32

/-- The registers a loaded value fills (R257). -/
def loadedWords (w : Width) (bs : List Byte) : List Word :=
  match w with
  | .s8 => [(BitVec.ofNat 8 (natOf bs)).signExtend 32]
  | .s16 => [(BitVec.ofNat 16 (natOf bs)).signExtend 32]
  | .u8 | .u16 | .b32 => [BitVec.ofNat 32 (natOf bs)]
  | .b64 => [BitVec.ofNat 32 (natOf bs), BitVec.ofNat 32 (natOf bs / 2 ^ 32)]
  | .b128 => (List.range 4).map fun i => BitVec.ofNat 32 (natOf bs / 2 ^ (32 * i))

/-- A thread's registers from d on hold a loaded value. -/
def LoadedIn (t : State) (tid : Nat) (d : BitVec 8) (w : Width) (bs : List Byte) : Prop :=
  ∀ i v, (loadedWords w bs)[i]? = some v → t.getV tid (d.toNat + i) = v

/-- They do, and every other register is as before. -/
def Loaded (s t : State) (tid : Nat) (d : BitVec 8) (w : Width) (bs : List Byte) : Prop :=
  LoadedIn t tid d w bs ∧
    (∀ o n, n < 256 → ¬(o = tid ∧ d.toNat ≤ n ∧ n < d.toNat + (loadedWords w bs).length) → t.getV o n = s.getV o n) ∧
    t.preg = s.preg ∧ t.kreg = s.kreg

/-! ## Streams and the mailbox -/

/-- A served stream has command k in progress, and its word reads. -/
abbrev CommandRuns (s : State) (n : Nat) (d : StreamDesc) (k w : Nat) (u : State) : Prop :=
  s.streamDesc n = some d ∧ (s.stream n).cmd = some k ∧ s.served n = true ∧ (s.stream n).done = false ∧ s.readCmd d n k = (.val w, u)

/-- A well-formed request for a service that is served at this stage, with a payload of k bytes (R374). -/
abbrev Asks (s : State) (q : Word) (n k : Nat) : Prop :=
  s.pkg.request = some q ∧ s.pkg.reqField 0 2 = n ∧ s.staged n = true ∧ s.pkg.reqField 2 2 = k ∧ s.pkg.reqField 4 4 = q.toNat ∧
    s.pkg.reqField 8 8 = 0

/-- The payload has the length that the table gives a service (R375). -/
def lengthFits (s : State) (n k : Nat) : Prop :=
  match n with
  | 0x0002 | 0x0015 => k = 4
  | 0x0010 | 0x0030 => k = 48
  | 0x0011 => k = 2
  | 0x0012 => k = 44
  | 0x0013 | 0x0021 | 0x0025 => k = 8
  | 0x0014 => k = 16
  | 0x0020 => k = 36
  | 0x0022 => k = 8 + s.arg 3 1 * s.arg 4 1 ∧ k ≤ 4080
  | 0x0023 => k = 24
  | 0x0024 => k = 258
  | 0x0026 => k = 7
  | 0x0027 => k % 8 = 0 ∧ k ≤ 4080
  | _ => k = 0

/-- No context that exists has the number that a payload names. -/
abbrev NoCtx (s : State) : Prop := ∀ x, s.ctxs.find (s.arg 0 2) = some x → x.alive = false

/-- Bytes or bits of a payload that its row does not name, or that must be zero, are not (R374, R375). -/
def strayBits (s : State) (n : Nat) : Prop :=
  match n with
  | 0x0010 => 4 ≤ s.arg 3 1 ∨ s.arg 6 2 ≠ 0 ∨ s.arg 40 8 ≠ 0
  | 0x0012 => 2 ≤ s.arg 2 1 ∨ s.arg 3 5 ≠ 0
  | 0x0013 => s.arg 1 3 ≠ 0
  | 0x0014 => s.arg 2 6 ≠ 0
  | 0x0015 => 2 ≤ s.arg 2 1 ∨ s.arg 3 1 ≠ 0
  | 0x0022 => s.arg 6 2 ≠ 0
  | 0x0023 => 2 ≤ s.arg 2 1 ∨ s.arg 3 5 ≠ 0
  | 0x0024 => ¬NoCtx s ∧ snapStatus (s.arg 2 256) = 2
  | 0x0025 => s.arg 2 2 ≠ 0
  | _ => False

/-- An argument of a service is out of its range, or names no context (R359, R374, R375). -/
def outOfRange (s : State) (n : Nat) : Prop :=
  match n with
  | 0x0010 => 4096 ≤ s.arg 0 2 ∨ ¬NoCtx s ∨ 8 ≤ s.arg 2 1 ∨ s.arg 4 1 < 6 ∨ 16 < s.arg 4 1 ∨ s.arg 5 1 = 1 ∨ 63 < s.arg 5 1 ∨
      s.arg 8 8 % 64 ≠ 0 ∨ hbmEnd < s.arg 8 8 + 64 * 2 ^ s.arg 4 1 + 12 ∨ s.arg 16 8 % 65536 ≠ 0
  | 0x0011 => s.ctxs.find (s.arg 0 2) = none
  | 0x0012 | 0x0014 | 0x0015 => NoCtx s
  | 0x0013 => 8 ≤ s.arg 0 1
  | 0x0020 => ∃ i < 36, 8 ≤ s.arg i 1
  | 0x0021 => s.arg 0 8 % 65536 ≠ 0 ∨ hbmEnd < s.arg 0 8 + 65536
  | 0x0022 =>
    let ranks := s.arg 3 1 * s.arg 4 1
    NoCtx s ∨ 64 ≤ s.arg 2 1 ∨ s.arg 3 1 < 1 ∨ 17 < s.arg 3 1 ∨ s.arg 4 1 < 2 ∨ 17 < s.arg 4 1 ∨ ranks ≤ s.arg 5 1 ∨
      ∃ i < ranks, if i = s.arg 5 1 then s.arg (8 + i) 1 ≠ 0xff else s.pkg.peers.find (s.arg (8 + i) 1) = none
  | 0x0023 => 32 ≤ s.arg 0 1 ∨ 16 ≤ s.arg 1 1
  | 0x0024 => NoCtx s ∨ snapStatus (s.arg 2 256) = 3
  | 0x0025 => (s.arg 0 1 = 0 ∧ 36 ≤ s.arg 1 1) ∨ (s.arg 0 1 = 1 ∧ 4 ≤ s.arg 1 1) ∨ 2 < s.arg 0 1
  | 0x0026 => ∃ i < 7, s.arg i 1 < 1 ∨ 15 < s.arg i 1
  | _ => False

end Sys2Proof.Claims
end

