-- ==== Sys2Proof/Certificates/Slice0/Obligations.lean ====
section
/-! DEFINITION. The statements for the provers. A statement of several parts has each part as a definition of its own. -/

open Sys2Proof Sys2Proof.Machine Sys2Proof.Claims


/-! ## Encoding and the whole machine -/

/-- Decoding the word of a well-formed instruction gives the instruction back: no bit of an encoding is dropped. -/
def Obligations.DecodeOfEncodeIsTheInstruction : Prop :=
  ∀ i : Instr, i.wf = true → i.coded = true → decode (encode i) = .ok i

/-- R27 to R35: words put together from the encoding tables decode to their instructions: NOP, TRC with its trace id, header and budget
fields, a COMMIT.SEL of two moves, an IADD with a modifier and a negated operand, an immediate FSET, a load with a window and an offset,
a compare-and-swap, an MMA, a strided copy and a write of a system register. -/
def Obligations.WordsDecodeAsTheSpecEncodes : Prop :=
  let v (n : BitVec 8) : Src := ⟨⟨.v, n⟩, ⟨false, 0, 0, .identity⟩, false, false⟩
  decode 0x5300 = .ok (.nop ⟨⟨false, 3⟩, 5⟩) ∧
  decode 0x202014100701 = .ok (.trc ⟨0, false, false, 0x141, 2, 16⟩) ∧
  decode 0x302050104000001fffffc000010006 =
    .ok (.commitSel ⟨⟨false, 0⟩, 0, 0, 0, 0xfffffc, 0x1, some ⟨1, 4⟩, some ⟨2, 5⟩, 0, 0⟩) ∧
  decode 0x241000000008d10006040504720 = .ok (.iadd ⟨⟨false, 7⟩, 4, 0, .s32, .rn, true, false, ⟨.v, 5⟩,
    ⟨⟨.v, 4⟩, ⟨true, 3, 2, .rotate⟩, false, false⟩, .src ⟨⟨.v, 6⟩, ⟨false, 0, 0, .identity⟩, true, false⟩, v 0⟩) ∧
  decode 0x3f80000000700000502a6755 = .ok (.fset ⟨⟨false, 7⟩, 6, 2, .f32, .rn, false, false, ⟨.v, 2⟩, v 5, .imm 0x3f800000, v 0⟩) ∧
  decode 0x4000000490a0c507a0 = .ok (.ld ⟨⟨false, 7⟩, 0, .b64, 12, 10, 0, 1, .acq, .dev, .sync, false, 0, 0x40⟩) ∧
  decode 0x800500205407a3 = .ok (.atomcas ⟨⟨false, 7⟩, 0, .b32, 5, 2, 8, 0, .ar, .dev, .sync, false, 0, 0x0⟩) ∧
  decode 0x402010000200100207d0 =
    .ok (.mma ⟨⟨false, 7⟩, 0, .bf16, false, 0, 1, 2, 0, 1, 2, false, false, true, false, 0, 0⟩) ∧
  decode 0x100000000100200001e0 = .ok (.xcopy ⟨⟨false, 1⟩, 0, 0, 0, 2, 1, 0, 0, 0, true, false, 0⟩) ∧
  decode 0x200000200801f1 = .ok (.csrw ⟨⟨false, 1⟩, 0, .u64, ⟨.v, 0⟩, ⟨.v, 2⟩, 0x0⟩)

/-- A step takes the first turn: the issue of a cohort runs the instruction that its word decodes to, a step of the hardware runs that
step, what is left of a step goes on, and with no turn left a clock passes. The words that a trace's fetch holds are the 16 bytes of each code
address; where the bytes at the cohort's address decode to an instruction that may stand there, that instruction executes, fetched with
its trace or held since (R49, R100, R101, R219). Agenda and turns are the model's own (log 2); that all the words of a trace are fetched and held before its
first instruction issues is its reading (log 47). -/
def Obligations.StepRunsTheDecodedInstruction : Prop :=
  (∀ (s u : State) (cid : Nat) (rest : List Turn) (i : Instr), s.agenda = .issue cid :: rest →
    (State.fetch { s with agenda := rest } cid = .run i u → step s = exec i u) ∧
    (State.fetch { s with agenda := rest } cid = .stop u → step s = .next u)) ∧
  (∀ (s : State) (i : Instr) (rest : List Turn), s.agenda = .hw i :: rest → step s = exec i { s with agenda := rest, cur := none }) ∧
  (∀ s : State, s.agenda = [] → step s = .next s.idle) ∧
  (∀ (s : State) (t : Turn) (rest : List Turn), s.agenda = t :: rest → (∀ cid, t ≠ .issue cid) → (∀ i, t ≠ .hw i) →
    step s = .next (State.other t { s with agenda := rest })) ∧
  (∀ (m : Memory) (key n a i : Nat), m.wf = true → i < n →
    Map.get (Memory.words m key (16 * n) a) 0 (a + i) = BitVec.ofNat 128 (natOf (m.readBytes (key + 16 * i) 16))) ∧
  ∀ (s : State) (c : Cohort) (cid : Nat) (rest : List Turn) (i : Instr), s.agenda = .issue cid :: rest → s.cohorts.find cid = some c →
    State.canIssue { s with agenda := rest } c = true → placeOk c i = true →
    let begin' : State := { s with agenda := rest, cohorts := s.cohorts.map fun (e : Nat × Cohort) =>
      (e.1, { e.2 with yieldFor := e.2.yieldFor.filter (· != cid) }) }
    (∀ m, c.code = some m → decodeIn (begin'.decodeEnv c) (Map.get m 0 c.pc) = .ok i → step s = exec i { begin' with cur := some cid }) ∧
    ∀ (u : State) (va key unit n : Nat) (pte : Dword) (r : Tr), c.code = none → c.st ≠ .trc → s.codeVa c.crew c.pc = some va →
      codePieces c.pc 9 (c.hdr + c.len + 1 - c.pc) = [(c.pc, n)] →
      begin'.translate (tcAgent c.core) (s.ctxOf c.crew) c.snap.ptroot (s.privOf (s.ctxOf c.crew)) va .exec none = (r, u) →
      u.reachOf r = .go key pte unit → u.readStalled (icAgent c.core) 0 key (16 * n) = false → u.remoteKey key = false →
      let v := u.readHome key (16 * n)
      v.poisonedIn key (16 * n) = none → v.mem.wf = true →
      let w := ((v.grantIc c.core key (16 * n) false).dropFetched cid).modCohort cid fun k =>
        { k with code := some (Memory.words v.mem key (16 * n) c.pc) }
      decodeIn (w.decodeEnv c) (BitVec.ofNat 128 (natOf (v.mem.readBytes key 16))) = .ok i → step s = exec i { w with cur := some cid }

/-- No issue of a cohort, no passing of a clock and no step of the hardware stops the machine: each has a next state, whatever the
program. -/
def Obligations.EveryStepHasANextState : Prop :=
  ∀ s : State, (∀ i rest, s.agenda = .hw i :: rest → ¬ofCohort i) → ∃ t, step s = .next t

/-- Every step keeps the memory in its canonical form: addresses strictly rising, no byte listed that reads as unlisted ones do. What an
unlisted address reads as is the model's choice (log 1). -/
def Obligations.StepsKeepMemoryCanonical : Prop :=
  ∀ s t : State, s.mem.wf = true → step s = .next t → t.mem.wf = true

/-- After reset the memory is in its canonical form. That memory lists nothing and reads as zero, which is the model's choice (log 1). -/
def Obligations.ResetMemoryIsCanonical : Prop := State.reset.mem.wf = true

/-- R19, R80, R373, R380: what reset leaves of the registers that have a reset value. -/
def Obligations.ResetLeavesTheGivenValues : Prop :=
  let p := State.reset.pkg
  p.status = 0 ∧ p.failure = 0 ∧ p.weights = [8, 6, 6, 4, 4, 2, 1] ∧ p.tolCluster = List.replicate 36 40 ∧ p.tolDie = List.replicate 4 0 ∧
    p.tolPackage = 0 ∧ SysRegs.reset.binAge = 64 ∧ SysRegs.reset.trapvec = 0 ∧ SysRegs.reset.errInject = 0 ∧ State.reset.ready = false ∧
    State.reset.cohorts = [] ∧ State.reset.crews = [] ∧ State.reset.ctxs = []


/-! ## Numbers -/

/-- R53: Round, for every format, mode and flush bit: NaN, infinities and zeros keep their kind and sign; of any other exact value the
significand on the grid of its exponent is rounded to a whole number, which carries into the exponent, overflows, or is subnormal. -/
def Obligations.RoundingFollowsTheRule : Prop :=
  ∀ F ∈ formats, ∀ (mode : Rnd) (ftz : Bool),
    F.round .nan mode ftz = F.canonNaN ∧
    ∀ s : Bool, F.round (.inf s) mode ftz = F.infOf s ∧ (∀ e, F.round (.fin s 0 e false) mode ftz = F.zeroOf s) ∧
      (F.overflow s mode = match mode with
        | .rn => F.infOf s
        | .rz => F.maxOf s
        | .ru => if s = false then F.infOf false else F.maxOf true
        | .rd => if s = true then F.infOf true else F.maxOf false) ∧
      ∀ (m : Nat) (e : Int), m ≠ 0 →
        let a : ℚ := m * 2 ^ e
        let x := max (Int.log 2 a) F.emin
        let n := rounded mode s (a / 2 ^ (x - F.m))
        let y := if n = 2 ^ (F.m + 1) then x + 1 else x
        let k := if n = 2 ^ (F.m + 1) then 2 ^ F.m else n
        F.round (.fin s m e false) mode ftz =
          if n = 0 then F.zeroOf s
          else if (F.bias : Int) < y then F.overflow s mode
          else if k < 2 ^ F.m then (if ftz then F.zeroOf s else F.enc s 0 k.toNat)
          else F.enc s (y + F.bias).toNat (k - 2 ^ F.m).toNat

/-- R51, R56: FinishFloat is Round, with sat an infinity replaced by the largest finite value of its sign; NaN remains the canonical NaN.
-/
def Obligations.SaturationReplacesInfinities : Prop :=
  ∀ F ∈ formats, ∀ (x : XReal) (mode : Rnd) (ftz sat : Bool),
    let y := F.round x mode ftz
    F.finish x mode ftz sat = (if sat = true ∧ F.isInf y = true then F.maxOf (F.sign y) else y) ∧
    F.isInf (F.finish x mode ftz true) = false ∧ F.finish .nan mode ftz sat = F.canonNaN ∧ F.isNaN F.canonNaN = true

/-- R54, R154: the exact product and the exact sum of numbers, the sign of a zero of either, and their special values. -/
def Obligations.ExactProductsAndSums : Prop :=
  (∀ s s' m m' e e', real (.prod (.fin s m e false) (.fin s' m' e' false)) = real (.fin s m e false) * real (.fin s' m' e' false) ∧
    XReal.sgn (.prod (.fin s m e false) (.fin s' m' e' false)) = (s != s') ∧
    XReal.prod (.inf s) (.inf s') = .inf (s != s') ∧ XReal.prod (.inf s) (.fin s' 0 e' false) = .nan ∧
    XReal.prod (.fin s 0 e false) (.inf s') = .nan ∧
    (m ≠ 0 → XReal.prod (.inf s) (.fin s' m e' false) = .inf (s != s') ∧ XReal.prod (.fin s' m e' false) (.inf s) = .inf (s' != s))) ∧
  (∀ x, XReal.prod .nan x = .nan ∧ XReal.prod x .nan = .nan) ∧
  ∀ (l : List XReal) (mode : Rnd),
    (.nan ∈ l ∨ (.inf false ∈ l ∧ .inf true ∈ l) → exactSum l mode = .nan) ∧
    (∀ s, .nan ∉ l → .inf s ∈ l → .inf (!s) ∉ l → exactSum l mode = .inf s) ∧
    ((∀ x ∈ l, exact x) → exact (exactSum l mode) ∧ real (exactSum l mode) = (l.map real).sum ∧
      ((l.map real).sum ≠ 0 → (exactSum l mode).sgn = decide ((l.map real).sum < 0)) ∧
      (l ≠ [] → (l.map real).sum = 0 → (exactSum l mode).sgn =
        if ∃ s, ∀ x ∈ l, real x = 0 ∧ x.sgn = s then (l.headD .nan).sgn else mode == .rd))

/-- R60 to R62: LogMul takes the sum of the logarithms, NaR before zero; L6Enc takes the code whose value is nearest, a tie to the even
code, the sign of a nonzero code, and NaR for what is no number. -/
def Obligations.LogarithmicNumbersEncode : Prop :=
  (∀ (a b : Nat) (p q : Int), a < 64 → b < 64 →
    (a = 32 ∨ b = 32 → logMul a b p q = .nan) ∧
    (a ≠ 32 → b ≠ 32 → a = 0 ∨ b = 0 → logMul a b p q = .fin false 0 0 false) ∧
    (a % 32 ≠ 0 → b % 32 ≠ 0 → exact (logMul a b p q) ∧ real (logMul a b p q) = (if a / 32 = b / 32 then 1 else -1) *
      2 ^ (((a % 32 + b % 32) / 4 : Nat) - 8 + p + q) * ([1024, 1218, 1448, 1722].getD ((a % 32 + b % 32) % 4) 0 : ℚ) / 1024)) ∧
  (∀ scale, l6Enc .nan scale = 32 ∧ ∀ s, l6Enc (.inf s) scale = 32) ∧
  ∀ (s : Bool) (m : Nat) (e scale : Int),
    let value (k : Nat) : ℚ := if k = 0 then 0 else
      2 ^ ((k / 4 : Nat) - 4 + scale) * ([1024, 1218, 1448, 1722].getD (k % 4) 0 : ℚ) / 1024
    let r := l6Enc (.fin s m e false) scale
    let a : ℚ := m * 2 ^ e
    r < 64 ∧ r / 32 = (if r % 32 = 0 then 0 else s.toNat) ∧
    ∀ j < 32, |a - value (r % 32)| ≤ |a - value j| ∧ (|a - value (r % 32)| = |a - value j| → j ≠ r % 32 → r % 32 % 2 = 0)

/-- R57, R131: each element of an arithmetic result is the exact integer wrapped to its width or, with sat, clamped to the range of its
signedness. -/
def Obligations.IntegerElementsWrapOrSaturate : Prop :=
  ∀ (x : Alu) (f : Int → Int → Int → Int) (e : ExLane) (k w i : Nat), elemsOf x.ty = List.replicate k w → i < k →
    let sg := isSigned x.ty
    let elem (v : Nat) : Int := intOf (v / 2 ^ (w * i)) w sg
    let t := f (elem e.a) (elem e.b) (elem e.c)
    let r := intMould x f e / 2 ^ (w * i) % 2 ^ w
    (x.sat = false → (r : Int) = t % 2 ^ w) ∧
    (x.sat = true → sg = false → (r : Int) = min (max t 0) (2 ^ w - 1)) ∧
    (x.sat = true → sg = true → intOf r w true = min (max t (-2 ^ (w - 1))) (2 ^ (w - 1) - 1))

/-- R135 to R139: the bits of truth tables, shifts, funnels, extracted and inserted fields, and counts. -/
def Obligations.ShiftsAndFieldsMoveBits : Prop :=
  ∀ (x : Alu) (e : ExLane),
    let n := widthOf x.ty
    let sg := isSigned x.ty
    e.a < 2 ^ n → e.b < 2 ^ n →
    (∀ i, (shl n e).testBit i = (decide (i < n ∧ e.b ≤ i) && e.a.testBit (i - e.b)) ∧
      (shr n e).testBit i = e.a.testBit (i + e.b) ∧ (sha n e).testBit i = (decide (i < n) && e.a.testBit (min (i + e.b) (n - 1))) ∧
      (brev n e.a).testBit i = (decide (i < n) && e.a.testBit (n - 1 - i))) ∧
    (n = 32 → ∀ i,
      let v := e.b * 2 ^ 32 + e.a
      (funnel x e).testBit i = (decide (i < 32) && v.testBit (if x.sub = 0 then i + min e.c 32 else i + 32 - min e.c 32))) ∧
    (let len := min (e.b / 256 % 256) n
     let pos := e.b % 256
     let bit (j : Nat) : Bool := if pos + j < n then e.a.testBit (pos + j) else sg && e.a.testBit (n - 1)
     (len = 0 → bfe x e = 0) ∧
     (len ≠ 0 → ∀ i, (bfe x e).testBit i = (decide (i < n) && if i < len then bit i else sg && bit (len - 1)))) ∧
    (let len := min (e.c / 256 % 256) n
     let pos := e.c % 256
     ∀ i, (bfi x e).testBit i = (decide (i < n) && if pos ≤ i ∧ i < pos + len then e.b.testBit (i - pos) else e.a.testBit i)) ∧
    (∀ (tt : BitVec 8) (i : Nat), (lop3 tt e.a e.b e.c).testBit i = (decide (i < 32) &&
      tt.getLsbD ((e.c.testBit i).toNat * 4 + (e.b.testBit i).toNat * 2 + (e.a.testBit i).toNat))) ∧
    popc n e.a = ((List.range n).filter fun i => e.a.testBit i).length ∧ (e.a = 0 → clz n e.a = n) ∧
    (e.a ≠ 0 → clz n e.a < n ∧ e.a.testBit (n - 1 - clz n e.a) = true ∧ ∀ i, n - 1 - clz n e.a < i → e.a.testBit i = false)

/-- R155, R156: minimum and maximum take a number before a NaN, and −0 below +0; the compares follow the order of the extended numbers,
and but for NE and UNO are false of a NaN. -/
def Obligations.FloatsCompareAsNumbers : Prop :=
  ∀ F ∈ formats, ∀ a b : Nat, a < 2 ^ F.width → b < 2 ^ F.width →
    let x := extended (F.value a)
    let y := extended (F.value b)
    let nan := F.isNaN a || F.isNaN b
    let before (p q : Nat) : Prop := extended (F.value p) < extended (F.value q) ∨
      (extended (F.value p) = extended (F.value q) ∧ F.sign p = true ∧ F.sign q = false)
    (∀ big, (F.isNaN a = true → F.isNaN b = true → F.minMax big a b = F.canonNaN) ∧
      (F.isNaN a = true → F.isNaN b = false → F.minMax big a b = b) ∧ (F.isNaN a = false → F.isNaN b = true → F.minMax big a b = a)) ∧
    (nan = false → (before b a → F.minMax false a b = b) ∧ (¬before b a → F.minMax false a b = a) ∧
      (before a b → F.minMax true a b = b) ∧ (¬before a b → F.minMax true a b = a)) ∧
    (floatCond F 0 a b = true ↔ nan = false ∧ x = y) ∧ (floatCond F 1 a b = true ↔ nan = true ∨ x ≠ y) ∧
    (floatCond F 2 a b = true ↔ nan = false ∧ x < y) ∧ (floatCond F 3 a b = true ↔ nan = false ∧ x ≤ y) ∧
    (floatCond F 4 a b = true ↔ nan = false ∧ y < x) ∧ (floatCond F 5 a b = true ↔ nan = false ∧ y ≤ x) ∧
    (floatCond F 6 a b = true ↔ nan = false) ∧ (floatCond F 7 a b = true ↔ nan = true)


/-! ## The arithmetic instructions -/

/-- R130 to R146. -/
def Sys2Proof.Claims.IntegerInstructionsComplete : Prop :=
  ∀ (o : AluOp) (f : Alu → ExLane → Nat), integerRule o = some f →
    ∀ (x : Alu) (s : State) (c : Cohort), MayIssue s c o x → ArithmeticCompletes s c o x fun ex => ex.map (f x)

/-- R155 to R166. -/
def Sys2Proof.Claims.UncheckedFloatInstructionsComplete : Prop :=
  ∀ (o : AluOp) (f : Alu → ExLane → Nat), floatRule o = some f →
    ∀ (x : Alu) (s : State) (c : Cohort), MayIssue s c o x → ArithmeticCompletes s c o x fun ex => ex.map (f x)

/-- R154, R160, R167: with no disturbance of the core to come, a checked result is written as the rule gives it. -/
def Sys2Proof.Claims.CheckedFloatInstructionsComplete : Prop :=
  ∀ (o : AluOp) (f : Alu → ExLane → List Part), checkedRule o = some f →
    ∀ (x : Alu) (s : State) (c : Cohort), MayIssue s c o x → (∀ d ∈ s.pkg.disturb, d.core ≠ c.core) → s.armedFp c.core = [] →
      ArithmeticCompletes s c o x fun ex => ex.map fun e => joinParts (f x e)

/-- R147 to R149. -/
def Sys2Proof.Claims.LaneExchangesComplete : Prop :=
  ∀ (o : AluOp) (s : State) (c : Cohort) (f : Alu → List ExLane → List Nat), exchangeRule (begun s) c o = some f →
    ∀ (x : Alu), MayIssue s c o x → ArithmeticCompletes s c o x (f x)

/-- R130 to R149, R154 to R167: the arithmetic instructions write the values of their rules and change nothing else. The transcendental
functions' values rest on log 10. -/
def Obligations.ArithmeticInstructionsComplete : Prop :=
  IntegerInstructionsComplete ∧ UncheckedFloatInstructionsComplete ∧ CheckedFloatInstructionsComplete ∧ LaneExchangesComplete

/-- R133: IADDC writes the sum into its destination and the carry into the predicate that sub names. -/
def Sys2Proof.Claims.AddWithCarryCompletes : Prop :=
  ∀ (x : Alu) (s : State) (c : Cohort), MayIssue s c .iaddc x →
    let r := readOperands s c .iaddc x
    let n := widthOf x.ty
    let lanes := s.execLanes c x.pred
    ∃ t u, exec (.iaddc x) s = .next t ∧ OperandsRead (begun s) r.2 ∧
      Written r.2 u c (AluOp.iaddc.shape x.sub.toNat x.ty).d x.d (aluLat .iaddc x) (lanes.zip (r.1.map fun e => (e.a + e.b + e.p.toNat) % 2 ^ n)) ∧
      Written u t c .pred ⟨.v, x.sub.setWidth 8⟩ (aluLat .iaddc x)
        (lanes.zip (r.1.map fun e => (decide (2 ^ n ≤ e.a + e.b + e.p.toNat)).toNat)) ∧
      RestKept s t ∧ Advanced s t c x.stall

/-- R135: LOP3 writes, for each bit, the truth table's bit that the operands' bits select. -/
def Sys2Proof.Claims.TruthTableInstructionCompletes : Prop :=
  ∀ (x : Alu) (tt : BitVec 8) (s : State) (c : Cohort), Issues s c → Passes s c (.lop3 x tt) x.pred → (Instr.lop3 x tt).regsOk = true →
    ConduitsReady s c x.pred (lop3Pops x) (pushOf x.d false) →
    let sp := OpSpec.src false false
    let lanes := s.execLanes c x.pred
    let keep := if lanes.isEmpty then [] else (pushOf x.d false).map (·.1)
    let a := (begun s).readSrc keep c lanes sp .u32 false x.a
    let b := a.2.readB keep c lanes sp .u32 false x.b
    let d := b.2.readSrc keep c lanes sp .u32 false x.c
    ∃ t lat, exec (.lop3 x tt) s = .next t ∧ OperandsRead (begun s) d.2 ∧
      Written d.2 t c (OpSpec.dst false) x.d lat ((lanes.zip (a.1.zip (b.1.zip d.1))).map fun e => (e.1, lop3 tt e.2.1 e.2.2.1 e.2.2.2)) ∧
      RestKept s t ∧ Advanced s t c x.stall

/-- R133, R135: IADDC and LOP3. -/
def Obligations.CarryAndTruthTableComplete : Prop :=
  AddWithCarryCompletes ∧ TruthTableInstructionCompletes

/-- R97, R144, R335, R337: MOVI, MOVI64, SRD, CSRR and the services of CALLSV that only answer write their value in each executing lane. FAULTQ first
takes the page of its counts back where it is in host bias, as the model chooses (log 38). -/
def Obligations.ValueInstructionsComplete : Prop :=
  (∀ (s : State) (c : Cohort) (x : ImmI), Issues s c → s.crownReady (s.ringPage (s.ctxOf c.crew)) = false → s.execLanes c x.pred ≠ [] →
    exec (.faultq x) s = .next (((begun s).takeBack (s.ringPage (s.ctxOf c.crew))).hold c.id)) ∧
  ∀ (s : State) (c : Cohort) (v : ValueInstr), Issues s c → Passes s c v.instr v.fields.pred → v.instr.regsOk = true →
    (∀ x, v = .faultq x → s.crownReady (s.ringPage (s.ctxOf c.crew)) = true) →
    ConduitsReady s c v.fields.pred [] (pushOf v.fields.d v.wide) →
    ∃ t, exec v.instr s = .next t ∧
      Written (begun s) t c (OpSpec.dst v.wide) v.fields.d v.latency ((s.execLanes c v.fields.pred).map fun l => (l, v.value s c l)) ∧
      RestKept s t ∧ Advanced s t c v.fields.stall


/-! ## Traces -/

/-- R43: after an instruction the cohort's pc is one further and its next issue max(stall, 1) clocks later; nothing but the cohort
changes. A cohort does not issue before its next issue clock. -/
def Obligations.FinishedCohortGoesOn : Prop :=
  (∀ (s u : State) (c k : Cohort) (i : Instr) (p : Pred) (stall : BitVec 4), u.cohorts.find c.id = some k →
    let t := finished s u c i p stall
    (∃ m, t.cohorts.find c.id = some m ∧ m.pc = k.pc + 1 ∧ m.nextIssue = u.clock + max stall.toNat 1 ∧ m.st = .ready ∧ m.lanes = k.lanes ∧
      m.pend = k.pend ∧ m.irr = k.irr ∧ m.hdr = k.hdr ∧ m.yieldFor = k.yieldFor ∧ m.waits = k.waits) ∧
    (∀ n, n ≠ c.id → t.cohorts.find n = u.cohorts.find n) ∧ ∃ l, t = { u with cohorts := l }) ∧
  ∀ (s : State) (c : Cohort), s.canIssue c = true → c.nextIssue ≤ s.clock

/-- R42, R94 to R96, R98, R109, R124: what NOP, TRC, SKIP, MATCH, YIELD, QSTAT and TRIGGER do. -/
def Obligations.TraceInstructionsComplete : Prop :=
  ∀ (s : State) (c : Cohort), Issues s c →
    (∀ x, Passes s c (.nop x) x.pred → exec (.nop x) s = .next (finished s (begun s) c (.nop x) x.pred x.stall)) ∧
    (∀ x : Trc, c.st = .trc →
      exec (.trc x) s = .next ((begun s).setCohort { c with
        hdr := c.pc, pc := c.pc + 1, irr := x.irr, full := x.full, traceId := x.traceId, budget := x.budget.toNat, len := x.len.toNat,
        readSet := [], broken := [], nextIssue := s.clock + max x.stall.toNat 1,
        st := if x.irr = false ∧ x.budget ≠ 0 then .buffer else .ready })) ∧
    (∀ x : Skip, Passes s c (.skip x) x.pred →
      exec (.skip x) s = .next (finished s ((s.execLanes c x.pred).foldl (fun u l => u.modLane c.id l.tid fun l =>
        { l with skipTo := max l.skipTo (c.offset + x.n.toNat + 1) }) (begun s)) c (.skip x) x.pred x.stall)) ∧
    (∀ x : Alu, MayIssue s c .matchKey x →
      let r := readOperands s c .matchKey x
      exec (.matchKey x) s = .next (finished s (r.1.foldl (fun u e => u.modLane c.id e.lane.tid fun l =>
        { l with key := BitVec.ofNat 16 e.a }) r.2) c (.matchKey x) x.pred x.stall)) ∧
    (∀ x : Ctl, Passes s c (.yield x) x.pred → s.execLanes c x.pred ≠ [] →
      exec (.yield x) s = .next (finished s ((begun s).modCohort c.id fun k => { k with
        yieldFor := (s.cohorts.vals.filter fun o => o.id != c.id && o.core == c.core && o.port == c.port && s.canIssue o).map (·.id) })
        c (.yield x) x.pred x.stall)) ∧
    (∀ (x : Alu) (w : Crew) (q : Conduit), Passes s c (.qstat x) x.pred → s.crews.find c.crew = some w →
      w.conduit x.a.reg.num.toNat = some q →
      exec (.qstat x) s = .next (finished s ((begun s).writeDst c (OpSpec.lane false .vk) x.d 4 ((s.execLanes c x.pred).map fun l =>
        (l, (if q.reserve then 2 ^ 30 else 0) + 2 ^ 16 * (q.room % 2 ^ 13) + q.fifo.length % 2 ^ 13))) c (.qstat x) x.pred x.stall)) ∧
    (∀ (x : Ctl) (w : Crew) (low : Lane) (rest : List Lane), c.irr = true → s.execLanes c x.pred = low :: rest →
      let u := (begun s).flushQuantum c.core
      Passes u c (.trigger x) x.pred → u.execLanes c x.pred ≠ [] → u.releaseWaits low.tid = false →
      u.crews.find c.crew = some w → w.triggered = false → w.decremented = false →
      exec (.trigger x) s = .next (finished u ((u.releaseFlush c.core .sys |>.modCrew c.crew fun k => { k with triggered := true }).urge
        (.hw (.joinDecrement c.crew))) c (.trigger x) x.pred x.stall)) ∧
    (∀ x : Ctl, Passes s c (.trigger x) x.pred → c.irr = false → (∀ l ∈ s.execLanes c x.pred, l.buf.length < c.budget) →
      exec (.trigger x) s = .next (finished s ((s.execLanes c x.pred).foldl (fun u l => u.modLane c.id l.tid fun l =>
        { l with buf := l.buf ++ [.trigger] }) (begun s)) c (.trigger x) x.pred x.stall))

/-- R107, R108: the lanes that pass a guard go on; each that fails is rolled back and its filing at the alternative, the code address
sext(target) from the guard, follows. GUARD tests its predicate, GUARDR that a value lies between its bounds, GUARDNZ that it is not
zero. -/
def Sys2Proof.Claims.GuardInstructionsComplete : Prop :=
  ∀ (s : State) (c : Cohort) (x : Guard), Issues s c →
    let alt := (((c.pc : Int) + x.tgt.toInt) % 2 ^ 32).toNat
    let afterFails (p : Pred) (pass : Lane → Bool) : State := ((s.execLanes c p).filter fun l => !pass l).foldl
      (fun u l => ((u.rollback c l.tid).modThread l.tid fun t => { t with place := .leaving alt c.core, resvLost := false }).post
        (.hw (.guardFailFiling l.tid alt))) (begun s)
    (Passes s c (.guard x) Pred.always → exec (.guard x) s = .next
      (finished s (afterFails Pred.always fun l => s.predTrue c x.pred l.tid) c (.guard x) Pred.always x.stall)) ∧
    (Passes s c (.guardr x) x.pred → exec (.guardr x) s = .next
      (finished s (afterFails x.pred fun l =>
        x.lo.toInt ≤ (s.seenV c l.tid x.ra.toNat).toInt && (s.seenV c l.tid x.ra.toNat).toInt ≤ x.hi.toInt)
        c (.guardr x) x.pred x.stall)) ∧
    (Passes s c (.guardnz x) x.pred → exec (.guardnz x) s = .next
      (finished s (afterFails x.pred fun l => s.seenV c l.tid x.ra.toNat != 0) c (.guardnz x) x.pred x.stall))

/-- R107: a thread that has left a trace at a guard is filed at the alternative with key tag 0. -/
def Sys2Proof.Claims.GuardFailureFiles : Prop :=
  ∀ (s : State) (th : Thread) (tid alt : Nat), s.threads.find tid = some th →
    th.place = .leaving alt (((s.crews.find th.crew).bind (·.core)).getD 0) →
    ∃ t, exec (.guardFailFiling tid alt) s = .next t ∧ FiledAt s t tid alt 0 none ∧ ∃ l, t = { s with threads := l }

/-- R107, R108: the guards and the filing of the lanes that fail. -/
def Obligations.GuardsComplete : Prop :=
  GuardInstructionsComplete ∧ GuardFailureFiles

/-- R110, R113, R114: a lane of an irrevocable trace that commits with NEXT, SEL, IND or CALL leaves the cohort with its moves made and is
filed at the successor with its key tag; CALL leaves the address after it in its pair. -/
def Sys2Proof.Claims.CommitsFile : Prop :=
  ∀ (s : State) (c : Cohort) (l : Lane) (th : Thread) (x : Commit), CommitsAlone s c l th → l.trap = none → th.timerPend = false →
    let u := left s c l x
    let goes (i : Instr) (u : State) (next : Nat) : Prop :=
      ∃ t, exec i s = .next t ∧ FiledAt s t l.tid next l.key none ∧ ∃ m, t = { u with threads := m }
    goes (.commitNext x) u (c.pc + 1) ∧
    goes (.commitSel x) u (((c.pc : Int) + (if u.getP l.tid x.pred.num.toNat ≠ x.pred.neg then x.tgt0 else x.tgt1).toInt) % 2 ^ 32).toNat ∧
    goes (.commitInd x) u (u.getV64 l.tid x.ra.toNat).toNat ∧
    goes (.commitCall x) (u.setV64 l.tid x.ra.toNat (BitVec.ofNat 64 (c.pc + 1))) (((c.pc : Int) + x.tgt0.toInt) % 2 ^ 32).toNat

/-- R113, R319: RET files the thread at the address in its pair; where that is %trapret of a thread in its handler, the handler flag is
cleared, and the thread goes on at its resume point, or ends when the address is 0xFFFFFFFF. -/
def Sys2Proof.Claims.ReturnCompletes : Prop :=
  ∀ (s : State) (c : Cohort) (l : Lane) (th : Thread) (x : Commit), CommitsAlone s c l th → l.trap = none → th.timerPend = false →
    let u := left s c l x
    let next := (u.getV64 l.tid x.ra.toNat).toNat
    (th.handler = false ∨ next ≠ th.trapret.toNat →
      ∃ t, exec (.commitRet x) s = .next t ∧ FiledAt s t l.tid next l.key none ∧ ∃ m, t = { u with threads := m }) ∧
    (∀ r, th.handler = true → next = th.trapret.toNat → next ≠ 0xffffffff → th.resume = some r → r.addr = next →
      ∃ t, exec (.commitRet x) s = .next t ∧ FiledAt s t l.tid next 0 (some r) ∧ (∃ m, t = { u with threads := m }) ∧
        ∃ h, t.threads.find l.tid = some h ∧ h.handler = false ∧ h.resume = none) ∧
    (th.handler = true → next = th.trapret.toNat → next ≠ 0xffffffff → th.resume = none →
      ∃ t, exec (.commitRet x) s = .next t ∧ FiledAt s t l.tid next l.key none ∧ (∃ m, t = { u with threads := m }) ∧
        ∃ h, t.threads.find l.tid = some h ∧ h.handler = false) ∧
    (th.handler = true → next = 0xffffffff → th.trapret.toNat = 0xffffffff → s.eng.quantum.filter (·.core == c.core) = [] →
      (s.unanswered l.tid fun _ => true) = false →
      exec (.commitRet x) s = .next ((u.modThread l.tid fun t => { t with handler := false }).endThread l.tid))

/-- R85, R86, R88, R113: EXIT ends the thread; BAR arrives at its barrier with its target; RWAIT at its wait point. -/
def Sys2Proof.Claims.WaitingCommitsComplete : Prop :=
  ∀ (s : State) (c : Cohort) (l : Lane) (th : Thread) (x : Commit), CommitsAlone s c l th → l.trap = none →
    s.eng.quantum.filter (·.core == c.core) = [] → s.releaseWaits l.tid = false →
    let u := left s c l x
    let succ := (((c.pc : Int) + x.tgt0.toInt) % 2 ^ 32).toNat
    exec (.commitExit x) s = .next (u.endThread l.tid) ∧
    (x.ra = 0xff →
      exec (.commitBar x) s = .next (u.arriveBar l.tid c.crew x.rb.toNat none ⟨succ, l.key, none, c.traceId, c.len⟩)) ∧
    (x.ra ≠ 0xff → let r := u.seenK c x.ra.toNat
      exec (.commitBar x) s = .next (r.2.arriveBar l.tid c.crew x.rb.toNat (some r.1.toNat) ⟨succ, l.key, none, c.traceId, c.len⟩)) ∧
    exec (.commitRwait x) s = .next
      (u.arriveRwait l.tid c.crew c.pc x.rb.toNat x.count.toNat x.timeout.toNat ⟨succ, l.key, none, c.traceId, c.len⟩)

/-- R86: a wait point whose timer has reached timeout × 16 clocks releases its group with the predicate false. -/
def Sys2Proof.Claims.WaitPointTimesOut : Prop :=
  ∀ (s : State) (w : Crew) (g : Group) (crew addr : Nat), s.crews.find crew = some w → w.groups.find addr = some g →
    16 * g.timeout ≤ g.elapsed → exec (.rwaitTimeout crew addr) s = .next (s.releaseGroup crew addr false)

/-- R110, R111, R112: a lane alone in a revocable trace, with no failed reservation, no buffered update of a segment that has gone stale, nothing of higher
precedence before it and room in the side log, passes its commit point and performs its buffered effects; when they are done its moves are made and it is
filed at the successor, and while one waits the cohort stays. A lane with a failed reservation is rolled back to begin its trace again (R121). -/
def Sys2Proof.Claims.RevocableCommitsComplete : Prop :=
  ∀ (s : State) (c : Cohort) (l m : Lane) (x : Commit), Issues s c → c.irr = false → c.lanes = [l] → (∀ p ∈ c.pend, p.ready ≤ s.clock) →
    c.pushed ≤ s.clock →
    let b := (begun s).flushQuantum c.core
    b.cohorts.find c.id ≠ none → b.laneNow c.id l.tid = some m → m.tid = l.tid → b.earlierAwaits c.id l.tid = false → m.past = false →
    (m.resv.any (·.failed) = true → exec (.commitNext x) s = .next (((b.refile c l.tid).modThread l.tid fun t => { t with resvLost := true }).hold c.id)) ∧
    (m.resv.any (·.failed) = false → (∀ a n v o f, Effect.atoms a n v o f ∈ m.buf → (b.spadRead c.crew a n).isSome = true) → b.deferredBy m = [] →
      b.holdsClash m = false → m.logNeeds ≤ b.logRoom c.core →
      let v := (b.modThread l.tid fun t => { t with jewelUsed := false, resvLost := false }).modLane c.id l.tid fun k =>
        { k with past := true, logRes := m.logNeeds }
      (∀ w, v.performEffects c l.tid m.buf.length = (.waitAll, w) → w.cohorts.find c.id ≠ none →
        exec (.commitNext x) s = .next (w.hold c.id)) ∧
      ∀ w k r th, v.performEffects c l.tid m.buf.length = (.done, w) → w.cohorts.find c.id = some k → k.lanes = [r] → r.tid = l.tid →
        r.trap = none → w.threads.find l.tid = some th → th.timerPend = false →
        let u : State := { w.moves l.tid x with cohorts := w.cohorts.erase c.id }
        let goes (i : Instr) (u : State) (next : Nat) : Prop :=
          ∃ t, exec i s = .next t ∧ FiledAt w t l.tid next r.key none ∧ ∃ m, t = { u with threads := m }
        goes (.commitNext x) u (c.pc + 1) ∧
        goes (.commitSel x) u (((c.pc : Int) + (if u.getP l.tid x.pred.num.toNat ≠ x.pred.neg then x.tgt0 else x.tgt1).toInt) % 2 ^ 32).toNat ∧
        goes (.commitInd x) u (u.getV64 l.tid x.ra.toNat).toNat ∧
        goes (.commitCall x) (u.setV64 l.tid x.ra.toNat (BitVec.ofNat 64 (c.pc + 1))) (((c.pc : Int) + x.tgt0.toInt) % 2 ^ 32).toNat)

/-- R104, R106, R110, R111, R125: effects past a commit point are performed in the order of the trace, each behind what it waits for: a scratchpad
effect in its crew's window, TRIGGER as a request, TRAP and BRK kept for the end, of which the first counts, and a store at the place its address is
translated to now, at its own scope. -/
def Sys2Proof.Claims.EffectsArePerformedInOrder : Prop :=
  ∀ (s : State) (c : Cohort) (l : Lane) (tid fuel : Nat) (e : Effect) (rest : List Effect), s.laneNow c.id tid = some l → l.buf = e :: rest →
    (s.laneAwaits c.id tid = true → s.performEffects c tid (fuel + 1) = (.waitAll, s)) ∧
    (s.laneAwaits c.id tid = false → releases e.order = false →
      let goesOn (u : State) : Prop := s.performEffects c tid (fuel + 1) = (u.popEffect c.id tid).performEffects c tid fuel
      (∀ a bs o, e = .sts a bs o → goesOn (s.spadEff c.crew tid e)) ∧ (∀ a n v o f, e = .atoms a n v o f → goesOn (s.spadEff c.crew tid e)) ∧
      (∀ a n, e = .renew a n → goesOn (s.spadEff c.crew tid e)) ∧ (∀ a v, e = .arm a v → goesOn (s.spadEff c.crew tid e)) ∧
      (e = .trigger → s.releaseWaits tid = false → goesOn (s.requestTrigger c)) ∧
      (∀ d, e = .trap d → goesOn (s.modLane c.id tid fun k => { k with trap := k.trap.or (some d) })) ∧
      (∀ (m : MemEff) (pa key unit : Nat) (pte : Dword) (u v : State), e = .mem m pa .clean → m.kind = .store → m.order = .plain ∨ m.order = .rlx →
        m.use ≠ .spec → s.logsPage l.tid m.va = false → s.reach c l.pos m.va .write = (.go key pte unit, u) → u.stalled l.tid key m.bytes.length = false →
        u.ownEntry l.tid key m.bytes.length = false → (u.unanswered l.tid fun r => r.due.isSome && overlap key m.bytes.length r.pa r.size) = false →
        u.remoteKey key = false → u.mergeCheck key m.bytes.length = (none, v) → l.tid = tid →
        goesOn (if wideScope m.scope then (v.perform key m.bytes (.ctx m.ctx) pte[10]).noteWrite m.thread key m.bytes.length
          else (v.performOnDie c.core m key pte[10]).noteWrite m.thread key m.bytes.length)))

/-- R104, R110, R111, R246: the one buffered store of a lane alone in a revocable trace, plain or relaxed and of a wide scope, is in memory when the
trace has committed, and nothing else of memory has changed but the version counter of a watched page; the thread is filed behind it. -/
def Sys2Proof.Claims.CommittedStoreIsInMemory : Prop :=
  ∀ (s u : State) (c : Cohort) (l : Lane) (th : Thread) (x : Commit) (m : MemEff) (pa key unit : Nat) (pte : Dword), Issues s c → c.irr = false →
    c.lanes = [l] → l.buf = [.mem m pa .clean] → l.past = false → l.resv = [] → l.trap = none → (∀ p ∈ c.pend, p.ready ≤ s.clock) → c.pushed ≤ s.clock →
    Quiet s → Sound s → s.coh.remote = [] → s.eng.sideLog = [] → s.pkg.reports = [] → (∀ d ∈ s.cohorts.vals, ∀ r ∈ d.lanes, r.past = false) →
    s.threads.find l.tid = some th → th.timerPend = false → m.kind = .store → m.order = .plain ∨ m.order = .rlx → m.use = .sync → wideScope m.scope = true →
    let b : State := ((begun s).modThread l.tid fun t => { t with jewelUsed := false, resvLost := false }).modLane c.id l.tid fun k =>
      { k with past := true, logRes := 1 }
    b.reach c l.pos m.va .write = (.go key pte unit, u) → u.stalled l.tid key m.bytes.length = false → u.remoteKey key = false →
    ∃ t, exec (.commitNext x) s = .next t ∧ Landed s t (s.counterOf key) key m.bytes pte[10] ∧ t.coh.dieWrites = [] ∧
      FiledAt s t l.tid (c.pc + 1) l.key none ∧ t.cohorts.find c.id = none

/-- R85, R86, R88, R104, R106, R110 to R114, R121, R319: the commits. -/
def Obligations.CommitsComplete : Prop :=
  CommitsFile ∧ ReturnCompletes ∧ WaitingCommitsComplete ∧ WaitPointTimesOut ∧ RevocableCommitsComplete ∧ EffectsArePerformedInOrder ∧
    CommittedStoreIsInMemory

/-- R125, R317: in an irrevocable trace TRAP and BRK take each executing lane out of the cohort and into its handler, with the code of the
immediate, the trace and offset of the instruction, and the address after it to return to; in a revocable one the cause is buffered. -/
def Sys2Proof.Claims.TrapAndBreakComplete : Prop :=
  ∀ (s : State) (c : Cohort) (x : ImmI) (i : Instr) (cause : Cause), (i = .trap x ∧ cause = .trap) ∨ (i = .brk x ∧ cause = .brk) →
    Issues s c → Passes s c i x.pred →
    (c.irr = true → exec i s = .next (finished s ((s.execLanes c x.pred).foldl (fun u l =>
      (u.dropLanes c.id [l.tid]).enterHandler l.tid c.snap.trapvec c.core
        ⟨cause, x.imm, c.traceId, c.offset, c.pc + 1, some (c.here (c.pc + 1))⟩ 0) (begun s)) c i x.pred x.stall)) ∧
    (c.irr = false → (∀ l ∈ s.execLanes c x.pred, l.buf.length < c.budget) →
      exec i s = .next (finished s ((s.execLanes c x.pred).foldl (fun u l => u.modLane c.id l.tid fun l =>
        { l with buf := l.buf ++ [.trap ⟨cause, x.imm, c.offset, c.traceId⟩] }) (begun s)) c i x.pred x.stall))

/-- R41, R49: ILLEGAL raises ILLOP for every thread of the cohort. -/
def Sys2Proof.Claims.IllegalInstructionRaisesIllop : Prop :=
  ∀ (s : State) (c : Cohort), Issues s c → exec .illegal s = .next ((begun s).raiseIn c c.lanes .illop c.offset fun _ => 0)

/-- R41, R49, R125, R317: TRAP, BRK and ILLEGAL. -/
def Obligations.TrapInstructionsComplete : Prop :=
  TrapAndBreakComplete ∧ IllegalInstructionRaisesIllop

/-- R76, R77, R317, R318: a thread that takes a cause with the vector enabled and outside its handler has the cause in %trapcause, the offset, trace
and code in %trapinfo and its return address in %trapret, is in its handler, and is filed at the vector's address with key tag 0. Of other threads only
those of the same key on the core's overflow list may change, which move into the bin that the filing takes, with their arrivals. -/
def Sys2Proof.Claims.ThreadCauseEntersHandler : Prop :=
  ∀ (s : State) (tid core addr : Nat) (vec : Dword) (e : TrapEntry) (th : Thread), s.threads.find tid = some th → vec[32] = true →
    th.handler = false →
    let t := s.enterHandler tid vec core e addr
    (∃ h f, t.threads.find tid = some h ∧ h.handler = true ∧ h.trapcause = BitVec.ofNat 32 e.cause.code ∧
      h.trapinfo = 0#8 ++ BitVec.ofNat 8 e.offset ++ e.traceId ++ e.code ∧ h.trapret = BitVec.ofNat 64 (e.ret % 2 ^ 32) ∧
      h.resume = e.resume ∧ h.place = .filed f ∧ f.next = (vec.extractLsb' 0 32).toNat ∧ f.tag = 0 ∧ f.resume = none) ∧
    (∀ n, n ≠ tid → ∀ o, s.threads.find n = some o → t.threads.find n = some o ∨ (t.threads.find n = some o.toBin ∧ (∃ f, o.place = .filed f ∧
      f.overflow = true) ∧ ∃ e ∈ s.threads.vals, e.id = n ∧ ∃ f, e.waits = some (⟨th.crew, (vec.extractLsb' 0 32).toNat, 0, none⟩, f))) ∧ ∃ l, t = { s with threads := l }

/-- R317, R320: otherwise the thread is faulted and a terminating record of the cause is delivered, with its handler bit set when the
thread was in its handler. -/
def Sys2Proof.Claims.ThreadCauseWithoutHandlerTerminates : Prop :=
  ∀ (s : State) (tid core addr : Nat) (vec : Dword) (e : TrapEntry) (th : Thread), s.threads.find tid = some th →
    vec[32] = false ∨ th.handler = true →
    let t := s.enterHandler tid vec core e addr
    (∃ h, t.threads.find tid = some h ∧ h.place = .faulted ∧ h.handler = th.handler ∧ h.trapret = th.trapret ∧
      h.trapcause = th.trapcause ∧ h.trapinfo = th.trapinfo) ∧
    ∃ r, Turn.hw (.faultRecordWrite r) ∈ t.agenda ∧ r.cause = e.cause ∧ r.term = true ∧ r.handler = th.handler ∧
      r.offset = e.offset ∧ r.traceId = e.traceId ∧ r.lane = th.ord % 32 ∧ r.wid = th.wid ∧ r.addr = addr ∧ r.core = core

/-- R317, R318, R320: taking a thread-level cause. -/
def Obligations.ThreadCausesEnterTheHandler : Prop :=
  ThreadCauseEntersHandler ∧ ThreadCauseWithoutHandlerTerminates


/-! ## Global memory -/

/-- R219: the address is the 64-bit base plus the signed offset, exact, with the window register's low 16 bits above it; a sum outside 64
bits has none. -/
def Sys2Proof.Claims.EffectiveAddress : Prop :=
  ∀ (r : SysRegs) (w : BitVec 2) (base : Dword) (off : BitVec 24),
    let win : Word := if w = 0 then r.win0 else if w = 1 then r.win1 else if w = 2 then r.win2 else r.win3
    let low : Int := (base.toNat : Int) + off.toInt
    ((0 ≤ low ∧ low < 2 ^ 64) → eaOf r w base off = some (win.toNat % 65536 * 2 ^ 64 + low.toNat)) ∧
    (low < 0 ∨ 2 ^ 64 ≤ low → eaOf r w base off = none)

/-- R219, R256, R49: a lane whose address leaves the window raises ADDROVF, and one whose address is not aligned to its access MISALIGN, in
that lane alone; nothing is accessed for it. A lane of a revocable trace needs room in its budget only for what it would buffer (R103). -/
def Sys2Proof.Claims.BadAddressesTrap : Prop :=
  ∀ (s : State) (c : Cohort) (x : Mem) (l : Lane), Issues s c → s.execLanes c x.pred = [l] → releases x.order = false →
    let raises (i : Instr) (agent n : Nat) (acc : Acc) : Prop :=
      let b := flushed s c x n acc [l]
      b.execLanes c x.pred = [l] → b.laneWaitsAt agent c x n acc l = false → Passes b c i x.pred →
      (b.laneEA c x l = none →
        exec i s = .next (finished b (b.raiseIn c [l] .addrovf c.offset fun _ => 0) c i x.pred x.stall)) ∧
      (∀ va, b.laneEA c x l = some va → va % n ≠ 0 →
        exec i s = .next (finished b (b.raiseIn c [l] .misalign c.offset fun _ => va) c i x.pred x.stall))
    (x.split = false → raises (.ld x) (l1Agent c.core) (widthBytes x.width) .read) ∧ raises (.kld x) (icAgent c.core) (widthBytes x.width) .read ∧
    (c.irr = true ∨ l.buf.length < c.budget → raises (.st x) (l1Agent c.core) (widthBytes x.width) .write ∧
      raises (.atomcas x) (l1Agent c.core) (widthBytes x.width) .both ∧
      ∀ op cls, (begun s).atomBehind c x (atomSize x cls) l = false →
        raises (.atom x op cls) (l1Agent c.core) (atomSize x cls) (if x.d = 0 then .write else .both))

/-- R49, R219, R256: the effective address and what it raises. That the record of an ADDROVF has address 0 is the model's choice (log
25). -/
def Obligations.EffectiveAddressAndItsFaults : Prop :=
  EffectiveAddress ∧ BadAddressesTrap

/-- R256 to R266, R270, R277: memory instructions handle their executing lanes in ascending lane position, each as its rule says, behind the updates of
quantum buffers that come before them; a releasing one flushes its core's quantum buffer, finds nothing of its threads under way, and takes effect in
order, one of order .SC as FENCE.SC. -/
def Obligations.MemoryInstructionsComplete : Prop :=
  ∀ (s : State) (c : Cohort) (x : Mem), Issues s c →
    let lanes := s.execLanes c x.pred
    let acts (i : Instr) (n : Nat) (acc : Acc) (f : State → Lane → State) : Prop :=
      let b := flushed s c x n acc lanes;
      (∀ l ∈ lanes, b.laneWaits c x n acc l = false) →
      let rel : Prop := c.irr = true ∧ releases x.order = true ∧ lanes ≠ []
      let u := if rel then b.flushQuantum c.core else b
      (rel → u.orderWaits c x.order lanes = false) → Passes u c i x.pred →
      exec i s = .next (finished u ((u.execLanes c x.pred).foldl f (if rel then u.fenceFirst c x.order x.scope else u)) c i x.pred x.stall)
    (let b := flushed s c x (widthBytes x.width) .read lanes;
      (∀ l ∈ lanes, b.laneWaits c x (widthBytes x.width) .read l = false) →
      let rel : Prop := x.order = .sc ∧ lanes ≠ []
      let u := if rel then b.flushQuantum c.core else b
      (rel → u.orderWaits c .sc lanes = false) → Passes u c (.ld x) x.pred →
      let ls := u.execLanes c x.pred
      let v := if x.order = .sc ∧ ls ≠ [] then u.fenceFirst c .sc x.scope else u
      let t := finished u (v.loadLanes c u.nextId x ls) c (.ld x) x.pred x.stall
      let r := t.splitGroups (if x.split then u.splitSectors c x lanes else [])
      exec (.ld x) s = .next ((mergeGroups (r.2.freeContexts c.core c.port) r.1).reverse.foldl
        (fun w g => w.urge (.hw (.ldSplitGroup c.id g))) r.2)) ∧
    acts (.st x) (widthBytes x.width) .write (fun u l => u.storeLane c x l) ∧
    (∀ op cls, (c.irr = true → x.d = 0 → ∀ l ∈ lanes, (begun s).atomBehind c x (atomSize x cls) l = false) →
      acts (.atom x op cls) (atomSize x cls) (if x.d = 0 then .write else .both) fun u l => u.atomLane c x op cls l) ∧
    acts (.atomcas x) (widthBytes x.width) .both (fun u l => u.casLane c x l) ∧
    ((∀ l ∈ lanes, ∀ va, (begun s).laneEA c x l = some va → let r := (begun s).peek c va .read
        r ≠ .busy ∧ (∀ sec, r ≠ .ask sec) ∧ ∀ k p n us, r = .ok k p n us →
          (begun s).readStalled (l1Agent c.core) l.tid (k / 32 * 32) 32 = false) → Passes s c (.pfetch x) x.pred →
      exec (.pfetch x) s = .next (finished s (lanes.foldl (fun u l => u.prefetchLane c x l) (begun s)) c (.pfetch x) x.pred x.stall))

/-- R224, R231: where no write is under way, translating an access stores nothing and changes no register, whatever the walk meets. -/
def Sys2Proof.Claims.TranslationStoresNothing : Prop :=
  ∀ (s : State) (c : Cohort) (lane va : Nat) (acc : Acc), Quiet s →
    let u := (s.reach c lane va acc).2
    u.mem = s.mem ∧ Quiet u ∧ RegsKept s u

/-- R257: a load leaves in its destination the bytes at its address as the core's die sees them once their sectors are read, extended to its
registers; a load of a revocable trace sees its own buffered effects. It stores nothing, and where no write is under way what it reads is memory.
That a load binds at its issue is the model's choice (log 15). -/
def Sys2Proof.Claims.LoadBindsBytes : Prop :=
  ∀ (s b u v : State) (c : Cohort) (x : Mem) (l : Lane) (va key unit : Nat) (pte : Dword),
    let n := widthBytes x.width
    LaneActs (x.order == .sc) s b u c x l n .read (.ld x) va → x.split = false → (Instr.ld x).regsOk = true →
    u.reach c l.pos va .read = (.go key pte unit, v) → (∀ i < n, v.remoteKey (key + i) = false) → (∀ h ∈ s.coh.halves, h.ret = none) →
    let w := v.touchLoad c n (.go key pte unit)
    w.poisonedIn key n = none → (∀ h ∈ w.coh.halves, h.thread ≠ l.tid) →
    let bytes := (List.range n).map fun i =>
      fwdByte (fun a => w.seenByte (dieOf c.core) (key + a - va)) (if c.irr then [] else l.buf.reverse) (va + i)
    ∃ t, exec (.ld x) s = .next t ∧ Loaded s t l.tid x.d x.width bytes ∧
      (Quiet s → (∀ i < n, w.seenByte (dieOf c.core) (key + i) = s.mem.read (key + i)) ∧ t.mem = s.mem ∧
        ∀ die a, t.viewByte die a = s.viewByte die a)

/-- R232: a thread whose load, or whose atomic with a destination, meets a page that is not mapped is parked on the page, out of its cohort, with a
recoverable PAGE record of the address that is written next; a load that the lane's own buffered stores supply needs no page (R105). -/
def Sys2Proof.Claims.UnmappedReadsPark : Prop :=
  ∀ (s b u v : State) (c : Cohort) (x : Mem) (l : Lane) (va unit : Nat) (th : Thread), s.threads.find l.tid = some th →
    v.threads.find l.tid = some th → th.pendRec = none → v.laneEA c x l = some va →
    let parks (i : Instr) : Prop := ∃ t p r, exec i s = .next t ∧ t = finished b (v.parkPage c l va (some unit)) c i x.pred x.stall ∧
      (∃ h, t.threads.find l.tid = some h ∧ h.place = .parked p) ∧ p.page = va / 2 ^ 16 ∧ p.why = .page ∧ p.unit = some unit ∧ p.core = c.core ∧
      Turn.hw (.faultRecordWrite r) ∈ t.agenda ∧ r.cause = .page ∧ r.recov = true ∧ r.sideLog = false ∧ r.addr = va ∧ r.wid = th.wid ∧ t.mem = v.mem
    (LaneActs (x.order == .sc) s b u c x l (widthBytes x.width) .read (.ld x) va → x.split = false →
      u.reach c l.pos va .read = (.page (some unit), v) →
      c.irr = true ∨ coveredByStores l.buf va (widthBytes x.width) = false → parks (.ld x)) ∧
    (c.irr = true → x.use ≠ .spec → u.reach c l.pos va .both = (.page (some unit), v) →
      (∀ op cls, x.d ≠ 0 → LaneActs (releases x.order) s b u c x l (atomSize x cls) .both (.atom x op cls) va → parks (.atom x op cls)) ∧
      (LaneActs (releases x.order) s b u c x l (widthBytes x.width) .both (.atomcas x) va → parks (.atomcas x)))

/-- R224, R231, R232, R257: a translation, a load, and what an unmapped page does to one. -/
def Obligations.LoadsReadMemory : Prop :=
  TranslationStoresNothing ∧ LoadBindsBytes ∧ UnmappedReadsPark

/-- R229, R259, R270: a store of an irrevocable trace to the device heads for its home with its register's bytes and its address, in a turn of its own;
no byte of any die changes yet, and no register does. A releasing one does so once nothing of its thread is under way and what came before it is
performed, and its cohort waits until it is performed too. The time to its home, in clocks, is a free value (log 15). -/
def Sys2Proof.Claims.StoreHeadsForItsHome : Prop :=
  ∀ (s b u v : State) (c : Cohort) (x : Mem) (l : Lane) (va key unit : Nat) (pte : Dword),
    let n := widthBytes x.width
    LaneActs (releases x.order) s b u c x l n .write (.st x) va → c.irr = true → u.logsPage l.tid va = false →
    u.reach c l.pos va .write = (.go key pte unit, v) → v.remoteKey key = false →
    let e := u.memEff c l va (u.srcBytes c l.tid x.d x.width) .store x
    ∃ t k r, exec (.st x) s = .next t ∧ (∀ die a, t.viewByte die a = v.viewByte die a) ∧ t.mem = v.mem ∧ RegsKept v t ∧
      (s.coh.halves = [] → t.vreg = s.vreg ∧ t.preg = s.preg) ∧ k < 512 ∧
      t.coh.remote.find v.nextId = some r ∧ r.pa = key ∧ r.size = n ∧ r.dest = .write ∧ r.peer = false ∧ r.gone = false ∧ r.thread = l.tid ∧
      r.due = some (s.clock + k) ∧ r.watch = pte[10] ∧ r.agent = tcAgent c.core ∧ r.eff = some e ∧ Turn.arrive v.nextId ∈ t.agenda ∧
      ∀ d, t.cohorts.find c.id = some d → (v.nextId ∈ d.waits ↔ e.logs = false ∨ ∃ d', v.cohorts.find c.id = some d' ∧ v.nextId ∈ d'.waits)

/-- R233, R234, R236: a store that R233 admits to the side log, and that meets a page that is not mapped, enters it with its attribution and the thread
goes on; the first of its page and core has a recoverable PAGE record. Behind entries of its thread's for its page it enters too. With no room in
the log the thread is parked, with no record, and a store that is not admitted parks on PAGE with its record (R232). -/
def Sys2Proof.Claims.UnmappedStoresAreLogged : Prop :=
  ∀ (s b u v : State) (c : Cohort) (x : Mem) (l : Lane) (va unit : Nat),
    LaneActs (releases x.order) s b u c x l (widthBytes x.width) .write (.st x) va → c.irr = true →
    let e := u.memEff c l va (u.srcBytes c l.tid x.d x.width) .store x
    let is (w : State) : Prop := exec (.st x) s = .next (finished b w c (.st x) x.pred x.stall)
    (u.logsPage l.tid va = false → u.reach c l.pos va .write = (.page (some unit), v) →
      (e.logs = true → v.logRoom c.core ≠ 0 → ∃ t, is t ∧ t.eng.sideLog = v.eng.sideLog ++ [⟨c.core, e, some unit, false⟩] ∧ t.mem = v.mem ∧
        t.threads = v.threads ∧ t.cohorts = v.cohorts ∧
        ((∀ f ∈ v.eng.sideLog, f.core = c.core → f.eff.ctx = e.ctx → f.eff.va / 2 ^ 16 ≠ va / 2 ^ 16) → (v.threads.find l.tid).isSome = true →
          ∃ r, Turn.hw (.faultRecordWrite r) ∈ t.agenda ∧ r.cause = .page ∧ r.recov = true ∧ r.sideLog = true ∧ r.addr = va)) ∧
      (e.logs = true → v.logRoom c.core = 0 → is (v.park c l .room (va / 2 ^ 16) none)) ∧
      (e.logs = false → is (v.parkPage c l va (some unit)))) ∧
    (u.logsPage l.tid va = true → u.logRoom c.core ≠ 0 → ∃ t f, is t ∧ t.eng.sideLog = u.eng.sideLog ++ [f] ∧ f.core = c.core ∧ f.eff = e ∧
      t.mem = u.mem ∧ t.threads = u.threads)

/-- R103, R104, R106: in a revocable trace a store, or an atomic without a destination, whose page is reached and allows it is buffered with where it
was translated to; one that meets a page that is not mapped is buffered for the side log if R233 admits it and else parks its thread; a lane with its
budget used up raises BUDGET. No byte of memory changes. -/
def Sys2Proof.Claims.RevocableStoresAreBuffered : Prop :=
  ∀ (s b u v : State) (c : Cohort) (x : Mem) (l : Lane) (va n : Nat) (i : Instr) (bs : List Byte) (kind : EffKind),
    (i = .st x ∧ n = widthBytes x.width ∧ bs = u.srcBytes c l.tid x.d x.width ∧ kind = .store) ∨
      (∃ op cls, i = .atom x op cls ∧ x.d = 0 ∧ x.use ≠ .spec ∧ n = atomSize x cls ∧
        let e := atomOperand x cls (natOf (u.srcBytes c l.tid x.e x.width)); bs = e.1 ∧ kind = .atom op e.2) →
    LaneActs false s b u c x l n .write i va → c.irr = false →
    let e := u.memEff c l va bs kind x
    let is (w : State) : Prop := exec i s = .next (finished b w c i x.pred x.stall)
    let buffers (key : Nat) (mark : Mark) : Prop := is (v.modLane c.id l.tid fun k => { k with buf := k.buf ++ [.mem e key mark] })
    (l.buf.length < c.budget →
      (∀ key pte unit, u.reach c l.pos va .write = (.go key pte unit, v) → buffers key .clean) ∧
      (∀ unit, u.reach c l.pos va .write = (.page unit, v) →
        (e.logs = true → buffers 0 .sideLog) ∧ (e.logs = false → is (v.parkPage c l va unit)))) ∧
    (c.budget ≤ l.buf.length → is (u.raiseIn c [l] .budget c.offset fun _ => 0))

/-- R237, R246, R276: a store that its home begins performs its bytes on its own die, where they are seen at its address from now on; no other byte
of any die changes but the version counter of a watched page, and no register does. A unit that translations derive from, and a page of kind
3, are written at device scope and are not spoken of here; a releasing one of a wide scope is performed at device scope, so that every die sees its
bytes. -/
def Sys2Proof.Claims.StoreReachesItsHome : Prop :=
  ∀ (s : State) (id τ : Nat) (r : Remote) (e : MemEff), s.coh.remote.find id = some r → r.eff = some e → r.due = some τ → τ ≤ s.clock →
    e.kind = .store → e.use ≠ .spec → e.thread ≠ 0 → r.gone = false → r.size = e.bytes.length →
    s.stalled r.thread r.pa r.size = false → s.behind id r = false → s.remoteKey r.pa = false → r.pa / 2 ^ 16 ∉ s.pkg.retireList →
    (s.mergeCheck r.pa r.size).1 = none → s.coh.halves = [] →
    let die := dieOf ((agentCore r.agent).getD 0)
    let counter := s.counterOf r.pa
    let t := State.other (.arrive id) s
    (e.deviceWide = false → s.atHome r.pa = false → s.translators (s.unitsOf r.pa r.size) = [] →
      (∀ w ∈ s.coh.dieWrites, w.die = die ∧ (r.watch = true → ∀ k ∈ sectorsOf w.pa w.bytes.length, k ∉ s.unitsOf counter 4)) →
      (∀ d a, ¬(r.watch = true ∧ counter ≤ a ∧ a < counter + 4) → t.viewByte d a =
        if d = die ∧ r.pa ≤ a ∧ a < r.pa + r.size then e.bytes.getD (a - r.pa) 0 else s.viewByte d a) ∧
      RegsKept s t ∧ Turn.hw (.wrall die (sectorOf r.pa)) ∈ t.agenda) ∧
    (e.deviceWide = true → Quiet s → Sound s → Landed s t counter r.pa e.bytes r.watch ∧ t.coh.dieWrites = [] ∧ RegsKept s t)

/-- R103, R104, R106, R229, R232 to R237, R246, R259, R276: stores on their way, at their homes, buffered, and at pages that are not mapped. -/
def Obligations.StoresWriteMemory : Prop :=
  StoreHeadsForItsHome ∧ StoreReachesItsHome ∧ UnmappedStoresAreLogged ∧ RevocableStoresAreBuffered

/-- R237, R260, R264: outside a revocable trace an atomic with a destination returns the old value and leaves the operation's result at its home;
ATOMCAS stores its new value where the old one equals its compare value, and nothing where it does not. A watched page counts what is stored. The
pairs of .BF16X2 are not spoken of here. -/
def Sys2Proof.Claims.AtomicInstructionsUpdateMemory : Prop :=
  ∀ (s b u v : State) (c : Cohort) (x : Mem) (l : Lane) (va key unit : Nat) (pte : Dword),
    c.irr = true → x.use ≠ .spec → Quiet s → pte[10] = false ∨ Sound s →
    let does (i : Instr) (n : Nat) (stores : Bool) (new : List Byte) : Prop := LaneActs (releases x.order) s b u c x l n .both i va →
      u.reach c l.pos va .both = (.go key pte unit, v) → v.remoteKey key = false → i.regsOk = true → (v.readHome key n).poisonedIn key n = none →
      ∃ t, exec i s = .next t ∧ Loaded s t l.tid x.d (if n = 8 then .b64 else .b32) (s.mem.readBytes key n) ∧
        Landed s t (s.counterOf key) key new (stores && pte[10]) ∧ t.coh.dieWrites = []
    (∀ op cls, x.d ≠ 0 → (Instr.atom x op cls).wf = true → cls ≠ 3 ∨ x.width = .u16 →
      let n := atomSize x cls
      let e := atomOperand x cls (natOf (s.srcBytes c l.tid x.e x.width))
      does (.atom x op cls) n true (bytesOf n (atomOp op e.2.toNat n (natOf (s.mem.readBytes key n)) (natOf e.1)))) ∧
    ((Instr.atomcas x).wf = true →
      let n := widthBytes x.width
      let same : Bool := s.mem.readBytes key n = s.srcBytes c l.tid x.e x.width
      does (.atomcas x) n same (if same then s.srcBytes c l.tid (x.e + BitVec.ofNat 8 x.width.regs) x.width else s.mem.readBytes key n))

/-- R237, R260, R263: outside a revocable trace an atomic without a destination leaves its result at its home and changes no register; one of use .QNT
enters its core's quantum buffer, with no byte changed yet. The pairs of .BF16X2 are not spoken of here. -/
def Sys2Proof.Claims.AtomicsWithoutResult : Prop :=
  ∀ (s b u v w : State) (c : Cohort) (x : Mem) (l : Lane) (va key unit : Nat) (pte : Dword) (op : AtomOp) (cls : BitVec 2),
    c.irr = true → x.d = 0 → x.use ≠ .spec → Quiet s → pte[10] = false ∨ Sound s → (Instr.atom x op cls).wf = true → cls ≠ 3 ∨ x.width = .u16 →
    let n := atomSize x cls
    let e := atomOperand x cls (natOf (s.srcBytes c l.tid x.e x.width))
    (begun s).atomBehind c x n l = false → LaneActs (releases x.order) s b u c x l n .write (.atom x op cls) va → u.logsPage l.tid va = false →
    u.reach c l.pos va .write = (.go key pte unit, v) → v.remoteKey key = false → v.mergeCheck key n = (none, w) → w.poisonedIn key n = none →
    ∃ t, exec (.atom x op cls) s = .next t ∧ t.vreg = s.vreg ∧ t.preg = s.preg ∧ t.kreg = s.kreg ∧ t.coh.dieWrites = [] ∧
      (x.use ≠ .qnt → t.eng.quantum = [] ∧
        Landed s t (s.counterOf key) key (bytesOf n (atomOp op e.2.toNat n (natOf (s.mem.readBytes key n)) (natOf e.1))) pte[10]) ∧
      (x.use = .qnt → t.mem = s.mem ∧ t.eng.quantum = [⟨c.core, u.memEff c l va e.1 (.atom op e.2) x, key, pte[10]⟩])

/-- R261: outside a revocable trace a .BF16X2 atomic of the device is two atomics of a half each: the instruction performs one of them, which of the two
is a free value (log 52), and the other is due in a turn of its own; with a destination the register has the old value of the one that is performed,
and the cohort waits for the other. -/
def Sys2Proof.Claims.PairsPerformOneHalf : Prop :=
  ∀ (s b u v : State) (c : Cohort) (x : Mem) (l : Lane) (va key unit : Nat) (pte : Dword) (op : AtomOp), c.irr = true →
    x.use ≠ .spec → x.use ≠ .qnt → Quiet s → Sound s → (Instr.atom x op 3).wf = true → x.width ≠ .u16 →
    let acc : Acc := if x.d = 0 then .write else .both
    (x.d = 0 → (begun s).atomBehind c x 4 l = false ∧ u.logsPage l.tid va = false) →
    LaneActs (releases x.order) s b u c x l 4 acc (.atom x op 3) va → u.reach c l.pos va acc = (.go key pte unit, v) → v.remoteKey key = false →
    (Instr.atom x op 3).regsOk = true → v.undecided key 4 = false → key / 2 ^ 16 ∉ v.pkg.retireList →
    (pte[10] = true → s.counterOf key + 4 ≤ key ∨ key + 4 ≤ s.counterOf key) →
    ∃ t y h, exec (.atom x op 3) s = .next t ∧ y < 2 ∧ t.coh.halves = [h] ∧ h.pa = key + 2 * (1 - y) ∧ h.thread = l.tid ∧ Turn.half ∈ t.agenda ∧
      (let e := natOf (s.srcBytes c l.tid x.e x.width)
       Landed s t (s.counterOf key) (key + 2 * y) (bytesOf 2 (halfAdd (s.mem.readNat (key + 2 * y) 2) (bits e (16 * y) 16))) pte[10] ∧
       h.val = bits e (16 * (1 - y)) 16) ∧
      (x.d = 0 → h.ret = none ∧ t.vreg = s.vreg) ∧
      (x.d ≠ 0 → ∃ id k, h.ret = some (id, x.d.toNat) ∧ t.cohorts.find c.id = some k ∧ id ∈ k.waits ∧
        bits (t.getV l.tid x.d.toNat).toNat (16 * y) 16 = s.mem.readNat (key + 2 * y) 2)

/-- R261: the half that is due is performed once nothing at its home holds it back; its old value comes beside the other's, and the cohort that waited
goes on. -/
def Sys2Proof.Claims.OtherHalfFollows : Prop :=
  ∀ (s : State) (h : Half), s.coh.halves = [h] → s.coh.dieWrites = [] → s.eng.quantum = [] → Sound s → h.pa % 2 = 0 →
    h.pa / 2 ^ 16 ∉ s.pkg.retireList → s.stalled h.thread h.pa 2 = false →
    let t := State.other .half s
    t.coh.halves = [] ∧ t.coh.dieWrites = [] ∧ Landed s t 0 h.pa (bytesOf 2 (halfAdd (s.mem.readNat h.pa 2) h.val)) false ∧
    (h.ret = none → t.vreg = s.vreg) ∧
    ∀ id d, h.ret = some (id, d) →
      (let y := h.pa / 2 % 2
       bits (t.getV h.thread d).toNat (16 * y) 16 = s.mem.readNat h.pa 2 ∧
       bits (t.getV h.thread d).toNat (16 * (1 - y)) 16 = bits (s.getV h.thread d).toNat (16 * (1 - y)) 16) ∧
      ∀ n k, t.cohorts.find n = some k → id ∉ k.waits

/-- R105, R120: a speculative atomic of a revocable trace returns the value behind its lane's own effects, reserves its word once, and buffers the update
that makes of it; it stores nothing. -/
def Sys2Proof.Claims.SpeculativeAtomicsReserve : Prop :=
  ∀ (s b u v : State) (c : Cohort) (x : Mem) (l : Lane) (va key unit : Nat) (pte : Dword), c.irr = false → x.use = .spec → Quiet s →
    c.laneOf l.tid = some l → l.buf.length < c.budget →
    let does (i : Instr) (n : Nat) (new : List Byte → List Byte) (stores : List Byte → Bool) : Prop := LaneActs false s b u c x l n .both i va →
      u.reach c l.pos va .both = (.go key pte unit, v) → v.remoteKey key = false → i.regsOk = true → (v.readHome key n).poisonedIn key n = none →
      let old := (List.range n).map fun j => fwdByte (fun a => s.mem.read (key + a - va)) l.buf.reverse (va + j)
      ∃ t k e, exec i s = .next t ∧ Loaded s t l.tid x.d (if n = 8 then .b64 else .b32) old ∧ t.mem = s.mem ∧ Quiet t ∧
        t.laneNow c.id l.tid = some k ∧ k.buf = l.buf ++ [.mem e key .clean] ∧ e.va = va ∧ e.bytes = (if stores old then new old else old) ∧
        e.kind = (if stores old then .store else .nothing) ∧
        k.resv = (if ∃ r ∈ l.resv, r.pa = key ∧ r.size = n then l.resv else l.resv ++ [⟨key, n, false⟩])
    (∀ op cls, (Instr.atom x op cls).wf = true →
      let n := atomSize x cls
      let e := atomOperand x cls (natOf (s.srcBytes c l.tid x.e x.width))
      does (.atom x op cls) n (fun old => bytesOf n (atomOp op e.2.toNat n (natOf old) (natOf e.1))) fun _ => true) ∧
    ((Instr.atomcas x).wf = true →
      does (.atomcas x) (widthBytes x.width) (fun _ => s.srcBytes c l.tid (x.e + BitVec.ofNat 8 x.width.regs) x.width)
        fun old => old = s.srcBytes c l.tid x.e x.width)

/-- R261: the integer operations on n bytes: ADD wraps, MIN and MAX compare as the class says, AND, OR and XOR act bit by bit, EXCH takes the
operand. -/
def Sys2Proof.Claims.AtomicOperations : Prop :=
  ∀ (n old e : Nat) (cls : BitVec 2), old < 2 ^ (8 * n) → e < 2 ^ (8 * n) → n = 4 ∨ n = 8 → cls = 0 ∨ cls = 1 →
    let value (v : Nat) : Int := if cls = 1 then (BitVec.ofNat (8 * n) v).toInt else v
    atomOp .add cls.toNat n old e = (old + e) % 2 ^ (8 * n) ∧
    (value e < value old → atomOp .min cls.toNat n old e = e) ∧ (value old ≤ value e → atomOp .min cls.toNat n old e = old) ∧
    (value old < value e → atomOp .max cls.toNat n old e = e) ∧ (value e ≤ value old → atomOp .max cls.toNat n old e = old) ∧
    atomOp .and cls.toNat n old e = old &&& e ∧ atomOp .or cls.toNat n old e = old ||| e ∧
    atomOp .xor cls.toNat n old e = old ^^^ e ∧ atomOp .exch cls.toNat n old e = e

/-- R105, R120, R237, R260, R261, R263, R264: the atomics. Which half of a pair comes first, and how a half waits, are the model's readings (log 52). -/
def Obligations.AtomicsUpdateMemory : Prop :=
  AtomicInstructionsUpdateMemory ∧ AtomicsWithoutResult ∧ PairsPerformOneHalf ∧ OtherHalfFollows ∧ SpeculativeAtomicsReserve ∧ AtomicOperations

/-- R266, R279: KLD reads once, at the lowest executing lane's address, and every executing lane receives the value, behind its own buffered effects, which
is the model's reading (log 21); FENCE flushes the core's quantum buffer, makes what its order and scope name device-performed, with its threads' own
writes at a wide scope (R230), and settles the cohort's crew registers, whose results it awaits. -/
def Sys2Proof.Claims.CrewLoadAndFenceComplete : Prop :=
  ∀ (s : State) (c : Cohort) (x : Mem), Issues s c →
    (∀ (u : State) (low : Lane) (rest : List Lane) (va key unit : Nat) (pte : Dword),
      let n := widthBytes x.width
      let b := flushed s c x n .read [low]
      s.execLanes c x.pred = low :: rest → b.execLanes c x.pred = low :: rest → Passes b c (.kld x) x.pred →
      ((low :: rest).map (·.tid)).Nodup → b.laneWaitsAt (icAgent c.core) c x n .read low = false →
      b.laneEA c x low = some va → (∀ l ∈ rest, b.ownUnderWay c va n l = false) →
      va % n = 0 → b.reach c low.pos va .read = (.go key pte unit, u) →
      (∀ i, i < n → u.remoteKey (key + i) = false) → (Instr.kld x).regsOk = true →
      let v := (u.flushNamed c.core key n).readHome key n
      (∀ l ∈ low :: rest, ∀ h ∈ v.coh.halves, h.thread ≠ l.tid) → v.poisonedIn key n = none →
      let w := v.grantIc c.core key n false
      ∃ t, exec (.kld x) s = .next t ∧ (∀ l ∈ low :: rest, LoadedIn t l.tid x.d x.width
        ((List.range n).map fun i =>
          fwdByte (fun a => w.seenByte (dieOf c.core) (key + a - va)) (if c.irr then [] else l.buf.reverse) (va + i))) ∧
        (Quiet s → (∀ i < n, w.seenByte (dieOf c.core) (key + i) = s.mem.read (key + i)) ∧ t.mem = s.mem)) ∧
    (let lanes := s.execLanes c x.pred
      let u := if lanes = [] then begun s else (begun s).flushQuantum c.core
      (lanes ≠ [] → (releases x.order = true → ∀ l ∈ lanes, u.releaseWaits l.tid = false) ∧ u.kUnwritten c = false ∧
        (wideScope x.scope = true → ∀ l ∈ lanes, (u.unanswered l.tid fun r => r.due.isSome) = false)) →
      Passes u c (.fence x) x.pred →
      let w := if wideScope x.scope then u.flushDies fun d => lanes.any (·.tid == d.thread) else u
      exec (.fence x) s = .next (finished u (if u.execLanes c x.pred = [] then w
        else (w.orderFlush c.core x.order x.scope).settleK c.crew (some c)) c (.fence x) x.pred x.stall))

/-- R258: a group of a splitting load becomes a cohort of its own, with the next identity and what its lanes wait for, where the port has a
context free; the lanes left stay. -/
def Sys2Proof.Claims.SplitGroupLeaves : Prop :=
  ∀ (s : State) (c : Cohort) (lanes : List Nat), s.cohorts.find c.id = some c → c.id < s.nextId →
    (s.cohorts.vals.filter fun k => k.core == c.core && k.port == c.port).length < 16 →
    let part := c.lanes.filter fun l => lanes.contains l.tid
    let rest := c.lanes.filter fun l => !lanes.contains l.tid
    part ≠ [] → rest ≠ [] →
    ∃ t k r, exec (.ldSplitGroup c.id lanes) s = .next t ∧ t.nextId = s.nextId + 1 ∧ t.cohorts.find s.nextId = some k ∧
      k.lanes = part ∧ k.pc = c.pc ∧ k.nextIssue = c.nextIssue ∧ t.cohorts.find c.id = some r ∧ r.lanes = rest ∧ r.pc = c.pc ∧
      t.mem = s.mem ∧ t.vreg = s.vreg ∧ t.preg = s.preg ∧ t.kreg = s.kreg ∧ CrewsKept s t

/-- R258, R266, R279: KLD, FENCE and LD_SPLIT_GROUP. That a release flushes its die's writes at once is the model's choice (log 16), that a lane of KLD
sees its own buffered stores the model's reading (log 21). -/
def Obligations.CrewLoadsFencesAndSplits : Prop :=
  CrewLoadAndFenceComplete ∧ SplitGroupLeaves


/-! ## The scratchpad -/

/-- R174 to R192: LDS, STS, ATOMS, RENEW, ARM and SPAGE handle their executing lanes in ascending lane position; a releasing one of an
irrevocable trace, and an LDS.SC of either class, finds nothing of its threads under way and takes effect in order (R105, R270, R277). -/
def Obligations.ScratchpadInstructionsComplete : Prop :=
  ∀ (s : State) (c : Cohort) (x : Mem), Issues s c →
    let lanes := s.execLanes c x.pred
    let acts (i : Instr) (f : State → Lane → State) : Prop :=
      let rel : Prop := (c.irr = true ∨ i = .lds x) ∧ releases x.order = true ∧ lanes ≠ []
      let u := if rel then (begun s).flushQuantum c.core else begun s
      (rel → u.orderWaits c x.order lanes = false) → Passes u c i x.pred →
      exec i s = .next (finished u ((u.execLanes c x.pred).foldl f (if rel then u.fenceFirst c x.order .crew else u)) c i x.pred x.stall)
    acts (.lds x) (fun u l => u.ldsLane c x l) ∧ acts (.sts x) (fun u l => u.stsLane c x l) ∧ acts (.atoms x) (fun u l => u.atomsLane c x l) ∧
      acts (.renew x) (fun u l => u.renewLane c x l) ∧ acts (.arm x) (fun u l => u.armLane c x l) ∧
      acts (.spage x) (fun u l => u.spageLane c x l)

/-- R191: AWAIT leaves each executing lane waiting on its word's generation, and tests the conditions at once; without an executing lane the
cohort goes on. -/
def Sys2Proof.Claims.AwaitWaits : Prop :=
  ∀ (s : State) (c : Cohort) (x : Mem), Issues s c → s.stallShort c (.await x) = false →
    let lanes := s.execLanes c x.pred
    (lanes = [] → exec (.await x) s = .next ((begun s).advance c.id x.stall)) ∧
    (lanes ≠ [] → exec (.await x) s = .next
      (((lanes.foldl (fun u l => u.awaitLane c x l) (begun s)).modCohort c.id fun k => { k with st := .await x.d.toNat x.stall }).awaitSettle
        c.id))

/-- R177, R191: AWAIT_STALE tests a cohort at AWAIT: where every waiting lane of a cohort at AWAIT finds its word's generation different from the one it
named, and no segment is stale, each receives its word's generation and the cohort goes on; while a lane does not, the cohort stays. -/
def Sys2Proof.Claims.AwaitIsReleased : Prop :=
  ∀ (s : State) (c : Cohort) (d : Nat) (stall : BitVec 4) (gen : Lane → Word), s.cohorts.find c.id = some c → c.st = .await d stall → d < 256 →
    (∀ l ∈ c.lanes, ∀ w, l.await = some w → s.generation c.crew w.addr = some (gen l)) →
    (c.lanes.map (·.tid)).Nodup →
    let t := s.awaitSettle c.id
    exec (.awaitStale c.id) s = .next t ∧
    ((∀ l ∈ c.lanes, ∀ w, l.await = some w → gen l ≠ w.gen) →
      (∀ l ∈ c.lanes, l.await ≠ none → t.getV l.tid d = gen l) ∧
      ∃ k, t.cohorts.find c.id = some k ∧ k.pc = c.pc + 1 ∧ k.st = .ready ∧ ∀ l ∈ k.lanes, l.await = none) ∧
    ((∃ l ∈ c.lanes, ∃ w, l.await = some w ∧ w.ok = false ∧ gen l = w.gen) →
      ∃ k, t.cohorts.find c.id = some k ∧ k.pc = c.pc ∧ k.st = .await d stall ∧ t.vreg = s.vreg)

/-- R180, R191: AWAIT_STALE where words have gone stale and no lane's condition holds: each lane that waits on one raises STALE, the others wait
on; where every lane does, the cohort is gone. -/
def Sys2Proof.Claims.StaleWaitsRaiseStale : Prop :=
  ∀ (s : State) (c : Cohort) (d : Nat) (stall : BitVec 4), s.cohorts.find c.id = some c → s.setCohort c = s → c.st = .await d stall →
    (c.lanes.map (·.tid)).Nodup →
    (∀ l ∈ c.lanes, ∀ w, l.await = some w → w.ok = false ∧ ∀ g, s.generation c.crew w.addr = some g → g = w.gen) →
    let stale (l : Lane) : Prop := ∃ w, l.await = some w ∧ s.generation c.crew w.addr = none
    ((∀ l ∈ c.lanes, stale l) → c.lanes ≠ [] → exec (.awaitStale c.id) s = .next
      (c.lanes.foldl (fun u l => u.raiseStale c l ((l.await.map (·.addr)).getD 0)) s)) ∧
    ((∃ l ∈ c.lanes, l.await ≠ none ∧ ¬stale l) → ∃ t k, exec (.awaitStale c.id) s = .next t ∧ t.cohorts.find c.id = some k ∧
      k.st = .await d stall ∧ k.pc = c.pc ∧ ∀ l, l ∈ k.lanes ↔ l ∈ c.lanes ∧ ¬stale l)

/-- R177, R180, R191: AWAIT, its release, and its STALE. -/
def Obligations.AwaitWaitsUntilReleased : Prop :=
  AwaitWaits ∧ AwaitIsReleased ∧ StaleWaitsRaiseStale

/-- R176, R177, R178: what a write puts in a window is read back from it, its segment being live and stamped with the core's tick; reads
of other segments find what they found. -/
def Obligations.ScratchpadReadsWhatWasWritten : Prop :=
  ∀ (s : State) (crew o : Nat) (bs : List Byte), 0 < bs.length → o % 256 + bs.length ≤ 256 → o + bs.length ≤ 2 ^ 20 → s.coh.poison = [] → s.coh.harm = [] →
    let t := s.spadWriteFrom crew bs.length o bs
    t.spadRead crew o bs.length = some bs ∧ t.segs.find (segKey crew (o / 256)) = some ⟨s.tickOf crew, false⟩ ∧
    ∀ p n, p / 256 ≠ o / 256 → 0 < n → p % 256 + n ≤ 256 → p < 2 ^ 20 → t.spadRead crew p n = s.spadRead crew p n

/-- R177, R180: a read of a segment that has expired or never been written raises STALE in its lane: with ctx.staletrap the handler is
entered, and otherwise a terminating record is delivered. -/
def Obligations.StaleReadsRaiseStale : Prop :=
  ∀ (s : State) (c : Cohort) (x : Mem) (l : Lane), Issues s c → Passes s c (.lds x) x.pred → s.execLanes c x.pred = [l] → c.irr = true →
    releases x.order = false →
    let n := widthBytes x.width
    let a := s.spadAddr c x l
    a % n = 0 → 0 ≤ a → a + n ≤ s.window c.crew → s.liveSeg c.crew (a.toNat / 256) = false →
    exec (.lds x) s = .next (finished s ((begun s).raiseStale c l a.toNat) c (.lds x) x.pred x.stall)


/-! ## The matrix unit -/

/-- R203, R208, R211 to R215: MMA, MMASP, MZERO, MLD and MST enter the matrix queue when it has room, their entries are ready and the capture of
them finds nothing wrong, attributed to the lowest lane present; MMA and MMASP only in a cohort drawn full. -/
def Sys2Proof.Claims.TileInstructionsEnterTheQueue : Prop :=
  ∀ (s u v : State) (c : Cohort) (x : Mat) (l : Lane) (rest : List Lane) (es : List (Nat × Nat)), Issues s c → (s.opsOf c.core).length < 32 →
    u.execLanes c x.pred = l :: rest →
    let queues (i : Instr) (hs : List (BitVec 12)) (spec : TileSpec × State) : Prop :=
      Passes u c i x.pred → (begun s).entriesReady c hs = (true, u) → u.captures c (l :: rest) hs = (some es, v) →
      exec i s = .next (finished u ((spec.2.enqueueTile c (c.lanes.headD l) spec.1 es).dropFetched c.id) c i x.pred x.stall)
    (c.drawnFull = true → queues (.mma x) [x.hA, x.hB] (v.mmaSpec c x false)) ∧
    (c.drawnFull = true → queues (.mmasp x) [x.hA, x.hB] (v.mmaSpec c x true)) ∧
    queues (.mzero x) [] (⟨.zero, x.tile.toNat, false, 0, 0, 0, 0⟩, v) ∧
    queues (.mld x) [x.hA] (v.moveSpec c x (.load x.ta)) ∧ queues (.mst x) [x.hA] (v.moveSpec c x (.store x.ta x.sat))

/-- R49, R211: MMA and MMASP in a cohort not drawn full raise FULLCOHORT in every lane of the cohort. -/
def Sys2Proof.Claims.MatrixProductsNeedFullCohorts : Prop :=
  ∀ (s : State) (c : Cohort) (x : Mat) (i : Instr), i = .mma x ∨ i = .mmasp x → Issues s c → c.drawnFull = false →
    exec i s = .next ((begun s).raiseIn c c.lanes .fullcohort c.offset fun _ => 0)

/-- R203: an entry of the queue holds the operation's tile, origins and lengths and the entries captured for it, not started, after the
operations already there. -/
def Sys2Proof.Claims.QueueEntryHoldsTheOperation : Prop :=
  ∀ (s : State) (c : Cohort) (l : Lane) (t : TileSpec) (es : List (Nat × Nat)),
    let u := s.enqueueTile c l t es
    ∃ o : TileOp, u.eng.tileOps = s.eng.tileOps ++ [o] ∧ o.id = s.nextId ∧ u.nextId = s.nextId + 1 ∧ o.crew = c.crew ∧ o.kind = t.kind ∧
      o.tile = t.tile ∧ o.pair = t.pair ∧ o.io = t.io ∧ o.jo = t.jo ∧ o.ko = t.ko ∧ o.kl = t.kl ∧ o.started = false ∧ o.prog = 0 ∧
      u.tiles = s.tiles ∧ u.mem = s.mem

/-- R203, R211 to R215: the tile instructions enter the queue. -/
def Obligations.TileInstructionsQueue : Prop :=
  TileInstructionsEnterTheQueue ∧ MatrixProductsNeedFullCohorts ∧ QueueEntryHoldsTheOperation

/-- R204, R214, R216: with no operation of the crew pending on their tiles MWAIT goes on, MRD reads the element that each lane's coordinate
names into its register or pair, and MWR writes it. -/
def Sys2Proof.Claims.TileAccessInstructionsComplete : Prop :=
  ∀ (s : State) (c : Cohort) (x : Mat), Issues s c →
    s.tileBusy c.crew (if x.pair then [x.tile.toNat, x.tile.toNat + 1] else [x.tile.toNat]) = false →
    let row (u : State) (l : Lane) : Nat := (u.seenV c l.tid x.vc.toNat).toNat / 64 % 64
    let col (u : State) (l : Lane) : Nat := (u.seenV c l.tid x.vc.toNat).toNat % 64
    (Passes s c (.mwait x) x.pred → exec (.mwait x) s = .next (finished s (begun s) c (.mwait x) x.pred x.stall)) ∧
    (Passes s c (.mrd x) x.pred → exec (.mrd x) s = .next (finished s ((s.execLanes c x.pred).foldl (fun u l =>
      u.putLane c.id l.tid x.vd.toNat x.pair ((u.getTile c.crew x.tile.toNat (row u l) (col u l)).toNat +
        2 ^ 32 * (if x.pair then (u.getTile c.crew (x.tile.toNat + 1) (row u l) (col u l)).toNat else 0)) 0) (begun s))
      c (.mrd x) x.pred x.stall)) ∧
    (Passes s c (.mwr x) x.pred → exec (.mwr x) s = .next (finished s ((s.execLanes c x.pred).foldl (fun u l =>
      let w := u.setTile c.crew x.tile.toNat (row u l) (col u l) (u.seenV c l.tid x.vd.toNat)
      if x.pair then w.setTile c.crew (x.tile.toNat + 1) (row u l) (col u l) (u.seenV c l.tid (x.vd.toNat + 1)) else w) (begun s))
      c (.mwr x) x.pred x.stall))

/-- R217: TDESC stores the 64 bytes of its 16 crew registers at its entry, once for the cohort. -/
def Sys2Proof.Claims.DescriptorStoreCompletes : Prop :=
  ∀ (s u v w y : State) (c : Cohort) (x : Mat) (low : Lane) (rest : List Lane) (va key unit : Nat) (pte : Dword) (bs : List Byte),
    Issues s c → (begun s).tdescReady c x.hA = (true, u) → Passes u c (.tdesc x) x.pred → u.execLanes c x.pred = low :: rest →
    entryVa c.snap x.hA.toNat = some va → u.descBytes c x.kp.toNat 16 = (bs, v) → v.reach c low.pos va .write = (.go key pte unit, w) →
    w.remoteKey key = false → w.mergeCheck key 64 = (none, y) →
    exec (.tdesc x) s = .next (finished u (y.doEff c.core
      ⟨v.ctxOf c.crew, c.crew, low.tid, c.traceId, c.offset, va, bs, .store, .rlx, .dev, .sync⟩ key pte[10]) c (.tdesc x) x.pred x.stall)

/-- R204, R214, R216, R217: MWAIT, MRD, MWR and TDESC. -/
def Obligations.TileAccessesComplete : Prop :=
  TileAccessInstructionsComplete ∧ DescriptorStoreCompletes

/-- R202, R203, R208: MATRIX_OP_START starts the oldest operation of a core with no older one pending on its tiles, or drops it with the fault
that its entries show. -/
def Sys2Proof.Claims.TileOperationStarts : Prop :=
  ∀ (s : State) (core : Nat) (o : TileOp), s.nextTile core = some o → s.tileOp o.id = some o →
    (o.check = none → ∃ t p, exec (.matrixOpStart core) s = .next t ∧ t.tileOp o.id = some p ∧
      p = { o with started := true, turn := s.nextId } ∧ ∃ l, t = { s with nextId := s.nextId + 1, eng := { s.eng with tileOps := l } }) ∧
    (∀ cause va, o.check = some (cause, va) →
      exec (.matrixOpStart core) s = .next ((s.dropTileOp o.id).faultOp o.at' cause va))

/-- R205, R206, R215: TILE_FETCH brings and pins the next line that the oldest group needs, however many are pinned, with what the operation still needs
of its sectors, or, for MLD, converts the row whose bytes are there. That lines come in the order of their groups is the model's reading (log 54). -/
def Sys2Proof.Claims.TileFetchAdvances : Prop :=
  ∀ (s : State) (o : TileOp), s.tileOp o.id = some o → o.started = true → s.tileRuns o = true → o.prog < o.groups → s.opAsked o.id = false →
    (∀ ta, o.kind = .load ta → s.missing o = [] → (o.tile < 15 ∨ (o.tile = 15 ∧ o.pair = false)) →
      ∃ t, exec (.tileFetch o.id) s = .next t ∧ (∃ p, t.tileOp o.id = some p ∧ p = { o with prog := o.prog + 1 }) ∧
        (∀ j, j < 64 → t.getTile o.crew o.tile o.prog j =
          BitVec.ofNat 32 (loadElem (TEntry.of o.ea) (s.fetchedOf o.id) (o.posT ta o.prog j).1 (o.posT ta o.prog j).2)) ∧
        t.mem = s.mem) ∧
    (∀ k ks u, s.missing o = some k :: ks → s.oldestGroup o = true →
      s.fetchLine false (tcAgent o.at'.core) o.at' o.id (s.nextKeys o k ks) (o.metadata o.prog).contains = (.ok, u) →
      ∃ t, exec (.tileFetch o.id) s = .next t ∧ k / 512 ∈ (t.eng.opData.get OpData.none o.id).lines ∧
        t.fetchedOf o.id = u.fetchedOf o.id ∧ t.mem = u.mem)

/-- R203, R212, R214: TILE_OP_COMPLETE takes an operation whose groups are done out of the queue; MZERO, and an overwriting product of length
0, leave every word of their tiles 0; MST stores its elements. -/
def Sys2Proof.Claims.TileOperationCompletes : Prop :=
  ∀ (s : State) (o : TileOp), s.tileOp o.id = some o → o.started = true → s.tileRuns o = true → o.groups ≤ o.prog → s.opWriting o.id = false →
    let gone (t : State) : Prop := exec (.tileOpComplete o.id) s = .next t ∧ t.tileOp o.id = none
    ((o.kind = .zero ∨ ∃ k sp ta tb sat, o.kind = .mma k sp ta tb true sat ∧ o.kl = 0) →
      ∃ t, gone t ∧ (∀ n ∈ o.tiles, ∀ i j, i < 64 → j < 64 → n < 16 → t.getTile o.crew n i j = 0) ∧ t.mem = s.mem) ∧
    ((∃ ta, o.kind = .load ta) ∨ (∃ k sp ta tb ovw sat, o.kind = .mma k sp ta tb ovw sat ∧ (ovw = false ∨ o.kl ≠ 0)) →
      ∃ t, gone t ∧ t.tiles = s.tiles ∧ t.mem = s.mem) ∧
    (∀ ta sat u n, o.kind = .store ta sat → o.prog < 4096 →
      s.storeElems o (s.storeRuns o ta sat ((List.range 4096).drop o.prog)) = (.ok, n, u) → u.opWriting o.id = false →
      exec (.tileOpComplete o.id) s = .next (u.finishTile o))

/-- R202 to R208, R212 to R215: the steps of a tile operation. -/
def Obligations.TileStepsComplete : Prop :=
  TileOperationStarts ∧ TileFetchAdvances ∧ TileOperationCompletes

/-- R209, R212, R213: MMA_GROUP, its bytes fetched and its check passed, gives every element of the tile the accumulator with the group's
products, and counts the group; no other tile changes. -/
def Sys2Proof.Claims.MatrixGroupAccumulates : Prop :=
  ∀ (s : State) (o : TileOp) (k : MmaKind) (sparse ta tb ovw sat : Bool), s.tileOp o.id = some o → o.kind = .mma k sparse ta tb ovw sat →
    o.started = true → s.tileRuns o = true → o.prog < o.groups → s.missing o = [] → s.pkg.disturb = [] → s.armedFp o.at'.core = [] →
    (o.tile < 15 ∨ (o.tile = 15 ∧ o.pair = false)) →
    ∃ t, exec (.mmaGroup o.id) s = .next t ∧
      (∀ i j, i < 64 → j < 64 → t.getTile o.crew o.tile i j = BitVec.ofNat 32 (s.groupElem o k sparse ta tb ovw sat i j) ∧
        (o.pair = true → t.getTile o.crew (o.tile + 1) i j = BitVec.ofNat 32 (s.groupElem o k sparse ta tb ovw sat i j / 2 ^ 32))) ∧
      (∀ crew n i j, n < 16 → i < 64 → j < 64 → ¬(crew = o.crew ∧ (n = o.tile ∨ (o.pair = true ∧ n = o.tile + 1))) →
        t.getTile crew n i j = s.getTile crew n i j) ∧
      (∃ p, t.tileOp o.id = some p ∧ p = { o with prog := o.prog + 1, retried := false }) ∧ t.mem = s.mem ∧ t.vreg = s.vreg

/-- R210: a group whose check fails is repeated once, and the second failure is JEWEL; kind 5 of err.inject makes one check fail, for every
context that has armed it on the core. -/
def Sys2Proof.Claims.MatrixGroupDivergenceRepeats : Prop :=
  ∀ (s : State) (o : TileOp) (y : Ctx) (ys : List Ctx) (k : MmaKind) (sparse ta tb ovw sat : Bool), s.tileOp o.id = some o →
    o.kind = .mma k sparse ta tb ovw sat → o.started = true → s.tileRuns o = true → o.prog < o.groups → s.missing o = [] →
    s.pkg.disturb = [] → s.armedFp o.at'.core = y :: ys →
    let u := ys.foldl (fun (u : State) (y : Ctx) => u.disarm y.num) (s.disarm y.num)
    (o.retried = false → exec (.mmaGroup o.id) s = .next (u.modTileOp o.id fun p => { p with retried := true })) ∧
    (o.retried = true → exec (.mmaGroup o.id) s = .next (u.faultTile o .jewel 0))

/-- R209, R210, R212, R213: a group of products. -/
def Obligations.MatrixGroupsAccumulate : Prop :=
  MatrixGroupAccumulates ∧ MatrixGroupDivergenceRepeats


/-! ## Engines -/

/-- R275, R290, R292, R293, R295, R299: XCOPY and XCOLL enter their queues with one operation a lane, when the queue has room for all and
their entries are captured, after the release of the lanes at device scope. -/
def Sys2Proof.Claims.EngineInstructionsQueue : Prop :=
  ∀ (s u v : State) (c : Cohort) (x : Xfer) (l : Lane) (rest : List Lane) (d e : Nat × Nat), Issues s c →
    let f := (begun s).flushQuantum c.core
    s.execLanes c x.pred = l :: rest → u.execLanes c x.pred = l :: rest → (∀ m ∈ l :: rest, f.releaseWaits m.tid = false) →
    f.entriesReady c [x.hD, x.hS] = (true, u) → u.captures c (l :: rest) [x.hD, x.hS] = (some [d, e], v) →
    let w := v.enginesRelease c.core (l :: rest)
    (Passes u c (.xcopy x) x.pred → (l :: rest).length ≤ s.copyRoom c.core →
      ∃ t ops, exec (.xcopy x) s = .next t ∧ t.eng.copyOps = w.eng.copyOps ++ ops ∧ ops.length = (l :: rest).length ∧
        ∀ o ∈ ops, o.die = dieOf c.core ∧ o.engine = none ∧ o.ed = d.1 ∧ o.dVa = d.2 ∧ o.es = e.1 ∧ o.sVa = e.2 ∧ o.tr = x.sub[0] ∧
          1 ≤ o.depth ∧ (x.sub[1] = false → o.depth = 1) ∧ (x.arr = false → o.arrival = none) ∧ (x.comp = false → o.comp = none) ∧
          o.prog = 0 ∧ o.word = o.comp.isSome ∧ o.at'.stream = none) ∧
    (Passes u c (.xcoll x) x.pred → (l :: rest).length ≤ s.collRoom →
      ∃ t ops, exec (.xcoll x) s = .next t ∧ t.eng.collOps = w.eng.collOps ++ ops ∧ ops.length = (l :: rest).length ∧
        ∀ o ∈ ops, o.comm < 64 ∧ o.op = x.sub ∧ o.ed = d.1 ∧ o.dVa = d.2 ∧ o.es = e.1 ∧ o.sVa = e.2 ∧ o.started = false ∧ o.got = [] ∧
          (x.comp = false → o.comp = none) ∧ o.at'.stream = none)

/-- R300, R311: XWAIT goes on once at most n of the crew's operations are not complete that were issued before it, which it notes as it
begins to wait, and waits till then; LAUNCH goes on once each executing lane has appended its
command, which a refused lane does not. -/
def Sys2Proof.Claims.EngineWaitAndLaunchComplete : Prop :=
  ∀ (s : State) (c : Cohort), Issues s c →
    (∀ x : XWaitF,
      let ops := (s.engineOps c.crew).filter fun i => c.xops.all fun l => l.contains i
      (x.n.toNat < ops.length → exec (.xwait x) s = .next (((begun s).modCohort c.id fun k => { k with xops := some ops }).hold c.id)) ∧
      (ops.length ≤ x.n.toNat → Passes s c (.xwait x) Pred.always → exec (.xwait x) s =
        .next (finished s ((begun s).modCohort c.id fun k => { k with xops := none }) c (.xwait x) Pred.always x.stall))) ∧
    (∀ (x : LaunchF) (u : State) (k : Cohort),
      let f := if (s.execLanes c x.pred).isEmpty then begun s else (begun s).flushQuantum c.core
      f.stallShort c (.launch x) = false → (∀ l ∈ s.execLanes c x.pred, f.releaseWaits l.tid = false) →
      let p := f.seenK64 c x.kp.toNat
      let n := p.2.seenK c x.ks.toNat
      (n.2.enginesRelease c.core (s.execLanes c x.pred)).launchLanes c n.1.toNat
        ((c.snap.win x.win).toNat % 65536 * 2 ^ 64 + p.1.toNat) (s.execLanes c x.pred) = (true, u) →
      let w := u.modCohort c.id fun k => { k with lanes := k.lanes.map fun l => { l with past := false } }
      w.cohorts.find c.id = some k → Passes w k (.launch x) x.pred →
      exec (.launch x) s = .next (finished w w k (.launch x) x.pred x.stall))

/-- R275, R290 to R300, R311: XCOPY, XCOLL, XWAIT and LAUNCH. -/
def Obligations.EngineInstructionsComplete : Prop :=
  EngineInstructionsQueue ∧ EngineWaitAndLaunchComplete

/-- R290, R202, R293: a copy engine with fewer than four copies takes the oldest waiting copy of the next core in turn that has one, and
checks its entries; where no core of its die has one, the oldest copy of a stream's command for its die. -/
def Sys2Proof.Claims.CopyEnginesTakeInTurn : Prop :=
  ∀ (s : State) (engine : Nat) (o : CopyOp), (s.eng.copyOps.filter fun p => p.engine == some engine).length < 4 → s.copyOp o.id = some o →
    let turn := s.eng.copyTurn.get 0 (engine / 8)
    let waits (i : Nat) (p : CopyOp) : Bool := p.engine.isNone && p.at'.stream.isNone && p.at'.core == 72 * (engine / 8) + (turn + i) % 72 &&
      s.attrRuns p.at'
    let taken : Prop := ∃ t, exec (.copyEngineTake engine) s = .next t ∧
      (o.check = none → t.copyOp o.id = some { o with engine := some engine }) ∧
      (∀ cause va, o.check = some (cause, va) → t.copyOp o.id = none ∧ ∃ r, Turn.hw (.faultRecordWrite r) ∈ t.agenda ∧ r.cause = cause)
    (∀ i < 72, (∀ j < i, s.eng.copyOps.find? (waits j) = none) → s.eng.copyOps.find? (waits i) = some o → taken) ∧
    ((∀ j < 72, s.eng.copyOps.find? (waits j) = none) →
      s.eng.copyOps.find? (fun p => p.engine.isNone && p.at'.stream.isSome && p.die == engine / 8) = some o → taken)

/-- R291, R293, R294: a chunk is copied, once the writes of the one before it have been answered: every source byte is read, then every destination
byte is written, then its bytes are reported to the arrival word; the last one ends a copy that has no completion word to write. -/
def Sys2Proof.Claims.CopyChunkCompletes : Prop :=
  ∀ (s u v w : State) (o : CopyOp) (e : Nat), s.copyOp o.id = some o → o.engine = some e → o.waiting = none → s.copyRuns o = true →
    s.opAsked o.id = false → 4096 * o.prog < o.total → (∀ b ∈ o.chunk, b.1.isSome ∧ b.2.isSome) →
    (s.opWriting o.id = true → exec (.copyChunk o.id) s = .next s) ∧
    (s.opWriting o.id = false →
    let agent := copyAgent (e / 8) (e % 8)
    let src := o.chunk.filterMap (·.1)
    let dst := o.chunk.filterMap (·.2)
    s.fetchAll true agent o.at' o.id src (fun r s => s.haltCopy o r) 8192 = (.ok, u) →
    let d := u.eng.opData.get OpData.none o.id
    let runs := runsOf (dst.zip (src.map fun k => Map.get d.fetched 0 k))
    u.tryWrites agent o.at' (runs.map (·.1)) = (none, v) →
    v.writeRuns agent o.at' o.id ((src.zip dst).filterMap fun p => (d.bad.find p.1).map (p.2, ·)) runs = (none, w) →
    let y := ((w.dropFetched o.id).modCopy o.id fun p => { p with prog := p.prog + 1 }).reportArrival o o.chunk.length
    (4096 * (o.prog + 1) < o.total ∨ o.comp ≠ none ∨ y.opWriting o.id = true → exec (.copyChunk o.id) s = .next y) ∧
    (∀ p, o.total ≤ 4096 * (o.prog + 1) → o.comp = none → y.opWriting o.id = false → y.copyOp o.id = some p →
      exec (.copyChunk o.id) s = .next (y.finishCopy p)))

/-- R293, R299: once every chunk is written the completion word is stored, and the operation is complete. -/
def Sys2Proof.Claims.CompletionWordCompletes : Prop :=
  (∀ (s u : State) (o : CopyOp) (w : Completion) (e : Nat), s.copyOp o.id = some o → o.comp = some w → o.engine = some e →
    o.total ≤ 4096 * o.prog → o.waiting = none → s.opWriting o.id = false → s.copyRuns o = true → o.word = true →
    s.storeWord (copyAgent (e / 8) (e % 8)) o.at' o.id w = (.ok, u) → u.opWriting o.id = false →
    exec (.completionWordWrite o.id) s = .next ((u.modCopy o.id fun p => { p with word := false }).finishCopy o)) ∧
  (∀ (s u : State) (o : CollOp) (w : Completion) (k : Comm), s.copyOp o.id = none → s.collOp o.id = some o → o.comp = some w →
    s.commOf o = some k → o.started = true → o.ready k = true → (o.bytes k).length ≤ 4096 * o.prog → o.waiting = none →
    s.opWriting o.id = false → o.word = true → s.storeWord (collAgent (o.comm % 4)) o.at' o.id w = (.ok, u) → u.opWriting o.id = false →
    exec (.completionWordWrite o.id) s = .next ((u.modColl o.id fun p => { p with word := false }).finishColl o))

/-- R290 to R294, R299: the steps of a copy. -/
def Obligations.CopiesComplete : Prop :=
  CopyEnginesTakeInTurn ∧ CopyChunkCompletes ∧ CompletionWordCompletes

/-- R202, R295 to R297, R354: a collective at the head of its engine is started when its checks find nothing, reads and contributes its own source,
and writes its destination 4096 bytes at a time once everything has come, where damage of its own source goes with the bytes. -/
def Sys2Proof.Claims.CollectiveStepsComplete : Prop :=
  ∀ (s : State) (o : CollOp) (k : Comm), s.collOp o.id = some o → s.collTurn o = true → o.waiting = none → s.opAsked o.id = false →
    s.commOf o = some k →
    (o.started = false → o.check (some k) = none → ∃ t, exec (.collectiveStep o.id) s = .next t ∧
      t.collOp o.id = some { o with started := true } ∧ t.mem = s.mem) ∧
    (∀ cause va, o.started = false → o.check (some k) = some (cause, va) →
      exec (.collectiveStep o.id) s = .next ((s.dropColl o.id).faultOp o.at' cause va)) ∧
    (o.started = true → k.lost = false → o.differs = false → (∀ e ∈ o.got, e.2.length ≤ o.expects k e.1) →
      (o.got.find k.rank = none → k.rank ∈ o.givers k → exec (.collectiveStep o.id) s = .next (s.collRead o k)) ∧
      (∀ v w, (o.got.find k.rank).isSome ∨ k.rank ∉ o.givers k → o.ready k = true → 4096 * o.prog < (o.bytes k).length →
        let part := ((o.bytes k).drop (4096 * o.prog)).take 4096
        let runs := runsOf (part.filterMap fun b => b.1.map (·, b.2))
        (∀ b ∈ part, b.1.isSome) → s.tryWrites (collAgent (o.comm % 4)) o.at' (runs.map (·.1)) = (none, v) →
        v.writeRuns (collAgent (o.comm % 4)) o.at' o.id (v.eng.opData.get OpData.none o.id).bad runs = (none, w) →
        let y := w.modColl o.id fun p => { p with prog := p.prog + 1 }
        exec (.collectiveStep o.id) s = .next (if (o.bytes k).length ≤ 4096 * (o.prog + 1) ∧ o.comp = none ∧ y.opWriting o.id = false
          then y.finishColl o else y)))

/-- R298: the next rank's contribution is added element by element, first within its group of ranks, and each complete group to the total, each
sum rounded to FP32; the last sum is rounded into the format of the elements. -/
def Sys2Proof.Claims.CollectiveReductionCompletes : Prop :=
  ∀ (s : State) (o : CollOp) (k : Comm) (vals : List Dword), s.collOp o.id = some o → s.commOf o = some k → o.op = 0 ∨ o.op = 1 →
    o.started = true → o.added < k.n → o.got.find o.added = some vals → vals.length = o.expects k o.added →
    let F := (TEntry.of o.es).format
    let xs := vals.map fun v => asF32 F v.toNat
    let acc := if o.added % k.m = 0 then xs else (o.groupAcc.zip xs).map fun p => addF32 p.1 p.2
    let total := if o.added % k.m ≠ k.m - 1 then o.total else if o.added / k.m = 0 then acc
      else (o.total.zip acc).map fun p => addF32 p.1 p.2
    ∃ t p, exec (.collectiveReduce o.id) s = .next t ∧ t.collOp o.id = some p ∧ p.added = o.added + 1 ∧ p.groupAcc = acc ∧ p.total = total ∧
      (o.added + 1 = k.n → p.got.find (k.n + k.rank) = some (total.map fun v => BitVec.ofNat 64 (fromF32 F v))) ∧
      (o.added + 1 ≠ k.n → p.got = o.got) ∧ t.mem = s.mem

/-- R202, R295 to R298: the steps of a collective. -/
def Obligations.CollectivesComplete : Prop :=
  CollectiveStepsComplete ∧ CollectiveReductionCompletes


/-! ## Drawing, waiting and admission -/

/-- R75, R78, R220: a draw makes the cohort of the next identity on its port, with a lane for each thread taken, awaiting the trace's TRC, or
at the position its threads resume; the threads are in it. Translations made from a root that is no longer its context's go first. -/
def Sys2Proof.Claims.DrawMakesACohort : Prop :=
  ∀ (r s : State) (core port : Nat) (g : WaitGroup), r.dropRoot (r.ctxOf g.key.crew) (r.regsOf (r.ctxOf g.key.crew)).ptroot = s →
    ((∀ e ∈ r.coh.tlb ++ r.coh.lastPage.vals, e.ctx = r.ctxOf g.key.crew →
      e.root = (r.regsOf (r.ctxOf g.key.crew)).ptroot.toNat) → s = r) ∧
    let sleep := (g.take.head?.map fun w => w.2.2.sleep).getD 0
    let ws := g.take.filter fun w => w.2.2.sleep == sleep
    let t := r.draw core port g
    t.nextId = s.nextId + 1 ∧ (∃ k, t.cohorts.find s.nextId = some k ∧ k.core = core ∧ k.port = port ∧ k.crew = g.key.crew ∧
      k.lanes.map (·.tid) = ws.map (·.1.id) ∧ k.lanes.map (·.pos) = ws.map (·.1.lane) ∧ k.snap = s.regsOf (s.ctxOf g.key.crew) ∧
      (g.key.resume = none → k.st = .trc ∧ k.pc = g.key.next ∧ k.drawnFull = (ws.length == 32)) ∧
      (∀ r, g.key.resume = some r → k.pc = r.addr ∧ k.hdr = r.hdr ∧ k.irr = r.irr ∧ k.traceId = r.traceId ∧ k.len = r.len)) ∧
    (∀ n, n ≠ s.nextId → t.cohorts.find n = s.cohorts.find n) ∧
    (∀ w ∈ ws, ∃ th, t.threads.find w.1.id = some th ∧ th.place = .inCohort s.nextId) ∧ t.vreg = s.vreg ∧ t.mem = s.mem

/-- R77, R78, R99: COHORT_DRAW draws for each port with a free context in ascending number what pickGroup finds, which is a group where a full bin, or
one that has aged, of a running crew waits; BIN_AGED leads to a draw, whatever headers it asks for; FULLCOHORT_TIMEOUT raises FULLCOHORT in the first
thread of a bin of an F trace that has waited 2^20 clocks. -/
def Sys2Proof.Claims.DrawsOfACoreComplete : Prop :=
  ∀ (s : State) (core : Nat),
    (∃ st : Nat → State, st 0 = s ∧ exec (.cohortDraw core) s = .next (st 4) ∧ ∀ p < 4,
      (16 ≤ (st p).portLoad core p ∨ (st p).pickGroup core = none → st (p + 1) = st p) ∧
      ∀ g, (st p).portLoad core p < 16 → (st p).pickGroup core = some g → st (p + 1) = (st p).draw core p g) ∧
    (∀ g ∈ s.groupsOn core, (s.crews.find g.key.crew).any (·.running) = true → g.overflow = false →
      g.full = true ∨ (s.keyKnown g.key = true ∧ s.keyFull g.key = false ∧ s.aged g = true) → s.pickGroup core ≠ none) ∧
    (s.pickGroup core ≠ none →
      exec (.binAged core) s = .next ((((s.groupsOn core).filter s.headWanted).foldl (fun u g => u.askHead g.key.crew g.key.next) s).urge
        (.hw (.cohortDraw core)))) ∧
    (∀ g t, (s.groupsOn core).find? (fun g => s.keyFull g.key && !g.full && s.clock ≥ g.oldest + 2 ^ 20) = some g → s.groupTop g = some t →
      ∃ u r, exec (.fullcohortTimeout core) s = .next u ∧ Turn.hw (.faultRecordWrite r) ∈ u.agenda ∧ r.cause = .fullcohort ∧ r.term = true ∧
        r.lane = t.lane ∧ r.wid = t.wid ∧ r.core = core)

/-- R102: a cohort that waits for its trace-buffer entries, 32 for each of its budget, receives them when they are free, and issues. -/
def Sys2Proof.Claims.TraceBufferIsGranted : Prop :=
  ∀ (s : State) (core : Nat) (c : Cohort), s.cohorts.vals.filter (fun k => k.core == core && k.st == .buffer) = [c] →
    s.cohorts.find c.id = some c →
    let used := ((s.cohorts.vals.filter fun k => k.core == core).map (·.tb)).sum
    (used + 32 * c.budget ≤ 8192 → ∃ t, exec (.traceBufferGrant core) s = .next t ∧
      t.cohorts.find c.id = some { c with tb := 32 * c.budget, st := .ready }) ∧
    (8192 < used + 32 * c.budget → exec (.traceBufferGrant core) s = .next s)

/-- R75, R77, R78, R99, R102: drawing cohorts. That threads of equal saved sleep are drawn together is the model's reading (log 31), that a cohort which
resumes inside a trace takes the system registers as they now are its choice (log 49). -/
def Obligations.DrawingStepsComplete : Prop :=
  DrawMakesACohort ∧ DrawsOfACoreComplete ∧ TraceBufferIsGranted

/-- R90, R92, R93: a stalled cohort whose conduits are ready issues again; one stalled for 512 clocks sends a probe where its conditions hold,
and otherwise counts anew; a probe whose
conditions still hold grants the lowest conduit short of room its reserve, once, and otherwise raises QDEAD; a probe whose conditions no
longer hold dies. -/
def Obligations.ConduitStepsComplete : Prop :=
  ∀ (s : State) (c : Cohort) (w : Crew) (since : Nat), s.cohorts.find c.id = some c → c.st = .conduit since → s.crews.find c.crew = some w →
    w.id = c.crew →
    (s.conduitReadyAt c = true → exec (.conduitStallResume c.id) s = .next (s.setCohort { c with st := .ready })) ∧
    (since + 512 ≤ s.clock → s.deadlocked c.crew = false →
      exec (.deadlockProbeStart c.id) s = .next (s.setCohort { c with st := .conduit s.clock })) ∧
    (since + 512 ≤ s.clock → s.deadlocked c.crew = true → w.probe = none → ∃ t, exec (.deadlockProbeStart c.id) s = .next t ∧
      t.crews.find c.crew = some { w with probe := some c.id } ∧ t.cohorts = s.cohorts) ∧
    (w.probe = some c.id →
      let u := s.modCrew c.crew fun w => { w with probe := none }
      (u.deadlocked c.crew = false → ∃ t, exec (.deadlockProbeReturn c.crew) s = .next t ∧
        t.crews.find c.crew = some { w with probe := none } ∧ t.cohorts.find c.id = some { c with st := .conduit s.clock }) ∧
      (∀ p ps cd, u.deadlocked c.crew = true → u.stalls w true = p :: ps →
        w.conduit ((p :: ps).foldl (fun m e => min m e.2) p.2) = some cd →
        (cd.reserve = false → ∃ t v, exec (.deadlockProbeReturn c.crew) s = .next t ∧ t.crews.find c.crew = some v ∧
          v.conduits = w.conduits.set ((p :: ps).foldl (fun m e => min m e.2) p.2) { cd with reserve := true } ∧
          t.cohorts.find c.id = some { c with st := .conduit s.clock }) ∧
        (cd.reserve = true → exec (.deadlockProbeReturn c.crew) s = .next
          (u.qdead ((p :: ps).filter (·.2 == (p :: ps).foldl (fun m e => min m e.2) p.2))))) ∧
      (u.deadlocked c.crew = true → u.stalls w true = [] →
        exec (.deadlockProbeReturn c.crew) s = .next (u.qdead (u.stalls w false))))

/-- R88: a crew's decrement is made at its first TRIGGER, or after its last thread's exit; after the last exit and the last operation what the
crew held is free, and its launch is looked at. -/
def Sys2Proof.Claims.JoinDecrementCompletes : Prop :=
  ∀ (s : State) (w : Crew) (l : Launch), s.crews.find w.id = some w → s.launchOf w = some l →
    let u := match w.core with
      | some core => if (s.unexited w.id).isEmpty then s.flushQuantum core else s
      | none => s
    (w.decremented = false → w.triggered = true ∨ ((s.unexited w.id).isEmpty = true ∧ u.crewStored w.id = true) →
      exec (.joinDecrement w.id) s = .next (u.decrement w l)) ∧
    (w.decremented = true → (s.unexited w.id).isEmpty = true → u.crewStored w.id = true → (∀ o ∈ u.eng.tileOps, o.crew ≠ w.id) →
      (∀ o ∈ u.eng.copyOps, o.at'.stream = none → o.at'.crew ≠ w.id) →
      ∃ t, exec (.joinDecrement w.id) s = .next t ∧ t.crews.find w.id = none ∧ (∀ th ∈ t.threads.vals, th.crew ≠ w.id) ∧
        (∀ k, u.cmd.launches.find w.launch = some k → t.cmd.launches.find w.launch = some { k with decremented := k.decremented + 1 }) ∧
        Turn.hw (.launchFinish w.launch) ∈ t.agenda ∧ t.mem = u.mem)

/-- R69, R70, R74, R83, R308: a core admits the lowest crew of the first record whose crew fits, with threads at the launch's entry, and the record
goes on with the next; a pre-empted crew is restored; a lower crew of the launch that was left resident runs again first. -/
def Sys2Proof.Claims.CrewAdmissionCompletes : Prop :=
  ∀ (s : State) (core : Nat) (r : Record), s.pickRecord core = some r →
    (∀ w, s.leftBelow r.slot (s.recOrd r) = some w → exec (.crewAdmit core) s = .next (s.resumeCrew w)) ∧
    (∀ crew, s.leftBelow r.slot (s.recOrd r) = none → r.resumed = some crew → exec (.crewAdmit core) s = .next { s with agenda := .hw (.crewRestore crew core) :: s.agenda }) ∧
    (∀ l, s.leftBelow r.slot (s.recOrd r) = none → r.resumed = none → s.cmd.launches.find r.slot = some l →
      ∃ t w, exec (.crewAdmit core) s = .next t ∧ t.crews.find s.nextId = some w ∧ w.core = some core ∧ w.ctx = l.ctx ∧ w.launch = l.slot ∧
        w.running = true ∧ w.ordinal = r.first ∧ w.crewId = BitVec.ofNat 64 (l.crewIdOf r.first) ∧ w.size = l.size ∧
        w.conduits = l.depths.map (fun d => ⟨d * l.size, [], false⟩) ∧
        (∀ i < l.size, FiledAt s t (s.nextId + 1 + i) l.entry 0 none ∧ ∃ th, t.threads.find (s.nextId + 1 + i) = some th ∧
          th.crew = s.nextId ∧ th.ord = i ∧ th.wid = BitVec.ofNat 64 (l.widOf r.first i) ∧ th.handler = false) ∧
        t.cmd.records = s.cmd.records.flatMap (fun q => if q = r then
          (if r.count ≤ 1 then [] else [{ r with first := r.first + r.stride, count := r.count - 1 }]) else [q]) ∧ t.mem = s.mem)

/-- R309: a distributor with a core that can admit a crew and has no record for it takes the upper half of another die's record. -/
def Sys2Proof.Claims.StealingTakesTheUpperHalf : Prop :=
  ∀ (s : State) (die core : Nat) (r : Record), s.cmd.master = false → core ∈ (List.range 72).map (72 * die + ·) → s.canAdmit core = true →
    (∀ q ∈ s.recordsFor core, s.admits core q = false) →
    firstBy (fun (a b : Record) => s.recBefore a b || (!s.recBefore b a && a.die < b.die))
      (s.cmd.records.filter fun r => r.die != die && r.resumed.isNone && r.count ≥ 2 && s.mayTake die r) = some r →
    let keep := (r.count + 1) / 2
    ∃ t, exec (.steal die) s = .next t ∧ t.cmd.records = (s.cmd.records.flatMap fun q => if q = r then [{ r with count := keep }] else [q]) ++
      [{ r with die := die, first := r.first + r.stride * keep, count := r.count - keep }] ∧ ∃ m, t = { s with cmd := m }

/-- R69, R70, R74, R83, R88, R308, R309: the life of a crew. That a crew fits by the sums of R73 is the model's reading (log 31), and so are the order of
a launch's records and what a die may steal (log 51). -/
def Obligations.CrewStepsComplete : Prop :=
  JoinDecrementCompletes ∧ CrewAdmissionCompletes ∧ StealingTakesTheUpperHalf


/-! ## Jewel, system registers and services -/

/-- R167 to R170: a checked instruction whose lane diverges in a revocable trace rolls the lane back, to begin its trace again, and
raises JEWEL when it has done so already in this attempt; in an irrevocable trace JEWEL_REEXECUTE writes what the second execution gave (to a
crew register, that of the lowest executing lane) with the latency of the first, or raises JEWEL when it diverged too. That a result for a conduit is left
to the row that the first execution pushed, and what that row holds, are the model's choice (log 49). -/
def Obligations.DivergenceIsRepeated : Prop :=
  (∀ (s : State) (c : Cohort) (l : Lane) (th : Thread), s.threads.find l.tid = some th →
    (th.jewelUsed = false → s.divergence c l = (s.refile c l.tid).modThread l.tid fun t => { t with jewelUsed := true }) ∧
    (th.jewelUsed = true → s.divergence c l = s.raiseIn c [l] .jewel c.offset fun _ => 0)) ∧
  (∀ (s : State) (c : Cohort) (r : Rexec) (l : Lane), s.cohorts.find c.id = some c → c.rexec = [r] → c.laneOf r.tid = some l →
    let u := s.modCohort c.id fun k => { k with rexec := [] }
    (r.bad = false → r.x.d.file = .v ∨ (r.x.d.file = .k ∧ r.low = true) → exec (.jewelReexecute c.id) s = .next
      (u.writeDst c (r.op.shape r.x.sub.toNat r.x.ty).d r.x.d (aluLat r.op r.x) [(l, r.val)])) ∧
    (r.bad = false → r.x.d.file = .q ∨ (r.x.d.file = .k ∧ r.low = false) → exec (.jewelReexecute c.id) s = .next u) ∧
    (r.bad = true → exec (.jewelReexecute c.id) s = .next (u.raiseIn { c with pc := c.hdr + r.offset } [l] .jewel r.offset fun _ => 0)))

/-- R336, R339: CSRW takes the value of its lowest executing lane, or of its crew register; a value the register allows is performed, and
any other raises PROT in that lane. CSRW of ctx.ptroot, of crew.timer and of err.inject by their own rows are the same. That all
err.inject rows act as CSRW of 0x0f0 is the model's reading (log 19). -/
def Obligations.SystemRegisterWritesComplete : Prop :=
  ∀ (s : State) (c : Cohort) (x : ImmI) (l : Lane) (rest : List Lane), Issues s c → s.execLanes c x.pred = l :: rest →
    let r : Nat × State := if x.a.file = .k then
        (if x.ty.is64 then (((begun s).seenK64 c x.a.num.toNat).1.toNat, ((begun s).seenK64 c x.a.num.toNat).2)
         else (((begun s).seenK c x.a.num.toNat).1.toNat, ((begun s).seenK c x.a.num.toNat).2))
      else ((begun s).laneVal c x.a.num.toNat x.ty.is64 l, begun s)
    let writes (i : Instr) (sel : Nat) : Prop := Passes s c i x.pred →
      (s.csrAllowed (s.ctxOf c.crew) sel r.1 = true → exec i s = .next (finished s (r.2.performCsr c.crew sel r.1) c i x.pred x.stall)) ∧
      (s.csrAllowed (s.ctxOf c.crew) sel r.1 = false →
        exec i s = .next (finished s (r.2.raiseIn c [l] .prot c.offset fun _ => 0) c i x.pred x.stall))
    writes (.csrw x) x.imm.toNat ∧ writes (.ctxPtrootWrite x) x.imm.toNat ∧ writes (.crewTimerWrite x) x.imm.toNat ∧
      writes (.errInjectL2Single x) 0x0f0 ∧ writes (.errInjectL2Uncorrectable x) 0x0f0 ∧ writes (.errInjectHbmUncorrectable x) 0x0f0 ∧
      writes (.errInjectCheckMismatch x) 0x0f0 ∧ writes (.errInjectFpDisturb x) 0x0f0 ∧ writes (.errInjectDisarm x) 0x0f0

/-- R314, R335, R336: what a performed CSRW has written, CSRR reads back; registers of other selectors read as before. -/
def Obligations.SystemRegistersReadBack : Prop :=
  ∀ (s : State) (crew sel v : Nat) (w : Crew) (x : Ctx), s.crews.find crew = some w → s.ctxs.find w.ctx = some x →
    sel ∈ [0x000, 0x001, 0x002, 0x003, 0x004, 0x005, 0x006, 0x007, 0x008, 0x010, 0x011, 0x020, 0x030, 0x0f0] →
    Nat.land v (csrMask sel) = v →
    let t := s.performCsr crew sel v
    t.readCsr crew sel = v ∧
    ∀ o ∈ [0x000, 0x001, 0x002, 0x003, 0x004, 0x005, 0x006, 0x007, 0x008, 0x010, 0x011, 0x020, 0x030, 0x0f0], o ≠ sel →
      t.readCsr crew o = s.readCsr crew o

/-- R337, R338: YIELDCREW answers 0 and asks for the crew's pre-emption; INJECTAUTH grants or withdraws err.inject, and refuses a context not
enabled for test; SLEEP lets the cohort wait its count of the crew's clocks. -/
def Sys2Proof.Claims.ServiceInstructionsComplete : Prop :=
  ∀ (s : State) (c : Cohort) (x : ImmI), Issues s c → ConduitsReady s c x.pred [] (pushOf x.d true) →
    let lanes := s.execLanes c x.pred
    let answer (f : Lane → Nat) : State := (begun s).writeDst c (OpSpec.dst true) x.d 0 (lanes.map fun l => (l, f l))
    (Passes s c (.yieldcrew x) x.pred → lanes ≠ [] → exec (.yieldcrew x) s = .next
      ((finished s (answer fun _ => 0) c (.yieldcrew x) x.pred x.stall).post (.hw (.preemptCrew c.crew false)))) ∧
    (∀ y, Passes s c (.injectauth x) x.pred → s.ctxs.find (s.ctxOf c.crew) = some y →
      let args := lanes.map (s.laneVal c x.a.num.toNat true)
      let u := finished s (answer fun l => if (s.laneVal c x.a.num.toNat true l) % 2 = 1 ∧ y.test = false then 1 else 0)
        c (.injectauth x) x.pred x.stall
      exec (.injectauth x) s = .next (u.modCtx (s.ctxOf c.crew) fun k =>
        { k with grant := args.foldl (fun g a => if a % 2 = 1 then g || y.test else false) y.grant })) ∧
    (∀ w, Passes s c (.sleep x) x.pred → s.crews.find c.crew = some w → lanes ≠ [] → x.imm ≠ 0 →
      exec (.sleep x) s = .next ((finished s (begun s) c (.sleep x) x.pred x.stall).modCohort c.id fun k =>
        { k with st := .asleep (w.clk + x.imm.toNat) })) ∧
    (Passes s c (.sleep x) x.pred → lanes = [] ∨ x.imm = 0 →
      exec (.sleep x) s = .next (finished s (begun s) c (.sleep x) x.pred x.stall))

/-- R338: a sleeping cohort whose crew's clock has come far enough issues again. -/
def Sys2Proof.Claims.SleepExpires : Prop :=
  ∀ (s : State) (c : Cohort) (w : Crew) (until' : Nat), s.cohorts.find c.id = some c → c.st = .asleep until' → s.crews.find c.crew = some w →
    (until' ≤ w.clk → ∃ t, exec (.sleepExpire c.id) s = .next t ∧ t.cohorts.find c.id = some { c with st := .ready } ∧
      t.crews = s.crews ∧ t.mem = s.mem) ∧
    (w.clk < until' → exec (.sleepExpire c.id) s = .next s)

/-- R339, R352: an armed injection of kind 1 or 2 damages its sector in the slice, one of kind 4 gives it a check value that is not its own, and one of
kind 3 damages the copy in HBM of a block written back; each disarms itself. -/
def Sys2Proof.Claims.InjectionsAreMade : Prop :=
  ∀ (s : State) (ctx : Nat) (x : Ctx), s.ctxs.find ctx = some x → x.regs.errInject[63] = true →
    let kind := (x.regs.errInject.extractLsb' 56 3).toNat
    let sector := (x.regs.errInject.extractLsb' 5 47).toNat
    let made (p : State → Prop) : Prop := ∃ t y, exec (.injectionMade ctx) s = .next t ∧ p t ∧
      t.ctxs.find ctx = some y ∧ y.regs.errInject[63] = false ∧ t.mem = s.mem
    let hurt (h : Harm) : Prop := made fun t => t.coh.harm.find sector = some h
    (kind = 1 → hurt .single) ∧ (kind = 2 → hurt .l2) ∧ (kind = 4 → made fun t => t.mismatch sector = true) ∧ (kind = 3 → hurt .hbm)

/-- R337 to R339: services, sleep and injections. That a test context need not be privileged, and when an injection of kind 3 is made,
are the model's readings (log 29). -/
def Obligations.ServicesComplete : Prop :=
  ServiceInstructionsComplete ∧ SleepExpires ∧ InjectionsAreMade

/-- R110, R176, R181: the monitor marks a running crew's segments whose age is past their lifetime, but for one that a commit has found live; a tick moves
on the stamp of a stopped resident crew's live segments, so that they keep their age, and marks those that were past their lifetime, with the same
exception. -/
def Sys2Proof.Claims.GarnetStepsComplete : Prop :=
  ∀ (s : State) (core crew j : Nat) (w : Crew) (g : Seg), s.crews.find crew = some w → w.core = some core → j < 4096 →
    s.segs.find (segKey crew j) = some g →
    (w.running = true → ∃ t, exec (.garnetMonitorVisit core) s = .next t ∧
      t.segs.find (segKey crew j) = some (if s.lifeOf crew j < s.ageOf crew g ∧ s.foundLive crew j = false then { g with expired := true } else g) ∧
      ∃ l, t = { s with segs := l }) ∧
    (w.running = false → ∃ t, exec (.garnetRenewTick core) s = .next t ∧
      t.segs.find (segKey crew j) = some (if g.expired = true ∨ s.ageOf crew g = 0 ∨
          (s.lifeOf crew j < s.ageOf crew g - 1 ∧ s.foundLive crew j = true) then g
        else if s.ageOf crew g - 1 ≤ s.lifeOf crew j then { g with stamp := g.stamp + 1 } else { g with expired := true }) ∧ ∃ l, t = { s with segs := l })

/-- R332, R333: an enabled timer whose value the crew's clock has reached fires: it is disabled and TIMER is pending for every thread of the crew
that has not exited. -/
def Sys2Proof.Claims.CrewTimerFires : Prop :=
  ∀ (s : State) (w : Crew), s.crews.find w.id = some w → w.timer[63] = true → w.timer.toNat % 2 ^ 63 ≤ w.clk →
    ∃ t, exec (.crewTimerFire w.id) s = .next t ∧ t.crews.find w.id = some { w with timer := w.timer &&& 0x7fffffffffffffff } ∧
      (∀ th ∈ s.unexited w.id, s.threads.find th.id = some th → t.threads.find th.id = some { th with timerPend := true }) ∧ t.mem = s.mem

/-- R176, R181, R332, R333: fade and timers. How long a tick lasts is a free value (log 3). -/
def Obligations.FadeAndTimersComplete : Prop :=
  GarnetStepsComplete ∧ CrewTimerFires


/-! ## Records, pages and pre-emption -/

/-- R240, R320, R323, R353: a record is written into its context's ring when it has room; a terminating one that finds it full is lost, another waits (log
26); a terminating one ends the context. A ring that damage leaves unwritable counts as full; one in host bias, or under a flip, is waited for: that it
comes back is the model's choice (log 38). -/
def Sys2Proof.Claims.FaultRecordsAreWritten : Prop :=
  ∀ (s : State) (r : FaultRec) (x : Ctx), s.ctxs.find r.ctx = some x → x.num = r.ctx → x.alive = true →
    let u := (s.recordAt x).foldl (fun s a => s.inspect true (sectorsOf a (if a = x.words then 12 else 64))) s
    let full := u.ringFull x || u.ringDead x
    (s.crownReady (s.recordAt x) = false →
      exec (.faultRecordWrite r) s = .next ((s.takeBack (s.recordAt x)).defer (.hw (.faultRecordWrite r)))) ∧
    (s.crownReady (s.recordAt x) = true →
    (full = false → r.term = false → exec (.faultRecordWrite r) s = .next (u.putRecord x r)) ∧
    (full = false → r.term = true → exec (.faultRecordWrite r) s = .next ((u.putRecord x r).endContext r.ctx)) ∧
    (full = true → r.term = false → ∃ t, exec (.faultRecordWrite r) s = .next t ∧
      t.ctxs.find r.ctx = some { x with waiting := x.waiting ++ [r] } ∧ t.mem = u.mem) ∧
    (full = true → r.term = true → exec (.faultRecordWrite r) s = .next
      ((u.modCtx r.ctx fun x => { x with lost := true }).endContext r.ctx)))

/-- R240, R320, R322, R328, R347: the device reads the words with a token, once nothing stands before it at their home; room in the ring takes the oldest
waiting record in; a resolve word that names an open record resolves it, and its page's threads retry and its side-log entries are replayed, but for
those of crews that are saved. -/
def Sys2Proof.Claims.RingWritesComplete : Prop :=
  ∀ (s : State) (ctx : Nat) (x : Ctx), s.ctxs.find ctx = some x →
    let u := s.watchWords x
    (s.crownReady [x.words] = false → exec (.resolveWrite ctx) s = .next ((s.takeBack [x.words]).defer (.hw (.resolveWrite ctx)))) ∧
    (s.crownReady (s.recordAt x) = false →
      exec (.consumerCountWrite ctx) s = .next ((s.takeBack (s.recordAt x)).defer (.hw (.consumerCountWrite ctx)))) ∧
    (s.wordsWait x = true →
      (s.crownReady [x.words] = true → exec (.resolveWrite ctx) s = .next (s.defer (.hw (.resolveWrite ctx)))) ∧
      (s.crownReady (s.recordAt x) = true → exec (.consumerCountWrite ctx) s = .next (s.defer (.hw (.consumerCountWrite ctx))))) ∧
    (s.wordsWait x = false →
      (∀ r rs, s.crownReady (s.recordAt x) = true → x.waiting = r :: rs → u.ringFull x = false → u.ringDead x = false →
        let t := (u.putRecord { x with waiting := rs } r).modCtx ctx fun x => { x with waiting := rs }
        exec (.consumerCountWrite ctx) s = .next (if rs = [] then t else t.post (.hw (.consumerCountWrite ctx)))) ∧
      (∀ r, s.crownReady [x.words] = true → x.records.find? (·.seq == u.mem.readNat (x.words + 8) 4) = some r →
        ∃ t y, exec (.resolveWrite ctx) s = .next t ∧
        t.ctxs.find ctx = some y ∧ y.records = x.records.filter (· != r) ∧
        t.agenda = u.agenda ++ .hw (.pageRetry r.core ctx r.page) :: ((u.eng.sideLog.filter fun e => e.eff.ctx == ctx &&
          pageOf e.eff.va == r.page && e.core != savedCore).map fun e => Turn.hw (.sideLogReplay e.core ctx r.page)).eraseDups ∧ t.mem = u.mem))

/-- R320 to R323: records and the ring. That a record which is neither recoverable nor terminating waits for room too is the model's reading (log
26), that a ring in host bias comes back its choice (log 38). -/
def Obligations.FaultRecordsComplete : Prop :=
  FaultRecordsAreWritten ∧ RingWritesComplete

/-- R321: the 64 bytes of a record, those without a field zero. -/
def Obligations.RecordLayout : Prop :=
  ∀ (r : FaultRec) (lost : Bool), r.offset < 256 → r.lane < 256 → r.core < 65536 → r.cmd < 2 ^ 32 → r.stream < 65536 →
    let n := natOf (recordBytes r lost)
    (recordBytes r lost).length = 64 ∧ n % 256 = r.cause.code ∧ n / 2 ^ 8 % 2 = r.recov.toNat ∧ n / 2 ^ 9 % 2 = 0 ∧
    n / 2 ^ 10 % 2 = r.handler.toNat ∧ n / 2 ^ 11 % 2 = r.sideLog.toNat ∧ n / 2 ^ 12 % 2 = r.engine.toNat ∧
    n / 2 ^ 13 % 2 = r.streamC.toNat ∧ n / 2 ^ 14 % 2 = lost.toNat ∧ n / 2 ^ 15 % 2 = r.term.toNat ∧
    n / 2 ^ 16 % 65536 = r.ctx % 4096 ∧ n / 2 ^ 32 % 65536 = r.traceId.toNat ∧ n / 2 ^ 48 % 256 = r.offset ∧ n / 2 ^ 56 % 256 = r.lane ∧
    n / 2 ^ 64 % 65536 = r.core ∧ n / 2 ^ 80 % 65536 = 0 ∧ n / 2 ^ 96 % 2 ^ 32 = r.cmd ∧ n / 2 ^ 128 % 2 ^ 64 = r.wid.toNat ∧
    n / 2 ^ 192 % 2 ^ 128 = r.addr % 2 ^ 80 ∧ n / 2 ^ 320 % 2 ^ 64 = r.crewId.toNat ∧ n / 2 ^ 384 % 65536 = r.stream ∧
    n / 2 ^ 400 = 0

/-- R232, R236, R322: the threads parked on a page, or held for room in the side log, are filed again where their accesses issue anew. -/
def Sys2Proof.Claims.ParkedThreadsRetry : Prop :=
  ∀ (s : State) (core ctx page tid : Nat) (th : Thread) (p : Park) (w : Crew), s.threads.vals.filter (fun t => t.id == tid) = [th] →
    s.threads.find tid = some th → th.place = .parked p → p.core = core → s.crews.find th.crew = some w → w.core.isSome = true →
    th.timerPend = false →
    (p.page = page → p.why ≠ .room → w.ctx = ctx → ∃ t, exec (.pageRetry core ctx page) s = .next t ∧
      FiledAt s t tid p.filing.next p.filing.tag p.filing.resume) ∧
    (p.why = .room → s.logRoom core ≠ 0 → ∃ t, exec (.sideLogRoomRetry core) s = .next t ∧
      FiledAt s t tid p.filing.next p.filing.tag p.filing.resume)

/-- R234, R235: an entry of the side log whose page can be written is performed when it is the first of its thread and page, and leaves the
log. -/
def Sys2Proof.Claims.SideLogReplays : Prop :=
  ∀ (s u v : State) (e : SideEntry) (r : Tr) (key unit : Nat) (pte : Dword), s.eng.sideLog = [e] →
    s.translate (tcAgent e.core) e.eff.ctx (s.regsOf e.eff.ctx).ptroot (s.privOf e.eff.ctx) e.eff.va .write none = (r, u) →
    u.reachOf r = .go key pte unit → u.stalled e.eff.thread key e.eff.bytes.length = false → u.remoteKey key = false →
    u.mergeCheck key e.eff.bytes.length = (none, v) →
    let w := v.doEff e.core e.eff key (pteWatch pte)
    w.eng.sideLog = [e] →
    exec (.sideLogReplay e.core e.eff.ctx (pageOf e.eff.va)) s =
      .next { w with eng := { w.eng with sideLog := [] }, agenda := w.agenda ++ [.hw (.sideLogRoomRetry e.core)] }

/-- R240, R354, R360: the Crown copies a copy-on-write page for a protected launch that has no copy of it to a free page of its pool and stores the leaf
without cow; with no free page the launch loses its protection. A page that no launch needs any more has its leaf stored. The tables and the pages come
back first where they are in host bias, and a decision on damage in the pages is waited for (log 38). -/
def Sys2Proof.Claims.CopyOnWriteCompletes : Prop :=
  ∀ (s : State) (ctx page : Nat) (x : Ctx) (f : Leaf),
    let cow (s : State) : Option Leaf := (s.leaves ctx).find? fun l => l.va == page * 2 ^ 16 && l.level == 5 && bits l.pte 9 1 == 1
    let stored (u : State) : Prop := exec (.cowCopy ctx page) s = .next (match cow u with
      | some g => u.storeLeaf ctx g (withCow g.pte false)
      | none => u)
    let ready (u : State) (l : List Nat) : Prop := u.crownReady l = true ∧ ∀ a ∈ l, u.undecided a 65536 = false
    let waits (u : State) (l : List Nat) : Prop := exec (.cowCopy ctx page) s = .next ((u.takeBack l).defer (.hw (.cowCopy ctx page)))
    (s.crownReady (s.tablesOf ctx) = false → waits s (s.tablesOf ctx)) ∧
    (s.crownReady (s.tablesOf ctx) = true → s.ctxs.find ctx = some x → cow s = some f →
    (∀ l q qs, s.needCopy ctx page = [l] → s.poolFree x = q :: qs →
      (s.crownReady [f.pa, q] = false → waits s [f.pa, q]) ∧
      (s.crownReady [f.pa, q] = true →
        let u := s.inspectPages f.pa q
        (ready u [f.pa, q] →
          stored ((u.copyPage x.num f.pa q).modLaunch l.slot fun l => { l with snapList := l.snapList ++ [(page, f.pa, q)] })) ∧
        (¬ready u [f.pa, q] → waits u [f.pa, q]))) ∧
    (∀ l, s.needCopy ctx page = [l] → s.poolFree x = [] → ready s [f.pa] → stored (s.unshield x l.slot)) ∧
    (s.needCopy ctx page = [] → stored s))

/-- R232 to R236, R322, R360: pages that fault. -/
def Obligations.PageStepsComplete : Prop :=
  ParkedThreadsRetry ∧ SideLogReplays ∧ CopyOnWriteCompletes

/-- R325, R326: a crew that is pre-empted stops, its lanes short of their commit points are saved where they stand, and once what it has started
is done it stays resident or leaves its core; a save that its area has no room for is not begun, and that is reported. A crew of a frozen cluster waits
for the decision (R358). -/
def Sys2Proof.Claims.PreemptedCrewsStop : Prop :=
  ∀ (s : State) (w : Crew) (core : Nat) (resident : Bool), s.crews.find w.id = some w → w.core = some core →
    let u := (s.setCrew { w with running := false, stopping := some resident, probe := none }).restart fun o => o.crew == w.id && o.product
    let v := (u.cohortsOf w.id).foldl (fun s c => if c.waits.isEmpty && c.rexec.isEmpty then s.stopLanes c w.clk else s) u
    let f := if (v.cohortsOf w.id).isEmpty then v.flushQuantum core else v
    let room := ((s.ctxs.find w.ctx).map (·.saveSize)).getD 0
    (s.pkg.frozen.find (clusterOf core) ≠ none → exec (.preemptCrew w.id resident) s = .next (s.defer (.hw (.preemptCrew w.id resident)))) ∧
    (s.pkg.frozen.find (clusterOf core) = none →
    (resident = false → w.stopping ≠ some false → room < s.savedBytes w.ctx + s.saveSize w → ∃ t, exec (.preemptCrew w.id resident) s = .next t ∧
      w.id ∈ t.pkg.unsaved ∧ ∃ p, t = { s with pkg := p }) ∧
    (resident = true ∨ w.stopping = some false ∨ s.savedBytes w.ctx + s.saveSize w ≤ room →
      (f.drained w.id = false → exec (.preemptCrew w.id resident) s = .next f) ∧
      (f.drained w.id = true → resident = true →
        exec (.preemptCrew w.id resident) s = .next ((f.dropData w.id).modCrew w.id fun k => { k with kPend := [] })) ∧
      (∀ k, f.drained w.id = true → resident = false → f.crews.find w.id = some k →
        exec (.preemptCrew w.id resident) s = .next (f.saveCrew k core))))

/-- R281, R326, R327: a saved crew is on no core, does not run, and waits for admission in its die's distributor; what its die has performed is
device-performed, but for what a decision on damage holds (R354), and its side-log entries are on no core. -/
def Sys2Proof.Claims.SavedCrewLeavesItsCore : Prop :=
  ∀ (r s : State) (w : Crew) (core : Nat), (r.flushDies fun d => d.die == dieOf core) = s → s.crews.find w.id = some w →
    let t := r.saveCrew w core
    (∃ k, t.crews.find w.id = some k ∧ k.core = none ∧ k.running = false ∧ k.stopping = none ∧ k.clk = w.clk ∧ k.timer = w.timer ∧
      k.barriers = w.barriers) ∧
    (∃ r, t.cmd.records = s.cmd.records ++ [r] ∧ r.die = dieOf core ∧ r.slot = w.launch ∧ r.resumed = some w.id) ∧
    (∀ e ∈ t.eng.sideLog, e.eff.crew = w.id → e.core = 1023) ∧
    (∀ d ∈ t.coh.dieWrites, d.die = dieOf core → d.bytes ≠ [] →
      s.undecided d.pa d.bytes.length = true ∨ d.pa / 2 ^ 16 ∈ s.pkg.retireList) ∧ t.mem = s.mem ∧ t.vreg = s.vreg ∧ t.kreg = s.kreg

/-- R329: a saved crew returns to a core that can admit it: it runs there, its record is gone, and its threads wait where they waited. -/
def Sys2Proof.Claims.RestoreCompletes : Prop :=
  ∀ (s : State) (w : Crew) (r : Record) (core : Nat), s.crews.find w.id = some w → s.cmd.records.find? (·.resumed == some w.id) = some r →
    w.core = none → s.admits core r = true →
    ((s.threadsOf w.id).map (·.id)).Nodup →
    (∀ th ∈ s.threadsOf w.id, s.threads.find th.id = some th) →
    ∃ t, exec (.crewRestore w.id core) s = .next t ∧ t.crews.find w.id = some { w with core := some core, running := true, stopping := none } ∧
      t.cmd.records = s.cmd.records.filter (· != r) ∧ ((∀ e ∈ s.eng.sideLog, e.eff.crew = w.id → e.unit = none) → t.mem = s.mem) ∧ t.vreg = s.vreg ∧
      ∀ th ∈ s.threadsOf w.id, ∀ f, th.place = .filed f → ∃ h g, t.threads.find th.id = some h ∧ h.place = .filed g ∧ g.next = f.next ∧
        g.tag = f.tag ∧ g.resume = f.resume ∧ g.arrival = f.arrival

/-- R340: the lowest unexited crew of its launch, saved and with no core to return to, has the highest resident crew of the launch
pre-empted. -/
def Sys2Proof.Claims.RescueCompletes : Prop :=
  ∀ (s : State) (w k : Crew) (l : Launch), s.crews.find w.id = some w → s.launchOf w = some l → w.core = none → s.anyRoom l w.id = false →
    let peers := s.crews.vals.filter fun k => k.launch == w.launch
    (∀ p ∈ peers, w.crewId.toNat ≤ p.crewId.toNat ∨ (s.unexited p.id).isEmpty = true) →
    (∀ r ∈ s.cmd.records, r.slot = w.launch → r.resumed.isSome = true ∨ w.ordinal < r.first) →
    firstBy (fun (a b : Crew) => a.crewId.toNat > b.crewId.toNat) (peers.filter fun k => k.core.any fun n => s.serves n l) = some k →
    exec (.savedCrewRescue w.id) s = .next { s with agenda := .hw (.preemptCrew k.id false) :: s.agenda }

/-- R325 to R329, R340: pre-emption, save, restore and rescue. The size of a saved crew is a free value (log 30); how a save that is not begun is
reported, and that a restore waits for room in the side log, are the model's readings (log 51), and so are that a crew of a frozen cluster waits (log
34), what becomes of the data that a crew's operations have fetched (log 54), and the arrival clocks of restored threads (log 49). -/
def Obligations.PreemptionCompletes : Prop :=
  PreemptedCrewsStop ∧ SavedCrewLeavesItsCore ∧ RestoreCompletes ∧ RescueCompletes


/-! ## Coherence, the Crown and the package -/

/-- R13, R242, R245, R247, R248: a request of an agent without a token is served, for every sector of the unit, once its data have been read, when no
flip, commit hold, late translation cache, persistent request, other request or write that reaches the home in the same clock is in its way: from the proxy
of the agent's die, where that has a token to spare, and else from the home, whose last token does not go where the owner token is at home. Only the
room that an L1 or an instruction cache makes for the block changes any other unit. In host bias the host is asked for the line. -/
def Sys2Proof.Claims.ReadRequestTakesAToken : Prop :=
  ∀ (s : State) (agent sec : Nat), s.writeComes sec = false →
    (s.viaHost (32 * sec) = true → s.unitBarred sec = false → s.late [sec] = false → (s.unit sec).held.get 0 agent = 0 →
      s.coh.hostHeld.find sec = none → exec (.rdtok agent sec) s = .next (s.askHost agent sec)) ∧
    (s.viaHost (32 * sec) = false →
      let u := s.readIdle (sec * 32) 32
      let secs := if translates agent then [sec] else u.unitSecs sec
      let proxy (k : Nat) : Nat := u.unit k |>.spare k agent
      u.unitBarred sec = false → u.late [sec] = false → (u.unit sec).req = none → (u.unit sec).queue = [] →
      (∀ k ∈ secs, (u.unit k).pers = [] ∧ (u.unit k).held.get 0 agent = 0 ∧
        (0 < proxy k ∨ 1 < (u.unit k).home ∨ (0 < (u.unit k).home ∧ (u.unit k).owner ≠ none))) →
      ∃ t, exec (.rdtok agent sec) s = .next t ∧
        (∀ k ∈ secs, (t.unit k).held.get 0 agent = 1 ∧ (t.unit k).owner = (u.unit k).owner ∧
          (t.unit k).home = (if 0 < proxy k then (u.unit k).home else (u.unit k).home - 1) ∧
          ∀ a, a ≠ agent → (t.unit k).held.get 0 a =
            (if 0 < proxy k ∧ proxyFor k agent = some a then (u.unit k).held.get 0 a - 1 else (u.unit k).held.get 0 a)) ∧
        (∀ o, o ∉ secs → o / 16 = sec / 16 ∨ ¬(agent < 288 ∨ (576 ≤ agent ∧ agent < 864)) → t.unit o = u.unit o) ∧ t.mem = u.mem)

/-- R246, R247, R248, R250, R276, R354: WRDIE asks for the writing die's tokens and the owner token of a unit, WRALL for every token: it waits for a flip, a
commit hold and a late translation cache, stands behind a request at the home, and is satisfied where the home and the L2 have what it needs; otherwise its
probes go out. A satisfied WRDIE has brought the die's tokens and the owner token to the writing L2, its home slice or its die's proxy, after other
dies' stores to the unit are device-performed, but for what a decision on damage holds; a satisfied WRALL has made the die's own device-performed. -/
def Sys2Proof.Claims.WriteRequestsComplete : Prop :=
  (∀ (s : State) (die sec need : Nat) (i : Instr), (i = .wrdie die sec ∧ need = needDie) ∨ (i = .wrall die sec ∧ need = 1024) →
    let u := s.unit sec
    let r : TokReq := ⟨proxyAgent die, need, 0, 0, 0, false, 0, s.clock, false⟩
    (s.unitBarred sec = true ∨ s.late [sec] = true → exec i s = .next (s.defer (.hw i))) ∧
    (s.unitBarred sec = false → s.late [sec] = false → s.viaHost (32 * sec) = false →
      (∀ q ∈ u.req.toList ++ u.queue, q.agent ≠ proxyAgent die ∨ q.need ≠ need) →
      (u.req ≠ none ∨ u.pers ≠ [] → exec i s = .next (s.setUnit sec { u with queue := u.queue ++ [r] })) ∧
      (u.req = none → u.pers = [] →
        (s.meets sec r = true → exec i s = .next (s.satisfy sec r)) ∧ (s.meets sec r = false → exec i s = .next (s.sendProbes sec r))))) ∧
  ∀ (s : State) (die sec : Nat) (r : TokReq), r.agent = proxyAgent die →
    let t := s.grantReq sec r
    let kept (d : DieWrite) : Prop := d.bytes = [] ∨ t.undecided d.pa d.bytes.length = true ∨ d.pa / 2 ^ 16 ∈ t.pkg.retireList
    ((t.unit sec).queue = [] → s.satisfy sec r = t) ∧
    (r.need = needDie → ∀ k ∈ s.unitSecs sec, (∀ d ∈ t.coh.dieWrites, sectorOf d.pa = k → d.die = die ∨ kept d) ∧
      (∀ h ∈ (t.unit k).held, onDie die h.1 = true → h.1 = proxyAgent die) ∧
      (secHome k ≠ die → (t.unit k).owner = some (proxyAgent die)) ∧ (secHome k = die → (t.unit k).owner = none)) ∧
    (r.need = 1024 → ∀ d ∈ t.coh.dieWrites, d.die = die → sectorOf d.pa = sec → kept d)

/-- R246, R260, R261, R286, R354, R361: an atomic message is applied at its home, lane by lane, each behind the earlier writes of its unit; the lanes
of .BF16X2 are pairs of atomics of a half each, all in the order that one free value names. One to a retired page goes back to its core, one that has to
wait is made again, and one whose merge check finds damage waits for the decision. -/
def Sys2Proof.Claims.AtomicMessageApplies : Prop :=
  ∀ (s v : State) (r : AtomReq),
    let retired := s.pkg.retireList.contains (r.addr / 2 ^ 16)
    (retired = true → exec (.atomMessage r) s = .next (s.refuseAtom r)) ∧
    (retired = false → s.stalled 0 r.addr r.size = true → exec (.atomMessage r) s = .next (s.defer (.hw (.atomMessage r)))) ∧
    (retired = false → s.stalled 0 r.addr r.size = false →
      (∀ sec f, s.mergeCheck r.addr r.size = (some (sec, f), v) → exec (.atomMessage r) s = .next ((v.detect sec f).defer (.hw (.atomMessage r)))) ∧
      (s.mergeCheck r.addr r.size = (none, v) →
        (r.cls ≠ 3 ∨ r.half = true → exec (.atomMessage r) s = .next (r.lanes.foldl (fun u d =>
          let w := u.firstInLine r.addr r.size
          w.land r.addr (bytesOf r.size (atomOp r.op (if r.half then 2 else r.cls.toNat) r.size (w.mem.readNat r.addr r.size) (laneOperand r d)))
            (.ctx r.ctx) r.watch) v)) ∧
        (r.cls = 3 → r.half = false → exec (.atomMessage r) s = .next (r.lanes.foldl (fun u d =>
          u.performPair (2 * v.nextId) 0 r.addr (laneOperand r d) (.ctx r.ctx) (some (r.core, laneEff r d)) none r.watch)
            { v with nextId := v.nextId + 1 }))))

/-- R122, R229, R248, R250, R251, R253: a probe's target that holds tokens surrenders them, with what it has translated under them, and they are
under way in an Ack; a target that holds none sends a NullAck, a cluster's responder its own; a home with a commit hold on the unit answers
after it, and so does a translation cache whose accesses under way have to be performed first. -/
def Sys2Proof.Claims.ProbesAreAnswered : Prop :=
  ∀ (s : State) (sec target a n : Nat),
    let held : Bool := (s.unitSecs sec).any fun k => s.heldBy 0 (32 * k) 32
    (held = true ∨ s.late [sec] = true → ∀ one, exec (.probe sec target one) s = .next (s.defer (.hw (.probe sec target one)))) ∧
    (held = false → s.late [sec] = false → s.answersFor sec target = [] → ∀ one, exec (.probe sec target one) s = .next { s with
      agenda := s.agenda ++ [if target ≥ 1024 then .hw (.clusterResponderNullack sec (target - 1024)) else .hw (.nullack sec target)] }) ∧
    (let v := if translates a then s.complete [sec] else s
     held = false → s.late [sec] = false → s.answersFor sec target = [(a, n)] → (s.unit sec).owner ≠ some a →
      v.answersFor sec target = [(a, n)] → 0 < n → (v.unit sec).held.find a = some n → (v.unit sec).owner ≠ some a →
      (∀ d ∈ v.coh.dieWrites, proxyAgent d.die = a → sectorOf d.pa ∉ v.unitSecs sec) →
      ∃ t, exec (.probe sec target false) s = .next t ∧ (t.unit sec).held.find a = none ∧
        (t.unit sec).flight = (v.unit sec).flight ++ [(n, false)] ∧ (t.unit sec).home = (v.unit sec).home ∧
        Turn.hw (.ack sec target n false) ∈ t.agenda ∧ t.mem = v.mem ∧
        (translates a = true → ∀ e ∈ t.coh.tlb, e.agent = a → sec ∉ e.units))

/-- R250, R251: tokens that an Ack brings are credited to the request that waits at the home, or go back to it; replies are counted; an
eviction sends its agent's tokens of each sector of the unit, one of dirty data after making its die's stores device-performed, and they are credited as
they arrive. -/
def Sys2Proof.Claims.RepliesAndEvictionsComplete : Prop :=
  ∀ (s : State) (sec source n : Nat) (r : TokReq),
    let u := s.unit sec
    (∀ own, (n, own) ∈ u.flight → u.req = none → ∃ t, exec (.ack sec source n own) s = .next t ∧
      (t.unit sec).home = u.home + n ∧ (t.unit sec).flight = u.flight.erase (n, own) ∧ t.mem = s.mem) ∧
    (∀ own, (n, own) ∈ u.flight → u.req = some r → r.got + 1 < r.expected → ∃ t, exec (.ack sec source n own) s = .next t ∧
      (t.unit sec).req = some { r with tokens := r.tokens + n, owner := r.owner || own, got := r.got + 1 } ∧ t.mem = s.mem) ∧
    (∀ l, u.req = some r → r.got + 1 < r.expected → u.filter = .pointers l →
      (∃ t, exec (.nullack sec source) s = .next t ∧ t.unit sec = { u with req := some { r with got := r.got + 1 } } ∧ t.mem = s.mem) ∧
      ∃ t, exec (.clusterResponderNullack sec source) s = .next t ∧ t.unit sec = { u with req := some { r with got := r.got + 1 } } ∧
        t.mem = s.mem) ∧
    (u.evicts.find? (·.1 == source) = none → u.owner ≠ some source →
      exec (.evict sec source) s = .next ((s.unitSecs sec).foldl (fun s k => s.sendEvict k source) s)) ∧
    (∀ die, source = proxyAgent die → u.evicts.find? (·.1 == source) = none →
      exec (.evictdata sec die) s = .next ((s.unitSecs sec).foldl (fun s k => s.sendEvict k source) s)) ∧
    (let v := if translates source then s.complete [sec] else s.flushDies fun d => proxyAgent d.die == source && sectorOf d.pa == sec
     let own := (v.unit sec).owner == some source
     let t := s.sendEvict sec source
     u.held.get 0 source ≠ 0 → s.awaited source sec = false → (translates source = true → s.late [sec] = false) →
      (v.unit sec).held.find source = some n →
      (t.unit sec).held.find source = none ∧ (t.unit sec).evicts = (v.unit sec).evicts ++ [(source, n, own)] ∧
      (t.unit sec).owner = (if own then none else (v.unit sec).owner) ∧ t.mem = v.mem ∧
      Turn.hw (if own && 902 ≤ source && source < 906 then .evictdata sec (source - 902) else .evict sec source) ∈ t.agenda) ∧
    (∀ own i, u.evicts.find? (·.1 == source) = some (source, n, own) → (i = .evict sec source ∨ ∃ die, source = proxyAgent die ∧ i = .evictdata sec die) →
      (u.req = none → ∃ t, exec i s = .next t ∧ (t.unit sec).home = u.home + n ∧ (t.unit sec).evicts = u.evicts.erase (source, n, own) ∧
        t.mem = s.mem) ∧
      (u.req = some r → r.got < r.expected → ∃ t, exec i s = .next t ∧
        (t.unit sec).req = some { r with tokens := r.tokens + n, owner := r.owner || own } ∧ t.mem = s.mem))

/-- R248: a persistent request is recorded where its table has room, in ascending agent order, and served when it is alone; when it is done the
next is served; a request that is late is satisfied or fails, those behind it age too, and one that found the table full is issued again. -/
def Sys2Proof.Claims.PersistentRequestsComplete : Prop :=
  ∀ (s : State) (agent sec : Nat),
    let u := s.unit sec
    let put (l : List Nat) : State := s.setUnit sec { u with pers := l }
    (agent ∉ u.pers → s.persTable sec < 32 →
      (u.pers = [] → exec (.persreq agent sec) s = .next ((put [agent]).servePers sec)) ∧
      (u.pers ≠ [] → exec (.persreq agent sec) s = .next (put (u.pers.filter (· < agent) ++ agent :: u.pers.filter (· > agent))))) ∧
    (agent ∉ u.pers → 32 ≤ s.persTable sec → exec (.persreq agent sec) s = .next (s.defer (.hw (.persistentTableRetry sec)))) ∧
    (agent ∈ u.pers → exec (.persdone agent sec) s = .next ((put (u.pers.filter (· != agent))).servePers sec)) ∧
    (∀ r, let a := s.ageQueue sec
      (a.unit sec).req = some r → r.since + 2048 ≤ a.clock → r.persistent = false → r.fails < 2 →
      (r.expected ≤ r.got → a.meets sec r = true → exec (.tokenRequestTimeout sec) s = .next (a.satisfy sec r)) ∧
      (r.got < r.expected ∨ a.meets sec r = false → exec (.tokenRequestTimeout sec) s = .next (a.failReq sec r))) ∧
    (∀ r ∈ u.queue, ∃ q ∈ ((s.ageQueue sec).unit sec).queue, q = if r.since + 2048 ≤ s.clock then { r with fails := r.fails + 1, since := s.clock } else r) ∧
    (∀ r, let b := s.retryQueue sec
      (b.unit sec).req = some r → 2 ≤ r.fails → r.persistent = false → r.since + 64 ≤ b.clock → b.persTable sec < 32 →
      exec (.persistentTableRetry sec) s = .next (b.post (.hw (.persreq r.agent sec))))

/-- R246 to R253: the messages of the token protocol. Units are kept by sector (log 9); which requests wait, and that either half of a
.BF16X2 may come first, are the model's readings (log 33, log 52). -/
def Obligations.CoherenceMessagesComplete : Prop :=
  ReadRequestTakesAToken ∧ WriteRequestsComplete ∧ AtomicMessageApplies ∧ ProbesAreAnswered ∧ RepliesAndEvictionsComplete ∧ PersistentRequestsComplete

/-- R357, R358, R361: a decision on damage takes every report of its sector together: the owner's launch is replayed, or the owner's context is
terminated; the page is retired, a slice's way quarantined, the frozen clusters go on, and the consumers are parked. Decisions are made in the order of
their reports, and one first waits for the pages that it needs to be the device's. -/
def Sys2Proof.Claims.DecisionsOnDamageComplete : Prop :=
  ∀ (s : State) (r : Report), r ∈ s.pkg.reports →
    let same := s.pkg.reports.filter (·.sector == r.sector)
    let page := r.sector * 32 / 2 ^ 16
    let a := s.modPkg fun p => { p with reports := p.reports.filter (·.sector != r.sector) }
    let rest (u : State) : State :=
      let u := if r.sector * 32 < hbmEnd then u.retirePage page else u
      let u := if r.finder = .l2 then u.quarantineWay (r.sector * 32) else u
      let u := (same.filterMap (·.cluster)).foldl State.unfreeze u
      ((same.filter (·.consumer.isSome)).foldl State.parkConsumer u).resumeDecided r.sector
    (s.decideReady (s.decideAt r) = false → exec (.crownDecide r) s = .next ((s.takeBack (s.decideAt r)).defer (.hw (.crownDecide r)))) ∧
    (s.decideReady (s.decideAt r) = true → (∃ q, s.pkg.reports.head? = some q ∧ q.sector ≠ r.sector) →
      exec (.crownDecide r) s = .next (s.defer (.hw (.crownDecide r)))) ∧
    (s.decideReady (s.decideAt r) = true → (∀ q, s.pkg.reports.head? = some q → q.sector = r.sector) →
    (a.ownerOf r = none → exec (.crownDecide r) s = .next (rest a)) ∧
    (∀ x l, a.ownerOf r = some x → r.sector * 32 < hbmEnd → a.replayable x.num page = some l →
      exec (.crownDecide r) s = .next (rest (a.replay x l page))) ∧
    (∀ x, a.ownerOf r = some x → hbmEnd ≤ r.sector * 32 ∨ a.replayable x.num page = none →
      exec (.crownDecide r) s = .next (rest (a.recordNow { r.record with ctx := x.num, term := true, recov := false }))))

/-- R310, R363, R364: when a die is lost, the contexts that use it are terminated, the census of the other homes' units runs, and the device
goes on without it under the master distributor. -/
def Sys2Proof.Claims.LostDieLeavesService : Prop :=
  ∀ (s : State) (die : Nat), die < 4 → s.pkg.deadDies.contains die = false →
    let stuck := (s.coh.dieWrites.filter fun d => d.die != die && homeDie d.pa == die).filterMap fun d => match d.writer with
      | .ctx n => some n | .external => none
    let victims := (s.ctxs.vals.filter fun x => x.alive && (s.usesDie x die || stuck.contains x.num)).map (·.num)
    let u := victims.foldl State.endContext
      (s.modCoh fun c => { c with dieWrites := c.dieWrites.filter fun d => d.die != die && homeDie d.pa != die })
    let v := (u.coh.units.map (·.1)).foldl (fun s sec => if secHome sec = die then s else s.census die sec) u
    ∃ t, exec (.dieLost die) s = .next t ∧ t.pkg.deadDies = v.pkg.deadDies ++ [die] ∧ t.cmd.master = true ∧
      t.pkg.status = v.pkg.status &&& ~~~(BitVec.twoPow 32 (16 + die)) ∧ (∀ e ∈ t.coh.units, secHome e.1 ≠ die) ∧
      (∀ e ∈ t.coh.blocks, homeDie (e.1 * 512) ≠ die) ∧ t.mem = v.mem ∧ t.ctxs = v.ctxs

/-- R310, R356 to R364: damage and lost dies. That one decision covers all reports of a sector is the model's reading (log 34), what a
lost die takes with it log 35, and that a decision waits until the pages it needs are the device's its choice (log 38). -/
def Obligations.CrownDecides : Prop :=
  DecisionsOnDamageComplete ∧ LostDieLeavesService

/-- R254, R257, R376, R379: an answer from the host or a peer ends its access: a load's bytes go to its lanes' registers, an engine's to what it
has fetched, a fill's to the L2, and a write that is complete leaves nothing open. The host answers a read of 32 bytes with the line of 64 that holds
them. -/
def Sys2Proof.Claims.AnswersEndAccesses : Prop :=
  ∀ (s : State) (id : Nat) (r : Remote) (bytes : List Byte) (i : Instr), s.coh.remote.find id = some r →
    (r.peer = false ∧ i = .hostCacheResponse id bytes) ∨ (r.peer = true ∧ i = .peerAccessResponse id bytes) → hbmEnd ≤ r.pa → r.gone = false →
    r.due = none → s.stalled r.thread r.pa r.size = false → s.behind id r = false →
    let line : Bool := r.peer = false ∧ r.dest ≠ .write ∧ r.size = 32
    let mine := if line then bytes.drop (r.pa % 64) else bytes
    (r.dest = .fill → r.peer = false → r.eff = none → r.size = 32 → r.pa % 32 = 0 → 64 ≤ bytes.length → s.viaHost r.pa = true →
      ∃ t, exec i s = .next t ∧ t.coh.remote.find id = none ∧ t.coh.hostHeld.find (r.pa / 32) = some (mine.take 32) ∧ t.mem = s.mem ∧ RegsKept s t) ∧
    (r.dest = .write → ∃ t, exec i s = .next t ∧ t.coh.remote.find id = none ∧ t.mem = s.mem ∧ RegsKept s t) ∧
    (∀ op va, r.dest = .op op va → r.eff = none → bytes.length = (if line then 64 else r.size) →
      ∃ t, exec i s = .next t ∧ t.coh.remote.find id = none ∧ t.mem = s.mem ∧
        t.fetchedOf op = ((s.modCoh fun c => { c with remote := c.remote.erase id }).putFetched op
          ((List.range r.size).map fun j => (va + j, mine.getD j 0))).fetchedOf op) ∧
    (∀ lanes d w c, r.dest = .regs lanes d w → (if line then 64 else r.size) ≤ bytes.length → s.cohorts.find r.cohort = some c → c.id = r.cohort →
      (lanes.map (·.1)).Nodup → (∀ x ∈ lanes, (c.laneOf x.1).isSome) → c.irr = true → d + (loadedWords w []).length ≤ 256 →
      let got (va : Nat) : List Byte := (List.range (widthBytes w)).map fun j => mine.getD (va % 32 - r.pa % 32 + j) 0
      ∃ t k, exec i s = .next t ∧ t.coh.remote.find id = none ∧ (∀ x ∈ lanes, LoadedIn t x.1 (BitVec.ofNat 8 d) w (got x.2)) ∧
        (∀ o n, n < 256 → ¬((∃ x ∈ lanes, x.1 = o) ∧ d ≤ n ∧ n < d + (loadedWords w []).length) → t.getV o n = s.getV o n) ∧
        t.preg = s.preg ∧ t.kreg = s.kreg ∧ t.cohorts.find r.cohort = some k ∧ k.waits = c.waits.filter (· != id) ∧ t.mem = s.mem)

/-- R240, R254, R353, R354, R376, R377, R381, R383: a snoop of a line takes the L2's copy away, answers with it where it is dirty, and takes every token of
a host line home; host accesses to device memory wait while the device is not ready or sleeps, the page is under a flip, or something stands before them
at the home, and otherwise read at the home, or write where no damage is found. -/
def Sys2Proof.Claims.HostAccessesComplete : Prop :=
  ∀ (s : State),
    (∀ line,
      let a := snoopKey line
      let secs := sectorsOf a 64
      (s.late secs = true → exec (.hostSnoop line) s = .next (s.defer (.hw (.hostSnoop line)))) ∧
      (s.late secs = false → ∃ t, exec (.hostSnoop line) s = .next t ∧
        (∀ sec ∈ secs, t.coh.hostHeld.find sec = none ∧ (line < 2 ^ 46 → (t.unit sec).held = [] ∧ (t.unit sec).home = 1024)) ∧
        t.pkg.snoops = (if secs.any s.coh.hostDirty.contains then s.pkg.snoops.insert line ((List.range 64).map fun i => s.hostByte (a + i))
          else s.pkg.snoops.erase line) ∧
        ((∀ e ∈ s.coh.tlb ++ s.coh.lastPage.vals, ∀ sec ∈ secs, sec ∉ e.units) → s.translators (secs.flatMap s.unitSecs) = [] → t.mem = s.mem))) ∧
    (∀ r, s.ready = false ∨ s.pkg.asleep = true → exec (.hostMemAccess r) s = .next (s.defer (.hw (.hostMemAccess r)))) ∧
    (∀ a n, s.flipping a = true ∨ s.readStalled hostAgent 0 a n = true →
      exec (.hostMemAccess (.read a n)) s = .next (s.defer (.hw (.hostMemAccess (.read a n))))) ∧
    (∀ a bs, s.flipping a = true ∨ s.stalled 0 a bs.length = true →
      exec (.hostMemAccess (.write a bs)) s = .next (s.defer (.hw (.hostMemAccess (.write a bs))))) ∧
    (s.ready = true → s.pkg.asleep = false →
      (∀ a n, s.flipping a = false → s.readStalled hostAgent 0 a n = false →
        exec (.hostMemAccess (.read a n)) s = .next (s.outsideRead a n (some hostAgent))) ∧
      (∀ a bs v, s.flipping a = false → s.stalled 0 a bs.length = false → a + bs.length ≤ hbmEnd → s.pkg.retireList.contains (a / 2 ^ 16) = false →
        ((sectorsOf a bs.length).foldl State.dropHost s).mergeCheck a bs.length = (none, v) →
        exec (.hostMemAccess (.write a bs)) s = .next (v.perform a bs .external (v.watched (a / 2 ^ 16)))))

/-- R122, R240, R248, R254: a flip to host bias waits for what stands before it, then brings every token of the page home, drops its blocks and ends;
a flip to device bias snoops the page's
lines, and the answer of the last ends it. The end of a flip drops the host's data of the page from the L2, sets the page's bit, makes the
accesses that were sent under the old one again, and completes its command after the last of its pages. -/
def Sys2Proof.Claims.BiasFlipsComplete : Prop :=
  (∀ (s : State) (page : Nat) (toHost : Bool),
    let h := ((s.coh.hostHeld.map (·.1)).filter fun sec => sec * 32 / 2 ^ 16 == page).foldl State.dropHost s
    let u := (h.modCoh fun c => { c with flips := c.flips.filter (·.page != page), bias := c.bias.set false page toHost }).resend page
    u.coh.bias.get false page = toHost ∧ (∀ p, p ≠ page → u.coh.bias.get false p = h.coh.bias.get false p) ∧
    (∀ f ∈ u.coh.flips, f.page ≠ page) ∧
    s.endFlip page toHost = match (s.coh.flips.find? (·.page == page)).bind (·.stream) with
      | some n => if u.coh.flips.any (·.stream == some n) then u else u.finishCmd n
      | none => u) ∧
  ∀ (s : State) (page line : Nat) (bytes : List Byte) (f : Flip),
    (s.flipWaits page = true → exec (.biasFlipToHost page) s = .next ((s.modCoh fun c =>
      if c.flips.any (·.page == page) then c else { c with flips := c.flips ++ [⟨page, true, [], none⟩] }).defer (.hw (.biasFlipToHost page)))) ∧
    (s.flipWaits page = false → ∃ u : State, exec (.biasFlipToHost page) s = .next (u.endFlip page true) ∧ (∀ e ∈ u.coh.blocks, e.1 / 128 ≠ page) ∧
      ∀ sec ∈ sectorsOf (page * 2 ^ 16) 65536, (u.unit sec).held = [] ∧ (u.unit sec).home = 1024) ∧
    (s.coh.flips.find? (·.page == page) = none → exec (.biasFlipToDevice page) s = .next (s.modCoh fun c =>
      { c with flips := c.flips ++ [⟨page, false, [], none⟩] })) ∧
    (s.coh.flips.find? (fun f => f.page == line / 1024 && !f.toHost) = some f → line ∉ f.lines →
      let u := if bytes.length = 64 then s.outsideWrite (64 * line) bytes else s
      let t := u.modCoh fun c => { c with flips := c.flips.map fun (g : Flip) =>
        if g.page == line / 1024 then { g with lines := f.lines ++ [line] } else g }
      exec (.backInvalidateResponse line bytes) s = .next (if f.lines.length < 1023 then t else t.endFlip (line / 1024) false))

/-- R254, R378, R379, R381: a flit in sequence is taken, and delivered in the order sent once what it asks for has nothing before it at its home; a
request of a peer is performed there, or at the host in host bias, and answered from its port; one with a bad CRC is counted as a failure, and the 64th in
a row takes the port down, as its own event does: it is not up, and the peers behind it are lost. -/
def Sys2Proof.Claims.TilpenStepsComplete : Prop :=
  ∀ (s : State) (port : Nat) (f : Flit) (p : Port), port < 16 → s.pkg.ports[port]? = some p →
    (∃ t, exec (.tilpenPortDown port) s = .next t ∧ (∃ q, t.pkg.ports[port]? = some q ∧ q.up = false) ∧
      ∀ i e, s.pkg.peers.find i = some e → e.port = port → t.pkg.peers.find i = some { e with lost := true }) ∧
    (p.up = true → flitPayload f.body ≤ 240 →
      let taken (l : List FlitBody) : State := s.modPkg fun k => { k with ports := k.ports.set port { p with seq := p.seq + 1, fails := 0, inbox := l } }
      (f.crcOk = false → p.fails + 1 < 64 → exec (.tilpenFlitReceive port f) s = .next (s.modPkg fun k =>
        { k with ports := k.ports.set port { p with fails := p.fails + 1 } })) ∧
      (f.crcOk = false → 64 ≤ p.fails + 1 → exec (.tilpenFlitReceive port f) s = .next (s.portDown port)) ∧
      (f.crcOk = true → f.seq ≠ p.seq → exec (.tilpenFlitReceive port f) s = .next s) ∧
      (f.crcOk = true → f.seq = p.seq → p.inbox ≠ [] → exec (.tilpenFlitReceive port f) s = .next (taken (p.inbox ++ [f.body]))) ∧
      (f.crcOk = true → f.seq = p.seq → p.inbox = [] →
        ((taken [f.body]).bodyWaits f.body = true → ∃ t, exec (.tilpenFlitReceive port f) s = .next t ∧ Turn.serve port ∈ t.later ∧
          t.mem = s.mem ∧ ∃ q, t.pkg.ports[port]? = some q ∧ q.inbox = [f.body] ∧ q.seq = p.seq + 1) ∧
        ((taken [f.body]).bodyWaits f.body = false →
          let u := taken []
          let away (a n : Nat) : Bool := decide (hbmEnd < a + n) || u.pkg.retireList.contains (a / 2 ^ 16)
          let onward (a n : Nat) : Bool := u.viaHost a && !away a n
          let t := match f.body with
            | .idle | .credit => u
            | .request true a bs tag =>
              if onward a bs.length then u.passOnward port a .store [] bs tag else (u.outsideWrite a bs).sendFlit port 0 (.response tag [])
            | .request false a bs tag =>
              if away a bs.length then u.sendFlit port 0 (.response tag [])
              else if u.viaHost a then u.sendFlit port 0 (.response tag ((List.range bs.length).map fun i => u.hostByte (a + i)))
              else (u.outsideRead a bs.length none).sendFlit port 0 (.response tag ((u.outsideRead a bs.length none).mem.readBytes a bs.length))
            | .atomic a op cls cmp bs tag =>
              if onward a bs.length then u.passOnward port a (match op with | some o => .atom o cls | none => .store) cmp bs tag
              else (u.outsideAtom a op cls cmp bs).2.sendFlit port 0 (.response tag (u.outsideAtom a op cls cmp bs).1)
            | .response tag bs => u.answered true tag bs (.hw (.peerAccessResponse tag bs))
            | .collective op rank shape elems => u.modColl op (·.take rank shape elems)
          exec (.tilpenFlitReceive port f) s = .next t)))

/-- R240, R254, R376 to R379: the host and peers. Which token a host read takes, which line names a device page, and that flits out of sequence are
ignored, are the model's readings (log 36, log 37). -/
def Obligations.HostAndPeerAccessesComplete : Prop :=
  AnswersEndAccesses ∧ HostAccessesComplete ∧ BiasFlipsComplete ∧ TilpenStepsComplete

/-- R175, R380 to R382: the Regulator's steps into C1 to C4 and out of them, the clock under heat, which leaves the fade ticks as long as they were, and
the end of power. -/
def Sys2Proof.Claims.PowerStatesComplete : Prop :=
  ∀ (s : State),
    (∀ core, core < 288 → (s.core core).power = 0 → 1024 ≤ (s.core core).idle → s.quiet core = true →
      40 ≤ (s.pkg.tolCluster.getD (clusterOf core) 0).toNat → exec (.powerEnterC1 core) s =
        .next (s.setCore core { s.core core with power := 1, last := s.clock })) ∧
    (∀ cl, s.mayC2 cl = true → exec (.powerEnterC2 cl) s = .next ((List.range 8).foldl (fun u i =>
      let v := (u.crewsOn (8 * cl + i)).foldl (fun u w => (u.saveSegs w.id).setCrew { w with running := false }) u
      (v.evictCore (8 * cl + i)).setCore (8 * cl + i) { v.core (8 * cl + i) with power := 2, last := v.clock }) s)) ∧
    (∀ die, die < 4 → (∀ i < 72, (s.core (72 * die + i)).power = 2) → 5000 ≤ (s.pkg.tolDie.getD die 0).toNat →
      (∀ o ∈ s.eng.copyOps, o.die = die → o.engine = none) → (∀ e ∈ s.coh.units, secHome e.1 = die → e.2.req = none) →
      exec (.powerEnterC3 die) s = .next (s.modPkg fun p => { p with diePower := p.diePower.set die 1 })) ∧
    ((∀ d < 4, d ∈ s.pkg.deadDies ∨ s.pkg.diePower.getD d 0 = 1) → s.eng.copyOps = [] → s.eng.collOps = [] → s.eng.tileOps = [] →
      s.readyStreams = [] → s.pkg.sleepReq = true → s.pkg.tolPackage = 0xffffffff →
      exec .powerEnterC4 s = .next (s.modPkg fun p => { p with asleep := true, sleepReq := false })) ∧
    (s.pkg.asleep = false → (∀ n, exec (.powerWake (.core n)) s = .next (s.wakeCore n)) ∧
      (∀ n, exec (.powerWake (.cluster n)) s = .next (s.wakeCluster n)) ∧
      ∀ n, exec (.powerWake (.die n)) s = .next (s.wakeDie n)) ∧
    (∀ n, (s.wakeDie n).pkg.diePower.getD n 0 = 0) ∧
    (∀ n, n < s.cores.length → ((s.wakeCore n).core n).power = 0 ∧
      ((s.core n).power ≠ 0 → (s.wakeCore n).pkg.diePower.getD (dieOf n) 0 = 0)) ∧
    exec .hostWake s = .next (s.modPkg fun p => { p with asleep := false }) ∧
    (let at' (mhz : Nat) : State := { s with
        pkg := { s.pkg with mhz := mhz }
        cores := s.cores.map fun k => { k with tickLeft := (k.tickLeft * mhz + s.pkg.mhz - 1) / s.pkg.mhz } }
     (∀ milliC watts, 100000 ≤ milliC ∨ 3200 ≤ watts + powerMargin →
      exec (.thermalThrottle milliC watts) s = .next (at' (max 1800 (s.pkg.mhz - 100)))) ∧
     (∀ milliC watts, milliC < 100000 → watts + powerMargin < 3200 →
      exec (.thermalThrottle milliC watts) s = .next (at' (min 3600 (s.pkg.mhz + 100))))) ∧
    (∀ milliC, 115000 ≤ milliC → ∃ t, exec (.overtempShutdown milliC) s = .next t ∧ t.pkg.powered = false ∧ t.mem = [] ∧ t.cohorts = [] ∧
      t.ctxs = [] ∧ t.agenda = [])

/-- R373, R374, R383: bring-up takes its steps one after another and the status register names the one that runs; it stops at a key or a signature that
fails, with its step and code, leaves out the dies whose parts fail, retires the pages that were listed before step 4 at that step, starts the master
distributor at step 5, and leaves the device ready at the end of step 6. A failure of Rililo's own stops it with code 7. -/
def Sys2Proof.Claims.BringUpCompletes : Prop :=
  ∀ (s : State) (b : BringUp), s.pkg.powered = true → s.ready = false → s.pkg.status[30] = false →
    let step := s.pkg.status.toNat % 16
    let runs (n : Nat) (t : State) : Prop := t.pkg.status.extractLsb' 0 8 = BitVec.ofNat 8 n ∧ t.ready = false ∧ t.pkg.status[30] = false ∧
      Turn.hw (.powerGood b) ∈ t.agenda ++ t.later
    (step = 0 → ∃ t, exec (.powerGood b) s = .next t ∧ runs 1 t) ∧
    (step = 1 →
      (b.keyOk = false → ∃ t, exec (.powerGood b) s = .next t ∧ t.pkg.status = 0x40000001#32 ∧ t.pkg.failure = 2) ∧
      (b.keyOk = true → b.sigOk = false → ∃ t, exec (.powerGood b) s = .next t ∧ t.pkg.status = 0x40000001#32 ∧ t.pkg.failure = 1) ∧
      (b.keyOk = true → b.sigOk = true → ∃ t, exec (.powerGood b) s = .next t ∧ runs 2 t)) ∧
    (2 ≤ step → step < 6 → b.internal = false → ∃ t, exec (.powerGood b) s = .next t ∧ runs (step + 1) t ∧ t.mem = s.mem ∧
      t.pkg.deadDies = (if step = 3 then ((b.badStacks.map (· / 2)) ++ b.badFabric ++ b.badDies).eraseDups else s.pkg.deadDies) ∧
      (∀ d < 4, t.pkg.status[16 + d]! = (3 ≤ step && !t.pkg.deadDies.contains d)) ∧
      (∀ g, g ∈ t.pkg.retireList ↔ g ∈ s.pkg.retireList ∨ (step = 4 ∧ g ∈ s.pkg.retireHeld)) ∧
      (step = 4 → t.pkg.retireHeld = []) ∧ (step = 5 → t.cmd.master = true)) ∧
    (step = 6 → b.internal = false → ∃ t, exec (.powerGood b) s = .next t ∧ t.ready = true ∧ t.pkg.status.extractLsb' 0 8 = 6 ∧
      (∀ d < 4, t.pkg.status[16 + d]! = !s.pkg.deadDies.contains d) ∧ t.pkg.deadDies = s.pkg.deadDies ∧
      t.cmd.master = !s.pkg.deadDies.isEmpty ∧ (∀ i < 16, (t.pkg.ports.getD i Port.reset).up = !b.badPorts.contains i) ∧ t.mem = s.mem) ∧
    (step = 6 → b.internal = true → ∃ t, exec (.powerGood b) s = .next t ∧ t.ready = false ∧ t.pkg.status[30] = true ∧ t.pkg.failure = 7 ∧
      t.pkg.status.extractLsb' 0 8 = 6)

/-- R380 to R383: power. How long a step of bring-up takes, and the watts of the margin, are the model's (log 40). -/
def Obligations.PowerStepsComplete : Prop :=
  PowerStatesComplete ∧ BringUpCompletes


/-! ## Streams, launches and the mailbox -/

/-- R302 to R304: WAITMEM watches its word and then reads it, and ends when its condition holds; a watched word's write leads to another look; WRITEMEM
ends when its write is performed; FENCE when the stream's earlier launches have finished and their writes are performed. -/
def Sys2Proof.Claims.WaitingCommandsComplete : Prop :=
  ∀ (s u : State) (n k w : Nat) (d : StreamDesc), CommandRuns s n d k w u →
    let va := field w 0x10 16
    let size := if bits (field w 4 1) 2 1 = 1 then 8 else 4
    (∀ v y, field w 0 1 = 4 → va % size = 0 →
      let p := u.cpWatch d.context va
      let z := p.2.modStream n fun t => { t with started := true, watch := p.1 }
      z.cpRead d.context n k va size = (.val v, y) →
      (waitmemHolds w v = true → exec (.cmdWaitmem n) s = .next ((y.finishCmd n).endLook n)) ∧
      (waitmemHolds w v = false →
        exec (.cmdWaitmem n) s = .next ((if p.1.any (· < peerKey) then y else y.defer (.hw (.cmdWaitmem n))).endLook n))) ∧
    exec (.waitmemRecheck n) s = .next ((u.post (.hw (cmdStep (field w 0 1) n))).endLook n) ∧
    (∀ y g, field w 0 1 = 5 → va % size = 0 → (u.stream n).started = false →
      u.cpWrite d.context n k va (bytesOf size (field w 0x28 8)) = (.val g, y) →
      let z := y.modStream n fun t => { t with started := true }
      z.opWriting (cpId n) = false → exec (.cmdWritemem n) s = .next ((z.finishCmd n).endLook n)) ∧
    (field w 0 1 = 6 → (∀ l ∈ u.cmd.launches.vals, l.stream = n → l.phase = .finished) →
      (∀ r ∈ u.coh.remote.vals, ∀ e, r.eff = some e → e.ctx ≠ d.context) →
      exec (.cmdFence n) s = .next (((u.flushDies fun x => x.writer == .ctx d.context).finishCmd n).endLook n))

/-- R292, R299, R302: COPY and COLL enter an operation of the stream with the entries that their handles name, and the stream waits for it;
BIAS puts its pages under a flip. -/
def Sys2Proof.Claims.EngineCommandsComplete : Prop :=
  ∀ (s u : State) (n k w : Nat) (d : StreamDesc), CommandRuns s n d k w u → (u.stream n).started = false →
    (∀ a b ed es x y, entryVa (u.regsOf d.context) (field w 8 2) = some a → u.cpRead d.context n k a 64 = (.val ed, x) →
      entryVa (x.regsOf d.context) (field w 0xa 2) = some b → x.cpRead d.context n k b 64 = (.val es, y) →
      (field w 0 1 = 2 → ∃ (t : State) (o : CopyOp), exec (.cmdCopy n) s = .next t ∧ t.eng.copyOps = y.eng.copyOps ++ [o] ∧ o.ed = ed ∧ o.dVa = a ∧ o.es = es ∧ o.sVa = b ∧
        o.engine = none ∧ o.tr = (field w 4 1 % 2 == 1) ∧ o.prog = 0 ∧ o.comp = cmdCompletion w ∧ o.at' = streamAttr d.context n k ∧ (t.stream n).started = true ∧
        (t.stream n).op = some o.id ∧ t.mem = y.mem) ∧
      (field w 0 1 = 3 → u.collRoom ≠ 0 → ∃ (t : State) (o : CollOp), exec (.cmdColl n) s = .next t ∧ t.eng.collOps = y.eng.collOps ++ [o] ∧ o.ed = ed ∧ o.dVa = a ∧ o.es = es ∧
        o.sVa = b ∧ o.comm = field w 0xc 1 ∧ o.root = field w 0xe 2 ∧ o.started = false ∧ o.comp = cmdCompletion w ∧
        o.at' = streamAttr d.context n k ∧ (t.stream n).started = true ∧ (t.stream n).op = some o.id ∧ t.mem = y.mem)) ∧
    (∀ ps y, field w 0 1 = 7 → field w 0x10 16 % 65536 = 0 → u.biasPages d n k (field w 0x10 16) (field w 0x20 4) = (some ps, y) → ps ≠ [] →
      ∃ t, exec (.cmdBias n) s = .next t ∧
        t.coh.flips = y.coh.flips ++ ps.eraseDups.map (fun p => Flip.mk p (field w 4 1 % 2 == 1) [] (some n)) ∧
        t.agenda = y.agenda ++ ps.eraseDups.map (fun p => Turn.hw (if field w 4 1 % 2 = 1 then Instr.biasFlipToHost p else Instr.biasFlipToDevice p)) ∧
        t.mem = y.mem)

/-- R301, R303: a tail is watched and then read; one that has moved is taken up and the stream's next command is started: the highest priority first, a tie
to the lower number; a command that is malformed stops its stream. -/
def Sys2Proof.Claims.StreamStepsComplete : Prop :=
  (∀ (s a b : State) (n tail head : Nat) (d : StreamDesc), s.streamDesc n = some d → s.served n = true →
    let p := s.cpWatch d.context d.tail
    let w := p.2.modStream n fun t => { t with tailPa := p.1 }
    w.cpRead d.context n (w.stream n).head d.tail 4 = (.val tail, a) →
    (if (a.stream n).cmd.isSome then (.val (a.stream n).head, a) else a.cpRead d.context n (a.stream n).head d.head 4) = (.val head, b) →
    let u := (b.endLook n).modStream n fun t => { t with head := head, tail := tail }
    exec (.tailWake n) s = .next (if (tail + 2 ^ 32 - head) % 2 ^ 32 > 2 ^ d.size then u.stopStream d.context n head .illfield d.tail
      else if tail = head then u else u.post (.hw .streamCommandStart))) ∧
  (∀ (s u : State) (n w : Nat) (d : StreamDesc) (rest : List (Nat × StreamDesc)), (∀ e ∈ s.cmd.streams, e.2.done = false) →
    s.readyStreams = (n, d) :: rest → s.readCmd d n (s.stream n).head = (.val w, u) →
    (malformed w = none → exec .streamCommandStart s = .next (((u.endLook n).modStream n fun t =>
      { t with cmd := some (s.stream n).head, started := false, done := false }).post (.hw (cmdStep (field w 0 1) n)))) ∧
    (∀ cause, malformed w = some cause → exec .streamCommandStart s =
      .next ((u.endLook n).stopStream d.context n (s.stream n).head cause (d.ring + 64 * ((s.stream n).head % 2 ^ d.size)))) ∧
    (Map.rising 0 s.cmd.streams = true → ∀ e ∈ rest, e.2.priority < d.priority ∨ (e.2.priority = d.priority ∧ n < e.1)))

/-- R301 to R304: streams and their commands. Which cause a malformed command stops with is the model's reading (log 38). -/
def Obligations.StreamCommandsComplete : Prop :=
  WaitingCommandsComplete ∧ EngineCommandsComplete ∧ StreamStepsComplete

/-- R303, R305 to R308: LAUNCH reads its header and residency record; a launch that they refuse is refused with its status, and any other
takes the lowest free slot, has its counter stored, and looks at its wait list; the command ends when the counter reads zero. A launch
whose wait list reads zero becomes records; one whose crews have all ended finishes, and one that has finished writes its completion.
Which status a refusal has in the corners, and that a page in host bias whose leaves are to be stored comes back first, are the model's readings
(log 38). -/
def Obligations.LaunchesComplete : Prop :=
  (∀ (s u : State) (n k w : Nat) (d : StreamDesc), CommandRuns s n d k w u → field w 0 1 = 1 →
    (∀ a b h r, (u.stream n).started = false → field w 0x10 16 % 64 = 0 → u.cpRead d.context n k (field w 0x10 16) 256 = (.val h, a) →
      (headerBad h = true → exec (.cmdLaunch n) s = .next ((a.refuse d n k (field w 0x10 16) 1 h (.hw (.cmdLaunch n))).endLook n)) ∧
      (headerBad h = false → a.cpRead d.context n k (field h 0x30 16) 128 = (.val r, b) →
      (∀ slot, b.refusal d.context h r = none → (List.range 1024).find? (fun i => (b.cmd.launches.find i).isNone) = some slot →
        let l := newLaunch slot d.context n k b.nextId d.priority h r
        let c := { b with cmd := { b.cmd with launches := b.cmd.launches.insert slot l }, nextId := b.nextId + 1 }
        exec (.cmdLaunch n) s = .next (((((c.modStream n fun t => { t with started := true, op := some l.join }).storeJoin l).post
          (.hw (.launchWaitRelease slot))).defer (.hw (.cmdLaunch n))).endLook n)) ∧
      (∀ status, b.refusal d.context h r = some status → exec (.cmdLaunch n) s =
        .next ((b.refuse d n k (field w 0x10 16) status h (.hw (.cmdLaunch n))).endLook n)))) ∧
    (∀ join y, (u.stream n).started = true → (u.stream n).op = some join →
      (∀ l ∈ u.cmd.launches.vals, l.stream = n → l.cmd = k → l.joinSet = true) →
      let p := u.cpWatch d.context join
      (p.2.modStream n fun t => { t with watch := p.1 }).cpRead d.context n k join 4 = (.val 0, y) → exec (.cmdLaunch n) s = .next ((y.finishCmd n).endLook n))) ∧
  (∀ (s u : State) (slot : Nat) (l : Launch), s.cmd.launches.find slot = some l →
    (l.phase = .waiting → l.joinSet = true → (s.watchWaits l).readWaits l l.waits = (some true, u) →
      (∀ r ∈ u.recordsOf l, (u.cmd.records.filter (·.die == r.die)).length < 65792) →
      let v := u.endLook l.stream
      (v.crownReady (v.cowEntries l) = true → exec (.launchWaitRelease slot) s = .next (v.startLaunch l)) ∧
      (v.crownReady (v.cowEntries l) = false →
        exec (.launchWaitRelease slot) s = .next ((v.takeBack (v.cowEntries l)).defer (.hw (.launchWaitRelease slot))))) ∧
    (l.phase = .running → l.crews ≤ l.decremented →
      (s.crownReady (s.cowEntries l) = false →
        exec (.launchFinish slot) s = .next ((s.takeBack (s.cowEntries l)).defer (.hw (.launchFinish slot)))) ∧
      (s.crownReady (s.cowEntries l) = true →
        (l.shielded = false → exec (.launchFinish slot) s = .next (s.finishLaunch slot (if l.replayed then 4 else 0))) ∧
        (∀ x, l.shielded = true → s.ctxs.find l.ctx = some x →
          exec (.launchFinish slot) s = .next (((s.clearCow x slot).modLaunch slot fun l => { l with snapList := [] }).finishLaunch slot
            (if l.replayed then 4 else 0))))) ∧
    (l.phase = .finished → exec (.launchFinish slot) s = .next (s.completeLaunch slot)))

/-- R374: an answer writes the response register, clears the request, signals vector 0, and leaves in the response buffer the service number,
the payload's length, the sequence number, the status and the payload, which only a request that is done has. -/
def Sys2Proof.Claims.MailboxAnswers : Prop :=
  ∀ (s : State) (q : Word) (status : Nat) (payload : List Byte), payload.length ≤ 4080 → status < 2 ^ 32 →
    let body := if status = 0 then payload else []
    let t := s.respond q status payload
    t.pkg.response = q ∧ t.pkg.request = none ∧ t.pkg.msix = s.pkg.msix ++ [0] ∧
    natOf (t.pkg.respBuf.take 2) = s.pkg.reqField 0 2 % 65536 ∧ natOf ((t.pkg.respBuf.drop 2).take 2) = body.length ∧
    natOf ((t.pkg.respBuf.drop 4).take 4) = q.toNat ∧ natOf ((t.pkg.respBuf.drop 8).take 4) = status ∧
    (t.pkg.respBuf.drop 16).take body.length = body ∧ t.mem = s.mem ∧ t.ctxs = s.ctxs ∧ t.cmd = s.cmd ∧ t.crews = s.crews

/-- R374, R375: the services on the package: each does what its row says and is answered with status 0. -/
def Sys2Proof.Claims.PackageServicesComplete : Prop :=
  ∀ (s : State) (q : Word),
    let answers (i : Instr) (n k : Nat) (u : State) (payload : List Byte) : Prop := Asks s q n k → exec i s = .next (u.respond q 0 payload)
    answers .status 0x0001 0 s (bytesOf 4 s.pkg.status.toNat ++ bytesOf 4 s.pkg.failure.toNat ++ bytesOf 4 Config.rililoVersion.toNat ++
      bytesOf 4 s.pkg.event.toNat) ∧
    answers .eventack 0x0002 4 (s.modPkg fun p => { p with event := p.event &&& ~~~(BitVec.ofNat 32 (s.arg 0 4)) }) [] ∧
    (s.arg 1 3 = 0 → s.arg 0 1 < 8 →
      answers .slice 0x0013 8 (s.modPkg fun p => { p with slices := p.slices.set (s.arg 0 1) (s.arg 4 4) }) []) ∧
    ((∀ i < 36, s.arg i 1 < 8) →
      let late := (List.range 36).filter fun i => s.arg i 1 != s.pkg.clusterPart.getD i 0 && s.occupied i
      ∃ u, answers .partition 0x0020 36 u (bytesOf 8 ((late.map (2 ^ ·)).sum)) ∧
        (∀ i < 36, u.pkg.clusterPart.getD i 0 = if i ∈ late then s.pkg.clusterPart.getD i 0 else s.arg i 1) ∧
        u.pkg.partWait = late.map (fun i => (i, s.arg i 1)) ∧ u.mem = s.mem) ∧
    (s.arg 0 8 % 65536 = 0 → s.arg 0 8 + 65536 ≤ hbmEnd →
      let u := s.modCmd fun c => { c with streamTab := s.arg 0 8, streams := [] }
      answers .streamtab 0x0021 8 (u.postAll (((List.range 1024).filter u.served).map fun n => .hw (.tailWake n))) []) ∧
    (s.arg 3 5 = 0 → s.arg 0 1 < 32 → s.arg 1 1 < 16 →
      (s.arg 2 1 = 1 → answers .peerset 0x0023 24 (s.modPkg fun p =>
        { p with peers := p.peers.insert (s.arg 0 1) ⟨s.arg 1 1, s.arg 8 16, false⟩ }) []) ∧
      (s.arg 2 1 = 0 → answers .peerset 0x0023 24 (s.modPkg fun p => { p with peers := p.peers.erase (s.arg 0 1) }) [])) ∧
    (s.arg 2 2 = 0 →
      let v := BitVec.ofNat 32 (s.arg 4 4)
      (s.arg 0 1 = 0 → s.arg 1 1 < 36 →
        answers .tolerance 0x0025 8 (s.modPkg fun p => { p with tolCluster := p.tolCluster.set (s.arg 1 1) v }) []) ∧
      (s.arg 0 1 = 1 → s.arg 1 1 < 4 →
        answers .tolerance 0x0025 8 (s.modPkg fun p => { p with tolDie := p.tolDie.set (s.arg 1 1) v }) []) ∧
      (s.arg 0 1 = 2 → answers .tolerance 0x0025 8 (s.modPkg fun p => { p with tolPackage := v }) [])) ∧
    ((∀ i < 7, 1 ≤ s.arg i 1 ∧ s.arg i 1 ≤ 15) →
      answers .nocweight 0x0026 7 (s.modPkg fun p => { p with weights := (List.range 7).map fun i => s.arg i 1 }) []) ∧
    (∀ n, 8 * n ≤ 4080 → ∃ u, answers .retired 0x0027 (8 * n) u [] ∧ u.mem = s.mem ∧
      (s.ready = true ∨ 4 ≤ s.pkg.status.toNat % 16 → ∀ g, g ∈ u.pkg.retireList ↔ g ∈ s.pkg.retireList ∨ ∃ i < n, s.arg (8 * i) 8 = g) ∧
      (s.ready = false → s.pkg.status.toNat % 16 < 4 → u.pkg.retireList = s.pkg.retireList ∧
        u.pkg.retireHeld = s.pkg.retireHeld ++ (List.range n).map fun i => s.arg (8 * i) 8)) ∧
    answers .tables 0x0028 0 s (bytesOf 8 s.pkg.wvBase ++ bytesOf 8 s.pkg.biasBase ++ bytesOf 8 s.pkg.compBase) ∧
    answers .sleepreq 0x0029 0 (s.modPkg fun p => { p with sleepReq := true }) [] ∧
    (let body := bytesOf 48 (s.arg 0 48) ++ bytesOf 48 Config.imageDigest ++ bytesOf 48 (Config.setupDigest s.setup) ++
        bytesOf 4 Config.rililoVersion.toNat ++ bytesOf 4 Config.serial.toNat
     answers .attest 0x0030 48 s (body ++ bytesOf 96 (Config.signature (body.map (·.toNat)))))

/-- R220, R295, R313, R325, R339, R359, R375: the services on a context. -/
def Sys2Proof.Claims.ContextServicesComplete : Prop :=
  ∀ (s : State) (q : Word),
    let answers (i : Instr) (n k : Nat) (u : State) : Prop := Asks s q n k → exec i s = .next (u.respond q 0 [])
    let n := s.arg 0 2
    (let ring := s.arg 8 8
     let m := s.arg 4 1
     let v := s.arg 5 1
     s.arg 3 1 < 4 → s.arg 6 2 = 0 → s.arg 40 8 = 0 → n < 4096 → (∀ y, s.ctxs.find n = some y → y.alive = false) → s.arg 2 1 < 8 → 6 ≤ m → m ≤ 16 →
      v = 0 ∨ (2 ≤ v ∧ v ≤ 63) → ring % 64 = 0 → ring + 64 * 2 ^ m + 12 ≤ hbmEnd → s.arg 16 8 % 65536 = 0 →
      let x : Ctx :=
        { num := n, part := s.arg 2 1, privileged := s.arg 3 1 % 2 == 1, test := s.arg 3 1 / 2 == 1, grant := false, alive := true,
          regs := { SysRegs.reset with ptroot := BitVec.ofNat 64 (Nat.land (s.arg 32 8) (2 ^ 52 - 2 ^ 17)) }, ringBase := ring, ringM := m, saveBase := s.arg 16 8,
          saveSize := s.arg 24 8, vector := v, lost := false, records := [], waiting := [], comms := [], snapDesc := [],
          poolGone := [] }
      (s.crownReady [ring + 64 * 2 ^ m] = true →
        answers .ctxcreate 0x0010 48 (((s.perform (ring + 64 * 2 ^ m) (bytesOf 12 0) .external false).watchWords x).setCtx x)) ∧
      (s.crownReady [ring + 64 * 2 ^ m] = false → Asks s q 0x0010 48 →
        exec .ctxcreate s = .next ((s.takeBack [ring + 64 * 2 ^ m]).defer (.hw .ctxcreate)))) ∧
    ∀ x, s.ctxs.find n = some x →
      (let u := (s.endContext x.num).forgetAll fun e => e.ctx == x.num
       answers .ctxdestroy 0x0011 2 { u with ctxs := u.ctxs.erase x.num }) ∧
      (x.alive = true →
        (s.arg 2 1 < 2 → s.arg 3 5 = 0 →
          let crews := s.crews.vals.filter fun w => w.ctx == x.num && w.core.any (s.arg 8 36).testBit
          let out := if s.arg 2 1 = 1 then crews else s.saveable crews 0
          let t := s.postAll (out.map fun w => .hw (.preemptCrew w.id (s.arg 2 1 == 1)))
          (out.length = crews.length → answers .preempt 0x0012 44 t) ∧
          (out.length < crews.length → Asks s q 0x0012 44 → exec .preempt s = .next (t.respond q 4 []))) ∧
        (s.arg 2 6 = 0 →
          let root := BitVec.ofNat 64 (Nat.land (s.arg 8 8) (2 ^ 52 - 2 ^ 17))
          answers .ptroot 0x0014 16 ((s.dropRoot x.num root).modCtx x.num fun x => { x with regs := { x.regs with ptroot := root } })) ∧
        (s.arg 2 1 < 2 → s.arg 3 1 = 0 →
          answers .testenable 0x0015 4 (s.modCtx x.num fun x => { x with test := s.arg 2 1 == 1 })) ∧
        (let g := s.arg 3 1
         let m := s.arg 4 1
         let own := s.arg 5 1
         let peers := (List.range (g * m)).map fun i => s.arg (8 + i) 1
         s.arg 6 2 = 0 → s.arg 2 1 < 64 → 1 ≤ g → g ≤ 17 → 2 ≤ m → m ≤ 17 → own < g * m →
          (∀ i < g * m, if i = own then s.arg (8 + i) 1 = 0xff else s.pkg.peers.find (s.arg (8 + i) 1) ≠ none) →
          let k : Comm := ⟨g, m, own, peers, peers.any fun i => (s.pkg.peers.find i).any (·.lost)⟩
          answers .commcreate 0x0022 (8 + g * m) (s.modCtx x.num fun x => { x with comms := x.comms.insert (s.arg 2 1) k })) ∧
        (snapStatus (s.arg 2 256) = 0 → answers .snapdesc 0x0024 258 (s.modCtx x.num fun x =>
          { x with snapDesc := bytesOf 256 (s.arg 2 256), poolGone := [] })))

/-- R374, R375: the mailbox and its services. Status 4 of PREEMPT, and that a ring in host bias comes back before its context is
made, are the model's readings (log 51, log 38); that STREAMTAB puts every stream back to its start, and that pages of RETIRED before step 4 are held
for it, are log 39. -/
def Obligations.MailboxServicesComplete : Prop :=
  MailboxAnswers ∧ PackageServicesComplete ∧ ContextServicesComplete

/-- R374, R375: a number that the table does not give is answered with status 1; every service before its stage with 5; every service whose message
has the wrong length or sequence, or a field that is not 0, with 2; and every service with an argument out of its range with 3. Statuses of nonzero unnamed
bytes and of numbers before the stage are the model's reading (log 39); a context's ring in host bias comes back before CTXCREATE is answered (log 38). -/
def Obligations.RequestsAreRefused : Prop :=
  ∀ (s : State) (q : Word), s.pkg.request = some q →
    let n := s.pkg.reqField 0 2
    let k := s.pkg.reqField 2 2
    (n ∉ serviceNumbers → exec .mailboxUnknownService s = .next (s.respond q (if s.ready then 1 else 5) [])) ∧
    (n ∈ serviceNumbers → (n = 0x0010 → s.arg 8 8 + 64 * 2 ^ s.arg 4 1 < hbmEnd → s.crownReady [s.arg 8 8 + 64 * 2 ^ s.arg 4 1] = true) →
      let refusedWith (status : Nat) : Prop := exec (serviceStep n) s = .next (s.respond q status [])
      let early := s.ready = false ∧ n ≠ 0x0001 ∧ n ≠ 0x0030 ∧ (n = 0x0027 → s.pkg.status.toNat % 16 < 2)
      (early → refusedWith 5) ∧
      (¬early →
        (¬lengthFits s n k ∨ s.pkg.reqField 4 4 ≠ q.toNat ∨ s.pkg.reqField 8 8 ≠ 0 → refusedWith 2) ∧
        (lengthFits s n k → s.pkg.reqField 4 4 = q.toNat → s.pkg.reqField 8 8 = 0 →
          (strayBits s n → refusedWith 2) ∧ (¬strayBits s n → outOfRange s n → refusedWith 3))))
end

