-- ==== Sys2Proof/Laws/Maps.lean ====
section
/-! SUPPORT. The laws of the sparse tables: reading behind a write, and the canonical form. They hold of every list, in canonical form
or not. -/

namespace Sys2Proof.Machine

variable {α : Type}

/-! ## Reading behind a write -/

@[simp] theorem Map.find_nil (k : Nat) : Map.find ([] : Map α) k = none := rfl

@[simp] theorem Map.find_insert_self (m : Map α) (k : Nat) (w : α) : (Map.insert m k w).find k = some w := by
  induction m with
  | nil => simp [Map.insert, Map.find]
  | cons e m ih =>
    obtain ⟨j, v⟩ := e
    simp only [Map.insert]
    split_ifs with h1 h2
    · simp [Map.find]
    · simp [Map.find]
    · simp [Map.find, h2, ih]

theorem Map.find_insert_ne (m : Map α) {k k' : Nat} (w : α) (h : k' ≠ k) : (Map.insert m k w).find k' = m.find k' := by
  induction m with
  | nil => simp [Map.insert, Map.find, h.symm]
  | cons e m ih =>
    obtain ⟨j, v⟩ := e
    simp only [Map.insert]
    split_ifs with h1 h2
    · simp [Map.find, h.symm]
    · subst h2; simp [Map.find, h.symm]
    · simp only [Map.find, ih]

@[simp] theorem Map.find_erase_self (m : Map α) (k : Nat) : (Map.erase m k).find k = none := by
  induction m with
  | nil => rfl
  | cons e m ih =>
    obtain ⟨j, v⟩ := e
    simp only [Map.erase]
    split_ifs with h
    · exact ih
    · simp [Map.find, h, ih]

theorem Map.find_erase_ne (m : Map α) {k k' : Nat} (h : k' ≠ k) : (Map.erase m k).find k' = m.find k' := by
  induction m with
  | nil => rfl
  | cons e m ih =>
    obtain ⟨j, v⟩ := e
    simp only [Map.erase]
    split_ifs with h1
    · subst h1; simp [Map.find, h.symm, ih]
    · simp only [Map.find, ih]

@[simp] theorem Map.get_set_self [DecidableEq α] (m : Map α) (d : α) (k : Nat) (w : α) : (Map.set m d k w).get d k = w := by
  unfold Map.set Map.get
  split_ifs with h
  · simp [h]
  · simp

theorem Map.get_set_ne [DecidableEq α] (m : Map α) (d : α) {k k' : Nat} (w : α) (h : k' ≠ k) :
    (Map.set m d k w).get d k' = m.get d k' := by
  unfold Map.set Map.get
  split_ifs with h1
  · rw [Map.find_erase_ne m h]
  · rw [Map.find_insert_ne m w h]

@[simp] theorem Map.find_modify_self (m : Map α) (k : Nat) (f : α → α) : (Map.modify m k f).find k = (m.find k).map f := by
  induction m with
  | nil => rfl
  | cons e m ih =>
    obtain ⟨j, v⟩ := e
    simp only [Map.modify, List.map_cons] at ih ⊢
    by_cases h : j = k
    · simp [Map.find, h]
    · simp only [Map.find, h, if_false]; exact ih

theorem Map.find_modify_ne (m : Map α) {k k' : Nat} (f : α → α) (h : k' ≠ k) : (Map.modify m k f).find k' = m.find k' := by
  induction m with
  | nil => rfl
  | cons e m ih =>
    obtain ⟨j, v⟩ := e
    simp only [Map.modify, List.map_cons] at ih ⊢
    by_cases h1 : j = k
    · subst h1; simp only [if_true, Map.find, h.symm, if_false]; exact ih
    · simp only [h1, if_false, Map.find]; split_ifs <;> [rfl; exact ih]

/-! ## The canonical form -/

theorem Map.rising_mono {m : Map α} {lo hi : Nat} (hl : lo ≤ hi) (h : Map.rising hi m = true) : Map.rising lo m = true := by
  cases m with
  | nil => rfl
  | cons e m => obtain ⟨j, v⟩ := e; simp [Map.rising] at h ⊢; exact ⟨by omega, h.2⟩

theorem Map.rising_erase {m : Map α} {lo : Nat} (k : Nat) (h : Map.rising lo m = true) : Map.rising lo (Map.erase m k) = true := by
  induction m generalizing lo with
  | nil => rfl
  | cons e m ih =>
    obtain ⟨j, v⟩ := e
    simp [Map.rising] at h
    simp only [Map.erase]
    split_ifs
    · exact ih (Map.rising_mono (by omega) h.2)
    · simp [Map.rising, h.1, ih h.2]

theorem Map.rising_insert {m : Map α} {lo k : Nat} (w : α) (hk : lo ≤ k) (h : Map.rising lo m = true) :
    Map.rising lo (Map.insert m k w) = true := by
  induction m generalizing lo with
  | nil => simp [Map.insert, Map.rising, hk]
  | cons e m ih =>
    obtain ⟨j, v⟩ := e
    simp [Map.rising] at h
    simp only [Map.insert]
    split_ifs with h1 h2
    · simp [Map.rising, hk]; exact ⟨by omega, h.2⟩
    · subst h2; simp [Map.rising, hk, h.2]
    · simp [Map.rising, h.1]; exact ih (by omega) h.2

theorem Map.mem_insert {m : Map α} {k : Nat} {w : α} {e : Nat × α} (h : e ∈ Map.insert m k w) : e = (k, w) ∨ e ∈ m := by
  induction m with
  | nil => simpa [Map.insert] using h
  | cons x m ih =>
    obtain ⟨j, v⟩ := x
    simp only [Map.insert] at h
    split_ifs at h <;> simp only [List.mem_cons] at h ⊢ <;> tauto

theorem Map.mem_erase {m : Map α} {k : Nat} {e : Nat × α} (h : e ∈ Map.erase m k) : e ∈ m := by
  induction m with
  | nil => exact h
  | cons x m ih =>
    obtain ⟨j, v⟩ := x
    simp only [Map.erase] at h
    split_ifs at h <;> simp only [List.mem_cons] at h ⊢ <;> tauto

/-- Setting a value keeps the canonical form. -/
theorem Map.wf_set [DecidableEq α] {m : Map α} {d : α} (k : Nat) (w : α) (h : Map.wf m d = true) :
    Map.wf (Map.set m d k w) d = true := by
  simp only [Map.wf, Bool.and_eq_true, List.all_eq_true, decide_eq_true_eq] at h ⊢
  unfold Map.set
  split_ifs with hw
  · exact ⟨Map.rising_erase k h.1, fun e he => h.2 e (Map.mem_erase he)⟩
  · refine ⟨Map.rising_insert w (Nat.zero_le k) h.1, fun e he => ?_⟩
    rcases Map.mem_insert he with rfl | he
    · exact hw
    · exact h.2 e he

end Sys2Proof.Machine
end

