-- ==== Sys2Proof/Laws/Memory.lean ====
section
/-! SUPPORT. The laws of memory: reading behind a write, and the canonical form, which every operation on memory keeps. -/

namespace Sys2Proof.Machine

@[simp] theorem Memory.read_write_self (m : Memory) (a : Nat) (b : Byte) : (m.write a b).read a = b := Map.get_set_self _ _ _ _

theorem Memory.read_write_ne (m : Memory) {a a' : Nat} (b : Byte) (h : a' ≠ a) : (m.write a b).read a' = m.read a' :=
  Map.get_set_ne _ _ _ h

theorem Memory.write_wf {m : Memory} (a : Nat) (b : Byte) (h : m.wf = true) : (m.write a b).wf = true := Map.wf_set _ _ h

/-- Every write of bytes keeps the canonical form. -/
theorem Memory.writeBytes_wf {m : Memory} (a : Nat) (bs : List Byte) (h : m.wf = true) : (m.writeBytes a bs).wf = true := by
  induction bs generalizing m a with
  | nil => exact h
  | cons b bs ih => exact ih (a + 1) (Memory.write_wf a b h)

/-- A byte outside the bytes written reads as before. -/
theorem Memory.read_writeBytes_outside (m : Memory) (a : Nat) (bs : List Byte) {a' : Nat} (h : a' < a ∨ a + bs.length ≤ a') :
    (m.writeBytes a bs).read a' = m.read a' := by
  induction bs generalizing m a with
  | nil => rfl
  | cons b bs ih =>
    simp only [List.length_cons] at h
    rw [Memory.writeBytes, ih _ _ (by omega), Memory.read_write_ne _ _ (by omega)]

/-- A byte of those written reads as it was written. -/
theorem Memory.read_writeBytes_inside (m : Memory) (a : Nat) (bs : List Byte) {i : Nat} (h : i < bs.length) :
    (m.writeBytes a bs).read (a + i) = bs[i] := by
  induction bs generalizing m a i with
  | nil => simp at h
  | cons b bs ih =>
    cases i with
    | zero => rw [Memory.writeBytes, Memory.read_writeBytes_outside _ _ _ (by omega)]; simp
    | succ i =>
      have h' : i < bs.length := by simpa using h
      have := ih (m.write a b) (a + 1) h'
      rw [Memory.writeBytes, show a + (i + 1) = a + 1 + i by omega, this]; simp

@[simp] theorem Memory.length_readBytes (m : Memory) (a n : Nat) : (m.readBytes a n).length = n := by
  induction n generalizing a with
  | zero => rfl
  | succ n ih => simp [Memory.readBytes, ih]

/-- Reading the bytes just written gives them. -/
theorem Memory.readBytes_writeBytes (m : Memory) (a : Nat) (bs : List Byte) : (m.writeBytes a bs).readBytes a bs.length = bs := by
  have gen : ∀ (k : Memory) (a n : Nat) (cs : List Byte), cs.length = n → (∀ i (h : i < cs.length), k.read (a + i) = cs[i]) →
      k.readBytes a n = cs := by
    intro k a n
    induction n generalizing a with
    | zero => intro cs hc _; rw [List.length_eq_zero_iff.mp hc]; rfl
    | succ n ih =>
      intro cs hc h
      match cs with
      | c :: cs =>
        have h0 := h 0 (by simp)
        simp at hc
        rw [Memory.readBytes, ih (a + 1) cs hc (fun i hi => ?_)]
        · simpa using h0
        · have := h (i + 1) (by simpa using hi)
          rw [show a + 1 + i = a + (i + 1) by omega]; simpa using this
  exact gen _ _ _ _ rfl fun i h => Memory.read_writeBytes_inside m a bs h

/-- Memory after reset is canonical, and so is memory with a word placed. -/
theorem State.reset_mem_wf : State.reset.mem.wf = true := rfl

end Sys2Proof.Machine
end

