-- ==== Sys2Proof/Laws/State.lean ====
section
/-! SUPPORT. What each named update of the state leaves in each field: one lemma a field, true by definition, so that no proof unfolds a
record update. -/

namespace Sys2Proof.Machine

/-! ## State.post -/

@[simp] theorem State.post_clock (s : State) (t : Turn) : (s.post t).clock = s.clock := rfl
@[simp] theorem State.post_free (s : State) (t : Turn) : (s.post t).free = s.free := rfl
@[simp] theorem State.post_nextId (s : State) (t : Turn) : (s.post t).nextId = s.nextId := rfl
@[simp] theorem State.post_agenda (s : State) (t : Turn) : (s.post t).agenda = s.agenda ++ [t] := rfl
@[simp] theorem State.post_later (s : State) (t : Turn) : (s.post t).later = s.later := rfl
@[simp] theorem State.post_cur (s : State) (t : Turn) : (s.post t).cur = s.cur := rfl
@[simp] theorem State.post_vreg (s : State) (t : Turn) : (s.post t).vreg = s.vreg := rfl
@[simp] theorem State.post_preg (s : State) (t : Turn) : (s.post t).preg = s.preg := rfl
@[simp] theorem State.post_kreg (s : State) (t : Turn) : (s.post t).kreg = s.kreg := rfl
@[simp] theorem State.post_tiles (s : State) (t : Turn) : (s.post t).tiles = s.tiles := rfl
@[simp] theorem State.post_spad (s : State) (t : Turn) : (s.post t).spad = s.spad := rfl
@[simp] theorem State.post_segs (s : State) (t : Turn) : (s.post t).segs = s.segs := rfl
@[simp] theorem State.post_threads (s : State) (t : Turn) : (s.post t).threads = s.threads := rfl
@[simp] theorem State.post_crews (s : State) (t : Turn) : (s.post t).crews = s.crews := rfl
@[simp] theorem State.post_cohorts (s : State) (t : Turn) : (s.post t).cohorts = s.cohorts := rfl
@[simp] theorem State.post_ctxs (s : State) (t : Turn) : (s.post t).ctxs = s.ctxs := rfl
@[simp] theorem State.post_mem (s : State) (t : Turn) : (s.post t).mem = s.mem := rfl
@[simp] theorem State.post_coh (s : State) (t : Turn) : (s.post t).coh = s.coh := rfl
@[simp] theorem State.post_cores (s : State) (t : Turn) : (s.post t).cores = s.cores := rfl
@[simp] theorem State.post_eng (s : State) (t : Turn) : (s.post t).eng = s.eng := rfl
@[simp] theorem State.post_cmd (s : State) (t : Turn) : (s.post t).cmd = s.cmd := rfl
@[simp] theorem State.post_pkg (s : State) (t : Turn) : (s.post t).pkg = s.pkg := rfl

/-! ## State.urge -/

@[simp] theorem State.urge_clock (s : State) (t : Turn) : (s.urge t).clock = s.clock := rfl
@[simp] theorem State.urge_free (s : State) (t : Turn) : (s.urge t).free = s.free := rfl
@[simp] theorem State.urge_nextId (s : State) (t : Turn) : (s.urge t).nextId = s.nextId := rfl
@[simp] theorem State.urge_agenda (s : State) (t : Turn) : (s.urge t).agenda = t :: s.agenda := rfl
@[simp] theorem State.urge_later (s : State) (t : Turn) : (s.urge t).later = s.later := rfl
@[simp] theorem State.urge_cur (s : State) (t : Turn) : (s.urge t).cur = s.cur := rfl
@[simp] theorem State.urge_vreg (s : State) (t : Turn) : (s.urge t).vreg = s.vreg := rfl
@[simp] theorem State.urge_preg (s : State) (t : Turn) : (s.urge t).preg = s.preg := rfl
@[simp] theorem State.urge_kreg (s : State) (t : Turn) : (s.urge t).kreg = s.kreg := rfl
@[simp] theorem State.urge_tiles (s : State) (t : Turn) : (s.urge t).tiles = s.tiles := rfl
@[simp] theorem State.urge_spad (s : State) (t : Turn) : (s.urge t).spad = s.spad := rfl
@[simp] theorem State.urge_segs (s : State) (t : Turn) : (s.urge t).segs = s.segs := rfl
@[simp] theorem State.urge_threads (s : State) (t : Turn) : (s.urge t).threads = s.threads := rfl
@[simp] theorem State.urge_crews (s : State) (t : Turn) : (s.urge t).crews = s.crews := rfl
@[simp] theorem State.urge_cohorts (s : State) (t : Turn) : (s.urge t).cohorts = s.cohorts := rfl
@[simp] theorem State.urge_ctxs (s : State) (t : Turn) : (s.urge t).ctxs = s.ctxs := rfl
@[simp] theorem State.urge_mem (s : State) (t : Turn) : (s.urge t).mem = s.mem := rfl
@[simp] theorem State.urge_coh (s : State) (t : Turn) : (s.urge t).coh = s.coh := rfl
@[simp] theorem State.urge_cores (s : State) (t : Turn) : (s.urge t).cores = s.cores := rfl
@[simp] theorem State.urge_eng (s : State) (t : Turn) : (s.urge t).eng = s.eng := rfl
@[simp] theorem State.urge_cmd (s : State) (t : Turn) : (s.urge t).cmd = s.cmd := rfl
@[simp] theorem State.urge_pkg (s : State) (t : Turn) : (s.urge t).pkg = s.pkg := rfl

/-! ## State.defer -/

@[simp] theorem State.defer_clock (s : State) (t : Turn) : (s.defer t).clock = s.clock := rfl
@[simp] theorem State.defer_free (s : State) (t : Turn) : (s.defer t).free = s.free := rfl
@[simp] theorem State.defer_nextId (s : State) (t : Turn) : (s.defer t).nextId = s.nextId := rfl
@[simp] theorem State.defer_agenda (s : State) (t : Turn) : (s.defer t).agenda = s.agenda := rfl
@[simp] theorem State.defer_later (s : State) (t : Turn) : (s.defer t).later = s.later ++ [t] := rfl
@[simp] theorem State.defer_cur (s : State) (t : Turn) : (s.defer t).cur = s.cur := rfl
@[simp] theorem State.defer_vreg (s : State) (t : Turn) : (s.defer t).vreg = s.vreg := rfl
@[simp] theorem State.defer_preg (s : State) (t : Turn) : (s.defer t).preg = s.preg := rfl
@[simp] theorem State.defer_kreg (s : State) (t : Turn) : (s.defer t).kreg = s.kreg := rfl
@[simp] theorem State.defer_tiles (s : State) (t : Turn) : (s.defer t).tiles = s.tiles := rfl
@[simp] theorem State.defer_spad (s : State) (t : Turn) : (s.defer t).spad = s.spad := rfl
@[simp] theorem State.defer_segs (s : State) (t : Turn) : (s.defer t).segs = s.segs := rfl
@[simp] theorem State.defer_threads (s : State) (t : Turn) : (s.defer t).threads = s.threads := rfl
@[simp] theorem State.defer_crews (s : State) (t : Turn) : (s.defer t).crews = s.crews := rfl
@[simp] theorem State.defer_cohorts (s : State) (t : Turn) : (s.defer t).cohorts = s.cohorts := rfl
@[simp] theorem State.defer_ctxs (s : State) (t : Turn) : (s.defer t).ctxs = s.ctxs := rfl
@[simp] theorem State.defer_mem (s : State) (t : Turn) : (s.defer t).mem = s.mem := rfl
@[simp] theorem State.defer_coh (s : State) (t : Turn) : (s.defer t).coh = s.coh := rfl
@[simp] theorem State.defer_cores (s : State) (t : Turn) : (s.defer t).cores = s.cores := rfl
@[simp] theorem State.defer_eng (s : State) (t : Turn) : (s.defer t).eng = s.eng := rfl
@[simp] theorem State.defer_cmd (s : State) (t : Turn) : (s.defer t).cmd = s.cmd := rfl
@[simp] theorem State.defer_pkg (s : State) (t : Turn) : (s.defer t).pkg = s.pkg := rfl

/-! ## State.postAll -/

@[simp] theorem State.postAll_clock (s : State) (ts : List Turn) : (s.postAll ts).clock = s.clock := rfl
@[simp] theorem State.postAll_free (s : State) (ts : List Turn) : (s.postAll ts).free = s.free := rfl
@[simp] theorem State.postAll_nextId (s : State) (ts : List Turn) : (s.postAll ts).nextId = s.nextId := rfl
@[simp] theorem State.postAll_agenda (s : State) (ts : List Turn) : (s.postAll ts).agenda = s.agenda ++ ts := rfl
@[simp] theorem State.postAll_later (s : State) (ts : List Turn) : (s.postAll ts).later = s.later := rfl
@[simp] theorem State.postAll_cur (s : State) (ts : List Turn) : (s.postAll ts).cur = s.cur := rfl
@[simp] theorem State.postAll_vreg (s : State) (ts : List Turn) : (s.postAll ts).vreg = s.vreg := rfl
@[simp] theorem State.postAll_preg (s : State) (ts : List Turn) : (s.postAll ts).preg = s.preg := rfl
@[simp] theorem State.postAll_kreg (s : State) (ts : List Turn) : (s.postAll ts).kreg = s.kreg := rfl
@[simp] theorem State.postAll_tiles (s : State) (ts : List Turn) : (s.postAll ts).tiles = s.tiles := rfl
@[simp] theorem State.postAll_spad (s : State) (ts : List Turn) : (s.postAll ts).spad = s.spad := rfl
@[simp] theorem State.postAll_segs (s : State) (ts : List Turn) : (s.postAll ts).segs = s.segs := rfl
@[simp] theorem State.postAll_threads (s : State) (ts : List Turn) : (s.postAll ts).threads = s.threads := rfl
@[simp] theorem State.postAll_crews (s : State) (ts : List Turn) : (s.postAll ts).crews = s.crews := rfl
@[simp] theorem State.postAll_cohorts (s : State) (ts : List Turn) : (s.postAll ts).cohorts = s.cohorts := rfl
@[simp] theorem State.postAll_ctxs (s : State) (ts : List Turn) : (s.postAll ts).ctxs = s.ctxs := rfl
@[simp] theorem State.postAll_mem (s : State) (ts : List Turn) : (s.postAll ts).mem = s.mem := rfl
@[simp] theorem State.postAll_coh (s : State) (ts : List Turn) : (s.postAll ts).coh = s.coh := rfl
@[simp] theorem State.postAll_cores (s : State) (ts : List Turn) : (s.postAll ts).cores = s.cores := rfl
@[simp] theorem State.postAll_eng (s : State) (ts : List Turn) : (s.postAll ts).eng = s.eng := rfl
@[simp] theorem State.postAll_cmd (s : State) (ts : List Turn) : (s.postAll ts).cmd = s.cmd := rfl
@[simp] theorem State.postAll_pkg (s : State) (ts : List Turn) : (s.postAll ts).pkg = s.pkg := rfl

/-! ## State.setThread -/

@[simp] theorem State.setThread_clock (s : State) (t : Thread) : (s.setThread t).clock = s.clock := rfl
@[simp] theorem State.setThread_free (s : State) (t : Thread) : (s.setThread t).free = s.free := rfl
@[simp] theorem State.setThread_nextId (s : State) (t : Thread) : (s.setThread t).nextId = s.nextId := rfl
@[simp] theorem State.setThread_agenda (s : State) (t : Thread) : (s.setThread t).agenda = s.agenda := rfl
@[simp] theorem State.setThread_later (s : State) (t : Thread) : (s.setThread t).later = s.later := rfl
@[simp] theorem State.setThread_cur (s : State) (t : Thread) : (s.setThread t).cur = s.cur := rfl
@[simp] theorem State.setThread_vreg (s : State) (t : Thread) : (s.setThread t).vreg = s.vreg := rfl
@[simp] theorem State.setThread_preg (s : State) (t : Thread) : (s.setThread t).preg = s.preg := rfl
@[simp] theorem State.setThread_kreg (s : State) (t : Thread) : (s.setThread t).kreg = s.kreg := rfl
@[simp] theorem State.setThread_tiles (s : State) (t : Thread) : (s.setThread t).tiles = s.tiles := rfl
@[simp] theorem State.setThread_spad (s : State) (t : Thread) : (s.setThread t).spad = s.spad := rfl
@[simp] theorem State.setThread_segs (s : State) (t : Thread) : (s.setThread t).segs = s.segs := rfl
@[simp] theorem State.setThread_threads (s : State) (t : Thread) : (s.setThread t).threads = s.threads.insert t.id t := rfl
@[simp] theorem State.setThread_crews (s : State) (t : Thread) : (s.setThread t).crews = s.crews := rfl
@[simp] theorem State.setThread_cohorts (s : State) (t : Thread) : (s.setThread t).cohorts = s.cohorts := rfl
@[simp] theorem State.setThread_ctxs (s : State) (t : Thread) : (s.setThread t).ctxs = s.ctxs := rfl
@[simp] theorem State.setThread_mem (s : State) (t : Thread) : (s.setThread t).mem = s.mem := rfl
@[simp] theorem State.setThread_coh (s : State) (t : Thread) : (s.setThread t).coh = s.coh := rfl
@[simp] theorem State.setThread_cores (s : State) (t : Thread) : (s.setThread t).cores = s.cores := rfl
@[simp] theorem State.setThread_eng (s : State) (t : Thread) : (s.setThread t).eng = s.eng := rfl
@[simp] theorem State.setThread_cmd (s : State) (t : Thread) : (s.setThread t).cmd = s.cmd := rfl
@[simp] theorem State.setThread_pkg (s : State) (t : Thread) : (s.setThread t).pkg = s.pkg := rfl

/-! ## State.setCrew -/

@[simp] theorem State.setCrew_clock (s : State) (c : Crew) : (s.setCrew c).clock = s.clock := rfl
@[simp] theorem State.setCrew_free (s : State) (c : Crew) : (s.setCrew c).free = s.free := rfl
@[simp] theorem State.setCrew_nextId (s : State) (c : Crew) : (s.setCrew c).nextId = s.nextId := rfl
@[simp] theorem State.setCrew_agenda (s : State) (c : Crew) : (s.setCrew c).agenda = s.agenda := rfl
@[simp] theorem State.setCrew_later (s : State) (c : Crew) : (s.setCrew c).later = s.later := rfl
@[simp] theorem State.setCrew_cur (s : State) (c : Crew) : (s.setCrew c).cur = s.cur := rfl
@[simp] theorem State.setCrew_vreg (s : State) (c : Crew) : (s.setCrew c).vreg = s.vreg := rfl
@[simp] theorem State.setCrew_preg (s : State) (c : Crew) : (s.setCrew c).preg = s.preg := rfl
@[simp] theorem State.setCrew_kreg (s : State) (c : Crew) : (s.setCrew c).kreg = s.kreg := rfl
@[simp] theorem State.setCrew_tiles (s : State) (c : Crew) : (s.setCrew c).tiles = s.tiles := rfl
@[simp] theorem State.setCrew_spad (s : State) (c : Crew) : (s.setCrew c).spad = s.spad := rfl
@[simp] theorem State.setCrew_segs (s : State) (c : Crew) : (s.setCrew c).segs = s.segs := rfl
@[simp] theorem State.setCrew_threads (s : State) (c : Crew) : (s.setCrew c).threads = s.threads := rfl
@[simp] theorem State.setCrew_crews (s : State) (c : Crew) : (s.setCrew c).crews = s.crews.insert c.id c := rfl
@[simp] theorem State.setCrew_cohorts (s : State) (c : Crew) : (s.setCrew c).cohorts = s.cohorts := rfl
@[simp] theorem State.setCrew_ctxs (s : State) (c : Crew) : (s.setCrew c).ctxs = s.ctxs := rfl
@[simp] theorem State.setCrew_mem (s : State) (c : Crew) : (s.setCrew c).mem = s.mem := rfl
@[simp] theorem State.setCrew_coh (s : State) (c : Crew) : (s.setCrew c).coh = s.coh := rfl
@[simp] theorem State.setCrew_cores (s : State) (c : Crew) : (s.setCrew c).cores = s.cores := rfl
@[simp] theorem State.setCrew_eng (s : State) (c : Crew) : (s.setCrew c).eng = s.eng := rfl
@[simp] theorem State.setCrew_cmd (s : State) (c : Crew) : (s.setCrew c).cmd = s.cmd := rfl
@[simp] theorem State.setCrew_pkg (s : State) (c : Crew) : (s.setCrew c).pkg = s.pkg := rfl

/-! ## State.setCohort -/

@[simp] theorem State.setCohort_clock (s : State) (c : Cohort) : (s.setCohort c).clock = s.clock := rfl
@[simp] theorem State.setCohort_free (s : State) (c : Cohort) : (s.setCohort c).free = s.free := rfl
@[simp] theorem State.setCohort_nextId (s : State) (c : Cohort) : (s.setCohort c).nextId = s.nextId := rfl
@[simp] theorem State.setCohort_agenda (s : State) (c : Cohort) : (s.setCohort c).agenda = s.agenda := rfl
@[simp] theorem State.setCohort_later (s : State) (c : Cohort) : (s.setCohort c).later = s.later := rfl
@[simp] theorem State.setCohort_cur (s : State) (c : Cohort) : (s.setCohort c).cur = s.cur := rfl
@[simp] theorem State.setCohort_vreg (s : State) (c : Cohort) : (s.setCohort c).vreg = s.vreg := rfl
@[simp] theorem State.setCohort_preg (s : State) (c : Cohort) : (s.setCohort c).preg = s.preg := rfl
@[simp] theorem State.setCohort_kreg (s : State) (c : Cohort) : (s.setCohort c).kreg = s.kreg := rfl
@[simp] theorem State.setCohort_tiles (s : State) (c : Cohort) : (s.setCohort c).tiles = s.tiles := rfl
@[simp] theorem State.setCohort_spad (s : State) (c : Cohort) : (s.setCohort c).spad = s.spad := rfl
@[simp] theorem State.setCohort_segs (s : State) (c : Cohort) : (s.setCohort c).segs = s.segs := rfl
@[simp] theorem State.setCohort_threads (s : State) (c : Cohort) : (s.setCohort c).threads = s.threads := rfl
@[simp] theorem State.setCohort_crews (s : State) (c : Cohort) : (s.setCohort c).crews = s.crews := rfl
@[simp] theorem State.setCohort_cohorts (s : State) (c : Cohort) : (s.setCohort c).cohorts = s.cohorts.insert c.id c := rfl
@[simp] theorem State.setCohort_ctxs (s : State) (c : Cohort) : (s.setCohort c).ctxs = s.ctxs := rfl
@[simp] theorem State.setCohort_mem (s : State) (c : Cohort) : (s.setCohort c).mem = s.mem := rfl
@[simp] theorem State.setCohort_coh (s : State) (c : Cohort) : (s.setCohort c).coh = s.coh := rfl
@[simp] theorem State.setCohort_cores (s : State) (c : Cohort) : (s.setCohort c).cores = s.cores := rfl
@[simp] theorem State.setCohort_eng (s : State) (c : Cohort) : (s.setCohort c).eng = s.eng := rfl
@[simp] theorem State.setCohort_cmd (s : State) (c : Cohort) : (s.setCohort c).cmd = s.cmd := rfl
@[simp] theorem State.setCohort_pkg (s : State) (c : Cohort) : (s.setCohort c).pkg = s.pkg := rfl

/-! ## State.setCtx -/

@[simp] theorem State.setCtx_clock (s : State) (c : Ctx) : (s.setCtx c).clock = s.clock := rfl
@[simp] theorem State.setCtx_free (s : State) (c : Ctx) : (s.setCtx c).free = s.free := rfl
@[simp] theorem State.setCtx_nextId (s : State) (c : Ctx) : (s.setCtx c).nextId = s.nextId := rfl
@[simp] theorem State.setCtx_agenda (s : State) (c : Ctx) : (s.setCtx c).agenda = s.agenda := rfl
@[simp] theorem State.setCtx_later (s : State) (c : Ctx) : (s.setCtx c).later = s.later := rfl
@[simp] theorem State.setCtx_cur (s : State) (c : Ctx) : (s.setCtx c).cur = s.cur := rfl
@[simp] theorem State.setCtx_vreg (s : State) (c : Ctx) : (s.setCtx c).vreg = s.vreg := rfl
@[simp] theorem State.setCtx_preg (s : State) (c : Ctx) : (s.setCtx c).preg = s.preg := rfl
@[simp] theorem State.setCtx_kreg (s : State) (c : Ctx) : (s.setCtx c).kreg = s.kreg := rfl
@[simp] theorem State.setCtx_tiles (s : State) (c : Ctx) : (s.setCtx c).tiles = s.tiles := rfl
@[simp] theorem State.setCtx_spad (s : State) (c : Ctx) : (s.setCtx c).spad = s.spad := rfl
@[simp] theorem State.setCtx_segs (s : State) (c : Ctx) : (s.setCtx c).segs = s.segs := rfl
@[simp] theorem State.setCtx_threads (s : State) (c : Ctx) : (s.setCtx c).threads = s.threads := rfl
@[simp] theorem State.setCtx_crews (s : State) (c : Ctx) : (s.setCtx c).crews = s.crews := rfl
@[simp] theorem State.setCtx_cohorts (s : State) (c : Ctx) : (s.setCtx c).cohorts = s.cohorts := rfl
@[simp] theorem State.setCtx_ctxs (s : State) (c : Ctx) : (s.setCtx c).ctxs = s.ctxs.insert c.num c := rfl
@[simp] theorem State.setCtx_mem (s : State) (c : Ctx) : (s.setCtx c).mem = s.mem := rfl
@[simp] theorem State.setCtx_coh (s : State) (c : Ctx) : (s.setCtx c).coh = s.coh := rfl
@[simp] theorem State.setCtx_cores (s : State) (c : Ctx) : (s.setCtx c).cores = s.cores := rfl
@[simp] theorem State.setCtx_eng (s : State) (c : Ctx) : (s.setCtx c).eng = s.eng := rfl
@[simp] theorem State.setCtx_cmd (s : State) (c : Ctx) : (s.setCtx c).cmd = s.cmd := rfl
@[simp] theorem State.setCtx_pkg (s : State) (c : Ctx) : (s.setCtx c).pkg = s.pkg := rfl

/-! ## State.modThread -/

@[simp] theorem State.modThread_clock (s : State) (n : Nat) (f : Thread → Thread) : (s.modThread n f).clock = s.clock := rfl
@[simp] theorem State.modThread_free (s : State) (n : Nat) (f : Thread → Thread) : (s.modThread n f).free = s.free := rfl
@[simp] theorem State.modThread_nextId (s : State) (n : Nat) (f : Thread → Thread) : (s.modThread n f).nextId = s.nextId := rfl
@[simp] theorem State.modThread_agenda (s : State) (n : Nat) (f : Thread → Thread) : (s.modThread n f).agenda = s.agenda := rfl
@[simp] theorem State.modThread_later (s : State) (n : Nat) (f : Thread → Thread) : (s.modThread n f).later = s.later := rfl
@[simp] theorem State.modThread_cur (s : State) (n : Nat) (f : Thread → Thread) : (s.modThread n f).cur = s.cur := rfl
@[simp] theorem State.modThread_vreg (s : State) (n : Nat) (f : Thread → Thread) : (s.modThread n f).vreg = s.vreg := rfl
@[simp] theorem State.modThread_preg (s : State) (n : Nat) (f : Thread → Thread) : (s.modThread n f).preg = s.preg := rfl
@[simp] theorem State.modThread_kreg (s : State) (n : Nat) (f : Thread → Thread) : (s.modThread n f).kreg = s.kreg := rfl
@[simp] theorem State.modThread_tiles (s : State) (n : Nat) (f : Thread → Thread) : (s.modThread n f).tiles = s.tiles := rfl
@[simp] theorem State.modThread_spad (s : State) (n : Nat) (f : Thread → Thread) : (s.modThread n f).spad = s.spad := rfl
@[simp] theorem State.modThread_segs (s : State) (n : Nat) (f : Thread → Thread) : (s.modThread n f).segs = s.segs := rfl
@[simp] theorem State.modThread_threads (s : State) (n : Nat) (f : Thread → Thread) : (s.modThread n f).threads = s.threads.modify n f := rfl
@[simp] theorem State.modThread_crews (s : State) (n : Nat) (f : Thread → Thread) : (s.modThread n f).crews = s.crews := rfl
@[simp] theorem State.modThread_cohorts (s : State) (n : Nat) (f : Thread → Thread) : (s.modThread n f).cohorts = s.cohorts := rfl
@[simp] theorem State.modThread_ctxs (s : State) (n : Nat) (f : Thread → Thread) : (s.modThread n f).ctxs = s.ctxs := rfl
@[simp] theorem State.modThread_mem (s : State) (n : Nat) (f : Thread → Thread) : (s.modThread n f).mem = s.mem := rfl
@[simp] theorem State.modThread_coh (s : State) (n : Nat) (f : Thread → Thread) : (s.modThread n f).coh = s.coh := rfl
@[simp] theorem State.modThread_cores (s : State) (n : Nat) (f : Thread → Thread) : (s.modThread n f).cores = s.cores := rfl
@[simp] theorem State.modThread_eng (s : State) (n : Nat) (f : Thread → Thread) : (s.modThread n f).eng = s.eng := rfl
@[simp] theorem State.modThread_cmd (s : State) (n : Nat) (f : Thread → Thread) : (s.modThread n f).cmd = s.cmd := rfl
@[simp] theorem State.modThread_pkg (s : State) (n : Nat) (f : Thread → Thread) : (s.modThread n f).pkg = s.pkg := rfl

/-! ## State.modCrew -/

@[simp] theorem State.modCrew_clock (s : State) (n : Nat) (f : Crew → Crew) : (s.modCrew n f).clock = s.clock := rfl
@[simp] theorem State.modCrew_free (s : State) (n : Nat) (f : Crew → Crew) : (s.modCrew n f).free = s.free := rfl
@[simp] theorem State.modCrew_nextId (s : State) (n : Nat) (f : Crew → Crew) : (s.modCrew n f).nextId = s.nextId := rfl
@[simp] theorem State.modCrew_agenda (s : State) (n : Nat) (f : Crew → Crew) : (s.modCrew n f).agenda = s.agenda := rfl
@[simp] theorem State.modCrew_later (s : State) (n : Nat) (f : Crew → Crew) : (s.modCrew n f).later = s.later := rfl
@[simp] theorem State.modCrew_cur (s : State) (n : Nat) (f : Crew → Crew) : (s.modCrew n f).cur = s.cur := rfl
@[simp] theorem State.modCrew_vreg (s : State) (n : Nat) (f : Crew → Crew) : (s.modCrew n f).vreg = s.vreg := rfl
@[simp] theorem State.modCrew_preg (s : State) (n : Nat) (f : Crew → Crew) : (s.modCrew n f).preg = s.preg := rfl
@[simp] theorem State.modCrew_kreg (s : State) (n : Nat) (f : Crew → Crew) : (s.modCrew n f).kreg = s.kreg := rfl
@[simp] theorem State.modCrew_tiles (s : State) (n : Nat) (f : Crew → Crew) : (s.modCrew n f).tiles = s.tiles := rfl
@[simp] theorem State.modCrew_spad (s : State) (n : Nat) (f : Crew → Crew) : (s.modCrew n f).spad = s.spad := rfl
@[simp] theorem State.modCrew_segs (s : State) (n : Nat) (f : Crew → Crew) : (s.modCrew n f).segs = s.segs := rfl
@[simp] theorem State.modCrew_threads (s : State) (n : Nat) (f : Crew → Crew) : (s.modCrew n f).threads = s.threads := rfl
@[simp] theorem State.modCrew_crews (s : State) (n : Nat) (f : Crew → Crew) : (s.modCrew n f).crews = s.crews.modify n f := rfl
@[simp] theorem State.modCrew_cohorts (s : State) (n : Nat) (f : Crew → Crew) : (s.modCrew n f).cohorts = s.cohorts := rfl
@[simp] theorem State.modCrew_ctxs (s : State) (n : Nat) (f : Crew → Crew) : (s.modCrew n f).ctxs = s.ctxs := rfl
@[simp] theorem State.modCrew_mem (s : State) (n : Nat) (f : Crew → Crew) : (s.modCrew n f).mem = s.mem := rfl
@[simp] theorem State.modCrew_coh (s : State) (n : Nat) (f : Crew → Crew) : (s.modCrew n f).coh = s.coh := rfl
@[simp] theorem State.modCrew_cores (s : State) (n : Nat) (f : Crew → Crew) : (s.modCrew n f).cores = s.cores := rfl
@[simp] theorem State.modCrew_eng (s : State) (n : Nat) (f : Crew → Crew) : (s.modCrew n f).eng = s.eng := rfl
@[simp] theorem State.modCrew_cmd (s : State) (n : Nat) (f : Crew → Crew) : (s.modCrew n f).cmd = s.cmd := rfl
@[simp] theorem State.modCrew_pkg (s : State) (n : Nat) (f : Crew → Crew) : (s.modCrew n f).pkg = s.pkg := rfl

/-! ## State.modCohort -/

@[simp] theorem State.modCohort_clock (s : State) (n : Nat) (f : Cohort → Cohort) : (s.modCohort n f).clock = s.clock := rfl
@[simp] theorem State.modCohort_free (s : State) (n : Nat) (f : Cohort → Cohort) : (s.modCohort n f).free = s.free := rfl
@[simp] theorem State.modCohort_nextId (s : State) (n : Nat) (f : Cohort → Cohort) : (s.modCohort n f).nextId = s.nextId := rfl
@[simp] theorem State.modCohort_agenda (s : State) (n : Nat) (f : Cohort → Cohort) : (s.modCohort n f).agenda = s.agenda := rfl
@[simp] theorem State.modCohort_later (s : State) (n : Nat) (f : Cohort → Cohort) : (s.modCohort n f).later = s.later := rfl
@[simp] theorem State.modCohort_cur (s : State) (n : Nat) (f : Cohort → Cohort) : (s.modCohort n f).cur = s.cur := rfl
@[simp] theorem State.modCohort_vreg (s : State) (n : Nat) (f : Cohort → Cohort) : (s.modCohort n f).vreg = s.vreg := rfl
@[simp] theorem State.modCohort_preg (s : State) (n : Nat) (f : Cohort → Cohort) : (s.modCohort n f).preg = s.preg := rfl
@[simp] theorem State.modCohort_kreg (s : State) (n : Nat) (f : Cohort → Cohort) : (s.modCohort n f).kreg = s.kreg := rfl
@[simp] theorem State.modCohort_tiles (s : State) (n : Nat) (f : Cohort → Cohort) : (s.modCohort n f).tiles = s.tiles := rfl
@[simp] theorem State.modCohort_spad (s : State) (n : Nat) (f : Cohort → Cohort) : (s.modCohort n f).spad = s.spad := rfl
@[simp] theorem State.modCohort_segs (s : State) (n : Nat) (f : Cohort → Cohort) : (s.modCohort n f).segs = s.segs := rfl
@[simp] theorem State.modCohort_threads (s : State) (n : Nat) (f : Cohort → Cohort) : (s.modCohort n f).threads = s.threads := rfl
@[simp] theorem State.modCohort_crews (s : State) (n : Nat) (f : Cohort → Cohort) : (s.modCohort n f).crews = s.crews := rfl
@[simp] theorem State.modCohort_cohorts (s : State) (n : Nat) (f : Cohort → Cohort) : (s.modCohort n f).cohorts = s.cohorts.modify n f := rfl
@[simp] theorem State.modCohort_ctxs (s : State) (n : Nat) (f : Cohort → Cohort) : (s.modCohort n f).ctxs = s.ctxs := rfl
@[simp] theorem State.modCohort_mem (s : State) (n : Nat) (f : Cohort → Cohort) : (s.modCohort n f).mem = s.mem := rfl
@[simp] theorem State.modCohort_coh (s : State) (n : Nat) (f : Cohort → Cohort) : (s.modCohort n f).coh = s.coh := rfl
@[simp] theorem State.modCohort_cores (s : State) (n : Nat) (f : Cohort → Cohort) : (s.modCohort n f).cores = s.cores := rfl
@[simp] theorem State.modCohort_eng (s : State) (n : Nat) (f : Cohort → Cohort) : (s.modCohort n f).eng = s.eng := rfl
@[simp] theorem State.modCohort_cmd (s : State) (n : Nat) (f : Cohort → Cohort) : (s.modCohort n f).cmd = s.cmd := rfl
@[simp] theorem State.modCohort_pkg (s : State) (n : Nat) (f : Cohort → Cohort) : (s.modCohort n f).pkg = s.pkg := rfl

/-! ## State.modCtx -/

@[simp] theorem State.modCtx_clock (s : State) (n : Nat) (f : Ctx → Ctx) : (s.modCtx n f).clock = s.clock := rfl
@[simp] theorem State.modCtx_free (s : State) (n : Nat) (f : Ctx → Ctx) : (s.modCtx n f).free = s.free := rfl
@[simp] theorem State.modCtx_nextId (s : State) (n : Nat) (f : Ctx → Ctx) : (s.modCtx n f).nextId = s.nextId := rfl
@[simp] theorem State.modCtx_agenda (s : State) (n : Nat) (f : Ctx → Ctx) : (s.modCtx n f).agenda = s.agenda := rfl
@[simp] theorem State.modCtx_later (s : State) (n : Nat) (f : Ctx → Ctx) : (s.modCtx n f).later = s.later := rfl
@[simp] theorem State.modCtx_cur (s : State) (n : Nat) (f : Ctx → Ctx) : (s.modCtx n f).cur = s.cur := rfl
@[simp] theorem State.modCtx_vreg (s : State) (n : Nat) (f : Ctx → Ctx) : (s.modCtx n f).vreg = s.vreg := rfl
@[simp] theorem State.modCtx_preg (s : State) (n : Nat) (f : Ctx → Ctx) : (s.modCtx n f).preg = s.preg := rfl
@[simp] theorem State.modCtx_kreg (s : State) (n : Nat) (f : Ctx → Ctx) : (s.modCtx n f).kreg = s.kreg := rfl
@[simp] theorem State.modCtx_tiles (s : State) (n : Nat) (f : Ctx → Ctx) : (s.modCtx n f).tiles = s.tiles := rfl
@[simp] theorem State.modCtx_spad (s : State) (n : Nat) (f : Ctx → Ctx) : (s.modCtx n f).spad = s.spad := rfl
@[simp] theorem State.modCtx_segs (s : State) (n : Nat) (f : Ctx → Ctx) : (s.modCtx n f).segs = s.segs := rfl
@[simp] theorem State.modCtx_threads (s : State) (n : Nat) (f : Ctx → Ctx) : (s.modCtx n f).threads = s.threads := rfl
@[simp] theorem State.modCtx_crews (s : State) (n : Nat) (f : Ctx → Ctx) : (s.modCtx n f).crews = s.crews := rfl
@[simp] theorem State.modCtx_cohorts (s : State) (n : Nat) (f : Ctx → Ctx) : (s.modCtx n f).cohorts = s.cohorts := rfl
@[simp] theorem State.modCtx_ctxs (s : State) (n : Nat) (f : Ctx → Ctx) : (s.modCtx n f).ctxs = s.ctxs.modify n f := rfl
@[simp] theorem State.modCtx_mem (s : State) (n : Nat) (f : Ctx → Ctx) : (s.modCtx n f).mem = s.mem := rfl
@[simp] theorem State.modCtx_coh (s : State) (n : Nat) (f : Ctx → Ctx) : (s.modCtx n f).coh = s.coh := rfl
@[simp] theorem State.modCtx_cores (s : State) (n : Nat) (f : Ctx → Ctx) : (s.modCtx n f).cores = s.cores := rfl
@[simp] theorem State.modCtx_eng (s : State) (n : Nat) (f : Ctx → Ctx) : (s.modCtx n f).eng = s.eng := rfl
@[simp] theorem State.modCtx_cmd (s : State) (n : Nat) (f : Ctx → Ctx) : (s.modCtx n f).cmd = s.cmd := rfl
@[simp] theorem State.modCtx_pkg (s : State) (n : Nat) (f : Ctx → Ctx) : (s.modCtx n f).pkg = s.pkg := rfl

/-! ## State.modCoh -/

@[simp] theorem State.modCoh_clock (s : State) (f : Coh → Coh) : (s.modCoh f).clock = s.clock := rfl
@[simp] theorem State.modCoh_free (s : State) (f : Coh → Coh) : (s.modCoh f).free = s.free := rfl
@[simp] theorem State.modCoh_nextId (s : State) (f : Coh → Coh) : (s.modCoh f).nextId = s.nextId := rfl
@[simp] theorem State.modCoh_agenda (s : State) (f : Coh → Coh) : (s.modCoh f).agenda = s.agenda := rfl
@[simp] theorem State.modCoh_later (s : State) (f : Coh → Coh) : (s.modCoh f).later = s.later := rfl
@[simp] theorem State.modCoh_cur (s : State) (f : Coh → Coh) : (s.modCoh f).cur = s.cur := rfl
@[simp] theorem State.modCoh_vreg (s : State) (f : Coh → Coh) : (s.modCoh f).vreg = s.vreg := rfl
@[simp] theorem State.modCoh_preg (s : State) (f : Coh → Coh) : (s.modCoh f).preg = s.preg := rfl
@[simp] theorem State.modCoh_kreg (s : State) (f : Coh → Coh) : (s.modCoh f).kreg = s.kreg := rfl
@[simp] theorem State.modCoh_tiles (s : State) (f : Coh → Coh) : (s.modCoh f).tiles = s.tiles := rfl
@[simp] theorem State.modCoh_spad (s : State) (f : Coh → Coh) : (s.modCoh f).spad = s.spad := rfl
@[simp] theorem State.modCoh_segs (s : State) (f : Coh → Coh) : (s.modCoh f).segs = s.segs := rfl
@[simp] theorem State.modCoh_threads (s : State) (f : Coh → Coh) : (s.modCoh f).threads = s.threads := rfl
@[simp] theorem State.modCoh_crews (s : State) (f : Coh → Coh) : (s.modCoh f).crews = s.crews := rfl
@[simp] theorem State.modCoh_cohorts (s : State) (f : Coh → Coh) : (s.modCoh f).cohorts = s.cohorts := rfl
@[simp] theorem State.modCoh_ctxs (s : State) (f : Coh → Coh) : (s.modCoh f).ctxs = s.ctxs := rfl
@[simp] theorem State.modCoh_mem (s : State) (f : Coh → Coh) : (s.modCoh f).mem = s.mem := rfl
@[simp] theorem State.modCoh_coh (s : State) (f : Coh → Coh) : (s.modCoh f).coh = f s.coh := rfl
@[simp] theorem State.modCoh_cores (s : State) (f : Coh → Coh) : (s.modCoh f).cores = s.cores := rfl
@[simp] theorem State.modCoh_eng (s : State) (f : Coh → Coh) : (s.modCoh f).eng = s.eng := rfl
@[simp] theorem State.modCoh_cmd (s : State) (f : Coh → Coh) : (s.modCoh f).cmd = s.cmd := rfl
@[simp] theorem State.modCoh_pkg (s : State) (f : Coh → Coh) : (s.modCoh f).pkg = s.pkg := rfl

/-! ## State.modEng -/

@[simp] theorem State.modEng_clock (s : State) (f : Engines → Engines) : (s.modEng f).clock = s.clock := rfl
@[simp] theorem State.modEng_free (s : State) (f : Engines → Engines) : (s.modEng f).free = s.free := rfl
@[simp] theorem State.modEng_nextId (s : State) (f : Engines → Engines) : (s.modEng f).nextId = s.nextId := rfl
@[simp] theorem State.modEng_agenda (s : State) (f : Engines → Engines) : (s.modEng f).agenda = s.agenda := rfl
@[simp] theorem State.modEng_later (s : State) (f : Engines → Engines) : (s.modEng f).later = s.later := rfl
@[simp] theorem State.modEng_cur (s : State) (f : Engines → Engines) : (s.modEng f).cur = s.cur := rfl
@[simp] theorem State.modEng_vreg (s : State) (f : Engines → Engines) : (s.modEng f).vreg = s.vreg := rfl
@[simp] theorem State.modEng_preg (s : State) (f : Engines → Engines) : (s.modEng f).preg = s.preg := rfl
@[simp] theorem State.modEng_kreg (s : State) (f : Engines → Engines) : (s.modEng f).kreg = s.kreg := rfl
@[simp] theorem State.modEng_tiles (s : State) (f : Engines → Engines) : (s.modEng f).tiles = s.tiles := rfl
@[simp] theorem State.modEng_spad (s : State) (f : Engines → Engines) : (s.modEng f).spad = s.spad := rfl
@[simp] theorem State.modEng_segs (s : State) (f : Engines → Engines) : (s.modEng f).segs = s.segs := rfl
@[simp] theorem State.modEng_threads (s : State) (f : Engines → Engines) : (s.modEng f).threads = s.threads := rfl
@[simp] theorem State.modEng_crews (s : State) (f : Engines → Engines) : (s.modEng f).crews = s.crews := rfl
@[simp] theorem State.modEng_cohorts (s : State) (f : Engines → Engines) : (s.modEng f).cohorts = s.cohorts := rfl
@[simp] theorem State.modEng_ctxs (s : State) (f : Engines → Engines) : (s.modEng f).ctxs = s.ctxs := rfl
@[simp] theorem State.modEng_mem (s : State) (f : Engines → Engines) : (s.modEng f).mem = s.mem := rfl
@[simp] theorem State.modEng_coh (s : State) (f : Engines → Engines) : (s.modEng f).coh = s.coh := rfl
@[simp] theorem State.modEng_cores (s : State) (f : Engines → Engines) : (s.modEng f).cores = s.cores := rfl
@[simp] theorem State.modEng_eng (s : State) (f : Engines → Engines) : (s.modEng f).eng = f s.eng := rfl
@[simp] theorem State.modEng_cmd (s : State) (f : Engines → Engines) : (s.modEng f).cmd = s.cmd := rfl
@[simp] theorem State.modEng_pkg (s : State) (f : Engines → Engines) : (s.modEng f).pkg = s.pkg := rfl

/-! ## State.modCmd -/

@[simp] theorem State.modCmd_clock (s : State) (f : Command → Command) : (s.modCmd f).clock = s.clock := rfl
@[simp] theorem State.modCmd_free (s : State) (f : Command → Command) : (s.modCmd f).free = s.free := rfl
@[simp] theorem State.modCmd_nextId (s : State) (f : Command → Command) : (s.modCmd f).nextId = s.nextId := rfl
@[simp] theorem State.modCmd_agenda (s : State) (f : Command → Command) : (s.modCmd f).agenda = s.agenda := rfl
@[simp] theorem State.modCmd_later (s : State) (f : Command → Command) : (s.modCmd f).later = s.later := rfl
@[simp] theorem State.modCmd_cur (s : State) (f : Command → Command) : (s.modCmd f).cur = s.cur := rfl
@[simp] theorem State.modCmd_vreg (s : State) (f : Command → Command) : (s.modCmd f).vreg = s.vreg := rfl
@[simp] theorem State.modCmd_preg (s : State) (f : Command → Command) : (s.modCmd f).preg = s.preg := rfl
@[simp] theorem State.modCmd_kreg (s : State) (f : Command → Command) : (s.modCmd f).kreg = s.kreg := rfl
@[simp] theorem State.modCmd_tiles (s : State) (f : Command → Command) : (s.modCmd f).tiles = s.tiles := rfl
@[simp] theorem State.modCmd_spad (s : State) (f : Command → Command) : (s.modCmd f).spad = s.spad := rfl
@[simp] theorem State.modCmd_segs (s : State) (f : Command → Command) : (s.modCmd f).segs = s.segs := rfl
@[simp] theorem State.modCmd_threads (s : State) (f : Command → Command) : (s.modCmd f).threads = s.threads := rfl
@[simp] theorem State.modCmd_crews (s : State) (f : Command → Command) : (s.modCmd f).crews = s.crews := rfl
@[simp] theorem State.modCmd_cohorts (s : State) (f : Command → Command) : (s.modCmd f).cohorts = s.cohorts := rfl
@[simp] theorem State.modCmd_ctxs (s : State) (f : Command → Command) : (s.modCmd f).ctxs = s.ctxs := rfl
@[simp] theorem State.modCmd_mem (s : State) (f : Command → Command) : (s.modCmd f).mem = s.mem := rfl
@[simp] theorem State.modCmd_coh (s : State) (f : Command → Command) : (s.modCmd f).coh = s.coh := rfl
@[simp] theorem State.modCmd_cores (s : State) (f : Command → Command) : (s.modCmd f).cores = s.cores := rfl
@[simp] theorem State.modCmd_eng (s : State) (f : Command → Command) : (s.modCmd f).eng = s.eng := rfl
@[simp] theorem State.modCmd_cmd (s : State) (f : Command → Command) : (s.modCmd f).cmd = f s.cmd := rfl
@[simp] theorem State.modCmd_pkg (s : State) (f : Command → Command) : (s.modCmd f).pkg = s.pkg := rfl

/-! ## State.modPkg -/

@[simp] theorem State.modPkg_clock (s : State) (f : Package → Package) : (s.modPkg f).clock = s.clock := rfl
@[simp] theorem State.modPkg_free (s : State) (f : Package → Package) : (s.modPkg f).free = s.free := rfl
@[simp] theorem State.modPkg_nextId (s : State) (f : Package → Package) : (s.modPkg f).nextId = s.nextId := rfl
@[simp] theorem State.modPkg_agenda (s : State) (f : Package → Package) : (s.modPkg f).agenda = s.agenda := rfl
@[simp] theorem State.modPkg_later (s : State) (f : Package → Package) : (s.modPkg f).later = s.later := rfl
@[simp] theorem State.modPkg_cur (s : State) (f : Package → Package) : (s.modPkg f).cur = s.cur := rfl
@[simp] theorem State.modPkg_vreg (s : State) (f : Package → Package) : (s.modPkg f).vreg = s.vreg := rfl
@[simp] theorem State.modPkg_preg (s : State) (f : Package → Package) : (s.modPkg f).preg = s.preg := rfl
@[simp] theorem State.modPkg_kreg (s : State) (f : Package → Package) : (s.modPkg f).kreg = s.kreg := rfl
@[simp] theorem State.modPkg_tiles (s : State) (f : Package → Package) : (s.modPkg f).tiles = s.tiles := rfl
@[simp] theorem State.modPkg_spad (s : State) (f : Package → Package) : (s.modPkg f).spad = s.spad := rfl
@[simp] theorem State.modPkg_segs (s : State) (f : Package → Package) : (s.modPkg f).segs = s.segs := rfl
@[simp] theorem State.modPkg_threads (s : State) (f : Package → Package) : (s.modPkg f).threads = s.threads := rfl
@[simp] theorem State.modPkg_crews (s : State) (f : Package → Package) : (s.modPkg f).crews = s.crews := rfl
@[simp] theorem State.modPkg_cohorts (s : State) (f : Package → Package) : (s.modPkg f).cohorts = s.cohorts := rfl
@[simp] theorem State.modPkg_ctxs (s : State) (f : Package → Package) : (s.modPkg f).ctxs = s.ctxs := rfl
@[simp] theorem State.modPkg_mem (s : State) (f : Package → Package) : (s.modPkg f).mem = s.mem := rfl
@[simp] theorem State.modPkg_coh (s : State) (f : Package → Package) : (s.modPkg f).coh = s.coh := rfl
@[simp] theorem State.modPkg_cores (s : State) (f : Package → Package) : (s.modPkg f).cores = s.cores := rfl
@[simp] theorem State.modPkg_eng (s : State) (f : Package → Package) : (s.modPkg f).eng = s.eng := rfl
@[simp] theorem State.modPkg_cmd (s : State) (f : Package → Package) : (s.modPkg f).cmd = s.cmd := rfl
@[simp] theorem State.modPkg_pkg (s : State) (f : Package → Package) : (s.modPkg f).pkg = f s.pkg := rfl

/-! ## State.setCore -/

@[simp] theorem State.setCore_clock (s : State) (n : Nat) (c : CoreSt) : (s.setCore n c).clock = s.clock := rfl
@[simp] theorem State.setCore_free (s : State) (n : Nat) (c : CoreSt) : (s.setCore n c).free = s.free := rfl
@[simp] theorem State.setCore_nextId (s : State) (n : Nat) (c : CoreSt) : (s.setCore n c).nextId = s.nextId := rfl
@[simp] theorem State.setCore_agenda (s : State) (n : Nat) (c : CoreSt) : (s.setCore n c).agenda = s.agenda := rfl
@[simp] theorem State.setCore_later (s : State) (n : Nat) (c : CoreSt) : (s.setCore n c).later = s.later := rfl
@[simp] theorem State.setCore_cur (s : State) (n : Nat) (c : CoreSt) : (s.setCore n c).cur = s.cur := rfl
@[simp] theorem State.setCore_vreg (s : State) (n : Nat) (c : CoreSt) : (s.setCore n c).vreg = s.vreg := rfl
@[simp] theorem State.setCore_preg (s : State) (n : Nat) (c : CoreSt) : (s.setCore n c).preg = s.preg := rfl
@[simp] theorem State.setCore_kreg (s : State) (n : Nat) (c : CoreSt) : (s.setCore n c).kreg = s.kreg := rfl
@[simp] theorem State.setCore_tiles (s : State) (n : Nat) (c : CoreSt) : (s.setCore n c).tiles = s.tiles := rfl
@[simp] theorem State.setCore_spad (s : State) (n : Nat) (c : CoreSt) : (s.setCore n c).spad = s.spad := rfl
@[simp] theorem State.setCore_segs (s : State) (n : Nat) (c : CoreSt) : (s.setCore n c).segs = s.segs := rfl
@[simp] theorem State.setCore_threads (s : State) (n : Nat) (c : CoreSt) : (s.setCore n c).threads = s.threads := rfl
@[simp] theorem State.setCore_crews (s : State) (n : Nat) (c : CoreSt) : (s.setCore n c).crews = s.crews := rfl
@[simp] theorem State.setCore_cohorts (s : State) (n : Nat) (c : CoreSt) : (s.setCore n c).cohorts = s.cohorts := rfl
@[simp] theorem State.setCore_ctxs (s : State) (n : Nat) (c : CoreSt) : (s.setCore n c).ctxs = s.ctxs := rfl
@[simp] theorem State.setCore_mem (s : State) (n : Nat) (c : CoreSt) : (s.setCore n c).mem = s.mem := rfl
@[simp] theorem State.setCore_coh (s : State) (n : Nat) (c : CoreSt) : (s.setCore n c).coh = s.coh := rfl
@[simp] theorem State.setCore_cores (s : State) (n : Nat) (c : CoreSt) : (s.setCore n c).cores = s.cores.set n c := rfl
@[simp] theorem State.setCore_eng (s : State) (n : Nat) (c : CoreSt) : (s.setCore n c).eng = s.eng := rfl
@[simp] theorem State.setCore_cmd (s : State) (n : Nat) (c : CoreSt) : (s.setCore n c).cmd = s.cmd := rfl
@[simp] theorem State.setCore_pkg (s : State) (n : Nat) (c : CoreSt) : (s.setCore n c).pkg = s.pkg := rfl

/-! ## State.setV -/

@[simp] theorem State.setV_clock (s : State) (t n : Nat) (w : Word) : (s.setV t n w).clock = s.clock := rfl
@[simp] theorem State.setV_free (s : State) (t n : Nat) (w : Word) : (s.setV t n w).free = s.free := rfl
@[simp] theorem State.setV_nextId (s : State) (t n : Nat) (w : Word) : (s.setV t n w).nextId = s.nextId := rfl
@[simp] theorem State.setV_agenda (s : State) (t n : Nat) (w : Word) : (s.setV t n w).agenda = s.agenda := rfl
@[simp] theorem State.setV_later (s : State) (t n : Nat) (w : Word) : (s.setV t n w).later = s.later := rfl
@[simp] theorem State.setV_cur (s : State) (t n : Nat) (w : Word) : (s.setV t n w).cur = s.cur := rfl
@[simp] theorem State.setV_vreg (s : State) (t n : Nat) (w : Word) : (s.setV t n w).vreg = s.vreg.set 0 (vKey t n) w := rfl
@[simp] theorem State.setV_preg (s : State) (t n : Nat) (w : Word) : (s.setV t n w).preg = s.preg := rfl
@[simp] theorem State.setV_kreg (s : State) (t n : Nat) (w : Word) : (s.setV t n w).kreg = s.kreg := rfl
@[simp] theorem State.setV_tiles (s : State) (t n : Nat) (w : Word) : (s.setV t n w).tiles = s.tiles := rfl
@[simp] theorem State.setV_spad (s : State) (t n : Nat) (w : Word) : (s.setV t n w).spad = s.spad := rfl
@[simp] theorem State.setV_segs (s : State) (t n : Nat) (w : Word) : (s.setV t n w).segs = s.segs := rfl
@[simp] theorem State.setV_threads (s : State) (t n : Nat) (w : Word) : (s.setV t n w).threads = s.threads := rfl
@[simp] theorem State.setV_crews (s : State) (t n : Nat) (w : Word) : (s.setV t n w).crews = s.crews := rfl
@[simp] theorem State.setV_cohorts (s : State) (t n : Nat) (w : Word) : (s.setV t n w).cohorts = s.cohorts := rfl
@[simp] theorem State.setV_ctxs (s : State) (t n : Nat) (w : Word) : (s.setV t n w).ctxs = s.ctxs := rfl
@[simp] theorem State.setV_mem (s : State) (t n : Nat) (w : Word) : (s.setV t n w).mem = s.mem := rfl
@[simp] theorem State.setV_coh (s : State) (t n : Nat) (w : Word) : (s.setV t n w).coh = s.coh := rfl
@[simp] theorem State.setV_cores (s : State) (t n : Nat) (w : Word) : (s.setV t n w).cores = s.cores := rfl
@[simp] theorem State.setV_eng (s : State) (t n : Nat) (w : Word) : (s.setV t n w).eng = s.eng := rfl
@[simp] theorem State.setV_cmd (s : State) (t n : Nat) (w : Word) : (s.setV t n w).cmd = s.cmd := rfl
@[simp] theorem State.setV_pkg (s : State) (t n : Nat) (w : Word) : (s.setV t n w).pkg = s.pkg := rfl

/-! ## State.setK -/

@[simp] theorem State.setK_clock (s : State) (c n : Nat) (w : Word) : (s.setK c n w).clock = s.clock := rfl
@[simp] theorem State.setK_free (s : State) (c n : Nat) (w : Word) : (s.setK c n w).free = s.free := rfl
@[simp] theorem State.setK_nextId (s : State) (c n : Nat) (w : Word) : (s.setK c n w).nextId = s.nextId := rfl
@[simp] theorem State.setK_agenda (s : State) (c n : Nat) (w : Word) : (s.setK c n w).agenda = s.agenda := rfl
@[simp] theorem State.setK_later (s : State) (c n : Nat) (w : Word) : (s.setK c n w).later = s.later := rfl
@[simp] theorem State.setK_cur (s : State) (c n : Nat) (w : Word) : (s.setK c n w).cur = s.cur := rfl
@[simp] theorem State.setK_vreg (s : State) (c n : Nat) (w : Word) : (s.setK c n w).vreg = s.vreg := rfl
@[simp] theorem State.setK_preg (s : State) (c n : Nat) (w : Word) : (s.setK c n w).preg = s.preg := rfl
@[simp] theorem State.setK_kreg (s : State) (c n : Nat) (w : Word) : (s.setK c n w).kreg = s.kreg.set 0 (kKey c n) w := rfl
@[simp] theorem State.setK_tiles (s : State) (c n : Nat) (w : Word) : (s.setK c n w).tiles = s.tiles := rfl
@[simp] theorem State.setK_spad (s : State) (c n : Nat) (w : Word) : (s.setK c n w).spad = s.spad := rfl
@[simp] theorem State.setK_segs (s : State) (c n : Nat) (w : Word) : (s.setK c n w).segs = s.segs := rfl
@[simp] theorem State.setK_threads (s : State) (c n : Nat) (w : Word) : (s.setK c n w).threads = s.threads := rfl
@[simp] theorem State.setK_crews (s : State) (c n : Nat) (w : Word) : (s.setK c n w).crews = s.crews := rfl
@[simp] theorem State.setK_cohorts (s : State) (c n : Nat) (w : Word) : (s.setK c n w).cohorts = s.cohorts := rfl
@[simp] theorem State.setK_ctxs (s : State) (c n : Nat) (w : Word) : (s.setK c n w).ctxs = s.ctxs := rfl
@[simp] theorem State.setK_mem (s : State) (c n : Nat) (w : Word) : (s.setK c n w).mem = s.mem := rfl
@[simp] theorem State.setK_coh (s : State) (c n : Nat) (w : Word) : (s.setK c n w).coh = s.coh := rfl
@[simp] theorem State.setK_cores (s : State) (c n : Nat) (w : Word) : (s.setK c n w).cores = s.cores := rfl
@[simp] theorem State.setK_eng (s : State) (c n : Nat) (w : Word) : (s.setK c n w).eng = s.eng := rfl
@[simp] theorem State.setK_cmd (s : State) (c n : Nat) (w : Word) : (s.setK c n w).cmd = s.cmd := rfl
@[simp] theorem State.setK_pkg (s : State) (c n : Nat) (w : Word) : (s.setK c n w).pkg = s.pkg := rfl

/-! ## State.setTile -/

@[simp] theorem State.setTile_clock (s : State) (c t i j : Nat) (w : Word) : (s.setTile c t i j w).clock = s.clock := rfl
@[simp] theorem State.setTile_free (s : State) (c t i j : Nat) (w : Word) : (s.setTile c t i j w).free = s.free := rfl
@[simp] theorem State.setTile_nextId (s : State) (c t i j : Nat) (w : Word) : (s.setTile c t i j w).nextId = s.nextId := rfl
@[simp] theorem State.setTile_agenda (s : State) (c t i j : Nat) (w : Word) : (s.setTile c t i j w).agenda = s.agenda := rfl
@[simp] theorem State.setTile_later (s : State) (c t i j : Nat) (w : Word) : (s.setTile c t i j w).later = s.later := rfl
@[simp] theorem State.setTile_cur (s : State) (c t i j : Nat) (w : Word) : (s.setTile c t i j w).cur = s.cur := rfl
@[simp] theorem State.setTile_vreg (s : State) (c t i j : Nat) (w : Word) : (s.setTile c t i j w).vreg = s.vreg := rfl
@[simp] theorem State.setTile_preg (s : State) (c t i j : Nat) (w : Word) : (s.setTile c t i j w).preg = s.preg := rfl
@[simp] theorem State.setTile_kreg (s : State) (c t i j : Nat) (w : Word) : (s.setTile c t i j w).kreg = s.kreg := rfl
@[simp] theorem State.setTile_tiles (s : State) (c t i j : Nat) (w : Word) : (s.setTile c t i j w).tiles = s.tiles.set 0 (tileKey c t i j) w := rfl
@[simp] theorem State.setTile_spad (s : State) (c t i j : Nat) (w : Word) : (s.setTile c t i j w).spad = s.spad := rfl
@[simp] theorem State.setTile_segs (s : State) (c t i j : Nat) (w : Word) : (s.setTile c t i j w).segs = s.segs := rfl
@[simp] theorem State.setTile_threads (s : State) (c t i j : Nat) (w : Word) : (s.setTile c t i j w).threads = s.threads := rfl
@[simp] theorem State.setTile_crews (s : State) (c t i j : Nat) (w : Word) : (s.setTile c t i j w).crews = s.crews := rfl
@[simp] theorem State.setTile_cohorts (s : State) (c t i j : Nat) (w : Word) : (s.setTile c t i j w).cohorts = s.cohorts := rfl
@[simp] theorem State.setTile_ctxs (s : State) (c t i j : Nat) (w : Word) : (s.setTile c t i j w).ctxs = s.ctxs := rfl
@[simp] theorem State.setTile_mem (s : State) (c t i j : Nat) (w : Word) : (s.setTile c t i j w).mem = s.mem := rfl
@[simp] theorem State.setTile_coh (s : State) (c t i j : Nat) (w : Word) : (s.setTile c t i j w).coh = s.coh := rfl
@[simp] theorem State.setTile_cores (s : State) (c t i j : Nat) (w : Word) : (s.setTile c t i j w).cores = s.cores := rfl
@[simp] theorem State.setTile_eng (s : State) (c t i j : Nat) (w : Word) : (s.setTile c t i j w).eng = s.eng := rfl
@[simp] theorem State.setTile_cmd (s : State) (c t i j : Nat) (w : Word) : (s.setTile c t i j w).cmd = s.cmd := rfl
@[simp] theorem State.setTile_pkg (s : State) (c t i j : Nat) (w : Word) : (s.setTile c t i j w).pkg = s.pkg := rfl

/-! ## State.report -/

@[simp] theorem State.report_clock (s : State) (r : FaultRec) : (s.report r).clock = s.clock := rfl
@[simp] theorem State.report_free (s : State) (r : FaultRec) : (s.report r).free = s.free := rfl
@[simp] theorem State.report_nextId (s : State) (r : FaultRec) : (s.report r).nextId = s.nextId := rfl
@[simp] theorem State.report_later (s : State) (r : FaultRec) : (s.report r).later = s.later := rfl
@[simp] theorem State.report_cur (s : State) (r : FaultRec) : (s.report r).cur = s.cur := rfl
@[simp] theorem State.report_vreg (s : State) (r : FaultRec) : (s.report r).vreg = s.vreg := rfl
@[simp] theorem State.report_preg (s : State) (r : FaultRec) : (s.report r).preg = s.preg := rfl
@[simp] theorem State.report_kreg (s : State) (r : FaultRec) : (s.report r).kreg = s.kreg := rfl
@[simp] theorem State.report_tiles (s : State) (r : FaultRec) : (s.report r).tiles = s.tiles := rfl
@[simp] theorem State.report_spad (s : State) (r : FaultRec) : (s.report r).spad = s.spad := rfl
@[simp] theorem State.report_segs (s : State) (r : FaultRec) : (s.report r).segs = s.segs := rfl
@[simp] theorem State.report_threads (s : State) (r : FaultRec) : (s.report r).threads = s.threads := rfl
@[simp] theorem State.report_crews (s : State) (r : FaultRec) : (s.report r).crews = s.crews := rfl
@[simp] theorem State.report_cohorts (s : State) (r : FaultRec) : (s.report r).cohorts = s.cohorts := rfl
@[simp] theorem State.report_ctxs (s : State) (r : FaultRec) : (s.report r).ctxs = s.ctxs := rfl
@[simp] theorem State.report_mem (s : State) (r : FaultRec) : (s.report r).mem = s.mem := rfl
@[simp] theorem State.report_coh (s : State) (r : FaultRec) : (s.report r).coh = s.coh := rfl
@[simp] theorem State.report_cores (s : State) (r : FaultRec) : (s.report r).cores = s.cores := rfl
@[simp] theorem State.report_eng (s : State) (r : FaultRec) : (s.report r).eng = s.eng := rfl
@[simp] theorem State.report_cmd (s : State) (r : FaultRec) : (s.report r).cmd = s.cmd := rfl
@[simp] theorem State.report_pkg (s : State) (r : FaultRec) : (s.report r).pkg = s.pkg := rfl

/-! ## State.advance -/

@[simp] theorem State.advance_clock (s : State) (n : Nat) (w : BitVec 4) : (s.advance n w).clock = s.clock := rfl
@[simp] theorem State.advance_free (s : State) (n : Nat) (w : BitVec 4) : (s.advance n w).free = s.free := rfl
@[simp] theorem State.advance_nextId (s : State) (n : Nat) (w : BitVec 4) : (s.advance n w).nextId = s.nextId := rfl
@[simp] theorem State.advance_agenda (s : State) (n : Nat) (w : BitVec 4) : (s.advance n w).agenda = s.agenda := rfl
@[simp] theorem State.advance_later (s : State) (n : Nat) (w : BitVec 4) : (s.advance n w).later = s.later := rfl
@[simp] theorem State.advance_cur (s : State) (n : Nat) (w : BitVec 4) : (s.advance n w).cur = s.cur := rfl
@[simp] theorem State.advance_vreg (s : State) (n : Nat) (w : BitVec 4) : (s.advance n w).vreg = s.vreg := rfl
@[simp] theorem State.advance_preg (s : State) (n : Nat) (w : BitVec 4) : (s.advance n w).preg = s.preg := rfl
@[simp] theorem State.advance_kreg (s : State) (n : Nat) (w : BitVec 4) : (s.advance n w).kreg = s.kreg := rfl
@[simp] theorem State.advance_tiles (s : State) (n : Nat) (w : BitVec 4) : (s.advance n w).tiles = s.tiles := rfl
@[simp] theorem State.advance_spad (s : State) (n : Nat) (w : BitVec 4) : (s.advance n w).spad = s.spad := rfl
@[simp] theorem State.advance_segs (s : State) (n : Nat) (w : BitVec 4) : (s.advance n w).segs = s.segs := rfl
@[simp] theorem State.advance_threads (s : State) (n : Nat) (w : BitVec 4) : (s.advance n w).threads = s.threads := rfl
@[simp] theorem State.advance_crews (s : State) (n : Nat) (w : BitVec 4) : (s.advance n w).crews = s.crews := rfl
@[simp] theorem State.advance_ctxs (s : State) (n : Nat) (w : BitVec 4) : (s.advance n w).ctxs = s.ctxs := rfl
@[simp] theorem State.advance_mem (s : State) (n : Nat) (w : BitVec 4) : (s.advance n w).mem = s.mem := rfl
@[simp] theorem State.advance_coh (s : State) (n : Nat) (w : BitVec 4) : (s.advance n w).coh = s.coh := rfl
@[simp] theorem State.advance_cores (s : State) (n : Nat) (w : BitVec 4) : (s.advance n w).cores = s.cores := rfl
@[simp] theorem State.advance_eng (s : State) (n : Nat) (w : BitVec 4) : (s.advance n w).eng = s.eng := rfl
@[simp] theorem State.advance_cmd (s : State) (n : Nat) (w : BitVec 4) : (s.advance n w).cmd = s.cmd := rfl
@[simp] theorem State.advance_pkg (s : State) (n : Nat) (w : BitVec 4) : (s.advance n w).pkg = s.pkg := rfl

/-! ## State.hold -/

@[simp] theorem State.hold_clock (s : State) (n : Nat) : (s.hold n).clock = s.clock := rfl
@[simp] theorem State.hold_free (s : State) (n : Nat) : (s.hold n).free = s.free := rfl
@[simp] theorem State.hold_nextId (s : State) (n : Nat) : (s.hold n).nextId = s.nextId := rfl
@[simp] theorem State.hold_agenda (s : State) (n : Nat) : (s.hold n).agenda = s.agenda := rfl
@[simp] theorem State.hold_later (s : State) (n : Nat) : (s.hold n).later = s.later := rfl
@[simp] theorem State.hold_cur (s : State) (n : Nat) : (s.hold n).cur = s.cur := rfl
@[simp] theorem State.hold_vreg (s : State) (n : Nat) : (s.hold n).vreg = s.vreg := rfl
@[simp] theorem State.hold_preg (s : State) (n : Nat) : (s.hold n).preg = s.preg := rfl
@[simp] theorem State.hold_kreg (s : State) (n : Nat) : (s.hold n).kreg = s.kreg := rfl
@[simp] theorem State.hold_tiles (s : State) (n : Nat) : (s.hold n).tiles = s.tiles := rfl
@[simp] theorem State.hold_spad (s : State) (n : Nat) : (s.hold n).spad = s.spad := rfl
@[simp] theorem State.hold_segs (s : State) (n : Nat) : (s.hold n).segs = s.segs := rfl
@[simp] theorem State.hold_threads (s : State) (n : Nat) : (s.hold n).threads = s.threads := rfl
@[simp] theorem State.hold_crews (s : State) (n : Nat) : (s.hold n).crews = s.crews := rfl
@[simp] theorem State.hold_ctxs (s : State) (n : Nat) : (s.hold n).ctxs = s.ctxs := rfl
@[simp] theorem State.hold_mem (s : State) (n : Nat) : (s.hold n).mem = s.mem := rfl
@[simp] theorem State.hold_coh (s : State) (n : Nat) : (s.hold n).coh = s.coh := rfl
@[simp] theorem State.hold_cores (s : State) (n : Nat) : (s.hold n).cores = s.cores := rfl
@[simp] theorem State.hold_eng (s : State) (n : Nat) : (s.hold n).eng = s.eng := rfl
@[simp] theorem State.hold_cmd (s : State) (n : Nat) : (s.hold n).cmd = s.cmd := rfl
@[simp] theorem State.hold_pkg (s : State) (n : Nat) : (s.hold n).pkg = s.pkg := rfl

/-! ## State.setP -/

@[simp] theorem State.setP_clock (s : State) (t n : Nat) (b : Bool) : (s.setP t n b).clock = s.clock := by unfold State.setP; split <;> rfl
@[simp] theorem State.setP_free (s : State) (t n : Nat) (b : Bool) : (s.setP t n b).free = s.free := by unfold State.setP; split <;> rfl
@[simp] theorem State.setP_nextId (s : State) (t n : Nat) (b : Bool) : (s.setP t n b).nextId = s.nextId := by unfold State.setP; split <;> rfl
@[simp] theorem State.setP_agenda (s : State) (t n : Nat) (b : Bool) : (s.setP t n b).agenda = s.agenda := by unfold State.setP; split <;> rfl
@[simp] theorem State.setP_later (s : State) (t n : Nat) (b : Bool) : (s.setP t n b).later = s.later := by unfold State.setP; split <;> rfl
@[simp] theorem State.setP_cur (s : State) (t n : Nat) (b : Bool) : (s.setP t n b).cur = s.cur := by unfold State.setP; split <;> rfl
@[simp] theorem State.setP_vreg (s : State) (t n : Nat) (b : Bool) : (s.setP t n b).vreg = s.vreg := by unfold State.setP; split <;> rfl
@[simp] theorem State.setP_kreg (s : State) (t n : Nat) (b : Bool) : (s.setP t n b).kreg = s.kreg := by unfold State.setP; split <;> rfl
@[simp] theorem State.setP_tiles (s : State) (t n : Nat) (b : Bool) : (s.setP t n b).tiles = s.tiles := by unfold State.setP; split <;> rfl
@[simp] theorem State.setP_spad (s : State) (t n : Nat) (b : Bool) : (s.setP t n b).spad = s.spad := by unfold State.setP; split <;> rfl
@[simp] theorem State.setP_segs (s : State) (t n : Nat) (b : Bool) : (s.setP t n b).segs = s.segs := by unfold State.setP; split <;> rfl
@[simp] theorem State.setP_threads (s : State) (t n : Nat) (b : Bool) : (s.setP t n b).threads = s.threads := by unfold State.setP; split <;> rfl
@[simp] theorem State.setP_crews (s : State) (t n : Nat) (b : Bool) : (s.setP t n b).crews = s.crews := by unfold State.setP; split <;> rfl
@[simp] theorem State.setP_cohorts (s : State) (t n : Nat) (b : Bool) : (s.setP t n b).cohorts = s.cohorts := by unfold State.setP; split <;> rfl
@[simp] theorem State.setP_ctxs (s : State) (t n : Nat) (b : Bool) : (s.setP t n b).ctxs = s.ctxs := by unfold State.setP; split <;> rfl
@[simp] theorem State.setP_mem (s : State) (t n : Nat) (b : Bool) : (s.setP t n b).mem = s.mem := by unfold State.setP; split <;> rfl
@[simp] theorem State.setP_coh (s : State) (t n : Nat) (b : Bool) : (s.setP t n b).coh = s.coh := by unfold State.setP; split <;> rfl
@[simp] theorem State.setP_cores (s : State) (t n : Nat) (b : Bool) : (s.setP t n b).cores = s.cores := by unfold State.setP; split <;> rfl
@[simp] theorem State.setP_eng (s : State) (t n : Nat) (b : Bool) : (s.setP t n b).eng = s.eng := by unfold State.setP; split <;> rfl
@[simp] theorem State.setP_cmd (s : State) (t n : Nat) (b : Bool) : (s.setP t n b).cmd = s.cmd := by unfold State.setP; split <;> rfl
@[simp] theorem State.setP_pkg (s : State) (t n : Nat) (b : Bool) : (s.setP t n b).pkg = s.pkg := by unfold State.setP; split <;> rfl

/-! ## Free draws -/

@[simp] theorem State.drawNat_clock (s : State) : s.drawNat.2.clock = s.clock := rfl
@[simp] theorem State.drawNat_free (s : State) : s.drawNat.2.free = s.free + 1 := rfl
@[simp] theorem State.drawNat_nextId (s : State) : s.drawNat.2.nextId = s.nextId := rfl
@[simp] theorem State.drawNat_agenda (s : State) : s.drawNat.2.agenda = s.agenda := rfl
@[simp] theorem State.drawNat_later (s : State) : s.drawNat.2.later = s.later := rfl
@[simp] theorem State.drawNat_cur (s : State) : s.drawNat.2.cur = s.cur := rfl
@[simp] theorem State.drawNat_vreg (s : State) : s.drawNat.2.vreg = s.vreg := rfl
@[simp] theorem State.drawNat_preg (s : State) : s.drawNat.2.preg = s.preg := rfl
@[simp] theorem State.drawNat_kreg (s : State) : s.drawNat.2.kreg = s.kreg := rfl
@[simp] theorem State.drawNat_tiles (s : State) : s.drawNat.2.tiles = s.tiles := rfl
@[simp] theorem State.drawNat_spad (s : State) : s.drawNat.2.spad = s.spad := rfl
@[simp] theorem State.drawNat_segs (s : State) : s.drawNat.2.segs = s.segs := rfl
@[simp] theorem State.drawNat_threads (s : State) : s.drawNat.2.threads = s.threads := rfl
@[simp] theorem State.drawNat_crews (s : State) : s.drawNat.2.crews = s.crews := rfl
@[simp] theorem State.drawNat_cohorts (s : State) : s.drawNat.2.cohorts = s.cohorts := rfl
@[simp] theorem State.drawNat_ctxs (s : State) : s.drawNat.2.ctxs = s.ctxs := rfl
@[simp] theorem State.drawNat_mem (s : State) : s.drawNat.2.mem = s.mem := rfl
@[simp] theorem State.drawNat_coh (s : State) : s.drawNat.2.coh = s.coh := rfl
@[simp] theorem State.drawNat_cores (s : State) : s.drawNat.2.cores = s.cores := rfl
@[simp] theorem State.drawNat_eng (s : State) : s.drawNat.2.eng = s.eng := rfl
@[simp] theorem State.drawNat_cmd (s : State) : s.drawNat.2.cmd = s.cmd := rfl
@[simp] theorem State.drawNat_pkg (s : State) : s.drawNat.2.pkg = s.pkg := rfl
@[simp] theorem State.drawWord_clock (s : State) : s.drawWord.2.clock = s.clock := rfl
@[simp] theorem State.drawWord_free (s : State) : s.drawWord.2.free = s.free + 1 := rfl
@[simp] theorem State.drawWord_nextId (s : State) : s.drawWord.2.nextId = s.nextId := rfl
@[simp] theorem State.drawWord_agenda (s : State) : s.drawWord.2.agenda = s.agenda := rfl
@[simp] theorem State.drawWord_later (s : State) : s.drawWord.2.later = s.later := rfl
@[simp] theorem State.drawWord_cur (s : State) : s.drawWord.2.cur = s.cur := rfl
@[simp] theorem State.drawWord_vreg (s : State) : s.drawWord.2.vreg = s.vreg := rfl
@[simp] theorem State.drawWord_preg (s : State) : s.drawWord.2.preg = s.preg := rfl
@[simp] theorem State.drawWord_kreg (s : State) : s.drawWord.2.kreg = s.kreg := rfl
@[simp] theorem State.drawWord_tiles (s : State) : s.drawWord.2.tiles = s.tiles := rfl
@[simp] theorem State.drawWord_spad (s : State) : s.drawWord.2.spad = s.spad := rfl
@[simp] theorem State.drawWord_segs (s : State) : s.drawWord.2.segs = s.segs := rfl
@[simp] theorem State.drawWord_threads (s : State) : s.drawWord.2.threads = s.threads := rfl
@[simp] theorem State.drawWord_crews (s : State) : s.drawWord.2.crews = s.crews := rfl
@[simp] theorem State.drawWord_cohorts (s : State) : s.drawWord.2.cohorts = s.cohorts := rfl
@[simp] theorem State.drawWord_ctxs (s : State) : s.drawWord.2.ctxs = s.ctxs := rfl
@[simp] theorem State.drawWord_mem (s : State) : s.drawWord.2.mem = s.mem := rfl
@[simp] theorem State.drawWord_coh (s : State) : s.drawWord.2.coh = s.coh := rfl
@[simp] theorem State.drawWord_cores (s : State) : s.drawWord.2.cores = s.cores := rfl
@[simp] theorem State.drawWord_eng (s : State) : s.drawWord.2.eng = s.eng := rfl
@[simp] theorem State.drawWord_cmd (s : State) : s.drawWord.2.cmd = s.cmd := rfl
@[simp] theorem State.drawWord_pkg (s : State) : s.drawWord.2.pkg = s.pkg := rfl

end Sys2Proof.Machine
end

