-- ==== Sys2Proof/Laws/Operands.lean ====
section
/-! SUPPORT. What reading operands and writing results do to the state, and what the issue of an instruction does around them. -/

namespace Sys2Proof.Machine
open Sys2Proof.Claims

/-! ## Registers -/

@[simp] theorem State.getV_setV_self (s : State) (t n : Nat) (w : Word) : (s.setV t n w).getV t n = w := by
  simp [State.getV]

theorem State.getV_setV_ne (s : State) {t n t' n' : Nat} (w : Word) (h : vKey t' n' ≠ vKey t n) :
    (s.setV t n w).getV t' n' = s.getV t' n' := by
  simp only [State.getV, State.setV_vreg]; exact Map.get_set_ne _ _ _ h

theorem vKey_inj {t n t' n' : Nat} (hn : n < 256) (hn' : n' < 256) : vKey t n = vKey t' n' ↔ t = t' ∧ n = n' := by
  unfold vKey; omega

theorem pKey_inj {t n t' n' : Nat} (hn : n < 8) (hn' : n' < 8) : pKey t n = pKey t' n' ↔ t = t' ∧ n = n' := by
  unfold pKey; omega

theorem kKey_inj {t n t' n' : Nat} (hn : n < 64) (hn' : n' < 64) : kKey t n = kKey t' n' ↔ t = t' ∧ n = n' := by
  unfold kKey; omega

/-- R127: p7 reads true, whatever is written. -/
@[simp] theorem State.getP_seven (s : State) (t : Nat) : s.getP t 7 = true := rfl

theorem State.getP_setP_self (s : State) (t n : Nat) (b : Bool) : (s.setP t n b).getP t n = (n == 7 || b) := by
  unfold State.setP State.getP
  split_ifs with h
  · simp [h]
  · simp

theorem State.getP_setP_ne (s : State) {t n t' n' : Nat} (b : Bool) (h : pKey t' n' ≠ pKey t n) :
    (s.setP t n b).getP t' n' = s.getP t' n' := by
  unfold State.setP State.getP
  split_ifs
  · rfl
  · simp only []; rw [Map.get_set_ne _ _ _ h]

@[simp] theorem State.getK_setK_self (s : State) (c n : Nat) (w : Word) : (s.setK c n w).getK c n = w := by
  simp [State.getK]

theorem State.getK_setK_ne (s : State) {c n c' n' : Nat} (w : Word) (h : kKey c' n' ≠ kKey c n) :
    (s.setK c n w).getK c' n' = s.getK c' n' := by
  simp only [State.getK, State.setK_kreg]; exact Map.get_set_ne _ _ _ h

end Sys2Proof.Machine

namespace Sys2Proof.Claims
open Sys2Proof.Machine

/-! ## The frames as relations -/

theorem RestKept.of_eq {s t : State} (h1 : t.clock = s.clock) (h2 : t.nextId = s.nextId) (h3 : t.agenda = s.agenda)
    (h4 : t.later = s.later) (h5 : t.tiles = s.tiles) (h6 : t.spad = s.spad) (h7 : t.segs = s.segs) (h8 : t.threads = s.threads)
    (h9 : t.ctxs = s.ctxs) (h10 : t.coh = s.coh) (h11 : t.cores = s.cores) (h12 : t.eng = s.eng) (h13 : t.cmd = s.cmd)
    (h14 : t.pkg = s.pkg) (h15 : t.mem = s.mem) : RestKept s t :=
  ⟨h1, h2, h3, h4, h5, h6, h7, h8, h9, h10, h11, h12, h13, h14, fun _ => by rw [h15],
    fun _ _ => by simp only [State.viewByte, h10, h15]⟩

@[refl] theorem RestKept.refl (s : State) : RestKept s s :=
  .of_eq rfl rfl rfl rfl rfl rfl rfl rfl rfl rfl rfl rfl rfl rfl rfl

theorem RestKept.trans {s t u : State} (h : RestKept s t) (k : RestKept t u) : RestKept s u := by
  constructor <;> first
    | (intro a; rw [k.bytes, h.bytes])
    | (intro d a; rw [k.views, h.views])
    | simp only [k.clock, k.nextId, k.agenda, k.later, k.tiles, k.spad, k.segs, k.threads, k.ctxs, k.coh, k.cores, k.eng, k.cmd, k.pkg,
        h.clock, h.nextId, h.agenda, h.later, h.tiles, h.spad, h.segs, h.threads, h.ctxs, h.coh, h.cores, h.eng, h.cmd, h.pkg]

@[refl] theorem CrewsKept.refl (s : State) : CrewsKept s s := ⟨fun _ => rfl⟩

theorem CrewsKept.trans {s t u : State} (h : CrewsKept s t) (k : CrewsKept t u) : CrewsKept s u :=
  ⟨fun n => (k.crew n).trans (h.crew n)⟩

theorem CrewsKept.of_eq {s t : State} (h : t.crews = s.crews) : CrewsKept s t := ⟨fun n => by rw [h]⟩

/-- Changing a crew's conduits and k writes only. -/
theorem CrewsKept.modCrew (s : State) (n : Nat) {f : Crew → Crew} (h : ∀ w, bare (f w) = bare w) : CrewsKept s (s.modCrew n f) := by
  refine ⟨fun m => ?_⟩
  by_cases hm : m = n
  · subst hm; simp only [State.modCrew_crews, Map.find_modify_self, Option.map_map]; congr 1; funext w; exact h w
  · simp only [State.modCrew_crews]; rw [Map.find_modify_ne _ _ hm]

theorem OperandsRead.refl (s : State) : OperandsRead s s := ⟨rfl, rfl, rfl, rfl, .refl s, .refl s⟩

theorem OperandsRead.trans {s t u : State} (h : OperandsRead s t) (k : OperandsRead t u) : OperandsRead s u :=
  ⟨k.v.trans h.v, k.p.trans h.p, k.k.trans h.k, k.cohorts.trans h.cohorts, h.crews.trans k.crews, h.rest.trans k.rest⟩

/-- A change of a crew's conduits and k writes is all that reading makes. -/
theorem OperandsRead.modCrew (s : State) (n : Nat) {f : Crew → Crew} (h : ∀ w, bare (f w) = bare w) :
    OperandsRead s (s.modCrew n f) :=
  ⟨rfl, rfl, rfl, rfl, .modCrew s n h, .of_eq rfl rfl rfl rfl rfl rfl rfl rfl rfl rfl rfl rfl rfl rfl rfl⟩

theorem OperandsRead.drawNat (s : State) : OperandsRead s s.drawNat.2 :=
  ⟨rfl, rfl, rfl, rfl, .of_eq rfl, .of_eq rfl rfl rfl rfl rfl rfl rfl rfl rfl rfl rfl rfl rfl rfl rfl⟩

end Sys2Proof.Claims

namespace Sys2Proof.Machine
open Sys2Proof.Claims

/-! ## Reading operands (R24, R90, R129) -/

theorem State.kChoice_read (s : State) (c : Cohort) (es : List KPend) : OperandsRead s (s.kChoice c es).2 := by
  unfold State.kChoice
  dsimp only
  split
  · exact .refl s
  · exact .drawNat s

theorem State.kSaw_read (s : State) (c : Cohort) (es : List KPend) : OperandsRead s (s.kSaw c es) := by
  unfold State.kSaw
  dsimp only
  split
  · exact .refl s
  · exact .modCrew _ _ fun _ => rfl

theorem State.seenK_read (s : State) (c : Cohort) (n : Nat) : OperandsRead s (s.seenK c n).2 := by
  unfold State.seenK
  dsimp only
  have h (es : List KPend) := (s.kChoice_read c es).trans ((s.kChoice c es).2.kSaw_read c (es.take (s.kChoice c es).1))
  split <;> exact h _

theorem State.seenK64_read (s : State) (c : Cohort) (n : Nat) : OperandsRead s (s.seenK64 c n).2 := by
  have h := s.seenK_read c n
  unfold State.seenK64
  generalize s.seenK c n = p at h ⊢
  obtain ⟨lo, u⟩ := p
  have k := u.seenK_read c (n + 1)
  dsimp only
  generalize u.seenK c (n + 1) = q at k ⊢
  obtain ⟨hi, v⟩ := q
  exact h.trans k

theorem State.popQ_read (s : State) (keep : List Nat) (crew q n : Nat) : OperandsRead s (s.popQ keep crew q n).2 := by
  unfold State.popQ
  split
  · exact .refl s
  · exact .modCrew _ _ fun _ => rfl

theorem State.readSrc_read (s : State) (keep : List Nat) (c : Cohort) (lanes : List Lane) (sp : OpSpec) (t : Ty) (z : Bool) (x : Src) :
    OperandsRead s (s.readSrc keep c lanes sp t z x).2 := by
  unfold State.readSrc
  dsimp only
  split
  · exact .refl s
  · exact .refl s
  · split
    · exact .refl s
    · split
      · have h := s.seenK64_read c x.reg.num.toNat
        generalize s.seenK64 c x.reg.num.toNat = p at h ⊢
        exact h
      · have h := s.seenK_read c x.reg.num.toNat
        generalize s.seenK c x.reg.num.toNat = p at h ⊢
        exact h
    · exact s.popQ_read _ _ _ _

theorem State.readB_read (s : State) (keep : List Nat) (c : Cohort) (lanes : List Lane) (sp : OpSpec) (t : Ty) (z : Bool) (b : SrcB) :
    OperandsRead s (s.readB keep c lanes sp t z b).2 := by
  unfold State.readB
  split
  · exact s.readSrc_read ..
  · exact .refl s

/-- Reading the operands of an arithmetic instruction takes entries of conduits and settles what has been seen of crew registers; it
changes nothing else. -/
theorem State.operands_read (s : State) (c : Cohort) (o : AluOp) (x : Alu) (lanes : List Lane) :
    OperandsRead s (s.operands c o x lanes).2 := by
  unfold State.operands
  exact ((s.readSrc_read ..).trans (State.readB_read ..)).trans (State.readSrc_read ..)

/-! ## Writing results -/

/-- Only what a cohort's results still wait for has changed among the cohorts. -/
structure PendOnly (s t : State) (cid : Nat) : Prop where
  others : ∀ n, n ≠ cid → t.cohorts.find n = s.cohorts.find n
  self   : (t.cohorts.find cid).map (fun k => { k with pend := [], pushed := 0 }) =
    (s.cohorts.find cid).map (fun k => { k with pend := [], pushed := 0 })

theorem PendOnly.refl (s : State) (cid : Nat) : PendOnly s s cid := ⟨fun _ _ => rfl, rfl⟩

theorem PendOnly.trans {s t u : State} {cid : Nat} (h : PendOnly s t cid) (k : PendOnly t u cid) : PendOnly s u cid :=
  ⟨fun n hn => (k.others n hn).trans (h.others n hn), k.self.trans h.self⟩

theorem PendOnly.of_eq {s t : State} {cid : Nat} (h : t.cohorts = s.cohorts) : PendOnly s t cid := by
  constructor <;> simp [h]

theorem State.pendWrite_only (s : State) (cid : Nat) (f : RegFile) (key old lat least : Nat) :
    PendOnly s (s.pendWrite cid f key old lat least) cid := by
  unfold State.pendWrite
  refine ⟨fun n hn => by simp only [State.modCohort_cohorts]; exact Map.find_modify_ne _ _ hn, ?_⟩
  simp only [State.modCohort_cohorts, Map.find_modify_self, Option.map_map]
  congr 1; funext k; simp only [Function.comp]; split <;> rfl

/-- What writing results keeps: everything but registers, a cohort's pending results, conduits and k writes. -/
structure PutKept (s t : State) (cid : Nat) : Prop where
  cohorts : PendOnly s t cid
  crews   : CrewsKept s t
  rest    : RestKept s t

theorem PutKept.refl (s : State) (cid : Nat) : PutKept s s cid := ⟨.refl s cid, .refl s, .refl s⟩

theorem PutKept.trans {s t u : State} {cid : Nat} (h : PutKept s t cid) (k : PutKept t u cid) : PutKept s u cid :=
  ⟨h.cohorts.trans k.cohorts, h.crews.trans k.crews, h.rest.trans k.rest⟩

theorem State.pendWrite_kept (s : State) (cid : Nat) (f : RegFile) (key old lat least : Nat) : PutKept s (s.pendWrite cid f key old lat least) cid :=
  ⟨s.pendWrite_only .., .of_eq rfl, .of_eq rfl rfl rfl rfl rfl rfl rfl rfl rfl rfl rfl rfl rfl rfl rfl⟩

theorem State.putV_kept (s : State) (cid tid n : Nat) (w : Word) (lat : Nat) : PutKept s (s.putV cid tid n w lat) cid :=
  (s.pendWrite_kept ..).trans ⟨.of_eq rfl, .of_eq rfl, .of_eq rfl rfl rfl rfl rfl rfl rfl rfl rfl rfl rfl rfl rfl rfl rfl⟩

theorem State.setP_kept (s : State) (cid tid n : Nat) (b : Bool) : PutKept s (s.setP tid n b) cid :=
  ⟨.of_eq (by simp), .of_eq (by simp), .of_eq (by simp) (by simp) (by simp) (by simp) (by simp) (by simp) (by simp) (by simp) (by simp)
    (by simp) (by simp) (by simp) (by simp) (by simp) (by simp)⟩

theorem State.putP_kept (s : State) (cid tid n : Nat) (b : Bool) (lat : Nat) : PutKept s (s.putP cid tid n b lat) cid :=
  (s.pendWrite_kept ..).trans (State.setP_kept ..)

theorem State.modCrew_kept (s : State) (cid n : Nat) {f : Crew → Crew} (h : ∀ w, bare (f w) = bare w) : PutKept s (s.modCrew n f) cid :=
  ⟨.of_eq rfl, .modCrew s n h, .of_eq rfl rfl rfl rfl rfl rfl rfl rfl rfl rfl rfl rfl rfl rfl rfl⟩

theorem State.putK_kept (s : State) (cid crew n : Nat) (w : Word) (lat : Nat) : PutKept s (s.putK cid crew n w lat) cid := by
  have hset (u : State) : PutKept u (u.setK crew n w) cid :=
    ⟨.of_eq rfl, .of_eq rfl, .of_eq rfl rfl rfl rfl rfl rfl rfl rfl rfl rfl rfl rfl rfl rfl rfl⟩
  unfold State.putK
  dsimp only
  generalize List.foldl _ 0 _ = least
  have hp := s.pendWrite_kept cid .k (kKey crew n) (s.getK crew n).toNat lat least
  split
  · exact hp.trans (hset _)
  · generalize placeK _ w _ = p
    have hm := hp.trans (State.modCrew_kept (s.pendWrite cid .k (kKey crew n) (s.getK crew n).toNat lat least) cid crew
      (f := fun r => { r with kPend := p.1 }) fun _ => rfl)
    split
    · exact hm.trans (hset _)
    · exact hm

theorem State.putLane_kept (s : State) (cid tid n : Nat) (wide : Bool) (v lat : Nat) : PutKept s (s.putLane cid tid n wide v lat) cid := by
  unfold State.putLane; dsimp only; split
  · exact (s.putV_kept ..).trans (State.putV_kept ..)
  · exact s.putV_kept ..

theorem State.putCrew_kept (s : State) (cid crew n : Nat) (wide : Bool) (v lat : Nat) :
    PutKept s (s.putCrew cid crew n wide v lat) cid := by
  unfold State.putCrew; dsimp only; split
  · exact (s.putK_kept ..).trans (State.putK_kept ..)
  · exact s.putK_kept ..

theorem PutKept.foldl {α : Type} {cid : Nat} {f : State → α → State} (h : ∀ s a, PutKept s (f s a) cid) (s : State) (l : List α) :
    PutKept s (l.foldl f s) cid := by
  induction l generalizing s with
  | nil => exact .refl s cid
  | cons a l ih => exact (h s a).trans (ih _)

theorem State.pushQ_kept (s : State) (cid crew q : Nat) (ws : List Word) (ready : Nat) : PutKept s (s.pushQ crew q ws ready) cid :=
  State.modCrew_kept _ _ _ fun w => by split <;> rfl

/-- Writing results changes registers, conduits and what is pending, and nothing else. -/
theorem State.writeDst_kept (s : State) (c : Cohort) (sp : OpSpec) (d : Reg) (lat : Nat) (res : List (Lane × Nat)) :
    PutKept s (s.writeDst c sp d lat res) c.id := by
  unfold State.writeDst
  dsimp only
  split
  · exact .refl s _
  · exact .foldl (fun s r => s.putP_kept ..) s res
  · split
    · exact .foldl (fun s r => s.putLane_kept ..) s res
    · split
      · exact .refl s _
      · exact s.putCrew_kept ..
    · exact (s.pushQ_kept ..).trans ⟨⟨fun n hn => by simp only [State.modCohort_cohorts]; exact Map.find_modify_ne _ _ hn, by
        simp only [State.modCohort_cohorts, Map.find_modify_self, Option.map_map]; rfl⟩, .of_eq rfl,
        .of_eq rfl rfl rfl rfl rfl rfl rfl rfl rfl rfl rfl rfl rfl rfl rfl⟩

end Sys2Proof.Machine
end

