-- ==== Sys2Proof/Laws/Issue.lean ====
section
/-! SUPPORT. The issue of an instruction: which cohort it runs for, what it leaves once it has had its effect, and the whole of an arithmetic
instruction. -/

namespace Sys2Proof.Claims
open Sys2Proof.Machine

theorem onCohort_next {s : State} {c : Cohort} (h : Issues s c) (f : Cohort → State → State) : onCohort s f = .next (f c (begun s)) := by
  unfold onCohort; rw [h.1]; simp only [Option.bind_some, h.2]; rfl

/-- An instruction that no checker stops leaves its effect, noted, in a cohort that has gone on. -/
theorem issue_of_passes {s : State} {c : Cohort} {i : Instr} {p : Pred} (h : Passes s c i p) (stall : BitVec 4)
    (f : State → List Lane → State) : s.issue c i p stall f = finished s (f s (s.execLanes c p)) c i p stall := by
  unfold State.issue
  dsimp only
  rw [h.1, h.2]; rfl

/-- The same where the meaning begins. -/
theorem issue_passes {s : State} {c : Cohort} {i : Instr} {p : Pred} (h : Passes s c i p) (stall : BitVec 4)
    (f : State → List Lane → State) : (begun s).issue c i p stall f = finished s (f (begun s) (s.execLanes c p)) c i p stall :=
  issue_of_passes (s := begun s) h stall f

end Sys2Proof.Claims
end

