-- ==== Sys2Proof/Laws/Filing.lean ====
section
/-! SUPPORT. Filing a thread, and taking a thread-level cause: all that they change. -/

namespace Sys2Proof.Claims
open Sys2Proof.Machine

/-- Only the table of threads has changed. -/
def ThreadsOnly (s t : State) : Prop := ∃ l, t = { s with threads := l }

theorem ThreadsOnly.refl (s : State) : ThreadsOnly s s := ⟨s.threads, rfl⟩

theorem ThreadsOnly.trans {s t u : State} (h : ThreadsOnly s t) (k : ThreadsOnly t u) : ThreadsOnly s u := by
  obtain ⟨l, rfl⟩ := h; obtain ⟨m, rfl⟩ := k; exact ⟨m, rfl⟩

theorem ThreadsOnly.modThread (s : State) (n : Nat) (f : Thread → Thread) : ThreadsOnly s (s.modThread n f) := ⟨_, rfl⟩

theorem ThreadsOnly.setThread (s : State) (t : Thread) : ThreadsOnly s (s.setThread t) := ⟨_, rfl⟩

theorem ThreadsOnly.foldl {α : Type} {f : State → α → State} (h : ∀ s a, ThreadsOnly s (f s a)) (s : State) (l : List α) :
    ThreadsOnly s (l.foldl f s) := by
  induction l generalizing s with
  | nil => exact .refl s
  | cons a l ih => exact (h s a).trans (ih _)

end Sys2Proof.Claims

namespace Sys2Proof.Machine
open Sys2Proof.Claims

theorem State.find_modThread_self (s : State) (n : Nat) (f : Thread → Thread) :
    (s.modThread n f).threads.find n = (s.threads.find n).map f := by simp [State.modThread]

theorem State.find_modThread_ne (s : State) {n m : Nat} (f : Thread → Thread) (h : m ≠ n) :
    (s.modThread n f).threads.find m = s.threads.find m := by simp [State.modThread, Map.find_modify_ne _ _ h]

/-- Every thread is as before but for its place on the overflow list or in a bin. -/
def BinsOnly (s t : State) : Prop :=
  ThreadsOnly s t ∧ ∀ n, t.threads.find n = s.threads.find n ∨ t.threads.find n = (s.threads.find n).map Thread.toBin

@[simp] theorem Thread.toBin_toBin (t : Thread) : t.toBin.toBin = t.toBin := by
  unfold Thread.toBin; cases h : t.place <;> simp [h]

theorem BinsOnly.refl (s : State) : BinsOnly s s := ⟨.refl s, fun _ => .inl rfl⟩

theorem BinsOnly.trans {s t u : State} (h : BinsOnly s t) (k : BinsOnly t u) : BinsOnly s u := by
  refine ⟨h.1.trans k.1, fun n => ?_⟩
  rcases h.2 n with h | h <;> rcases k.2 n with k | k
  · exact .inl (k.trans h)
  · exact .inr (by rw [k, h])
  · exact .inr (k.trans h)
  · refine .inr (by rw [k, h, Option.map_map]; congr 1; funext t; exact t.toBin_toBin)

/-- Moving a key's overflow threads into its bin changes nothing else (R77). -/
theorem State.takeIn_only (s : State) (core : Nat) (k : BinKey) : BinsOnly s (s.takeIn core k) := by
  unfold State.takeIn
  suffices h : ∀ (l : List (Thread × BinKey × Filing)) (s : State),
      BinsOnly s (l.foldl (fun s e => if e.2.1 == k then s.modThread e.1.id Thread.toBin else s) s) from h _ _
  intro l
  induction l with
  | nil => exact fun s => .refl s
  | cons e l ih =>
    intro s
    refine BinsOnly.trans ?_ (ih _)
    dsimp only
    split
    · refine ⟨.modThread _ _ _, fun n => ?_⟩
      by_cases h : n = e.1.id
      · exact .inr (h ▸ State.find_modThread_self ..)
      · exact .inl (State.find_modThread_ne _ _ h)
    · exact .refl s

/-- Filing puts the thread where its filing says, in a bin or on the overflow list, and changes nothing else (R76, R77). -/
theorem State.file_eq (s : State) (tid : Nat) (f : Filing) {th : Thread} (h : s.threads.find tid = some th) :
    ∃ u b, BinsOnly s u ∧ s.file tid f = u.modThread tid fun t => { t with place := .filed { f with overflow := b } } := by
  unfold State.file
  rw [h]
  dsimp only
  split
  · exact ⟨s, false, .refl s, rfl⟩
  · split
    · exact ⟨s, false, .refl s, rfl⟩
    · split
      · exact ⟨_, false, s.takeIn_only _ _, rfl⟩
      · exact ⟨s, true, .refl s, rfl⟩

theorem State.file_only (s : State) (tid : Nat) (f : Filing) : ThreadsOnly s (s.file tid f) := by
  cases h : s.threads.find tid with
  | none => unfold State.file; rw [h]; exact .refl s
  | some th => obtain ⟨u, b, hu, e⟩ := s.file_eq tid f h; rw [e]; exact hu.1.trans (.modThread _ _ _)

/-- The thread keeps everything but its place. -/
theorem State.file_find (s : State) (tid : Nat) (f : Filing) {th : Thread} (h : s.threads.find tid = some th) :
    ∃ b, (s.file tid f).threads.find tid = some { th with place := .filed { f with overflow := b } } := by
  obtain ⟨u, b, hu, e⟩ := s.file_eq tid f h
  refine ⟨b, ?_⟩
  rw [e, State.find_modThread_self]
  rcases hu.2 tid with k | k <;> rw [k, h]
  · rfl
  · simp only [Option.map_some, Thread.toBin]; split <;> rfl

/-- A thread that waits nowhere is not touched by the filing of another. -/
theorem State.file_find_ne (s : State) {tid n : Nat} (f : Filing) {th : Thread} (hn : n ≠ tid) (h : s.threads.find n = some th)
    (hw : th.waits = none) : (s.file tid f).threads.find n = some th := by
  cases hs : s.threads.find tid with
  | none => unfold State.file; rw [hs]; exact h
  | some t =>
    obtain ⟨u, b, hu, e⟩ := s.file_eq tid f hs
    rw [e, State.find_modThread_ne _ _ hn]
    rcases hu.2 n with k | k
    · rw [k, h]
    · rw [k, h]
      unfold Thread.waits at hw
      simp only [Option.map_some, Thread.toBin]
      split
      · simp_all
      · rfl

end Sys2Proof.Machine
end

