-- ==== Sys2Proof/Tests/Slice0.lean ====
section
/-! SUPPORT. The package's own tests: words written out from the encodings of the spec, ill-formed terms that the checks refuse, words
refused by name, single steps on small states, and states that meet the hypotheses of the statements. -/

set_option Elab.async false

namespace Sys2Proof.Tests
open Sys2Proof Sys2Proof.Machine Sys2Proof.Claims

/-! ## Words: put together from the field tables of R21 to R35, or taken from the spec's own assembled programs -/

/-- An operand of the v file as it stands. -/
def sv (n : BitVec 8) : Src := ⟨⟨.v, n⟩, ⟨false, 0, 0, .identity⟩, false, false⟩
def src (f : RFile) (n : BitVec 8) (m : Modifier) (neg abs : Bool) : Src := ⟨⟨f, n⟩, m, neg, abs⟩
/-- The word decodes to the instruction, which is well formed and is encoded by the word. -/
def is (p : Nat × Instr) : Bool :=
  match decode (BitVec.ofNat 128 p.1) with
  | .ok i => i = p.2 && p.2.wf && encode p.2 == BitVec.ofNat 128 p.1
  | .error _ => false
/-- The word is refused with a cause. -/
def no (p : Nat × Cause) : Bool := match decode (BitVec.ofNat 128 p.1) with
  | .ok _ => false
  | .error c => c = p.2

theorem test_decode_traces : [
    (0x00000000000000000000000000005300, .nop ⟨⟨false, 3⟩, 5⟩),
    (0x000000000000000000000000000000ff, .illegal),
    (0x00000000000000000000202014100701, .trc ⟨0, false, false, 0x141, 2, 16⟩),
    (0x00000000000000000000009000000a02, .guard ⟨⟨true, 2⟩, 0, 0, 0x0, 0x0, 0x9⟩),
    (0x0007fff8000000000000008000f00703, .guardr ⟨⟨false, 7⟩, 0, 15, 0x8000, 0x7fff, 8⟩),
    (0x00000000000000000000007000e00704, .guardnz ⟨⟨false, 7⟩, 0, 14, 0, 0, 7⟩),
    (0x00000000000000000000004000000105, .skip ⟨⟨false, 1⟩, 0, 3⟩),
    (0x00000000000000000000000000000708, .trigger ⟨⟨false, 7⟩, 0⟩),
    (0x0000000000000000000000000000070b, .yield ⟨⟨false, 7⟩, 0⟩),
    (0x00000000000000050000000000080709, .trap ⟨⟨false, 7⟩, 0, .u32, ⟨.v, 0⟩, ⟨.v, 0⟩, 5⟩),
    (0x0000000000000077000000000008020a, .brk ⟨⟨false, 2⟩, 0, .u32, ⟨.v, 0⟩, ⟨.v, 0⟩, 0x77⟩),
    (0x0000000000000003000000000008073f, .srd ⟨⟨false, 7⟩, 0, .u32, ⟨.v, 0⟩, ⟨.v, 0⟩, 3⟩),
    (0x00000000000000000000000030004707, .matchKey ⟨⟨false, 7⟩, 4, 0, .u32, .rn, false, false, ⟨.v, 0⟩, sv 3, .src (sv 0), sv 0⟩),
    (0x000000000200000000000000204047e4, .qstat ⟨⟨false, 7⟩, 4, 0, .u32, .rn, false, false, ⟨.v, 4⟩, src .q 2 ⟨false, 0, 0, .identity⟩ false false, .src (sv 0), sv 0⟩)].all is = true := by decide

theorem test_decode_commits : [
    (0x00100000309000000000000000000706, .commitNext ⟨⟨false, 7⟩, 0, 0, 0, 0x0, 0x0, some ⟨3, 9⟩, none, 0, 0⟩),
    (0x00302050104000001fffffc000010006, .commitSel ⟨⟨false, 0⟩, 0, 0, 0, 0xfffffc, 0x1, some ⟨1, 4⟩, some ⟨2, 5⟩, 0, 0⟩),
    (0x00000000000000000000000000620706, .commitInd ⟨⟨false, 7⟩, 0, 6, 0, 0x0, 0x0, none, none, 0, 0⟩),
    (0x00202050000000000fffffd000a30706, .commitCall ⟨⟨false, 7⟩, 0, 10, 0, 0xfffffd, 0x0, none, some ⟨2, 5⟩, 0, 0⟩),
    (0x00000000000000000000000000c40706, .commitRet ⟨⟨false, 7⟩, 0, 12, 0, 0x0, 0x0, none, none, 0, 0⟩),
    (0x00000000000000000000000000050706, .commitExit ⟨⟨false, 7⟩, 0, 0, 0, 0x0, 0x0, none, none, 0, 0⟩),
    (0x00000000000000000000006070560706, .commitBar ⟨⟨false, 7⟩, 0, 5, 7, 0x6, 0x0, none, none, 0, 0⟩),
    (0x00001f40020000000000002030070706, .commitRwait ⟨⟨false, 7⟩, 0, 0, 3, 0x2, 0x0, none, none, 32, 500⟩)].all is = true := by decide

theorem test_decode_integers : [
    (0x00000241000000008d10006040504720, .iadd ⟨⟨false, 7⟩, 4, 0, .s32, .rn, true, false, ⟨.v, 5⟩, src .v 4 ⟨true, 3, 2, .rotate⟩ false false, .src (src .v 6 ⟨false, 0, 0, .identity⟩ true false), sv 0⟩),
    (0x00000000010203040460000080984721, .isub ⟨⟨false, 7⟩, 4, 0, .u8x4, .rn, true, false, ⟨.v, 9⟩, sv 8, .imm 0x1020304, sv 0⟩),
    (0x000000000000006400100000e0f86722, .imul ⟨⟨false, 7⟩, 6, 0, .s32, .rn, false, false, ⟨.v, 15⟩, sv 14, .imm 0x64, sv 0⟩),
    (0x00000002000000000000006040206723, .imulh ⟨⟨false, 7⟩, 6, 0, .u64, .rn, false, false, ⟨.v, 2⟩, sv 4, .src (sv 6), sv 0⟩),
    (0x00000403000000000000806040206724, .imad ⟨⟨false, 7⟩, 6, 0, .s64, .rn, false, false, ⟨.v, 2⟩, sv 4, .src (sv 6), src .v 8 ⟨false, 0, 0, .identity⟩ true false⟩),
    (0x00000001000000000000605040216724, .imadLong ⟨⟨false, 7⟩, 6, 1, .s32, .rn, false, false, ⟨.v, 2⟩, sv 4, .src (sv 5), sv 6⟩),
    (0x00001005000000000000003020104725, .imin ⟨⟨false, 7⟩, 4, 0, .s16x2, .rn, false, false, ⟨.v, 1⟩, sv 2, .src (src .v 3 ⟨false, 0, 0, .identity⟩ false true), sv 0⟩),
    (0x00000000000000070000000020184726, .imax ⟨⟨false, 7⟩, 4, 0, .u32, .rn, false, false, ⟨.v, 1⟩, sv 2, .imm 0x7, sv 0⟩),
    (0x00000002000000000000006040234727, .iaddc ⟨⟨false, 7⟩, 4, 3, .u64, .rn, false, false, ⟨.v, 2⟩, sv 4, .src (sv 6), sv 0⟩),
    (0x00000000010000000000003020104728, .and ⟨⟨false, 7⟩, 4, 0, .u32, .rn, false, false, ⟨.v, 1⟩, src .k 2 ⟨false, 0, 0, .identity⟩ false false, .src (sv 3), sv 0⟩),
    (0x00000000040000000000003020104729, .or ⟨⟨false, 7⟩, 4, 0, .u32, .rn, false, false, ⟨.v, 1⟩, sv 2, .src (src .k 3 ⟨false, 0, 0, .identity⟩ false false), sv 0⟩),
    (0x00000000ffffffff002000004028472a, .xor ⟨⟨false, 7⟩, 4, 0, .u64, .rn, false, false, ⟨.v, 2⟩, sv 4, .imm 0xffffffff, sv 0⟩),
    (0x0000006a00000000000040302010472b, .lop3 ⟨⟨false, 7⟩, 4, 0, .u32, .rn, false, false, ⟨.v, 1⟩, sv 2, .src (sv 3), sv 4⟩ 0x6a),
    (0x0000000000000021002000004028472c, .shl ⟨⟨false, 7⟩, 4, 0, .u64, .rn, false, false, ⟨.v, 2⟩, sv 4, .imm 0x21, sv 0⟩),
    (0x0000000000000000000000302010472d, .shr ⟨⟨false, 7⟩, 4, 0, .u32, .rn, false, false, ⟨.v, 1⟩, sv 2, .src (sv 3), sv 0⟩),
    (0x0000000300000000000000304020472e, .sha ⟨⟨false, 7⟩, 4, 0, .s64, .rn, false, false, ⟨.v, 2⟩, sv 4, .src (sv 3), sv 0⟩),
    (0x0000000000000000000040302011472f, .funnel ⟨⟨false, 7⟩, 4, 1, .u32, .rn, false, false, ⟨.v, 1⟩, sv 2, .src (sv 3), sv 4⟩),
    (0x00000000000008040010000020184730, .bfe ⟨⟨false, 7⟩, 4, 0, .s32, .rn, false, false, ⟨.v, 1⟩, sv 2, .imm 0x804, sv 0⟩),
    (0x00000002000000000000106040204731, .bfi ⟨⟨false, 7⟩, 4, 0, .u64, .rn, false, false, ⟨.v, 2⟩, sv 4, .src (sv 6), sv 1⟩),
    (0x00000002000000000000000020104732, .popc ⟨⟨false, 7⟩, 4, 0, .u64, .rn, false, false, ⟨.v, 1⟩, sv 2, .src (sv 0), sv 0⟩),
    (0x00000000000000000000000020104733, .clz ⟨⟨false, 7⟩, 4, 0, .u32, .rn, false, false, ⟨.v, 1⟩, sv 2, .src (sv 0), sv 0⟩),
    (0x00000002000000000000000040204734, .brev ⟨⟨false, 7⟩, 4, 0, .u64, .rn, false, false, ⟨.v, 2⟩, sv 4, .src (sv 0), sv 0⟩),
    (0x00000000000000000000403020104735, .prmt ⟨⟨false, 7⟩, 4, 0, .u32, .rn, false, false, ⟨.v, 1⟩, sv 2, .src (sv 3), sv 4⟩),
    (0x000000000000000000100000401c4736, .iset ⟨⟨false, 7⟩, 4, 4, .s32, .rn, false, false, ⟨.v, 1⟩, sv 4, .imm 0x0, sv 0⟩),
    (0x00000000000000000000007010224737, .pset ⟨⟨false, 7⟩, 4, 2, .u32, .rn, false, false, ⟨.v, 2⟩, sv 1, .src (sv 7), sv 0⟩),
    (0x0000000200000000000000c0a1004738, .sel ⟨⟨false, 7⟩, 4, 0, .u64, .rn, false, false, ⟨.v, 16⟩, sv 10, .src (sv 12), sv 0⟩),
    (0x000000008000000002b0000010204739, .mov ⟨⟨false, 7⟩, 4, 0, .u32, .rn, false, false, ⟨.q, 2⟩, src .v 1 ⟨false, 0, 5, .broadcast⟩ false false, .src (sv 0), sv 0⟩),
    (0x00000000fffffff8001000004048443c, .padd ⟨⟨false, 4⟩, 4, 0, .s32, .rn, false, false, ⟨.v, 4⟩, sv 4, .imm 0xfffffff8, sv 0⟩),
    (0x0000000000000000000000408082473d, .lea ⟨⟨false, 7⟩, 4, 2, .u32, .rn, false, false, ⟨.v, 8⟩, sv 8, .src (sv 4), sv 0⟩),
    (0x0000004f0000000000000000f111473e, .cvti ⟨⟨false, 7⟩, 4, 1, .s16, .rn, true, false, ⟨.v, 17⟩, sv 15, .src (sv 0), sv 0⟩),
    (0x00000000fffffff0003000000048473a, .movi ⟨⟨false, 7⟩, 4, .s64, ⟨.v, 4⟩, ⟨.v, 0⟩, 0xfffffff0⟩),
    (0x8200000003011420002000000048473b, .movi64 ⟨⟨false, 7⟩, 4, ⟨.v, 4⟩, 0x8200000003011420⟩)].all is = true := by decide

theorem test_decode_exchanges : [
    (0x00000002000000000000003040210780, .shfl ⟨⟨false, 7⟩, 0, 1, .u64, .rn, false, false, ⟨.v, 2⟩, sv 4, .src (sv 3), sv 0⟩),
    (0x00000000400000000000000010730781, .vote ⟨⟨false, 7⟩, 0, 3, .u32, .rn, false, false, ⟨.k, 7⟩, sv 1, .src (sv 0), sv 0⟩),
    (0x00000002000000000000000020100782, .matchv ⟨⟨false, 7⟩, 0, 0, .u64, .rn, false, false, ⟨.v, 1⟩, sv 2, .src (sv 0), sv 0⟩),
    (0x00000000000000000000300020100783, .compact ⟨⟨false, 7⟩, 0, 0, .u32, .rn, false, false, ⟨.v, 1⟩, sv 2, .src (sv 0), sv 3⟩),
    (0x00000000000000000000000050610184, .scan ⟨⟨false, 1⟩, 0, 1, .u32, .rn, false, false, ⟨.v, 6⟩, sv 5, .src (sv 0), sv 0⟩),
    (0x00000000400000000000000060000785, .redux ⟨⟨false, 7⟩, 0, 0, .u32, .rn, false, false, ⟨.k, 0⟩, sv 6, .src (sv 0), sv 0⟩)].all is = true := by decide

theorem test_decode_floats : [
    (0x000009d7000008990000002010307750, .fadd ⟨⟨false, 7⟩, 7, 0, .f32, .rz, true, true, ⟨.v, 3⟩, src .v 1 ⟨false, 0, 0, .identity⟩ true true, .src (src .v 2 ⟨true, 2, 3, .rotate⟩ false false), sv 0⟩),
    (0x00000000400000000270000010386751, .fmul ⟨⟨false, 7⟩, 6, 0, .f32, .ru, false, false, ⟨.v, 3⟩, sv 1, .imm 0x40000000, sv 0⟩),
    (0x00000407000000000000706060806752, .ffma ⟨⟨false, 7⟩, 6, 0, .f32, .rn, false, false, ⟨.v, 8⟩, sv 6, .src (sv 6), src .v 7 ⟨false, 0, 0, .identity⟩ true false⟩),
    (0x00000208000000000000006040208760, .dadd ⟨⟨false, 7⟩, 8, 0, .f64, .rn, false, false, ⟨.v, 2⟩, sv 4, .src (src .v 6 ⟨false, 0, 0, .identity⟩ true false), sv 0⟩),
    (0x000000003f0000000380000040288761, .dmul ⟨⟨false, 7⟩, 8, 0, .f64, .rd, false, false, ⟨.v, 2⟩, sv 4, .imm 0x3f000000, sv 0⟩),
    (0x00000008000000000000806040208762, .dfma ⟨⟨false, 7⟩, 8, 0, .f64, .rn, false, false, ⟨.v, 2⟩, sv 4, .src (sv 6), sv 8⟩),
    (0x00000009000000000000003020106768, .hadd2 ⟨⟨false, 7⟩, 6, 0, .bf16x2, .rn, false, false, ⟨.v, 1⟩, sv 2, .src (sv 3), sv 0⟩),
    (0x0000008a000000000000003020106769, .hmul2 ⟨⟨false, 7⟩, 6, 0, .f16x2, .rn, false, true, ⟨.v, 1⟩, sv 2, .src (sv 3), sv 0⟩),
    (0x0000000900000000000040302010676a, .hfma2 ⟨⟨false, 7⟩, 6, 0, .bf16x2, .rn, false, false, ⟨.v, 1⟩, sv 2, .src (sv 3), sv 4⟩),
    (0x00000007000000000000003020106753, .fmin ⟨⟨false, 7⟩, 6, 0, .f32, .rn, false, false, ⟨.v, 1⟩, sv 2, .src (sv 3), sv 0⟩),
    (0x00000000000000000070000020186754, .fmax ⟨⟨false, 7⟩, 6, 0, .f32, .rn, false, false, ⟨.v, 1⟩, sv 2, .imm 0x0, sv 0⟩),
    (0x00000008000000000000006040208763, .dmin ⟨⟨false, 7⟩, 8, 0, .f64, .rn, false, false, ⟨.v, 2⟩, sv 4, .src (sv 6), sv 0⟩),
    (0x00000088000000000000006040208764, .dmax ⟨⟨false, 7⟩, 8, 0, .f64, .rn, false, true, ⟨.v, 2⟩, sv 4, .src (sv 6), sv 0⟩),
    (0x0000000a00000000000000302010676b, .hmin2 ⟨⟨false, 7⟩, 6, 0, .f16x2, .rn, false, false, ⟨.v, 1⟩, sv 2, .src (sv 3), sv 0⟩),
    (0x0000000900000000000000302010676c, .hmax2 ⟨⟨false, 7⟩, 6, 0, .bf16x2, .rn, false, false, ⟨.v, 1⟩, sv 2, .src (sv 3), sv 0⟩),
    (0x000000003f80000000700000502a6755, .fset ⟨⟨false, 7⟩, 6, 2, .f32, .rn, false, false, ⟨.v, 2⟩, sv 5, .imm 0x3f800000, sv 0⟩),
    (0x00000008000000000000004020178765, .dset ⟨⟨false, 7⟩, 8, 7, .f64, .rn, false, false, ⟨.v, 1⟩, sv 2, .src (sv 4), sv 0⟩),
    (0x0000000a00000000000000302015676d, .hset2 ⟨⟨false, 7⟩, 6, 5, .f16x2, .rn, false, false, ⟨.v, 1⟩, sv 2, .src (sv 3), sv 0⟩),
    (0x00000008000000000000000020106756, .fclass ⟨⟨false, 7⟩, 6, 0, .f64, .rn, false, false, ⟨.v, 1⟩, sv 2, .src (sv 0), sv 0⟩),
    (0x00000037000000000000000020106757, .frnd ⟨⟨false, 7⟩, 6, 0, .f32, .rd, false, false, ⟨.v, 1⟩, sv 2, .src (sv 0), sv 0⟩)].all is = true := by decide

theorem test_decode_functions : [
    (0x00000017000000000000000020100758, .frcp ⟨⟨false, 7⟩, 0, 0, .f32, .rz, false, false, ⟨.v, 1⟩, sv 2, .src (sv 0), sv 0⟩),
    (0x00000007000000000000000020100759, .frsq ⟨⟨false, 7⟩, 0, 0, .f32, .rn, false, false, ⟨.v, 1⟩, sv 2, .src (sv 0), sv 0⟩),
    (0x0000000700000000000000002010075a, .fex2 ⟨⟨false, 7⟩, 0, 0, .f32, .rn, false, false, ⟨.v, 1⟩, sv 2, .src (sv 0), sv 0⟩),
    (0x0000000700000000000000002010075b, .flg2 ⟨⟨false, 7⟩, 0, 0, .f32, .rn, false, false, ⟨.v, 1⟩, sv 2, .src (sv 0), sv 0⟩),
    (0x0000000700000000000000002010075c, .fsinp ⟨⟨false, 7⟩, 0, 0, .f32, .rn, false, false, ⟨.v, 1⟩, sv 2, .src (sv 0), sv 0⟩),
    (0x0000000700000000000000002010075d, .fcosp ⟨⟨false, 7⟩, 0, 0, .f32, .rn, false, false, ⟨.v, 1⟩, sv 2, .src (sv 0), sv 0⟩),
    (0x00000008000000000000000040200766, .drcp ⟨⟨false, 7⟩, 0, 0, .f64, .rn, false, false, ⟨.v, 2⟩, sv 4, .src (sv 0), sv 0⟩),
    (0x00000048000000000000000040200767, .drsq ⟨⟨false, 7⟩, 0, 0, .f64, .rn, true, false, ⟨.v, 2⟩, sv 4, .src (sv 0), sv 0⟩),
    (0x00000007000000000000000000106770, .cvt ⟨⟨false, 7⟩, 6, 0, .f32, .rn, false, false, ⟨.v, 1⟩, sv 0, .src (sv 0), sv 0⟩),
    (0x0000000a000000000000004020116771, .pack ⟨⟨false, 7⟩, 6, 1, .f16x2, .rn, false, false, ⟨.v, 1⟩, sv 2, .src (sv 4), sv 0⟩),
    (0x0000000d000000000000604020106772, .l6pack ⟨⟨false, 7⟩, 6, 0, .lg6, .rn, false, false, ⟨.v, 1⟩, sv 2, .src (sv 4), sv 6⟩),
    (0x00000007000000000000300010216773, .l6unpk ⟨⟨false, 7⟩, 6, 1, .f32, .rn, false, false, ⟨.v, 2⟩, sv 1, .src (sv 0), sv 3⟩),
    (0x00000009000000000000300010236774, .w4unpk ⟨⟨false, 7⟩, 6, 3, .bf16x2, .rn, false, false, ⟨.v, 2⟩, sv 1, .src (sv 0), sv 3⟩)].all is = true := by decide

theorem test_decode_memory : [
    (0x000000000000004000000490a0c507a0, .ld ⟨⟨false, 7⟩, 0, .b64, 12, 10, 0, 1, .acq, .dev, .sync, false, 0, 0x40⟩),
    (0x0000000000000000000004c0c10007a1, .st ⟨⟨false, 7⟩, 0, .u8, 16, 12, 0, 0, .rel, .dev, .sync, false, 0, 0x0⟩),
    (0x000000000000000000cc2440a00407a2, .atom ⟨⟨false, 7⟩, 0, .b32, 0, 10, 12, 0, .rlx, .dev, .comm, false, 0, 0x0⟩ .add 3),
    (0x000000000000000000800500205407a3, .atomcas ⟨⟨false, 7⟩, 0, .b32, 5, 2, 8, 0, .ar, .dev, .sync, false, 0, 0x0⟩),
    (0x0000000000ffffc000000000400407a4, .pfetch ⟨⟨false, 7⟩, 0, .b32, 0, 4, 0, 0, .plain, .crew, .sync, false, 0, 0xffffc0⟩),
    (0x000000000000001000000030408607a5, .kld ⟨⟨false, 7⟩, 0, .b128, 8, 4, 0, 3, .plain, .crew, .sync, false, 0, 0x10⟩),
    (0x000000000000000000000540000007a6, .fence ⟨⟨false, 7⟩, 0, .u8, 0, 0, 0, 0, .sc, .dev, .sync, false, 0, 0x0⟩)].all is = true := by decide

theorem test_decode_scratchpad : [
    (0x000000000000004000000000607407c0, .lds ⟨⟨false, 7⟩, 0, .b32, 7, 6, 0, 0, .plain, .crew, .sync, false, 0, 0x40⟩),
    (0x000000000000000000000000108607c1, .sts ⟨⟨false, 7⟩, 0, .b128, 8, 1, 0, 0, .plain, .crew, .sync, false, 0, 0x0⟩),
    (0x000000000000000000200000103407c2, .atoms ⟨⟨false, 7⟩, 0, .b32, 3, 1, 2, 0, .plain, .crew, .sync, false, 0, 0x0⟩),
    (0x000000000000000000000000405407c3, .renew ⟨⟨false, 7⟩, 0, .b32, 5, 4, 0, 0, .plain, .crew, .sync, false, 0, 0x0⟩),
    (0x000000000000000000000000104407c4, .arm ⟨⟨false, 7⟩, 0, .b32, 4, 1, 0, 0, .plain, .crew, .sync, false, 0, 0x0⟩),
    (0x000000000000000000000000103407c5, .await ⟨⟨false, 7⟩, 0, .b32, 3, 1, 0, 0, .plain, .crew, .sync, false, 0, 0x0⟩),
    (0x000000000000000000000000103407c6, .spage ⟨⟨false, 7⟩, 0, .b32, 3, 1, 0, 0, .plain, .crew, .sync, false, 0, 0x0⟩)].all is = true := by decide

theorem test_decode_matrix : [
    (0x000000000000402010000200100207d0, .mma ⟨⟨false, 7⟩, 0, .bf16, false, 0, 1, 2, 0, 1, 2, false, false, true, false, 0, 0⟩),
    (0x000000000000a06040300800905307d1, .mmasp ⟨⟨false, 7⟩, 0, .f16, false, 5, 9, 8, 3, 4, 6, false, true, false, true, 0, 0⟩),
    (0x000000000000000000000000007007d2, .mzero ⟨⟨false, 7⟩, 0, .f64, false, 7, 0, 0, 0, 0, 0, false, false, false, false, 0, 0⟩),
    (0x000000000000000000000000009007d5, .mwait ⟨⟨false, 7⟩, 0, .f64, false, 9, 0, 0, 0, 0, 0, false, false, false, false, 0, 0⟩),
    (0x000000000000100020100000602007d3, .mld ⟨⟨false, 7⟩, 0, .f64, false, 2, 6, 0, 1, 2, 0, true, false, false, false, 0, 0⟩),
    (0x000000000000000010000000300007d4, .mst ⟨⟨false, 7⟩, 0, .f64, false, 0, 3, 0, 0, 1, 0, false, false, false, false, 0, 0⟩),
    (0x000000004050000000000000003007d6, .mrd ⟨⟨false, 7⟩, 0, .f64, false, 3, 0, 0, 0, 0, 0, false, false, false, false, 5, 4⟩),
    (0x000000003060000000000000004107d7, .mwr ⟨⟨false, 7⟩, 0, .f64, true, 4, 0, 0, 0, 0, 0, false, false, false, false, 6, 3⟩),
    (0x000000000000010000000000500007d8, .tdesc ⟨⟨false, 7⟩, 0, .f64, false, 0, 5, 0, 0, 0, 16, false, false, false, false, 0, 0⟩)].all is = true := by decide

theorem test_decode_engines : [
    (0x000000000000100000000100200001e0, .xcopy ⟨⟨false, 1⟩, 0, 0, 0, 2, 1, 0, 0, 0, true, false, 0⟩),
    (0x000000000000204060000700609101e1, .xcoll ⟨⟨false, 1⟩, 0, 1, 9, 6, 7, 0, 6, 4, false, true, 0⟩),
    (0x000000000000500000000000000007e2, .xwait ⟨0, 5⟩),
    (0x00000000000000800000000000a007e3, .launch ⟨⟨false, 7⟩, 0, 10, 8, 0⟩)].all is = true := by decide

theorem test_decode_system : [
    (0x000000000000002000000000004807f0, .csrr ⟨⟨false, 7⟩, 0, .u32, ⟨.v, 4⟩, ⟨.v, 0⟩, 0x20⟩),
    (0x000000000000000000200000200801f1, .csrw ⟨⟨false, 1⟩, 0, .u64, ⟨.v, 0⟩, ⟨.v, 2⟩, 0x0⟩),
    (0x000000000000000800200000400807f1, .ctxPtrootWrite ⟨⟨false, 7⟩, 0, .u64, ⟨.v, 0⟩, ⟨.v, 4⟩, 0x8⟩),
    (0x000000000000003000200000600807f1, .crewTimerWrite ⟨⟨false, 7⟩, 0, .u64, ⟨.v, 0⟩, ⟨.v, 6⟩, 0x30⟩),
    (0x000000000000000000200000204807f2, .version ⟨⟨false, 7⟩, 0, .u64, ⟨.v, 4⟩, ⟨.v, 2⟩, 0x0⟩),
    (0x000000000000000100200000204807f2, .whoami ⟨⟨false, 7⟩, 0, .u64, ⟨.v, 4⟩, ⟨.v, 2⟩, 0x1⟩),
    (0x000000000000000200200000204807f2, .yieldcrew ⟨⟨false, 7⟩, 0, .u64, ⟨.v, 4⟩, ⟨.v, 2⟩, 0x2⟩),
    (0x000000000000000300200000002807f2, .injectauth ⟨⟨false, 7⟩, 0, .u64, ⟨.v, 2⟩, ⟨.v, 0⟩, 0x3⟩),
    (0x000000000000000400200000204807f2, .faultq ⟨⟨false, 7⟩, 0, .u64, ⟨.v, 4⟩, ⟨.v, 2⟩, 0x4⟩),
    (0x000000000000123400200000204807f2, .callsvUnknown ⟨⟨false, 7⟩, 0, .u64, ⟨.v, 4⟩, ⟨.v, 2⟩, 0x1234⟩),
    (0x00000000000003e800000000000807f3, .sleep ⟨⟨false, 7⟩, 0, .u32, ⟨.v, 0⟩, ⟨.v, 0⟩, 0x3e8⟩)].all is = true := by decide

/-! ## Ill-formed terms -/

/-- None of the instructions is well formed, though all but their fields are those of one that is. -/
def ill (l : List Instr) : Bool := l.all fun i => !i.wf
def alu0 : Alu := ⟨Pred.always, 4, 0, .u32, .rn, false, false, ⟨.v, 1⟩, sv 2, .src (sv 3), sv 0⟩
def com0 : Commit := ⟨Pred.always, 0, 0, 0, 0, 0, none, none, 0, 0⟩
def mem0 : Mem := ⟨Pred.always, 0, .b32, 1, 2, 0, 0, .plain, .crew, .sync, false, 0, 0⟩
def mat0 : Mat := ⟨Pred.always, 0, .bf16, false, 0, 1, 2, 0, 0, 0, false, false, false, false, 0, 0⟩
def mat1 : Mat := { mat0 with kind := .f64, hA := 0, hB := 0 }
def imm0 : ImmI := ⟨Pred.always, 0, .u32, ⟨.v, 0⟩, ⟨.v, 0⟩, 0⟩
def xfer0 : Xfer := ⟨Pred.always, 0, 0, 0, 1, 2, 0, 0, 0, false, false, 0⟩
def bad : Pred := ⟨true, 7⟩
def turn1 : Modifier := ⟨false, 1, 2, .rotate⟩

/-- The terms the ill-formed ones differ from in one field are well formed. -/
theorem test_wf_base : [.iadd alu0, .lop3 alu0 0x6a, .commitSel com0, .commitExit com0, .commitRwait com0, .ld mem0, .st mem0, .mma mat0,
    .mzero mat1, .trap imm0, .movi imm0, .xcopy xfer0, .xcoll { xfer0 with n := 1 }, .nop ⟨Pred.always, 0⟩, .skip ⟨Pred.always, 0, 1⟩,
    .trc ⟨0, false, false, 1, 1, 2⟩, .guardr ⟨Pred.always, 0, 1, 0, 9, 3⟩, .launch ⟨Pred.always, 0, 2, 4, 0⟩].all Instr.wf = true := by decide

theorem test_ill_arithmetic : ill [
    .iadd { alu0 with ty := .f32 }, .iadd { alu0 with pred := bad }, .iadd { alu0 with rnd := .rz }, .and { alu0 with sat := true },
    .iadd { alu0 with ftz := true }, .iadd { alu0 with sub := 1 }, .iadd { alu0 with c := sv 1 }, .popc { alu0 with b := .src (sv 1) },
    .iadd { alu0 with a := src .v 2 ⟨false, 1, 0, .rotate⟩ false false }, .iadd { alu0 with a := src .v 2 ⟨false, 4, 2, .rotate⟩ false false },
    .iadd { alu0 with a := src .v 2 ⟨false, 3, 2, .butterfly⟩ false false }, .iadd { alu0 with a := src .v 2 ⟨true, 0, 0, .identity⟩ false false },
    .iadd { alu0 with a := src .k 2 turn1 false false }, .iadd { alu0 with a := src .v 2 ⟨false, 0, 0, .identity⟩ true false },
    .pset { alu0 with d := ⟨.v, 9⟩ }, .pset { alu0 with d := ⟨.k, 1⟩, a := sv 1, b := .src (sv 1) }, .shfl { alu0 with d := ⟨.q, 1⟩ },
    .iset { alu0 with sub := 6 }, .popc { alu0 with b := .imm 0 }, .pset { alu0 with a := sv 1, b := .imm 2 },
    .iadd { alu0 with ty := .s32, a := src .v 2 ⟨false, 0, 0, .identity⟩ true false, b := .imm 1 },
    .l6pack { alu0 with ty := .lg6, ftz := true }] = true := by decide

theorem test_ill_register_numbers : ill [.iadd { alu0 with ty := .u64 }, .iadd { alu0 with ty := .u64, d := ⟨.v, 255⟩ },
    .iadd { alu0 with d := ⟨.k, 64⟩ }, .iadd { alu0 with d := ⟨.q, 16⟩ }, .ld { mem0 with d := 254, width := .b128 }] = true := by decide

theorem test_ill_lop3 : ill [.lop3 { alu0 with pred := bad } 0, .lop3 { alu0 with ty := .u64 } 0, .lop3 { alu0 with rnd := .rz } 0,
    .lop3 { alu0 with sat := true } 0, .lop3 { alu0 with ftz := true } 0, .lop3 { alu0 with sub := 1 } 0, .lop3 { alu0 with b := .imm 0 } 0,
    .lop3 { alu0 with a := src .v 2 ⟨false, 0, 0, .identity⟩ true false } 0,
    .lop3 { alu0 with b := .src (src .v 2 ⟨false, 0, 0, .identity⟩ false true) } 0, .lop3 { alu0 with c := src .k 2 turn1 false false } 0] = true := by
  decide

theorem test_ill_immediates : ill [.trap { imm0 with pred := bad }, .trap { imm0 with ty := .s32 }, .trap { imm0 with d := ⟨.v, 1⟩ },
    .brk { imm0 with a := ⟨.v, 1⟩ }, .movi { imm0 with ty := .f32 }, .movi { imm0 with a := ⟨.v, 1⟩ }, .movi64 ⟨bad, 0, ⟨.v, 2⟩, 1⟩,
    .movi64 ⟨Pred.always, 0, ⟨.q, 2⟩, 1⟩, .srd { imm0 with d := ⟨.q, 1⟩ }, .srd { imm0 with a := ⟨.v, 1⟩ }, .srd { imm0 with imm := 0x14 },
    .srd { imm0 with ty := .u64 }, .csrr { imm0 with imm := 1, d := ⟨.q, 1⟩ }, .csrr { imm0 with imm := 0 },
    .csrr { imm0 with imm := 0x012 }, .csrw { imm0 with imm := 1, d := ⟨.v, 1⟩ }, .csrw { imm0 with imm := 1, a := ⟨.q, 1⟩ },
    .csrw { imm0 with ty := .u64, imm := 8 }, .ctxPtrootWrite { imm0 with ty := .u64, imm := 2 },
    .crewTimerWrite { imm0 with ty := .u64, imm := 8 }, .version imm0, .version { imm0 with ty := .u64, imm := 1 },
    .whoami { imm0 with ty := .u64 }, .yieldcrew { imm0 with ty := .u64 }, .injectauth { imm0 with ty := .u64 },
    .faultq { imm0 with ty := .u64 }, .callsvUnknown { imm0 with ty := .u64, imm := 4 }, .version { imm0 with ty := .u64, d := ⟨.k, 2⟩ },
    .version { imm0 with ty := .u64, a := ⟨.k, 2⟩ }, .sleep { imm0 with ty := .u64 }, .sleep { imm0 with d := ⟨.v, 1⟩ },
    .sleep { imm0 with a := ⟨.v, 1⟩ }] = true := by decide

theorem test_ill_control : ill [.nop ⟨bad, 0⟩, .trigger ⟨bad, 0⟩, .yield ⟨bad, 0⟩, .skip ⟨bad, 0, 1⟩, .skip ⟨Pred.always, 0, 0⟩,
    .trc ⟨0, false, false, 1, 1, 0⟩, .trc ⟨0, false, false, 1, 17, 2⟩, .trc ⟨0, true, false, 1, 1, 2⟩, .trc ⟨0, false, true, 1, 1, 2⟩,
    .guard ⟨Pred.always, 0, 1, 0, 0, 3⟩, .guard ⟨Pred.always, 0, 0, 1, 0, 3⟩, .guard ⟨bad, 0, 0, 0, 0, 3⟩, .guardr ⟨bad, 0, 1, 0, 9, 3⟩,
    .guardnz ⟨Pred.always, 0, 1, 1, 0, 3⟩, .guardnz ⟨Pred.always, 0, 1, 0, 1, 3⟩, .launch ⟨bad, 0, 2, 4, 0⟩] = true := by decide

theorem test_ill_commits : ill [.commitSel { com0 with pred := bad }, .commitNext { com0 with pred := ⟨false, 1⟩ },
    .commitNext { com0 with move0 := some ⟨1, 2⟩, move1 := some ⟨1, 3⟩ }, .commitNext { com0 with count := 1 }, .commitNext { com0 with timeout := 1 },
    .commitNext { com0 with ra := 2 }, .commitNext { com0 with rb := 2 }, .commitNext { com0 with tgt0 := 2 }, .commitNext { com0 with tgt1 := 2 },
    .commitSel { com0 with ra := 2 }, .commitSel { com0 with rb := 2 }, .commitInd { com0 with rb := 2 }, .commitInd { com0 with tgt0 := 2 },
    .commitInd { com0 with tgt1 := 2 }, .commitRet { com0 with rb := 2 }, .commitRet { com0 with tgt0 := 2 }, .commitCall { com0 with rb := 2 },
    .commitCall { com0 with tgt1 := 2 }, .commitExit { com0 with ra := 2 }, .commitExit { com0 with rb := 2 }, .commitExit { com0 with tgt0 := 2 },
    .commitExit { com0 with tgt1 := 2 }, .commitExit { com0 with move0 := some ⟨1, 2⟩ }, .commitBar { com0 with rb := 16 },
    .commitBar { com0 with tgt1 := 2 }, .commitRwait { com0 with ra := 2 }, .commitRwait { com0 with rb := 7 }, .commitRwait { com0 with tgt1 := 2 },
    .commitRwait { com0 with move1 := some ⟨1, 2⟩ }] = true := by decide

theorem test_ill_loads_and_stores : ill [.ld { mem0 with pred := bad }, .ld { mem0 with order := .rel }, .ld { mem0 with scope := .dev },
    .ld { mem0 with use := .comm }, .ld { mem0 with e := 1 }, .st { mem0 with width := .s8 }, .st { mem0 with order := .acq },
    .st { mem0 with scope := .die }, .st { mem0 with use := .unp }, .st { mem0 with split := true }, .st { mem0 with e := 1 },
    .pfetch mem0, .pfetch { mem0 with d := 0, e := 1 }, .pfetch { mem0 with d := 0, order := .rlx }, .pfetch { mem0 with d := 0, scope := .sys },
    .pfetch { mem0 with d := 0, use := .comm }, .pfetch { mem0 with d := 0, split := true }, .pfetch { mem0 with d := 0, width := .u8 },
    .kld { mem0 with width := .u16 }, .kld { mem0 with e := 1 }, .kld { mem0 with order := .acq }, .kld { mem0 with scope := .dev },
    .kld { mem0 with use := .comm }, .kld { mem0 with split := true }, .kld { mem0 with cache := 1 }] = true := by decide

def fence0 : Mem := ⟨Pred.always, 0, .u8, 0, 0, 0, 0, .ar, .dev, .sync, false, 0, 0⟩
theorem test_ill_fences : ill [.fence { fence0 with width := .b32 }, .fence { fence0 with order := .rlx }, .fence { fence0 with d := 1 },
    .fence { fence0 with base := 2 }, .fence { fence0 with win := 1 }, .fence { fence0 with use := .comm }, .fence { fence0 with split := true },
    .fence { fence0 with cache := 1 }, .fence { fence0 with e := 1 }, .fence { fence0 with off := 4 }] = true := by decide

def atom0 : Mem := { mem0 with order := .rlx, scope := .dev, use := .unp, e := 6 }
theorem test_ill_atomics : ill [.atom { atom0 with pred := bad } .add 0, .atom { atom0 with width := .u8 } .add 0, .atom atom0 .and 2,
    .atom { atom0 with width := .b64 } .add 3, .atom atom0 .min 3, .atom { atom0 with split := true } .add 0,
    .atom { atom0 with use := .sync, order := .plain } .add 0, .atom { atom0 with order := .acq } .add 0, .atom { atom0 with use := .comm } .add 0,
    .atom { atom0 with use := .comm, d := 0 } .exch 0, .atom { atom0 with use := .nord, d := 0 } .add 0, .atomcas { atom0 with d := 0 },
    .atomcas { atom0 with width := .u16 }, .atomcas { atom0 with use := .comm }, .atomcas { atom0 with split := true }] = true := by decide

theorem test_ill_scratchpad : ill [.lds { mem0 with order := .rel }, .lds { mem0 with win := 1 }, .lds { mem0 with use := .comm },
    .lds { mem0 with split := true }, .lds { mem0 with cache := 1 }, .lds { mem0 with order := .acq, scope := .dev }, .lds { mem0 with e := 1 },
    .sts { mem0 with width := .s16 }, .sts { mem0 with order := .acq }, .sts { mem0 with e := 1 }, .atoms { mem0 with width := .u8 },
    .atoms { mem0 with win := 1 }, .renew { mem0 with width := .b64 }, .renew { mem0 with order := .rlx }, .arm { mem0 with e := 1 },
    .await { mem0 with width := .b64 }, .await { mem0 with order := .acq }, .spage { mem0 with cache := 1 }] = true := by decide

theorem test_ill_matrix : ill [.mma { mat0 with pred := ⟨false, 0⟩ }, .mma { mat0 with vd := 1 }, .mma { mat0 with pair := true },
    .mmasp { mat0 with ta := true }, .mmasp { mat0 with kind := .f32 }, .mzero { mat1 with hA := 1 }, .mzero { mat1 with kr := 1 },
    .mzero { mat1 with ovw := true }, .mzero { mat1 with pair := true }, .mzero { mat1 with kind := .f32 }, .mwait { mat1 with vd := 1 },
    .mld { mat1 with hB := 1 }, .mld { mat1 with kp := 1 }, .mld { mat1 with tb := true }, .mld { mat1 with ovw := true },
    .mld { mat1 with sat := true }, .mst { mat1 with hB := 1 }, .mst { mat1 with ovw := true }, .mrd { mat1 with hA := 1 },
    .mrd { mat1 with kc := 1 }, .mwr { mat1 with sat := true }, .mwr { mat1 with kind := .f16 }, .tdesc { mat1 with tile := 1 },
    .tdesc { mat1 with hB := 1 }, .tdesc { mat1 with kr := 1 }, .tdesc { mat1 with ta := true }, .tdesc { mat1 with pair := true }] = true := by decide

theorem test_ill_engines : ill [.xcopy { xfer0 with pred := bad }, .xcopy { xfer0 with n := 1 }, .xcopy { xfer0 with ka := 2 },
    .xcopy { xfer0 with kv := 2 }, .xcopy { xfer0 with kp := 2 }, .xcopy { xfer0 with win := 1 }, .xcoll { xfer0 with pred := bad },
    .xcoll { xfer0 with arr := true }, .xcoll { xfer0 with ka := 2 }, .xcoll { xfer0 with kv := 2 }] = true := by decide

/-! ## Words refused by name: unlisted opcodes and sub codes (R41), fields that must be zero or in range (R22, R23) -/

theorem test_words_refused : [
    (0x0c, Cause.illop), (0x10, .illop), (0xfe, .illop), (0x0001_0700, .illop), (0x0008_0706, .illop), (0x000f_4736, .illop),
    (0x0006_4736, .illop), (0x0007_07a0, .illfield), (0x0701, .illfield), (0x1_0000_0700, .illfield), (0x0f00, .illfield), (0x0705, .illfield),
    (0x0007_07d0, .illop), (0x0002_07d3, .illop), (0x0001_07e3, .illop), (0x8000_0000_0000_0000_0000_0000_0000_4720, .illfield)].all no = true := by
  decide

/-! ## Single steps, their results worked out by hand from the rules named, or taken from the examples of the spec -/

/-- One thread, number 2, of a cohort, number 3, whose instruction executes; the first page of its code and data is mapped. -/
def one : State := { State.reset.placeWord 0 with cur := some 3, agenda := [] }
def withRegs (s : State) (l : List (Nat × Word)) : State := l.foldl (fun s r => s.setV 2 r.1 r.2) s
def after (s : State) (i : Instr) : State := match exec i s with
  | .next t => t
  | _ => s
/-- Operands in v2 and v3, v4 and v5, v6 and v7; the destination is v8 and v9. -/
def ops (a b c : Nat) : State := withRegs one ([(2, a), (3, a / 2 ^ 32), (4, b), (5, b / 2 ^ 32), (6, c), (7, c / 2 ^ 32)].map fun r => (r.1, BitVec.ofNat 32 r.2))
def alu1 (ty : Ty) (sub : BitVec 3 := 0) (sat : Bool := false) : Alu := ⟨Pred.always, 4, sub, ty, .rn, sat, false, ⟨.v, 8⟩, sv 2, .src (sv 4), sv 6⟩
def gives (r : (Alu → Instr) × Alu × Nat × Nat × Nat × Nat) : Bool :=
  let t := after (ops r.2.2.1 r.2.2.2.1 r.2.2.2.2.1) (r.1 r.2.1)
  (t.getV 2 8).toNat + 2 ^ 32 * (t.getV 2 9).toNat == r.2.2.2.2.2

/-- R131 to R146. -/
theorem test_integer_results : [
    (Instr.iadd, alu1 .s32 0 true, 0x7fffffff, 1, 0, 0x7fffffff), (.iadd, alu1 .u64, 0xffffffff, 1, 0, 0x100000000),
    (.isub, alu1 .u8x4 0 true, 0x01020304, 0x02020202, 0, 0x00000102), (.imul, alu1 .u32, 0x10000, 0x10000, 0, 0),
    (.imulh, alu1 .s32, 0xffffffff, 1, 0, 0xffffffff), (.imad, alu1 .u32, 3, 5, 2, 17), (.imadLong, alu1 .s32 1, 0xffffffff, 2, 1, 0xffffffffffffffff),
    (.imin, alu1 .s16x2, 0xffff0001, 0x00010002, 0, 0xffff0001), (.imax, alu1 .u32, 0xffffffff, 1, 0, 0xffffffff),
    (.and, alu1 .u32, 12, 10, 0, 8), (.or, alu1 .u32, 12, 10, 0, 14), (.xor, alu1 .u64, 12, 10, 0, 6), (.shl, alu1 .u32, 1, 32, 0, 0),
    (.shr, alu1 .u32, 0x80000000, 31, 0, 1), (.sha, alu1 .s32, 0x80000000, 40, 0, 0xffffffff), (.funnel, alu1 .u32, 1, 3, 1, 0x80000000),
    (.bfe, alu1 .s32, 0xf0, 0x0404, 0, 0xffffffff), (.bfi, alu1 .u32, 0xffffffff, 0, 0x0804, 0xfffff00f), (.popc, alu1 .u32, 0xff, 0, 0, 8),
    (.clz, alu1 .u32, 1, 0, 0, 31), (.brev, alu1 .u32, 1, 0, 0, 0x80000000), (.prmt, alu1 .u32, 0x01020304, 0, 83, 0x04030201),
    (.sel, alu1 .u32 7, 5, 6, 0, 5), (.mov, alu1 .u32, 77, 0, 0, 77), (.padd, alu1 .s32, 0x100000000, 0xffffffff, 0, 0xffffffff),
    (.lea, alu1 .u32 2, 0x100, 3, 0, 0x10c), (.cvti, alu1 .s16 1 true, 0x12345, 0, 0, 0x7fff)].all gives = true := by decide

/-- R53, R56, R154 to R166, and the value 1.0 of code 16 in the table of R60. -/
theorem test_float_results : [
    (Instr.fadd, alu1 .f32, 0x3f800000, 0x3f800000, 0, 0x40000000), (.fadd, alu1 .f32 0 true, 0x7f7fffff, 0x7f7fffff, 0, 0x7f7fffff),
    (.fmul, alu1 .f32, 0x7f7fffff, 0x40000000, 0, 0x7f800000), (.ffma, alu1 .f32, 0x40000000, 0x40400000, 0xc0c00000, 0),
    (.dadd, alu1 .f64, 0x3ff0000000000000, 0x3ff0000000000000, 0, 0x4000000000000000),
    (.dmul, alu1 .f64, 0x4000000000000000, 0x3fe0000000000000, 0, 0x3ff0000000000000),
    (.dfma, alu1 .f64, 0x4000000000000000, 0x4000000000000000, 0x3ff0000000000000, 0x4014000000000000),
    (.hadd2, alu1 .bf16x2, 0x3f804000, 0x3f803f80, 0, 0x40004040), (.hmul2, alu1 .f16x2, 0x3c004000, 0x40003c00, 0, 0x40004000),
    (.hfma2, alu1 .f16x2, 0x3c003c00, 0x3c003c00, 0x3c00bc00, 0x40000000), (.fmin, alu1 .f32, 0x00000000, 0x80000000, 0, 0x80000000),
    (.fmax, alu1 .f32, 0x7fc00000, 0x3f800000, 0, 0x3f800000), (.dmin, alu1 .f64, 0x3ff0000000000000, 0xbff0000000000000, 0, 0xbff0000000000000),
    (.dmax, alu1 .f64, 0x7ff8000000000001, 0x7ff8000000000001, 0, 0x7ff8000000000000), (.hmin2, alu1 .f16x2, 0x3c004000, 0x40003c00, 0, 0x3c003c00),
    (.hmax2, alu1 .f16x2, 0x3c004000, 0x40003c00, 0, 0x40004000), (.frcp, alu1 .f32, 0x40000000, 0, 0, 0x3f000000),
    (.frsq, alu1 .f32, 0x40800000, 0, 0, 0x3f000000), (.drcp, alu1 .f64, 0x4000000000000000, 0, 0, 0x3fe0000000000000),
    (.drsq, alu1 .f64, 0x4010000000000000, 0, 0, 0x3fe0000000000000), (.frnd, alu1 .f32, 0x40200000, 0, 0, 0x40000000),
    (.cvt, alu1 .f32 0, 3, 0, 0, 0x40400000), (.pack, alu1 .f16x2 0, 0x3f800000, 0x40000000, 0, 0x40003c00),
    (.l6unpk, alu1 .f32 0, 16, 0, 0, 0x3f800000)].all gives = true := by decide +kernel

/-- R133, R140, R142, R156: results that are predicates; the carry of IADDC goes to the predicate that sub names. -/
def sets (r : Instr × Nat × Nat × Bool) : Bool := (after (ops r.2.1 r.2.2.1 0) r.1).getP 2 1 == r.2.2.2
theorem test_predicate_results : [
    (Instr.iset { alu1 .s32 2 with d := ⟨.v, 1⟩ }, 0xffffffff, 0, true), (.iset { alu1 .u32 2 with d := ⟨.v, 1⟩ }, 0xffffffff, 0, false),
    (.pset { alu1 .u32 0 with d := ⟨.v, 1⟩, a := sv 7, b := .src (sv 7) }, 0, 0, true), (.iaddc (alu1 .u32 1), 0xffffffff, 1, true),
    (.fset { alu1 .f32 1 with d := ⟨.v, 1⟩ }, 0x7fc00000, 0, true), (.dset { alu1 .f64 2 with d := ⟨.v, 1⟩ }, 0, 0x3ff0000000000000, true)].all sets = true := by
  decide

/-- R135: the table 0xd8 is a ? b : c, bit by bit. -/
theorem test_lop3_selects : (after (ops 0xff00ff00 0x12345678 0x9abcdef0) (.lop3 (alu1 .u32) 0xd8)).getV 2 8 = 0x12bc56f0 := by decide

/-- R97, R144: MOVI of s64 sign-extends; MOVI64 writes its pair; SRD of %lane reads the lane. -/
theorem test_immediates_written :
    let t := after one (.movi { imm0 with ty := .s64, d := ⟨.v, 4⟩, imm := 0xfffffff0 })
    let u := after one (.movi64 ⟨Pred.always, 4, ⟨.v, 4⟩, 0x8200000003011420⟩)
    t.getV 2 4 = 0xfffffff0 ∧ t.getV 2 5 = 0xffffffff ∧ u.getV 2 4 = 0x03011420 ∧ u.getV 2 5 = 0x82000000 := by
  decide

/-- Two threads, numbers 2 and 5, in lanes 0 and 1. -/
def two : State := { one with
  threads := one.threads.insert 5 { placedThread with id := 5, ord := 1 }
  cohorts := one.cohorts.insert 3 { placedCohort 0 0 with lanes := [⟨0, 2, 0, 0, [], [], none, false, none, 0⟩, ⟨1, 5, 0, 0, [], [], none, false, none, 0⟩] } }

/-- R147 to R149: each lane's values are 10 and 20. -/
theorem test_lane_exchanges :
    let s := (two.setV 2 2 10).setV 5 2 20
    let t := after s (.redux { alu1 .u32 0 with d := ⟨.k, 1⟩ })
    let u := after s (.scan (alu1 .u32 0))
    t.getK 1 1 = 30 ∧ u.getV 5 8 = 30 ∧ u.getV 2 8 = 10 := by
  decide

/-- R219, R257, R259: a byte stored at 0x100 is the byte loaded there, sign-extended. -/
theorem test_store_then_load :
    let s := after (withRegs one [(2, 0x100), (8, 0xab)]) (.st { mem0 with width := .u8, d := 8, order := .plain })
    let u : State := { s with coh := { s.coh with remote := s.coh.remote.map fun e => (e.1, { e.2 with due := some 0 }) } }
    let t := State.other (.arrive one.nextId) u
    s.viewByte 0 0x100 = 0 ∧ (t.viewByte 0 0x100 = 0xab ∧ t.viewByte 1 0x100 = 0) ∧
      (after { t with cur := some 3 } (.ld { mem0 with width := .s8, d := 9 })).getV 2 9 = 0xffffffab := by
  decide +kernel

/-- R260, R264: ATOM.ADD returns the old value and adds; ATOMCAS whose compare value differs stores nothing. -/
theorem test_atomics :
    let s := withRegs { one with mem := one.mem.writeBytes 0x100 [5, 0, 0, 0] } [(2, 0x100), (6, 7), (7, 9)]
    let t := after s (.atom { atom0 with d := 8, e := 6 } .add 0)
    let u := after s (.atomcas { atom0 with d := 8, e := 6 })
    t.getV 2 8 = 5 ∧ t.mem.readNat 0x100 4 = 12 ∧ u.getV 2 8 = 5 ∧ u.mem.readNat 0x100 4 = 5 := by
  decide

/-- R317, R318: TRAP in an irrevocable trace, with the vector enabled at 0x40. -/
theorem test_trap_enters_handler :
    let c := { placedCohort 0 0 with irr := true, snap := { SysRegs.reset with trapvec := 0x100000040 } }
    let t := after { one with cohorts := one.cohorts.insert 3 c } (.trap { imm0 with imm := 5 })
    (t.threads.find 2).map (fun h => (h.handler, h.trapcause, h.trapinfo, h.trapret, match h.place with | .filed f => f.next | _ => 0)) =
      some (true, 0x20, 0x0001000000000005, 2, 0x40) := by
  decide

/-- R110, R114: COMMIT.NEXT moves v9 into v3 and files the thread at the next address. -/
theorem test_commit_next :
    let c := { placedCohort 0 0 with irr := true, len := 1 }
    let t := after (withRegs { one with cohorts := one.cohorts.insert 3 c } [(9, 44)]) (.commitNext { com0 with move0 := some ⟨3, 9⟩ })
    t.getV 2 3 = 44 ∧ (t.threads.find 2).map (fun h => match h.place with | .filed f => f.next | _ => 0) = some 2 ∧ t.cohorts.find 3 = none := by
  decide

/-- R49, R320: ILLEGAL, with no handler for it, leaves a terminating record of ILLOP. -/
theorem test_illegal_records : ((after one .illegal).agenda.map fun a => match a with
    | .hw (.faultRecordWrite r) => (r.cause == .illop && r.term)
    | _ => false) = [true] := by decide

/-- A fetch of the word at the cohort's address runs it (R100): the smallest whole step. -/
theorem test_step_runs_placed_word : (match step (State.reset.withFetchWord 128 0xfffffff0003000000048473a) with
    | .next t => t.getV 2 4 == 0xfffffff0 && t.getV 2 5 == 0xffffffff
    | _ => false) = true := by decide

/-! ## States and operands that meet the hypotheses of the statements -/

theorem test_witness_rounding : f64 ∈ formats ∧ f32 ∈ formats ∧ f16 ∈ formats ∧ bf16 ∈ formats ∧ (1 : Nat) ≠ 0 := by decide
theorem test_witness_exact_sums :
    (XReal.nan ∈ [XReal.nan]) ∧ (XReal.inf false ∈ [XReal.inf false, .inf true] ∧ XReal.inf true ∈ [XReal.inf false, .inf true]) ∧
    (XReal.nan ∉ [XReal.inf true] ∧ XReal.inf true ∈ [XReal.inf true] ∧ XReal.inf (!true) ∉ [XReal.inf true]) ∧
    (∀ x ∈ [XReal.fin false 1 0 false, .fin true 1 0 false], exact x) ∧
    (([XReal.fin false 1 0 false, .fin true 1 0 false].map real).sum = 0) ∧ (([XReal.fin true 3 0 false].map real).sum ≠ 0) := by
  refine ⟨by decide, by decide, by decide, ?_, ?_, ?_⟩
  · simp [exact]
  · simp [real]
  · simp [real]
theorem test_witness_log_numbers : (32 < 64 ∧ 0 < 64) ∧ (5 ≠ 32 ∧ 0 ≠ 32) ∧ ((63 % 32 ≠ 0 ∧ 1 % 32 ≠ 0) ∧ 63 < 64) ∧ 31 < 32 := by decide
theorem test_witness_integer_elements :
    (elemsOf (alu1 .u8x4 0 true).ty = List.replicate 4 8 ∧ 3 < 4 ∧ isSigned Ty.u8x4 = false) ∧
    (elemsOf (alu1 .s64 0 true).ty = List.replicate 1 64 ∧ 0 < 1 ∧ isSigned Ty.s64 = true) ∧ (alu1 .s64 0 true).sat = true ∧ (alu1 .s64).sat = false := by decide
def lane0 : Lane := ⟨0, 2, 0, 0, [], [], none, false, none, 0⟩
theorem test_witness_shifts : widthOf (alu1 .u32).ty = 32 ∧ (⟨lane0, 2 ^ 32 - 1, 0x2020, 0x2020, false⟩ : ExLane).a < 2 ^ widthOf (alu1 .u32).ty ∧
    (⟨lane0, 2 ^ 32 - 1, 0x2020, 0x2020, false⟩ : ExLane).b < 2 ^ 32 ∧ min (0x2020 / 256 % 256) 32 ≠ 0 ∧ min (0x0020 / 256 % 256) 32 = 0 := by decide
theorem test_witness_float_order : bf16 ∈ formats ∧ 0x7fc0 < 2 ^ bf16.width ∧ bf16.isNaN 0x7fc0 = true ∧ bf16.isNaN 0x8000 = false ∧
    bf16.sign 0x8000 = true ∧ bf16.sign 0x0000 = false := by decide

/-! ### Arithmetic -/

def at3 (s : State) (c : Cohort) : State := { s with cohorts := s.cohorts.insert 3 c }
def coh0 : Cohort := placedCohort 0 0
def irr0 : Cohort := { coh0 with irr := true, len := 1 }
def rev0 : Cohort := { coh0 with irr := false }
def sRev : State := at3 one rev0

theorem test_witness_arithmetic : MayIssue one coh0 .iadd (alu1 .u32) ∧ MayIssue one coh0 .fmin (alu1 .f32) ∧
    MayIssue one coh0 .ffma (alu1 .f32) ∧ (∀ d ∈ one.pkg.disturb, d.core ≠ coh0.core) ∧ one.armedFp coh0.core = [] ∧
    (exchangeRule (begun one) coh0 .redux).isSome = true ∧ MayIssue one coh0 .redux (alu1 .u32) ∧
    (integerRule .iadd).isSome = true ∧ (floatRule .fmin).isSome = true ∧ (checkedRule .ffma).isSome = true := by decide
theorem test_witness_carry : MayIssue one coh0 .iaddc (alu1 .u32 1) ∧ (Issues one coh0 ∧ Passes one coh0 (.lop3 (alu1 .u32) 0xd8) Pred.always ∧
    (Instr.lop3 (alu1 .u32) 0xd8).regsOk = true) := by decide
/-- The conduits of the placed crew have room and nothing to pop. -/
theorem conduits_ready (p : Pred) : ConduitsReady one coh0 p [] [] := by
  intro w h
  have k : one.crews.find coh0.crew = some placedCrew := by decide
  cases k.symm.trans h
  exact (by decide : placedCrew.conduitsReady 0 1 [] [] = true)
theorem test_witness_values : Issues one coh0 ∧ Passes one coh0 (ValueInstr.movi imm0).instr Pred.always ∧ (ValueInstr.movi imm0).instr.regsOk = true ∧
    ConduitsReady one coh0 Pred.always [] (pushOf (ValueInstr.movi imm0).fields.d (ValueInstr.movi imm0).wide) :=
  ⟨by decide, by decide, by decide, conduits_ready _⟩

/-! ### Traces -/

theorem test_witness_finished : one.cohorts.find coh0.id = some coh0 := by decide
def ctl0 : Ctl := ⟨Pred.always, 1⟩
def trc0 : Trc := ⟨0, false, false, 0x141, 2, 16⟩
theorem test_witness_traces : Issues one coh0 ∧ Passes one coh0 (.nop ctl0) Pred.always ∧ (Issues (at3 one { coh0 with st := .trc }) { coh0 with st := .trc }) ∧
    Passes one coh0 (.skip ⟨Pred.always, 0, 3⟩) Pred.always ∧ MayIssue one coh0 .matchKey (alu1 .u32) ∧
    (Passes one coh0 (.yield ctl0) Pred.always ∧ one.execLanes coh0 Pred.always ≠ []) ∧
    (Passes one coh0 (.qstat { alu1 .u32 with a := src .q 2 ⟨false, 0, 0, .identity⟩ false false }) Pred.always ∧ one.crews.find 1 = some placedCrew ∧
      placedCrew.conduit 2 = some ⟨4, [], false⟩) ∧
    (Issues (at3 one irr0) irr0 ∧ Passes (at3 one irr0) irr0 (.trigger ctl0) Pred.always ∧ irr0.irr = true ∧ (at3 one irr0).execLanes irr0 Pred.always ≠ [] ∧
      (at3 one irr0).releaseWaits 2 = false ∧ placedCrew.triggered = false ∧ placedCrew.decremented = false) ∧
    (Issues sRev rev0 ∧ Passes sRev rev0 (.trigger ctl0) Pred.always ∧ rev0.irr = false ∧ ∀ l ∈ sRev.execLanes rev0 Pred.always, l.buf.length < rev0.budget) := by decide
theorem test_witness_guards : Issues one coh0 ∧ Passes one coh0 (.guard ⟨⟨true, 2⟩, 0, 0, 0, 0, 9⟩) Pred.always ∧
    Passes one coh0 (.guardr ⟨Pred.always, 0, 5, 0x8000, 0x7fff, 9⟩) Pred.always ∧
    Passes one coh0 (.guardnz ⟨Pred.always, 0, 5, 0, 0, 9⟩) Pred.always := by decide
def leaving0 : Thread := { placedThread with place := .leaving 9 0 }
def sLeaving : State := { one with threads := one.threads.insert 2 leaving0, cohorts := [] }
theorem test_witness_guard_filing : sLeaving.threads.find 2 = some leaving0 ∧
    leaving0.place = .leaving 9 (((sLeaving.crews.find leaving0.crew).bind (·.core)).getD 0) := by decide
def sCommit : State := at3 one irr0
theorem test_witness_commits : CommitsAlone sCommit irr0 lane0 placedThread ∧ lane0.trap = none ∧ placedThread.timerPend = false := by decide
def res0 : Resume := ⟨0x20, 0x1c, true, false, 7, 0, 9, 0, false⟩
/-- A thread in its handler that returns to %trapret, with v8 and v9 holding it. -/
def sHandler (ret : Nat) (r : Option Resume) : State :=
  withRegs { sCommit with threads := sCommit.threads.insert 2 { placedThread with handler := true, trapret := BitVec.ofNat 64 ret, resume := r } } [(8, BitVec.ofNat 32 ret)]
def th0 (ret : Nat) (r : Option Resume) : Thread := { placedThread with handler := true, trapret := BitVec.ofNat 64 ret, resume := r }
def ret0 : Commit := { com0 with ra := 8 }
theorem test_witness_answered : sCommit.unanswered 2 (fun _ => true) = false ∧ (sHandler 0x20 none).unanswered 2 (fun _ => true) = false ∧
    (sHandler 0x20 (some res0)).unanswered 2 (fun _ => true) = false ∧ (sHandler 0xffffffff none).unanswered 2 (fun _ => true) = false := by decide
theorem test_witness_returns :
    (CommitsAlone sCommit irr0 lane0 placedThread ∧ placedThread.handler = false) ∧
    (CommitsAlone (sHandler 0x20 none) irr0 lane0 (th0 0x20 none) ∧ ((left (sHandler 0x20 none) irr0 lane0 com0).getV64 2 0).toNat ≠ 0x20) ∧
    (CommitsAlone (sHandler 0x20 (some res0)) irr0 lane0 (th0 0x20 (some res0)) ∧ ((left (sHandler 0x20 (some res0)) irr0 lane0 ret0).getV64 2 8).toNat = 0x20 ∧
      res0.addr = 0x20 ∧ (th0 0x20 (some res0)).trapret.toNat = 0x20) ∧
    (CommitsAlone (sHandler 0x20 none) irr0 lane0 (th0 0x20 none) ∧ ((left (sHandler 0x20 none) irr0 lane0 ret0).getV64 2 8).toNat = 0x20) ∧
    (CommitsAlone (sHandler 0xffffffff none) irr0 lane0 (th0 0xffffffff none) ∧
      ((left (sHandler 0xffffffff none) irr0 lane0 ret0).getV64 2 8).toNat = 0xffffffff) :=
  ⟨by decide, by decide, by decide, by decide, by decide⟩
theorem test_witness_waiting_commits : CommitsAlone sCommit irr0 lane0 placedThread ∧ sCommit.eng.quantum.filter (·.core == irr0.core) = [] ∧
    sCommit.releaseWaits lane0.tid = false ∧ ({ com0 with ra := 0xff } : Commit).ra = 0xff ∧ com0.ra ≠ 0xff := by decide
def crewWaiting : Crew := { placedCrew with groups := [(2, ⟨2, 1, 16⟩)] }
def sWaiting : State := { one with crews := one.crews.insert 1 crewWaiting }
theorem test_witness_rwait_timeout : sWaiting.crews.find 1 = some crewWaiting ∧ crewWaiting.groups.find 2 = some ⟨2, 1, 16⟩ ∧ 16 * 1 ≤ 16 := by decide
theorem test_witness_traps : (Issues sCommit irr0 ∧ Passes sCommit irr0 (.trap imm0) Pred.always ∧ Passes sCommit irr0 (.brk imm0) Pred.always ∧ irr0.irr = true) ∧
    (Issues sRev rev0 ∧ Passes sRev rev0 (.trap imm0) Pred.always ∧ rev0.irr = false ∧ ∀ l ∈ sRev.execLanes rev0 Pred.always, l.buf.length < rev0.budget) := by
  decide
theorem test_witness_handler : one.threads.find 2 = some placedThread ∧ (0x100000040 : Dword)[32] = true ∧ placedThread.handler = false ∧
    (0x40 : Dword)[32] = false ∧ (th0 0 none).handler = true ∧ (sHandler 0 none).threads.find 2 = some (th0 0 none) := by decide

/-! ### Global memory -/

/-- A translation from a state: the page's key, its entry and the entry's unit, and the state that it leaves. -/
def reached (s : State) (c : Cohort) (va : Nat) (acc : Acc) : State := (s.reach c 0 va acc).2
def reachKey (s : State) (c : Cohort) (va : Nat) (acc : Acc) : Nat × Dword × Nat := match (s.reach c 0 va acc).1 with
  | .go key pte unit => (key, pte, unit)
  | _ => (0, 0, 0)
/-- v2 and v3 hold the address 0x100, v4 and v5 the address 2^64 - 1, v8 and v9 one in a page without a leaf. -/
def sMem : State := withRegs one [(2, 0x100), (4, 0xffffffff), (5, 0xffffffff), (9, 0x10000)]
/-- An address that no sum reaches, and a misaligned one in a page without a leaf. -/
def memOvf : Mem := { mem0 with base := 4, off := 1 }
def memOdd : Mem := { mem0 with base := 8, off := 2 }
/-- An irrevocable cohort as TRC makes it, whose budget is 0. -/
def coh00 : Cohort := { coh0 with budget := 0 }
def sMem0 : State := at3 sMem coh00
theorem test_witness_bad_addresses : ∀ x ∈ [memOvf, memOdd], Issues sMem0 coh00 ∧ sMem0.execLanes coh00 x.pred = [lane0] ∧ releases x.order = false ∧
    x.split = false ∧ coh00.irr = true ∧ x.d ≠ 0 ∧ (∀ acc ∈ [Acc.read, .write, .both], let b := flushed sMem0 coh00 x 4 acc [lane0]
      b.execLanes coh00 x.pred = [lane0] ∧ b.laneWaitsAt (l1Agent 0) coh00 x 4 acc lane0 = false ∧ b.laneWaitsAt (icAgent 0) coh00 x 4 acc lane0 = false ∧
      (begun sMem0).atomBehind coh00 x 4 lane0 = false ∧ Passes b coh00 (.ld x) x.pred ∧ Passes b coh00 (.kld x) x.pred ∧ Passes b coh00 (.st x) x.pred ∧
      Passes b coh00 (.atom x .add 0) x.pred ∧ Passes b coh00 (.atomcas x) x.pred ∧
      (b.laneEA coh00 x lane0 = none ∨ b.laneEA coh00 x lane0 = some 0x1000000000002)) := by decide +kernel
theorem test_witness_effective_address : (0 ≤ ((0xffffffffffffffff : Dword).toNat : Int) + (0 : BitVec 24).toInt ∧
    ((0xffffffffffffffff : Dword).toNat : Int) + (0 : BitVec 24).toInt < 2 ^ 64) ∧
    2 ^ 64 ≤ ((0xffffffffffffffff : Dword).toNat : Int) + (1 : BitVec 24).toInt ∧ ((0 : Dword).toNat : Int) + (0xffffff : BitVec 24).toInt < 0 := by decide
theorem test_witness_memory_instructions : Issues sMem coh0 ∧
    (∀ acc ∈ [Acc.read, .write, .both], ∀ x ∈ [mem0, { mem0 with order := .sc }, atom0, { atom0 with order := .ar }],
      let b := flushed sMem coh0 x 4 acc [lane0]
      let u := b.flushQuantum 0
      b.laneWaits coh0 x 4 acc lane0 = false ∧ u.orderWaits coh0 x.order [lane0] = false ∧ Passes b coh0 (.ld x) Pred.always ∧
      Passes u coh0 (.st x) Pred.always ∧ Passes u coh0 (.atom x .add 0) Pred.always ∧ Passes u coh0 (.atomcas x) Pred.always ∧
      (begun sMem).atomBehind coh0 x 4 lane0 = false) ∧ sMem.execLanes coh0 Pred.always = [lane0] ∧
    (match (begun sMem).peek coh0 0x100 .read with
      | .ok k _ _ _ => !(begun sMem).readStalled (l1Agent 0) 2 (k / 32 * 32) 32
      | _ => false) = true ∧ Passes sMem coh0 (.pfetch mem0) Pred.always := by decide +kernel
/-- A lane acts: for an access of an order that asks for nothing first, and for one that does. -/
def flat (s : State) (c : Cohort) (x : Mem) (acc : Acc) : State := flushed s c x 4 acc [lane0]
def ordered (s : State) (c : Cohort) (x : Mem) (acc : Acc) : State := ((flat s c x acc).flushQuantum c.core).fenceFirst c x.order x.scope
theorem acts {s : State} {c : Cohort} {x : Mem} {acc : Acc} {i : Instr} {va : Nat} (h : Issues s c ∧ s.execLanes c x.pred = [lane0] ∧
      (flat s c x acc).laneWaits c x 4 acc lane0 = false ∧ (flat s c x acc).execLanes c x.pred = [lane0] ∧ Passes (flat s c x acc) c i x.pred ∧
      (flat s c x acc).laneEA c x lane0 = some va ∧ va % 4 = 0) :
    LaneActs false s (flat s c x acc) (flat s c x acc) c x lane0 4 acc i va :=
  ⟨h.1, h.2.1, h.2.2.1, rfl, nofun, h.2.2.2.1, h.2.2.2.2.1, rfl, h.2.2.2.2.2⟩
theorem acts_in_order {s : State} {c : Cohort} {x : Mem} {acc : Acc} {i : Instr} {va : Nat} (h : Issues s c ∧ s.execLanes c x.pred = [lane0] ∧
      (flat s c x acc).laneWaits c x 4 acc lane0 = false ∧ ((flat s c x acc).flushQuantum c.core).orderWaits c x.order [lane0] = false ∧
      ((flat s c x acc).flushQuantum c.core).execLanes c x.pred = [lane0] ∧ Passes ((flat s c x acc).flushQuantum c.core) c i x.pred ∧
      (ordered s c x acc).laneEA c x lane0 = some va ∧ va % 4 = 0) :
    LaneActs true s ((flat s c x acc).flushQuantum c.core) (ordered s c x acc) c x lane0 4 acc i va :=
  ⟨h.1, h.2.1, h.2.2.1, rfl, fun _ => h.2.2.2.1, h.2.2.2.2.1, h.2.2.2.2.2.1, rfl, h.2.2.2.2.2.2⟩
theorem reach_eq {u : State} {c : Cohort} {va : Nat} {acc : Acc} {r : Reach} (h : (u.reach c lane0.pos va acc).1 = r) :
    u.reach c lane0.pos va acc = (r, reached u c va acc) := Prod.ext h rfl
def memSc : Mem := { mem0 with order := .sc, scope := .dev }
theorem test_witness_quiet : (Quiet sMem ∧ Quiet one) ∧ (Sound sMem ∧ Sound one) :=
  ⟨⟨⟨by decide, by decide, by decide⟩, ⟨by decide, by decide, by decide⟩⟩, ⟨by decide, by decide, by decide, by decide⟩,
    ⟨by decide, by decide, by decide, by decide⟩⟩
theorem test_witness_loads_act : LaneActs false sMem (flat sMem coh0 mem0 .read) (flat sMem coh0 mem0 .read) coh0 mem0 lane0 4 .read (.ld mem0) 0x100 ∧
    LaneActs true sMem ((flat sMem coh0 memSc .read).flushQuantum 0) (ordered sMem coh0 memSc .read) coh0 memSc lane0 4 .read (.ld memSc) 0x100 :=
  ⟨acts (by decide +kernel), acts_in_order (by decide +kernel)⟩
/-- What an access at 0x100 finds: the page's key, which is of the device. -/
def there (u : State) (acc : Acc) : Bool := match (u.reach coh0 0 0x100 acc).1 with
  | .go key _ _ => (List.range 4).all fun i => !(reached u coh0 0x100 acc).remoteKey (key + i)
  | _ => false
theorem test_witness_loads : ∀ x ∈ [(mem0, flat sMem coh0 mem0 .read), (memSc, ordered sMem coh0 memSc .read)], x.1.split = false ∧
    (Instr.ld x.1).regsOk = true ∧ there x.2 .read = true ∧ sMem.coh.halves = [] ∧
    (let w := (reached x.2 coh0 0x100 .read).touchLoad coh0 4 (.go (reachKey x.2 coh0 0x100 .read).1 (reachKey x.2 coh0 0x100 .read).2.1
        (reachKey x.2 coh0 0x100 .read).2.2)
     w.poisonedIn (reachKey x.2 coh0 0x100 .read).1 4 = none ∧ w.coh.halves = []) := by decide +kernel
def memRel : Mem := { mem0 with order := .rel, scope := .dev }
/-- An address in a page without a leaf. -/
def memFar : Mem := { mem0 with base := 8 }
def atomFar : Mem := { atom0 with base := 8 }
theorem test_witness_stores_act : LaneActs false sMem (flat sMem coh0 mem0 .write) (flat sMem coh0 mem0 .write) coh0 mem0 lane0 4 .write (.st mem0) 0x100 ∧
    LaneActs true sMem ((flat sMem coh0 memRel .write).flushQuantum 0) (ordered sMem coh0 memRel .write) coh0 memRel lane0 4 .write (.st memRel) 0x100 :=
  ⟨acts (by decide +kernel), acts_in_order (by decide +kernel)⟩
theorem test_witness_stores : coh0.irr = true ∧ sMem.coh.halves = [] ∧
    ∀ u ∈ [flat sMem coh0 mem0 .write, ordered sMem coh0 memRel .write], u.logsPage 2 0x100 = false ∧ there u .write = true := by decide +kernel
/-- The page has no leaf: the unit that the walk ends at. -/
def nowhere (u : State) (c : Cohort) (acc : Acc) : Option Nat := match (u.reach c 0 0x1000000000000 acc).1 with
  | .page (some k) => some k
  | _ => none
theorem no_page {u : State} {c : Cohort} {acc : Acc} {k : Nat} (h : (u.reach c 0 0x1000000000000 acc).1 = .page (some k)) :
    u.reach c lane0.pos 0x1000000000000 acc = (.page (some k), reached u c 0x1000000000000 acc) := reach_eq h
theorem test_witness_unmapped_act :
    LaneActs false sMem (flat sMem coh0 memFar .read) (flat sMem coh0 memFar .read) coh0 memFar lane0 4 .read (.ld memFar) 0x1000000000000 ∧
    LaneActs false sMem (flat sMem coh0 atomFar .both) (flat sMem coh0 atomFar .both) coh0 atomFar lane0 4 .both (.atom atomFar .add 0) 0x1000000000000 ∧
    LaneActs false sMem (flat sMem coh0 atomFar .both) (flat sMem coh0 atomFar .both) coh0 atomFar lane0 4 .both (.atomcas atomFar) 0x1000000000000 ∧
    LaneActs false sMem (flat sMem coh0 memFar .write) (flat sMem coh0 memFar .write) coh0 memFar lane0 4 .write (.st memFar) 0x1000000000000 ∧
    LaneActs true sMem ((flat sMem coh0 { memFar with order := .rel } .write).flushQuantum 0) (ordered sMem coh0 { memFar with order := .rel } .write) coh0
      { memFar with order := .rel } lane0 4 .write (.st { memFar with order := .rel }) 0x1000000000000 :=
  ⟨acts (by decide +kernel), acts (by decide +kernel), acts (by decide +kernel), acts (by decide +kernel), acts_in_order (by decide +kernel)⟩
theorem test_witness_unmapped : (∀ e ∈ [(flat sMem coh0 memFar .read, Acc.read, memFar), (flat sMem coh0 atomFar .both, .both, atomFar)],
      (nowhere e.1 coh0 e.2.1).isSome = true ∧ sMem.threads.find 2 = some placedThread ∧ placedThread.pendRec = none ∧
      (reached e.1 coh0 0x1000000000000 e.2.1).threads.find 2 = some placedThread ∧
      (reached e.1 coh0 0x1000000000000 e.2.1).laneEA coh0 e.2.2 lane0 = some 0x1000000000000) ∧
    coveredByStores lane0.buf 0x1000000000000 4 = false ∧ atomFar.use ≠ .spec ∧ atomFar.d ≠ 0 := by decide +kernel
/-- A side log with an entry of the thread for the page, and one that is full. -/
def entry0 (n : Nat) : SideEntry := ⟨0, ⟨0, 1, 2, 0, 0, 0x1000000000000 + 4 * n, [1, 0, 0, 0], .store, .plain, .crew, .sync⟩, none, false⟩
def sLogged : State := sMem.modEng fun g => { g with sideLog := [entry0 0] }
def sFullLog : State := sMem.modEng fun g => { g with sideLog := (List.range 256).map fun n => { entry0 n with eff := { (entry0 n).eff with thread := 9, ctx := 5 } } }
theorem test_witness_unmapped_stores : (∀ e ∈ [(sMem, memFar, true, false), (sMem, { memFar with order := .rel }, false, false), (sFullLog, memFar, true, true)],
      let u := if e.2.2.1 then flat e.1 coh0 e.2.1 .write else ordered e.1 coh0 e.2.1 .write
      let v := reached u coh0 0x1000000000000 .write
      u.logsPage 2 0x1000000000000 = false ∧ (nowhere u coh0 .write).isSome = true ∧
      (u.memEff coh0 lane0 0x1000000000000 (u.srcBytes coh0 2 1 .b32) .store e.2.1).logs = e.2.2.1 ∧ (v.logRoom 0 == 0) = e.2.2.2 ∧
      (v.threads.find 2).isSome = true) ∧
    (let u := flat sLogged coh0 memFar .write; u.logsPage 2 0x1000000000000 = true ∧ u.logRoom 0 ≠ 0) := by decide +kernel
theorem test_witness_logged_store_acts :
    LaneActs false sLogged (flat sLogged coh0 memFar .write) (flat sLogged coh0 memFar .write) coh0 memFar lane0 4 .write (.st memFar) 0x1000000000000 ∧
    LaneActs false sFullLog (flat sFullLog coh0 memFar .write) (flat sFullLog coh0 memFar .write) coh0 memFar lane0 4 .write (.st memFar) 0x1000000000000 :=
  ⟨acts (by decide +kernel), acts (by decide +kernel)⟩
/-- A revocable trace with its budget, and with none left. -/
def sMemRev (b : Nat) : State := at3 sMem { rev0 with budget := b }
theorem test_witness_buffering_acts (b : Nat) (h : b = 0 ∨ b = 16) :
    (∀ x ∈ [mem0, memFar], ∃ va, LaneActs false (sMemRev b) (flat (sMemRev b) { rev0 with budget := b } x .write) (flat (sMemRev b) { rev0 with budget := b } x .write)
      { rev0 with budget := b } x lane0 4 .write (.st x) va) ∧
    LaneActs false (sMemRev b) (flat (sMemRev b) { rev0 with budget := b } { atom0 with d := 0 } .write) (flat (sMemRev b) { rev0 with budget := b } { atom0 with d := 0 } .write)
      { rev0 with budget := b } { atom0 with d := 0 } lane0 4 .write (.atom { atom0 with d := 0 } .add 0) 0x100 := by
  rcases h with rfl | rfl <;> refine ⟨fun x hx => ?_, acts (by decide +kernel)⟩ <;>
    · simp only [List.mem_cons, List.not_mem_nil, or_false] at hx
      rcases hx with rfl | rfl
      · exact ⟨0x100, acts (by decide +kernel)⟩
      · exact ⟨0x1000000000000, acts (by decide +kernel)⟩
theorem test_witness_buffering : rev0.irr = false ∧ lane0.buf.length < 16 ∧ 0 ≤ lane0.buf.length ∧
    there (flat (sMemRev 16) { rev0 with budget := 16 } mem0 .write) .write = true ∧
    (nowhere (flat (sMemRev 16) { rev0 with budget := 16 } memFar .write) { rev0 with budget := 16 } .write).isSome = true := by decide +kernel
/-- A store of four bytes to 0x200 that has reached its home, from core 0: one of its crew's scope, and a releasing one of the device's. -/
def sentBy (o : Order) (c : Scope) : Remote :=
  ⟨false, some ⟨0, 1, 2, 0x141, 2, 0x200, [7, 0, 0, 0], .store, o, c, .sync⟩, 0x200, 4, [], .write, 3, 2, tcAgent 0, false, false, some 0⟩
def sent0 : Remote := sentBy .plain .crew
def sSent (r : Remote) : State := { one with coh := { one.coh with remote := [(7, r)] } }
theorem test_witness_store_arrives : ∀ r ∈ [sent0, sentBy .rel .dev], (sSent r).coh.remote.find 7 = some r ∧ r.due = some 0 ∧ 0 ≤ (sSent r).clock ∧
    r.gone = false ∧ r.size = 4 ∧ (sSent r).stalled 2 0x200 4 = false ∧ (sSent r).behind 7 r = false ∧ (sSent r).remoteKey 0x200 = false ∧
    0x200 / 2 ^ 16 ∉ (sSent r).pkg.retireList ∧ ((sSent r).mergeCheck 0x200 4).1 = none ∧ (sSent r).coh.halves = [] ∧ (sSent r).atHome 0x200 = false ∧
    (sSent r).translators ((sSent r).unitsOf 0x200 4) = [] ∧ (sSent r).coh.dieWrites = [] ∧
    r.eff.any (fun e => e.kind == .store && e.use == .sync && e.thread != 0 && e.deviceWide == (r != sent0)) = true := by decide +kernel
theorem test_witness_arriving_state : Quiet (sSent (sentBy .rel .dev)) ∧ Sound (sSent (sentBy .rel .dev)) :=
  ⟨⟨by decide, by decide, by decide⟩, by decide, by decide, by decide, by decide⟩
def atomRel : Mem := { atom0 with use := .sync, order := .ar }
theorem test_witness_atomics_act :
    (∀ i ∈ [Instr.atom atom0 .add 0, .atomcas atom0], LaneActs false sMem (flat sMem coh0 atom0 .both) (flat sMem coh0 atom0 .both) coh0 atom0 lane0 4 .both i 0x100) ∧
    (∀ i ∈ [Instr.atom atomRel .add 0, .atomcas atomRel], LaneActs true sMem ((flat sMem coh0 atomRel .both).flushQuantum 0) (ordered sMem coh0 atomRel .both)
      coh0 atomRel lane0 4 .both i 0x100) :=
  ⟨fun i hi => acts (by revert i; decide +kernel), fun i hi => acts_in_order (by revert i; decide +kernel)⟩
/-- What an atomic finds at 0x100: its page, no damage, and no watch. -/
def calm (u : State) (c : Cohort) (acc : Acc) : Bool := match u.reach c 0 0x100 acc with
  | (.go key pte _, v) => !v.remoteKey key && !pte[10] && ((v.readHome key 4).poisonedIn key 4).isNone && (v.mergeCheck key 4).1.isNone &&
      (((v.mergeCheck key 4).2).poisonedIn key 4).isNone && !v.undecided key 4 && !v.pkg.retireList.contains (key / 2 ^ 16) && !u.logsPage 2 0x100
  | _ => false
theorem test_witness_atomics : coh0.irr = true ∧ (∀ x ∈ [(atom0, flat sMem coh0 atom0 .both), (atomRel, ordered sMem coh0 atomRel .both)], x.1.use ≠ .spec ∧ x.1.d ≠ 0 ∧
    (Instr.atom x.1 .add 0).wf = true ∧ (Instr.atomcas x.1).wf = true ∧ (Instr.atom x.1 .add 0).regsOk = true ∧ (Instr.atomcas x.1).regsOk = true ∧
    calm x.2 coh0 .both = true) := by decide +kernel
def atomNone (u : Use) : Mem := { atom0 with d := 0, use := u }
theorem test_witness_plain_atomics_act : ∀ u ∈ [Use.unp, .qnt], LaneActs false sMem (flat sMem coh0 (atomNone u) .write) (flat sMem coh0 (atomNone u) .write) coh0
    (atomNone u) lane0 4 .write (.atom (atomNone u) .add 0) 0x100 := fun u hu => acts (by revert u; decide +kernel)
theorem test_witness_plain_atomics : ∀ u ∈ [Use.unp, .qnt], (Instr.atom (atomNone u) .add 0).wf = true ∧ (begun sMem).atomBehind coh0 (atomNone u) 4 lane0 = false ∧
    calm (flat sMem coh0 (atomNone u) .write) coh0 .write = true := by decide +kernel
theorem test_witness_pairs_act :
    LaneActs false sMem (flat sMem coh0 atom0 .both) (flat sMem coh0 atom0 .both) coh0 atom0 lane0 4 .both (.atom atom0 .add 3) 0x100 ∧
    LaneActs false sMem (flat sMem coh0 (atomNone .unp) .write) (flat sMem coh0 (atomNone .unp) .write) coh0 (atomNone .unp) lane0 4 .write
      (.atom (atomNone .unp) .add 3) 0x100 := ⟨acts (by decide +kernel), acts (by decide +kernel)⟩
theorem test_witness_pairs : ∀ x ∈ [atom0, atomNone .unp], x.use ≠ .spec ∧ x.use ≠ .qnt ∧ (Instr.atom x .add 3).wf = true ∧ x.width ≠ .u16 ∧
    (Instr.atom x .add 3).regsOk = true ∧ (begun sMem).atomBehind coh0 x 4 lane0 = false ∧
    calm (flat sMem coh0 x (if x.d = 0 then .write else .both)) coh0 (if x.d = 0 then .write else .both) = true := by decide +kernel
/-- The second half of an atomic at 0x202 is due, of one that returns its value to v9 and of one that does not. -/
def half0 (r : Option (Nat × Nat)) : Half := ⟨8, 2, 0x202, 0x3f80, .ctx 0, none, r⟩
def sHalf (r : Option (Nat × Nat)) : State := at3 { one with coh := { one.coh with halves := [half0 r] } } { coh0 with waits := r.toList.map (·.1) }
theorem test_witness_other_half : ∀ r ∈ [none, some (77, 9)], (sHalf r).coh.halves = [half0 r] ∧ (sHalf r).coh.dieWrites = [] ∧ (sHalf r).eng.quantum = [] ∧
    (half0 r).pa % 2 = 0 ∧ (half0 r).pa / 2 ^ 16 ∉ (sHalf r).pkg.retireList ∧ (sHalf r).stalled 2 0x202 2 = false := by decide
theorem test_witness_half_is_sound : ∀ r, Sound (sHalf r) := fun _ => ⟨rfl, rfl, rfl, rfl⟩
def atomSpec0 : Mem := { atom0 with use := .spec, order := .rlx }
theorem test_witness_speculation : (∀ i ∈ [Instr.atom atomSpec0 .add 0, .atomcas atomSpec0], LaneActs false (sMemRev 16) (flat (sMemRev 16) { rev0 with budget := 16 } atomSpec0 .both)
      (flat (sMemRev 16) { rev0 with budget := 16 } atomSpec0 .both) { rev0 with budget := 16 } atomSpec0 lane0 4 .both i 0x100) ∧
    (Instr.atom atomSpec0 .add 0).wf = true ∧ (Instr.atomcas atomSpec0).wf = true ∧ (Instr.atom atomSpec0 .add 0).regsOk = true ∧
    (Instr.atomcas atomSpec0).regsOk = true ∧ rev0.laneOf 2 = some lane0 ∧ calm (flat (sMemRev 16) { rev0 with budget := 16 } atomSpec0 .both) { rev0 with budget := 16 } .both = true :=
  ⟨fun i hi => acts (by revert i; decide +kernel), by decide, by decide, by decide, by decide, by decide, by decide +kernel⟩
/-- A revocable trace at its COMMIT whose lane has buffered a store to 0x100, and one whose reservation has failed. -/
def stored0 : MemEff := ⟨0, 1, 2, 0, 0, 0x100, [7, 0, 0, 0], .store, .rlx, .dev, .sync⟩
def revWith (b : List Effect) (r : List Resv) : Cohort := { rev0 with len := 1, lanes := [{ lane0 with buf := b, resv := r }] }
def sRevWith (b : List Effect) (r : List Resv) : State := at3 sMem (revWith b r)
theorem test_witness_revocable_commits : ∀ e ∈ [([Effect.mem stored0 0x100 .clean], []), ([], [⟨0x100, 4, true⟩])],
    let c := revWith e.1 e.2
    let s := sRevWith e.1 e.2
    let b := (begun s).flushQuantum 0
    Issues s c ∧ c.irr = false ∧ (∀ p ∈ c.pend, p.ready ≤ s.clock) ∧ c.pushed ≤ s.clock ∧ b.cohorts.find 3 ≠ none ∧
      b.laneNow 3 2 = some { lane0 with buf := e.1, resv := e.2 } ∧ b.earlierAwaits 3 2 = false ∧
      (e.2 = [] → b.deferredBy { lane0 with buf := e.1 } = [] ∧ b.holdsClash { lane0 with buf := e.1 } = false ∧ ({ lane0 with buf := e.1 } : Lane).logNeeds ≤ b.logRoom 0) := by
  decide +kernel
/-- The lane past its commit point, before and after its effect. -/
def sPast (b : List Effect) : State := (((begun (sRevWith b [])).flushQuantum 0).modThread 2 fun t => { t with jewelUsed := false, resvLost := false }).modLane 3 2
  fun k => { k with past := true, logRes := ({ lane0 with buf := b } : Lane).logNeeds }
def past0 (b : List Effect) : State := ((sPast b).performEffects (revWith b []) 2 b.length).2
theorem test_witness_commit_done : let b := [Effect.mem stored0 0x100 .clean]
    ((sPast b).performEffects (revWith b []) 2 1).1 = .done ∧ ((past0 b).cohorts.find 3).map (·.lanes.map fun l => (l.tid, l.trap.isNone)) = some [(2, true)] ∧
    ((past0 b).threads.find 2).map (·.timerPend) = some false := by decide +kernel
theorem test_witness_commit_waits : let b := [Effect.mem { stored0 with use := .spec } 0x100 .clean]
    let s := (sPast b).modCoh fun c => { c with remote := [(7, { sent0 with eff := some { stored0 with use := .spec } })] }
    (s.performEffects (revWith b []) 2 1).1 = .waitAll ∧ (s.performEffects (revWith b []) 2 1).2.cohorts.find 3 ≠ none := by decide +kernel
theorem test_witness_effects : ∀ e ∈ [Effect.sts 0x40 [1] .plain, .atoms 0x40 4 1 .plain 3, .renew 0x40 9, .arm 0x40 1, .trigger, .trap ⟨.trap, 0, 0, 0⟩, .mem stored0 0x100 .clean],
    (sPast [e]).laneNow 3 2 = some { lane0 with buf := [e], past := true, logRes := ({ lane0 with buf := [e] } : Lane).logNeeds } ∧ (sPast [e]).laneAwaits 3 2 = false ∧
    releases e.order = false ∧ (sPast [e]).releaseWaits 2 = false := by decide +kernel
theorem test_witness_buffered_store : let u := reached (sPast [.mem stored0 0x100 .clean]) (revWith [.mem stored0 0x100 .clean] []) 0x100 .write
    (sPast [.mem stored0 0x100 .clean]).logsPage 2 0x100 = false ∧ u.stalled 2 0x100 4 = false ∧ u.ownEntry 2 0x100 4 = false ∧
    (u.unanswered 2 fun r => r.due.isSome && overlap 0x100 4 r.pa r.size) = false ∧ u.remoteKey 0x100 = false ∧ (u.mergeCheck 0x100 4).1 = none ∧
    (match ((sPast [.mem stored0 0x100 .clean]).reach (revWith [.mem stored0 0x100 .clean] []) 0 0x100 .write).1 with | .go k _ _ => k == 0x100 | _ => false) = true := by decide +kernel
theorem test_witness_committed_store : let s := sRevWith [.mem stored0 0x100 .clean] []
    Quiet s ∧ Sound s ∧ s.coh.remote = [] ∧ s.eng.sideLog = [] ∧ s.pkg.reports = [] ∧ (∀ d ∈ s.cohorts.vals, ∀ r ∈ d.lanes, r.past = false) ∧
    s.threads.find 2 = some placedThread ∧ placedThread.timerPend = false ∧ wideScope stored0.scope = true :=
  ⟨⟨by decide, by decide, by decide⟩, ⟨by decide, by decide, by decide, by decide⟩, by decide, by decide, by decide, by decide, by decide, by decide, by decide⟩
theorem test_witness_atomic_operations : 2 ^ 32 - 1 < 2 ^ (8 * 4) ∧ (4 = 4 ∨ 4 = 8) ∧ ((1 : BitVec 2) = 0 ∨ (1 : BitVec 2) = 1) ∧
    (BitVec.ofNat (8 * 4) (2 ^ 32 - 1)).toInt < 0 := by decide
def fence1 : Mem := { fence0 with order := .sc, scope := .dev }
theorem test_witness_crew_load_lanes : ([lane0].map (·.tid)).Nodup := by decide
theorem test_witness_crew_loads : Issues sMem coh0 ∧ (let b := flat sMem coh0 mem0 .read
      Passes b coh0 (.kld mem0) Pred.always ∧ sMem.execLanes coh0 Pred.always = [lane0] ∧ b.execLanes coh0 Pred.always = [lane0] ∧
      b.laneWaitsAt (icAgent 0) coh0 mem0 4 .read lane0 = false ∧ b.laneEA coh0 mem0 lane0 = some 0x100 ∧ there b .read = true ∧
      (let v := ((reached b coh0 0x100 .read).flushNamed 0 0x100 4).readHome 0x100 4
       v.coh.halves = [] ∧ v.poisonedIn 0x100 4 = none) ∧ (Instr.kld mem0).regsOk = true) ∧
    (Passes ((begun sMem).flushQuantum 0) coh0 (.fence fence1) Pred.always ∧ ((begun sMem).flushQuantum 0).kUnwritten coh0 = false ∧
      ∀ l ∈ sMem.execLanes coh0 Pred.always, ((begun sMem).flushQuantum 0).releaseWaits l.tid = false ∧
        (((begun sMem).flushQuantum 0).unanswered l.tid fun r => r.due.isSome) = false) := by decide +kernel
def coh2 : Cohort := { coh0 with lanes := [lane0, { lane0 with pos := 1, tid := 5 }] }
theorem test_witness_split_groups : (at3 two coh2).cohorts.find coh2.id = some coh2 ∧ coh2.id < (at3 two coh2).nextId ∧
    ((at3 two coh2).cohorts.vals.filter fun k => k.core == coh2.core && k.port == coh2.port).length < 16 ∧
    coh2.lanes.filter (fun l => [5].contains l.tid) ≠ [] ∧ coh2.lanes.filter (fun l => !([5].contains l.tid)) ≠ [] := by decide

/-! ### The scratchpad -/

/-- v2 holds the scratchpad offset 0x40. -/
def sSpad : State := withRegs one [(2, 0x40)]
theorem test_witness_scratchpad : Issues sSpad coh0 ∧ Passes sSpad coh0 (.lds mem0) Pred.always ∧ Passes sSpad coh0 (.sts { mem0 with order := .rel }) Pred.always ∧
    (∀ l ∈ sSpad.execLanes coh0 Pred.always, ((begun sSpad).flushQuantum 0).releaseWaits l.tid = false) := by decide
theorem test_witness_await : Issues sSpad coh0 ∧ sSpad.stallShort coh0 (.await mem0) = false ∧ sSpad.execLanes coh0 mem0.pred ≠ [] ∧
    sSpad.execLanes coh0 ⟨true, 7⟩ = [] := by decide
/-- A cohort at AWAIT whose lane waits for the generation of the word at 0x40 to differ from 0, in a state whose word has generation 1. -/
def cohAwait (g : Word) : Cohort := { coh0 with st := .await 9 4, lanes := [{ lane0 with await := some ⟨0x40, g, false⟩ }] }
def sAwait (g : Word) : State := (at3 one (cohAwait g)).spadWriteFrom 1 16 0x40 (List.replicate 16 0)
theorem test_witness_await_release (g : Word) (hg : g = 0 ∨ g = 1) : (sAwait g).cohorts.find (cohAwait g).id = some (cohAwait g) ∧ (cohAwait g).st = .await 9 4 ∧
    (∀ l ∈ (cohAwait g).lanes, ∀ w, l.await = some w → (sAwait g).generation 1 w.addr = some 0) ∧ ((cohAwait g).lanes.map (·.tid)).Nodup := by
  rcases hg with rfl | rfl <;> refine ⟨by decide, by decide, ?_, by decide⟩ <;> · intro l hl w hw; simp [cohAwait] at hl; subst hl; cases hw; decide
theorem test_witness_await_released : ∀ l ∈ (cohAwait 1).lanes, ∀ w, l.await = some w → (0 : Word) ≠ w.gen := by
  intro l hl w hw; simp [cohAwait] at hl; subst hl; cases hw; decide
theorem test_witness_await_held : ∃ l ∈ (cohAwait 0).lanes, ∃ w, l.await = some w ∧ w.ok = false ∧ (0 : Word) = w.gen :=
  ⟨_, List.mem_singleton.2 rfl, _, rfl, rfl, rfl⟩
/-- A word that was never written is stale: the cohort's one lane waits on it, or on it and on a live one. -/
def cohStale : Cohort := { coh0 with st := .await 9 4, lanes := [{ lane0 with await := some ⟨0x200, 0, false⟩ }] }
def cohBoth : Cohort := { coh0 with st := .await 9 4, lanes := [{ lane0 with await := some ⟨0x200, 0, false⟩ }, { lane0 with pos := 1, tid := 5, await := some ⟨0x40, 0, false⟩ }] }
def sStale (c : Cohort) : State := (at3 one c).spadWriteFrom 1 16 0x40 (List.replicate 16 0)
theorem setCohort_same {s : State} {c : Cohort} (h : s.cohorts.insert c.id c = s.cohorts) : s.setCohort c = s := by rw [State.setCohort, h]
theorem test_witness_await_stale : ∀ c ∈ [cohStale, cohBoth], (sStale c).cohorts.find c.id = some c ∧ (sStale c).cohorts.insert c.id c = (sStale c).cohorts ∧
    c.st = .await 9 4 ∧ (c.lanes.map (·.tid)).Nodup ∧ (sStale c).generation c.crew 0x200 = none ∧ (sStale c).generation c.crew 0x40 = some 0 := by
  decide +kernel
theorem test_witness_await_stale_words : ∀ c ∈ [cohStale, cohBoth], ∀ l ∈ c.lanes, ∀ w, l.await = some w → w.ok = false ∧
    ∀ g, (sStale c).generation c.crew w.addr = some g → g = w.gen := by
  have at0x40 : (sStale cohBoth).generation 1 0x40 = some 0 := by decide +kernel
  have at0x200 : ∀ c ∈ [cohStale, cohBoth], (sStale c).generation 1 0x200 = none := by decide +kernel
  intro c hc l hl w hw
  fin_cases hc <;> fin_cases hl <;> cases hw
  · exact ⟨rfl, fun g hg => nomatch (at0x200 cohStale (by simp)).symm.trans hg⟩
  · exact ⟨rfl, fun g hg => nomatch (at0x200 cohBoth (by simp)).symm.trans hg⟩
  · exact ⟨rfl, fun g hg => (Option.some.inj (at0x40.symm.trans hg)).symm⟩
theorem test_witness_scratch_writes : 0 < [1, 2, 3, 4].length ∧ 252 % 256 + [1, 2, 3, 4].length ≤ 256 ∧ 252 + 4 < 2 ^ 20 ∧ one.coh.poison = [] ∧ one.coh.harm = [] ∧
    256 / 256 ≠ 252 / 256 ∧ 256 % 256 + 4 ≤ 256 := by decide
theorem test_witness_stale : Issues sSpad coh0 ∧ Passes sSpad coh0 (.lds mem0) Pred.always ∧ sSpad.execLanes coh0 Pred.always = [lane0] ∧ coh0.irr = true ∧
    releases mem0.order = false ∧ sSpad.spadAddr coh0 mem0 lane0 = 0x40 ∧ 0x40 % widthBytes mem0.width = 0 ∧ 0x40 + 4 ≤ sSpad.window 1 ∧
    sSpad.liveSeg 1 0 = false := by decide

/-! ### The matrix unit -/

theorem pair_eq {α β : Type} {p : α × β} {a : α} (h : p.1 = a) : p = (a, p.2) := Prod.ext h rfl
/-- The entry of an uncompressed FP32 tensor of one element, and of a 64 by 64 one, at an address. -/
def tent (rows cols stride base : Nat) : Nat := base + rows * 2 ^ 112 + cols * 2 ^ 144 + stride * 2 ^ 176 + 2 ^ 480
def coh32 : Cohort := { coh0 with drawnFull := true }
/-- Entries 1 and 2 stand at 0x40 and 0x80. -/
def sTile : State := at3 { one with mem := (one.mem.writeBytes 0x40 (bytesOf 64 (tent 1 1 4 0x200))).writeBytes 0x80 (bytesOf 64 (tent 1 1 4 0x240)) } coh32
def mma0 : Mat := { mat0 with kind := .f32 }
def readied (hs : List (BitVec 12)) : Bool × State := (begun sTile).entriesReady coh32 hs
theorem test_witness_tile_queue : Issues sTile coh32 ∧ (sTile.opsOf coh32.core).length < 32 ∧ (readied [1, 2]).2.execLanes coh32 Pred.always = [lane0] ∧
    coh32.drawnFull = true ∧ Passes (readied [1, 2]).2 coh32 (.mma mma0) Pred.always ∧ Passes (readied [1, 2]).2 coh32 (.mmasp { mat0 with kind := .f16 }) Pred.always ∧
    Passes (readied []).2 coh32 (.mzero mat1) Pred.always ∧ Passes (readied [1]).2 coh32 (.mld { mat1 with hA := 1 }) Pred.always ∧
    Passes (readied [1]).2 coh32 (.mst { mat1 with hA := 1 }) Pred.always ∧ (begun sTile).entriesReady coh32 [1, 2] = (true, (readied [1, 2]).2) ∧
    (readied [1, 2]).2.captures coh32 [lane0] [1, 2] = (some [(tent 1 1 4 0x200, 0x40), (tent 1 1 4 0x240, 0x80)],
      ((readied [1, 2]).2.captures coh32 [lane0] [1, 2]).2) := by
  refine ⟨by decide +kernel, by decide +kernel, by decide +kernel, by decide +kernel, by decide +kernel, by decide +kernel, by decide +kernel, by decide +kernel, by decide +kernel,
    pair_eq (by decide +kernel), pair_eq (by decide +kernel)⟩
theorem test_witness_full_cohorts : Issues one coh0 ∧ coh0.drawnFull = false := by decide
theorem test_witness_tile_accesses : Issues one coh0 ∧ one.tileBusy coh0.crew [0] = false ∧ Passes one coh0 (.mwait mat1) Pred.always ∧
    Passes one coh0 (.mrd { mat1 with vd := 5, vc := 4 }) Pred.always ∧ Passes one coh0 (.mwr { mat1 with vd := 5, vc := 4 }) Pred.always := by decide
def tdesc0 : Mat := { mat1 with hA := 1, kp := 16 }
theorem test_witness_tdesc : Issues sTile coh32 ∧ (begun sTile).tdescReady coh32 1 = (true, ((begun sTile).tdescReady coh32 1).2) ∧
    Passes ((begun sTile).tdescReady coh32 1).2 coh32 (.tdesc tdesc0) Pred.always ∧ ((begun sTile).tdescReady coh32 1).2.execLanes coh32 Pred.always = [lane0] ∧
    entryVa coh32.snap 1 = some 0x40 ∧ (match (((begun sTile).tdescReady coh32 1).2.descBytes coh32 16 16).2.reach coh32 0 0x40 .write with
      | (.go key _ _, w) => key == 0x40 && !w.remoteKey key && (w.mergeCheck key 64).1 == none
      | _ => false) = true :=
  ⟨by decide +kernel, pair_eq (by decide +kernel), by decide +kernel, by decide +kernel, by decide +kernel, by decide +kernel⟩
/-- An MMA of one position, its entries' tensors one element each. -/
def op0 : TileOp := ⟨9, 1, .mma .f32 false false false false false, 0, false, tent 1 1 4 0x200, tent 1 1 4 0x240, 0x40, 0x80, 0, 0, 0, 1, 0, false, 0, false, none,
  ⟨0, 1, 2, 0, 1, 0, 0, 0, none, 0⟩⟩
def withOp (o : TileOp) : State := { sTile with eng := { sTile.eng with tileOps := [o] } }
theorem test_witness_tile_start : (withOp op0).nextTile 0 = some op0 ∧ (withOp op0).tileOp 9 = some op0 ∧ op0.check = none ∧
    ({ op0 with ea := 0 }).check = some (.prot, 0x40) ∧ (withOp { op0 with ea := 0 }).nextTile 0 = some { op0 with ea := 0 } := by decide +kernel
def opLd : TileOp := { op0 with kind := .load false, started := true }
def opRun : TileOp := { op0 with started := true }
/-- The operation with the bytes of both its elements fetched. -/
def fetched (o : TileOp) : State :=
  { withOp o with eng := { (withOp o).eng with opData := [(9, ⟨[1], (List.range 4).map (fun i => (0x200 + i, 1)) ++ (List.range 4).map (fun i => (0x240 + i, 2)), []⟩)] } }
def lineKeys : List Nat := (withOp opRun).nextKeys opRun 0x200 ((withOp opRun).missing opRun).tail
theorem test_witness_tile_fetch : ((fetched opLd).tileOp 9 = some opLd ∧ opLd.started = true ∧ (fetched opLd).tileRuns opLd = true ∧ opLd.prog < opLd.groups ∧
      (fetched opLd).opAsked 9 = false ∧ (fetched opLd).missing opLd = [] ∧ opLd.tile < 15) ∧
    ((withOp opRun).missing opRun = (some 0x200) :: ((withOp opRun).missing opRun).tail ∧ (withOp opRun).oldestGroup opRun = true ∧
      ((withOp opRun).fetchLine false (tcAgent 0) opRun.at' 9 lineKeys (opRun.metadata opRun.prog).contains).1 = .ok) := by decide +kernel
theorem test_witness_tile_group : (fetched opRun).tileOp 9 = some opRun ∧ opRun.started = true ∧ (fetched opRun).tileRuns opRun = true ∧ opRun.prog < opRun.groups ∧
    (fetched opRun).missing opRun = [] ∧ (fetched opRun).pkg.disturb = [] ∧ (fetched opRun).armedFp 0 = [] := by decide +kernel
def armed : Ctx := { placedCtx with grant := true, regs := { placedCtx.regs with errInject := 0x8500000000000000 } }
theorem test_witness_tile_divergence : ({ fetched opRun with ctxs := [(0, armed)] } : State).armedFp 0 = [armed] ∧ opRun.retried = false ∧
    ({ opRun with retried := true } : TileOp).retried = true := by decide +kernel
def opStore : TileOp := { opRun with kind := .store false false, prog := 4095 }
theorem test_witness_tile_complete : ((withOp { opRun with prog := 1 }).tileOp 9 = some { opRun with prog := 1 } ∧ ({ opRun with prog := 1 } : TileOp).groups ≤ 1 ∧
      (withOp { opRun with prog := 1 }).opWriting 9 = false ∧ (withOp { opRun with prog := 1 }).tileRuns { opRun with prog := 1 } = true) ∧
    ({ opRun with kind := .zero } : TileOp).groups ≤ 0 ∧ opStore.groups ≤ 4095 ∧
    ((withOp opStore).storeElems opStore ((withOp opStore).storeRuns opStore false false ((List.range 4096).drop 4095))).1 = .ok := by decide +kernel

/-! ### Engines -/

def xfer1 : Xfer := { xfer0 with hD := 1, hS := 2 }
theorem test_witness_engine_queues : Issues sTile coh32 ∧ sTile.execLanes coh32 Pred.always = [lane0] ∧ (readied [1, 2]).2.execLanes coh32 Pred.always = [lane0] ∧
    (∀ m ∈ [lane0], ((begun sTile).flushQuantum 0).releaseWaits m.tid = false) ∧
    ((begun sTile).flushQuantum 0).entriesReady coh32 [1, 2] = (true, (((begun sTile).flushQuantum 0).entriesReady coh32 [1, 2]).2) ∧
    (readied [1, 2]).2.captures coh32 [lane0] [1, 2] = (some [(tent 1 1 4 0x200, 0x40), (tent 1 1 4 0x240, 0x80)], ((readied [1, 2]).2.captures coh32 [lane0] [1, 2]).2) ∧
    Passes (readied [1, 2]).2 coh32 (.xcopy xfer1) Pred.always ∧ [lane0].length ≤ sTile.copyRoom 0 ∧
    Passes (readied [1, 2]).2 coh32 (.xcoll xfer1) Pred.always ∧ [lane0].length ≤ sTile.collRoom := by
  refine ⟨by decide +kernel, by decide +kernel, by decide +kernel, by decide +kernel, pair_eq (by decide +kernel), pair_eq (by decide +kernel), by decide +kernel, by decide +kernel,
    by decide +kernel, by decide +kernel⟩
/-- A table of streams at 0x8000, whose stream 0 has its ring at 0x9000, its tail at 0xa000 and its head at 0xa004; the ring's first command is given. -/
def desc0 : Nat := 0x9000 + 6 * 2 ^ 80 + 2 ^ 91 + 2 ^ 92 + 0xa000 * 2 ^ 128 + 0xa004 * 2 ^ 256
def sStream (w : Nat) : State :=
  let t := Stream.fresh
  { one with mem := (one.mem.writeBytes 0x8000 (bytesOf 64 desc0)).writeBytes 0x9000 (bytesOf 64 w)
             cmd := { one.cmd with streamTab := 0x8000, streams := [(0, { t with cmd := some 0 })] } }
def sd0 : StreamDesc := ⟨0xa004, 0xa000, 0, true, true, 0, 6, 0x9000⟩
def flushed0 : State := (begun (sStream 0)).flushQuantum 0
def launched : Bool × State := ((flushed0.seenK64 coh0 4).2.seenK coh0 2).2.enginesRelease 0 [lane0] |>.launchLanes coh0 0 0 [lane0]
theorem test_witness_launch : (sStream 0).execLanes coh0 Pred.always = [lane0] ∧ Issues (sStream 0) coh0 ∧
    flushed0.stallShort coh0 (.launch ⟨Pred.always, 0, 2, 4, 0⟩) = false ∧ flushed0.releaseWaits lane0.tid = false ∧
    launched.1 = true ∧ (match (launched.2.modCohort 3 fun k => { k with lanes := k.lanes.map fun l => { l with past := false } }).cohorts.find 3 with
      | some k => decide (Passes (launched.2.modCohort 3 fun k => { k with lanes := k.lanes.map fun l => { l with past := false } }) k
          (.launch ⟨Pred.always, 0, 2, 4, 0⟩) Pred.always)
      | none => false) = true := by
  decide +kernel
def at0 : Attr := ⟨0, 1, 2, 0, 1, 0, 0, 0, none, 0⟩
/-- A copy of one FP32 element from 0x240 to 0x200, waiting, or with engine 0. -/
def copy0 (e : Option Nat) (prog : Nat) (w : Option Completion) : CopyOp :=
  ⟨7, 0, e, tent 1 1 4 0x200, tent 1 1 4 0x240, 0x40, 0x80, false, 1, 0, 0, none, w, prog, w.isSome, none, at0⟩
def withCopy (o : CopyOp) : State := { sTile with eng := { sTile.eng with copyOps := [o] } }
/-- One operation of the crew is under way: XWAIT 0 waits for it, and XWAIT 1 does not. -/
theorem test_witness_xwait : Issues (withCopy (copy0 none 0 none)) coh32 ∧ (withCopy (copy0 none 0 none)).engineOps coh32.crew = [7] ∧
    Passes (withCopy (copy0 none 0 none)) coh32 (.xwait ⟨0, 1⟩) Pred.always ∧ coh32.xops = none := by decide +kernel
def fromStream : CopyOp := { copy0 none 0 none with at' := streamAttr 0 0 0 }
theorem test_witness_copy_turn : ((withCopy (copy0 none 0 none)).eng.copyOps.filter fun p => p.engine == some 0).length < 4 ∧
    (withCopy (copy0 none 0 none)).copyOp 7 = some (copy0 none 0 none) ∧ (copy0 none 0 none).check = none ∧
    ({ copy0 none 0 none with es := 0 } : CopyOp).check = some (.prot, 0x80) ∧ (withCopy (copy0 none 0 none)).attrRuns at0 = true ∧
    (withCopy fromStream).eng.copyOps.find? (fun p => p.engine.isNone && p.at'.stream.isSome && p.die == 0) = some fromStream := by decide +kernel
def copy1 : CopyOp := copy0 (some 0) 0 none
def src0 : List Nat := copy1.chunk.filterMap (·.1)
def dst0 : List Nat := copy1.chunk.filterMap (·.2)
def copied : Moved × State := (withCopy copy1).fetchAll true (copyAgent 0 0) at0 7 src0 (fun r s => s.haltCopy copy1 r) 8192
def copyRuns : List (Nat × List Byte) := runsOf (dst0.zip (src0.map fun k => Map.get (copied.2.eng.opData.get OpData.none 7).fetched 0 k))
/-- A write of the copy is under way to the host. -/
def writing1 : State := { withCopy copy1 with coh := { one.coh with remote := [(9, ⟨false, none, hostKey, 4, [], .write, 7, 0, 0, false, false, none⟩)] } }
theorem test_witness_copy_chunk : (withCopy copy1).copyOp 7 = some copy1 ∧ copy1.engine = some 0 ∧ (withCopy copy1).attrRuns at0 = true ∧
    (withCopy copy1).opAsked 7 = false ∧ (withCopy copy1).opWriting 7 = false ∧ writing1.opWriting 7 = true ∧ 0 < copy1.total ∧ (∀ b ∈ copy1.chunk, b.1.isSome ∧ b.2.isSome) ∧ copied.1 = .ok ∧
    (copied.2.tryWrites (copyAgent 0 0) at0 (copyRuns.map (·.1))).1 = none ∧ copy1.waiting = none ∧ (withCopy copy1).copyRuns copy1 = true ∧
    ((copied.2.tryWrites (copyAgent 0 0) at0 (copyRuns.map (·.1))).2.writeRuns (copyAgent 0 0) at0 7
      ((src0.zip dst0).filterMap fun p => ((copied.2.eng.opData.get OpData.none 7).bad.find p.1).map (p.2, ·)) copyRuns).1 = none ∧ copy1.total ≤ 4096 * (copy1.prog + 1) ∧ copy1.comp = none := by decide +kernel
def comp0 : Completion := ⟨0x300, 5⟩
def copy2 : CopyOp := copy0 (some 0) 1 (some comp0)
theorem test_witness_copy_completion : (withCopy copy2).copyOp 7 = some copy2 ∧ copy2.comp = some comp0 ∧ copy2.total ≤ 4096 * copy2.prog ∧ copy2.waiting = none ∧
    (withCopy copy2).opWriting 7 = false ∧ copy2.word = true ∧ (withCopy copy2).copyRuns copy2 = true ∧ ((withCopy copy2).storeWord (copyAgent 0 0) at0 7 comp0).1 = .ok ∧
    ((withCopy copy2).storeWord (copyAgent 0 0) at0 7 comp0).2.opWriting 7 = false := by decide +kernel
/-- A communicator of one group of two ranks, and an ALLRED of one FP32 element on it. -/
def comm0 : Comm := ⟨1, 2, 0, [255, 0], false⟩
def coll0 (started : Bool) (added : Nat) (got : List (Nat × List Dword)) (prog : Nat) (w : Option Completion) : CollOp :=
  ⟨8, 0, 0, 0, tent 1 1 4 0x200, tent 1 1 4 0x240, 0x40, 0x80, 0, w, got, false, added, [], [], prog, started, w.isSome, none, at0⟩
def withColl (o : CollOp) : State := { sTile with eng := { sTile.eng with collOps := [o] }, ctxs := [(0, { placedCtx with comms := [(0, comm0)] })] }
def all4 : List (Nat × List Dword) := [(0, [0x3f800000]), (1, [0x3f800000]), (2, [0x40000000]), (3, [])]
def collDone : CollOp := coll0 true 2 all4 0 none
def collPart : List (Option Nat × Byte) := (collDone.bytes comm0).take 4096
def collRuns : List (Nat × List Byte) := runsOf (collPart.filterMap fun b => b.1.map (·, b.2))
theorem test_witness_collective_steps :
    ((withColl (coll0 false 0 [] 0 none)).collOp 8 = some (coll0 false 0 [] 0 none) ∧ (withColl (coll0 false 0 [] 0 none)).collTurn (coll0 false 0 [] 0 none) = true ∧
      (withColl (coll0 false 0 [] 0 none)).opAsked 8 = false ∧ (withColl (coll0 false 0 [] 0 none)).commOf (coll0 false 0 [] 0 none) = some comm0 ∧
      (coll0 false 0 [] 0 none).check (some comm0) = none ∧ ({ coll0 false 0 [] 0 none with es := 0 } : CollOp).check (some comm0) = some (.prot, 0x80)) ∧
    (comm0.lost = false ∧ collDone.differs = false ∧ (coll0 true 0 [] 0 none).got.find comm0.rank = none ∧ comm0.rank ∈ (coll0 true 0 [] 0 none).givers comm0) ∧
    ((collDone.got.find comm0.rank).isSome ∧ collDone.ready comm0 = true ∧ (∀ e ∈ collDone.got, e.2.length ≤ collDone.expects comm0 e.1) ∧
      4096 * collDone.prog < (collDone.bytes comm0).length ∧ (∀ b ∈ collPart, b.1.isSome) ∧
      ((withColl collDone).tryWrites (collAgent 0) at0 (collRuns.map (·.1))).1 = none ∧
      (((withColl collDone).tryWrites (collAgent 0) at0 (collRuns.map (·.1))).2.writeRuns (collAgent 0) at0 8
        (((withColl collDone).tryWrites (collAgent 0) at0 (collRuns.map (·.1))).2.eng.opData.get OpData.none 8).bad collRuns).1 = none) := by
  decide +kernel
def collAdd : CollOp := coll0 true 1 [(0, [0x3f800000]), (1, [0x3f800000])] 0 none
theorem test_witness_reduction : (withColl collAdd).collOp 8 = some collAdd ∧ (withColl collAdd).commOf collAdd = some comm0 ∧ collAdd.op = 0 ∧
    collAdd.added < comm0.n ∧ collAdd.got.find collAdd.added = some [0x3f800000] ∧ [(0x3f800000 : Dword)].length = collAdd.expects comm0 1 ∧
    collAdd.added + 1 = comm0.n := by decide +kernel
def collWord : CollOp := coll0 true 2 all4 1 (some comp0)
theorem test_witness_collective_completion : (withColl collWord).copyOp 8 = none ∧ (withColl collWord).collOp 8 = some collWord ∧ collWord.comp = some comp0 ∧
    collWord.ready comm0 = true ∧ (collWord.bytes comm0).length ≤ 4096 * collWord.prog ∧ (withColl collWord).opWriting 8 = false ∧ collWord.word = true ∧
    ((withColl collWord).storeWord (collAgent 0) at0 8 comp0).1 = .ok := by decide +kernel

/-! ### Drawing, waiting and admission -/

/-- The thread waits, filed at address 5, and no cohort is in flight. -/
def filed0 : Thread := { placedThread with place := .filed ⟨5, 0, 0, false, none, 0, 0⟩ }
def sFiled (clock : Nat) : State := { one with clock := clock, threads := one.threads.insert 2 filed0, cohorts := [] }
theorem test_witness_drawing : ((0 < 4 ∧ ∀ p < 4, p ≠ 0 → 16 ≤ 16) ∧ (sFiled 0).portLoad 0 0 < 16 ∧ (sFiled 0).cohorts.find (sFiled 0).nextId = none ∧
    ((sFiled 100).pickGroup 0).isSome = true) ∧ (((sFiled 100).groupsOn 0).all fun g => !g.overflow && !(sFiled 100).keyFull g.key && (sFiled 100).aged g) = true ∧
    (sFiled 100).groupsOn 0 ≠ [] := by decide +kernel
theorem test_witness_keys_known : ∀ g ∈ (sFiled 100).groupsOn 0, (sFiled 100).keyKnown g.key = true := by decide +kernel
/-- Sixteen cohorts on each port but the first. -/
def crowd : List (Nat × Cohort) := (List.range 48).map fun i => (100 + i, { coh0 with id := 100 + i, port := 1 + i / 16 })
theorem test_witness_ports : (∀ p < 4, p ≠ 0 → 16 ≤ ({ sFiled 100 with cohorts := crowd } : State).portLoad 0 p) ∧
    ({ sFiled 100 with cohorts := crowd } : State).portLoad 0 0 < 16 ∧ (({ sFiled 100 with cohorts := crowd } : State).pickGroup 0).isSome = true ∧
    (({ sFiled 100 with cohorts := crowd } : State).pickGroup 0).all (fun g => [1, 2, 3].all fun p => 16 ≤ (({ sFiled 100 with cohorts := crowd } : State).draw 0 0 g).portLoad 0 p) = true ∧
    ({ sFiled 100 with cohorts := crowd } : State).cohorts.find ({ sFiled 100 with cohorts := crowd } : State).nextId = none := by decide +kernel
/-- The word at address 5 is a TRC with F. -/
def sFull : State := { sFiled (2 ^ 20) with mem := one.mem.writeBytes 0x50 (bytesOf 16 0x20014130701) }
theorem test_witness_late_bins : (match (sFull.groupsOn 0).find? (fun g => sFull.keyFull g.key && !g.full && sFull.clock ≥ g.oldest + 2 ^ 20) with
    | some g => (sFull.groupTop g).isSome
    | none => false) = true := by decide +kernel
def cohBuf : Cohort := { rev0 with st := .buffer }
theorem test_witness_buffer : (at3 one cohBuf).cohorts.vals.filter (fun k => k.core == 0 && k.st == .buffer) = [cohBuf] ∧ (at3 one cohBuf).cohorts.find cohBuf.id = some cohBuf ∧
    (((at3 one cohBuf).cohorts.vals.filter fun k => k.core == 0).map (·.tb)).sum + 32 * cohBuf.budget ≤ 8192 ∧
    8192 < (((at3 one { cohBuf with tb := 8192 }).cohorts.vals.filter fun k => k.core == 0).map (·.tb)).sum + 32 * cohBuf.budget := by decide
/-- A cohort stalled since clock 0 at an instruction that pops conduit 2. -/
def cohStall (w : Nat) : Cohort := { coh0 with st := .conduit 0, code := some [(1, w)] }
def sStall (clock w : Nat) (c : Crew) : State :=
  { at3 one (cohStall w) with clock := clock, crews := one.crews.insert 1 c }
/-- MOV v1, q2 and MOV q2, v1. -/
def popWord : Nat := 0x02000000 * 2 ^ 64 + 0x20104739
def pushWord : Nat := 0x80000000 * 2 ^ 64 + 0x10204739
def crewFed : Crew := { placedCrew with conduits := placedCrew.conduits.set 2 ⟨4, [(7, 0)], false⟩ }
/-- Conduit 2 is full, and a probe of cohort 3 is on its way. -/
def crewFull (n : Nat) (reserve : Bool) : Crew := { placedCrew with conduits := placedCrew.conduits.set 2 ⟨4, List.replicate n (7, 0), reserve⟩, probe := some 3 }
def crewProbe : Crew := { placedCrew with probe := some 3 }
def unprobed (s : State) : State := s.modCrew 1 fun w => { w with probe := none }
theorem test_witness_conduits :
    ((sStall 0 popWord crewFed).cohorts.find 3 = some (cohStall popWord) ∧ (sStall 0 popWord crewFed).crews.find 1 = some crewFed ∧ (sStall 0 popWord crewFed).conduitReadyAt (cohStall popWord) = true) ∧
    ((sStall 512 popWord placedCrew).crews.find 1 = some placedCrew ∧ 0 + 512 ≤ (sStall 512 popWord placedCrew).clock ∧ placedCrew.probe = none ∧
      (sStall 512 popWord placedCrew).deadlocked 1 = true ∧ (sStall 512 popWord crewFed).deadlocked 1 = false) ∧
    ((unprobed (sStall 512 popWord { crewFed with probe := some 3 })).deadlocked 1 = false) ∧
    ((unprobed (sStall 512 pushWord (crewFull 4 false))).deadlocked 1 = true ∧ (unprobed (sStall 512 pushWord (crewFull 4 false))).stalls (crewFull 4 false) true = [(cohStall pushWord, 2)] ∧
      (crewFull 4 false).conduit 2 = some ⟨4, List.replicate 4 (7, 0), false⟩) ∧
    ((unprobed (sStall 512 pushWord (crewFull 36 true))).deadlocked 1 = true ∧ (unprobed (sStall 512 pushWord (crewFull 36 true))).stalls (crewFull 36 true) true = [(cohStall pushWord, 2)]) ∧
    ((unprobed (sStall 512 popWord crewProbe)).deadlocked 1 = true ∧ (unprobed (sStall 512 popWord crewProbe)).stalls crewProbe true = []) := by decide +kernel
def ended0 : Thread := { placedThread with place := .ended }
def running0 : Launch := { placedLaunch with phase := .running }
def sEnded (c : Crew) : State :=
  { one with threads := one.threads.insert 2 ended0, cohorts := [], crews := one.crews.insert 1 c, cmd := { one.cmd with launches := one.cmd.launches.insert 0 running0 } }
def crewDone : Crew := { placedCrew with decremented := true }
theorem test_witness_join : ((sEnded placedCrew).crews.find 1 = some placedCrew ∧ (sEnded placedCrew).launchOf placedCrew = some running0 ∧ placedCrew.decremented = false ∧
      ((sEnded placedCrew).unexited 1).isEmpty = true ∧ ((sEnded placedCrew).flushQuantum 0).crewStored 1 = true ∧ placedCrew.core.isSome = true) ∧
    ((sEnded crewDone).crews.find 1 = some crewDone ∧ ((sEnded crewDone).unexited 1).isEmpty = true ∧ ((sEnded crewDone).flushQuantum 0).crewStored 1 = true ∧
      (∀ o ∈ ((sEnded crewDone).flushQuantum 0).eng.tileOps, o.crew ≠ 1) ∧
      ∀ o ∈ ((sEnded crewDone).flushQuantum 0).eng.copyOps, o.at'.stream = none → o.at'.crew ≠ 1) := by decide +kernel
def crewTriggered : Crew := { placedCrew with triggered := true }
theorem test_witness_triggered : (sEnded crewTriggered).crews.find 1 = some crewTriggered ∧ crewTriggered.decremented = false ∧ crewTriggered.triggered = true ∧
    (sEnded crewTriggered).launchOf crewTriggered = some running0 := by decide +kernel
def rec0 (resumed : Option Nat) : Record := ⟨0, 0, 0, 0, 1, 1, resumed⟩
/-- No crew stands anywhere, and one record of the launch waits at die 0. -/
def sRecord (r : Record) : State :=
  { one with threads := [], cohorts := [], crews := [], pkg := { one.pkg with powered := true, status := 0x80000000 }, cmd := { one.cmd with launches := [(0, { placedLaunch with phase := .running, size := 1, regs := 8, tiles := 0 })], records := [r] } }
def savedCrew : Crew := { placedCrew with core := none, running := false }
theorem test_witness_admission : (sRecord (rec0 none)).pickRecord 0 = some (rec0 none) ∧ ((sRecord (rec0 none)).cmd.launches.find 0).isSome = true ∧
    ({ sRecord (rec0 (some 1)) with crews := [(1, savedCrew)] } : State).pickRecord 0 = some (rec0 (some 1)) := by decide +kernel
theorem test_witness_no_lower : (sRecord (rec0 none)).leftBelow 0 ((sRecord (rec0 none)).recOrd (rec0 none)) = none ∧
    ({ sRecord (rec0 (some 1)) with crews := [(1, savedCrew)] } : State).leftBelow 0
      (({ sRecord (rec0 (some 1)) with crews := [(1, savedCrew)] } : State).recOrd (rec0 (some 1))) = none := by decide +kernel
def recHigh : Record := ⟨0, 0, 0, 5, 1, 1, none⟩
def crewLeft : Crew := { placedCrew with running := false, stopping := some true }
def sLeft : State := { sRecord recHigh with crews := [(1, crewLeft)] }
theorem test_witness_left_below : sLeft.pickRecord 0 = some recHigh ∧ sLeft.leftBelow recHigh.slot (sLeft.recOrd recHigh) = some crewLeft := by decide +kernel
def rec2 : Record := ⟨1, 0, 0, 0, 2, 1, none⟩
def sSteal : State := { sRecord rec2 with cmd := { (sRecord rec2).cmd with master := false } }
theorem test_witness_steal : sSteal.cmd.master = false ∧ sSteal.canAdmit 0 = true ∧ (∀ q ∈ sSteal.recordsFor 0, sSteal.admits 0 q = false) ∧
    firstBy (fun (a b : Record) => sSteal.recBefore a b || (!sSteal.recBefore b a && a.die < b.die))
      (sSteal.cmd.records.filter fun r => r.die != 0 && r.resumed.isNone && r.count ≥ 2 && sSteal.mayTake 0 r) = some rec2 ∧ 0 ∈ (List.range 72).map (72 * 0 + ·) := by
  decide +kernel


/-! ### Jewel, services, fade, records and pre-emption -/

def rexec0 (bad : Bool) (d : Reg) (low : Bool) : Rexec := ⟨2, .fadd, { alu1 .f32 with d := d }, 1, 0x3f800000, bad, low⟩
def cohRexec (bad : Bool) (d : Reg) (low : Bool) : Cohort := { coh0 with rexec := [rexec0 bad d low] }
theorem test_witness_divergence : (one.threads.find lane0.tid = some placedThread ∧ rev0.irr = false ∧ placedThread.jewelUsed = false) ∧
    ({ one with threads := one.threads.insert 2 { placedThread with jewelUsed := true } } : State).threads.find lane0.tid = some { placedThread with jewelUsed := true } ∧
    (∀ bad, ∀ d ∈ [⟨.v, 8⟩, ⟨.q, 2⟩, ⟨.k, 8⟩], ∀ low, (at3 one (cohRexec bad d low)).cohorts.find 3 = some (cohRexec bad d low) ∧
      (cohRexec bad d low).laneOf 2 = some lane0) := by
  decide
def csr (sel : BitVec 32) : ImmI := { imm0 with a := ⟨.v, 2⟩, imm := sel }
/-- v2 holds 1, which win.0 and crew.timer allow; the bits of ctx.ptroot do not hold it, and err.inject is not granted. -/
def sCsr : State := withRegs one [(2, 1)]
theorem test_witness_system_registers : Issues sCsr coh0 ∧ sCsr.execLanes coh0 Pred.always = [lane0] ∧ Passes sCsr coh0 (.csrw (csr 4)) Pred.always ∧
    Passes sCsr coh0 (.ctxPtrootWrite (csr 8)) Pred.always ∧ Passes sCsr coh0 (.crewTimerWrite (csr 0x30)) Pred.always ∧
    Passes sCsr coh0 (.errInjectL2Single (csr 0xf0)) Pred.always ∧ sCsr.csrAllowed 0 4 1 = true ∧ sCsr.csrAllowed 0 0x30 1 = true ∧
    sCsr.csrAllowed 0 8 1 = false ∧ sCsr.csrAllowed 0 0xf0 1 = false := by decide
theorem test_witness_read_back : one.crews.find 1 = some placedCrew ∧ one.ctxs.find placedCrew.ctx = some placedCtx ∧
    Nat.land 0xffc0 (csrMask 2) = 0xffc0 ∧ Nat.land 0xffff (csrMask 7) = 0xffff := by decide
theorem test_witness_services : Issues one coh0 ∧ ConduitsReady one coh0 Pred.always [] (pushOf imm0.d true) ∧ Passes one coh0 (.yieldcrew imm0) Pred.always ∧
    one.execLanes coh0 Pred.always ≠ [] ∧ Passes one coh0 (.injectauth imm0) Pred.always ∧ one.ctxs.find (one.ctxOf coh0.crew) = some placedCtx ∧
    Passes one coh0 (.sleep { imm0 with imm := 5 }) Pred.always ∧ one.crews.find coh0.crew = some placedCrew ∧ (5 : BitVec 32) ≠ 0 ∧
    Passes one coh0 (.sleep imm0) Pred.always ∧ imm0.imm = 0 :=
  ⟨by decide, conduits_ready _, by decide, by decide, by decide, by decide, by decide, by decide, by decide, by decide, by decide⟩
def cohAsleep (n : Nat) : Cohort := { coh0 with st := .asleep n }
theorem test_witness_sleep : (at3 one (cohAsleep 0)).cohorts.find 3 = some (cohAsleep 0) ∧ (at3 one (cohAsleep 1)).cohorts.find 3 = some (cohAsleep 1) ∧
    one.crews.find 1 = some placedCrew ∧ 0 ≤ placedCrew.clk ∧ placedCrew.clk < 1 := by decide
/-- A context with an injection of a kind armedAt at address 0x100. -/
def armedAt (kind : Nat) : Ctx := { placedCtx with regs := { placedCtx.regs with errInject := BitVec.ofNat 64 (2 ^ 63 + kind * 2 ^ 56 + 0x100) } }
def sArmed (kind : Nat) : State := { one with ctxs := [(0, armedAt kind)] }
theorem test_witness_injections : ∀ k ∈ [1, 2, 3, 4], (sArmed k).ctxs.find 0 = some (armedAt k) ∧ (armedAt k).regs.errInject[63] = true ∧
    ((armedAt k).regs.errInject.extractLsb' 56 3).toNat = k := by decide
/-- A segment of the crew stamped one tick ago. -/
def seg0 : Seg := ⟨0xfff, false⟩
def sSeg (running : Bool) : State := { one with segs := [(segKey 1 3, seg0)], crews := [(1, { placedCrew with running := running })] }
theorem test_witness_garnet : ∀ b, (sSeg b).crews.find 1 = some { placedCrew with running := b } ∧ (sSeg b).segs.find (segKey 1 3) = some seg0 := by decide
theorem test_witness_garnet_dead : ∀ b, (sSeg b).foundLive 1 3 = false := by decide
def crewTimed : Crew := { placedCrew with timer := 0x8000000000000000 }
theorem test_witness_timer : ({ one with crews := [(1, crewTimed)] } : State).crews.find 1 = some crewTimed ∧ crewTimed.timer[63] = true ∧
    crewTimed.timer.toNat % 2 ^ 63 ≤ crewTimed.clk ∧ (({ one with crews := [(1, crewTimed)] } : State).unexited 1) = [placedThread] ∧
    one.threads.find 2 = some placedThread := by decide
def fault0 (term : Bool) : FaultRec := ⟨.page, !term, false, false, false, false, term, 0, 0x141, 2, 3, 4, 5, 6, 0x10000, 7, 8⟩
/-- The producer count is 64 ahead of the consumer count: the ring is full. -/
def sRing : State := { one with mem := one.mem.writeBytes (0x50000 + 64 * 64) (bytesOf 4 64) }
/-- The state once the words and the place of the next record are inspected. -/
def inspected (s : State) : State := (s.recordAt placedCtx).foldl (fun s a => s.inspect true (sectorsOf a (if a = placedCtx.words then 12 else 64))) s
theorem test_witness_fault_records : one.ctxs.find 0 = some placedCtx ∧ placedCtx.num = 0 ∧ placedCtx.alive = true ∧ (inspected one).ringFull placedCtx = false ∧
    (inspected one).ringDead placedCtx = false ∧ ({ one with pkg := { one.pkg with retireList := [placedCtx.words / 2 ^ 16] } } : State).ringDead placedCtx = true ∧
    one.crownReady (one.recordAt placedCtx) = true ∧ sRing.ctxs.find 0 = some placedCtx ∧ (inspected sRing).ringFull placedCtx = true ∧
    sRing.crownReady (sRing.recordAt placedCtx) = true ∧ ({ one with coh := { one.coh with bias := [(5, true)] } } : State).crownReady (one.recordAt placedCtx) = false ∧ (fault0 true).term = true ∧ (fault0 false).term = false := by decide
theorem test_witness_record_layout : (fault0 true).offset < 256 ∧ (fault0 true).lane < 256 ∧ (fault0 true).core < 65536 ∧ (fault0 true).cmd < 2 ^ 32 ∧
    (fault0 true).stream < 65536 := by decide
def ctxWaits : Ctx := { placedCtx with waiting := [fault0 false] }
def ctxOpen : Ctx := { placedCtx with records := [⟨0, 4, 1⟩] }
def watching (x : Ctx) : State := ({ one with ctxs := [(0, x)] } : State).watchWords x
/-- A request waits at the home of the words. -/
def sQueued : State := one.setUnit ((placedCtx.words + 4) / 32) { CohUnit.fresh with home := 1, held := [(proxyAgent 1, 1023)], req := some ⟨6, 1024, 2, 0, 0, false, 0, 0, false⟩ }
theorem test_witness_ring_writes : (({ one with ctxs := [(0, ctxWaits)] } : State).ctxs.find 0 = some ctxWaits ∧ (watching ctxWaits).ringFull ctxWaits = false ∧
      (watching ctxWaits).ringDead ctxWaits = false ∧ one.wordsWait ctxWaits = false ∧ one.crownReady (one.recordAt ctxWaits) = true ∧ one.crownReady [ctxWaits.words] = true) ∧
    (sQueued.wordsWait placedCtx = true ∧ sQueued.crownReady [placedCtx.words] = true) ∧
    ({ one with ctxs := [(0, ctxOpen)] } : State).ctxs.find 0 = some ctxOpen ∧
    ctxOpen.records.find? (·.seq == (watching ctxOpen).mem.readNat (ctxOpen.words + 8) 4) = some ⟨0, 4, 1⟩ := by decide +kernel
def park0 (why : ParkWhy) : Park := ⟨why, 0, 9, none, false, 2, 0x141, ⟨5, 0, 0, false, none, 0, 0⟩⟩
def parked0 (why : ParkWhy) : Thread := { placedThread with place := .parked (park0 why) }
def sParked (why : ParkWhy) : State := { one with threads := [(2, parked0 why)], cohorts := [] }
theorem test_witness_parked : ∀ w ∈ [ParkWhy.page, .room], (sParked w).threads.vals.filter (fun t => t.id == 2) = [parked0 w] ∧
    (sParked w).threads.find 2 = some (parked0 w) ∧ (park0 w).core = 0 ∧ (sParked w).crews.find 1 = some placedCrew ∧ placedCrew.core.isSome = true ∧
    (parked0 w).timerPend = false ∧ (sParked w).logRoom 0 ≠ 0 := by decide
/-- A store of 7 to address 0x200, logged at core 0. -/
def logged0 : SideEntry := ⟨0, ⟨0, 1, 2, 0x141, 2, 0x200, [7, 0, 0, 0], .store, .plain, .crew, .sync⟩, none, false⟩
def sLog : State := { one with eng := { one.eng with sideLog := [logged0] } }
def logWalk : Tr × State := sLog.translate (tcAgent 0) 0 (sLog.regsOf 0).ptroot (sLog.privOf 0) 0x200 .write none
def logPte : Dword := match logWalk.1 with
  | .ok _ p _ _ => p
  | _ => 0
def logUnits : List Nat := match logWalk.1 with
  | .ok _ _ _ u => u
  | _ => []
theorem test_witness_side_log : sLog.eng.sideLog = [logged0] ∧ logWalk.1 = .ok 0x200 logPte 3 logUnits ∧ (match logWalk.2.reachOf logWalk.1 with | .go k p _ => k == 0x200 && p == logPte | _ => false) = true ∧
    logWalk.2.stalled 2 0x200 4 = false ∧ logWalk.2.remoteKey 0x200 = false ∧ (logWalk.2.mergeCheck 0x200 4).1 = none ∧
    ((logWalk.2.mergeCheck 0x200 4).2.doEff 0 logged0.eff 0x200 (pteWatch logPte)).eng.sideLog = [logged0] := by decide +kernel
/-- The page at 0x10000 has a leaf of its own with the cow bit, in a table at 0x48000. -/
def cowLeaf : Leaf := ⟨0x10000, 5, 0x48008, 0x1021f⟩
def shielded0 : Launch := { placedLaunch with shielded := true }
/-- The pool is the page at 0x80000, and pages of it are in use. -/
def ctxCow (gone : List Nat) : Ctx := { placedCtx with snapDesc := bytesOf 64 (0x80000 + 2 ^ 128), poolGone := gone }
def sCow (gone : List Nat) : State :=
  { one with mem := ((one.mem.writeBytes 0x44000 (bytesOf 8 0x46001)).writeBytes 0x46000 (bytesOf 8 0x48001)).writeBytes 0x48008 (bytesOf 8 0x1021f)
             ctxs := [(0, ctxCow gone)], cmd := { one.cmd with launches := [(0, shielded0)] } }
def cowOf (s : State) : Option Leaf := (s.leaves 0).find? fun l => l.va == 1 * 2 ^ 16 && l.level == 5 && bits l.pte 9 1 == 1
theorem test_witness_copy_on_write :
    ((sCow []).ctxs.find 0 = some (ctxCow []) ∧ cowOf (sCow []) = some cowLeaf ∧ (sCow []).needCopy 0 1 = [shielded0] ∧ (sCow []).poolFree (ctxCow []) = [0x80000] ∧
      (sCow []).crownReady ((sCow []).tablesOf 0) = true ∧ (sCow []).crownReady [cowLeaf.pa, 0x80000] = true ∧
      ({ sCow [] with coh := { one.coh with bias := [(4, true)] } } : State).crownReady ((sCow []).tablesOf 0) = false) ∧
    ((sCow [0x80000]).ctxs.find 0 = some (ctxCow [0x80000]) ∧ cowOf (sCow [0x80000]) = some cowLeaf ∧ (sCow [0x80000]).needCopy 0 1 = [shielded0] ∧
      (sCow [0x80000]).poolFree (ctxCow [0x80000]) = [] ∧ (sCow [0x80000]).crownReady ((sCow [0x80000]).tablesOf 0) = true ∧ (sCow [0x80000]).crownReady [cowLeaf.pa] = true ∧
      (sCow [0x80000]).undecided cowLeaf.pa 65536 = false) ∧
    (({ sCow [] with cmd := { one.cmd with launches := [] } } : State).needCopy 0 1 = []) := by decide +kernel
/-- The state in which the crew has been stopped, and its lanes saved. -/
def stopped (s : State) (w : Crew) (resident : Bool) : State :=
  let u := (s.setCrew { w with running := false, stopping := some resident, probe := none }).restart fun o => o.crew == w.id && o.product
  let v := (u.cohortsOf w.id).foldl (fun s c => if c.waits.isEmpty && c.rexec.isEmpty then s.stopLanes c w.clk else s) u
  if (v.cohortsOf w.id).isEmpty then v.flushQuantum 0 else v
def ctxSaves : Ctx := { placedCtx with saveSize := 2 ^ 40 }
def crewStopping : Crew := { placedCrew with stopping := some false }
def sStopping : State := { one with crews := [(1, crewStopping)] }
theorem test_witness_preemption : (one.crews.find 1 = some placedCrew ∧ placedCrew.core = some 0 ∧ (stopped one placedCrew true).drained 1 = true) ∧
    (sStopping.crews.find 1 = some crewStopping ∧ crewStopping.stopping ≠ none ∧ (stopped sStopping crewStopping false).drained 1 = true ∧
      ((stopped sStopping crewStopping false).crews.find 1).isSome = true) ∧
    ((stopped (at3 one { coh0 with waits := [7] }) placedCrew true).drained 1 = false ∧ (at3 one { coh0 with waits := [7] }).crews.find 1 = some placedCrew) ∧
    (stopped (at3 one (cohRexec false ⟨.v, 8⟩ false)) placedCrew true).drained 1 = false := by
  decide +kernel
/-- The crew of one thread is saved, and waits for die 0. -/
def sSaved : State := { sRecord (rec0 (some 1)) with crews := [(1, savedCrew)], threads := [(2, filed0)] }
theorem test_witness_restore : sSaved.crews.find 1 = some savedCrew ∧ sSaved.cmd.records.find? (·.resumed == some 1) = some (rec0 (some 1)) ∧ savedCrew.core = none ∧
    sSaved.admits 0 (rec0 (some 1)) = true ∧ ((sSaved.threadsOf 1).map (·.id)).Nodup ∧ (∀ th ∈ sSaved.threadsOf 1, sSaved.threads.find th.id = some th) ∧
    sSaved.threadsOf 1 = [filed0] ∧ sSaved.eng.sideLog = [] := by decide +kernel
theorem test_witness_no_save_area : (({ one with ctxs := [(0, placedCtx)] } : State).ctxs.find placedCrew.ctx).map (·.saveSize) = some 0 ∧
    0 < ({ one with ctxs := [(0, placedCtx)] } : State).savedBytes 0 + ({ one with ctxs := [(0, placedCtx)] } : State).saveSize placedCrew :=
  ⟨by decide, Nat.succ_pos _⟩
theorem test_witness_save_area : ∃ s : State, s.crews.find 1 = some placedCrew ∧ placedCrew.core = some 0 ∧ placedCrew.stopping = none ∧
    s.savedBytes 0 + s.saveSize placedCrew ≤ ((s.ctxs.find 0).map (·.saveSize)).getD 0 :=
  ⟨{ one with ctxs := [(0, { placedCtx with saveSize := one.savedBytes 0 + one.saveSize placedCrew })] }, by decide, by decide, by decide, Nat.le_refl _⟩
theorem test_witness_saved_crew : one.crews.find placedCrew.id = some placedCrew ∧ (one.flushDies fun d => d.die == dieOf 0) = one ∧
    one.pkg.frozen.find (clusterOf 0) = none ∧ ({ one with pkg := { one.pkg with frozen := [(0, 1)] } } : State).pkg.frozen.find (clusterOf 0) ≠ none :=
  ⟨by decide, rfl, by decide, by decide⟩
/-- The crew of crew-ID 0 is saved; crews of higher crew-IDs hold every tile of cores 0 to 7, the ones the launch may use. -/
def crewHigh (i : Nat) : Crew := { placedCrew with id := 4 + i, core := some i, crewId := BitVec.ofNat 64 (1 + i), ordinal := 1 + i }
def highCrews : List Crew := (List.range 8).map crewHigh
def launchMask : Launch := { placedLaunch with mask := 1 }
def sRescue : State :=
  { sSaved with crews := (1, savedCrew) :: highCrews.map (fun k => (k.id, k)), cmd := { sSaved.cmd with launches := [(0, launchMask)] } }
theorem test_witness_rescue : sRescue.crews.find 1 = some savedCrew ∧ sRescue.launchOf savedCrew = some launchMask ∧ savedCrew.core = none ∧
    sRescue.anyRoom launchMask 1 = false ∧ (sRescue.crews.vals.filter fun k => k.launch == 0) = savedCrew :: highCrews ∧
    sRescue.cmd.records = [rec0 (some 1)] ∧
    firstBy (fun (a b : Crew) => a.crewId.toNat > b.crewId.toNat) ((savedCrew :: highCrews).filter fun k => k.core.any fun n =>
      sRescue.serves n launchMask) = some (crewHigh 7) := by decide +kernel

/-! ### Coherence, the Crown, the host, peers and power -/

/-- A commit holds the bytes of unit 16. -/
def sHeldBy : State := at3 one { coh0 with lanes := [{ lane0 with past := true, resv := [⟨16 * 32, 4, false⟩] }] }
def sRead : State := one.readIdle (16 * 32) 32
theorem test_witness_read_request : one.writeComes 16 = false ∧ one.viaHost (32 * 16) = false ∧ sRead.unitBarred 16 = false ∧ sRead.late [16] = false ∧
    (sRead.unit 16).req = none ∧ (sRead.unit 16).queue = [] ∧
    (∀ k ∈ 16 :: sRead.unitSecs 16, (sRead.unit k).pers = [] ∧ (sRead.unit k).held.get 0 0 = 0 ∧ (sRead.unit k).held.get 0 (tcAgent 0) = 0 ∧
      1 < (sRead.unit k).home) ∧ translates 0 = false ∧ translates (tcAgent 0) = true := by decide +kernel
/-- In host bias the host is asked; a proxy has a token to spare. -/
def sBiased : State := { one with coh := { one.coh with bias := [(8, true)] } }
def unitSpare : CohUnit := { CohUnit.fresh with home := 1000, held := [(proxyAgent 1, 24)] }
theorem test_witness_read_elsewhere : (sBiased.writeComes 0x4000 = false ∧ sBiased.viaHost (32 * 0x4000) = true ∧ sBiased.unitBarred 0x4000 = false ∧
      sBiased.late [0x4000] = false ∧ (sBiased.unit 0x4000).held.get 0 0 = 0 ∧ sBiased.coh.hostHeld.find 0x4000 = none) ∧
    0 < unitSpare.spare 16 80 ∧ proxyFor 16 80 = some (proxyAgent 1) := by decide +kernel
def unit0 : CohUnit := CohUnit.fresh
/-- A core's data cache holds all but one of the tokens of unit 16. -/
def sHeld : State := one.setUnit 16 { unit0 with home := 1, held := [(5, 1023)], filter := .pointers [5] }
def all0 : TokReq := ⟨proxyAgent 0, 1024, 0, 0, 0, false, 0, 0, false⟩
def sFar : State := one.setUnit 16 { unit0 with home := 1, held := [(proxyAgent 1, 1023)], filter := .pointers [proxyAgent 1] }
theorem test_witness_write_requests : (∀ s ∈ [one, sFar], s.unitBarred 16 = false ∧ s.late [16] = false ∧ s.viaHost (32 * 16) = false ∧
      (s.unit 16).req = none ∧ (s.unit 16).queue = [] ∧ (s.unit 16).pers = []) ∧
    one.meets 16 all0 = true ∧ sFar.meets 16 all0 = false ∧ one.meets 16 { all0 with need := needDie } = true ∧
    ((one.grantReq 16 all0).unit 16).queue = [] ∧ sHeldBy.unitBarred 16 = true := by
  decide +kernel
def add0 : AtomReq := ⟨0x200, 4, 0, .add, false, [1, 2], 0, false, 0, 0x200⟩
def sRetired : State := { one with pkg := { one.pkg with retireList := [0] } }
def sHarmed : State := { one with coh := { one.coh with checks := [(16, checkValue (one.mem.readBytes 0x200 32) ^^^ 1)] } }
theorem test_witness_atomic_message : one.pkg.retireList = [] ∧ one.stalled 0 add0.addr add0.size = false ∧
    sRetired.pkg.retireList.contains (add0.addr / 2 ^ 16) = true ∧ ({ one with coh := { one.coh with flips := [⟨0, true, [], none⟩] } } : State).stalled 0 0x200 4 = true ∧
    (sHarmed.stalled 0 0x200 4 = false ∧ (sHarmed.mergeCheck 0x200 4).1 = some (16, .check)) ∧
    (one.mergeCheck add0.addr add0.size).1 = none ∧ add0.cls ≠ 3 ∧ ({ add0 with cls := 3 } : AtomReq).half = false := by decide +kernel
theorem test_witness_probes : ((sHeldBy.unitSecs 16).any fun k => sHeldBy.heldBy 0 (32 * k) 32) = true ∧ ((one.unitSecs 16).any fun k => one.heldBy 0 (32 * k) 32) = false ∧ one.late [16] = false ∧ one.answersFor 16 5 = [] ∧
    (sHeld.late [16] = false ∧ (sHeld.complete [16]).coh.dieWrites = [] ∧ ((sHeld.unitSecs 16).any fun k => sHeld.heldBy 0 (32 * k) 32) = false ∧ sHeld.answersFor 16 5 = [(5, 1023)] ∧ (sHeld.complete [16]).answersFor 16 5 = [(5, 1023)] ∧ 0 < 1023 ∧
      ((sHeld.complete [16]).unit 16).held.find 5 = some 1023 ∧ (sHeld.unit 16).owner ≠ some 5 ∧ ((sHeld.complete [16]).unit 16).owner ≠ some 5 ∧
      translates 5 = false) := by decide +kernel
def asks (got exp fails since : Nat) : TokReq := ⟨6, 1, exp, got, 0, false, fails, since, false⟩
/-- Three tokens are under way, and a request may wait at the home. -/
def sFlight (r : Option TokReq) : State := one.setUnit 16 { unit0 with home := 1021, flight := [(3, false)], req := r, filter := .pointers [5] }
def sProxy : State := one.setUnit 16 { unit0 with home := 1021, held := [(proxyAgent 1, 3)], owner := some (proxyAgent 1), filter := .pointers [proxyAgent 1] }
/-- The state in which an eviction of an agent that translates nothing leaves; and one whose eviction is under way. -/
def evicting (s : State) (source : Nat) : State := s.flushDies fun d => proxyAgent d.die == source && sectorOf d.pa == 16
def sOnItsWay (r : Option TokReq) : State := one.setUnit 16 { unit0 with home := 1021, evicts := [(5, 3, false)], req := r }
theorem test_witness_replies : ((3, false) ∈ ((sFlight none).unit 16).flight ∧ ((sFlight none).unit 16).req = none) ∧
    ((3, false) ∈ ((sFlight (some (asks 0 2 0 0))).unit 16).flight ∧ ((sFlight (some (asks 0 2 0 0))).unit 16).req = some (asks 0 2 0 0) ∧
      (asks 0 2 0 0).got + 1 < (asks 0 2 0 0).expected ∧ ((sFlight (some (asks 0 2 0 0))).unit 16).filter = .pointers [5]) ∧
    (∀ s ∈ [(sHeld, 5, 1023), (sProxy, proxyAgent 1, 3)], (s.1.unit 16).evicts.find? (·.1 == s.2.1) = none ∧ (s.1.unit 16).held.get 0 s.2.1 ≠ 0 ∧
      translates s.2.1 = false ∧ s.1.awaited s.2.1 16 = false ∧ ((evicting s.1 s.2.1).unit 16).held.find s.2.1 = some s.2.2) ∧
    ((sHeld.unit 16).owner ≠ some 5 ∧ ((evicting sProxy (proxyAgent 1)).unit 16).owner = some (proxyAgent 1)) ∧
    (∀ r ∈ [none, some (asks 0 2 0 0)], ((sOnItsWay r).unit 16).evicts.find? (·.1 == 5) = some (5, 3, false) ∧ ((sOnItsWay r).unit 16).req = r ∧
      (asks 0 2 0 0).got < (asks 0 2 0 0).expected) := by decide +kernel
def sPers (l : List Nat) : State := one.setUnit 16 { unit0 with pers := l }
def sLate (home got fails : Nat) : State :=
  { one with clock := 4096 }.setUnit 16 { unit0 with home := home, held := [(5, 1024 - home)], req := some (asks got 2 fails 0) }
theorem persTable_of_one (s : State) (u : CohUnit) (h : s.coh.units = [(16, u)]) : s.persTable 16 = u.pers.length := by simp [State.persTable, h]
theorem retryQueue_of_empty (s : State) (h : (s.unit 16).queue = []) : s.retryQueue 16 = s.setUnit 16 { s.unit 16 with queue := [] } := by
  simp [State.retryQueue, State.postAll, h]
theorem test_witness_persistent : (6 ∉ (one.unit 16).pers ∧ one.persTable 16 < 32 ∧ (one.unit 16).pers = []) ∧
    (6 ∉ ((sPers [5, 7]).unit 16).pers ∧ (sPers [5, 7]).persTable 16 < 32 ∧ ((sPers [5, 7]).unit 16).pers ≠ []) ∧
    (600 ∉ ((sPers (List.range 32)).unit 16).pers ∧ 32 ≤ (sPers (List.range 32)).persTable 16) ∧ 6 ∈ ((sPers [6, 7]).unit 16).pers ∧
    ((((sLate 1 2 0).ageQueue 16).unit 16).req = some (asks 2 2 0 0) ∧ (asks 2 2 0 0).since + 2048 ≤ 4096 ∧ (asks 2 2 0 0).fails < 2 ∧ (asks 2 2 0 0).persistent = false ∧
      ((sLate 1 2 0).ageQueue 16).meets 16 (asks 2 2 0 0) = true) ∧
    ((((sLate 1 0 0).ageQueue 16).unit 16).req = some (asks 0 2 0 0) ∧ (asks 0 2 0 0).got < (asks 0 2 0 0).expected) ∧
    ((((sLate 0 0 2).retryQueue 16).unit 16).req = some (asks 0 2 2 0) ∧ 2 ≤ (asks 0 2 2 0).fails ∧ (asks 0 2 2 0).since + 64 ≤ (sLate 0 0 2).clock ∧
      (asks 0 2 2 0).persistent = false ∧ ((sLate 0 0 2).retryQueue 16).persTable 16 < 32) := by
  rw [retryQueue_of_empty (sLate 0 0 2) (by decide)]
  refine ⟨⟨by decide, by decide, by decide⟩, ⟨by decide, ?_, by decide⟩, ⟨by decide, ?_⟩, by decide, by decide, by decide, by decide, by decide, by decide, by decide, ?_⟩
  · rw [persTable_of_one _ { unit0 with pers := [5, 7] } (by decide)]; decide
  · rw [persTable_of_one _ { unit0 with pers := List.range 32 } (by decide)]; decide
  · rw [persTable_of_one _ { unit0 with home := 0, held := [(5, 1024)], req := some (asks 0 2 2 0) } (by decide)]; decide
def rep0 (owner : Option Nat) : Report := ⟨0x1000, .l2, .poison, none, owner.getD 0, owner.isSome, false, false, some 0, 2, fault0 false⟩
def sReport (r : Report) : State := { one with pkg := { one.pkg with reports := [r], frozen := [(0, 1)] } }
/-- A protected launch whose snapshot holds a copy of the page at 0x20000. -/
def launchSnap : Launch := { placedLaunch with shielded := true, snapList := [(1, 0x20000, 0x80000)] }
def sReplay : State := { sReport (rep0 (some 0)) with cmd := { one.cmd with launches := [(0, launchSnap)] } }
def undecided (s : State) (r : Report) : State := s.modPkg fun p => { p with reports := p.reports.filter (·.sector != r.sector) }
/-- A report of another sector has come before. -/
def sLater : State := { sReport (rep0 none) with pkg := { one.pkg with reports := [{ rep0 none with sector := 7 }, rep0 none] } }
theorem test_witness_decisions : (rep0 none ∈ (sReport (rep0 none)).pkg.reports ∧ (undecided (sReport (rep0 none)) (rep0 none)).ownerOf (rep0 none) = none) ∧
    (rep0 (some 0) ∈ sReplay.pkg.reports ∧ (undecided sReplay (rep0 (some 0))).ownerOf (rep0 (some 0)) = some placedCtx ∧ 0x1000 * 32 < hbmEnd ∧
      (undecided sReplay (rep0 (some 0))).replayable 0 (0x1000 * 32 / 2 ^ 16) = some launchSnap) ∧
    ((undecided (sReport (rep0 (some 0))) (rep0 (some 0))).ownerOf (rep0 (some 0)) = some placedCtx ∧
      (undecided (sReport (rep0 (some 0))) (rep0 (some 0))).replayable 0 (0x1000 * 32 / 2 ^ 16) = none) ∧
    (∀ s ∈ [sReport (rep0 none), sReport (rep0 (some 0))], s.decideReady (s.decideAt (rep0 (some 0))) = true ∧ s.decideReady (s.decideAt (rep0 none)) = true) ∧
    sReplay.decideReady (sReplay.decideAt (rep0 (some 0))) = true ∧ sReplay.pkg.reports.head? = some (rep0 (some 0)) ∧
    ({ sReplay with coh := { sReplay.coh with bias := [(8, true)] } } : State).decideReady (sReplay.decideAt (rep0 (some 0))) = false ∧
    rep0 none ∈ sLater.pkg.reports ∧ sLater.pkg.reports.head? = some { rep0 none with sector := 7 } ∧ sLater.decideReady (sLater.decideAt (rep0 none)) = true := by
  decide +kernel
theorem test_witness_lost_die : 3 < 4 ∧ one.pkg.deadDies.contains 3 = false := by decide
def waiting0 (peer : Bool) (dest : RemoteTo) (eff : Option MemEff) : Remote := ⟨peer, eff, hostKey + 64, 32, [], dest, 3, 2, 0, false, false, none⟩
def sRemote (r : Remote) : State := { at3 one { coh0 with waits := [7] } with coh := { one.coh with remote := [(7, r)] } }
def dests : List RemoteTo := [.fill, .write, .op 9 0x300, .regs [(2, 0x40)] 8 .b32]
def bytes64 : List Byte := List.replicate 64 7
theorem test_witness_answers : hbmEnd ≤ (waiting0 false .fill none).pa ∧ (waiting0 false .fill none).pa % 32 = 0 ∧ bytes64.length = 64 ∧
    (∀ peer, ∀ d ∈ dests, (sRemote (waiting0 peer d none)).coh.remote.find 7 = some (waiting0 peer d none) ∧
      (sRemote (waiting0 peer d none)).stalled 2 (hostKey + 64) 32 = false ∧ (sRemote (waiting0 peer d none)).behind 7 (waiting0 peer d none) = false) ∧
    (sRemote (waiting0 false .fill none)).viaHost (hostKey + 64) = true ∧
    ((sRemote (waiting0 false (.regs [(2, 0x40)] 8 .b32) none)).cohorts.find 3 = some { coh0 with waits := [7] } ∧ coh0.irr = true ∧
      (coh0.laneOf 2).isSome = true ∧ ([(2, 0x40)].map (·.1)).Nodup ∧ 8 + (loadedWords .b32 []).length ≤ 256) := by decide +kernel
def sReady : State := { one with pkg := { one.pkg with powered := true, status := 0x80000000 } }
def sSnoop : State := { one with coh := { one.coh with hostHeld := [(hostKey / 32, List.replicate 32 7)], hostDirty := [hostKey / 32] } }
theorem test_witness_host_accesses : (∀ line ∈ [0, 2 ^ 46 + 8], one.late (sectorsOf (snoopKey line) 64) = false ∧
      one.translators ((sectorsOf (snoopKey line) 64).flatMap one.unitSecs) = []) ∧ sSnoop.late (sectorsOf (snoopKey 0) 64) = false ∧
    one.coh.tlb = [] ∧ one.coh.lastPage = [] ∧ one.ready = false ∧ sReady.ready = true ∧ sReady.pkg.asleep = false ∧ sReady.flipping 0x200 = false ∧
    sReady.stalled 0 0x200 2 = false ∧ sReady.readStalled hostAgent 0 0x200 2 = false ∧ sHeldBy.stalled 0 0x200 2 = true ∧
    sHeldBy.readStalled hostAgent 0 0x200 2 = true ∧ 0x200 + [7, 8].length ≤ hbmEnd ∧ sReady.pkg.retireList.contains (0x200 / 2 ^ 16) = false ∧
    (((sectorsOf 0x200 2).foldl State.dropHost sReady).mergeCheck 0x200 2).1 = none := by decide +kernel
def flip0 (n : Nat) : Flip := ⟨4, false, (List.range n).map (4096 + ·), none⟩
def sFlip (n : Nat) : State := { one with coh := { one.coh with flips := [flip0 n] } }
theorem test_witness_flips : one.coh.flips.find? (·.page == 4) = none ∧ one.flipWaits 0 = false ∧ sHeldBy.flipWaits 0 = true ∧ ((sFlip 1).coh.flips.find? (fun f => f.page == 5000 / 1024 && !f.toHost) = some (flip0 1) ∧
      5000 ∉ (flip0 1).lines ∧ (flip0 1).lines.length < 1023) ∧
    ((sFlip 1023).coh.flips.find? (fun f => f.page == 5119 / 1024 && !f.toHost) = some (flip0 1023) ∧ 5119 ∉ (flip0 1023).lines ∧ ¬(flip0 1023).lines.length < 1023) := by
  decide +kernel
def port0 (fails : Nat) : Port := ⟨true, 5, fails, 0, [], []⟩
def sPort (fails : Nat) : State := { one with pkg := { one.pkg with ports := one.pkg.ports.set 2 (port0 fails), peers := [(6, ⟨2, 0, false⟩)] } }
theorem test_witness_tilpen : (sPort 0).pkg.ports[2]? = some (port0 0) ∧ (sPort 63).pkg.ports[2]? = some (port0 63) ∧ (port0 0).up = true ∧
    (port0 0).fails + 1 < 64 ∧ 64 ≤ (port0 63).fails + 1 ∧ (sPort 0).pkg.peers.find 6 = some ⟨2, 0, false⟩ ∧
    (sPort 0).bodyWaits (.request true 0x200 [1] 0) = false ∧ sHeldBy.bodyWaits (.request true 0x200 [1] 0) = true ∧ (⟨5, 0, true, .idle⟩ : Flit).seq = (port0 0).seq ∧
    flitPayload (.request true 0x200 [1] 0) ≤ 240 ∧ (⟨6, 0, true, .idle⟩ : Flit).seq ≠ (port0 0).seq := by decide
/-- Every core has been idle since clock 0, in a power state, with every tolerance at its largest. -/
def sIdle (power : Nat) : State :=
  { sReady with clock := 2 ^ 20, cohorts := [], crews := [], threads := [], cores := List.replicate 288 ⟨0, 3600, 0, 2 ^ 20, power, 0⟩
                pkg := { sReady.pkg with tolCluster := List.replicate 36 0xffffffff, tolDie := List.replicate 4 0xffffffff, tolPackage := 0xffffffff, sleepReq := true, diePower := List.replicate 4 1 } }
theorem test_witness_core_sleep : ((sIdle 0).core 287).power = 0 ∧ 1024 ≤ ((sIdle 0).core 287).idle ∧ (sIdle 0).quiet 287 = true ∧
    40 ≤ ((sIdle 0).pkg.tolCluster.getD (clusterOf 287) 0).toNat := by decide +kernel
theorem test_witness_cluster_sleep : (sIdle 1).mayC2 35 = true := by decide +kernel
theorem test_witness_die_sleep : (∀ i < 72, ((sIdle 2).core (72 * 3 + i)).power = 2) ∧ 5000 ≤ ((sIdle 2).pkg.tolDie.getD 3 0).toNat ∧
    (sIdle 2).eng.copyOps = [] ∧ (sIdle 2).coh.units = [] := by decide +kernel
theorem test_witness_package_sleep : (∀ d < 4, d ∈ (sIdle 2).pkg.deadDies ∨ (sIdle 2).pkg.diePower.getD d 0 = 1) ∧ (sIdle 2).eng.collOps = [] ∧
    (sIdle 2).eng.tileOps = [] ∧ (sIdle 2).readyStreams = [] ∧ (sIdle 2).pkg.sleepReq = true ∧ (sIdle 2).pkg.tolPackage = 0xffffffff ∧
    (sIdle 2).pkg.asleep = false := by decide +kernel
theorem test_witness_heat : 99999 < 100000 ∧ 0 + powerMargin < 3200 ∧ 100000 ≤ 100000 ∧ 115000 ≤ 115000 :=
  ⟨by decide, by rw [Nat.zero_add]; exact Nat.mod_lt _ (by decide), Nat.le_refl _, Nat.le_refl _⟩
def sStep (n : Nat) : State := { State.reset with pkg := { State.reset.pkg with status := BitVec.ofNat 32 n } }
theorem test_witness_bring_up : ∀ n ∈ [0, 1, 2, 3, 4, 5, 6], (sStep n).pkg.powered = true ∧ (sStep n).ready = false ∧ (sStep n).pkg.status[30] = false ∧
    (sStep n).pkg.status.toNat % 16 = n := by decide +kernel
theorem test_witness_wake : 0 < (sIdle 2).cores.length ∧ ((sIdle 2).core 0).power ≠ 0 := by decide +kernel

/-! ### Streams, launches, the mailbox and the whole machine -/

/-- Bytes put together from fields: offset and value. -/
def bytesAt (l : List (Nat × Nat)) : Nat := (l.map fun f => f.2 * 2 ^ (8 * f.1)).sum
/-- WAITMEM of the word at 0x300 with a flag byte; WRITEMEM of 7 there; FENCE; COPY and COLL of entries 1 and 2; BIAS of the page at 0x40000. -/
def waitWord (flags : Nat) : Nat := bytesAt [(0, 4), (4, flags), (0x10, 0x300), (0x20, 0xff), (0x28, 0)]
def writeWord : Nat := bytesAt [(0, 5), (0x10, 0x300), (0x28, 7)]
def fenceWord : Nat := 6
def copyWord : Nat := bytesAt [(0, 2), (8, 1), (0xa, 2)]
def collWord0 : Nat := bytesAt [(0, 3), (8, 1), (0xa, 2)]
def biasWord : Nat := bytesAt [(0, 7), (4, 1), (0x10, 0x40000), (0x20, 1)]
def launchWord : Nat := bytesAt [(0, 1), (0x10, 0xb000)]
/-- The state once stream 0 has read its first command. -/
def ran (w : Nat) : State := ((sStream w).readCmd sd0 0 0).2
def runs (s : State) (w : Nat) : Bool :=
  s.streamDesc 0 == some sd0 && (s.stream 0).cmd == some 0 && s.served 0 && !(s.stream 0).done && (s.readCmd sd0 0 0).1 == .val w
theorem test_witness_commands_run : ∀ w ∈ [waitWord 0, writeWord, fenceWord, copyWord, collWord0, biasWord, launchWord], runs (sStream w) w = true ∧ malformed w = none := by
  decide +kernel
def watchedAt (s : State) (va : Nat) : State := let p := s.cpWatch 0 va; p.2.modStream 0 fun t => { t with started := true, watch := p.1 }
theorem test_witness_opcodes : [waitWord 0, waitWord 1, writeWord, fenceWord, copyWord, collWord0, biasWord, launchWord].map (field · 0 1) = [4, 4, 5, 6, 2, 3, 7, 1] := by decide
theorem test_witness_waitmem : (((watchedAt (ran (waitWord 0)) 0x300).cpRead 0 0 0 0x300 4).1 = .val 0 ∧ waitmemHolds (waitWord 0) 0 = true) ∧
    (runs (sStream (waitWord 1)) (waitWord 1) = true ∧ ((watchedAt (ran (waitWord 1)) 0x300).cpRead 0 0 0 0x300 4).1 = .val 0 ∧ waitmemHolds (waitWord 1) 0 = false) := by decide +kernel
def wrote : Got × State := (ran writeWord).cpWrite 0 0 0 0x300 (bytesOf 4 7)
theorem test_witness_writemem : ((ran writeWord).stream 0).started = false ∧ wrote.1 = .val 0 ∧
    (wrote.2.modStream 0 fun t => { t with started := true }).opWriting (cpId 0) = false := by decide +kernel
def sFence : State := { sStream fenceWord with cmd := { (sStream fenceWord).cmd with launches := [] } }
theorem test_witness_fence : runs sFence fenceWord = true ∧ (sFence.readCmd sd0 0 0).2.cmd.launches.vals = [] ∧ (sFence.readCmd sd0 0 0).2.coh.remote.vals = [] := by
  decide +kernel
def entry1 (w : Nat) : Got × State := (ran w).cpRead 0 0 0 0x40 64
def entry2 (w : Nat) : Got × State := (entry1 w).2.cpRead 0 0 0 0x80 64
theorem test_witness_engine_commands : ∀ w ∈ [copyWord, collWord0], ((ran w).stream 0).started = false ∧ entryVa ((ran w).regsOf 0) 1 = some 0x40 ∧
    (entry1 w).1 = .val 0 ∧ entryVa ((entry1 w).2.regsOf 0) 2 = some 0x80 ∧ (entry2 w).1 = .val 0 ∧ (ran w).collRoom ≠ 0 := by decide +kernel
theorem test_witness_bias_command : ((ran biasWord).stream 0).started = false ∧ field biasWord 0x10 16 % 65536 = 0 ∧
    ((ran biasWord).biasPages sd0 0 0 0x40000 1).1 = some [4] := by decide +kernel
/-- A header of one crew of one thread, whose residency record is at 0xc000 and whose counter is at 0x1000; the record takes 8 registers. -/
def header0 (bad : Nat) : Nat := bytesAt [(0x20, 0x1000), (0x30, 0xc000), (0x40, 1), (0x8c, bad), (0x58, 1), (0x60, 1), (0x68, 1), (0x70, 1), (0x78, 1), (0x80, 1)]
def resident0 (regs : Nat) : Nat := bytesAt [(0, regs), (8, 1)]
def sLaunch (bad regs : Nat) : State :=
  let s := sStream launchWord
  { s with mem := (s.mem.writeBytes 0xb000 (bytesOf 256 (header0 bad))).writeBytes 0xc000 (bytesOf 128 (resident0 regs)) }
def ranL (bad regs : Nat) : State := ((sLaunch bad regs).readCmd sd0 0 0).2
def header1 (bad regs : Nat) : Got × State := (ranL bad regs).cpRead 0 0 0 0xb000 256
def resident1 (bad regs : Nat) : Got × State := (header1 bad regs).2.cpRead 0 0 0 0xc000 128
theorem test_witness_accepted_launch : runs (sLaunch 0 8) launchWord = true ∧ ((ranL 0 8).stream 0).started = false ∧ field launchWord 0x10 16 % 64 = 0 ∧
    (header1 0 8).1 = .val (header0 0) ∧ headerBad (header0 0) = false ∧ (resident1 0 8).1 = .val (resident0 8) ∧
    (resident1 0 8).2.refusal 0 (header0 0) (resident0 8) = none ∧ (List.range 1024).find? (fun i => ((resident1 0 8).2.cmd.launches.find i).isNone) = some 1 := by
  decide +kernel
theorem test_witness_refused_record : runs (sLaunch 0 9) launchWord = true ∧ ((ranL 0 9).stream 0).started = false ∧ (header1 0 9).1 = .val (header0 0) ∧
    (resident1 0 9).1 = .val (resident0 9) ∧ (resident1 0 9).2.refusal 0 (header0 0) (resident0 9) = some 2 := by decide +kernel
theorem test_witness_refused_header : runs (sLaunch 1 8) launchWord = true ∧ ((ranL 1 8).stream 0).started = false ∧ (header1 1 8).1 = .val (header0 1) ∧
    headerBad (header0 1) = true := by decide +kernel
/-- The command has started, and its launch's counter at 0x1000 reads 0. -/
def sJoined : State := (sStream launchWord).modStream 0 fun t => { t with started := true, op := some 0x1000 }
theorem test_witness_launch_end : runs sJoined launchWord = true ∧ (((sJoined.readCmd sd0 0 0).2).stream 0).started = true ∧
    (((sJoined.readCmd sd0 0 0).2).stream 0).op = some 0x1000 ∧ (∀ l ∈ (sJoined.readCmd sd0 0 0).2.cmd.launches.vals, l.stream = 0 → l.cmd = 0 → l.joinSet = true) ∧
    (let p := (sJoined.readCmd sd0 0 0).2.cpWatch 0 0x1000
     ((p.2.modStream 0 fun t => { t with watch := p.1 }).cpRead 0 0 0 0x1000 4).1 = .val 0) := by decide +kernel
def launchAt (phase : Phase) (shielded : Bool) (waits : List Nat) : Launch := { placedLaunch with phase := phase, shielded := shielded, waits := waits, decremented := 1 }
def sLaunched (l : Launch) : State := { one with cmd := { one.cmd with launches := [(0, l)] } }
def waitsRead (s : State) : Option Bool × State := (s.watchWaits (launchAt .waiting false [0x300])).readWaits (launchAt .waiting false [0x300]) [0x300]
theorem test_witness_launch_steps : ((sLaunched (launchAt .waiting false [0x300])).cmd.launches.find 0 = some (launchAt .waiting false [0x300]) ∧
      (waitsRead (sLaunched (launchAt .waiting false [0x300]))).1 = some true ∧ (waitsRead (sLaunched (launchAt .waiting false [0x300]))).2.cmd.records = [] ∧
      (let v := (waitsRead (sLaunched (launchAt .waiting false [0x300]))).2.endLook 0
       v.crownReady (v.cowEntries (launchAt .waiting false [0x300])) = true)) ∧
    (∀ b, (sLaunched (launchAt .running b [])).cmd.launches.find 0 = some (launchAt .running b []) ∧ (launchAt .running b []).crews ≤ 1 ∧
      (sLaunched (launchAt .running b [])).crownReady ((sLaunched (launchAt .running b [])).cowEntries (launchAt .running b [])) = true) ∧
    (sLaunched (launchAt .running true [])).ctxs.find 0 = some placedCtx ∧
    (sLaunched (launchAt .finished false [])).cmd.launches.find 0 = some (launchAt .finished false []) := by decide +kernel
/-- The leaf of the protected launch's page stands in a page in host bias. -/
def sCowHost : State := { sCow [] with coh := { one.coh with bias := [(4, true)] }, cmd := { one.cmd with launches := [(0, { launchAt .running true [] with snapshot := true })] } }
theorem test_witness_host_leaves : sCowHost.crownReady (sCowHost.cowEntries { launchAt .running true [] with snapshot := true }) = false := by decide +kernel
/-- Stream 0 without a command in progress: its tail reads 1 and its head 0. -/
def sTail : State := (({ sStream fenceWord with mem := (sStream fenceWord).mem.writeBytes 0xa000 [1] } : State).modStream 0 fun _ => Stream.fresh)
def tailed : Got × State := let p := sTail.cpWatch 0 0xa000; (p.2.modStream 0 fun t => { t with tailPa := p.1 }).cpRead 0 0 0 0xa000 4
theorem test_witness_tail : sTail.streamDesc 0 = some sd0 ∧ sTail.served 0 = true ∧ tailed.1 = .val 1 ∧ (tailed.2.stream 0).cmd = none ∧
    (tailed.2.cpRead 0 0 0 0xa004 4).1 = .val 0 := by decide +kernel
def sWaits (w : Nat) : State := (sStream w).modStream 0 fun _ => { Stream.fresh with tail := 1 }
theorem test_witness_command_start : ∀ w ∈ [fenceWord, 0], (∀ e ∈ (sWaits w).cmd.streams, e.2.done = false) ∧ (sWaits w).readyStreams = [(0, sd0)] ∧
    ((sWaits w).readCmd sd0 0 0).1 = .val w ∧ Map.rising 0 (sWaits w).cmd.streams = true := by decide +kernel
theorem test_witness_malformed_command : malformed fenceWord = none ∧ malformed 0 = some .illop := by decide +kernel
/-- A request for service n with a payload is pending. -/
def sAsks (n : Nat) (payload : List Nat) : State :=
  { sReady with pkg := { sReady.pkg with request := some 9, reqBuf := bytesOf 2 n ++ bytesOf 2 payload.length ++ bytesOf 4 9 ++ bytesOf 8 0 ++ payload.map (BitVec.ofNat 8) } }
def zeros (n : Nat) : List Nat := List.replicate n 0
def pad (n : Nat) (l : List Nat) : List Nat := l ++ zeros (n - l.length)
theorem test_witness_mailbox_answers : (List.replicate 4080 (0 : Byte)).length ≤ 4080 ∧ 2 ^ 32 - 1 < 2 ^ 32 :=
  ⟨Nat.le_of_eq List.length_replicate, by decide⟩
theorem test_witness_requests : ∀ e ∈ [(1, zeros 0), (2, zeros 4), (0x13, zeros 8), (0x20, zeros 36), (0x21, zeros 8), (0x23, zeros 24), (0x25, zeros 8),
      (0x26, List.replicate 7 1), (0x27, zeros 16), (0x28, zeros 0), (0x29, zeros 0), (0x30, zeros 48), (0x10, zeros 48), (0x11, zeros 2), (0x12, zeros 44),
      (0x14, zeros 16), (0x15, zeros 4), (0x24, zeros 258)],
    Asks (sAsks e.1 e.2) 9 e.1 e.2.length := by decide +kernel
theorem test_witness_package_services : ((sAsks 0x13 (zeros 8)).arg 1 3 = 0 ∧ (sAsks 0x13 (zeros 8)).arg 0 1 < 8) ∧ (∀ i < 36, (sAsks 0x20 (zeros 36)).arg i 1 < 8) ∧
    ((sAsks 0x21 (zeros 8)).arg 0 8 % 65536 = 0 ∧ (sAsks 0x21 (zeros 8)).arg 0 8 + 65536 ≤ hbmEnd) ∧
    (∀ b ∈ [0, 1], (sAsks 0x23 (pad 24 [1, 1, b])).arg 3 5 = 0 ∧ (sAsks 0x23 (pad 24 [1, 1, b])).arg 0 1 < 32 ∧ (sAsks 0x23 (pad 24 [1, 1, b])).arg 1 1 < 16 ∧
      (sAsks 0x23 (pad 24 [1, 1, b])).arg 2 1 = b) ∧
    (∀ b ∈ [0, 1, 2], (sAsks 0x25 (pad 8 [b, 3])).arg 2 2 = 0 ∧ (sAsks 0x25 (pad 8 [b, 3])).arg 0 1 = b ∧ (sAsks 0x25 (pad 8 [b, 3])).arg 1 1 < 4) ∧
    (∀ i < 7, 1 ≤ (sAsks 0x26 (List.replicate 7 1)).arg i 1 ∧ (sAsks 0x26 (List.replicate 7 1)).arg i 1 ≤ 15) ∧ 8 * 2 ≤ 4080 ∧
    (∀ n ∈ [2, 4], Asks { sAsks 0x27 (zeros 16) with pkg := { (sAsks 0x27 (zeros 16)).pkg with status := BitVec.ofNat 32 n } } 9 0x27 16) := by decide +kernel
def create0 : List Nat := pad 48 [5, 0, 7, 3, 6, 2, 0, 0, 0x40, 0, 1]
theorem test_witness_context_creation : Asks (sAsks 0x10 create0) 9 0x10 48 ∧ (sAsks 0x10 create0).arg 3 1 < 4 ∧ (sAsks 0x10 create0).arg 6 2 = 0 ∧
    (sAsks 0x10 create0).arg 40 8 = 0 ∧ (sAsks 0x10 create0).arg 0 2 < 4096 ∧ (sAsks 0x10 create0).ctxs.find ((sAsks 0x10 create0).arg 0 2) = none ∧
    (sAsks 0x10 create0).arg 2 1 < 8 ∧ 6 ≤ (sAsks 0x10 create0).arg 4 1 ∧ (sAsks 0x10 create0).arg 4 1 ≤ 16 ∧ 2 ≤ (sAsks 0x10 create0).arg 5 1 ∧
    (sAsks 0x10 create0).arg 5 1 ≤ 63 ∧ (sAsks 0x10 create0).arg 8 8 % 64 = 0 ∧
    (sAsks 0x10 create0).arg 8 8 + 64 * 2 ^ (sAsks 0x10 create0).arg 4 1 + 12 ≤ hbmEnd ∧ (sAsks 0x10 create0).arg 16 8 % 65536 = 0 ∧
    (let words := (sAsks 0x10 create0).arg 8 8 + 64 * 2 ^ (sAsks 0x10 create0).arg 4 1
     (sAsks 0x10 create0).crownReady [words] = true ∧
       ({ sAsks 0x10 create0 with coh := { one.coh with bias := [(words / 2 ^ 16, true)] } } : State).crownReady [words] = false) := by decide +kernel
/-- A communicator of one group of two: the device itself, and peer 6. -/
def comm1 : List Nat := [0, 0, 1, 1, 2, 0, 0, 0, 0xff, 6]
def sComm : State := { sAsks 0x22 comm1 with pkg := { (sAsks 0x22 comm1).pkg with peers := [(6, ⟨2, 0, true⟩)] } }
theorem test_witness_context_services : (sAsks 0x11 (zeros 2)).ctxs.find 0 = some placedCtx ∧ placedCtx.alive = true ∧
    ((sAsks 0x12 (zeros 44)).arg 2 1 < 2 ∧ (sAsks 0x12 (zeros 44)).arg 3 5 = 0) ∧ (sAsks 0x14 (zeros 16)).arg 2 6 = 0 ∧
    ((sAsks 0x15 (zeros 4)).arg 2 1 < 2 ∧ (sAsks 0x15 (zeros 4)).arg 3 1 = 0) ∧ snapStatus ((sAsks 0x24 (pad 258 (zeros 18 ++ [1]))).arg 2 256) = 0 ∧
    (Asks sComm 9 0x22 10 ∧ sComm.arg 6 2 = 0 ∧ sComm.arg 2 1 < 64 ∧ 1 ≤ sComm.arg 3 1 ∧ sComm.arg 3 1 ≤ 17 ∧ 2 ≤ sComm.arg 4 1 ∧ sComm.arg 4 1 ≤ 17 ∧
      sComm.arg 5 1 < 2 ∧ (∀ i < 2, if i = sComm.arg 5 1 then sComm.arg (8 + i) 1 = 0xff else sComm.pkg.peers.find (sComm.arg (8 + i) 1) ≠ none)) := by decide +kernel
/-- Requests of every service whose message is a byte too long; and of those whose rows name them, with stray bits and with an argument out of range. -/
def lengths : List (Nat × Nat) := [(1, 0), (2, 4), (0x10, 48), (0x11, 2), (0x12, 44), (0x13, 8), (0x14, 16), (0x15, 4), (0x20, 36), (0x21, 8), (0x22, 8), (0x23, 24), (0x24, 258),
  (0x25, 8), (0x26, 7), (0x27, 8), (0x28, 0), (0x29, 0), (0x30, 48)]
def strays : List (Nat × List Nat) := [(0x10, pad 48 [0, 0, 0, 4]), (0x12, pad 44 [0, 0, 2]), (0x13, pad 8 [0, 1]), (0x14, pad 16 [0, 0, 1]), (0x15, [0, 0, 2, 0]),
  (0x22, pad 8 [0, 0, 0, 0, 0, 0, 1]), (0x23, pad 24 [0, 0, 2]), (0x24, pad 258 (zeros 26 ++ [1])), (0x25, pad 8 [0, 0, 1])]
def beyond : List (Nat × List Nat) := [(0x10, pad 48 [0, 16]), (0x11, [9, 0]), (0x12, pad 44 [9]), (0x13, pad 8 [8]), (0x14, pad 16 [9]), (0x15, [9, 0, 0, 0]), (0x20, pad 36 [8]),
  (0x21, pad 8 [1]), (0x22, pad 8 [9]), (0x23, pad 24 [32]), (0x24, pad 258 [9]), (0x25, pad 8 [3]), (0x26, zeros 7)]
theorem test_witness_early_requests : ∀ e ∈ lengths, e.1 ≠ 1 → e.1 ≠ 0x30 →
    ({ sAsks e.1 [] with pkg := { (sAsks e.1 []).pkg with status := 0 } } : State).staged e.1 = false ∧ e.1 ∈ serviceNumbers := by decide +kernel
theorem test_witness_refused_lengths : (sAsks 0x99 []).pkg.reqField 0 2 ∉ serviceNumbers ∧ ∀ e ∈ lengths,
    (sAsks e.1 (zeros (e.2 + 1))).pkg.reqField 2 2 = e.2 + 1 ∧ (sAsks e.1 (zeros (e.2 + 1))).staged e.1 = true := by decide +kernel
theorem test_witness_stray_bits : (∀ e ∈ strays, Asks (sAsks e.1 e.2) 9 e.1 e.2.length) ∧ strayBits (sAsks 0x10 (pad 48 [0, 0, 0, 4])) 0x10 ∧
    strayBits (sAsks 0x24 (pad 258 (zeros 26 ++ [1]))) 0x24 :=
  ⟨by decide +kernel, .inl (by decide), fun h => absurd (h placedCtx (by decide)) (by decide), by decide +kernel⟩
theorem test_witness_out_of_range : (∀ e ∈ beyond, Asks (sAsks e.1 e.2) 9 e.1 e.2.length) ∧ outOfRange (sAsks 0x10 (pad 48 [0, 16])) 0x10 ∧
    8 ≤ (sAsks 0x13 (pad 8 [8])).arg 0 1 ∧ ¬strayBits (sAsks 0x13 (pad 8 [8])) 0x13 ∧ outOfRange (sAsks 0x26 (zeros 7)) 0x26 :=
  ⟨by decide +kernel, .inl (by decide), by decide, fun h => h (by decide), 0, by decide, .inl (by decide)⟩
/-- PREEMPT of core 0's crews of context 0: the one there needs more than the save area of no bytes. -/
def sPreempt : State := sAsks 0x12 (pad 44 [0, 0, 0, 0, 0, 0, 0, 0, 1])
theorem test_witness_unsaved : Asks sPreempt 9 0x12 44 ∧ sPreempt.arg 2 1 < 2 ∧ sPreempt.arg 3 5 = 0 ∧
    sPreempt.crews.vals.filter (fun w => w.ctx == 0 && w.core.any (sPreempt.arg 8 36).testBit) = [placedCrew] ∧ sPreempt.saveable [placedCrew] 0 = [] := by
  refine ⟨by decide +kernel, by decide +kernel, by decide +kernel, by decide +kernel, ?_⟩
  have h : sPreempt.overflows placedCrew 0 = true := by
    unfold State.overflows State.saveSize
    have : ((sPreempt.ctxs.find placedCrew.ctx).map (·.saveSize)).getD 0 = 0 := by decide +kernel
    rw [this]; exact decide_eq_true (Nat.succ_pos _)
  simp [State.saveable, h]
/-- R4, R372, R374: a word written at 0x1004 of BAR0 is read back there; a write of the status register is ignored; the request register reads 0. -/
theorem test_mmio_registers : (sReady.mmioWrite 0x1004 0x01020304).pkg.mmioRead 0x1004 = 0x01020304 ∧ (sReady.mmioWrite 0 5).pkg.mmioRead 0 = 0x80000000 ∧
    (sReady.mmioWrite 8 5).pkg.mmioRead 8 = 0 ∧ (sReady.mmioWrite 8 5).pkg.request = some 5 := by decide +kernel
/-- A privileged context that INJECTAUTH has granted err.inject. -/
def sGranted : State := { one with ctxs := [(0, { placedCtx with grant := true, privileged := true })] }
/-- R336, R339: a reserved kind is refused whether or not it is armed. -/
theorem test_inject_kinds : sGranted.csrAllowed 0 0x0f0 0x8100000000000000 = true ∧ sGranted.csrAllowed 0 0x0f0 0x0100000000000000 = true ∧
    sGranted.csrAllowed 0 0x0f0 0x0600000000000000 = false ∧ sGranted.csrAllowed 0 0x0f0 0x8600000000000000 = false := by decide
/-- The cohort's turn comes: the word at its address is MOV v1, q2. -/
def sTurn : State := { one with cur := none, agenda := [.issue 3], mem := one.mem.writeBytes 0x10 (bytesOf 16 popWord) }
def turned : State := { sTurn with agenda := [], cohorts := sTurn.cohorts.map fun (e : Nat × Cohort) => (e.1, { e.2 with yieldFor := e.2.yieldFor.filter (· != 3) }) }
def walked : Tr × State := turned.translate (tcAgent 0) 0 coh0.snap.ptroot (turned.privOf 0) 0x10 .exec none
def isIssue (f : Fetched) : Bool := match f with
  | .run _ _ => true
  | .stop _ => false
theorem test_witness_issue_turn : sTurn.agenda = [.issue 3] ∧ isIssue (State.fetch { sTurn with agenda := [] } 3) = true ∧ sTurn.cohorts.find 3 = some coh0 ∧
    State.canIssue { sTurn with agenda := [] } coh0 = true ∧ sTurn.codeVa 1 1 = some 0x10 ∧ (match walked.2.reachOf walked.1 with
      | .go key _ _ => key == 0x10
      | _ => false) = true ∧ walked.2.readStalled (icAgent 0) 0 0x10 16 = false ∧ walked.2.remoteKey 0x10 = false ∧ (walked.2.readHome 0x10 16).poisonedIn 0x10 16 = none ∧
    (match decodeIn (((walked.2.readHome 0x10 16).grantIc 0 0x10 16 false).decodeEnv coh0)
        (BitVec.ofNat 128 (natOf (((walked.2.readHome 0x10 16).grantIc 0 0x10 16 false).mem.readBytes 0x10 16))) with
      | .ok i => placeOk coh0 i
      | .error _ => false) = true := by decide +kernel
theorem test_witness_fetch_stop : isIssue (State.fetch { sTurn with agenda := [], cohorts := [] } 3) = false := by decide +kernel
theorem test_witness_steps : (∀ i rest, State.reset.agenda = .hw i :: rest → ¬ofCohort i) ∧ State.reset.mem.wf = true ∧ State.reset.agenda = [] ∧
    ∃ t, step { State.reset with agenda := [.hw .hostWake] } = .next t := ⟨fun _ _ h => (List.cons_ne_nil _ _ h.symm).elim, rfl, rfl, _, rfl⟩
end Sys2Proof.Tests
end

section
/-! SUPPORT. What leaves the memory as it was: one lemma for each operation of the model that has no write of memory in it. Each proof
unfolds that one operation and goes by the lemmas of the operations that it calls. -/

namespace Sys2Proof.Machine

/-! ### Folds and choices -/

@[simp] theorem State.foldl_mem {α : Type} {f : State → α → State} (h : ∀ s a, (f s a).mem = s.mem) (s : State) (l : List α) :
    (l.foldl f s).mem = s.mem := by
  induction l generalizing s with
  | nil => rfl
  | cons a l ih => exact (ih _).trans (h s a)

@[simp] theorem State.mem_ite (p : Prop) [Decidable p] (s t : State) : (if p then s else t).mem = if p then s.mem else t.mem := by
  split <;> rfl

@[simp] theorem State.foldl_snd_mem {α β : Type} {f : β × State → α → β × State}
    (h : ∀ p a, (f p a).2.mem = p.2.mem) (p : β × State) (l : List α) : (l.foldl f p).2.mem = p.2.mem := by
  induction l generalizing p with
  | nil => rfl
  | cons a l ih => exact (ih _).trans (h p a)

/-! ### The named operations, filing and the causes -/

@[simp] theorem State.modLaunch_mem (s : State) (n : Nat) (f : Launch → Launch) : (s.modLaunch n f).mem = s.mem := by
  simp [State.modLaunch]

@[simp] theorem State.setV64_mem (s : State) (tid n : Nat) (d : Dword) : (s.setV64 tid n d).mem = s.mem := by
  simp [State.setV64]

@[simp] theorem State.takeIn_mem (s : State) (core : Nat) (k : BinKey) : (s.takeIn core k).mem = s.mem := by
  simp [State.takeIn]

@[simp] theorem State.file_mem (s : State) (tid : Nat) (f : Filing) : (s.file tid f).mem = s.mem := by
  unfold State.file
  dsimp only
  (repeat' split) <;> simp

@[simp] theorem State.dropLanes_mem (s : State) (cid : Nat) (tids : List Nat) : (s.dropLanes cid tids).mem = s.mem := by
  unfold State.dropLanes
  split <;> simp

@[simp] theorem State.terminateBy_mem (s : State) (r : FaultRec) : (s.terminateBy r).mem = s.mem := by
  simp [State.terminateBy]

@[simp] theorem State.enterHandler_mem (s : State) (tid : Nat) (vec : Dword) (core : Nat) (e : TrapEntry) (addr : Nat) :
    (s.enterHandler tid vec core e addr).mem = s.mem := by
  unfold State.enterHandler
  split <;> simp

@[simp] theorem State.boundary_mem (s : State) (tid : Nat) (f : Filing) (traceId : BitVec 16) (offset : Nat) :
    (s.boundary tid f traceId offset).mem = s.mem := by
  unfold State.boundary
  split <;> simp

@[simp] theorem State.raiseIn_mem (s : State) (c : Cohort) (lanes : List Lane) (cause : Cause) (offset : Nat) (addr : Lane → Nat) :
    (s.raiseIn c lanes cause offset addr).mem = s.mem := by
  unfold State.raiseIn
  rw [State.dropLanes_mem]
  exact State.foldl_mem (fun s l => by split <;> simp) _ _

@[simp] theorem State.scramble_mem (s : State) (c : Cohort) (tid : Nat) : (s.scramble c tid).mem = s.mem := by
  simp [State.scramble]

@[simp] theorem State.rollback_mem (s : State) (c : Cohort) (tid : Nat) : (s.rollback c tid).mem = s.mem := by
  simp [State.rollback]

@[simp] theorem State.refile_mem (s : State) (c : Cohort) (tid : Nat) : (s.refile c tid).mem = s.mem := by
  simp [State.refile]

@[simp] theorem State.park_mem (s : State) (c : Cohort) (l : Lane) (why : ParkWhy) (page : Nat) (unit : Option Nat) :
    (s.park c l why page unit).mem = s.mem := by
  simp [State.park]

@[simp] theorem State.reportPage_mem (s : State) (c : Cohort) (l : Lane) (cause : Cause) (va : Nat) :
    (s.reportPage c l cause va).mem = s.mem := by
  unfold State.reportPage
  split <;> simp

@[simp] theorem State.parkPage_mem (s : State) (c : Cohort) (l : Lane) (va : Nat) (unit : Option Nat) :
    (s.parkPage c l va unit).mem = s.mem := by
  unfold State.parkPage
  dsimp only
  split <;> simp

/-! ### Memory, tokens and translation caches -/

@[simp] theorem State.setUnit_mem (s : State) (sec : Nat) (u : CohUnit) : (s.setUnit sec u).mem = s.mem := by
  simp [State.setUnit]

@[simp] theorem State.noteFmt_mem (s : State) (key pte : Nat) : (s.noteFmt key pte).mem = s.mem := by
  simp [State.noteFmt]

@[simp] theorem State.trimL2_mem (s : State) (slice set : Nat) : (s.trimL2 slice set).mem = s.mem := by
  simp [State.trimL2]

@[simp] theorem State.divert_mem (s : State) (core : Nat) (es : List MemEff) (unit : Option Nat) :
    (s.divert core es unit).mem = s.mem := by
  simp [State.divert]

@[simp] theorem State.sendFlit_mem (s : State) (port : Nat) (cls : BitVec 8) (b : FlitBody) : (s.sendFlit port cls b).mem = s.mem := by
  simp [State.sendFlit]

@[simp] theorem State.toPeer_mem (s : State) (id : Nat) (r : Remote) : (s.toPeer id r).mem = s.mem := by
  unfold State.toPeer
  split <;> simp

@[simp] theorem State.sendRemote_mem (s : State) (r : Remote) : (s.sendRemote r).2.mem = s.mem := by
  simp [State.sendRemote]

@[simp] theorem State.sendWrite_mem (s : State) (agent : Nat) (e : MemEff) (key : Nat) (watch : Bool) :
    (s.sendWrite agent e key watch).mem = s.mem := by
  simp [State.sendWrite]

@[simp] theorem State.askHost_mem (s : State) (agent sec : Nat) : (s.askHost agent sec).mem = s.mem := by
  simp [State.askHost]

@[simp] theorem State.markBuffered_mem (s : State) (core : Nat) (hit : MemEff → Bool) : (s.markBuffered core hit).mem = s.mem := by
  simp [State.markBuffered]

@[simp] theorem State.moveQuantum_mem (s : State) (core : Nat) (hit : MemEff → Bool) (unit : Option Nat) :
    (s.moveQuantum core hit unit).mem = s.mem := by
  simp [State.moveQuantum]

@[simp] theorem State.cancelRemote_mem (s : State) (id : Nat) (r : Remote) (hit : MemEff → Bool) (hitVa : Nat → Bool)
    (unit : Option Nat) : (s.cancelRemote id r hit hitVa unit).mem = s.mem := by
  unfold State.cancelRemote
  dsimp only
  (repeat' split) <;> simp

@[simp] theorem State.dropTrans_mem (s : State) (agent : Nat) (p : TlbEntry → Bool) (unit : Option Nat) :
    (s.dropTrans agent p unit).mem = s.mem := by
  unfold State.dropTrans
  split <;> simp

@[simp] theorem State.surrender_mem (s : State) (sec agent : Nat) : (s.surrender sec agent).mem = s.mem := by
  simp [State.surrender]

@[simp] theorem State.rouse_mem (s : State) (agent : Nat) : (s.rouse agent).mem = s.mem := by
  unfold State.rouse
  split <;> simp

@[simp] theorem State.gatherSec_mem (s : State) (writer sec : Nat) : (s.gatherSec writer sec).mem = s.mem := by
  simp [State.gatherSec]

@[simp] theorem State.gather_mem (s : State) (sec writer : Nat) : (s.gather sec writer).mem = s.mem := by
  simp [State.gather]

@[simp] theorem State.injectAt_mem (s : State) (kinds : List Nat) (sec : Nat) : (s.injectAt kinds sec).mem = s.mem :=
  State.foldl_mem (fun s _ => s.urge_mem _) _ _

@[simp] theorem State.dropBlock_mem (s : State) (b : Nat) : (s.dropBlock b).mem = s.mem := by
  simp [State.dropBlock]

@[simp] theorem State.toHbm_mem (s : State) (b : Nat) : (s.toHbm b).mem = s.mem := by
  simp [State.toHbm]

@[simp] theorem State.poisonSecs_mem (s : State) (f : Finder) (secs : List Nat) : (s.poisonSecs f secs).mem = s.mem := by
  simp [State.poisonSecs]

@[simp] theorem State.probeHarm_mem (s : State) (crc : Bool) (sec : Nat) : (s.probeHarm crc sec).mem = s.mem := by
  unfold State.probeHarm
  split <;> simp

@[simp] theorem State.wakeDie_mem (s : State) (die : Nat) : (s.wakeDie die).mem = s.mem := by
  simp [State.wakeDie]

@[simp] theorem State.wakeHome_mem (s : State) (a : Nat) : (s.wakeHome a).mem = s.mem := by
  simp [State.wakeHome]

@[simp] theorem State.fillSec_mem (s : State) (mod : Bool) (sec : Nat) : (s.fillSec mod sec).mem = s.mem := by
  simp [State.fillSec]

@[simp] theorem State.fetchUnits_mem (s : State) (secs : List Nat) : (s.fetchUnits secs).mem = s.mem := by
  simp [State.fetchUnits]

@[simp] theorem State.sendReport_mem (s : State) (r : Report) : (s.sendReport r).mem = s.mem := by
  unfold State.sendReport
  split <;> simp

@[simp] theorem State.detect_mem (s : State) (sec : Nat) (f : Finder) : (s.detect sec f).mem = s.mem := by
  simp [State.detect]

@[simp] theorem State.checkSecs_mem (s : State) (crc : Bool) (secs : List Nat) : (s.checkSecs crc secs).2.mem = s.mem := by
  simp [State.checkSecs]

@[simp] theorem State.inspect_mem (s : State) (crc : Bool) (secs : List Nat) : (s.inspect crc secs).mem = s.mem := by
  have h := s.checkSecs_mem crc secs
  unfold State.inspect
  generalize s.checkSecs crc secs = p at h ⊢
  obtain ⟨_ | _, t⟩ := p <;> simpa using h

@[simp] theorem State.mergeCheck_mem (s : State) (a n : Nat) : (s.mergeCheck a n).2.mem = s.mem := by
  unfold State.mergeCheck
  split <;> simp

@[simp] theorem State.readHome_mem (s : State) (a n : Nat) : (s.readHome a n).mem = s.mem := by
  simp [State.readHome]

@[simp] theorem State.readIdle_mem (s : State) (a n : Nat) : (s.readIdle a n).mem = s.mem := by
  simp [State.readIdle]

@[simp] theorem State.noteWrite_mem (s : State) (tid key n : Nat) : (s.noteWrite tid key n).mem = s.mem := by
  simp [State.noteWrite]

@[simp] theorem State.noteRead_mem (s : State) (tid key n : Nat) : (s.noteRead tid key n).mem = s.mem := by
  simp [State.noteRead]

@[simp] theorem State.wakeAt_mem (s : State) (a n : Nat) : (s.wakeAt a n).mem = s.mem := by
  simp [State.wakeAt]

@[simp] theorem State.failResv_mem (s : State) (a n : Nat) : (s.failResv a n).mem = s.mem := by
  simp [State.failResv]

@[simp] theorem State.tagBlock_mem (s : State) (a : Nat) (w : Option Writer) : (s.tagBlock a w).mem = s.mem := by
  simp [State.tagBlock]

@[simp] theorem State.wakeOps_mem (s : State) (a n : Nat) : (s.wakeOps a n).mem = s.mem := by
  simp [State.wakeOps]

@[simp] theorem State.returnHalf_mem (s : State) (h : Half) (old : Nat) : (s.returnHalf h old).mem = s.mem := by
  unfold State.returnHalf
  split <;> simp

@[simp] theorem State.newReq_mem (s : State) : s.newReq.2.mem = s.mem := by
  simp [State.newReq]

@[simp] theorem State.unbuffer_mem (s : State) (q : QEntry) : (s.unbuffer q).mem = s.mem := by
  simp [State.unbuffer]

@[simp] theorem State.refuseEntry_mem (s : State) (q : QEntry) : (s.refuseEntry q).mem = s.mem := by
  simp [State.refuseEntry]

@[simp] theorem State.takeOwner_mem (s : State) (sec : Nat) : (s.takeOwner sec).mem = s.mem := by
  unfold State.takeOwner
  dsimp only
  split <;> simp

@[simp] theorem State.give_mem (s : State) (sec agent : Nat) (source : Option Nat) : (s.give sec agent source).mem = s.mem := by
  unfold State.give
  dsimp only
  split <;> simp

@[simp] theorem State.takeBack_mem (s : State) (as : List Nat) : (s.takeBack as).mem = s.mem := by
  simp [State.takeBack]

/-! ### Operands and issue -/

@[simp] theorem State.kChoice_mem (s : State) (c : Cohort) (es : List KPend) : (s.kChoice c es).2.mem = s.mem := by
  unfold State.kChoice
  dsimp only
  split <;> simp

@[simp] theorem State.kSaw_mem (s : State) (c : Cohort) (es : List KPend) : (s.kSaw c es).mem = s.mem := by
  simp [State.kSaw]

@[simp] theorem State.seenK_mem (s : State) (c : Cohort) (n : Nat) : (s.seenK c n).2.mem = s.mem := by
  unfold State.seenK
  dsimp only
  split <;> simp

@[simp] theorem State.seenK64_mem (s : State) (c : Cohort) (n : Nat) : (s.seenK64 c n).2.mem = s.mem := by
  simp [State.seenK64]

@[simp] theorem State.settleK_mem (s : State) (crew : Nat) (cohort : Option Cohort) : (s.settleK crew cohort).mem = s.mem := by
  simp [State.settleK]

@[simp] theorem State.popQ_mem (s : State) (keep : List Nat) (crew q n : Nat) : (s.popQ keep crew q n).2.mem = s.mem := by
  unfold State.popQ
  split <;> simp

@[simp] theorem State.pushQ_mem (s : State) (crew q : Nat) (ws : List Word) (ready : Nat) : (s.pushQ crew q ws ready).mem = s.mem := by
  simp [State.pushQ]

@[simp] theorem State.readSrc_mem (s : State) (keep : List Nat) (c : Cohort) (lanes : List Lane) (sp : OpSpec) (t : Ty) (ftz : Bool)
    (x : Src) : (s.readSrc keep c lanes sp t ftz x).2.mem = s.mem := by
  unfold State.readSrc
  dsimp only
  (repeat' split) <;> simp

@[simp] theorem State.readB_mem (s : State) (keep : List Nat) (c : Cohort) (lanes : List Lane) (sp : OpSpec) (t : Ty) (ftz : Bool)
    (b : SrcB) : (s.readB keep c lanes sp t ftz b).2.mem = s.mem := by
  unfold State.readB
  split <;> simp

@[simp] theorem State.pendWrite_mem (s : State) (cid : Nat) (f : RegFile) (key old lat least : Nat) :
    (s.pendWrite cid f key old lat least).mem = s.mem := by
  simp [State.pendWrite]

@[simp] theorem State.putV_mem (s : State) (cid tid n : Nat) (w : Word) (lat : Nat) : (s.putV cid tid n w lat).mem = s.mem := by
  simp [State.putV]

@[simp] theorem State.putP_mem (s : State) (cid tid n : Nat) (b : Bool) (lat : Nat) : (s.putP cid tid n b lat).mem = s.mem := by
  simp [State.putP]

@[simp] theorem State.putK_mem (s : State) (cid crew n : Nat) (w : Word) (lat : Nat) : (s.putK cid crew n w lat).mem = s.mem := by
  unfold State.putK
  dsimp only
  split <;> simp

@[simp] theorem State.putLane_mem (s : State) (cid tid n : Nat) (wide : Bool) (v lat : Nat) :
    (s.putLane cid tid n wide v lat).mem = s.mem := by
  simp [State.putLane]

@[simp] theorem State.putCrew_mem (s : State) (cid crew n : Nat) (wide : Bool) (v lat : Nat) :
    (s.putCrew cid crew n wide v lat).mem = s.mem := by
  simp [State.putCrew]

@[simp] theorem State.writeDst_mem (s : State) (c : Cohort) (sp : OpSpec) (d : Reg) (lat : Nat) (res : List (Lane × Nat)) :
    (s.writeDst c sp d lat res).mem = s.mem := by
  unfold State.writeDst
  dsimp only
  (repeat' split) <;> simp

@[simp] theorem State.operands_mem (s : State) (c : Cohort) (o : AluOp) (x : Alu) (lanes : List Lane) :
    (s.operands c o x lanes).2.mem = s.mem := by
  simp [State.operands]

@[simp] theorem State.stallConduit_mem (s : State) (c : Cohort) : (s.stallConduit c).mem = s.mem := by
  simp [State.stallConduit]

/-! ### Accesses of threads -/

@[simp] theorem State.modLane_mem (s : State) (cid tid : Nat) (f : Lane → Lane) : (s.modLane cid tid f).mem = s.mem := by
  simp [State.modLane]

@[simp] theorem State.consume_mem (s : State) (c : Cohort) (l : Lane) (va sec : Nat) (f : Finder) :
    (s.consume c l va sec f).mem = s.mem := by
  unfold State.consume
  split <;> simp

@[simp] theorem State.consumeWalk_mem (s : State) (r : FaultRec) (tid : Nat) (cluster : Option Nat) (sec : Nat) :
    (s.consumeWalk r tid cluster sec).mem = s.mem := by
  simp [State.consumeWalk]

@[simp] theorem State.consumeAll_mem (s : State) (c : Cohort) (lanes : List Lane) (va sec : Nat) (f : Finder) :
    (s.consumeAll c lanes va sec f).mem = s.mem := by
  unfold State.consumeAll
  split <;> simp

@[simp] theorem State.holdThread_mem (s : State) (c : Cohort) (l : Lane) (va : Nat) (r : Reach) :
    (s.holdThread c l va r).mem = s.mem := by
  unfold State.holdThread
  split <;> simp

@[simp] theorem State.log_mem (s : State) (core : Nat) (e : MemEff) (unit : Option Nat) (held record : Bool) :
    (s.log core e unit held record).mem = s.mem := by
  unfold State.log
  dsimp only
  (repeat' split) <;> simp

@[simp] theorem State.logBehind_mem (s : State) (core : Nat) (e : MemEff) : (s.logBehind core e).mem = s.mem := by
  unfold State.logBehind
  split <;> simp

@[simp] theorem State.settleRelies_mem (s : State) : s.settleRelies.mem = s.mem := by
  simp [State.settleRelies]

@[simp] theorem State.putLoad_mem (s : State) (cid tid : Nat) (d : BitVec 8) (w : Width) (bs : List Byte) :
    (s.putLoad cid tid d w bs).mem = s.mem := by
  unfold State.putLoad
  split <;> simp

/-! ### Global memory -/

@[simp] theorem State.holdFor_mem (s : State) (c : Cohort) (x : Mem) (acc : Acc) (lanes : List Lane) :
    (s.holdFor c x acc lanes).mem = s.mem := by
  unfold State.holdFor
  rw [State.hold_mem]
  exact State.foldl_mem (fun s l => by (repeat' split) <;> simp) _ _

@[simp] theorem State.askUnit_mem (s : State) (agent key : Nat) : (s.askUnit agent key).mem = s.mem := by
  simp [State.askUnit]

@[simp] theorem State.await_mem (s : State) (cid id : Nat) : (s.await cid id).mem = s.mem := by
  simp [State.await]

@[simp] theorem State.readRemote_mem (s : State) (c : Cohort) (first : Nat) (l : Lane) (va key : Nat) (e : MemEff) (d : BitVec 8)
    (w : Width) : (s.readRemote c first l va key e d w).mem = s.mem := by
  unfold State.readRemote
  dsimp only
  (repeat' split) <;> simp

@[simp] theorem State.atomRemote_mem (s : State) (c : Cohort) (l : Lane) (va key : Nat) (e : MemEff) (n : Nat) (cmp : List Byte)
    (d : BitVec 8) (watch : Bool) : (s.atomRemote c l va key e n cmp d watch).mem = s.mem := by
  simp [State.atomRemote]

@[simp] theorem State.bindLoad_mem (s : State) (c : Cohort) (first : Nat) (x : Mem) (l : Lane) (va : Nat) (r : Reach) :
    (s.bindLoad c first x l va r).mem = s.mem := by
  unfold State.bindLoad
  dsimp only
  (repeat' split) <;> simp

@[simp] theorem State.splitGroups_mem (s : State) (named : List (Nat × Nat)) : (s.splitGroups named).2.mem = s.mem := by
  unfold State.splitGroups
  exact State.foldl_snd_mem (fun p sec => by simp) _ _

@[simp] theorem State.buffer_mem (s : State) (c : Cohort) (l : Lane) (e : Effect) : (s.buffer c l e).mem = s.mem := by
  simp [State.buffer]

@[simp] theorem State.sendHome_mem (s : State) (agent cohort : Nat) (e : MemEff) (key : Nat) (watch : Bool) :
    (s.sendHome agent cohort e key watch).mem = s.mem := by
  simp [State.sendHome]

@[simp] theorem State.putOld_mem (s : State) (cid tid : Nat) (d : BitVec 8) (bs : List Byte) : (s.putOld cid tid d bs).mem = s.mem := by
  simp [State.putOld]

@[simp] theorem State.tryAgain_mem (s : State) (id : Nat) (r : Remote) : (s.tryAgain id r).mem = s.mem := by
  simp [State.tryAgain]

@[simp] theorem State.tryPage_mem (s : State) (id : Nat) (r : Remote) (e : MemEff) (core : Nat) :
    (s.tryPage id r e core).mem = s.mem := by
  simp [State.tryPage]

@[simp] theorem State.refuseAgain_mem (s : State) (id : Nat) (r : Remote) (e : MemEff) (core : Nat) (q : Reach) :
    (s.refuseAgain id r e core q).mem = s.mem := by
  unfold State.refuseAgain
  dsimp only
  (repeat' split) <;> simp

/-! ### Coherence messages -/

@[simp] theorem State.sendProbes_mem (s : State) (sec : Nat) (r : TokReq) : (s.sendProbes sec r).mem = s.mem := by
  simp [State.sendProbes]

@[simp] theorem State.refuseAtom_mem (s : State) (r : AtomReq) : (s.refuseAtom r).mem = s.mem := by
  simp [State.refuseAtom]

@[simp] theorem State.ageQueue_mem (s : State) (sec : Nat) : (s.ageQueue sec).mem = s.mem := by
  simp [State.ageQueue]

@[simp] theorem State.retryQueue_mem (s : State) (sec : Nat) : (s.retryQueue sec).mem = s.mem := by
  simp [State.retryQueue]

/-! ### The scratchpad -/

@[simp] theorem State.probePart_mem (s : State) (crew o : Nat) : (s.probePart crew o).mem = s.mem := by
  unfold State.probePart
  dsimp only
  split <;> simp

@[simp] theorem State.stamp_mem (s : State) (crew j : Nat) : (s.stamp crew j).mem = s.mem := by
  simp [State.stamp]

@[simp] theorem State.spadWriteSeg_mem (s : State) (crew o : Nat) (bs : List Byte) : (s.spadWriteSeg crew o bs).mem = s.mem := by
  simp [State.spadWriteSeg]

@[simp] theorem State.spadWriteFrom_mem (s : State) (crew k o : Nat) (bs : List Byte) : (s.spadWriteFrom crew k o bs).mem = s.mem := by
  fun_induction State.spadWriteFrom <;> simp_all

@[simp] theorem State.raiseStale_mem (s : State) (c : Cohort) (l : Lane) (a : Nat) : (s.raiseStale c l a).mem = s.mem := by
  unfold State.raiseStale
  dsimp only
  (repeat' split) <;> simp

@[simp] theorem State.awaitTest_mem (s : State) (cid : Nat) : (s.awaitTest cid).mem = s.mem := by
  unfold State.awaitTest
  split
  · rfl
  · split
    · dsimp only
      split
      · simp
      · split
        · rw [State.advance_mem, State.modCohort_mem]
          exact (State.foldl_mem (fun s l => by split <;> simp) _ _).trans rfl
        · simp
    · rfl

@[simp] theorem State.awaitTests_mem (s : State) (cid n : Nat) : (s.awaitTests cid n).mem = s.mem := by
  induction n generalizing s with
  | zero => rfl
  | succ n ih => simp [State.awaitTests, ih]

@[simp] theorem State.awaitSettle_mem (s : State) (cid : Nat) : (s.awaitSettle cid).mem = s.mem := by
  simp [State.awaitSettle]

@[simp] theorem State.spadWrite_mem (s : State) (crew o : Nat) (bs : List Byte) : (s.spadWrite crew o bs).mem = s.mem := by
  simp [State.spadWrite]

@[simp] theorem State.saveSegs_mem (s : State) (crew : Nat) : (s.saveSegs crew).mem = s.mem := by
  simp [State.saveSegs]

@[simp] theorem State.restoreSegs_mem (s : State) (crew : Nat) : (s.restoreSegs crew).mem = s.mem := by
  simp [State.restoreSegs]

@[simp] theorem State.wakeCluster_mem (s : State) (cl : Nat) : (s.wakeCluster cl).mem = s.mem := by
  simp [State.wakeCluster]

@[simp] theorem State.wakeCore_mem (s : State) (n : Nat) : (s.wakeCore n).mem = s.mem := by
  simp [State.wakeCore]

@[simp] theorem State.wakeFor_mem (s : State) (crew : Nat) : (s.wakeFor crew).mem = s.mem := by
  unfold State.wakeFor
  split <;> simp

theorem State.arrive_mem {s t : State} {crew o b : Nat} (h : s.arrive crew o b = some t) : t.mem = s.mem := by
  unfold State.arrive at h
  split at h
  · simp at h
  · obtain rfl := Option.some.inj h
    simp

@[simp] theorem State.renew_mem (s : State) (crew a len : Nat) : (s.renew crew a len).mem = s.mem := by
  simp [State.renew]

@[simp] theorem State.arm_mem (s : State) (crew a : Nat) (v : Word) : (s.arm crew a v).mem = s.mem := by
  simp [State.arm]

@[simp] theorem State.atomsAdd_mem (s : State) (crew a size v : Nat) : (s.atomsAdd crew a size v).mem = s.mem := by
  simp [State.atomsAdd]

@[simp] theorem State.spadEff_mem (s : State) (crew tid : Nat) (e : Effect) : (s.spadEff crew tid e).mem = s.mem := by
  unfold State.spadEff
  split <;> simp

@[simp] theorem State.drawBytes_mem (s : State) : s.drawBytes.2.mem = s.mem := by
  simp [State.drawBytes]

/-! ### Tensor entries and the accesses of operations -/

@[simp] theorem State.faultOp_mem (s : State) (a : Attr) (cause : Cause) (addr : Nat) : (s.faultOp a cause addr).mem = s.mem := by
  simp [State.faultOp]

@[simp] theorem State.pageOp_mem (s : State) (a : Attr) (va : Option Nat) : (s.pageOp a va).mem = s.mem := by
  unfold State.pageOp
  split <;> simp

@[simp] theorem State.consumeOp_mem (s : State) (agent : Nat) (a : Attr) (va sec : Nat) (f : Finder) :
    (s.consumeOp agent a va sec f).mem = s.mem := by
  simp [State.consumeOp]

@[simp] theorem State.askOp_mem (s : State) (agent id va key : Nat) (secs : List Nat) : (s.askOp agent id va key secs).mem = s.mem := by
  simp [State.askOp]

@[simp] theorem State.putFetched_mem (s : State) (id : Nat) (bs : List (Nat × Byte)) : (s.putFetched id bs).mem = s.mem := by
  simp [State.putFetched]

@[simp] theorem State.putBad_mem (s : State) (id : Nat) (bs : List (Nat × Finder)) : (s.putBad id bs).mem = s.mem := by
  simp [State.putBad]

@[simp] theorem State.fetchSpad_mem (s : State) (soft : Bool) (a : Attr) (id : Nat) (os : List Nat) :
    (s.fetchSpad soft a id os).2.mem = s.mem := by
  unfold State.fetchSpad
  dsimp only
  (repeat' split) <;> simp

@[simp] theorem State.storeSpad_mem (s : State) (a : Attr) (o : Nat) (bs : List Byte) : (s.storeSpad a o bs).2.mem = s.mem := by
  unfold State.storeSpad
  split <;> simp

@[simp] theorem State.dropFetched_mem (s : State) (id : Nat) : (s.dropFetched id).mem = s.mem := by
  simp [State.dropFetched]

/-! ### The command processor -/

@[simp] theorem State.modStream_mem (s : State) (n : Nat) (f : Stream → Stream) : (s.modStream n f).mem = s.mem := by
  simp [State.modStream]

@[simp] theorem State.stopStream_mem (s : State) (ctx n cmd : Nat) (cause : Cause) (addr : Nat) :
    (s.stopStream ctx n cmd cause addr).mem = s.mem := by
  simp [State.stopStream]

@[simp] theorem State.cpWait_mem (s : State) (a : Attr) (n : Nat) (w : PageWait) (record : Option Nat) :
    (s.cpWait a n w record).mem = s.mem := by
  simp [State.cpWait]

@[simp] theorem State.endLook_mem (s : State) (n : Nat) : (s.endLook n).mem = s.mem := by
  simp [State.endLook]

@[simp] theorem State.signal_mem (s : State) (ctx : Nat) : (s.signal ctx).mem = s.mem := by
  unfold State.signal
  split <;> simp

@[simp] theorem State.setEvent_mem (s : State) (b : Nat) : (s.setEvent b).mem = s.mem := by
  simp [State.setEvent]

/-! ### Floating point and Jewel's checks -/

@[simp] theorem State.disarm_mem (s : State) (ctx : Nat) : (s.disarm ctx).mem = s.mem := by
  simp [State.disarm]

@[simp] theorem State.strike_mem (s : State) (core lane res : Nat) : (s.strike core lane res).2.mem = s.mem := by
  simp [State.strike]

@[simp] theorem State.strikeParts_mem (s : State) (core lane : Nat) (ps : List Part) : (s.strikeParts core lane ps).2.mem = s.mem := by
  induction ps generalizing s with
  | nil => rfl
  | cons p ps ih => simp [State.strikeParts, ih]

@[simp] theorem State.strikeLanes_mem (s : State) (core : Nat) (ls : List (Lane × List Part)) :
    (s.strikeLanes core ls).2.mem = s.mem := by
  induction ls generalizing s with
  | nil => rfl
  | cons l ls ih => simp [State.strikeLanes, ih]

@[simp] theorem State.checkLanes_mem (s : State) (core : Nat) (all : List (Lane × List Part)) :
    (s.checkLanes core all).2.mem = s.mem := by
  unfold State.checkLanes
  dsimp only
  split <;> simp

@[simp] theorem State.divergence_mem (s : State) (c : Cohort) (l : Lane) : (s.divergence c l).mem = s.mem := by
  unfold State.divergence
  split <;> simp

/-! ### The matrix unit -/

@[simp] theorem State.modTileOp_mem (s : State) (id : Nat) (f : TileOp → TileOp) : (s.modTileOp id f).mem = s.mem := by
  simp [State.modTileOp]

@[simp] theorem State.dropTileOp_mem (s : State) (id : Nat) : (s.dropTileOp id).mem = s.mem := by
  simp [State.dropTileOp]

@[simp] theorem State.enqueueTile_mem (s : State) (c : Cohort) (l : Lane) (t : TileSpec) (es : List (Nat × Nat)) :
    (s.enqueueTile c l t es).mem = s.mem := by
  simp [State.enqueueTile]

@[simp] theorem State.mmaSpec_mem (s : State) (c : Cohort) (x : Mat) (sparse : Bool) : (s.mmaSpec c x sparse).2.mem = s.mem := by
  simp [State.mmaSpec]

@[simp] theorem State.moveSpec_mem (s : State) (c : Cohort) (x : Mat) (k : TileKind) : (s.moveSpec c x k).2.mem = s.mem := by
  simp [State.moveSpec]

@[simp] theorem State.descBytes_mem (s : State) (c : Cohort) (kb n : Nat) : (s.descBytes c kb n).2.mem = s.mem := by
  induction n generalizing s kb with
  | zero => rfl
  | succ n ih => simp [State.descBytes, ih]

@[simp] theorem State.tdescReady_mem (s : State) (c : Cohort) (h : BitVec 12) : (s.tdescReady c h).2.mem = s.mem := by
  unfold State.tdescReady
  split
  · rfl
  · split
    · rfl
    · split <;> simp

@[simp] theorem State.faultTile_mem (s : State) (o : TileOp) (cause : Cause) (addr : Nat) : (s.faultTile o cause addr).mem = s.mem := by
  simp [State.faultTile]

@[simp] theorem State.unpin_mem (s : State) (o : TileOp) : (s.unpin o).mem = s.mem := by
  simp [State.unpin]

@[simp] theorem State.restart_mem (s : State) (p : TileOp → Bool) : (s.restart p).mem = s.mem := by
  simp [State.restart]

@[simp] theorem State.waitTile_mem (s : State) (o : TileOp) (w : PageWait) : (s.waitTile o w).mem = s.mem := by
  simp [State.waitTile]

@[simp] theorem State.putElem_mem (s : State) (o : TileOp) (i j v : Nat) : (s.putElem o i j v).mem = s.mem := by
  simp [State.putElem]

@[simp] theorem State.loadRow_mem (s : State) (o : TileOp) (ta : Bool) : (s.loadRow o ta).mem = s.mem := by
  simp [State.loadRow]

@[simp] theorem State.pin_mem (s : State) (id line : Nat) : (s.pin id line).mem = s.mem := by
  simp [State.pin]

@[simp] theorem State.writeGroup_mem (s : State) (o : TileOp) (vals : List (Nat × Nat × Nat)) : (s.writeGroup o vals).mem = s.mem := by
  simp [State.writeGroup]

@[simp] theorem State.strikeElems_mem (s : State) (core w : Nat) (wrong : Nat → Nat → Nat → Nat → Bool)
    (vs : List (Nat × Nat × Nat)) : (s.strikeElems core w wrong vs).2.mem = s.mem := by
  induction vs generalizing s with
  | nil => rfl
  | cons v vs ih => simp only [State.strikeElems, ih]; split <;> simp

@[simp] theorem State.finishTile_mem (s : State) (o : TileOp) : (s.finishTile o).mem = s.mem := by
  simp [State.finishTile]

@[simp] theorem State.zeroTiles_mem (s : State) (o : TileOp) : (s.zeroTiles o).mem = s.mem := by
  simp [State.zeroTiles]

/-! ### Traces and commits -/

@[simp] theorem State.raiseAll_mem (s : State) (c : Cohort) (cause : Cause) (addr : Nat) : (s.raiseAll c cause addr).mem = s.mem := by
  simp [State.raiseAll]

@[simp] theorem State.failGuard_mem (s : State) (c : Cohort) (alt : Nat) (l : Lane) : (s.failGuard c alt l).mem = s.mem := by
  simp [State.failGuard]

@[simp] theorem State.fileOrTrap_mem (s : State) (tid : Nat) (trap : Option TrapDue) (vec : Dword) (core : Nat) (f : Filing)
    (traceId : BitVec 16) (offset : Nat) : (s.fileOrTrap tid trap vec core f traceId offset).mem = s.mem := by
  unfold State.fileOrTrap
  split <;> simp

@[simp] theorem State.releaseWaiter_mem (s : State) (t : Thread) (w : Waiting) : (s.releaseWaiter t w).mem = s.mem := by
  simp [State.releaseWaiter]

@[simp] theorem State.checkBarrier_mem (s : State) (crew n : Nat) : (s.checkBarrier crew n).mem = s.mem := by
  unfold State.checkBarrier
  split <;> simp

@[simp] theorem State.arriveBar_mem (s : State) (tid crew n : Nat) (target : Option Nat) (w : Waiting) :
    (s.arriveBar tid crew n target w).mem = s.mem := by
  simp [State.arriveBar]

@[simp] theorem State.releaseGroup_mem (s : State) (crew addr : Nat) (b : Bool) : (s.releaseGroup crew addr b).mem = s.mem := by
  simp [State.releaseGroup]

@[simp] theorem State.arriveRwait_mem (s : State) (tid crew addr pred count timeout : Nat) (w : Waiting) :
    (s.arriveRwait tid crew addr pred count timeout w).mem = s.mem := by
  simp [State.arriveRwait]

@[simp] theorem State.endThread_mem (s : State) (tid : Nat) : (s.endThread tid).mem = s.mem := by
  unfold State.endThread
  split <;> simp

@[simp] theorem State.popEffect_mem (s : State) (cid tid : Nat) : (s.popEffect cid tid).mem = s.mem := by
  simp [State.popEffect]

@[simp] theorem State.reportOnce_mem (s : State) (c : Cohort) (l : Lane) (e : MemEff) : (s.reportOnce c l e).mem = s.mem := by
  unfold State.reportOnce
  dsimp only
  (repeat' split) <;> simp

@[simp] theorem State.moves_mem (s : State) (tid : Nat) (x : Commit) : (s.moves tid x).mem = s.mem := by
  unfold State.moves
  dsimp only
  (repeat' split) <;> simp

@[simp] theorem State.formAction_mem (s : State) (c : Cohort) (f : Form) (x : Commit) (l : Lane) :
    (s.formAction c f x l).mem = s.mem := by
  unfold State.formAction
  dsimp only
  (repeat' split) <;> simp

@[simp] theorem State.commitQuota_mem (s : State) (c : Cohort) (whole : Bool) : (s.commitQuota c whole).2.mem = s.mem := by
  unfold State.commitQuota
  split <;> simp

/-! ### Copies and collectives -/

@[simp] theorem State.modCopy_mem (s : State) (id : Nat) (f : CopyOp → CopyOp) : (s.modCopy id f).mem = s.mem := by
  simp [State.modCopy]

@[simp] theorem State.modColl_mem (s : State) (id : Nat) (f : CollOp → CollOp) : (s.modColl id f).mem = s.mem := by
  simp [State.modColl]

@[simp] theorem State.dropCopy_mem (s : State) (id : Nat) : (s.dropCopy id).mem = s.mem := by
  simp [State.dropCopy]

@[simp] theorem State.faultCopy_mem (s : State) (o : CopyOp) (cause : Cause) (addr : Nat) : (s.faultCopy o cause addr).mem = s.mem := by
  simp [State.faultCopy]

@[simp] theorem State.waitCopy_mem (s : State) (o : CopyOp) (w : PageWait) (record : Option Nat) :
    (s.waitCopy o w record).mem = s.mem := by
  simp [State.waitCopy]

@[simp] theorem State.stopCopy_mem (s : State) (o : CopyOp) (w : Wrote) : (s.stopCopy o w).mem = s.mem := by
  unfold State.stopCopy
  split <;> simp

@[simp] theorem State.haltCopy_mem (s : State) (o : CopyOp) (r : Fetch) : (s.haltCopy o r).mem = s.mem := by
  unfold State.haltCopy
  split <;> simp

@[simp] theorem State.reportArrival_mem (s : State) (o : CopyOp) (n : Nat) : (s.reportArrival o n).mem = s.mem := by
  unfold State.reportArrival
  split
  · rfl
  · split_ifs
    · simp
    · simp
    · split
      · next h => simpa using State.arrive_mem h
      · simp

@[simp] theorem State.completionOf_mem (s : State) (c : Cohort) (x : Xfer) : (s.completionOf c x).2.mem = s.mem := by
  unfold State.completionOf
  split <;> simp

@[simp] theorem State.enqueueCopy_mem (s : State) (o : CopyOp) : (s.enqueueCopy o).mem = s.mem := by
  simp [State.enqueueCopy]

@[simp] theorem State.enqueueColl_mem (s : State) (o : CollOp) : (s.enqueueColl o).mem = s.mem := by
  simp [State.enqueueColl]

@[simp] theorem State.dropColl_mem (s : State) (id : Nat) : (s.dropColl id).mem = s.mem := by
  simp [State.dropColl]

@[simp] theorem State.faultColl_mem (s : State) (o : CollOp) (cause : Cause) (addr : Nat) : (s.faultColl o cause addr).mem = s.mem := by
  simp [State.faultColl]

@[simp] theorem State.waitColl_mem (s : State) (o : CollOp) (w : PageWait) (record : Option Nat) :
    (s.waitColl o w record).mem = s.mem := by
  simp [State.waitColl]

@[simp] theorem State.haltColl_mem (s : State) (o : CollOp) (r : Fetch) : (s.haltColl o r).mem = s.mem := by
  unfold State.haltColl
  split <;> simp

@[simp] theorem State.stopColl_mem (s : State) (o : CollOp) (w : Wrote) : (s.stopColl o w).mem = s.mem := by
  unfold State.stopColl
  split <;> simp

@[simp] theorem State.sendColl_mem (s : State) (o : CollOp) (k : Comm) (to' rank : Nat) (vals : List Dword) :
    (s.sendColl o k to' rank vals).mem = s.mem := by
  unfold State.sendColl
  split <;> simp

@[simp] theorem State.sendRanks_mem (s : State) (o : CollOp) (k : Comm) (rank : Nat) (vals : Nat → List Dword) :
    (s.sendRanks o k rank vals).mem = s.mem := by
  simp [State.sendRanks]

/-! ### Fetching -/

@[simp] theorem State.askHead_mem (s : State) (crew pc : Nat) : (s.askHead crew pc).mem = s.mem := by
  unfold State.askHead
  split <;> simp

/-! ### Drawing, conduits and admission -/

@[simp] theorem State.makeCohort_mem (s : State) (core port : Nat) (g : WaitGroup) : (s.makeCohort core port g).mem = s.mem := by
  exact State.foldl_mem (fun s e => by simp) _ _

@[simp] theorem State.grantTb_mem (s : State) (core : Nat) (cs : List Cohort) : (s.grantTb core cs).mem = s.mem := by
  induction cs generalizing s with
  | nil => rfl
  | cons c cs ih => simp [State.grantTb, ih]

@[simp] theorem State.qdead_mem (s : State) (l : List (Cohort × Nat)) : (s.qdead l).mem = s.mem := by
  unfold State.qdead
  dsimp only
  (repeat' split) <;> simp

@[simp] theorem State.freeCrew_mem (s : State) (w : Crew) : (s.freeCrew w).mem = s.mem := by
  simp [State.freeCrew]

@[simp] theorem State.giveRows_mem (s : State) (core : Nat) (ts : List Thread) : (s.giveRows core ts).mem = s.mem := by
  induction ts generalizing s with
  | nil => rfl
  | cons t ts ih => simp [State.giveRows, ih]

@[simp] theorem State.resumeCrew_mem (s : State) (w : Crew) : (s.resumeCrew w).mem = s.mem := by
  simp [State.resumeCrew]

/-! ### Fault records, retries and pre-emption -/

@[simp] theorem State.resumeOps_mem (s : State) (ctx page : Nat) : (s.resumeOps ctx page).mem = s.mem := by
  simp [State.resumeOps]

@[simp] theorem State.unpark_mem (s : State) (t : Thread) (p : Park) : (s.unpark t p).mem = s.mem := by
  simp [State.unpark]

@[simp] theorem State.modSegs_mem (s : State) (core : Nat) (p : Crew → Bool) (f : Nat → Nat → Seg → Seg) :
    (s.modSegs core p f).mem = s.mem := by
  simp [State.modSegs]

@[simp] theorem State.stopLanes_mem (s : State) (c : Cohort) (clk : Nat) : (s.stopLanes c clk).mem = s.mem := by
  simp [State.stopLanes]

@[simp] theorem State.dropData_mem (s : State) (crew : Nat) : (s.dropData crew).mem = s.mem := by
  simp [State.dropData]

/-! ### Damage, the host and peers -/

@[simp] theorem State.retirePage_mem (s : State) (pg : Nat) : (s.retirePage pg).mem = s.mem := by
  simp [State.retirePage]

@[simp] theorem State.unfreeze_mem (s : State) (cl : Nat) : (s.unfreeze cl).mem = s.mem := by
  simp [State.unfreeze]

@[simp] theorem State.parkConsumer_mem (s : State) (q : Report) : (s.parkConsumer q).mem = s.mem := by
  unfold State.parkConsumer
  dsimp only
  (repeat' split) <;> simp

@[simp] theorem State.resumeDecided_mem (s : State) (sec : Nat) : (s.resumeDecided sec).mem = s.mem := by
  unfold State.resumeDecided
  rw [State.postAll_mem, State.modCmd_mem]
  exact (State.foldl_mem (fun s t => by (repeat' split) <;> simp) _ _).trans rfl

@[simp] theorem State.patchHeld_mem (s : State) (a : Nat) (bs : List Byte) : (s.patchHeld a bs).mem = s.mem := by
  simp [State.patchHeld]

@[simp] theorem State.holdHost_mem (s : State) (r : Remote) (bytes : List Byte) : (s.holdHost r bytes).mem = s.mem := by
  simp [State.holdHost]

@[simp] theorem State.bindLane_mem (s : State) (r : Remote) (d : Nat) (w : Width) (bytes : List Byte) (lane : Nat × Nat) :
    (s.bindLane r d w bytes lane).mem = s.mem := by
  unfold State.bindLane
  dsimp only
  (repeat' split) <;> simp

@[simp] theorem State.resend_mem (s : State) (page : Nat) : (s.resend page).mem = s.mem := by
  exact State.foldl_mem (fun s e => by dsimp only; (repeat' split) <;> simp) _ _

@[simp] theorem State.failRemote_mem (s : State) (id : Nat) (r : Remote) : (s.failRemote id r).mem = s.mem := by
  unfold State.failRemote
  dsimp only
  (repeat' split) <;> simp

@[simp] theorem State.portDown_mem (s : State) (port : Nat) : (s.portDown port).mem = s.mem := by
  simp [State.portDown]

@[simp] theorem State.askFor_mem (s : State) (a n : Nat) : (s.askFor a n).mem = s.mem := by
  simp [State.askFor]

@[simp] theorem State.passOnward_mem (s : State) (port a : Nat) (kind : EffKind) (cmp bs : List Byte) (tag : Nat) :
    (s.passOnward port a kind cmp bs tag).mem = s.mem := by
  simp [State.passOnward]

/-! ### Streams and launches -/

@[simp] theorem State.wakeAgain_mem (s : State) (n : Nat) : (s.wakeAgain n).mem = s.mem := by
  simp [State.wakeAgain]

@[simp] theorem State.dependOn_mem (s : State) (l : Launch) : (s.dependOn l).mem = s.mem := by
  simp [State.dependOn]

/-! ### The mailbox -/

@[simp] theorem State.mmioWrite_mem (s : State) (off : Nat) (w : Word) : (s.mmioWrite off w).mem = s.mem := by
  simp [State.mmioWrite]

@[simp] theorem State.respond_mem (s : State) (q : Word) (status : Nat) (payload : List Byte) :
    (s.respond q status payload).mem = s.mem := by
  simp [State.respond]

@[simp] theorem State.retireAll_mem (s : State) (pages : List Nat) : (s.retireAll pages).mem = s.mem := by
  simp [State.retireAll]

/-! ### Power and bring-up -/

@[simp] theorem State.scaleTicks_mem (s : State) (old new : Nat) : (s.scaleTicks old new).mem = s.mem := by
  simp [State.scaleTicks]

@[simp] theorem State.bringUpStops_mem (s : State) (step code : Nat) : (s.bringUpStops step code).mem = s.mem :=
  State.modPkg_mem s _

@[simp] theorem State.bringUpTo_mem (s : State) (step : Nat) (b : BringUp) : (s.bringUpTo step b).mem = s.mem := by
  simp [State.bringUpTo]

@[simp] theorem State.bringUp_mem (s : State) (b : BringUp) (step : Nat) : (s.bringUp b step).mem = s.mem := by
  unfold State.bringUp
  split
  · dsimp only; rw [State.modPkg_mem]
  · rw [State.modPkg_mem, State.retireAll_mem]
  · exact State.modCmd_mem _ _
  · dsimp only; rw [State.modCmd_mem, State.modPkg_mem]
  · rfl

/-! ### The passing of a clock -/

@[simp] theorem State.settleParts_mem (s : State) : s.settleParts.mem = s.mem := by
  simp [State.settleParts]

@[simp] theorem State.settleYields_mem (s : State) : s.settleYields.mem = s.mem := by
  simp [State.settleYields]

@[simp] theorem State.resumeLeft_mem (s : State) : s.resumeLeft.mem = s.mem := by
  simp [State.resumeLeft]

@[simp] theorem State.settleTab_mem (s : State) : s.settleTab.mem = s.mem := by
  simp [State.settleTab]

@[simp] theorem State.dueIssue_mem (s : State) (n port : Nat) : (s.dueIssue n port).2.mem = s.mem := by
  unfold State.dueIssue
  dsimp only
  (repeat' split) <;> simp

@[simp] theorem State.dueIssues_mem (s : State) : s.dueIssues.2.mem = s.mem := by
  unfold State.dueIssues
  exact State.foldl_snd_mem (fun r p => by simp) _ _

end Sys2Proof.Machine
end

section
/-! SUPPORT. What keeps the memory in its canonical form (`Memory.wf`): one lemma for each operation that can come to a write. The writes
all end in `State.landPiece`; every other proof unfolds one operation and goes by the lemmas of the operations that it calls, and an
operation that is given what to do keeps the form where that does. -/

namespace Sys2Proof.Machine

/-! ### Folds, choices, pairs and outcomes -/

@[simp] theorem Memory.wf_ite (p : Prop) [Decidable p] (m n : Memory) : (if p then m else n).wf = if p then m.wf else n.wf := by
  split <;> rfl

theorem State.ite_wf {p : Prop} [Decidable p] {s t : State} (hs : s.mem.wf = true) (ht : t.mem.wf = true) :
    (if p then s else t).mem.wf = true := by
  split
  · exact hs
  · exact ht

@[simp] theorem State.foldl_wf {α : Type} {f : State → α → State} (h : ∀ s a, s.mem.wf = true → (f s a).mem.wf = true) {s : State}
    (hs : s.mem.wf = true) (l : List α) : (l.foldl f s).mem.wf = true := by
  induction l generalizing s with
  | nil => exact hs
  | cons a l ih => exact ih (h s a hs)

/-- The state of a pair is the state of what the pair is matched with. -/
theorem State.wf_of_eq {α : Type} {p : α × State} {a : α} {t : State} (hp : p.2.mem.wf = true) (h : p = (a, t)) : t.mem.wf = true := by
  subst h; exact hp

/-- Memory is canonical in the state of a pair. A predicate of its own, so that two such pairs are compared without being evaluated. -/
def PairWf {α : Type} (p : α × State) : Prop := p.2.mem.wf = true

theorem PairWf.mk {α : Type} (a : α) {t : State} (h : t.mem.wf = true) : PairWf (a, t) := h

theorem PairWf.foldl {α β : Type} {f : β × State → α → β × State} (h : ∀ p a, PairWf p → PairWf (f p a))
    {p : β × State} (hp : PairWf p) (l : List α) : PairWf (l.foldl f p) := by
  induction l generalizing p with
  | nil => exact hp
  | cons a l ih => exact ih (h p a hp)

/-- Where an outcome is a next state, that state's memory is canonical. -/
structure NextWf (o : Host.Outcome State Fault Refusal) : Prop where
  wf : ∀ t, o = .next t → t.mem.wf = true

@[simp] theorem nextWf_next (s : State) : NextWf (.next s) ↔ s.mem.wf = true :=
  ⟨fun h => h.wf s rfl, fun h => ⟨fun t e => by cases e; exact h⟩⟩

@[simp] theorem nextWf_fault (f : Fault) : NextWf (.fault f) := ⟨fun _ e => by cases e⟩

@[simp] theorem nextWf_refused (f : Refusal) : NextWf (.refused f) := ⟨fun _ e => by cases e⟩

/-! ### The named operations, filing and the causes -/

@[simp] theorem onCohort_wf {s : State} {f : Cohort → State → State} (h : ∀ c s, s.mem.wf = true → (f c s).mem.wf = true)
    (hs : s.mem.wf = true) : NextWf (onCohort s f) := by
  unfold onCohort
  split
  · exact (nextWf_next _).2 (h _ _ hs)
  · simp

/-! ### Memory, tokens and translation caches -/

/-- The one place where the machine writes its memory: a piece of a write inside one sector. -/
@[simp] theorem State.landPiece_wf {s : State} {a : Nat} {bs : List Byte} {w : Option Writer} (hs : s.mem.wf = true) :
    (s.landPiece a bs w).mem.wf = true := by
  unfold State.landPiece
  dsimp only
  split <;> split
  · simp [hs]
  · rw [State.injectAt_mem, State.tagBlock_mem]
    exact Memory.writeBytes_wf _ _ (by simp [hs])
  · simp [hs]
  · rw [State.injectAt_mem, State.tagBlock_mem]
    exact Memory.writeBytes_wf _ _ (by simp [hs])

@[simp] theorem State.landBytes_wf {s : State} {a : Nat} {bs : List Byte} {w : Option Writer} (hs : s.mem.wf = true) :
    (s.landBytes a bs w).mem.wf = true := by
  simp +contextual [State.landBytes, hs]

@[simp] theorem State.landDie_wf {s : State} {w : DieWrite} (hs : s.mem.wf = true) : (s.landDie w).mem.wf = true := by
  unfold State.landDie
  dsimp only
  split
  · simp [hs]
  · split
    · split
      · (repeat' split) <;> simp [hs]
      · exact hs
    · split <;> next e => simp [State.wf_of_eq (by simp [hs]) e]

@[simp] theorem State.flushDies_wf {s : State} {p : DieWrite → Bool} (hs : s.mem.wf = true) : (s.flushDies p).mem.wf = true := by
  simp +contextual [State.flushDies, hs]

@[simp] theorem State.flushUnits_wf {s : State} {a n : Nat} (hs : s.mem.wf = true) : (s.flushUnits a n).mem.wf = true := by
  simp [State.flushUnits, hs]

@[simp] theorem State.countWrite_wf {s : State} {a : Nat} {w : Writer} (hs : s.mem.wf = true) : (s.countWrite a w).mem.wf = true := by
  simp [State.countWrite, hs]

@[simp] theorem State.land_wf {s : State} {a : Nat} {bs : List Byte} {w : Writer} {watch : Bool} (hs : s.mem.wf = true) :
    (s.land a bs w watch).mem.wf = true := by
  simp [State.land, hs]

@[simp] theorem State.landHalf_wf {s : State} {h : Half} (hs : s.mem.wf = true) : (s.landHalf h).mem.wf = true := by
  unfold State.landHalf
  dsimp only
  split
  · simp [hs]
  · split
    · split
      · (repeat' split) <;> simp [hs]
      · exact hs
    · split <;> next e => simp [State.wf_of_eq (by simp [hs]) e]

@[simp] theorem State.flushHalves_wf {s : State} {p : Half → Bool} (hs : s.mem.wf = true) : (s.flushHalves p).mem.wf = true := by
  simp +contextual [State.flushHalves, hs]

@[simp] theorem State.performHalf_wf {s : State} {req tid a e : Nat} {w : Writer} {eff : Option (Nat × MemEff)}
    {ret : Option (Nat × Nat)} {watch : Bool} (hs : s.mem.wf = true) : (s.performHalf req tid a e w eff ret watch).mem.wf = true := by
  unfold State.performHalf
  grind [State.drawNat_mem, State.flushUnits_wf, State.countWrite_wf, State.flushHalves_wf, State.post_mem, State.landHalf_wf,
    State.modCoh_mem]

@[simp] theorem State.landEntry_wf {s : State} {q : QEntry} (hs : s.mem.wf = true) : (s.landEntry q).mem.wf = true := by
  unfold State.landEntry
  dsimp only
  split
  · simp [hs]
  · split
    · next e => simp [State.wf_of_eq (by simp [hs]) e]
    · next t e =>
      have ht : t.mem.wf = true := State.wf_of_eq (by simp [hs]) e
      have hf := State.flushHalves_wf (p := fun h => overlap q.pa q.eff.bytes.length h.pa 2)
        (State.flushUnits_wf (a := q.pa) (n := q.eff.bytes.length) ht)
      rw [State.noteWrite_mem]
      split
      · exact State.performHalf_wf hf
      · exact State.land_wf hf
      · exact hf

@[simp] theorem State.applyEntry_wf {fuel : Nat} {q : QEntry} {s : State} (hs : s.mem.wf = true) :
    (State.applyEntry fuel q s).mem.wf = true := by
  induction fuel generalizing q s with
  | zero => exact hs
  | succ fuel ih =>
    simp only [State.applyEntry]
    split
    · simp [hs]
    · refine State.landEntry_wf (State.foldl_wf (fun s r hs => ?_) ?_ _)
      · split
        · exact ih hs
        · exact hs
      · split <;> simp [hs]

@[simp] theorem State.applyEntries_wf {s : State} {qs : List QEntry} (hs : s.mem.wf = true) : (s.applyEntries qs).mem.wf = true := by
  simp +contextual [State.applyEntries, hs]

@[simp] theorem State.spill_wf {s : State} {agent : Nat} {p : TlbEntry → Bool} (hs : s.mem.wf = true) :
    (s.spill agent p).mem.wf = true := by
  simp [State.spill, hs]

@[simp] theorem State.complete_wf {s : State} {secs : List Nat} (hs : s.mem.wf = true) : (s.complete secs).mem.wf = true := by
  unfold State.complete
  dsimp only
  split
  · exact hs
  · exact State.foldl_wf (fun s a hs => State.spill_wf hs) (State.flushHalves_wf (State.flushDies_wf hs)) _

@[simp] theorem State.firstInLine_wf {s : State} {a n : Nat} (hs : s.mem.wf = true) : (s.firstInLine a n).mem.wf = true :=
  State.flushHalves_wf (State.flushUnits_wf (State.complete_wf hs))

@[simp] theorem State.perform_wf {s : State} {a : Nat} {bs : List Byte} {w : Writer} {watch : Bool} (hs : s.mem.wf = true) :
    (s.perform a bs w watch).mem.wf = true := by
  simp [State.perform, hs]

@[simp] theorem State.performAtom_wf {s : State} {a n : Nat} {op : AtomOp} {cls e : Nat} {w : Writer} {watch : Bool}
    (hs : s.mem.wf = true) : (s.performAtom a n op cls e w watch).mem.wf = true := by
  simp [State.performAtom, hs]

@[simp] theorem State.performPair_wf {s : State} {req tid a e : Nat} {w : Writer} {eff : Option (Nat × MemEff)}
    {ret : Option (Nat × Nat)} {watch : Bool} (hs : s.mem.wf = true) : (s.performPair req tid a e w eff ret watch).mem.wf = true := by
  simp [State.performPair, hs]

@[simp] theorem State.ownBlock_wf {s : State} {b : Nat} (hs : s.mem.wf = true) : (s.ownBlock b).mem.wf = true := by
  simp [State.ownBlock, hs]

@[simp] theorem State.writeBack_wf {s : State} {b : Nat} (hs : s.mem.wf = true) : (s.writeBack b).mem.wf = true := by
  unfold State.writeBack
  dsimp only
  split
  · simp [hs]
  · split <;> next e => simp [State.wf_of_eq (by simp [hs]) e]

@[simp] theorem State.quarantineWay_wf {s : State} {a : Nat} (hs : s.mem.wf = true) : (s.quarantineWay a).mem.wf = true := by
  simp [State.quarantineWay, hs]

@[simp] theorem State.gatherDie_wf {s : State} {die sec : Nat} (hs : s.mem.wf = true) : (s.gatherDie die sec).mem.wf = true := by
  simp [State.gatherDie, hs]

@[simp] theorem State.performOnDie_wf {s : State} {core : Nat} {e : MemEff} {a : Nat} {watch : Bool} (hs : s.mem.wf = true) :
    (s.performOnDie core e a watch).mem.wf = true := by
  have hg : ∀ secs : List Nat, (secs.foldl (fun s sec => s.gatherDie (dieOf core) sec)
      (s.flushHalves fun h => overlap a e.bytes.length h.pa 2)).mem.wf = true :=
    State.foldl_wf (fun s sec hs => State.gatherDie_wf hs) (State.flushHalves_wf hs)
  unfold State.performOnDie
  dsimp only
  split
  · simp [hs]
  · split <;> split <;> simp [hg]

@[simp] theorem State.grantSec_wf {s : State} {sec agent : Nat} (hs : s.mem.wf = true) : (s.grantSec sec agent).mem.wf = true := by
  unfold State.grantSec
  dsimp only
  (repeat' split) <;> simp [hs]

@[simp] theorem State.grant_wf {s : State} {sec agent : Nat} (hs : s.mem.wf = true) : (s.grant sec agent).mem.wf = true := by
  simp +contextual [State.grant, hs]

@[simp] theorem State.sendEvict_wf {s : State} {sec agent : Nat} (hs : s.mem.wf = true) : (s.sendEvict sec agent).mem.wf = true := by
  simp [State.sendEvict, hs]

@[simp] theorem State.trimCache_wf {s : State} {agent sets cap sec : Nat} {desc : Bool} (hs : s.mem.wf = true) :
    (s.trimCache agent sets cap sec desc).mem.wf = true := by
  simp +contextual [State.trimCache, hs]

@[simp] theorem State.grantL1_wf {s : State} {core key n : Nat} (hs : s.mem.wf = true) : (s.grantL1 core key n).mem.wf = true := by
  unfold State.grantL1
  dsimp only
  split
  · exact hs
  · exact State.trimCache_wf (State.foldl_wf (fun s sec hs => State.grant_wf hs) hs _)

@[simp] theorem State.grantIc_wf {s : State} {core key n : Nat} {desc : Bool} (hs : s.mem.wf = true) :
    (s.grantIc core key n desc).mem.wf = true := by
  have hg := State.foldl_wf (f := fun s sec => s.grant sec (icAgent core)) (fun s sec hs => State.grant_wf hs) hs (sectorsOf key n)
  unfold State.grantIc
  dsimp only
  split <;> exact State.trimCache_wf hg

@[simp] theorem State.readPte_wf {s : State} {agent sec : Nat} (hs : s.mem.wf = true) : (s.readPte agent sec).mem.wf = true := by
  simp (disch := (intros; simp [*])) [State.readPte, hs]

@[simp] theorem State.noteEntry_wf {s : State} {e : TlbEntry} (hs : s.mem.wf = true) : (s.noteEntry e).mem.wf = true := by
  simp [State.noteEntry, hs]

@[simp] theorem State.noteWalk_wf {s : State} {agent ctx : Nat} {ptroot : Dword} {va from' : Nat} {as : List Nat} {r : Tr}
    (hs : s.mem.wf = true) : (s.noteWalk agent ctx ptroot va from' as r).mem.wf = true := by
  unfold State.noteWalk
  split
  · exact State.foldl_wf (fun s e hs => State.noteEntry_wf hs) hs _
  · exact hs

@[simp] theorem State.walkFor_wf {s : State} {agent ctx : Nat} {ptroot : Dword} {priv : Bool} {va : Nat} {acc : Acc}
    (hs : s.mem.wf = true) : (s.walkFor agent ctx ptroot priv va acc).2.mem.wf = true := by
  have hr : ∀ as : List Nat, (as.foldl (fun s a => s.readPte agent (sectorOf a)) s).mem.wf = true :=
    State.foldl_wf (fun s a hs => State.readPte_wf hs) hs
  unfold State.walkFor
  dsimp only
  split <;> simp [hr]

@[simp] theorem State.translate_wf {s : State} {agent ctx : Nat} {ptroot : Dword} {priv : Bool} {va : Nat} {acc : Acc}
    {slot : Option Nat} (hs : s.mem.wf = true) : (s.translate agent ctx ptroot priv va acc slot).2.mem.wf = true := by
  unfold State.translate
  dsimp only
  (repeat' split) <;> simp [hs]

@[simp] theorem State.forget_wf {s : State} {agent : Nat} {p : TlbEntry → Bool} (hs : s.mem.wf = true) :
    (s.forget agent p).mem.wf = true := by
  simp [State.forget, hs]

@[simp] theorem State.forgetAll_wf {s : State} {p : TlbEntry → Bool} (hs : s.mem.wf = true) : (s.forgetAll p).mem.wf = true := by
  simp +contextual [State.forgetAll, hs]

@[simp] theorem State.dropRoot_wf {s : State} {ctx : Nat} {ptroot : Dword} (hs : s.mem.wf = true) :
    (s.dropRoot ctx ptroot).mem.wf = true := by
  simp [State.dropRoot, hs]

@[simp] theorem State.dropHost_wf {s : State} {sec : Nat} (hs : s.mem.wf = true) : (s.dropHost sec).mem.wf = true := by
  simp [State.dropHost, hs]

/-! ### Operands and issue -/

/-- An instruction's issue keeps the form where its meaning does. -/
@[simp] theorem State.issue_wf {s : State} {c : Cohort} {i : Instr} {p : Pred} {stall : BitVec 4} {f : State → List Lane → State}
    (hf : ∀ s lanes, s.mem.wf = true → (f s lanes).mem.wf = true) (hs : s.mem.wf = true) : (s.issue c i p stall f).mem.wf = true := by
  unfold State.issue
  dsimp only
  split
  · simp [hs]
  · split <;> simp [hs, hf]

@[simp] theorem State.issueAlu_wf {s : State} {c : Cohort} {o : AluOp} {x : Alu} {f : List ExLane → List Out} (hs : s.mem.wf = true) :
    (s.issueAlu c o x f).mem.wf = true := by
  unfold State.issueAlu
  grind [State.stallConduit_mem, State.issue_wf, State.operands_mem, State.writeDst_mem, State.putP_mem, State.foldl_wf]

@[simp] theorem State.issueLanes_wf {s : State} {c : Cohort} {o : AluOp} {x : Alu} {f : ExLane → Nat} (hs : s.mem.wf = true) :
    (s.issueLanes c o x f).mem.wf = true :=
  State.issueAlu_wf hs

/-! ### Accesses of threads -/

@[simp] theorem State.reach_wf {s : State} {c : Cohort} {lane : Nat} {va : Nat} {acc : Acc} (hs : s.mem.wf = true) :
    (s.reach c lane va acc).2.mem.wf = true := by
  simp [State.reach, hs]

@[simp] theorem State.doEff_wf {s : State} {core : Nat} {e : MemEff} {key : Nat} {watch : Bool} (hs : s.mem.wf = true) :
    (s.doEff core e key watch).mem.wf = true := by
  unfold State.doEff
  split <;> simp [hs]

@[simp] theorem State.sendEff_wf {s : State} {core : Nat} {e : MemEff} {key : Nat} {watch : Bool} (hs : s.mem.wf = true) :
    (s.sendEff core e key watch).mem.wf = true := by
  simp [State.sendEff, hs]

@[simp] theorem State.flushQuantum_wf {s : State} {core : Nat} (hs : s.mem.wf = true) : (s.flushQuantum core).mem.wf = true := by
  simp [State.flushQuantum, hs]

@[simp] theorem State.releaseFlush_wf {s : State} {core : Nat} {scope : Scope} (hs : s.mem.wf = true) :
    (s.releaseFlush core scope).mem.wf = true := by
  simp (disch := (intros; simp [*])) [State.releaseFlush]

@[simp] theorem State.scFlush_wf {s : State} (hs : s.mem.wf = true) : s.scFlush.mem.wf = true := by
  simp [State.scFlush, hs]

@[simp] theorem State.orderFlush_wf {s : State} {core : Nat} {order : Order} {scope : Scope} (hs : s.mem.wf = true) :
    (s.orderFlush core order scope).mem.wf = true := by
  simp [State.orderFlush, hs]

@[simp] theorem State.pushQuantum_wf {s : State} {core : Nat} {e : MemEff} {key : Nat} {watch : Bool} (hs : s.mem.wf = true) :
    (s.pushQuantum core e key watch).mem.wf = true := by
  simp [State.pushQuantum, hs]

/-! ### Global memory -/

@[simp] theorem State.flushNamed_wf {s : State} {core key n : Nat} (hs : s.mem.wf = true) : (s.flushNamed core key n).mem.wf = true := by
  simp [State.flushNamed, hs]

@[simp] theorem State.flushFor_wf {s : State} {c : Cohort} {x : Mem} {n : Nat} {acc : Acc} {lanes : List Lane} (hs : s.mem.wf = true) :
    (s.flushFor c x n acc lanes).mem.wf = true := by
  exact State.foldl_wf (fun s e hs => by (repeat' split) <;> simp [hs]) hs _

@[simp] theorem State.fenceFirst_wf {s : State} {c : Cohort} {order : Order} {scope : Scope} (hs : s.mem.wf = true) :
    (s.fenceFirst c order scope).mem.wf = true := by
  simp [State.fenceFirst, hs]

@[simp] theorem State.withEA_wf {s : State} {c : Cohort} {x : Mem} {n : Nat} {l : Lane} {f : State → Nat → State}
    (hf : ∀ s va, s.mem.wf = true → (f s va).mem.wf = true) (hs : s.mem.wf = true) : (s.withEA c x n l f).mem.wf = true := by
  unfold State.withEA
  (repeat' split) <;> simp [hs, hf]

@[simp] theorem State.reachLanes_wf {s : State} {c : Cohort} {x : Mem} {n : Nat} {acc : Acc} {ls : List Lane} (hs : s.mem.wf = true) :
    (s.reachLanes c x n acc ls).2.mem.wf = true := by
  induction ls generalizing s with
  | nil => exact hs
  | cons l ls ih =>
    simp only [State.reachLanes]
    split
    · exact ih hs
    · split
      · exact ih hs
      · exact ih (State.reach_wf hs)

@[simp] theorem State.touchLoad_wf {s : State} {c : Cohort} {n : Nat} {r : Reach} (hs : s.mem.wf = true) :
    (s.touchLoad c n r).mem.wf = true := by
  unfold State.touchLoad
  split <;> simp [hs]

@[simp] theorem State.ownHalves_wf {s : State} {tid key n : Nat} (hs : s.mem.wf = true) : (s.ownHalves tid key n).mem.wf = true := by
  simp [State.ownHalves, hs]

@[simp] theorem State.loadLanes_wf {s : State} {c : Cohort} {first : Nat} {x : Mem} {lanes : List Lane} (hs : s.mem.wf = true) :
    (s.loadLanes c first x lanes).mem.wf = true := by
  unfold State.loadLanes
  dsimp only
  refine State.foldl_wf (fun s l hs => State.withEA_wf (fun s va hs => ?_) hs) (State.foldl_wf (fun s q hs => ?_)
    (State.foldl_wf (fun s q hs => State.touchLoad_wf hs) (State.reachLanes_wf hs) _) _) _
  · split <;> simp [hs]
  · split <;> simp [hs]

@[simp] theorem execLd_wf {x : Mem} {s : State} (hs : s.mem.wf = true) : NextWf (execLd x s) := by
  refine onCohort_wf (fun c s hs => ?_) hs
  grind [State.flushFor_wf, State.holdFor_mem, State.flushQuantum_wf, State.hold_mem, State.issue_wf, State.fenceFirst_wf,
    State.loadLanes_wf, State.splitGroups_mem, State.urge_mem, State.foldl_wf]

@[simp] theorem execLdSplitGroup_wf {cid : Nat} {lanes : List Nat} {s : State} (hs : s.mem.wf = true) :
    NextWf (execLdSplitGroup cid lanes s) := by
  unfold execLdSplitGroup
  rw [nextWf_next]
  split
  · exact hs
  · refine State.ite_wf hs ?_
    rw [State.setCohort_mem, State.setCohort_mem, State.modCrew_mem]
    refine State.foldl_wf (fun s l hs => ?_) ?_ _
    · rwa [State.modThread_mem]
    · exact hs

@[simp] theorem State.kldLanes_wf {s : State} {c : Cohort} {x : Mem} {low : Lane} {lanes : List Lane} (hs : s.mem.wf = true) :
    (s.kldLanes c x low lanes).mem.wf = true := by
  unfold State.kldLanes
  grind [State.raiseIn_mem, State.reach_wf, State.flushNamed_wf, State.readRemote_mem, State.ownHalves_wf, State.readHome_mem,
    State.consumeAll_mem, State.grantIc_wf, State.noteRead_mem, State.putLoad_mem, State.parkPage_mem, State.holdThread_mem,
    State.foldl_wf]

@[simp] theorem execKld_wf {x : Mem} {s : State} (hs : s.mem.wf = true) : NextWf (execKld x s) := by
  refine onCohort_wf (fun c s hs => ?_) hs
  split
  · simp (disch := (intros; simp [*]))
  · dsimp only
    split <;> simp (disch := (intros; simp [*]))

@[simp] theorem State.inBudget_wf {s : State} {c : Cohort} {l : Lane} {f : State → State}
    (hf : ∀ s, s.mem.wf = true → (f s).mem.wf = true) (hs : s.mem.wf = true) : (s.inBudget c l f).mem.wf = true := by
  unfold State.inBudget
  split <;> simp [hs, hf]

@[simp] theorem State.logOrPark_wf {s : State} {c : Cohort} {l : Lane} {e : MemEff} {f : State → State}
    (hf : ∀ s, s.mem.wf = true → (f s).mem.wf = true) (hs : s.mem.wf = true) : (s.logOrPark c l e f).mem.wf = true := by
  unfold State.logOrPark
  split <;> simp [hs, hf]

@[simp] theorem State.doNow_wf {s : State} {c : Cohort} {e : MemEff} {key : Nat} {watch : Bool} (hs : s.mem.wf = true) :
    (s.doNow c e key watch).mem.wf = true := by
  unfold State.doNow
  simp [hs]
  (repeat' split) <;> simp [hs]

@[simp] theorem State.writeNow_wf {s : State} {c : Cohort} {l : Lane} {e : MemEff} {acc : Acc} (hs : s.mem.wf = true) :
    (s.writeNow c l e acc).mem.wf = true := by
  unfold State.writeNow
  grind [State.logOrPark_wf, State.logBehind_mem, State.reach_wf, State.raiseIn_mem, State.sendRemote_mem, State.await_mem,
    State.sendHome_mem, State.mergeCheck_mem, State.detect_mem, State.log_mem, State.park_mem, State.doNow_wf, State.holdThread_mem]

@[simp] theorem State.writeLater_wf {s : State} {c : Cohort} {l : Lane} {e : MemEff} {acc : Acc} (hs : s.mem.wf = true) :
    (s.writeLater c l e acc).mem.wf = true := by
  unfold State.writeLater
  dsimp only
  split <;> simp [hs]

/-- The issue of a memory instruction keeps the form where its meaning in each lane does. -/
@[simp] theorem State.issueMem_wf {s : State} {c : Cohort} {i : Instr} {x : Mem} {n : Nat} {acc : Acc} {f : State → Lane → State}
    (hf : ∀ s l, s.mem.wf = true → (f s l).mem.wf = true) (hs : s.mem.wf = true) : (s.issueMem c i x n acc f).mem.wf = true := by
  unfold State.issueMem
  refine State.ite_wf (by simp [hs]) (State.ite_wf (by simp [hs]) (State.issue_wf (fun s lanes hs => State.foldl_wf hf ?_ _) ?_)) <;>
    split <;> simp [hs]

@[simp] theorem State.storeLane_wf {s : State} {c : Cohort} {x : Mem} {l : Lane} (hs : s.mem.wf = true) :
    (s.storeLane c x l).mem.wf = true := by
  unfold State.storeLane
  grind [State.inBudget_wf, State.withEA_wf, State.writeNow_wf, State.writeLater_wf]

@[simp] theorem State.atomHalves_wf {s : State} {c : Cohort} {l : Lane} {key : Nat} {e : MemEff} {d : BitVec 8} {watch : Bool}
    (hs : s.mem.wf = true) : (s.atomHalves c l key e d watch).mem.wf = true := by
  simp [State.atomHalves, hs]

@[simp] theorem State.atomReturn_wf {s : State} {c : Cohort} {l : Lane} {va n : Nat} {e : MemEff} {cmp : List Byte} {d : BitVec 8}
    (hs : s.mem.wf = true) : (s.atomReturn c l va n e cmp d).mem.wf = true := by
  unfold State.atomReturn
  grind [State.reach_wf, State.flushNamed_wf, State.atomRemote_mem, State.readHome_mem, State.consume_mem, State.atomHalves_wf,
    State.firstInLine_wf, State.putOld_mem, State.doEff_wf, State.noteRead_mem, State.holdThread_mem]

@[simp] theorem State.atomSpec_wf {s : State} {c : Cohort} {l : Lane} {va n : Nat} {e : MemEff} {cmp : List Byte} {d : BitVec 8}
    (hs : s.mem.wf = true) : (s.atomSpec c l va n e cmp d).mem.wf = true := by
  unfold State.atomSpec
  grind [State.reach_wf, State.raiseIn_mem, State.readHome_mem, State.flushNamed_wf, State.consume_mem, State.flushHalves_wf,
    State.flushDies_wf, State.modLane_mem, State.putOld_mem, State.noteRead_mem, State.holdThread_mem]

@[simp] theorem State.atomLane_wf {s : State} {c : Cohort} {x : Mem} {op : AtomOp} {cls : BitVec 2} {l : Lane} (hs : s.mem.wf = true) :
    (s.atomLane c x op cls l).mem.wf = true := by
  unfold State.atomLane
  grind [State.inBudget_wf, State.withEA_wf, State.atomSpec_wf, State.atomReturn_wf, State.writeNow_wf, State.writeLater_wf]

@[simp] theorem execAtom_wf {x : Mem} {op : AtomOp} {cls : BitVec 2} {s : State} (hs : s.mem.wf = true) :
    NextWf (execAtom x op cls s) := by
  refine onCohort_wf (fun c s hs => ?_) hs
  grind [State.hold_mem, State.issueMem_wf, State.atomLane_wf]

@[simp] theorem State.casLane_wf {s : State} {c : Cohort} {x : Mem} {l : Lane} (hs : s.mem.wf = true) :
    (s.casLane c x l).mem.wf = true := by
  unfold State.casLane
  grind [State.inBudget_wf, State.withEA_wf, State.atomSpec_wf, State.atomReturn_wf]

@[simp] theorem State.readAgain_wf {s : State} {c : Cohort} {first : Nat} {r : Remote} {e : MemEff} {l : Lane} {va d : Nat}
    {w : Width} (hs : s.mem.wf = true) : (s.readAgain c first r e l va d w).mem.wf = true := by
  unfold State.readAgain
  dsimp only
  (repeat' split) <;> simp (disch := (intros; simp [*]))

@[simp] theorem State.reissue_wf {s : State} {id : Nat} (hs : s.mem.wf = true) : (s.reissue id).mem.wf = true := by
  unfold State.reissue
  dsimp only
  split
  · split
    · exact hs
    · split
      · exact State.foldl_wf (fun s q hs => by (repeat' split) <;> simp [hs]) (by simp [hs]) _
      · split
        · simp [hs]
        · split
          · split <;> simp [hs]
          · split <;> simp [hs]
          · simp [hs]
          · simp [hs]
      · simp [hs]
  · exact hs

@[simp] theorem State.reachHome_wf {s : State} {id : Nat} (hs : s.mem.wf = true) : (s.reachHome id).mem.wf = true := by
  unfold State.reachHome
  grind [State.defer_mem, State.post_mem, State.modCoh_mem, State.mergeCheck_mem, State.detect_mem, State.modCohort_mem, State.perform_wf,
    State.doEff_wf]

@[simp] theorem State.prefetchLane_wf {s : State} {c : Cohort} {x : Mem} {l : Lane} (hs : s.mem.wf = true) :
    (s.prefetchLane c x l).mem.wf = true := by
  unfold State.prefetchLane
  dsimp only
  (repeat' split) <;> simp [hs]

@[simp] theorem execPfetch_wf {x : Mem} {s : State} (hs : s.mem.wf = true) : NextWf (execPfetch x s) := by
  refine onCohort_wf (fun c s hs => ?_) hs
  grind [State.holdFor_mem, State.issue_wf, State.prefetchLane_wf, State.foldl_wf]

@[simp] theorem execFence_wf {x : Mem} {s : State} (hs : s.mem.wf = true) : NextWf (execFence x s) := by
  refine onCohort_wf (fun c s hs => ?_) hs
  grind [State.flushQuantum_wf, State.hold_mem, State.issue_wf, State.flushDies_wf, State.settleK_mem, State.orderFlush_wf]

/-! ### Coherence messages -/

@[simp] theorem State.grantReq_wf {s : State} {sec : Nat} {r : TokReq} (hs : s.mem.wf = true) : (s.grantReq sec r).mem.wf = true := by
  unfold State.grantReq
  have hp : (if r.persistent then s.post (.hw (.persdone r.agent sec)) else s).mem.wf = true := State.ite_wf (by rwa [State.post_mem]) hs
  generalize (if r.persistent then s.post (.hw (.persdone r.agent sec)) else s) = t at hp ⊢
  extract_lets _ u v gathered w u' y
  have hv : v.mem.wf = true := by rwa [State.setUnit_mem]
  have hw : w.mem.wf = true := by
    refine State.ite_wf (State.grant_wf hv) (State.ite_wf (State.foldl_wf (fun s k hs => State.gatherDie_wf hs)
      (State.complete_wf hv) _) ?_)
    exact State.flushDies_wf (by rw [State.gather_mem]; exact State.complete_wf hv)
  have hy : y.mem.wf = true := by rwa [State.setUnit_mem]
  refine State.ite_wf hy (State.ite_wf (State.trimCache_wf hy) (State.ite_wf (State.trimCache_wf hy) (State.ite_wf ?_ hy)))
  rwa [State.trimL2_mem]

@[simp] theorem State.serveQueue_wf {s : State} {sec n : Nat} (hs : s.mem.wf = true) : (s.serveQueue sec n).mem.wf = true := by
  induction n generalizing s with
  | zero => exact hs
  | succ n ih =>
    simp only [State.serveQueue]
    (repeat' split) <;> simp [hs, ih]

@[simp] theorem State.satisfy_wf {s : State} {sec : Nat} {r : TokReq} (hs : s.mem.wf = true) : (s.satisfy sec r).mem.wf = true := by
  simp [State.satisfy, hs]

@[simp] theorem State.failReq_wf {s : State} {sec : Nat} {r : TokReq} (hs : s.mem.wf = true) : (s.failReq sec r).mem.wf = true := by
  simp [State.failReq, hs]

@[simp] theorem State.settleReq_wf {s : State} {sec : Nat} (hs : s.mem.wf = true) : (s.settleReq sec).mem.wf = true := by
  unfold State.settleReq
  split <;> simp [hs]

@[simp] theorem State.request_wf {s : State} {sec agent need : Nat} {again : Turn} (hs : s.mem.wf = true) :
    (s.request sec agent need again).mem.wf = true := by
  simp [State.request, hs]

@[simp] theorem execRdtok_wf {agent sec : Nat} {s : State} (hs : s.mem.wf = true) : NextWf (execRdtok agent sec s) := by
  unfold execRdtok
  split <;> simp [hs]

@[simp] theorem execWrdie_wf {die sec : Nat} {s : State} (hs : s.mem.wf = true) : NextWf (execWrdie die sec s) := by
  simp [execWrdie, hs]

@[simp] theorem execWrall_wf {die sec : Nat} {s : State} (hs : s.mem.wf = true) : NextWf (execWrall die sec s) := by
  simp [execWrall, hs]

@[simp] theorem execAtomMessage_wf {r : AtomReq} {s : State} (hs : s.mem.wf = true) : NextWf (execAtomMessage r s) := by
  unfold execAtomMessage
  grind [nextWf_next, State.refuseAtom_mem, State.defer_mem, State.mergeCheck_mem, State.detect_mem, State.newReq_mem,
    State.performPair_wf, State.performAtom_wf, State.foldl_wf]

@[simp] theorem State.comeHome_wf {s : State} {sec agent : Nat} (hs : s.mem.wf = true) : (s.comeHome sec agent).mem.wf = true := by
  simp [State.comeHome, hs]

@[simp] theorem State.sendHomeward_wf {s : State} {sec agent n : Nat} (hs : s.mem.wf = true) :
    (s.sendHomeward sec agent n).mem.wf = true := by
  simp [State.sendHomeward, hs]

@[simp] theorem execProbe_wf {sec target : Nat} {one : Bool} {s : State} (hs : s.mem.wf = true) :
    NextWf (execProbe sec target one s) := by
  unfold execProbe
  split
  · simp [hs]
  · extract_lets owned t u answers owner give leaving v w unit n own held x
    have ht : t.mem.wf = true := State.ite_wf (by simp [hs]) hs
    have hu : u.mem.wf = true := State.ite_wf (State.complete_wf ht) ht
    have hv : v.mem.wf = true := by simp [v, hu]
    have hw : w.mem.wf = true := by
      simp only [w]
      exact State.foldl_wf (fun s k hs => State.foldl_wf (fun s g hs => by split <;> simp [hs]) hs _) hv _
    split
    · simp [hu]
    · simp [x, hw]

@[simp] theorem execAck_wf {sec _source tokens : Nat} {owner : Bool} {s : State} (hs : s.mem.wf = true) :
    NextWf (execAck sec _source tokens owner s) := by
  simp [execAck, hs]

@[simp] theorem State.nullReply_wf {s : State} {sec target : Nat} (hs : s.mem.wf = true) : (s.nullReply sec target).mem.wf = true := by
  simp [State.nullReply, hs]

@[simp] theorem execNullack_wf {sec source : Nat} {s : State} (hs : s.mem.wf = true) : NextWf (execNullack sec source s) := by
  simp [execNullack, hs]

@[simp] theorem execClusterResponderNullack_wf {sec cluster : Nat} {s : State} (hs : s.mem.wf = true) :
    NextWf (execClusterResponderNullack sec cluster s) := by
  simp [execClusterResponderNullack, hs]

@[simp] theorem State.evictArrives_wf {s : State} {sec agent : Nat} {e : Nat × Nat × Bool} (hs : s.mem.wf = true) :
    (s.evictArrives sec agent e).mem.wf = true := by
  unfold State.evictArrives
  split <;> simp [hs]

@[simp] theorem execEvict_wf {sec agent : Nat} {s : State} (hs : s.mem.wf = true) : NextWf (execEvict sec agent s) := by
  unfold execEvict
  grind [nextWf_next, State.evictArrives_wf, State.sendEvict_wf, State.foldl_wf]

@[simp] theorem execEvictdata_wf {sec die : Nat} {s : State} (hs : s.mem.wf = true) : NextWf (execEvictdata sec die s) := by
  unfold execEvictdata
  grind [nextWf_next, State.evictArrives_wf, State.sendEvict_wf, State.foldl_wf]

@[simp] theorem State.servePers_wf {s : State} {sec : Nat} (hs : s.mem.wf = true) : (s.servePers sec).mem.wf = true := by
  unfold State.servePers
  dsimp only
  split <;> simp [hs]

@[simp] theorem execPersreq_wf {agent sec : Nat} {s : State} (hs : s.mem.wf = true) : NextWf (execPersreq agent sec s) := by
  unfold execPersreq
  dsimp only
  (repeat' split) <;> simp [hs]

@[simp] theorem execPersdone_wf {agent sec : Nat} {s : State} (hs : s.mem.wf = true) : NextWf (execPersdone agent sec s) := by
  unfold execPersdone
  dsimp only
  split <;> simp [hs]

@[simp] theorem execTokenRequestTimeout_wf {sec : Nat} {s : State} (hs : s.mem.wf = true) : NextWf (execTokenRequestTimeout sec s) := by
  unfold execTokenRequestTimeout
  dsimp only
  (repeat' split) <;> simp [hs]

@[simp] theorem execPersistentTableRetry_wf {sec : Nat} {s : State} (hs : s.mem.wf = true) : NextWf (execPersistentTableRetry sec s) := by
  unfold execPersistentTableRetry
  dsimp only
  (repeat' split) <;> simp [hs]

/-! ### The scratchpad -/

@[simp] theorem State.withSpad_wf {s : State} {c : Cohort} {x : Mem} {k n : Nat} {l : Lane} {f : State → Nat → State}
    (hf : ∀ s a, s.mem.wf = true → (f s a).mem.wf = true) (hs : s.mem.wf = true) : (s.withSpad c x k n l f).mem.wf = true := by
  unfold State.withSpad
  simp [hs, hf]

/-- The issue of a scratchpad instruction keeps the form where its meaning in each lane does. -/
@[simp] theorem State.issueSpad_wf {s : State} {c : Cohort} {i : Instr} {x : Mem} {f : State → Lane → State}
    (hf : ∀ s l, s.mem.wf = true → (f s l).mem.wf = true) (hs : s.mem.wf = true) : (s.issueSpad c i x f).mem.wf = true := by
  unfold State.issueSpad
  refine State.ite_wf (by simp [hs]) (State.issue_wf (fun s lanes hs => State.foldl_wf hf ?_ _) ?_) <;> split <;> simp [hs]

@[simp] theorem State.ldsLane_wf {s : State} {c : Cohort} {x : Mem} {l : Lane} (hs : s.mem.wf = true) :
    (s.ldsLane c x l).mem.wf = true := by
  unfold State.ldsLane
  grind [State.withSpad_wf, State.raiseStale_mem, State.noteRead_mem, State.probePart_mem, State.consume_mem, State.putLoad_mem,
    State.drawBytes_mem]

@[simp] theorem State.stsLane_wf {s : State} {c : Cohort} {x : Mem} {l : Lane} (hs : s.mem.wf = true) :
    (s.stsLane c x l).mem.wf = true := by
  unfold State.stsLane
  grind [State.inBudget_wf, State.withSpad_wf, State.noteWrite_mem, State.spadWrite_mem, State.buffer_mem]

@[simp] theorem State.atomsLane_wf {s : State} {c : Cohort} {x : Mem} {l : Lane} (hs : s.mem.wf = true) :
    (s.atomsLane c x l).mem.wf = true := by
  unfold State.atomsLane
  grind [State.inBudget_wf, State.withSpad_wf, State.buffer_mem, State.probePart_mem, State.raiseStale_mem, State.consume_mem,
    State.noteWrite_mem, State.atomsAdd_mem, State.noteRead_mem, State.putLoad_mem]

@[simp] theorem State.renewLane_wf {s : State} {c : Cohort} {x : Mem} {l : Lane} (hs : s.mem.wf = true) :
    (s.renewLane c x l).mem.wf = true := by
  simp [State.renewLane, hs]

@[simp] theorem State.armLane_wf {s : State} {c : Cohort} {x : Mem} {l : Lane} (hs : s.mem.wf = true) :
    (s.armLane c x l).mem.wf = true := by
  unfold State.armLane
  grind [State.inBudget_wf, State.withSpad_wf, State.noteWrite_mem, State.arm_mem, State.buffer_mem]

@[simp] theorem State.awaitLane_wf {s : State} {c : Cohort} {x : Mem} {l : Lane} (hs : s.mem.wf = true) :
    (s.awaitLane c x l).mem.wf = true := by
  simp [State.awaitLane, hs]

@[simp] theorem execAwait_wf {x : Mem} {s : State} (hs : s.mem.wf = true) : NextWf (execAwait x s) := by
  refine onCohort_wf (fun c s hs => ?_) hs
  grind [State.raiseIn_mem, State.advance_mem, State.awaitLane_wf, State.awaitSettle_mem, State.modCohort_mem, State.foldl_wf]

@[simp] theorem State.spageLane_wf {s : State} {c : Cohort} {x : Mem} {l : Lane} (hs : s.mem.wf = true) :
    (s.spageLane c x l).mem.wf = true := by
  simp [State.spageLane, hs]

@[simp] theorem execAwaitStale_wf {cid : Nat} {s : State} (hs : s.mem.wf = true) : NextWf (execAwaitStale cid s) := by
  simp [execAwaitStale, hs]

/-! ### Tensor entries and the accesses of operations -/

@[simp] theorem State.opReach_wf {s : State} {agent : Nat} {a : Attr} {va n : Nat} {acc : Acc} (hs : s.mem.wf = true) :
    (s.opReach agent a va n acc).2.mem.wf = true := by
  unfold State.opReach
  dsimp only
  (repeat' split) <;> simp [hs]

@[simp] theorem State.fetchMem_wf {s : State} {soft : Bool} {agent : Nat} {a : Attr} {id : Nat} {vas : List Nat} {md : Nat → Bool}
    (hs : s.mem.wf = true) : (s.fetchMem soft agent a id vas md).2.mem.wf = true := by
  unfold State.fetchMem
  grind [State.opReach_wf, State.flushDies_wf, State.inspect_mem, State.readIdle_mem, State.readHome_mem, State.grantIc_wf,
    State.putBad_mem, State.putFetched_mem, State.askOp_mem, State.foldl_wf]

@[simp] theorem State.fetchLine_wf {s : State} {soft : Bool} {agent : Nat} {a : Attr} {id : Nat} {keys : List Nat} {md : Nat → Bool}
    (hs : s.mem.wf = true) : (s.fetchLine soft agent a id keys md).2.mem.wf = true := by
  unfold State.fetchLine
  simp
  (repeat' split) <;> simp [hs]

@[simp] theorem State.storeMem_wf {s : State} {agent : Nat} {a : Attr} {id va : Nat} {bs : List Byte} (hs : s.mem.wf = true) :
    (s.storeMem agent a id va bs).2.mem.wf = true := by
  unfold State.storeMem
  grind [State.opReach_wf, State.mergeCheck_mem, State.detect_mem, State.perform_wf, State.sendRemote_mem, State.consumeOp_mem,
    State.foldl_wf]

@[simp] theorem State.storeAt_wf {s : State} {agent : Nat} {a : Attr} {id : Nat} {key : Option Nat} {bs : List Byte}
    (hs : s.mem.wf = true) : (s.storeAt agent a id key bs).2.mem.wf = true := by
  unfold State.storeAt
  simp
  (repeat' split) <;> simp [hs]

@[simp] theorem State.capture_wf {s : State} {c : Cohort} {lanes : List Lane} {h : BitVec 12} (hs : s.mem.wf = true) :
    (s.capture c lanes h).2.mem.wf = true := by
  unfold State.capture
  dsimp only
  (repeat' split) <;> simp (disch := (intros; simp [*])) [hs]

@[simp] theorem State.entryReady_wf {s : State} {c : Cohort} {h : BitVec 12} (hs : s.mem.wf = true) :
    (s.entryReady c h).2.mem.wf = true := by
  unfold State.entryReady
  dsimp only
  (repeat' split) <;> simp [hs]

@[simp] theorem State.entriesReady_wf {s : State} {c : Cohort} {es : List (BitVec 12)} (hs : s.mem.wf = true) :
    (s.entriesReady c es).2.mem.wf = true := by
  induction es generalizing s with
  | nil => exact hs
  | cons e es ih =>
    simp only [State.entriesReady]
    split
    · next e => exact ih (State.wf_of_eq (by simp [hs]) e)
    · simp [hs]

@[simp] theorem State.captures_wf {s : State} {c : Cohort} {lanes : List Lane} {es : List (BitVec 12)} (hs : s.mem.wf = true) :
    (s.captures c lanes es).2.mem.wf = true := by
  induction es generalizing s with
  | nil => exact hs
  | cons e es ih =>
    simp only [State.captures]
    split
    · next e => exact State.wf_of_eq (State.capture_wf hs) e
    · next e =>
      have ht := State.wf_of_eq (State.capture_wf hs) e
      split
      · next e => exact State.wf_of_eq (ih ht) e
      · exact ih ht

/-! ### The command processor -/

@[simp] theorem State.cpFetch_wf {s : State} {ctx n cmd va k fuel : Nat} (hs : s.mem.wf = true) :
    (s.cpFetch ctx n cmd va k fuel).2.mem.wf = true := by
  induction fuel generalizing s with
  | zero => exact hs
  | succ fuel ih =>
    simp only [State.cpFetch]
    split
    · exact hs
    · split <;> next e =>
        have ht := State.wf_of_eq (by simp [hs]) e
        (repeat' split) <;> simp [ht, ih]

@[simp] theorem State.cpRead_wf {s : State} {ctx n cmd va k : Nat} (hs : s.mem.wf = true) :
    (s.cpRead ctx n cmd va k).2.mem.wf = true := by
  unfold State.cpRead
  split <;> simp [hs]

@[simp] theorem State.cpWrite_wf {s : State} {ctx n cmd va : Nat} {bs : List Byte} (hs : s.mem.wf = true) :
    (s.cpWrite ctx n cmd va bs).2.mem.wf = true := by
  unfold State.cpWrite
  dsimp only
  split <;> next e => simp [State.wf_of_eq (by simp [hs]) e]

@[simp] theorem State.cpWatch_wf {s : State} {ctx va : Nat} (hs : s.mem.wf = true) : (s.cpWatch ctx va).2.mem.wf = true := by
  suffices PairWf (s.cpWatch ctx va) from this
  -- the constant is rewritten, not its application: the kernel would evaluate the walk to compare the two
  rw [show @State.cpWatch = _ by delta State.cpWatch; rfl]
  cases s.walk cpAgent (s.regsOf ctx).ptroot (s.privOf ctx) va .read
  case ok => exact PairWf.mk _ (by simp [hs])
  all_goals exact PairWf.mk _ hs

@[simp] theorem State.advanceHead_wf {s : State} {n : Nat} (hs : s.mem.wf = true) : (s.advanceHead n).mem.wf = true := by
  unfold State.advanceHead
  grind [State.cpWrite_wf, State.modStream_mem]

@[simp] theorem State.finishCmd_wf {s : State} {n : Nat} (hs : s.mem.wf = true) : (s.finishCmd n).mem.wf = true := by
  simp [State.finishCmd, hs]

/-! ### Integer arithmetic and lane exchange -/

@[simp] theorem execLop3_wf {x : Alu} {tt : BitVec 8} {s : State} (hs : s.mem.wf = true) : NextWf (execLop3 x tt s) := by
  simp +contextual [execLop3, hs]

@[simp] theorem State.issueImm_wf {s : State} {c : Cohort} {i : Instr} {p : Pred} {stall : BitVec 4} {d : Reg} {wide : Bool}
    {lat : Nat} {f : State → List Lane → List (Lane × Nat)} (hs : s.mem.wf = true) :
    (s.issueImm c i p stall d wide lat f).mem.wf = true := by
  simp [State.issueImm, hs]

@[simp] theorem execShfl_wf {x : Alu} {s : State} (hs : s.mem.wf = true) : NextWf (execShfl x s) := by
  refine onCohort_wf (fun c s hs => ?_) hs
  grind [State.issueAlu_wf]

/-! ### Floating point and Jewel's checks -/

@[simp] theorem State.issueChecked_wf {s : State} {c : Cohort} {o : AluOp} {x : Alu} {parts : ExLane → List Part} (hs : s.mem.wf = true) :
    (s.issueChecked c o x parts).mem.wf = true := by
  unfold State.issueChecked
  grind [State.stallConduit_mem, State.issue_wf, State.operands_mem, State.checkLanes_mem, State.writeDst_mem, State.strikeLanes_mem,
    State.urge_mem, State.modCohort_mem, State.divergence_mem, State.foldl_wf]

@[simp] theorem execJewelReexecute_wf {cid : Nat} {s : State} (hs : s.mem.wf = true) : NextWf (execJewelReexecute cid s) := by
  unfold execJewelReexecute
  dsimp only
  (repeat' split) <;> simp (disch := (intros; (repeat' split) <;> simp [*])) [hs]

/-! ### The matrix unit -/

/-- The issue of a matrix instruction keeps the form where what it captures does. -/
@[simp] theorem State.issueTile_wf {s : State} {c : Cohort} {i : Instr} {x : Mat} {full : Bool} {es : List (BitVec 12)}
    {spec : State → TileSpec × State} (hf : ∀ s, s.mem.wf = true → (spec s).2.mem.wf = true) (hs : s.mem.wf = true) :
    (s.issueTile c i x full es spec).mem.wf = true := by
  unfold State.issueTile
  split
  · simp [hs]
  · split
    · simp [hs]
    · split
      · next e => simp [State.wf_of_eq (State.entriesReady_wf hs) e]
      · next e =>
        refine State.issue_wf (fun s lanes hs => ?_) (State.wf_of_eq (State.entriesReady_wf hs) e)
        split
        · exact hs
        · split
          · next e => exact State.wf_of_eq (State.captures_wf hs) e
          · next e => simp [hf, State.wf_of_eq (State.captures_wf hs) e]

@[simp] theorem execMwait_wf {x : Mat} {s : State} (hs : s.mem.wf = true) : NextWf (execMwait x s) := by
  simp +contextual [execMwait, hs]

@[simp] theorem execMrd_wf {x : Mat} {s : State} (hs : s.mem.wf = true) : NextWf (execMrd x s) := by
  refine onCohort_wf (fun c s hs => ?_) hs
  grind [State.hold_mem, State.issue_wf, State.putLane_mem, State.foldl_wf]

@[simp] theorem execMwr_wf {x : Mat} {s : State} (hs : s.mem.wf = true) : NextWf (execMwr x s) := by
  refine onCohort_wf (fun c s hs => ?_) hs
  grind [State.hold_mem, State.issue_wf, State.setTile_mem, State.foldl_wf]

@[simp] theorem execTdesc_wf {x : Mat} {s : State} (hs : s.mem.wf = true) : NextWf (execTdesc x s) := by
  refine onCohort_wf (fun c s hs => ?_) hs
  split
  · next e => simp [State.wf_of_eq (by simp [hs]) e]
  · next e =>
    refine State.issue_wf (fun s lanes hs => ?_) (State.wf_of_eq (by simp [hs]) e)
    split
    · exact hs
    · split
      · simp [hs]
      · dsimp only
        split
        · split
          · simp [hs]
          · split
            · simp [hs]
            · split
              · next e => exact State.foldl_wf (fun s l hs => by simp [hs]) (by simp [State.wf_of_eq (by simp [hs]) e]) _
              · next e => simp [State.wf_of_eq (by simp [hs]) e]
        · simp [hs]
        · simp [hs]
        · simp [hs]

@[simp] theorem execMatrixOpStart_wf {core : Nat} {s : State} (hs : s.mem.wf = true) : NextWf (execMatrixOpStart core s) := by
  unfold execMatrixOpStart
  dsimp only
  (repeat' split) <;> simp [hs]

@[simp] theorem State.fetchAhead_wf {s : State} {o : TileOp} (hs : s.mem.wf = true) : (s.fetchAhead o).mem.wf = true := by
  unfold State.fetchAhead
  grind [State.fetchLine_wf, State.pin_mem]

@[simp] theorem execTileFetch_wf {id : Nat} {s : State} (hs : s.mem.wf = true) : NextWf (execTileFetch id s) := by
  unfold execTileFetch
  rw [nextWf_next]
  grind [State.loadRow_mem, State.fetchAhead_wf, State.faultTile_mem, State.fetchLine_wf, State.pin_mem, State.pageOp_mem,
    State.waitTile_mem, State.consumeOp_mem]

@[simp] theorem execMmaGroup_wf {id : Nat} {s : State} (hs : s.mem.wf = true) : NextWf (execMmaGroup id s) := by
  unfold execMmaGroup
  split
  · simp [hs]
  · split
    · split
      · simp [hs]
      · extract_lets cells vals F wrong
        split
        next e =>
          have ht := State.wf_of_eq (by simp [hs]) e
          split
          next e =>
            have hu := State.wf_of_eq (by split <;> simp [ht]) e
            (repeat' split) <;> simp [hu]
    · simp [hs]

@[simp] theorem State.storeElems_wf {s : State} {o : TileOp} {rs : List (Nat × Option Nat × List Byte)} (hs : s.mem.wf = true) :
    (s.storeElems o rs).2.2.mem.wf = true := by
  induction rs generalizing s with
  | nil => exact hs
  | cons r rs ih =>
    simp only [State.storeElems]
    split <;> next e => simp [ih, State.wf_of_eq (by simp [hs]) e]

@[simp] theorem execTileOpComplete_wf {id : Nat} {s : State} (hs : s.mem.wf = true) : NextWf (execTileOpComplete id s) := by
  unfold execTileOpComplete
  rw [nextWf_next]
  grind [State.finishTile_mem, State.zeroTiles_mem, State.storeElems_wf, State.modTileOp_mem, State.faultTile_mem, State.pageOp_mem]

/-! ### Traces and commits -/

@[simp] theorem execNop_wf {x : Ctl} {s : State} (hs : s.mem.wf = true) : NextWf (execNop x s) := by
  simp +contextual [execNop, hs]

@[simp] theorem execIllegal_wf {s : State} (hs : s.mem.wf = true) : NextWf (execIllegal s) := by
  simp [execIllegal, hs]

@[simp] theorem execTrc_wf {x : Trc} {s : State} (hs : s.mem.wf = true) : NextWf (execTrc x s) := by
  simp [execTrc, hs]

@[simp] theorem State.issueGuard_wf {s : State} {c : Cohort} {i : Instr} {p : Pred} {x : Guard} {pass : State → Lane → Bool}
    (hs : s.mem.wf = true) : (s.issueGuard c i p x pass).mem.wf = true := by
  simp [State.issueGuard, hs]

@[simp] theorem execGuardFailFiling_wf {tid alt : Nat} {s : State} (hs : s.mem.wf = true) : NextWf (execGuardFailFiling tid alt s) := by
  unfold execGuardFailFiling
  split <;> simp [hs]

@[simp] theorem execSkip_wf {x : Skip} {s : State} (hs : s.mem.wf = true) : NextWf (execSkip x s) := by
  refine onCohort_wf (fun c s hs => ?_) hs
  grind [State.issue_wf, State.modLane_mem, State.foldl_wf]

@[simp] theorem execRwaitTimeout_wf {crew addr : Nat} {s : State} (hs : s.mem.wf = true) : NextWf (execRwaitTimeout crew addr s) := by
  unfold execRwaitTimeout
  split <;> simp [hs]

@[simp] theorem State.performScoped_wf {s : State} {c : Cohort} {e : MemEff} {key : Nat} {watch : Bool} (hs : s.mem.wf = true) :
    (s.performScoped c e key watch).mem.wf = true := by
  simp [State.performScoped, hs]

@[simp] theorem State.performMem_wf {s : State} {c : Cohort} {l : Lane} {e : MemEff} {mark : Mark} (hs : s.mem.wf = true) :
    (s.performMem c l e mark).2.mem.wf = true := by
  unfold State.performMem
  grind [State.flushQuantum_wf, State.logBehind_mem, State.reach_wf, State.log_mem, State.reportOnce_mem, State.post_mem,
    State.raiseIn_mem, State.mergeCheck_mem, State.detect_mem, State.performScoped_wf, State.fenceFirst_wf, State.urge_mem,
    State.consumeWalk_mem]

@[simp] theorem State.requestTrigger_wf {s : State} {c : Cohort} (hs : s.mem.wf = true) : (s.requestTrigger c).mem.wf = true := by
  simp [State.requestTrigger, hs]

@[simp] theorem State.performEffects_wf {s : State} {c : Cohort} {tid fuel : Nat} (hs : s.mem.wf = true) :
    (s.performEffects c tid fuel).2.mem.wf = true := by
  induction fuel generalizing s with
  | zero => exact hs
  | succ fuel ih =>
    simp only [State.performEffects]
    split
    · exact hs
    · split
      · exact hs
      · split
        · exact hs
        · next b rest _ =>
          have hq : (if releases b.order then s.orderFlush c.core b.order .crew else s).mem.wf = true := by split <;> simp [hs]
          generalize (if releases b.order then s.orderFlush c.core b.order .crew else s) = t at hq ⊢
          split
          · exact hs
          · cases b with
            | mem m _ mark => dsimp only; split <;> simp [ih, hq]
            | _ => simp [ih, hq]

@[simp] theorem State.commitLane_wf {s : State} {c : Cohort} {f : Form} {x : Commit} {stay : Bool} {tid : Nat} (hs : s.mem.wf = true) :
    (s.commitLane c f x stay tid).2.mem.wf = true := by
  unfold State.commitLane
  split
  · exact hs
  · extract_lets finish effects dead
    have hfinish : ∀ t : State, t.mem.wf = true → (finish t).2.mem.wf = true := by
      intro t ht
      have hq : (if f.arrives then t.flushQuantum c.core else t).mem.wf = true := by split <;> simp [ht]
      simp only [finish]
      generalize (if f.arrives then t.flushQuantum c.core else t) = u at hq ⊢
      (repeat' split) <;> simp [hq]
    have heffects : ∀ t : State, t.mem.wf = true → (effects t).2.mem.wf = true := by
      intro t ht
      simp only [effects]
      split
      · next e => exact hfinish _ (State.wf_of_eq (by simp [ht]) e)
      · simp [ht]
    clear_value effects dead
    split
    · simp [hs, heffects]
    · split
      · exact heffects _ hs
      · split
        · simp [hs]
        · split
          · simp [hs]
          · split
            · exact hs
            · split
              · exact hs
              · exact heffects _ hs

@[simp] theorem State.commitLanes_wf {s : State} {c : Cohort} {f : Form} {x : Commit} {stay : Bool} {n : Nat} {tids : List Nat}
    (hs : s.mem.wf = true) : (s.commitLanes c f x stay n tids).mem.wf = true := by
  induction tids generalizing s n with
  | nil => simp [State.commitLanes, hs]
  | cons tid tids ih =>
    rcases hp : s.commitLane c f x stay tid with ⟨w, t⟩
    have ht : t.mem.wf = true := State.wf_of_eq (State.commitLane_wf hs) hp
    cases n <;> cases w <;> simp [State.commitLanes, hp, hs, ht, ih]

@[simp] theorem State.passOn_wf {s : State} {c : Cohort} {next : Nat} (hs : s.mem.wf = true) : (s.passOn c next).mem.wf = true := by
  simp +contextual [State.passOn, hs]

@[simp] theorem State.commit_wf {s : State} {c : Cohort} {f : Form} {x : Commit} (hs : s.mem.wf = true) :
    (s.commit c f x).mem.wf = true := by
  unfold State.commit
  grind [State.modCohort_mem, State.flushQuantum_wf, State.commitQuota_mem, State.commitLanes_wf, State.hold_mem, State.passOn_wf]

@[simp] theorem State.trapLane_wf {s : State} {c : Cohort} {cause : Cause} {code : Word} {l : Lane} (hs : s.mem.wf = true) :
    (s.trapLane c cause code l).mem.wf = true := by
  simp [State.trapLane, hs]

@[simp] theorem execTrap_wf {x : ImmI} {s : State} (hs : s.mem.wf = true) : NextWf (execTrap x s) := by
  refine onCohort_wf (fun c s hs => ?_) hs
  grind [State.issue_wf, State.trapLane_wf, State.foldl_wf]

@[simp] theorem execBrk_wf {x : ImmI} {s : State} (hs : s.mem.wf = true) : NextWf (execBrk x s) := by
  refine onCohort_wf (fun c s hs => ?_) hs
  grind [State.issue_wf, State.trapLane_wf, State.foldl_wf]

@[simp] theorem execMatchKey_wf {x : Alu} {s : State} (hs : s.mem.wf = true) : NextWf (execMatchKey x s) := by
  refine onCohort_wf (fun c s hs => ?_) hs
  grind [State.stallConduit_mem, State.issue_wf, State.operands_mem, State.modLane_mem, State.foldl_wf]

@[simp] theorem execTrigger_wf {x : Ctl} {s : State} (hs : s.mem.wf = true) : NextWf (execTrigger x s) := by
  refine onCohort_wf (fun c s hs => ?_) hs
  grind [State.flushQuantum_wf, State.hold_mem, State.issue_wf, State.requestTrigger_wf, State.inBudget_wf, State.buffer_mem,
    State.foldl_wf]

@[simp] theorem execYield_wf {x : Ctl} {s : State} (hs : s.mem.wf = true) : NextWf (execYield x s) := by
  simp +contextual [execYield, hs]

@[simp] theorem execQstat_wf {x : Alu} {s : State} (hs : s.mem.wf = true) : NextWf (execQstat x s) := by
  simp +contextual [execQstat, hs]

/-! ### Copies and collectives -/

@[simp] theorem State.finishCopy_wf {s : State} {o : CopyOp} (hs : s.mem.wf = true) : (s.finishCopy o).mem.wf = true := by
  unfold State.finishCopy
  split <;> simp [hs]

/-- Fetching all that an engine lacks keeps the form where the halt does. -/
@[simp] theorem State.fetchAll_wf {s : State} {soft : Bool} {agent : Nat} {a : Attr} {id : Nat} {keys : List Nat}
    {halt : Fetch → State → State} {fuel : Nat} (hf : ∀ r s, s.mem.wf = true → (halt r s).mem.wf = true) (hs : s.mem.wf = true) :
    (s.fetchAll soft agent a id keys halt fuel).2.mem.wf = true := by
  induction fuel generalizing s with
  | zero => exact hs
  | succ fuel ih =>
    simp only [State.fetchAll]
    split
    · exact hs
    · split
      · next e => exact ih (State.wf_of_eq (by simp [hs]) e)
      · next e => exact hf _ _ (State.wf_of_eq (by simp [hs]) e)

@[simp] theorem State.tryWrites_wf {s : State} {agent : Nat} {a : Attr} {ks : List Nat} (hs : s.mem.wf = true) :
    (s.tryWrites agent a ks).2.mem.wf = true := by
  induction ks generalizing s with
  | nil => exact hs
  | cons k ks ih =>
    simp only [State.tryWrites]
    split
    · split <;> simp [hs, ih]
    · split <;> next e => simp [ih, State.wf_of_eq (by simp [hs]) e]

@[simp] theorem State.spoil_wf {s : State} {agent : Nat} {a : Attr} {key : Nat} {f : Finder} (hs : s.mem.wf = true) :
    (s.spoil agent a key f).mem.wf = true := by
  unfold State.spoil
  grind [State.modCoh_mem, State.opReach_wf]

@[simp] theorem State.writeRuns_wf {s : State} {agent : Nat} {a : Attr} {id : Nat} {bad : List (Nat × Finder)}
    {rs : List (Nat × List Byte)} (hs : s.mem.wf = true) : (s.writeRuns agent a id bad rs).2.mem.wf = true := by
  induction rs generalizing s with
  | nil => exact hs
  | cons r rs ih =>
    simp only [State.writeRuns]
    split
    · next e =>
      have ht := State.wf_of_eq (by simp [hs]) e
      split <;> simp [ih, ht]
    · next e => exact State.wf_of_eq (by simp [hs]) e

@[simp] theorem execCopyEngineTake_wf {engine : Nat} {s : State} (hs : s.mem.wf = true) : NextWf (execCopyEngineTake engine s) := by
  unfold execCopyEngineTake
  dsimp only
  (repeat' split) <;> simp [hs]

@[simp] theorem execCopyChunk_wf {id : Nat} {s : State} (hs : s.mem.wf = true) : NextWf (execCopyChunk id s) := by
  unfold execCopyChunk
  rw [nextWf_next]
  dsimp only
  split
  · exact hs
  · split
    · exact hs
    · refine State.ite_wf hs (State.ite_wf (State.ite_wf hs (by simp [hs])) (State.ite_wf hs (State.ite_wf (by simp [hs]) ?_)))
      split
      · next e => exact State.wf_of_eq (State.fetchAll_wf (fun r s hs => by simp [hs]) hs) e
      · next e =>
        have ht := State.wf_of_eq (State.fetchAll_wf (fun r s hs => by simp [hs]) hs) e
        split
        · next e => simp [State.wf_of_eq (by simp [ht]) e]
        · next e =>
          have hu := State.wf_of_eq (by simp [ht]) e
          split
          · next e => simp [State.wf_of_eq (by simp [hu]) e]
          · next e =>
            have hv := State.wf_of_eq (by simp [hu]) e
            (repeat' split) <;> simp [hv]

@[simp] theorem State.enginesRelease_wf {s : State} {core : Nat} {lanes : List Lane} (hs : s.mem.wf = true) :
    (s.enginesRelease core lanes).mem.wf = true := by
  simp [State.enginesRelease, hs]

/-- The issue of a transfer keeps the form where its start does. -/
@[simp] theorem State.issueXfer_wf {s : State} {c : Cohort} {i : Instr} {x : Xfer} {free : Nat}
    {f : State → List Lane → Nat × Nat → Nat × Nat → State}
    (hf : ∀ s lanes d e, s.mem.wf = true → (f s lanes d e).mem.wf = true)
    (hs : s.mem.wf = true) : (s.issueXfer c i x free f).mem.wf = true := by
  have hq : (if (s.execLanes c x.pred).isEmpty then s else s.flushQuantum c.core).mem.wf = true := by split <;> simp [hs]
  unfold State.issueXfer
  dsimp only
  generalize (if (s.execLanes c x.pred).isEmpty then s else s.flushQuantum c.core) = t at hq ⊢
  split
  · simp [hq]
  · have hp : (if (s.execLanes c x.pred).isEmpty then (true, t) else t.entriesReady c [x.hD, x.hS]).2.mem.wf = true := by
      split <;> simp [hq]
    split
    · next e => simpa using State.wf_of_eq hp e
    · next e =>
      refine State.issue_wf (fun s lanes hs => ?_) (State.wf_of_eq hp e)
      split
      · exact hs
      · split
        · next e => simpa using hf _ _ _ _ (State.enginesRelease_wf (State.wf_of_eq (by simp [hs]) e))
        · next e => exact State.wf_of_eq (by simp [hs]) e

@[simp] theorem execXcopy_wf {x : Xfer} {s : State} (hs : s.mem.wf = true) : NextWf (execXcopy x s) := by
  refine onCohort_wf (fun c s hs => ?_) hs
  grind [State.issueXfer_wf, State.seenK_mem, State.completionOf_mem, State.enqueueCopy_mem, State.foldl_wf]

@[simp] theorem execXwait_wf {x : XWaitF} {s : State} (hs : s.mem.wf = true) : NextWf (execXwait x s) := by
  simp +contextual [execXwait, hs]

@[simp] theorem execXcoll_wf {x : Xfer} {s : State} (hs : s.mem.wf = true) : NextWf (execXcoll x s) := by
  refine onCohort_wf (fun c s hs => ?_) hs
  grind [State.issueXfer_wf, State.seenK_mem, State.completionOf_mem, State.enqueueColl_mem, State.foldl_wf]

@[simp] theorem State.finishColl_wf {s : State} {o : CollOp} (hs : s.mem.wf = true) : (s.finishColl o).mem.wf = true := by
  unfold State.finishColl
  split <;> simp [hs]

@[simp] theorem State.collRead_wf {s : State} {o : CollOp} {k : Comm} (hs : s.mem.wf = true) : (s.collRead o k).mem.wf = true := by
  unfold State.collRead
  grind [State.faultColl_mem, State.haltColl_mem, State.fetchAll_wf, State.dropFetched_mem, State.modColl_mem, State.sendRanks_mem,
    State.putBad_mem]

@[simp] theorem execCollectiveStep_wf {id : Nat} {s : State} (hs : s.mem.wf = true) : NextWf (execCollectiveStep id s) := by
  unfold execCollectiveStep
  rw [nextWf_next]
  dsimp only
  split
  · exact hs
  · refine State.ite_wf hs (State.ite_wf (by split <;> simp [hs]) ?_)
    split
    · simp [hs]
    · refine State.ite_wf (by simp [hs]) (State.ite_wf (by simp [hs]) (State.ite_wf (by simp [hs]) (State.ite_wf hs (State.ite_wf ?_
        (State.ite_wf (by simp [hs]) ?_)))))
      · exact State.ite_wf hs (by simp [hs])
      · split
        · next e => simp [State.wf_of_eq (by simp [hs]) e]
        · next e =>
          have ht := State.wf_of_eq (by simp [hs]) e
          split
          · next e => simp [State.wf_of_eq (by simp [ht]) e]
          · next e =>
            have hu := State.wf_of_eq (by simp [ht]) e
            split <;> simp [hu]

@[simp] theorem execCollectiveReduce_wf {id : Nat} {s : State} (hs : s.mem.wf = true) : NextWf (execCollectiveReduce id s) := by
  unfold execCollectiveReduce
  rw [nextWf_next]
  split
  · exact hs
  · split
    · exact hs
    · refine State.ite_wf hs (State.ite_wf ?_ (State.ite_wf hs (State.ite_wf ?_ ?_)))
      · rwa [State.faultColl_mem]
      · rwa [State.sendRanks_mem, State.modColl_mem]
      · rwa [State.modColl_mem]

@[simp] theorem State.storeWord_wf {s : State} {agent : Nat} {a : Attr} {id : Nat} {w : Completion} (hs : s.mem.wf = true) :
    (s.storeWord agent a id w).2.mem.wf = true := by
  unfold State.storeWord
  split <;> simp [hs]

@[simp] theorem execCompletionWordWrite_wf {id : Nat} {s : State} (hs : s.mem.wf = true) : NextWf (execCompletionWordWrite id s) := by
  unfold execCompletionWordWrite
  rw [nextWf_next]
  grind [State.finishCopy_wf, State.storeWord_wf, State.modCopy_mem, State.stopCopy_mem, State.finishColl_wf, State.modColl_mem,
    State.stopColl_mem]

@[simp] theorem State.appendLaunch_wf {s : State} {ctx n header : Nat} (hs : s.mem.wf = true) :
    (s.appendLaunch ctx n header).2.mem.wf = true := by
  unfold State.appendLaunch
  dsimp only
  split
  · exact hs
  · split
    · exact hs
    · split
      · next e => simp [State.wf_of_eq (by simp [hs]) e]
      · next e =>
        have ht := State.wf_of_eq (by simp [hs]) e
        split
        · next e => simp [State.wf_of_eq (by simp [ht]) e]
        · next e =>
          have hu := State.wf_of_eq (by simp [ht]) e
          split
          · simp [hu]
          · split
            · next e => exact State.wf_of_eq (by simp [hu]) e
            · next e =>
              have hv := State.wf_of_eq (by simp [hu]) e
              split <;> next e => exact State.wf_of_eq (by simp [hv]) e

@[simp] theorem State.launchLanes_wf {s : State} {c : Cohort} {n header : Nat} {ls : List Lane} (hs : s.mem.wf = true) :
    (s.launchLanes c n header ls).2.mem.wf = true := by
  induction ls generalizing s with
  | nil => exact hs
  | cons l ls ih =>
    simp only [State.launchLanes]
    split
    · exact ih hs
    · split <;> next e => simp [ih, State.wf_of_eq (by simp [hs]) e]

@[simp] theorem execLaunch_wf {x : LaunchF} {s : State} (hs : s.mem.wf = true) : NextWf (execLaunch x s) := by
  refine onCohort_wf (fun c s hs => ?_) hs
  grind [State.flushQuantum_wf, State.hold_mem, State.raiseIn_mem, State.seenK64_mem, State.seenK_mem, State.launchLanes_wf,
    State.enginesRelease_wf, State.modCohort_mem, State.issue_wf]

/-! ### Page tables and snapshots -/

@[simp] theorem State.storeLeaf_wf {s : State} {ctx : Nat} {l : Leaf} {pte : Nat} (hs : s.mem.wf = true) :
    (s.storeLeaf ctx l pte).mem.wf = true := by
  simp [State.storeLeaf, hs]

@[simp] theorem State.setCow_wf {s : State} {ctx : Nat} {ls : List Leaf} {b : Bool} (hs : s.mem.wf = true) :
    (s.setCow ctx ls b).mem.wf = true := by
  simp +contextual [State.setCow, hs]

@[simp] theorem State.clearCow_wf {s : State} {x : Ctx} {slot : Nat} (hs : s.mem.wf = true) : (s.clearCow x slot).mem.wf = true := by
  simp [State.clearCow, hs]

@[simp] theorem State.inspectPages_wf {s : State} {src dst : Nat} (hs : s.mem.wf = true) : (s.inspectPages src dst).mem.wf = true := by
  simp [State.inspectPages, hs]

@[simp] theorem State.copyPage_wf {s : State} {ctx src dst : Nat} (hs : s.mem.wf = true) : (s.copyPage ctx src dst).mem.wf = true := by
  unfold State.copyPage
  refine State.foldl_wf (fun s sec hs => ?_) (State.ite_wf ?_ (State.foldl_wf (fun s i hs => State.perform_wf hs) ?_ _)) _
  · split
    · rwa [State.modCoh_mem]
    · exact hs
  · exact State.perform_wf (State.inspectPages_wf hs)
  · exact State.inspectPages_wf hs

@[simp] theorem State.unshield_wf {s : State} {x : Ctx} {slot : Nat} (hs : s.mem.wf = true) : (s.unshield x slot).mem.wf = true := by
  simp [State.unshield, hs]

@[simp] theorem State.copyFor_wf {s : State} {x : Ctx} {page pa slot : Nat} (hs : s.mem.wf = true) :
    (s.copyFor x page pa slot).mem.wf = true := by
  unfold State.copyFor
  split <;> simp [hs]

@[simp] theorem execCowCopy_wf {ctx page : Nat} {s : State} (hs : s.mem.wf = true) : NextWf (execCowCopy ctx page s) := by
  unfold execCowCopy
  extract_lets leaf needs
  split
  · rw [nextWf_next, State.defer_mem, State.takeBack_mem, hs]
  · split
    · extract_lets free used t u
      have ht : t.mem.wf = true := by
        simp only [t]
        exact State.foldl_wf (fun s q hs => by split <;> simp [hs]) hs _
      have hu : u.mem.wf = true := State.foldl_wf (fun s l hs => State.copyFor_wf hs) ht _
      clear_value t u
      split
      · rw [nextWf_next, State.defer_mem, State.takeBack_mem, ht]
      · split <;> simp [hu]
    · simp [hs]

/-! ### Drawing, conduits and admission -/

@[simp] theorem State.draw_wf {s : State} {core port : Nat} {g : WaitGroup} (hs : s.mem.wf = true) :
    (s.draw core port g).mem.wf = true := by
  simp [State.draw, hs]

@[simp] theorem execCohortDraw_wf {core : Nat} {s : State} (hs : s.mem.wf = true) : NextWf (execCohortDraw core s) := by
  unfold execCohortDraw
  rw [nextWf_next]
  grind [State.draw_wf, State.foldl_wf]

@[simp] theorem execBinAged_wf {core : Nat} {s : State} (hs : s.mem.wf = true) : NextWf (execBinAged core s) := by
  simp [execBinAged, hs]

@[simp] theorem execFullcohortTimeout_wf {core : Nat} {s : State} (hs : s.mem.wf = true) : NextWf (execFullcohortTimeout core s) := by
  unfold execFullcohortTimeout
  dsimp only
  (repeat' split) <;> simp [hs]

@[simp] theorem execTraceBufferGrant_wf {core : Nat} {s : State} (hs : s.mem.wf = true) : NextWf (execTraceBufferGrant core s) := by
  simp [execTraceBufferGrant, hs]

@[simp] theorem execConduitStallResume_wf {cid : Nat} {s : State} (hs : s.mem.wf = true) : NextWf (execConduitStallResume cid s) := by
  unfold execConduitStallResume
  rw [nextWf_next]
  (repeat' split) <;> simp [hs]

@[simp] theorem execDeadlockProbeStart_wf {cid : Nat} {s : State} (hs : s.mem.wf = true) : NextWf (execDeadlockProbeStart cid s) := by
  unfold execDeadlockProbeStart
  rw [nextWf_next]
  (repeat' split) <;> simp [hs]

@[simp] theorem execDeadlockProbeReturn_wf {crew : Nat} {s : State} (hs : s.mem.wf = true) : NextWf (execDeadlockProbeReturn crew s) := by
  unfold execDeadlockProbeReturn
  dsimp only
  (repeat' split) <;> simp [hs]

@[simp] theorem State.decrement_wf {s : State} {w : Crew} {l : Launch} (hs : s.mem.wf = true) : (s.decrement w l).mem.wf = true := by
  unfold State.decrement
  grind [State.releaseFlush_wf, State.modCrew_mem, State.opReach_wf, State.mergeCheck_mem, State.detect_mem, State.doEff_wf,
    State.sendEff_wf, State.pageOp_mem, State.faultOp_mem, State.consumeWalk_mem]

@[simp] theorem execJoinDecrement_wf {crew : Nat} {s : State} (hs : s.mem.wf = true) : NextWf (execJoinDecrement crew s) := by
  unfold execJoinDecrement
  dsimp only
  (repeat' split) <;> simp [hs]

@[simp] theorem execCrewAdmit_wf {core : Nat} {s : State} (hs : s.mem.wf = true) : NextWf (execCrewAdmit core s) := by
  unfold execCrewAdmit
  dsimp only
  (repeat' split) <;> simp [hs]

@[simp] theorem execSteal_wf {die : Nat} {s : State} (hs : s.mem.wf = true) : NextWf (execSteal die s) := by
  unfold execSteal
  dsimp only
  (repeat' split) <;> simp [hs]

/-! ### System registers and services -/

@[simp] theorem State.performCsr_wf {s : State} {crew sel v : Nat} (hs : s.mem.wf = true) : (s.performCsr crew sel v).mem.wf = true := by
  simp [State.performCsr, hs]

@[simp] theorem State.csrWrite_wf {s : State} {c : Cohort} {i : Instr} {x : ImmI} (hs : s.mem.wf = true) :
    (s.csrWrite c i x).mem.wf = true := by
  unfold State.csrWrite
  grind [State.issue_wf, State.seenK64_mem, State.seenK_mem, State.performCsr_wf, State.raiseIn_mem]

@[simp] theorem State.injectWrite_wf {s : State} {c : Cohort} {i : Instr} {x : ImmI} (hs : s.mem.wf = true) :
    (s.injectWrite c i x).mem.wf = true := by
  simp [State.injectWrite, hs]

@[simp] theorem execInjectionMade_wf {ctx : Nat} {s : State} (hs : s.mem.wf = true) : NextWf (execInjectionMade ctx s) := by
  unfold execInjectionMade
  dsimp only
  (repeat' split) <;> simp [hs]

@[simp] theorem State.service_wf {s : State} {c : Cohort} {i : Instr} {x : ImmI} {f : State → Lane → Nat → Nat}
    (hs : s.mem.wf = true) : (s.service c i x f).mem.wf = true := by
  simp [State.service, hs]

@[simp] theorem execYieldcrew_wf {x : ImmI} {s : State} (hs : s.mem.wf = true) : NextWf (execYieldcrew x s) := by
  simp +contextual [execYieldcrew, hs]

@[simp] theorem execInjectauth_wf {x : ImmI} {s : State} (hs : s.mem.wf = true) : NextWf (execInjectauth x s) := by
  simp +contextual [execInjectauth, hs]

@[simp] theorem execFaultq_wf {x : ImmI} {s : State} (hs : s.mem.wf = true) : NextWf (execFaultq x s) := by
  simp +contextual [execFaultq, hs]

@[simp] theorem execSleep_wf {x : ImmI} {s : State} (hs : s.mem.wf = true) : NextWf (execSleep x s) := by
  simp +contextual [execSleep, hs]

@[simp] theorem execSleepExpire_wf {cid : Nat} {s : State} (hs : s.mem.wf = true) : NextWf (execSleepExpire cid s) := by
  unfold execSleepExpire
  rw [nextWf_next]
  (repeat' split) <;> simp [hs]

/-! ### Fault records, retries and pre-emption -/

@[simp] theorem State.completeLaunch_wf {s : State} {slot : Nat} (hs : s.mem.wf = true) : (s.completeLaunch slot).mem.wf = true := by
  unfold State.completeLaunch
  grind [State.cpWrite_wf, State.modStream_mem, State.modCmd_mem, State.signal_mem]

@[simp] theorem State.finishLaunch_wf {s : State} {slot status : Nat} (hs : s.mem.wf = true) :
    (s.finishLaunch slot status).mem.wf = true := by
  simp [State.finishLaunch, hs]

@[simp] theorem State.sendRest_wf {s : State} {c : Cohort} {tid : Nat} (hs : s.mem.wf = true) : (s.sendRest c tid).mem.wf = true := by
  unfold State.sendRest
  grind [State.reach_wf, State.sendWrite_mem, State.sendRemote_mem, State.post_mem, State.foldl_wf]

@[simp] theorem State.dropCrews_wf {s : State} {keep : Bool} {p : Crew → Bool} (hs : s.mem.wf = true) :
    (s.dropCrews keep p).mem.wf = true := by
  unfold State.dropCrews
  grind [State.performEffects_wf, State.sendRest_wf, State.flushQuantum_wf, State.modEng_mem, State.freeCrew_mem, State.modCmd_mem,
    State.foldl_wf]

@[simp] theorem State.endContext_wf {s : State} {ctx : Nat} (hs : s.mem.wf = true) : (s.endContext ctx).mem.wf = true := by
  unfold State.endContext
  dsimp only
  (repeat' split) <;> simp +contextual [hs]

@[simp] theorem State.watchWords_wf {s : State} {x : Ctx} (hs : s.mem.wf = true) : (s.watchWords x).mem.wf = true := by
  simp +contextual [State.watchWords, hs]

@[simp] theorem State.putRecord_wf {s : State} {x : Ctx} {r : FaultRec} (hs : s.mem.wf = true) : (s.putRecord x r).mem.wf = true := by
  unfold State.putRecord
  grind [State.perform_wf, State.watchWords_wf, State.signal_mem, State.modCtx_mem]

@[simp] theorem State.recordNow_wf {s : State} {r : FaultRec} (hs : s.mem.wf = true) : (s.recordNow r).mem.wf = true := by
  unfold State.recordNow
  split <;> simp [hs]

@[simp] theorem State.writeRecord_wf {s : State} {r : FaultRec} (hs : s.mem.wf = true) : (s.writeRecord r).mem.wf = true := by
  unfold State.writeRecord
  split <;> simp [hs]

@[simp] theorem execFaultRecordWrite_wf {r : FaultRec} {s : State} (hs : s.mem.wf = true) : NextWf (execFaultRecordWrite r s) := by
  simp [execFaultRecordWrite, hs]

@[simp] theorem execConsumerCountWrite_wf {ctx : Nat} {s : State} (hs : s.mem.wf = true) : NextWf (execConsumerCountWrite ctx s) := by
  unfold execConsumerCountWrite
  dsimp only
  (repeat' split) <;> simp [hs]

@[simp] theorem execResolveWrite_wf {ctx : Nat} {s : State} (hs : s.mem.wf = true) : NextWf (execResolveWrite ctx s) := by
  unfold execResolveWrite
  dsimp only
  (repeat' split) <;> simp [hs]

@[simp] theorem execPageRetry_wf {core ctx page : Nat} {s : State} (hs : s.mem.wf = true) : NextWf (execPageRetry core ctx page s) := by
  unfold execPageRetry
  rw [nextWf_next]
  grind [State.unpark_mem, State.foldl_wf]

@[simp] theorem execSideLogRoomRetry_wf {core : Nat} {s : State} (hs : s.mem.wf = true) : NextWf (execSideLogRoomRetry core s) := by
  unfold execSideLogRoomRetry
  rw [nextWf_next]
  grind [State.unpark_mem, State.foldl_wf]

@[simp] theorem State.replayEntry_wf {s : State} {e : SideEntry} (hs : s.mem.wf = true) : (s.replayEntry e).mem.wf = true := by
  unfold State.replayEntry
  grind [State.modEng_mem, State.translate_wf, State.terminateBy_mem, State.sendEff_wf, State.mergeCheck_mem, State.detect_mem,
    State.doEff_wf, State.report_mem, State.urge_mem, State.consumeWalk_mem]

@[simp] theorem execSideLogReplay_wf {core ctx page : Nat} {s : State} (hs : s.mem.wf = true) :
    NextWf (execSideLogReplay core ctx page s) := by
  simp +contextual [execSideLogReplay, hs]

@[simp] theorem execGarnetMonitorVisit_wf {core : Nat} {s : State} (hs : s.mem.wf = true) : NextWf (execGarnetMonitorVisit core s) := by
  simp [execGarnetMonitorVisit, hs]

@[simp] theorem execGarnetRenewTick_wf {core : Nat} {s : State} (hs : s.mem.wf = true) : NextWf (execGarnetRenewTick core s) := by
  simp [execGarnetRenewTick, hs]

@[simp] theorem execCrewTimerFire_wf {crew : Nat} {s : State} (hs : s.mem.wf = true) : NextWf (execCrewTimerFire crew s) := by
  unfold execCrewTimerFire
  dsimp only
  (repeat' split) <;> simp +contextual [hs]

@[simp] theorem State.saveCrew_wf {s : State} {w : Crew} {core : Nat} (hs : s.mem.wf = true) : (s.saveCrew w core).mem.wf = true := by
  simp [State.saveCrew, hs]

@[simp] theorem execPreemptCrew_wf {crew : Nat} {resident : Bool} {s : State} (hs : s.mem.wf = true) :
    NextWf (execPreemptCrew crew resident s) := by
  unfold execPreemptCrew
  rw [nextWf_next]
  split
  · exact hs
  · split
    · exact hs
    · refine State.ite_wf (by simp [hs]) (State.ite_wf (by simp [hs]) ?_)
      extract_lets t u v
      have ht : t.mem.wf = true := by simpa [t] using hs
      have hu : u.mem.wf = true := State.foldl_wf (fun s c hs => by split <;> simp [hs]) ht _
      have hv : v.mem.wf = true := State.ite_wf (by simp [hu]) hu
      clear_value v
      refine State.ite_wf hv (State.ite_wf (by simp [hv]) ?_)
      split <;> simp [hv]

@[simp] theorem execCrewRestore_wf {crew core : Nat} {s : State} (hs : s.mem.wf = true) : NextWf (execCrewRestore crew core s) := by
  unfold execCrewRestore
  rw [nextWf_next]
  grind [State.modCmd_mem, State.setThread_mem, State.setCrew_mem, State.giveRows_mem, State.restoreSegs_mem, State.modEng_mem,
    State.post_mem, State.grantSec_wf, State.boundary_mem, State.modThread_mem, State.file_mem, State.foldl_wf]

@[simp] theorem execSavedCrewRescue_wf {crew : Nat} {s : State} (hs : s.mem.wf = true) : NextWf (execSavedCrewRescue crew s) := by
  unfold execSavedCrewRescue
  dsimp only
  (repeat' split) <;> simp [hs]

/-! ### Damage, the host and peers -/

@[simp] theorem State.storeJoin_wf {s : State} {l : Launch} (hs : s.mem.wf = true) : (s.storeJoin l).mem.wf = true := by
  unfold State.storeJoin
  grind [State.cpWrite_wf, State.modLaunch_mem]

@[simp] theorem State.dropWrites_wf {s : State} {mine : Nat → Bool} (hs : s.mem.wf = true) : (s.dropWrites mine).mem.wf = true := by
  simp [State.dropWrites, hs]

@[simp] theorem State.replay_wf {s : State} {x : Ctx} {l : Launch} {pg : Nat} (hs : s.mem.wf = true) :
    (s.replay x l pg).mem.wf = true := by
  unfold State.replay
  grind [State.dropWrites_wf, State.dropCrews_wf, State.modCmd_mem, State.modCtx_mem, State.storeLeaf_wf, State.copyPage_wf,
    State.clearCow_wf, State.modLaunch_mem, State.post_mem, State.storeJoin_wf, State.foldl_wf]

@[simp] theorem execCrownDecide_wf {r : Report} {s : State} (hs : s.mem.wf = true) : NextWf (execCrownDecide r s) := by
  unfold execCrownDecide
  dsimp only
  (repeat' split) <;> simp [hs]

@[simp] theorem State.census_wf {s : State} {die sec : Nat} (hs : s.mem.wf = true) : (s.census die sec).mem.wf = true := by
  simp [State.census, hs]

@[simp] theorem execDieLost_wf {die : Nat} {s : State} (hs : s.mem.wf = true) : NextWf (execDieLost die s) := by
  unfold execDieLost
  rw [nextWf_next]
  grind [State.modCoh_mem, State.endContext_wf, State.census_wf, State.modPkg_mem, State.setEvent_mem, State.modCmd_mem, State.foldl_wf]

@[simp] theorem State.completed_wf {s : State} {r : Remote} {bytes : List Byte} (hs : s.mem.wf = true) :
    (s.completed r bytes).mem.wf = true := by
  unfold State.completed
  dsimp only
  (repeat' split) <;> simp [hs]

@[simp] theorem State.answer_wf {s : State} {id : Nat} {r : Remote} {bytes : List Byte} (hs : s.mem.wf = true) :
    (s.answer id r bytes).mem.wf = true := by
  unfold State.answer
  dsimp only
  split <;> simp [hs]

@[simp] theorem State.answered_wf {s : State} {peer : Bool} {id : Nat} {bytes : List Byte} {again : Turn} (hs : s.mem.wf = true) :
    (s.answered peer id bytes again).mem.wf = true := by
  unfold State.answered
  split <;> simp [hs]

@[simp] theorem execHostCacheResponse_wf {id : Nat} {bytes : List Byte} {s : State} (hs : s.mem.wf = true) :
    NextWf (execHostCacheResponse id bytes s) := by
  simp [execHostCacheResponse, hs]

@[simp] theorem execPeerAccessResponse_wf {id : Nat} {bytes : List Byte} {s : State} (hs : s.mem.wf = true) :
    NextWf (execPeerAccessResponse id bytes s) := by
  simp [execPeerAccessResponse, hs]

@[simp] theorem execHostSnoop_wf {line : Nat} {s : State} (hs : s.mem.wf = true) : NextWf (execHostSnoop line s) := by
  unfold execHostSnoop
  rw [nextWf_next]
  grind [State.defer_mem, State.modPkg_mem, State.dropHost_wf, State.complete_wf, State.gather_mem, State.setUnit_mem, State.wakeAt_mem,
    State.failResv_mem, State.foldl_wf]

@[simp] theorem State.outsideWrite_wf {s : State} {a : Nat} {bs : List Byte} (hs : s.mem.wf = true) :
    (s.outsideWrite a bs).mem.wf = true := by
  unfold State.outsideWrite
  grind [State.dropHost_wf, State.mergeCheck_mem, State.detect_mem, State.perform_wf, State.foldl_wf]

@[simp] theorem State.outsideAtom_wf {s : State} {a : Nat} {op : Option AtomOp} {cls : BitVec 2} {cmp bs : List Byte}
    (hs : s.mem.wf = true) : (s.outsideAtom a op cls cmp bs).2.mem.wf = true := by
  unfold State.outsideAtom
  grind [State.mergeCheck_mem, State.detect_mem, State.firstInLine_wf, State.newReq_mem, State.performPair_wf, State.land_wf]

@[simp] theorem State.homeToken_wf {s : State} {sec : Nat} (hs : s.mem.wf = true) : (s.homeToken sec).mem.wf = true := by
  simp +contextual [State.homeToken, hs]

@[simp] theorem State.outsideRead_wf {s : State} {a n : Nat} {agent : Option Nat} (hs : s.mem.wf = true) :
    (s.outsideRead a n agent).mem.wf = true := by
  unfold State.outsideRead
  grind [State.flushDies_wf, State.mergeCheck_mem, State.detect_mem, State.grant_wf, State.homeToken_wf, State.readHome_mem,
    State.foldl_wf]

@[simp] theorem execHostMemAccess_wf {r : HostReq} {s : State} (hs : s.mem.wf = true) : NextWf (execHostMemAccess r s) := by
  unfold execHostMemAccess
  split <;> simp [hs]

@[simp] theorem State.endFlip_wf {s : State} {page : Nat} {toHost : Bool} (hs : s.mem.wf = true) :
    (s.endFlip page toHost).mem.wf = true := by
  unfold State.endFlip
  grind [State.dropHost_wf, State.modCoh_mem, State.resend_mem, State.finishCmd_wf, State.foldl_wf]

@[simp] theorem State.returnUnit_wf {s : State} {sec : Nat} (hs : s.mem.wf = true) : (s.returnUnit sec).mem.wf = true := by
  simp [State.returnUnit, hs]

@[simp] theorem execBiasFlipToHost_wf {page : Nat} {s : State} (hs : s.mem.wf = true) : NextWf (execBiasFlipToHost page s) := by
  unfold execBiasFlipToHost
  rw [nextWf_next]
  grind [State.defer_mem, State.modCoh_mem, State.flushDies_wf, State.returnUnit_wf, State.writeBack_wf, State.endFlip_wf, State.foldl_wf]

@[simp] theorem execBiasFlipToDevice_wf {page : Nat} {s : State} (hs : s.mem.wf = true) : NextWf (execBiasFlipToDevice page s) := by
  simp [execBiasFlipToDevice, hs]

@[simp] theorem execBackInvalidateResponse_wf {line : Nat} {bytes : List Byte} {s : State} (hs : s.mem.wf = true) :
    NextWf (execBackInvalidateResponse line bytes s) := by
  unfold execBackInvalidateResponse
  dsimp only
  split <;> simp [hs]

@[simp] theorem execTilpenPortDown_wf {port : Nat} {s : State} (hs : s.mem.wf = true) : NextWf (execTilpenPortDown port s) := by
  simp [execTilpenPortDown, hs]

@[simp] theorem State.deliver_wf {s : State} {port : Nat} {b : FlitBody} (hs : s.mem.wf = true) : (s.deliver port b).mem.wf = true := by
  unfold State.deliver
  split <;> simp [hs]

@[simp] theorem State.servePort_wf {s : State} {port : Nat} (hs : s.mem.wf = true) : (s.servePort port).mem.wf = true := by
  unfold State.servePort
  dsimp only
  (repeat' split) <;> simp [hs]

@[simp] theorem execTilpenFlitReceive_wf {port : Nat} {f : Flit} {s : State} (hs : s.mem.wf = true) :
    NextWf (execTilpenFlitReceive port f s) := by
  simp [execTilpenFlitReceive, hs]

/-! ### Streams and launches -/

@[simp] theorem State.readCmd_wf {s : State} {d : StreamDesc} {n k : Nat} (hs : s.mem.wf = true) : (s.readCmd d n k).2.mem.wf = true := by
  simp [State.readCmd, hs]

/-- A step of a stream's command keeps the form where what it does for the command does. -/
@[simp] theorem State.onCmd_wf {s : State} {n : Nat} {again : Instr} {f : StreamDesc → Nat → Nat → State → State}
    (hf : ∀ d k w s, s.mem.wf = true → (f d k w s).mem.wf = true) (hs : s.mem.wf = true) : (s.onCmd n again f).mem.wf = true := by
  unfold State.onCmd
  split
  · split
    · exact hs
    · rw [State.endLook_mem]
      split
      · next e =>
        have ht := State.wf_of_eq (by simp [hs]) e
        split <;> simp [hf, ht]
      · next e => simpa using State.wf_of_eq (by simp [hs]) e
  · exact hs

@[simp] theorem execTailWake_wf {n : Nat} {s : State} (hs : s.mem.wf = true) : NextWf (execTailWake n s) := by
  unfold execTailWake
  rw [nextWf_next]
  dsimp only
  split
  · exact hs
  · refine State.ite_wf hs ?_
    split
    · next e => simp [State.wf_of_eq (by simp [hs]) e]
    · next t e =>
      have ht : t.mem.wf = true := State.wf_of_eq (by simp [hs]) e
      split
      · next e => simp [State.wf_of_eq (by split <;> simp [ht]) e]
      · next e =>
        have hu := State.wf_of_eq (by split <;> simp [ht]) e
        (repeat' split) <;> simp [hu]

@[simp] theorem State.startFirst_wf {s : State} {l : List (Nat × StreamDesc)} (hs : s.mem.wf = true) :
    (s.startFirst l).mem.wf = true := by
  induction l generalizing s with
  | nil => exact hs
  | cons e l ih =>
    simp only [State.startFirst]
    split
    · next e => exact ih (by simp [State.wf_of_eq (by simp [hs]) e])
    · next e =>
      have ht := State.wf_of_eq (by simp [hs]) e
      split <;> simp [ht]

@[simp] theorem execStreamCommandStart_wf {s : State} (hs : s.mem.wf = true) : NextWf (execStreamCommandStart s) := by
  unfold execStreamCommandStart
  rw [nextWf_next]
  grind [State.advanceHead_wf, State.startFirst_wf, State.foldl_wf]

@[simp] theorem State.refuse_wf {s : State} {d : StreamDesc} {n k header status : Nat} {h : Nat} {again : Turn} (hs : s.mem.wf = true) :
    (s.refuse d n k header status h again).mem.wf = true := by
  unfold State.refuse
  grind [State.cpWrite_wf, State.defer_mem, State.finishCmd_wf, State.report_mem, State.signal_mem]

@[simp] theorem execCmdLaunch_wf {n : Nat} {s : State} (hs : s.mem.wf = true) : NextWf (execCmdLaunch n s) := by
  unfold execCmdLaunch
  rw [nextWf_next]
  refine State.onCmd_wf (fun d k w s hs => ?_) hs
  dsimp only
  split
  · split
    · simp [hs]
    · split
      · next e => simp [State.wf_of_eq (by simp [hs]) e]
      · next e => simp [State.wf_of_eq (by simp [hs]) e]
      · next e =>
        have ht := State.wf_of_eq (by simp [hs]) e
        split <;> simp [ht]
  · split
    · simp [hs]
    · split
      · next e => simp [State.wf_of_eq (by simp [hs]) e]
      · next e =>
        have ht := State.wf_of_eq (by simp [hs]) e
        split
        · simp [ht]
        · split
          · next e => simp [State.wf_of_eq (by simp [ht]) e]
          · next e =>
            have hu := State.wf_of_eq (by simp [ht]) e
            split
            · simp [hu]
            · split <;> simp [hu]

@[simp] theorem State.watchWaits_wf {s : State} {l : Launch} (hs : s.mem.wf = true) : (s.watchWaits l).mem.wf = true := by
  unfold State.watchWaits
  rw [State.modLaunch_mem]
  refine PairWf.foldl (fun p a hp => ?_) (PairWf.mk _ hs) _
  rcases h : p.2.cpWatch l.ctx a with ⟨key, t⟩
  exact PairWf.mk _ (State.wf_of_eq (State.cpWatch_wf hp) h)

@[simp] theorem State.readWaits_wf {s : State} {l : Launch} {as : List Nat} (hs : s.mem.wf = true) :
    (s.readWaits l as).2.mem.wf = true := by
  induction as generalizing s with
  | nil => exact hs
  | cons a as ih =>
    simp only [State.readWaits]
    split
    · next e => exact State.wf_of_eq (by simp [hs]) e
    · next e =>
      have ht := State.wf_of_eq (by simp [hs]) e
      split <;> next e => exact State.wf_of_eq (ih ht) e

@[simp] theorem State.startLaunch_wf {s : State} {l : Launch} (hs : s.mem.wf = true) : (s.startLaunch l).mem.wf = true := by
  unfold State.startLaunch
  split <;> simp [hs]

@[simp] theorem execLaunchWaitRelease_wf {slot : Nat} {s : State} (hs : s.mem.wf = true) : NextWf (execLaunchWaitRelease slot s) := by
  unfold execLaunchWaitRelease
  rw [nextWf_next]
  grind [State.storeJoin_wf, State.defer_mem, State.watchWaits_wf, State.readWaits_wf, State.endLook_mem, State.takeBack_mem,
    State.startLaunch_wf]

@[simp] theorem execLaunchFinish_wf {slot : Nat} {s : State} (hs : s.mem.wf = true) : NextWf (execLaunchFinish slot s) := by
  unfold execLaunchFinish
  dsimp only
  (repeat' split) <;> simp [hs]

/-- Reading an entry for a command keeps the form where what is done with the entry does. -/
@[simp] theorem State.cpEntry_wf {s : State} {d : StreamDesc} {n k h : Nat} {f : Nat × Nat → State → State} {again : Turn}
    (hf : ∀ e s, s.mem.wf = true → (f e s).mem.wf = true) (hs : s.mem.wf = true) : (s.cpEntry d n k h f again).mem.wf = true := by
  unfold State.cpEntry
  split
  · simp [hs]
  · split <;> next e => simp [hf, State.wf_of_eq (by simp [hs]) e]

@[simp] theorem execCmdCopy_wf {n : Nat} {s : State} (hs : s.mem.wf = true) : NextWf (execCmdCopy n s) := by
  refine (nextWf_next _).2 (State.onCmd_wf (fun d k w s hs => ?_) hs)
  grind [State.cpEntry_wf, State.drawNat_mem, State.enqueueCopy_mem, State.modStream_mem]

@[simp] theorem execCmdColl_wf {n : Nat} {s : State} (hs : s.mem.wf = true) : NextWf (execCmdColl n s) := by
  refine (nextWf_next _).2 (State.onCmd_wf (fun d k w s hs => ?_) hs)
  grind [State.defer_mem, State.cpEntry_wf, State.enqueueColl_mem, State.modStream_mem]

@[simp] theorem execCmdWaitmem_wf {n : Nat} {s : State} (hs : s.mem.wf = true) : NextWf (execCmdWaitmem n s) := by
  refine (nextWf_next _).2 (State.onCmd_wf (fun d k w s hs => ?_) hs)
  grind [State.stopStream_mem, State.cpWatch_wf, State.modStream_mem, State.cpRead_wf, State.defer_mem, State.finishCmd_wf]

@[simp] theorem execWaitmemRecheck_wf {n : Nat} {s : State} (hs : s.mem.wf = true) : NextWf (execWaitmemRecheck n s) := by
  refine (nextWf_next _).2 (State.onCmd_wf (fun d k w s hs => ?_) hs)
  grind [State.post_mem]

@[simp] theorem execCmdWritemem_wf {n : Nat} {s : State} (hs : s.mem.wf = true) : NextWf (execCmdWritemem n s) := by
  refine (nextWf_next _).2 (State.onCmd_wf (fun d k w s hs => ?_) hs)
  grind [State.defer_mem, State.finishCmd_wf, State.stopStream_mem, State.cpWrite_wf, State.modStream_mem]

@[simp] theorem execCmdFence_wf {n : Nat} {s : State} (hs : s.mem.wf = true) : NextWf (execCmdFence n s) := by
  refine (nextWf_next _).2 (State.onCmd_wf (fun d k w s hs => ?_) hs)
  grind [State.defer_mem, State.finishCmd_wf, State.flushDies_wf]

@[simp] theorem State.biasPages_wf {s : State} {d : StreamDesc} {n k va m : Nat} (hs : s.mem.wf = true) :
    (s.biasPages d n k va m).2.mem.wf = true := by
  induction m with
  | zero => exact hs
  | succ m ih =>
    simp only [State.biasPages]
    split
    · next e => exact State.wf_of_eq ih e
    · next e =>
      have ht := State.wf_of_eq ih e
      split <;> next e =>
        have hu := State.wf_of_eq (by simp [ht]) e
        (repeat' split) <;> simp [hu]

@[simp] theorem execCmdBias_wf {n : Nat} {s : State} (hs : s.mem.wf = true) : NextWf (execCmdBias n s) := by
  refine (nextWf_next _).2 (State.onCmd_wf (fun d k w s hs => ?_) hs)
  grind [State.stopStream_mem, State.biasPages_wf, State.defer_mem, State.modStream_mem, State.finishCmd_wf, State.modCoh_mem,
    State.postAll_mem]

/-! ### The mailbox -/

@[simp] theorem done_state (s : State) (payload : List Byte) : (done s payload).state = s := rfl

@[simp] theorem refused_state (s : State) (status : Nat) : (refused s status).state = s := rfl

@[simp] theorem Answer.state_ite (p : Prop) [Decidable p] (a b : Answer) :
    (if p then a else b).state = if p then a.state else b.state := by
  split <;> rfl

/-- Serving a request keeps the form where the service does. -/
@[simp] theorem State.serve_wf {s : State} {n : Nat} {len : Nat → Bool} {f : State → Answer}
    (hf : ∀ s, s.mem.wf = true → (f s).state.mem.wf = true) (hs : s.mem.wf = true) : (s.serve n len f).mem.wf = true := by
  unfold State.serve
  (repeat' split) <;> simp [hs, hf]

@[simp] theorem State.onCtx_wf {s : State} {f : Ctx → Answer} (hf : ∀ x, (f x).state.mem.wf = true) (hs : s.mem.wf = true) :
    (s.onCtx f).state.mem.wf = true := by
  unfold State.onCtx
  split
  · split
    · exact hf _
    · exact hs
  · exact hs

@[simp] theorem execCtxcreate_wf {s : State} (hs : s.mem.wf = true) : NextWf (execCtxcreate s) := by
  unfold execCtxcreate
  dsimp only
  split
  · simp [hs]
  · refine (nextWf_next _).2 (State.serve_wf (fun s hs => ?_) hs)
    (repeat' split) <;> simp [hs]

@[simp] theorem execMailboxUnknownService_wf {s : State} (hs : s.mem.wf = true) : NextWf (execMailboxUnknownService s) := by
  unfold execMailboxUnknownService
  split <;> simp [hs]

/-! ### Power and bring-up -/

@[simp] theorem execPowerEnterC1_wf {core : Nat} {s : State} (hs : s.mem.wf = true) : NextWf (execPowerEnterC1 core s) := by
  simp [execPowerEnterC1, hs]

@[simp] theorem State.evictCore_wf {s : State} {n : Nat} (hs : s.mem.wf = true) : (s.evictCore n).mem.wf = true := by
  unfold State.evictCore
  grind [State.forget_wf, State.sendEvict_wf, State.foldl_wf]

@[simp] theorem execPowerEnterC2_wf {cl : Nat} {s : State} (hs : s.mem.wf = true) : NextWf (execPowerEnterC2 cl s) := by
  unfold execPowerEnterC2
  rw [nextWf_next]
  grind [State.setCrew_mem, State.saveSegs_mem, State.setCore_mem, State.evictCore_wf, State.foldl_wf]

@[simp] theorem execPowerEnterC3_wf {die : Nat} {s : State} (hs : s.mem.wf = true) : NextWf (execPowerEnterC3 die s) := by
  simp [execPowerEnterC3, hs]

@[simp] theorem execPowerEnterC4_wf {s : State} (hs : s.mem.wf = true) : NextWf (execPowerEnterC4 s) := by
  simp [execPowerEnterC4, hs]

@[simp] theorem execPowerWake_wf {r : PowerRes} {s : State} (hs : s.mem.wf = true) : NextWf (execPowerWake r s) := by
  unfold execPowerWake
  rw [nextWf_next]
  (repeat' split) <;> simp [hs]

@[simp] theorem execHostWake_wf {s : State} (hs : s.mem.wf = true) : NextWf (execHostWake s) := by
  simp [execHostWake, hs]

@[simp] theorem execThermalThrottle_wf {milliC watts : Nat} {s : State} (hs : s.mem.wf = true) :
    NextWf (execThermalThrottle milliC watts s) := by
  simp [execThermalThrottle, hs]

@[simp] theorem execOvertempShutdown_wf {milliC : Nat} {s : State} (hs : s.mem.wf = true) : NextWf (execOvertempShutdown milliC s) := by
  unfold execOvertempShutdown
  rw [nextWf_next]
  exact State.ite_wf hs State.reset_mem_wf

@[simp] theorem execPowerGood_wf {b : BringUp} {s : State} (hs : s.mem.wf = true) : NextWf (execPowerGood b s) := by
  simp [execPowerGood, hs]

/-! ### The passing of a clock -/

@[simp] theorem State.settleQuantum_wf {s : State} (hs : s.mem.wf = true) : s.settleQuantum.mem.wf = true := by
  simp +contextual [State.settleQuantum, hs]

@[simp] theorem State.victim_wf {s : State} {slice set : Nat} (hs : s.mem.wf = true) : (s.victim slice set).mem.wf = true := by
  unfold State.victim
  refine State.ite_wf hs ?_
  rw [State.trimL2_mem]
  have hd : s.drawNat.2.mem.wf = true := by rwa [State.drawNat_mem]
  exact State.ite_wf (State.ite_wf (State.writeBack_wf hd) (State.foldl_wf (fun s k hs => State.dropHost_wf hs) hd _))
    (State.foldl_wf (fun s e hs => State.sendEvict_wf hs) hd _)

@[simp] theorem State.moveHalf_wf {s : State} {h : Half} (hs : s.mem.wf = true) : (s.moveHalf h).mem.wf = true := by
  unfold State.moveHalf
  dsimp only
  (repeat' split) <;> simp [hs]

@[simp] theorem State.secondHalf_wf {s : State} (hs : s.mem.wf = true) : s.secondHalf.mem.wf = true := by
  unfold State.secondHalf
  grind [State.moveHalf_wf, State.flushHalves_wf, State.complete_wf, State.defer_mem, State.foldl_wf]

@[simp] theorem State.other_wf {t : Turn} {s : State} (hs : s.mem.wf = true) : (State.other t s).mem.wf = true := by
  unfold State.other
  split <;> simp [hs]

@[simp] theorem State.spontaneous_wf {s : State} (hs : s.mem.wf = true) : s.spontaneous.mem.wf = true := by
  unfold State.spontaneous
  dsimp only
  (repeat' split) <;> simp [hs]

@[simp] theorem State.idle_wf {s : State} (hs : s.mem.wf = true) : s.idle.mem.wf = true := by
  simp [State.idle, hs]

end Sys2Proof.Machine
end

section
/-! SUPPORT. Fetching, every instruction and every step keep the memory in its canonical form. -/

namespace Sys2Proof.Machine

/-- What comes of fetching keeps the canonical form. -/
def Fetched.Wf : Fetched → Prop
  | .run _ s => s.mem.wf = true
  | .stop s => s.mem.wf = true

/-- What comes of reading code keeps the canonical form. -/
def Code.Wf : Code → Prop
  | .ok _ s => s.mem.wf = true
  | .stop s => s.mem.wf = true

@[simp] theorem Fetched.wf_run (i : Instr) (s : State) : (Fetched.run i s).Wf ↔ s.mem.wf = true := Iff.rfl

@[simp] theorem Fetched.wf_stop (s : State) : (Fetched.stop s).Wf ↔ s.mem.wf = true := Iff.rfl

@[simp] theorem Code.wf_ok (m : Map CodeWord) (s : State) : (Code.ok m s).Wf ↔ s.mem.wf = true := Iff.rfl

@[simp] theorem Code.wf_stop (s : State) : (Code.stop s).Wf ↔ s.mem.wf = true := Iff.rfl

theorem State.decodeFor_wf {s : State} {cid : Nat} {c : Cohort} {w : CodeWord} (hs : s.mem.wf = true) : (s.decodeFor cid c w).Wf := by
  unfold State.decodeFor
  (repeat' split) <;> simp [hs]

theorem State.readCode_wf {s : State} {cid : Nat} {c : Cohort} {ps : List (Nat × Nat)} {m : Map CodeWord} (hs : s.mem.wf = true) :
    (s.readCode cid c ps m).Wf := by
  induction ps generalizing s m with
  | nil => exact hs
  | cons p ps ih =>
    simp only [State.readCode]
    split
    · simp [hs]
    · split
      · split
        · simp [hs]
        · split
          · split
            · simp [hs]
            · split
              · simp [hs]
              · split
                · exact ih (by simp [hs])
                · simp [hs]
          · split
            · simp [hs]
            · exact ih (by simp [hs])
      · simp [hs]
      · simp [hs]
      · simp [hs]
      · exact State.foldl_wf (fun s l hs => by simp [hs]) (by simp [hs]) _

theorem State.fetchTrace_wf {s : State} {cid : Nat} {c : Cohort} (hs : s.mem.wf = true) : (s.fetchTrace cid c).Wf := by
  unfold State.fetchTrace
  have hr := State.readCode_wf (cid := cid) (c := c) (ps := [(c.pc, 1)]) (m := []) hs
  split
  · split
    · next e => rw [e] at hr; exact State.readCode_wf hr
    · exact hr
  · exact State.readCode_wf hs

theorem State.fetch_wf {s : State} {cid : Nat} (hs : s.mem.wf = true) : (s.fetch cid).Wf := by
  unfold State.fetch
  split
  · exact hs
  · split
    · exact hs
    · dsimp only
      split
      · exact State.decodeFor_wf hs
      · next c _ _ _ _ =>
        have ht := State.fetchTrace_wf (s := { s with cohorts := s.cohorts.map fun (e : Nat × Cohort) =>
          (e.1, { e.2 with yieldFor := e.2.yieldFor.filter (· != cid) }) }) (cid := cid) (c := c) hs
        split
        · next e => rw [e] at ht; exact ht
        · next e => rw [e] at ht; exact State.decodeFor_wf (by simpa using ht)

theorem exec_wf {i : Instr} {s : State} (hs : s.mem.wf = true) : NextWf (exec i s) := by
  unfold exec
  cases i
  case iadd | isub | imul | imulh | imad | imadLong | imin | imax | and | or | xor | shl | shr | sha | funnel | bfe | bfi | popc
      | clz | brev | prmt | iset | pset | sel | mov | padd | lea | cvti | fmin | fmax | dmin | dmax | hmin2 | hmax2 | fset | dset
      | hset2 | fclass | frnd | fex2 | flg2 | fsinp | fcosp | cvt | pack | l6pack | l6unpk | w4unpk =>
    exact onCohort_wf (fun _ _ hs => State.issueLanes_wf hs) hs
  case iaddc | vote | matchv | compact | scan | redux =>
    exact onCohort_wf (fun _ _ hs => State.issueAlu_wf hs) hs
  case fadd | fmul | ffma | dadd | dmul | dfma | hadd2 | hmul2 | hfma2 | frcp | frsq | drcp | drsq =>
    exact onCohort_wf (fun _ _ hs => State.issueChecked_wf hs) hs
  case srd | movi | movi64 | csrr =>
    exact onCohort_wf (fun _ _ hs => State.issueImm_wf hs) hs
  case guard | guardr | guardnz =>
    exact onCohort_wf (fun _ _ hs => State.issueGuard_wf hs) hs
  case commitNext | commitSel | commitInd | commitCall | commitRet | commitExit | commitBar | commitRwait =>
    exact onCohort_wf (fun _ _ hs => State.commit_wf hs) hs
  case csrw | ctxPtrootWrite | crewTimerWrite =>
    exact onCohort_wf (fun _ _ hs => State.csrWrite_wf hs) hs
  case errInjectL2Single | errInjectL2Uncorrectable | errInjectHbmUncorrectable | errInjectCheckMismatch | errInjectFpDisturb
      | errInjectDisarm =>
    exact onCohort_wf (fun _ _ hs => State.injectWrite_wf hs) hs
  case version | whoami | callsvUnknown =>
    exact onCohort_wf (fun _ _ hs => State.service_wf hs) hs
  case st => exact onCohort_wf (fun _ _ hs => State.issueMem_wf (fun _ _ hs => State.storeLane_wf hs) hs) hs
  case atomcas => exact onCohort_wf (fun _ _ hs => State.issueMem_wf (fun _ _ hs => State.casLane_wf hs) hs) hs
  case lds => exact onCohort_wf (fun _ _ hs => State.issueSpad_wf (fun _ _ hs => State.ldsLane_wf hs) hs) hs
  case sts => exact onCohort_wf (fun _ _ hs => State.issueSpad_wf (fun _ _ hs => State.stsLane_wf hs) hs) hs
  case atoms => exact onCohort_wf (fun _ _ hs => State.issueSpad_wf (fun _ _ hs => State.atomsLane_wf hs) hs) hs
  case renew => exact onCohort_wf (fun _ _ hs => State.issueSpad_wf (fun _ _ hs => State.renewLane_wf hs) hs) hs
  case arm => exact onCohort_wf (fun _ _ hs => State.issueSpad_wf (fun _ _ hs => State.armLane_wf hs) hs) hs
  case spage => exact onCohort_wf (fun _ _ hs => State.issueSpad_wf (fun _ _ hs => State.spageLane_wf hs) hs) hs
  case mzero => exact onCohort_wf (fun _ _ hs => State.issueTile_wf (fun _ hs => hs) hs) hs
  case mma | mmasp => exact onCohort_wf (fun _ _ hs => State.issueTile_wf (fun _ hs => by simp [hs]) hs) hs
  case mld | mst => exact onCohort_wf (fun _ _ hs => State.issueTile_wf (fun _ hs => by simp [hs]) hs) hs
  case status | eventack | ctxdestroy | preempt | slice | ptroot | testenable | partition | streamtab | commcreate | peerset
      | snapdesc | tolerance | nocweight | retired | tables | sleepreq | attest =>
    refine (nextWf_next _).2 (State.serve_wf (fun s hs => ?_) hs)
    (repeat' split) <;> simp [hs]
  all_goals simp [hs]

theorem step_wf {s : State} (hs : s.mem.wf = true) : NextWf (step s) := by
  unfold step
  split
  · simp [hs]
  · next c rest _ =>
    have hf := State.fetch_wf (s := { s with agenda := rest }) (cid := c) hs
    split
    · next e => rw [e] at hf; exact exec_wf hf
    · next e => rw [e] at hf; simpa using hf
  · exact exec_wf hs
  · exact (nextWf_next _).2 (State.other_wf hs)

end Sys2Proof.Machine
end

section
/-! SUPPORT. The words that a fetch holds: the listed bytes of memory, laid side by side, are the bytes of memory. -/

namespace Sys2Proof.Machine

variable {α : Type}

/-- What a table finds it lists. -/
theorem Map.mem_of_find {m : Map α} {k : Nat} {v : α} (h : m.find k = some v) : (k, v) ∈ m := by
  induction m with
  | nil => simp at h
  | cons e m ih =>
    obtain ⟨j, w⟩ := e
    simp only [Map.find] at h
    split at h
    · next hj => simp_all
    · exact List.mem_cons_of_mem _ (ih h)

/-- The keys of a rising table are at least its bound. -/
theorem Map.le_of_mem_rising {m : Map α} {lo : Nat} (hr : Map.rising lo m = true) {e : Nat × α} (h : e ∈ m) : lo ≤ e.1 := by
  induction m generalizing lo with
  | nil => simp at h
  | cons x m ih =>
    obtain ⟨j, w⟩ := x
    simp only [Map.rising, Bool.and_eq_true, decide_eq_true_eq] at hr
    rcases List.mem_cons.mp h with rfl | h
    · exact hr.1
    · have := ih hr.2 h; omega

/-- A rising table finds what it lists. -/
theorem Map.find_of_mem_rising {m : Map α} {lo : Nat} (hr : Map.rising lo m = true) {k : Nat} {v : α} (h : (k, v) ∈ m) :
    m.find k = some v := by
  induction m generalizing lo with
  | nil => simp at h
  | cons x m ih =>
    obtain ⟨j, w⟩ := x
    simp only [Map.rising, Bool.and_eq_true, decide_eq_true_eq] at hr
    rcases List.mem_cons.mp h with h | h
    · simp_all [Map.find]
    · have hj : j ≠ k := by have := Map.le_of_mem_rising hr.2 h; simp only at this; omega
      simp [Map.find, hj, ih hr.2 h]

/-- A byte that canonical memory lists reads as it is listed. -/
theorem Memory.read_of_mem {m : Memory} (hm : m.wf = true) {k : Nat} {b : Byte} (h : (k, b) ∈ m) : m.read k = b := by
  simp only [Memory.wf, Map.wf, Bool.and_eq_true] at hm
  simp [Memory.read, Map.get, Map.find_of_mem_rising hm.1 h]

/-- Memory lists the bytes that do not read as unlisted ones. -/
theorem Memory.mem_of_read {m : Memory} {k : Nat} (h : m.read k ≠ memDefault) : (k, m.read k) ∈ m := by
  cases hf : Map.find (α := Byte) m k with
  | none => simp [Memory.read, Map.get, hf] at h
  | some b => simpa [Memory.read, Map.get, hf] using Map.mem_of_find hf

/-- The bits of the little-endian number of some bytes of memory (R2). -/
theorem Memory.testBit_natOf_readBytes (m : Memory) (a n j : Nat) :
    (natOf (m.readBytes a n)).testBit j = (decide (j < 8 * n) && (m.read (a + j / 8)).getLsbD (j % 8)) := by
  induction n generalizing a j with
  | zero => simp [Memory.readBytes, natOf]
  | succ n ih =>
    have hb : (m.read a).toNat < 2 ^ 8 := (m.read a).isLt
    rw [Memory.readBytes, natOf, show (256 : Nat) = 2 ^ 8 from rfl, Nat.add_comm, Nat.testBit_two_pow_mul_add _ hb]
    split
    · next hj => simp [Nat.div_eq_of_lt hj, Nat.mod_eq_of_lt hj, BitVec.testBit_toNat, show j < 8 * (n + 1) by omega]
    · next hj =>
      rw [ih, show a + 1 + (j - 8) / 8 = a + j / 8 by omega, show (j - 8) % 8 = j % 8 by omega]
      congr 1
      simp only [decide_eq_decide]; omega

/-- A listed byte at its place in its word, counted from a key. -/
def placed (key : Nat) (c : Nat × Byte) : CodeWord := c.2.setWidth 128 <<< (8 * ((c.1 - key) % 16))

/-- A word with a byte placed in it. -/
def addByte (key a : Nat) (w : Map CodeWord) (c : Nat × Byte) : Map CodeWord :=
  w.set 0 (a + (c.1 - key) / 16) (w.get 0 (a + (c.1 - key) / 16) ||| placed key c)

theorem Memory.words_eq (m : Memory) (key n a : Nat) :
    m.words key n a = (m.filter fun (c : Nat × Byte) => key ≤ c.1 && c.1 < key + n).foldl (addByte key a) [] := rfl

theorem getLsbD_placed (key j : Nat) (c : Nat × Byte) (hj : j < 128) :
    (placed key c).getLsbD j = true ↔ (c.1 - key) % 16 = j / 8 ∧ c.2.getLsbD (j % 8) = true := by
  simp only [placed, BitVec.getLsbD_shiftLeft, BitVec.getLsbD_setWidth, Bool.and_eq_true, decide_eq_true_eq, Bool.not_eq_true']
  constructor
  · rintro ⟨⟨-, h⟩, -, hb⟩
    have := BitVec.lt_of_getLsbD hb
    have h : ¬j < 8 * ((c.1 - key) % 16) := by simpa using h
    have hr : (c.1 - key) % 16 = j / 8 := by omega
    exact ⟨hr, by rwa [show j % 8 = j - 8 * ((c.1 - key) % 16) by omega]⟩
  · rintro ⟨hr, hb⟩
    rw [hr]
    exact ⟨⟨hj, by simp; omega⟩, by omega, by rwa [show j - 8 * (j / 8) = j % 8 by omega]⟩

theorem getLsbD_get_foldl_addByte (key a k j : Nat) (l : List (Nat × Byte)) (w : Map CodeWord) :
    (Map.get (l.foldl (addByte key a) w) 0 k).getLsbD j = true ↔
      (Map.get w 0 k).getLsbD j = true ∨ ∃ c ∈ l, a + (c.1 - key) / 16 = k ∧ (placed key c).getLsbD j = true := by
  induction l generalizing w with
  | nil => simp
  | cons c l ih =>
    rw [List.foldl_cons, ih]
    by_cases hk : k = a + (c.1 - key) / 16
    · subst hk; simp [addByte, or_assoc]
    · simp [addByte, Map.get_set_ne _ _ _ hk, Ne.symm hk]

theorem Memory.get_words (m : Memory) (key n a i : Nat) (hm : m.wf = true) (hi : i < n) :
    Map.get (m.words key (16 * n) a) 0 (a + i) = BitVec.ofNat 128 (natOf (m.readBytes (key + 16 * i) 16)) := by
  apply BitVec.eq_of_getLsbD_eq
  intro j hj
  rw [Bool.eq_iff_iff, Memory.words_eq, getLsbD_get_foldl_addByte, BitVec.getLsbD_ofNat, Memory.testBit_natOf_readBytes]
  simp only [List.mem_filter, Bool.and_eq_true, decide_eq_true_eq]
  constructor
  · rintro (h | ⟨⟨k, b⟩, ⟨hc, hlo, hhi⟩, ha, hp⟩)
    · simp [Map.get] at h
    · obtain ⟨hr, hb⟩ := (getLsbD_placed key j _ hj).mp hp
      simp only at hlo hhi ha hr hb
      rw [show key + 16 * i + j / 8 = k by omega, Memory.read_of_mem hm hc]
      exact ⟨hj, by omega, hb⟩
  · rintro ⟨-, -, hb⟩
    have hd : m.read (key + 16 * i + j / 8) ≠ memDefault := by
      intro h; simp [h, memDefault] at hb
    refine .inr ⟨_, ⟨Memory.mem_of_read hd, ?_, ?_⟩, ?_, (getLsbD_placed key j _ hj).mpr ⟨?_, hb⟩⟩ <;> simp only <;> omega

end Sys2Proof.Machine
end

section
/-! SUPPORT. The branches of a step and of a fetch. -/

namespace Sys2Proof.Machine

/-! ### The first turn -/

theorem step_of_run {s u : State} {cid : Nat} {rest : List Turn} {i : Instr} (h : s.agenda = .issue cid :: rest)
    (hf : State.fetch { s with agenda := rest } cid = .run i u) : step s = exec i u := by
  simp only [step, h, hf]

theorem step_of_stop {s u : State} {cid : Nat} {rest : List Turn} (h : s.agenda = .issue cid :: rest)
    (hf : State.fetch { s with agenda := rest } cid = .stop u) : step s = .next u := by
  simp only [step, h, hf]

theorem step_hw {s : State} {i : Instr} {rest : List Turn} (h : s.agenda = .hw i :: rest) :
    step s = exec i { s with agenda := rest, cur := none } := by
  simp only [step, h]

theorem step_idle {s : State} (h : s.agenda = []) : step s = .next s.idle := by
  simp only [step, h]

theorem step_other {s : State} {t : Turn} {rest : List Turn} (h : s.agenda = t :: rest) (hi : ∀ cid, t ≠ .issue cid)
    (hh : ∀ i, t ≠ .hw i) : step s = .next (State.other t { s with agenda := rest }) := by
  cases t with
  | issue cid => exact absurd rfl (hi cid)
  | hw i => exact absurd rfl (hh i)
  | _ => simp only [step, h]

/-! ### Fetching -/

/-- A cohort that begins to issue is waited for by no YIELD (R96). -/
def State.beginIssue (s : State) (cid : Nat) : State :=
  { s with cohorts := s.cohorts.map fun (e : Nat × Cohort) => (e.1, { e.2 with yieldFor := e.2.yieldFor.filter (· != cid) }) }

/-- A word that decodes to an instruction that may stand where it stands is run. -/
theorem State.decodeFor_ok {s : State} {cid : Nat} {c : Cohort} {w : CodeWord} {i : Instr} (hd : decodeIn (s.decodeEnv c) w = .ok i)
    (hp : placeOk c i = true) : s.decodeFor cid c w = .run i { s with cur := some cid } := by
  simp only [State.decodeFor, hd, hp, if_true]

theorem State.fetch_of_held {s : State} {cid : Nat} {c : Cohort} {m : Map CodeWord} (hc : s.cohorts.find cid = some c)
    (hi : s.canIssue c = true) (hm : c.code = some m) :
    s.fetch cid = (s.beginIssue cid).decodeFor cid c (Map.get m 0 c.pc) := by
  simp only [State.fetch, hc, hi, hm]; rfl

theorem State.fetch_of_read {s u : State} {cid : Nat} {c : Cohort} {m : Map CodeWord} (hc : s.cohorts.find cid = some c)
    (hi : s.canIssue c = true) (hm : c.code = none) (hr : (s.beginIssue cid).fetchTrace cid c = .ok m u) :
    s.fetch cid = ((u.dropFetched cid).modCohort cid fun k => { k with code := some m }).decodeFor cid c (Map.get m 0 c.pc) := by
  unfold State.beginIssue at hr
  simp only [State.fetch, hc, hi, hm, hr]
  rfl

/-- A piece of code that lies in a page of the device which nothing holds is read, and its words are held. -/
theorem State.readCode_local {s u : State} {cid : Nat} {c : Cohort} {a n va key unit : Nat} {pte : Dword} {r : Tr}
    {rest : List (Nat × Nat)} {m : Map CodeWord} (hva : s.codeVa c.crew a = some va)
    (ht : s.translate (tcAgent c.core) (s.ctxOf c.crew) c.snap.ptroot (s.privOf (s.ctxOf c.crew)) va .exec none = (r, u))
    (hg : u.reachOf r = .go key pte unit) (hs : u.readStalled (icAgent c.core) 0 key (16 * n) = false) (hk : u.remoteKey key = false)
    (hp : (u.readHome key (16 * n)).poisonedIn key (16 * n) = none) :
    s.readCode cid c ((a, n) :: rest) m = ((u.readHome key (16 * n)).grantIc c.core key (16 * n) false).readCode cid c rest
      (m ++ Memory.words (u.readHome key (16 * n)).mem key (16 * n) a) := by
  simp [State.readCode, hva, ht, hg, hs, hk, hp]

/-- A piece of code holds a word. -/
theorem codePieces_pos {a fuel k : Nat} {p : Nat × Nat} {ps : List (Nat × Nat)} (h : codePieces a fuel k = p :: ps) : 0 < p.2 := by
  unfold codePieces at h
  split at h
  · simp at h
  · simp at h
  · next hk =>
    obtain ⟨rfl, -⟩ := List.cons.inj h
    have := Nat.pos_of_ne_zero hk
    simp only; omega

end Sys2Proof.Machine
end

section
/-! SUPPORT. The statements about a step and the canonical form of memory, settled. -/

namespace Sys2Proof.Claims
open Machine

/-- Settles O5: `State.landPiece` alone writes memory, by `Memory.writeBytes`, which keeps the canonical form; and every step keeps it
by `step_wf`. -/
theorem stepsKeepMemoryCanonical : Obligations.StepsKeepMemoryCanonical := fun _ _ hs h => (step_wf hs).wf _ h

/-- Settles O3: the branches of a step and of a fetch, and the bits of the words that a fetch holds. -/
theorem stepRunsTheDecodedInstruction : Obligations.StepRunsTheDecodedInstruction := by
  refine ⟨fun s u cid rest i h => ⟨step_of_run h, step_of_stop h⟩, fun s i rest => step_hw, fun s => step_idle,
    fun s t rest => step_other, fun m key n a i => Memory.get_words m key n a i, ?_⟩
  intro s c cid rest i hag hc hci hp begin'
  refine ⟨fun m hm hd => step_of_run hag ?_, ?_⟩
  · exact (State.fetch_of_held (s := { s with agenda := rest }) hc hci hm).trans (State.decodeFor_ok hd hp)
  · intro u va key unit n pte r hcode hst hva hps ht hg hs hk v hpo hwf w hd
    refine step_of_run hag ?_
    have hr : begin'.fetchTrace cid c = .ok (Memory.words v.mem key (16 * n) c.pc) (v.grantIc c.core key (16 * n) false) := by
      have hst : (c.st == .trc) = false := by simpa using hst
      simp only [State.fetchTrace, hst, hps]
      exact State.readCode_local hva ht hg hs hk hpo
    have hword := Memory.get_words v.mem key n c.pc 0 hwf (codePieces_pos hps)
    refine (State.fetch_of_read (s := { s with agenda := rest }) hc hci hcode hr).trans (State.decodeFor_ok ?_ hp)
    rw [show Map.get (Memory.words v.mem key (16 * n) c.pc) 0 c.pc = _ from hword]
    exact hd

/-- Settles O6: the reset state lists no byte. -/
theorem resetMemoryIsCanonical : Obligations.ResetMemoryIsCanonical := State.reset_mem_wf

end Sys2Proof.Claims
end

section
/-! SUPPORT. The reset values of the registers, and the statement about them, settled. -/

namespace Sys2Proof.Machine

/-! ### The registers of the device -/

theorem Package.reset_status : Package.reset.status = 0 := rfl

theorem Package.reset_failure : Package.reset.failure = 0 := rfl

/-- The weights of the seven classes in the order of R19's table. -/
theorem Package.reset_weights : Package.reset.weights = [8, 6, 6, 4, 4, 2, 1] := rfl

/-- At reset C1 alone is open (R380). -/
theorem Package.reset_tolerances : Package.reset.tolCluster = List.replicate 36 40 ∧ Package.reset.tolDie = List.replicate 4 0 ∧
    Package.reset.tolPackage = 0 := ⟨rfl, rfl, rfl⟩

/-- Bit 31 of the status register is ready (R373). -/
theorem State.not_ready_of_status_zero {s : State} (h : s.pkg.status = 0) : s.ready = false := by
  simp [State.ready, h]

/-! ### Contexts, crews and cohorts -/

theorem SysRegs.reset_values : SysRegs.reset.binAge = 64 ∧ SysRegs.reset.trapvec = 0 ∧ SysRegs.reset.errInject = 0 := ⟨rfl, rfl, rfl⟩

theorem State.reset_nothing_placed : State.reset.cohorts = [] ∧ State.reset.crews = [] ∧ State.reset.ctxs = [] := ⟨rfl, rfl, rfl⟩

end Sys2Proof.Machine

namespace Sys2Proof.Claims
open Machine

/-- Settles O7: register by register; the device is not ready because the status register is 0. -/
theorem resetLeavesTheGivenValues : Obligations.ResetLeavesTheGivenValues := by
  obtain ⟨hcluster, hdie, hpackage⟩ := Package.reset_tolerances
  obtain ⟨hage, htrap, hinject⟩ := SysRegs.reset_values
  have hready : State.reset.ready = false := State.not_ready_of_status_zero Package.reset_status
  exact ⟨Package.reset_status, Package.reset_failure, Package.reset_weights, hcluster, hdie, hpackage, hage, htrap, hinject, hready,
    State.reset_nothing_placed⟩

end Sys2Proof.Claims
end

section
/-! SUPPORT. Packing fields into a word and cutting them out again (R21). -/

namespace Sys2Proof

/-! ### Fields -/

/-- Every value fits the width of its field. -/
def FieldsFit : List Nat → List Nat → Prop
  | [], [] => True
  | w :: ws, v :: vs => v < 2 ^ w ∧ FieldsFit ws vs
  | _, _ => False

theorem packFields_lt {ws vs : List Nat} (h : FieldsFit ws vs) : packFields ws vs < 2 ^ ws.sum := by
  induction ws generalizing vs with
  | nil => cases vs with
    | nil => simp [packFields]
    | cons v vs => exact h.elim
  | cons w ws ih => cases vs with
    | nil => exact h.elim
    | cons v vs =>
      obtain ⟨hv, hvs⟩ := h
      have hrest := ih hvs
      rw [packFields, Nat.mod_eq_of_lt hv, List.sum_cons, Nat.pow_add]
      calc v + 2 ^ w * packFields ws vs < 2 ^ w * (packFields ws vs + 1) := by rw [Nat.mul_add]; omega
        _ ≤ 2 ^ w * 2 ^ ws.sum := Nat.mul_le_mul_left _ hrest

theorem unpack_packFields {ws vs : List Nat} (h : FieldsFit ws vs) : unpack ws (packFields ws vs) = vs := by
  induction ws generalizing vs with
  | nil => cases vs with
    | nil => rfl
    | cons v vs => exact h.elim
  | cons w ws ih => cases vs with
    | nil => exact h.elim
    | cons v vs =>
      obtain ⟨hv, hvs⟩ := h
      have hpos : 0 < 2 ^ w := Nat.two_pow_pos w
      rw [packFields, unpack, Nat.mod_eq_of_lt hv, Nat.add_mul_mod_self_left, Nat.mod_eq_of_lt hv,
        Nat.add_mul_div_left _ _ hpos, Nat.div_eq_of_lt hv, Nat.zero_add, ih hvs]

theorem opOf_packFields (op : Nat) (ws vs : List Nat) (h : op < 256) : opOf (packFields (8 :: ws) (op :: vs)) = op := by
  simp [opOf, packFields, Nat.mod_eq_of_lt h]

/-- The sub field of a word stands above opcode, predicate and stall (R21). -/
theorem sub_packFields (op p st sub : Nat) (ws vs : List Nat) (h : sub < 16) :
    packFields (8 :: 4 :: 4 :: 4 :: ws) (op :: p :: st :: sub :: vs) / 2 ^ 16 % 16 = sub := by
  simp only [packFields]
  omega

/-- A word whose opcode is not that of ILLEGAL is decoded by its fields. -/
theorem decode_packFields {op : Nat} {ws vs : List Nat} (hfit : FieldsFit (8 :: ws) (op :: vs)) (hsum : (8 :: ws).sum = 128)
    (hop : op ≠ 0xff) : decode (BitVec.ofNat 128 (packFields (8 :: ws) (op :: vs))) = decodeNat (packFields (8 :: ws) (op :: vs)) := by
  have hlt := packFields_lt hfit
  rw [hsum] at hlt
  rw [decode, BitVec.toNat_ofNat, Nat.mod_eq_of_lt hlt, opOf_packFields _ _ _ hfit.1]
  simp [hop]

/-! ### Codes -/

theorem RFile.code_lt (f : RFile) : f.code < 4 := by cases f <;> decide
theorem ModClass.code_lt (c : ModClass) : c.code < 8 := by cases c <;> decide
theorem Ty.code_lt (t : Ty) : t.code < 16 := by cases t <;> decide
theorem Rnd.code_lt (r : Rnd) : r.code < 4 := by cases r <;> decide
theorem Width.code_lt (w : Width) : w.code < 8 := by cases w <;> decide
theorem Order.code_lt (o : Order) : o.code < 8 := by cases o <;> decide
theorem Scope.code_lt (s : Scope) : s.code < 8 := by cases s <;> decide
theorem Use.code_lt (u : Use) : u.code < 8 := by cases u <;> decide
theorem AtomOp.code_lt (o : AtomOp) : o.code < 16 := by cases o <;> decide
theorem MmaKind.code_lt (k : MmaKind) : k.code < 16 := by cases k <;> decide
theorem CForm.code_lt (f : CForm) : f.code < 16 := by cases f <;> decide

@[simp] theorem RFile.ofCode_code (f : RFile) : RFile.ofCode f.code = some f := by cases f <;> rfl
@[simp] theorem ModClass.ofCode_code (c : ModClass) : ModClass.ofCode c.code = some c := by cases c <;> rfl
@[simp] theorem Ty.ofCode_code (t : Ty) : Ty.ofCode t.code = t := by cases t <;> rfl
@[simp] theorem Rnd.ofCode_code (r : Rnd) : Rnd.ofCode r.code = r := by cases r <;> rfl
@[simp] theorem Width.ofCode_code (w : Width) : Width.ofCode w.code = some w := by cases w <;> rfl
@[simp] theorem Order.ofCode_code (o : Order) : Order.ofCode o.code = some o := by cases o <;> rfl
@[simp] theorem Scope.ofCode_code (s : Scope) : Scope.ofCode s.code = some s := by cases s <;> rfl
@[simp] theorem Use.ofCode_code (u : Use) : Use.ofCode u.code = some u := by cases u <;> rfl
@[simp] theorem AtomOp.ofCode_code (o : AtomOp) : AtomOp.ofCode o.code = some o := by cases o <;> rfl
@[simp] theorem MmaKind.ofCode_code (k : MmaKind) : MmaKind.ofCode k.code = some k := by cases k <;> rfl
@[simp] theorem CForm.ofCode_code (f : CForm) : CForm.ofCode f.code = some f := by cases f <;> rfl

theorem toNat_lt_of_pow_le {w n : Nat} (x : BitVec w) (h : 2 ^ w ≤ n) : x.toNat < n := x.isLt.trans_le h

@[simp] theorem toNat_beq_one (b : Bool) : (b.toNat == 1) = b := by cases b <;> rfl

/-- A field of three bits is that of four without its highest. -/
@[simp] theorem ofNat_toNat_mod_eight (x : BitVec 3) : BitVec.ofNat 3 (x.toNat % 8) = x := by
  rw [Nat.mod_eq_of_lt x.isLt, BitVec.ofNat_toNat, BitVec.setWidth_eq]

theorem Modifier.fit (m : Modifier) : FieldsFit [3, 3, 5, 1] [m.cls.code, m.seg.toNat, m.dist.toNat, m.own.toNat] := by
  simp [FieldsFit, ModClass.code_lt, toNat_lt_of_pow_le, Bool.toNat_le]

theorem Modifier.code_lt (m : Modifier) : m.code < 4096 := packFields_lt m.fit

@[simp] theorem Modifier.ofCode_code (m : Modifier) : Modifier.ofCode m.code = some m := by
  simp [Modifier.ofCode, Modifier.code, unpack_packFields m.fit]

theorem Pred.code_lt (p : Pred) : p.code < 16 := packFields_lt (ws := [3, 1]) (by
  simp [FieldsFit, toNat_lt_of_pow_le, Bool.toNat_le])

@[simp] theorem Pred.ofCode_code (p : Pred) : Pred.ofCode p.code = p := by
  obtain ⟨neg, num⟩ := p
  have := num.isLt
  cases neg <;> simp [Pred.ofCode, Pred.code, packFields]

end Sys2Proof
end

section
/-! SUPPORT. Each format's decoder gives the fields back that its encoder has packed (R25 to R35). -/

namespace Sys2Proof

/-! ### Formats A and I -/

theorem AluOp.opcode_lt (o : AluOp) : o.opcode < 256 := by cases o <;> decide
theorem ImmOp.opcode_lt (o : ImmOp) : o.opcode < 256 := by cases o <;> decide
theorem MatOp.opcode_lt (o : MatOp) : o.opcode < 256 := by cases o <;> decide

theorem AluOp.fitA (o : AluOp) (x : Alu) (b : Src) : FieldsFit widthsA [o.opcode, x.pred.code, x.stall.toNat, x.sub.toNat, x.d.num.toNat,
    x.a.reg.num.toNat, b.reg.num.toNat, x.c.reg.num.toNat, x.a.mod.code, b.mod.code, x.c.mod.code, x.a.reg.file.code, b.reg.file.code,
    x.c.reg.file.code, x.d.file.code, x.ty.code, x.rnd.code, x.sat.toNat, x.ftz.toNat, x.a.neg.toNat, b.neg.toNat, x.c.neg.toNat,
    x.a.abs.toNat, b.abs.toNat, x.c.abs.toNat, 0] := by
  simp [FieldsFit, widthsA, AluOp.opcode_lt, Pred.code_lt, Modifier.code_lt, RFile.code_lt, Ty.code_lt, Rnd.code_lt, toNat_lt_of_pow_le,
    Bool.toNat_le]

theorem AluOp.fitI (o : AluOp) (x : Alu) (v : Word) : FieldsFit widthsI [o.opcode, x.pred.code, x.stall.toNat, 8 + x.sub.toNat,
    x.d.num.toNat, x.a.reg.num.toNat, x.a.mod.code, x.a.reg.file.code, x.d.file.code, x.ty.code, x.rnd.code, x.sat.toNat, 0, v.toNat,
    0] := by
  have hsub : 8 + x.sub.toNat < 16 := by have := x.sub.isLt; omega
  simp [FieldsFit, widthsI, AluOp.opcode_lt, Pred.code_lt, Modifier.code_lt, RFile.code_lt, Ty.code_lt, Rnd.code_lt, toNat_lt_of_pow_le,
    Bool.toNat_le, hsub]

theorem decodeA_encodeAlu (o : AluOp) {x : Alu} {b : Src} (hb : x.b = .src b) (h : aluFieldsOk o x = true) :
    decodeA o (encodeAlu o x) = .ok (o.instr x) := by
  have hx : (⟨x.pred, x.stall, x.sub, x.ty, x.rnd, x.sat, x.ftz, x.d, x.a, .src b, x.c⟩ : Alu) = x := by rw [← hb]
  simp [decodeA, encodeAlu, hb, unpack_packFields (o.fitA x b), hx, h]

/-- An immediate form has neither sign bits, nor ftz, nor a third operand (R27, R28). -/
theorem decodeI_encodeAlu (o : AluOp) {x : Alu} {v : Word} (hb : x.b = .imm v) (h : aluFieldsOk o x = true) :
    decodeI o (encodeAlu o x) = .ok (o.instr x) := by
  have hi : x.a.neg = false ∧ x.a.abs = false ∧ x.ftz = false ∧ x.c = Src.none := by
    simp only [aluFieldsOk, hb, Bool.and_eq_true, Bool.not_eq_true', beq_iff_eq] at h
    obtain ⟨-, ⟨⟨⟨-, hneg⟩, habs⟩, hftz⟩, hc⟩ := h
    exact ⟨hneg, habs, hftz, hc⟩
  obtain ⟨hneg, habs, hftz, hc⟩ := hi
  have ha : (⟨x.a.reg, x.a.mod, false, false⟩ : Src) = x.a := by generalize x.a = a at hneg habs ⊢; cases a; simp_all
  have hx : (⟨x.pred, x.stall, x.sub, x.ty, x.rnd, x.sat, false, x.d, x.a, .imm v, Src.none⟩ : Alu) = x := by rw [← hb, ← hc, ← hftz]
  simp [decodeI, encodeAlu, hb, unpack_packFields (o.fitI x v), ha, hx, h]

theorem lop3Fit (x : Alu) (b : Src) (tt : BitVec 8) : FieldsFit [8, 4, 4, 4, 8, 8, 8, 8, 12, 12, 12, 2, 2, 2, 2, 8, 1, 1, 1, 1, 1, 1, 18]
    [0x2b, x.pred.code, x.stall.toNat, 0, x.d.num.toNat, x.a.reg.num.toNat, b.reg.num.toNat, x.c.reg.num.toNat,
      x.a.mod.code, b.mod.code, x.c.mod.code, x.a.reg.file.code, b.reg.file.code, x.c.reg.file.code, x.d.file.code,
      tt.toNat, x.a.neg.toNat, b.neg.toNat, x.c.neg.toNat, x.a.abs.toNat, b.abs.toNat, x.c.abs.toNat, 0] := by
  simp [FieldsFit, Pred.code_lt, Modifier.code_lt, RFile.code_lt, toNat_lt_of_pow_le, Bool.toNat_le]

/-- LOP3 has a truth table in place of type, rounding, sat and ftz (R35), and no immediate form. -/
theorem lop3FieldsOk_shape {x : Alu} (h : lop3FieldsOk x = true) :
    x.sub = 0 ∧ x.ty = .u32 ∧ x.rnd = .rn ∧ x.sat = false ∧ x.ftz = false ∧ ∃ b, x.b = .src b := by
  unfold lop3FieldsOk at h
  cases hb : x.b <;> simp_all

theorem decodeLop3_encodeLop3 {x : Alu} (tt : BitVec 8) (h : lop3FieldsOk x = true) : decodeLop3 (encodeLop3 x tt) = .ok (.lop3 x tt) := by
  obtain ⟨hsub, hty, hrnd, hsat, hftz, b, hb⟩ := lop3FieldsOk_shape h
  have hx : (⟨x.pred, x.stall, 0#3, .u32, .rn, false, false, x.d, x.a, .src b, x.c⟩ : Alu) = x := by
    cases x; simp_all
  simp [decodeLop3, encodeLop3, hb, SrcB.reg, unpack_packFields (lop3Fit x b tt), hx, h]

/-! ### The fixed format I instructions -/

theorem ImmOp.fit (o : ImmOp) (x : ImmI) : FieldsFit widthsI [o.opcode, x.pred.code, x.stall.toNat, 8, x.d.num.toNat, x.a.num.toNat, 0,
    x.a.file.code, x.d.file.code, x.ty.code, 0, 0, 0, x.imm.toNat, 0] := by
  simp [FieldsFit, widthsI, ImmOp.opcode_lt, Pred.code_lt, RFile.code_lt, Ty.code_lt, toNat_lt_of_pow_le]

theorem decodeImm_encodeImm (o : ImmOp) {x : ImmI} (h : immFieldsOk o x = true) : decodeImm o (encodeImm o x) = .ok (o.instr x) := by
  simp [decodeImm, encodeImm, unpack_packFields (o.fit x), h]

theorem movi64Fit (x : Imm64) : FieldsFit [8, 4, 4, 4, 8, 8, 12, 2, 2, 4, 2, 1, 5, 64] [0x3b, x.pred.code, x.stall.toNat, 8,
    x.d.num.toNat, 0, 0, 0, x.d.file.code, 2, 0, 0, 0, x.imm.toNat] := by
  simp [FieldsFit, Pred.code_lt, RFile.code_lt, toNat_lt_of_pow_le]

theorem decodeMovi64_packFields {x : Imm64} (h : (!x.pred.reserved && x.d.file != .q) = true) :
    decodeMovi64 (packFields [8, 4, 4, 4, 8, 8, 12, 2, 2, 4, 2, 1, 5, 64] [0x3b, x.pred.code, x.stall.toNat, 8, x.d.num.toNat, 0, 0, 0,
      x.d.file.code, 2, 0, 0, 0, x.imm.toNat]) = .ok (.movi64 x) := by
  simp only [Bool.and_eq_true, Bool.not_eq_true', bne_iff_ne, ne_eq] at h
  simp [decodeMovi64, unpack_packFields (movi64Fit x), h]

/-! ### Format M -/

theorem memFit {op cls aop : Nat} (hop : op < 256) (hcls : cls < 4) (haop : aop < 16) (x : Mem) : FieldsFit widthsM
    [op, x.pred.code, x.stall.toNat, x.width.code, x.d.toNat, x.base.toNat, x.win.toNat, x.order.code,
    x.scope.code, x.use.code, x.split.toNat, x.cache.toNat, cls, x.e.toNat, aop, x.off.toNat, 0] := by
  have hw : x.width.code < 16 := x.width.code_lt.trans (by decide)
  have hs : x.scope.code < 8 := x.scope.code_lt
  simp [FieldsFit, widthsM, Pred.code_lt, toNat_lt_of_pow_le, Order.code_lt, Use.code_lt, Bool.toNat_le, *]

theorem decodeMem_encodeMem {op cls aop : Nat} (hop : op < 256) (hcls : cls < 4) (haop : aop < 16) (x : Mem) :
    decodeMem (encodeMem op x cls aop) = some (x, cls, aop, 0) := by
  simp [decodeMem, encodeMem, unpack_packFields (memFit hop hcls haop x)]

theorem MemOp.opcode_lt (o : MemOp) : o.opcode < 256 := by cases o <;> decide

theorem decodeM_encodeMem (o : MemOp) {x : Mem} (h : memFieldsOk o x = true) : decodeM o (encodeMem o.opcode x 0 0) = .ok (o.instr x) := by
  simp [decodeM, decodeMem_encodeMem o.opcode_lt, h]

theorem decodeAtom_encodeMem {x : Mem} {op : AtomOp} {cls : BitVec 2} (h : atomFieldsOk x op cls = true) :
    decodeAtom (encodeMem 0xa2 x cls.toNat op.code) = .ok (.atom x op cls) := by
  simp [decodeAtom, decodeMem_encodeMem (op := 0xa2) (by decide) cls.isLt op.code_lt, h]

/-! ### Formats T and H -/

theorem guardFit {op : Nat} (hop : op < 256) (x : Guard) : FieldsFit widthsT
    [op, x.pred.code, x.stall.toNat, 0, x.ra.toNat, 0, x.tgt.toNat, 0, x.lo.toNat, x.hi.toNat, 0, 0] := by
  simp [FieldsFit, widthsT, Pred.code_lt, toNat_lt_of_pow_le, hop]

theorem decodeT_encodeGuard {op : Nat} (hop : op = 2 ∨ op = 3 ∨ op = 4) {x : Guard} (h : guardFieldsOk op x = true) :
    decodeT op (encodeGuard op x) = .ok (if op == 0x02 then .guard x else if op == 0x03 then .guardr x else .guardnz x) := by
  have hlt : op < 256 := by omega
  have h5 : op ≠ 5 := by omega
  have h6 : op ≠ 6 := by omega
  simp [decodeT, encodeGuard, unpack_packFields (guardFit hlt x), h, h5, h6]

theorem skipFit (x : Skip) : FieldsFit widthsT [0x05, x.pred.code, x.stall.toNat, 0, 0, 0, x.n.toNat + 1, 0, 0, 0, 0, 0] := by
  have hn : x.n.toNat + 1 < 16777216 := by have := x.n.isLt; omega
  simp [FieldsFit, widthsT, Pred.code_lt, toNat_lt_of_pow_le, hn]

theorem decodeT_skip {x : Skip} (h : (!x.pred.reserved && x.n != 0) = true) :
    decodeT 0x05 (packFields widthsT [0x05, x.pred.code, x.stall.toNat, 0, 0, 0, x.n.toNat + 1, 0, 0, 0, 0, 0]) = .ok (.skip x) := by
  simp only [Bool.and_eq_true, Bool.not_eq_true', bne_iff_ne, ne_eq] at h
  have hpos : 0 < x.n.toNat := Nat.pos_of_ne_zero fun hz => h.2 (BitVec.eq_of_toNat_eq hz)
  have hlt : x.n.toNat < 8 := x.n.isLt
  simp [decodeT, unpack_packFields (skipFit x), h.1]
  omega

theorem moveCode_lt (m : Option Move) : moveCode m < 65536 := by
  cases m with
  | none => decide
  | some m => have := m.dst.isLt; have := m.src.isLt; simp only [moveCode]; omega

@[simp] theorem decodeMove_moveCode (m : Option Move) : decodeMove m.isSome.toNat (moveCode m) = m := by
  cases m with
  | none => rfl
  | some m =>
    have hs : m.src.toNat < 256 := m.src.isLt
    have hdiv : (m.dst.toNat * 256 + m.src.toNat) / 256 = m.dst.toNat := by omega
    have hmod : (m.dst.toNat * 256 + m.src.toNat) % 256 = m.src.toNat := by omega
    simp [decodeMove, moveCode, hdiv, hmod]

theorem commitFit (f : CForm) (x : Commit) : FieldsFit widthsT [0x06, x.pred.code, x.stall.toNat, f.code, x.ra.toNat, x.rb.toNat,
    x.tgt0.toNat, x.tgt1.toNat, if f == .rwait then x.count.toNat else moveCode x.move0,
    if f == .rwait then x.timeout.toNat else moveCode x.move1, x.move0.isSome.toNat + 2 * x.move1.isSome.toNat, 0] := by
  have hcount : (if f == .rwait then x.count.toNat else moveCode x.move0) < 65536 := by
    split; exacts [x.count.isLt, moveCode_lt _]
  have htime : (if f == .rwait then x.timeout.toNat else moveCode x.move1) < 65536 := by
    split; exacts [x.timeout.isLt, moveCode_lt _]
  have hen : x.move0.isSome.toNat + 2 * x.move1.isSome.toNat < 4 := by
    have := x.move0.isSome.toNat_le; have := x.move1.isSome.toNat_le; omega
  simp only [FieldsFit, widthsT, Nat.reducePow, hcount, htime, hen]
  simp [Pred.code_lt, CForm.code_lt, toNat_lt_of_pow_le]

theorem commitFieldsOk_rwait {f : CForm} {x : Commit} (h : commitFieldsOk f x = true) :
    if f = .rwait then x.move0 = none ∧ x.move1 = none else x.count = 0 ∧ x.timeout = 0 := by
  unfold commitFieldsOk at h
  cases f <;> simp_all

theorem decodeT_encodeCommit (f : CForm) {x : Commit} (h : commitFieldsOk f x = true) : decodeT 0x06 (encodeCommit f x) = .ok (f.instr x) := by
  have hm0 := x.move0.isSome.toNat_le
  have hlow : (x.move0.isSome.toNat + 2 * x.move1.isSome.toNat) % 2 = x.move0.isSome.toNat := by omega
  have hhigh : (x.move0.isSome.toNat + 2 * x.move1.isSome.toNat) / 2 = x.move1.isSome.toNat := by omega
  have hr := commitFieldsOk_rwait h
  by_cases hf : f = .rwait
  · subst hf
    obtain ⟨h0, h1⟩ := hr
    have hx : (⟨x.pred, x.stall, x.ra, x.rb, x.tgt0, x.tgt1, none, none, x.count, x.timeout⟩ : Commit) = x := by cases x; simp_all
    rw [decodeT, encodeCommit, unpack_packFields (commitFit _ x)]
    simp [h0, h1, decodeMove, hx, h]
  · have hf' : (f == .rwait) = false := by simpa using hf
    rw [if_neg hf] at hr
    have hx : (⟨x.pred, x.stall, x.ra, x.rb, x.tgt0, x.tgt1, x.move0, x.move1, 0#16, 0#16⟩ : Commit) = x := by cases x; simp_all
    have hmove (m : Option Move) : m.isSome = true ∨ moveCode m = 0 := by cases m <;> simp [moveCode]
    rw [decodeT, encodeCommit, unpack_packFields (commitFit f x)]
    simp [hf', hlow, hhigh, hmove, hx, h]

theorem trcFit (x : Trc) : FieldsFit widthsH [0x01, 7, x.stall.toNat, x.irr.toNat, x.full.toNat, 0, x.traceId.toNat,
      x.budget.toNat, x.len.toNat, 0] := by
  simp [FieldsFit, widthsH, toNat_lt_of_pow_le, Bool.toNat_le]

theorem decodeH_packFields {x : Trc} (h : trcFieldsOk x = true) : decodeH (packFields widthsH [0x01, 7, x.stall.toNat, x.irr.toNat,
    x.full.toNat, 0, x.traceId.toNat, x.budget.toNat, x.len.toNat, 0]) = .ok (.trc x) := by
  simp [decodeH, unpack_packFields (trcFit x), h]

/-! ### Format X and the words of common fields -/

theorem MatOp.subCode_lt (o : MatOp) (x : Mat) : o.subCode x < 16 := by
  have hk := x.kind.code_lt
  have hp := x.pair.toNat_le
  cases o <;> simp only [MatOp.subCode] <;> omega

theorem matFit (o : MatOp) (x : Mat) : FieldsFit widthsX [o.opcode, x.pred.code, x.stall.toNat, o.subCode x, x.tile.toNat, 0, x.hA.toNat,
    x.hB.toNat, x.kr.toNat, x.kc.toNat, x.kp.toNat, x.ta.toNat, x.tb.toNat, x.ovw.toNat, x.sat.toNat, 0, x.vd.toNat, x.vc.toNat, 0] := by
  simp [FieldsFit, widthsX, MatOp.opcode_lt, MatOp.subCode_lt, Pred.code_lt, toNat_lt_of_pow_le, Bool.toNat_le]

/-- The sub field of a matrix instruction stands for its kind and its pair bit. -/
theorem MatOp.sub_subCode (o : MatOp) {x : Mat} (h : matFieldsOk o x = true) : o.sub (o.subCode x) = some (x.kind, x.pair) := by
  obtain ⟨_, _, kind, pair⟩ := x
  cases o <;> simp only [matFieldsOk, Bool.and_eq_true, Bool.not_eq_true', Bool.or_eq_true, beq_iff_eq] at h
  case mma => simp [MatOp.sub, MatOp.subCode, h]
  case mmasp =>
    obtain ⟨-, ⟨⟨-, hpair⟩, -⟩, hkind⟩ := h
    obtain rfl | rfl := hkind <;> simp [MatOp.sub, MatOp.subCode, MmaKind.code, hpair]
  all_goals cases pair <;> simp_all [MatOp.sub, MatOp.subCode]

theorem decodeX_encodeMat (o : MatOp) {x : Mat} (h : matFieldsOk o x = true) : decodeX o (encodeMat o x) = .ok (o.instr x) := by
  simp [decodeX, encodeMat, unpack_packFields (matFit o x), o.sub_subCode h, h]

theorem xferFit {op : Nat} (hop : op < 256) (x : Xfer) : FieldsFit widthsE [op, x.pred.code, x.stall.toNat, x.sub.toNat, x.n.toNat,
    x.hD.toNat, x.hS.toNat, x.ka.toNat, x.kv.toNat, x.kp.toNat, x.arr.toNat, x.comp.toNat, x.win.toNat, 0] := by
  simp [FieldsFit, widthsE, Pred.code_lt, toNat_lt_of_pow_le, Bool.toNat_le, hop]

theorem decodeE_xcopy {x : Xfer} (h : xcopyFieldsOk x = true) : decodeE 0xe0 (encodeXfer 0xe0 x) = .ok (.xcopy x) := by
  have hsub : ¬4 ≤ x.sub.toNat := by have := x.sub.isLt; omega
  simp [decodeE, encodeXfer, unpack_packFields (xferFit (op := 0xe0) (by decide) x), hsub, h]

theorem decodeE_xcoll {x : Xfer} (h : xcollFieldsOk x = true) : decodeE 0xe1 (encodeXfer 0xe1 x) = .ok (.xcoll x) := by
  have hsub : ¬4 ≤ x.sub.toNat := by have := x.sub.isLt; omega
  simp [decodeE, encodeXfer, unpack_packFields (xferFit (op := 0xe1) (by decide) x), hsub, h]

theorem launchFit (x : LaunchF) : FieldsFit widthsE [0xe3, x.pred.code, x.stall.toNat, 0, x.ks.toNat, 0, 0, 0, 0, x.kp.toNat, 0, 0,
      x.win.toNat, 0] := by
  simp [FieldsFit, widthsE, Pred.code_lt, toNat_lt_of_pow_le]

theorem decodeE_launch {x : LaunchF} (h : x.pred.reserved = false) : decodeE 0xe3 (packFields widthsE [0xe3, x.pred.code, x.stall.toNat,
    0, x.ks.toNat, 0, 0, 0, 0, x.kp.toNat, 0, 0, x.win.toNat, 0]) = .ok (.launch x) := by
  simp [decodeE, unpack_packFields (launchFit x), h]

theorem xwaitFit (x : XWaitF) : FieldsFit widthsW [0xe2, 7, x.stall.toNat, 0, 0, x.n.toNat, 0] := by
  simp [FieldsFit, widthsW, toNat_lt_of_pow_le]

theorem decodeXwait_packFields (x : XWaitF) :
    decodeXwait (packFields widthsW [0xe2, 7, x.stall.toNat, 0, 0, x.n.toNat, 0]) = .ok (.xwait x) := by
  simp [decodeXwait, unpack_packFields (xwaitFit x)]

theorem ctlFit {op : Nat} (hop : op < 256) (x : Ctl) : FieldsFit [8, 4, 4, 4, 108] [op, x.pred.code, x.stall.toNat, 0, 0] := by
  simp [FieldsFit, Pred.code_lt, toNat_lt_of_pow_le, hop]

theorem decodeCtl_packFields {op : Nat} (hop : op < 256) (mk : Ctl → Instr) {x : Ctl} (h : x.pred.reserved = false) :
    decodeCtl mk (packFields [8, 4, 4, 4, 108] [op, x.pred.code, x.stall.toNat, 0, 0]) = .ok (mk x) := by
  simp [decodeCtl, unpack_packFields (ctlFit hop x), h]

end Sys2Proof
end

section
/-! SUPPORT. Opcode and sub field lead each encoded word to the decoder of its format (R40, R41), so that decoding undoes encoding. -/

namespace Sys2Proof

/-! ### One opcode names one row -/

/-- The tags of one opcode: one, but for that of IMAD and IMAD.LONG, which sub tells apart (R132). -/
theorem AluOp.filter_opcode (o : AluOp) : (AluOp.all.filter fun p => p.opcode == o.opcode) =
    if o = .imad ∨ o = .imadLong then [.imad, .imadLong] else [o] := by
  cases o <;> rfl

theorem aluOf_opcode (o : AluOp) {sub : Nat} (h : o.subOk sub = true) : aluOf o.opcode sub = some o := by
  have hf := List.find?_filter (p := fun p : AluOp => p.opcode == o.opcode) (q := fun p => p.subOk sub) (xs := AluOp.all)
  simp only [Bool.decide_and, Bool.decide_eq_true] at hf
  rw [aluOf, ← hf, AluOp.filter_opcode]
  split
  · next ho =>
    obtain rfl | rfl := ho
    · simp [h]
    · have hsub : sub = 1 := by simpa [AluOp.subOk] using h
      subst hsub; rfl
  · simp [h]

/-- The opcodes that `decodeNat` sends to a format by themselves. -/
def ownOpcodes : List Nat := [0x00, 0x01, 0x02, 0x03, 0x04, 0x05, 0x06, 0x08, 0x0b, 0x2b, 0x3b, 0xa2, 0xe0, 0xe1, 0xe2, 0xe3]

theorem AluOp.opcode_not_own (o : AluOp) : o.opcode ∉ ownOpcodes := by cases o <;> decide

/-- An arithmetic opcode stands in no other table. -/
theorem AluOp.opcode_in_no_table (o : AluOp) : ImmOp.all.find? (·.opcode == o.opcode) = none ∧
    MemOp.all.find? (·.opcode == o.opcode) = none ∧ MatOp.all.find? (·.opcode == o.opcode) = none := by
  cases o <;> decide

/-! ### The decoder of an opcode -/

/-- Sub bit 3 tells format I from format A (R40). -/
theorem decodeNat_alu (o : AluOp) {n sub : Nat} (hop : opOf n = o.opcode) (hsub : n / 2 ^ 16 % 16 = sub) (hok : o.subOk (sub % 8) = true) :
    decodeNat n = if sub ≥ 8 then (if o.immOk then decodeI o n else .error .illop) else decodeA o n := by
  have hown := o.opcode_not_own
  have ⟨himm, hmem, hmat⟩ := o.opcode_in_no_table
  simp only [ownOpcodes, List.mem_cons, List.not_mem_nil, or_false, not_or] at hown
  have hguard : ¬(2 ≤ o.opcode ∧ o.opcode ≤ 5) := by omega
  unfold decodeNat
  simp only [hop, hsub]
  simp [hown, hguard, himm, hmem, hmat, aluOf_opcode o hok]

theorem decodeNat_imm (o : ImmOp) {n : Nat} (hop : opOf n = o.opcode) (hsub : n / 2 ^ 16 % 16 = 8) : decodeNat n = decodeImm o n := by
  simp only [Nat.reducePow] at hsub
  cases o <;> simp [decodeNat, hop, hsub, ImmOp.opcode, ImmOp.all]

theorem decodeNat_mem (o : MemOp) {n : Nat} (hop : opOf n = o.opcode) : decodeNat n = decodeM o n := by
  cases o <;> simp [decodeNat, hop, MemOp.opcode, MemOp.all, ImmOp.opcode, ImmOp.all]

theorem decodeNat_mat (o : MatOp) {n : Nat} (hop : opOf n = o.opcode) : decodeNat n = decodeX o n := by
  cases o <;> simp [decodeNat, hop, MatOp.opcode, MatOp.all, MemOp.opcode, MemOp.all, ImmOp.opcode, ImmOp.all]

/-! ### Decoding undoes encoding -/

/-- What the decoder that opcode and sub field lead to gives is what the word means. -/
theorem decode_by {op p st sub : Nat} {ws vs : List Nat} {f : Nat → Except Cause Instr} {i : Instr}
    (hfit : FieldsFit (8 :: 4 :: 4 :: 4 :: ws) (op :: p :: st :: sub :: vs)) (hsum : (8 :: 4 :: 4 :: 4 :: ws).sum = 128) (hff : op ≠ 0xff)
    (hlead : ∀ n, opOf n = op → n / 2 ^ 16 % 16 = sub → decodeNat n = f n)
    (hf : f (packFields (8 :: 4 :: 4 :: 4 :: ws) (op :: p :: st :: sub :: vs)) = .ok i) :
    decode (BitVec.ofNat 128 (packFields (8 :: 4 :: 4 :: 4 :: ws) (op :: p :: st :: sub :: vs))) = .ok i := by
  obtain ⟨hop, -, -, hsub, -⟩ := id hfit
  rw [decode_packFields hfit hsum hff, hlead _ (opOf_packFields _ _ _ hop) (sub_packFields _ _ _ _ _ _ hsub), hf]

theorem decode_encodeAlu (o : AluOp) {x : Alu} (hsub : o.subOk x.sub.toNat = true) (h : aluFieldsOk o x = true)
    (himm : ∀ v, x.b = .imm v → o.immOk = true) : decode (BitVec.ofNat 128 (encodeAlu o x)) = .ok (o.instr x) := by
  have hlt : x.sub.toNat < 8 := x.sub.isLt
  have hff : o.opcode ≠ 0xff := by cases o <;> decide
  cases hb : x.b with
  | src b =>
    have hd := decodeA_encodeAlu o hb h
    simp only [encodeAlu, hb] at hd ⊢
    refine decode_by (f := decodeA o) (o.fitA x b) rfl hff (fun n hn hs => ?_) hd
    rw [decodeNat_alu o hn hs (by rwa [Nat.mod_eq_of_lt hlt]), if_neg (by omega)]
  | imm v =>
    have hd := decodeI_encodeAlu o hb h
    simp only [encodeAlu, hb] at hd ⊢
    refine decode_by (f := decodeI o) (o.fitI x v) rfl hff (fun n hn hs => ?_) hd
    rw [decodeNat_alu o hn hs (by rwa [Nat.add_mod_left, Nat.mod_eq_of_lt hlt]), if_pos (by omega), if_pos (himm v hb)]

theorem decode_encodeLop3 {x : Alu} {tt : BitVec 8} (h : lop3FieldsOk x = true) :
    decode (BitVec.ofNat 128 (encodeLop3 x tt)) = .ok (.lop3 x tt) :=
  decode_by (f := decodeLop3) (lop3Fit x x.b.reg tt) rfl (by decide) (fun n hn hs => by simp only [decodeNat, hn, hs]; rfl)
    (decodeLop3_encodeLop3 tt h)

theorem decode_encodeImm (o : ImmOp) {x : ImmI} (h : immFieldsOk o x = true) :
    decode (BitVec.ofNat 128 (encodeImm o x)) = .ok (o.instr x) :=
  decode_by (f := decodeImm o) (o.fit x) rfl (by cases o <;> decide) (fun _ hn hs => decodeNat_imm o hn hs) (decodeImm_encodeImm o h)

/-- A row of CSRW or of CALLSV, which its selector tells from the others (R220, R332, R337). -/
theorem decode_encodeImm_row (o : ImmOp) {x : ImmI} {row : Bool} {i : Instr} (h : (immFieldsOk o x && row) = true)
    (hi : row = true → o.instr x = i) : decode (BitVec.ofNat 128 (encodeImm o x)) = .ok i := by
  rw [Bool.and_eq_true] at h
  rw [decode_encodeImm o h.1, hi h.2]

/-- No service that CALLSV names has a selector of 5 or more (R337). -/
theorem ImmOp.callsv_instr_unknown {x : ImmI} (h : 5 ≤ x.imm.toNat) : ImmOp.callsv.instr x = .callsvUnknown x := by
  have hne (k : Nat) (hk : k < 5) : (x.imm == BitVec.ofNat 32 k) = false := by
    rw [beq_eq_false_iff_ne]
    rintro he
    rw [he, BitVec.toNat_ofNat, Nat.mod_eq_of_lt (by omega)] at h
    omega
  have h0 := hne 0 (by decide)
  have h1 := hne 1 (by decide)
  have h2 := hne 2 (by decide)
  have h3 := hne 3 (by decide)
  have h4 := hne 4 (by decide)
  simp only [ImmOp.instr, BitVec.ofNat_eq_ofNat, h0, h1, h2, h3, h4]
  rfl

theorem decode_movi64 {x : Imm64} (h : (!x.pred.reserved && x.d.file != .q) = true) :
    decode (encode (.movi64 x)) = .ok (.movi64 x) :=
  decode_by (f := decodeMovi64) (movi64Fit x) rfl (by decide) (fun n hn hs => by simp only [decodeNat, hn, hs]; rfl) (decodeMovi64_packFields h)

theorem decode_encodeMem (o : MemOp) {x : Mem} (h : memFieldsOk o x = true) :
    decode (BitVec.ofNat 128 (encodeMem o.opcode x 0 0)) = .ok (o.instr x) :=
  decode_by (f := decodeM o) (memFit o.opcode_lt (by decide) (by decide) x) rfl (by cases o <;> decide) (fun _ hn _ => decodeNat_mem o hn)
    (decodeM_encodeMem o h)

theorem decode_encodeAtom {x : Mem} {op : AtomOp} {cls : BitVec 2} (h : atomFieldsOk x op cls = true) :
    decode (BitVec.ofNat 128 (encodeMem 0xa2 x cls.toNat op.code)) = .ok (.atom x op cls) :=
  decode_by (f := decodeAtom) (memFit (by decide) cls.isLt op.code_lt x) rfl (by decide) (fun n hn _ => by simp only [decodeNat, hn]; rfl)
    (decodeAtom_encodeMem h)

theorem decode_encodeMat (o : MatOp) {x : Mat} (h : matFieldsOk o x = true) : decode (BitVec.ofNat 128 (encodeMat o x)) = .ok (o.instr x) :=
  decode_by (f := decodeX o) (matFit o x) rfl (by cases o <;> decide) (fun _ hn _ => decodeNat_mat o hn) (decodeX_encodeMat o h)

theorem decode_encodeCommit (f : CForm) {x : Commit} (h : commitFieldsOk f x = true) :
    decode (BitVec.ofNat 128 (encodeCommit f x)) = .ok (f.instr x) :=
  decode_by (f := decodeT 0x06) (commitFit f x) rfl (by decide) (fun n hn _ => by simp only [decodeNat, hn]; rfl) (decodeT_encodeCommit f h)

theorem decode_encodeGuard {op : Nat} (hop : op = 2 ∨ op = 3 ∨ op = 4) {x : Guard} (h : guardFieldsOk op x = true) :
    decode (BitVec.ofNat 128 (encodeGuard op x)) = .ok (if op == 0x02 then .guard x else if op == 0x03 then .guardr x else .guardnz x) := by
  refine decode_by (f := decodeT op) (guardFit (by omega) x) rfl (by omega) (fun n hn hs => ?_) (decodeT_encodeGuard hop h)
  obtain rfl | rfl | rfl := hop <;> simp only [decodeNat, hn, hs] <;> rfl

theorem decode_skip {x : Skip} (h : (!x.pred.reserved && x.n != 0) = true) : decode (encode (.skip x)) = .ok (.skip x) :=
  decode_by (f := decodeT 0x05) (skipFit x) rfl (by decide) (fun n hn hs => by simp only [decodeNat, hn, hs]; rfl) (decodeT_skip h)

/-- In format H the class stands where sub's lowest bits do. -/
theorem decode_trc {x : Trc} (h : trcFieldsOk x = true) : decode (encode (.trc x)) = .ok (.trc x) := by
  have hd := decode_packFields (trcFit x) rfl (by decide)
  rw [decodeNat] at hd
  simp only [opOf_packFields 1 _ _ (by decide)] at hd
  exact hd.trans (decodeH_packFields h)

theorem decode_xcopy {x : Xfer} (h : xcopyFieldsOk x = true) : decode (encode (.xcopy x)) = .ok (.xcopy x) :=
  decode_by (f := decodeE 0xe0) (xferFit (by decide) x) rfl (by decide) (fun n hn _ => by simp only [decodeNat, hn]; rfl) (decodeE_xcopy h)

theorem decode_xcoll {x : Xfer} (h : xcollFieldsOk x = true) : decode (encode (.xcoll x)) = .ok (.xcoll x) :=
  decode_by (f := decodeE 0xe1) (xferFit (by decide) x) rfl (by decide) (fun n hn _ => by simp only [decodeNat, hn]; rfl) (decodeE_xcoll h)

theorem decode_launch {x : LaunchF} (h : x.pred.reserved = false) : decode (encode (.launch x)) = .ok (.launch x) :=
  decode_by (f := decodeE 0xe3) (launchFit x) rfl (by decide) (fun n hn _ => by simp only [decodeNat, hn]; rfl) (decodeE_launch h)

theorem decode_xwait (x : XWaitF) : decode (encode (.xwait x)) = .ok (.xwait x) :=
  decode_by (f := decodeXwait) (xwaitFit x) rfl (by decide) (fun n hn _ => by simp only [decodeNat, hn]; rfl) (decodeXwait_packFields x)

theorem decode_ctl {op : Nat} {mk : Ctl → Instr} (hop : op < 0xff) (hlead : ∀ n, opOf n = op → decodeNat n = decodeCtl mk n) {x : Ctl}
    (h : x.pred.reserved = false) :
    decode (BitVec.ofNat 128 (packFields [8, 4, 4, 4, 108] [op, x.pred.code, x.stall.toNat, 0, 0])) = .ok (mk x) :=
  decode_by (f := decodeCtl mk) (ctlFit (by omega) x) rfl (by omega) (fun n hn _ => hlead n hn) (decodeCtl_packFields (by omega) mk h)

theorem Instr.alu?_eq_some {i : Instr} {o : AluOp} {x : Alu} (h : i.alu? = some (o, x)) : i = o.instr x := by
  unfold Instr.alu? at h
  split at h <;> simp_all <;> (obtain ⟨rfl, rfl⟩ := h; rfl)

/-- The arithmetic mould: every tag's instruction. -/
theorem decode_encode_alu {i : Instr} {o : AluOp} {x : Alu} (hi : i.alu? = some (o, x)) (h : i.fieldsOk = true) :
    decode (encode i) = .ok i := by
  have he : encodeNat i = some (encodeAlu o x) := by simp [encodeNat, hi]
  simp only [Instr.fieldsOk, hi, Bool.and_eq_true] at h
  obtain ⟨⟨hsub, hok⟩, hb⟩ := h
  rw [encode, he, Option.getD_some, decode_encodeAlu o hsub hok (fun v hv => by simpa [hv] using hb), Instr.alu?_eq_some hi]

/-- Decoding an encoded well-formed instruction gives it back, row by row of the opcode table. -/
theorem decode_encode {i : Instr} (h : i.fieldsOk = true) (hc : i.coded = true) : decode (encode i) = .ok i := by
  cases ha : i.alu? with
  | some p => exact decode_encode_alu ha h
  | none =>
    cases i with
    | illegal => rfl
    | nop x => exact decode_ctl (by decide) (fun n hn => by simp only [decodeNat, hn]; rfl) (by simpa [Instr.fieldsOk, ha] using h)
    | trigger x => exact decode_ctl (by decide) (fun n hn => by simp only [decodeNat, hn]; rfl) (by simpa [Instr.fieldsOk, ha] using h)
    | yield x => exact decode_ctl (by decide) (fun n hn => by simp only [decodeNat, hn]; rfl) (by simpa [Instr.fieldsOk, ha] using h)
    | trc x => exact decode_trc h
    | guard x => exact decode_encodeGuard (.inl rfl) h
    | guardr x => exact decode_encodeGuard (.inr (.inl rfl)) h
    | guardnz x => exact decode_encodeGuard (.inr (.inr rfl)) h
    | skip x => exact decode_skip h
    | commitNext x => exact decode_encodeCommit .next h
    | commitSel x => exact decode_encodeCommit .sel h
    | commitInd x => exact decode_encodeCommit .ind h
    | commitCall x => exact decode_encodeCommit .call h
    | commitRet x => exact decode_encodeCommit .ret h
    | commitExit x => exact decode_encodeCommit .exit h
    | commitBar x => exact decode_encodeCommit .bar h
    | commitRwait x => exact decode_encodeCommit .rwait h
    | lop3 x tt => exact decode_encodeLop3 h
    | movi64 x => exact decode_movi64 h
    | trap x => exact decode_encodeImm .trap h
    | brk x => exact decode_encodeImm .brk h
    | srd x => exact decode_encodeImm .srd h
    | movi x => exact decode_encodeImm .movi h
    | csrr x => exact decode_encodeImm .csrr h
    | sleep x => exact decode_encodeImm .sleep h
    | csrw x => exact decode_encodeImm_row .csrw h fun hn => by simp_all [ImmOp.instr, csrwPlain]
    | ctxPtrootWrite x => exact decode_encodeImm_row .csrw h fun hn => by simp_all [ImmOp.instr]
    | crewTimerWrite x => exact decode_encodeImm_row .csrw h fun hn => by simp_all [ImmOp.instr]
    | version x => exact decode_encodeImm_row .callsv h fun hn => by simp_all [ImmOp.instr]
    | whoami x => exact decode_encodeImm_row .callsv h fun hn => by simp_all [ImmOp.instr]
    | yieldcrew x => exact decode_encodeImm_row .callsv h fun hn => by simp_all [ImmOp.instr]
    | injectauth x => exact decode_encodeImm_row .callsv h fun hn => by simp_all [ImmOp.instr]
    | faultq x => exact decode_encodeImm_row .callsv h fun hn => by simp_all [ImmOp.instr]
    | callsvUnknown x => exact decode_encodeImm_row .callsv h fun hn => ImmOp.callsv_instr_unknown (of_decide_eq_true hn)
    | ld x => exact decode_encodeMem .ld h
    | st x => exact decode_encodeMem .st h
    | atom x op cls => exact decode_encodeAtom h
    | atomcas x => exact decode_encodeMem .atomcas h
    | pfetch x => exact decode_encodeMem .pfetch h
    | kld x => exact decode_encodeMem .kld h
    | fence x => exact decode_encodeMem .fence h
    | lds x => exact decode_encodeMem .lds h
    | sts x => exact decode_encodeMem .sts h
    | atoms x => exact decode_encodeMem .atoms h
    | renew x => exact decode_encodeMem .renew h
    | arm x => exact decode_encodeMem .arm h
    | await x => exact decode_encodeMem .await h
    | spage x => exact decode_encodeMem .spage h
    | mma x => exact decode_encodeMat .mma h
    | mmasp x => exact decode_encodeMat .mmasp h
    | mzero x => exact decode_encodeMat .mzero h
    | mwait x => exact decode_encodeMat .mwait h
    | mld x => exact decode_encodeMat .mld h
    | mst x => exact decode_encodeMat .mst h
    | mrd x => exact decode_encodeMat .mrd h
    | mwr x => exact decode_encodeMat .mwr h
    | tdesc x => exact decode_encodeMat .tdesc h
    | xcopy x => exact decode_xcopy h
    | xcoll x => exact decode_xcoll h
    | xwait x => exact decode_xwait x
    | launch x => exact decode_launch (by simpa [Instr.fieldsOk, ha] using h)
    | _ => simp [Instr.alu?, Instr.coded, encodeNat] at ha hc

end Sys2Proof

namespace Sys2Proof.Claims

/-- Settles O1: opcode and sub field lead each word to the decoder of its format, and that one cuts out the fields that were packed. -/
theorem decodeOfEncodeIsTheInstruction : Obligations.DecodeOfEncodeIsTheInstruction := by
  intro i hwf hcoded
  rw [Instr.wf, Bool.and_eq_true] at hwf
  exact decode_encode hwf.1 hcoded

/-- Settles O2: each word is cut into its fields by evaluation. -/
theorem wordsDecodeAsTheSpecEncodes : Obligations.WordsDecodeAsTheSpecEncodes := by
  unfold Obligations.WordsDecodeAsTheSpecEncodes
  decide

end Sys2Proof.Claims
end

section
/-! SUPPORT. Translating an address and reading code end no cohort: one lemma for each operation of memory that they are made of. Each proof
unfolds that one operation and goes by the lemmas of the operations that it calls. -/

namespace Sys2Proof.Machine

/-- The cohorts in flight. -/
def State.cohortIds (s : State) : List Nat := s.cohorts.map (·.1)

/-- A change of the cohorts that keeps each in its place. -/
theorem State.cohortIds_of_map {s t : State} {f : Nat × Cohort → Nat × Cohort} (h : t.cohorts = s.cohorts.map f) (hf : ∀ e, (f e).1 = e.1) :
    t.cohortIds = s.cohortIds := by
  simp [State.cohortIds, h, Function.comp_def, hf]

/-- A cohort is in flight where its number is listed. -/
theorem Map.find_isSome_iff_mem {α : Type} (m : Map α) (k : Nat) : (m.find k).isSome = true ↔ k ∈ m.map (·.1) := by
  induction m with
  | nil => simp
  | cons e m ih =>
    obtain ⟨j, v⟩ := e
    by_cases h : j = k
    · simp [Map.find, h]
    · simp [Map.find, h, ih, Ne.symm h]

theorem State.find_isSome_of_cohortIds {s t : State} (h : t.cohortIds = s.cohortIds) {cid : Nat} (hs : (s.cohorts.find cid).isSome = true) :
    (t.cohorts.find cid).isSome = true := by
  rw [Map.find_isSome_iff_mem] at hs ⊢
  rw [State.cohortIds, State.cohortIds] at h
  rw [h]
  exact hs

/-! ### Folds and choices -/

@[simp] theorem State.foldl_cohortIds {α : Type} {f : State → α → State} (h : ∀ s a, (f s a).cohortIds = s.cohortIds) (s : State) (l : List α) :
    (l.foldl f s).cohortIds = s.cohortIds := by
  induction l generalizing s with
  | nil => rfl
  | cons a l ih => exact (ih _).trans (h s a)

@[simp] theorem State.ite_cohortIds (p : Prop) [Decidable p] (s t : State) :
    (if p then s else t).cohortIds = if p then s.cohortIds else t.cohortIds := by
  split <;> rfl

/-- The state of a pair is the state of what the pair is matched with. -/
theorem State.cohortIds_of_eq {α : Type} {p : α × State} {a : α} {t s : State} (hp : p.2.cohortIds = s.cohortIds) (h : p = (a, t)) :
    t.cohortIds = s.cohortIds := by
  subst h; exact hp

/-! ### The named operations -/

@[simp] theorem State.post_cohortIds (s : State) (t : Turn) : (s.post t).cohortIds = s.cohortIds := rfl
@[simp] theorem State.urge_cohortIds (s : State) (t : Turn) : (s.urge t).cohortIds = s.cohortIds := rfl
@[simp] theorem State.postAll_cohortIds (s : State) (ts : List Turn) : (s.postAll ts).cohortIds = s.cohortIds := rfl
@[simp] theorem State.drawNat_cohortIds (s : State) : s.drawNat.2.cohortIds = s.cohortIds := rfl
@[simp] theorem State.setV_cohortIds (s : State) (t n : Nat) (w : Word) : (s.setV t n w).cohortIds = s.cohortIds := rfl
@[simp] theorem State.modThread_cohortIds (s : State) (n : Nat) (f : Thread → Thread) : (s.modThread n f).cohortIds = s.cohortIds := rfl
@[simp] theorem State.modCoh_cohortIds (s : State) (f : Coh → Coh) : (s.modCoh f).cohortIds = s.cohortIds := rfl
@[simp] theorem State.modEng_cohortIds (s : State) (f : Engines → Engines) : (s.modEng f).cohortIds = s.cohortIds := rfl
@[simp] theorem State.modPkg_cohortIds (s : State) (f : Package → Package) : (s.modPkg f).cohortIds = s.cohortIds := rfl

@[simp] theorem State.modCohort_cohortIds (s : State) (n : Nat) (f : Cohort → Cohort) : (s.modCohort n f).cohortIds = s.cohortIds :=
  State.cohortIds_of_map rfl (by intro e; split <;> rfl)

/-! ### Tokens, translation caches and messages -/

@[simp] theorem State.setUnit_cohortIds (s : State) (sec : Nat) (u : CohUnit) : (s.setUnit sec u).cohortIds = s.cohortIds := rfl

@[simp] theorem State.noteFmt_cohortIds (s : State) (key pte : Nat) : (s.noteFmt key pte).cohortIds = s.cohortIds := by
  simp [State.noteFmt]

@[simp] theorem State.trimL2_cohortIds (s : State) (slice set : Nat) : (s.trimL2 slice set).cohortIds = s.cohortIds := by
  simp [State.trimL2]

@[simp] theorem State.divert_cohortIds (s : State) (core : Nat) (es : List MemEff) (unit : Option Nat) :
    (s.divert core es unit).cohortIds = s.cohortIds := rfl

@[simp] theorem State.sendFlit_cohortIds (s : State) (port : Nat) (cls : BitVec 8) (b : FlitBody) :
    (s.sendFlit port cls b).cohortIds = s.cohortIds := rfl

@[simp] theorem State.toPeer_cohortIds (s : State) (id : Nat) (r : Remote) : (s.toPeer id r).cohortIds = s.cohortIds := by
  unfold State.toPeer
  split
  · rfl
  · exact State.foldl_cohortIds (fun s _ => s.sendFlit_cohortIds ..) _ _

@[simp] theorem State.sendRemote_cohortIds (s : State) (r : Remote) : (s.sendRemote r).2.cohortIds = s.cohortIds := by
  unfold State.sendRemote
  dsimp only
  split
  · exact State.toPeer_cohortIds ..
  · rfl

@[simp] theorem State.sendWrite_cohortIds (s : State) (agent : Nat) (e : MemEff) (key : Nat) (watch : Bool) :
    (s.sendWrite agent e key watch).cohortIds = s.cohortIds := State.sendRemote_cohortIds ..

@[simp] theorem State.askHost_cohortIds (s : State) (agent sec : Nat) : (s.askHost agent sec).cohortIds = s.cohortIds := by
  simp [State.askHost]

@[simp] theorem State.markBuffered_cohortIds (s : State) (core : Nat) (hit : MemEff → Bool) :
    (s.markBuffered core hit).cohortIds = s.cohortIds :=
  State.cohortIds_of_map rfl (by intro e; dsimp only; split <;> rfl)

@[simp] theorem State.moveQuantum_cohortIds (s : State) (core : Nat) (hit : MemEff → Bool) (unit : Option Nat) :
    (s.moveQuantum core hit unit).cohortIds = s.cohortIds := by
  simp [State.moveQuantum]

@[simp] theorem State.cancelRemote_cohortIds (s : State) (id : Nat) (r : Remote) (hit : MemEff → Bool) (hitVa : Nat → Bool)
    (unit : Option Nat) : (s.cancelRemote id r hit hitVa unit).cohortIds = s.cohortIds := by
  unfold State.cancelRemote
  dsimp only
  (repeat' split) <;> simp

@[simp] theorem State.dropTrans_cohortIds (s : State) (agent : Nat) (p : TlbEntry → Bool) (unit : Option Nat) :
    (s.dropTrans agent p unit).cohortIds = s.cohortIds := by
  unfold State.dropTrans
  split <;> simp

@[simp] theorem State.surrender_cohortIds (s : State) (sec agent : Nat) : (s.surrender sec agent).cohortIds = s.cohortIds := by
  simp [State.surrender]

@[simp] theorem State.rouse_cohortIds (s : State) (agent : Nat) : (s.rouse agent).cohortIds = s.cohortIds := by
  unfold State.rouse
  split <;> simp

@[simp] theorem State.gatherSec_cohortIds (s : State) (writer sec : Nat) : (s.gatherSec writer sec).cohortIds = s.cohortIds := by
  simp [State.gatherSec]

@[simp] theorem State.gather_cohortIds (s : State) (sec writer : Nat) : (s.gather sec writer).cohortIds = s.cohortIds := by
  simp [State.gather]

/-! ### Damage and the reads of a home -/

@[simp] theorem State.injectAt_cohortIds (s : State) (kinds : List Nat) (sec : Nat) : (s.injectAt kinds sec).cohortIds = s.cohortIds :=
  State.foldl_cohortIds (fun s _ => s.urge_cohortIds _) _ _

@[simp] theorem State.poisonSecs_cohortIds (s : State) (f : Finder) (secs : List Nat) : (s.poisonSecs f secs).cohortIds = s.cohortIds := rfl

@[simp] theorem State.probeHarm_cohortIds (s : State) (crc : Bool) (sec : Nat) : (s.probeHarm crc sec).cohortIds = s.cohortIds := by
  unfold State.probeHarm
  split <;> simp

@[simp] theorem State.wakeDie_cohortIds (s : State) (die : Nat) : (s.wakeDie die).cohortIds = s.cohortIds := by
  simp [State.wakeDie]

@[simp] theorem State.wakeHome_cohortIds (s : State) (a : Nat) : (s.wakeHome a).cohortIds = s.cohortIds := by
  simp [State.wakeHome]

@[simp] theorem State.fillSec_cohortIds (s : State) (mod : Bool) (sec : Nat) : (s.fillSec mod sec).cohortIds = s.cohortIds := by
  simp [State.fillSec]

@[simp] theorem State.fetchUnits_cohortIds (s : State) (secs : List Nat) : (s.fetchUnits secs).cohortIds = s.cohortIds := by
  simp [State.fetchUnits]

@[simp] theorem State.sendReport_cohortIds (s : State) (r : Report) : (s.sendReport r).cohortIds = s.cohortIds := by
  unfold State.sendReport
  split <;> rfl

@[simp] theorem State.detect_cohortIds (s : State) (sec : Nat) (f : Finder) : (s.detect sec f).cohortIds = s.cohortIds :=
  State.sendReport_cohortIds ..

@[simp] theorem State.checkSecs_cohortIds (s : State) (crc : Bool) (secs : List Nat) : (s.checkSecs crc secs).2.cohortIds = s.cohortIds := by
  simp [State.checkSecs]

@[simp] theorem State.inspect_cohortIds (s : State) (crc : Bool) (secs : List Nat) : (s.inspect crc secs).cohortIds = s.cohortIds := by
  have h := s.checkSecs_cohortIds crc secs
  unfold State.inspect
  generalize s.checkSecs crc secs = p at h ⊢
  obtain ⟨_ | _, t⟩ := p <;> simpa using h

@[simp] theorem State.mergeCheck_cohortIds (s : State) (a n : Nat) : (s.mergeCheck a n).2.cohortIds = s.cohortIds := by
  unfold State.mergeCheck
  split <;> simp

@[simp] theorem State.readHome_cohortIds (s : State) (a n : Nat) : (s.readHome a n).cohortIds = s.cohortIds := by
  simp [State.readHome]

/-! ### Writes at their home -/

@[simp] theorem State.noteWrite_cohortIds (s : State) (tid key n : Nat) : (s.noteWrite tid key n).cohortIds = s.cohortIds := by
  simp [State.noteWrite]

@[simp] theorem State.noteRead_cohortIds (s : State) (tid key n : Nat) : (s.noteRead tid key n).cohortIds = s.cohortIds := by
  simp [State.noteRead]

@[simp] theorem State.wakeAt_cohortIds (s : State) (a n : Nat) : (s.wakeAt a n).cohortIds = s.cohortIds := by
  simp [State.wakeAt]

@[simp] theorem State.failResv_cohortIds (s : State) (a n : Nat) : (s.failResv a n).cohortIds = s.cohortIds :=
  State.cohortIds_of_map rfl (by intro e; rfl)

@[simp] theorem State.tagBlock_cohortIds (s : State) (a : Nat) (w : Option Writer) : (s.tagBlock a w).cohortIds = s.cohortIds := by
  simp [State.tagBlock]

@[simp] theorem State.wakeOps_cohortIds (s : State) (a n : Nat) : (s.wakeOps a n).cohortIds = s.cohortIds := rfl

@[simp] theorem State.writeMem_cohortIds (s : State) (m : Memory) : State.cohortIds { s with mem := m } = s.cohortIds := rfl

@[simp] theorem State.landPiece_cohortIds (s : State) (a : Nat) (bs : List Byte) (w : Option Writer) :
    (s.landPiece a bs w).cohortIds = s.cohortIds := by
  unfold State.landPiece
  dsimp only
  split <;> split
  · simp
  · rw [State.injectAt_cohortIds, State.tagBlock_cohortIds]
    exact (State.writeMem_cohortIds _ _).trans (by simp)
  · simp
  · rw [State.injectAt_cohortIds, State.tagBlock_cohortIds]
    exact (State.writeMem_cohortIds _ _).trans (by simp)

@[simp] theorem State.landBytes_cohortIds (s : State) (a : Nat) (bs : List Byte) (w : Option Writer) :
    (s.landBytes a bs w).cohortIds = s.cohortIds := by
  simp [State.landBytes]

@[simp] theorem State.landDie_cohortIds (s : State) (w : DieWrite) : (s.landDie w).cohortIds = s.cohortIds := by
  unfold State.landDie
  dsimp only
  split
  · simp
  · split
    · (repeat' split) <;> simp
    · split <;> next e => simp [State.cohortIds_of_eq (s.mergeCheck_cohortIds _ _) e]

@[simp] theorem State.flushDies_cohortIds (s : State) (p : DieWrite → Bool) : (s.flushDies p).cohortIds = s.cohortIds := by
  simp [State.flushDies]

@[simp] theorem State.flushUnits_cohortIds (s : State) (a n : Nat) : (s.flushUnits a n).cohortIds = s.cohortIds := by
  simp [State.flushUnits]

@[simp] theorem State.countWrite_cohortIds (s : State) (a : Nat) (w : Writer) : (s.countWrite a w).cohortIds = s.cohortIds := by
  simp [State.countWrite]

@[simp] theorem State.land_cohortIds (s : State) (a : Nat) (bs : List Byte) (w : Writer) (watch : Bool) :
    (s.land a bs w watch).cohortIds = s.cohortIds := by
  simp [State.land]

@[simp] theorem State.returnHalf_cohortIds (s : State) (h : Half) (old : Nat) : (s.returnHalf h old).cohortIds = s.cohortIds := by
  unfold State.returnHalf
  split
  · rfl
  · dsimp only
    generalize hu : State.setV _ _ _ _ = u
    have h : u.cohortIds = s.cohortIds := by rw [← hu]; simp
    split
    · exact h
    · exact (State.cohortIds_of_map (s := u) rfl (by intro e; rfl)).trans h

@[simp] theorem State.landHalf_cohortIds (s : State) (h : Half) : (s.landHalf h).cohortIds = s.cohortIds := by
  unfold State.landHalf
  dsimp only
  split
  · simp
  · split
    · (repeat' split) <;> simp
    · split <;> next e => simp [State.cohortIds_of_eq (s.mergeCheck_cohortIds _ _) e]

@[simp] theorem State.flushHalves_cohortIds (s : State) (p : Half → Bool) : (s.flushHalves p).cohortIds = s.cohortIds := by
  simp [State.flushHalves]

@[simp] theorem State.performHalf_cohortIds (s : State) (req tid a e : Nat) (w : Writer) (eff : Option (Nat × MemEff))
    (ret : Option (Nat × Nat)) (watch : Bool) : (s.performHalf req tid a e w eff ret watch).cohortIds = s.cohortIds := by
  unfold State.performHalf
  dsimp only
  split <;> split <;> simp

/-! ### The quantum buffer -/

@[simp] theorem State.newReq_cohortIds (s : State) : s.newReq.2.cohortIds = s.cohortIds := rfl

@[simp] theorem State.unbuffer_cohortIds (s : State) (q : QEntry) : (s.unbuffer q).cohortIds = s.cohortIds := rfl

@[simp] theorem State.refuseEntry_cohortIds (s : State) (q : QEntry) : (s.refuseEntry q).cohortIds = s.cohortIds := by
  simp [State.refuseEntry]

@[simp] theorem State.landEntry_cohortIds (s : State) (q : QEntry) : (s.landEntry q).cohortIds = s.cohortIds := by
  unfold State.landEntry
  dsimp only
  split
  · simp
  · split
    · next e => simp [State.cohortIds_of_eq (s.mergeCheck_cohortIds _ _) e]
    · next e =>
      rw [State.noteWrite_cohortIds]
      split <;> simp [State.cohortIds_of_eq (s.mergeCheck_cohortIds _ _) e]

@[simp] theorem State.applyEntry_cohortIds (fuel : Nat) (q : QEntry) (s : State) : (State.applyEntry fuel q s).cohortIds = s.cohortIds := by
  induction fuel generalizing q s with
  | zero => rfl
  | succ fuel ih => simp [State.applyEntry, ih]

@[simp] theorem State.applyEntries_cohortIds (s : State) (qs : List QEntry) : (s.applyEntries qs).cohortIds = s.cohortIds := by
  simp [State.applyEntries]

@[simp] theorem State.spill_cohortIds (s : State) (agent : Nat) (p : TlbEntry → Bool) : (s.spill agent p).cohortIds = s.cohortIds := by
  simp [State.spill]

@[simp] theorem State.complete_cohortIds (s : State) (secs : List Nat) : (s.complete secs).cohortIds = s.cohortIds := by
  simp [State.complete]

/-! ### Read tokens -/

@[simp] theorem State.give_cohortIds (s : State) (sec agent : Nat) (source : Option Nat) : (s.give sec agent source).cohortIds = s.cohortIds := by
  unfold State.give
  dsimp only
  split <;> simp

@[simp] theorem State.grantSec_cohortIds (s : State) (sec agent : Nat) : (s.grantSec sec agent).cohortIds = s.cohortIds := by
  unfold State.grantSec
  dsimp only
  (repeat' split) <;> simp

@[simp] theorem State.grant_cohortIds (s : State) (sec agent : Nat) : (s.grant sec agent).cohortIds = s.cohortIds := by
  simp [State.grant]

@[simp] theorem State.sendEvict_cohortIds (s : State) (sec agent : Nat) : (s.sendEvict sec agent).cohortIds = s.cohortIds := by
  simp [State.sendEvict]

@[simp] theorem State.trimCache_cohortIds (s : State) (agent sets cap sec : Nat) (desc : Bool) :
    (s.trimCache agent sets cap sec desc).cohortIds = s.cohortIds := by
  simp [State.trimCache]

@[simp] theorem State.grantIc_cohortIds (s : State) (core key n : Nat) (desc : Bool) : (s.grantIc core key n desc).cohortIds = s.cohortIds := by
  simp [State.grantIc]

/-! ### The walk -/

@[simp] theorem State.readPte_cohortIds (s : State) (agent sec : Nat) : (s.readPte agent sec).cohortIds = s.cohortIds := by
  simp [State.readPte]

@[simp] theorem State.noteEntry_cohortIds (s : State) (e : TlbEntry) : (s.noteEntry e).cohortIds = s.cohortIds := by
  simp [State.noteEntry]

@[simp] theorem State.noteWalk_cohortIds (s : State) (agent ctx : Nat) (ptroot : Dword) (va from' : Nat) (as : List Nat) (r : Tr) :
    (s.noteWalk agent ctx ptroot va from' as r).cohortIds = s.cohortIds := by
  unfold State.noteWalk
  split
  · exact State.foldl_cohortIds State.noteEntry_cohortIds _ _
  · rfl

@[simp] theorem State.walkFor_cohortIds (s : State) (agent ctx : Nat) (ptroot : Dword) (priv : Bool) (va : Nat) (acc : Acc) :
    (s.walkFor agent ctx ptroot priv va acc).2.cohortIds = s.cohortIds := by
  unfold State.walkFor
  dsimp only
  split <;> simp

@[simp] theorem State.translate_cohortIds (s : State) (agent ctx : Nat) (ptroot : Dword) (priv : Bool) (va : Nat) (acc : Acc)
    (slot : Option Nat) : (s.translate agent ctx ptroot priv va acc slot).2.cohortIds = s.cohortIds := by
  unfold State.translate
  dsimp only
  (repeat' split) <;> simp

end Sys2Proof.Machine
end

section
/-! SUPPORT. An instruction that a fetch runs finds its cohort, and every instruction answers a next state. -/

namespace Sys2Proof.Machine

/-! ### Fetching keeps the cohorts -/

/-- What comes of reading code, with the same cohorts in flight where it is read. -/
def Code.KeepsCohorts (s : State) : Code → Prop
  | .ok _ u => u.cohortIds = s.cohortIds
  | .stop _ => True

/-- An instruction that a fetch runs executes in a cohort in flight. -/
def Fetched.FindsCohort : Fetched → Prop
  | .run _ u => (u.cur.bind u.cohorts.find).isSome = true
  | .stop _ => True

theorem Code.keepsCohorts_trans {s t : State} {r : Code} (h : t.cohortIds = s.cohortIds) (hr : r.KeepsCohorts t) : r.KeepsCohorts s := by
  cases r with
  | ok m u => exact Eq.trans hr h
  | stop u => trivial

theorem State.readCode_keepsCohorts (s : State) (cid : Nat) (c : Cohort) (ps : List (Nat × Nat)) (m : Map CodeWord) :
    (s.readCode cid c ps m).KeepsCohorts s := by
  induction ps generalizing s m with
  | nil => rfl
  | cons p ps ih =>
    simp only [State.readCode]
    split
    · trivial
    · split
      · split
        · trivial
        · split
          · split
            · trivial
            · split
              · trivial
              · split
                · exact Code.keepsCohorts_trans (by simp) (ih ..)
                · trivial
          · split
            · trivial
            · exact Code.keepsCohorts_trans (by simp) (ih ..)
      all_goals trivial

theorem State.fetchTrace_keepsCohorts (s : State) (cid : Nat) (c : Cohort) : (s.fetchTrace cid c).KeepsCohorts s := by
  unfold State.fetchTrace
  have hr := s.readCode_keepsCohorts cid c [(c.pc, 1)] []
  split
  · split
    · next e => rw [e] at hr; exact Code.keepsCohorts_trans hr (State.readCode_keepsCohorts ..)
    · exact hr
  · exact State.readCode_keepsCohorts ..

theorem State.decodeFor_findsCohort {s : State} {cid : Nat} (c : Cohort) (w : CodeWord) (h : (s.cohorts.find cid).isSome = true) :
    (s.decodeFor cid c w).FindsCohort := by
  unfold State.decodeFor
  split
  · trivial
  · split
    · exact h
    · trivial

@[simp] theorem State.beginIssue_cohortIds (s : State) (cid : Nat) : (s.beginIssue cid).cohortIds = s.cohortIds :=
  State.cohortIds_of_map rfl (by intro e; rfl)

@[simp] theorem State.dropFetched_cohortIds (s : State) (cid : Nat) : (s.dropFetched cid).cohortIds = s.cohortIds := rfl

theorem State.fetch_of_unread {s u : State} {cid : Nat} {c : Cohort} (hc : s.cohorts.find cid = some c) (hi : s.canIssue c = true)
    (hm : c.code = none) (hr : (s.beginIssue cid).fetchTrace cid c = .stop u) : s.fetch cid = .stop u := by
  unfold State.beginIssue at hr
  simp only [State.fetch, hc, hi, hm, hr]
  rfl

theorem State.fetch_findsCohort (s : State) (cid : Nat) : (s.fetch cid).FindsCohort := by
  cases hc : s.cohorts.find cid with
  | none => simp [State.fetch, hc, Fetched.FindsCohort]
  | some c =>
    by_cases hi : s.canIssue c = true
    · have hs : ((s.beginIssue cid).cohorts.find cid).isSome = true :=
        State.find_isSome_of_cohortIds (s.beginIssue_cohortIds cid) (by simp [hc])
      cases hm : c.code with
      | some m => exact State.fetch_of_held hc hi hm ▸ State.decodeFor_findsCohort _ _ hs
      | none =>
        have ht := (s.beginIssue cid).fetchTrace_keepsCohorts cid c
        cases hr : (s.beginIssue cid).fetchTrace cid c with
        | stop u => exact State.fetch_of_unread hc hi hm hr ▸ trivial
        | ok m u =>
          rw [hr] at ht
          rw [State.fetch_of_read hc hi hm hr]
          exact State.decodeFor_findsCohort _ _ (State.find_isSome_of_cohortIds (by simpa [Code.KeepsCohorts] using ht) hs)
    · simp [State.fetch, hc, hi, Fetched.FindsCohort]

theorem State.fetch_run {s u : State} {cid : Nat} {i : Instr} (h : s.fetch cid = .run i u) : (u.cur.bind u.cohorts.find).isSome = true := by
  have hf := s.fetch_findsCohort cid
  rw [h] at hf
  exact hf

/-! ### Answers -/

/-- The machine goes on. -/
def Answers (o : Host.Outcome State Fault Refusal) : Prop := ∃ t, o = .next t

theorem answers_next (t : State) : Answers (.next t) := ⟨t, rfl⟩

theorem answers_ite {p : Prop} [Decidable p] {a b : Host.Outcome State Fault Refusal} (ha : Answers a) (hb : Answers b) :
    Answers (if p then a else b) := by
  split
  · exact ha
  · exact hb

theorem onCohort_answers {s : State} {f : Cohort → State → State} (h : (s.cur.bind s.cohorts.find).isSome = true) : Answers (onCohort s f) := by
  obtain ⟨c, hc⟩ := Option.isSome_iff_exists.1 h
  unfold onCohort
  rw [hc]
  exact answers_next _

/-! ### The messages that look at the state before they answer -/

theorem execRdtok_answers (agent sec : Nat) (s : State) : Answers (execRdtok agent sec s) := by
  unfold execRdtok
  split <;> exact answers_next _

theorem execAtomMessage_answers (r : AtomReq) (s : State) : Answers (execAtomMessage r s) := by
  unfold execAtomMessage
  split
  · exact answers_next _
  · split
    · exact answers_next _
    · split <;> exact answers_next _

theorem execProbe_answers (sec target : Nat) (one : Bool) (s : State) : Answers (execProbe sec target one s) :=
  answers_ite (answers_next _) (answers_ite (answers_next _) (answers_next _))

theorem execEvict_answers (sec agent : Nat) (s : State) : Answers (execEvict sec agent s) := by
  unfold execEvict
  split <;> exact answers_next _

theorem execEvictdata_answers (sec die : Nat) (s : State) : Answers (execEvictdata sec die s) := by
  unfold execEvictdata
  split <;> exact answers_next _

theorem execPersreq_answers (agent sec : Nat) (s : State) : Answers (execPersreq agent sec s) := by
  unfold execPersreq
  dsimp only
  split
  · exact answers_next _
  · split <;> exact answers_next _

theorem execPersdone_answers (agent sec : Nat) (s : State) : Answers (execPersdone agent sec s) := by
  unfold execPersdone
  dsimp only
  split <;> exact answers_next _

theorem execTokenRequestTimeout_answers (sec : Nat) (s : State) : Answers (execTokenRequestTimeout sec s) := by
  unfold execTokenRequestTimeout
  dsimp only
  repeat' split
  all_goals exact answers_next _

theorem execPersistentTableRetry_answers (sec : Nat) (s : State) : Answers (execPersistentTableRetry sec s) := by
  unfold execPersistentTableRetry
  dsimp only
  repeat' split
  all_goals exact answers_next _

theorem execCtxcreate_answers (s : State) : Answers (execCtxcreate s) := by
  unfold execCtxcreate
  dsimp only
  split <;> exact answers_next _

end Sys2Proof.Machine

namespace Sys2Proof.Claims
open Machine

theorem exec_answers {i : Instr} {s : State} (h : ofCohort i → (s.cur.bind s.cohorts.find).isSome = true) : Answers (exec i s) := by
  unfold exec
  cases i
  case nop | illegal | trc | guard | guardr | guardnz | skip | commitNext | commitSel | commitInd | commitCall | commitRet | commitExit
      | commitBar | commitRwait | matchKey | trigger | yield | trap | brk | srd | qstat | iadd | isub | imul | imulh | imad | imadLong
      | imin | imax | iaddc | and | or | xor | lop3 | shl | shr | sha | funnel | bfe | bfi | popc | clz | brev | prmt | iset | pset | sel
      | mov | movi | movi64 | padd | lea | cvti | shfl | vote | matchv | compact | scan | redux | fadd | fmul | ffma | dadd | dmul | dfma
      | hadd2 | hmul2 | hfma2 | fmin | fmax | dmin | dmax | hmin2 | hmax2 | fset | dset | hset2 | fclass | frnd | frcp | frsq | fex2 | flg2
      | fsinp | fcosp | drcp | drsq | cvt | pack | l6pack | l6unpk | w4unpk | ld | st | atom | atomcas | pfetch | kld | fence | lds | sts
      | atoms | renew | arm | await | spage | mma | mmasp | mzero | mwait | mld | mst | mrd | mwr | tdesc | xcopy | xcoll | xwait | launch
      | csrr | csrw | ctxPtrootWrite | crewTimerWrite | version | whoami | yieldcrew | injectauth | faultq | callsvUnknown | sleep =>
    exact onCohort_answers (h (.inl rfl))
  case errInjectL2Single | errInjectL2Uncorrectable | errInjectHbmUncorrectable | errInjectCheckMismatch | errInjectFpDisturb
      | errInjectDisarm =>
    exact onCohort_answers (h (.inr (by simp)))
  case rdtok => exact execRdtok_answers ..
  case atomMessage => exact execAtomMessage_answers ..
  case probe => exact execProbe_answers ..
  case evict => exact execEvict_answers ..
  case evictdata => exact execEvictdata_answers ..
  case persreq => exact execPersreq_answers ..
  case persdone => exact execPersdone_answers ..
  case tokenRequestTimeout => exact execTokenRequestTimeout_answers ..
  case persistentTableRetry => exact execPersistentTableRetry_answers ..
  case ctxcreate => exact execCtxcreate_answers ..
  all_goals exact answers_next _

/-- Settles O4: by the first turn. A fetched instruction finds its cohort, because reading code ends none; the other turns answer as they stand. -/
theorem everyStepHasANextState : Obligations.EveryStepHasANextState := by
  intro s hw
  cases ha : s.agenda with
  | nil => exact ⟨_, step_idle ha⟩
  | cons t rest =>
    by_cases hi : ∃ cid, t = .issue cid
    · obtain ⟨cid, rfl⟩ := hi
      cases hf : State.fetch { s with agenda := rest } cid with
      | stop u => exact ⟨u, step_of_stop ha hf⟩
      | run i u => exact step_of_run ha hf ▸ exec_answers fun _ => State.fetch_run hf
    · by_cases hh : ∃ i, t = .hw i
      · obtain ⟨i, rfl⟩ := hh
        exact step_hw ha ▸ exec_answers fun hc => absurd hc (hw i rest ha)
      · exact ⟨_, step_other ha (fun cid h => hi ⟨cid, h⟩) fun i h => hh ⟨i, h⟩⟩

end Sys2Proof.Claims
end

section
/-! SUPPORT. What results leave in the registers: one lemma for each write of a register, from which what the whole of a destination holds follows. -/

namespace Sys2Proof.Machine
open Sys2Proof.Claims

/-! ### Folds over results -/

/-- What no step of a fold changes is as before it. -/
theorem foldl_keeps {α β : Type} {f : State → α → State} {g : State → β} {l : List α} (h : ∀ a ∈ l, ∀ s, g (f s a) = g s) (s : State) :
    g (l.foldl f s) = g s := by
  induction l generalizing s with
  | nil => rfl
  | cons a l ih => exact (ih (fun b hb => h b (List.mem_cons_of_mem a hb)) _).trans (h a List.mem_cons_self s)

/-- What a step of a fold sets and no later one changes. -/
theorem foldl_sets {α β : Type} {f : State → α → State} {g : State → β} {l : List α} {i : Nat} {a : α} {v : β} (hi : l[i]? = some a)
    (h : ∀ s, g (f s a) = v) (hl : ∀ (j : Nat) (b : α), i < j → l[j]? = some b → ∀ s, g (f s b) = g s) (s : State) : g (l.foldl f s) = v := by
  obtain ⟨hlt, rfl⟩ := List.getElem?_eq_some_iff.1 hi
  rw [← List.take_append_drop i l, List.drop_eq_getElem_cons hlt, List.foldl_append, List.foldl_cons, foldl_keeps (g := g) _ _, h]
  intro b hb
  obtain ⟨j, hj⟩ := List.mem_iff_getElem?.1 hb
  rw [List.getElem?_drop] at hj
  exact hl _ b (by omega) hj

/-! ### One register -/

@[simp] theorem State.pendWrite_vreg (s : State) (cid : Nat) (f : RegFile) (key old lat least : Nat) :
    (s.pendWrite cid f key old lat least).vreg = s.vreg := rfl
@[simp] theorem State.pendWrite_preg (s : State) (cid : Nat) (f : RegFile) (key old lat least : Nat) :
    (s.pendWrite cid f key old lat least).preg = s.preg := rfl
@[simp] theorem State.pendWrite_kreg (s : State) (cid : Nat) (f : RegFile) (key old lat least : Nat) :
    (s.pendWrite cid f key old lat least).kreg = s.kreg := rfl
@[simp] theorem State.pendWrite_crews (s : State) (cid : Nat) (f : RegFile) (key old lat least : Nat) :
    (s.pendWrite cid f key old lat least).crews = s.crews := rfl
@[simp] theorem State.pendWrite_clock (s : State) (cid : Nat) (f : RegFile) (key old lat least : Nat) :
    (s.pendWrite cid f key old lat least).clock = s.clock := rfl

theorem State.getV_of_vreg {s t : State} (h : t.vreg = s.vreg) (tid n : Nat) : t.getV tid n = s.getV tid n := by
  simp only [State.getV, h]

theorem State.getP_of_preg {s t : State} (h : t.preg = s.preg) (tid n : Nat) : t.getP tid n = s.getP tid n := by
  simp only [State.getP, h]

theorem State.getK_of_kreg {s t : State} (h : t.kreg = s.kreg) (crew n : Nat) : t.getK crew n = s.getK crew n := by
  simp only [State.getK, h]

@[simp] theorem State.getV_putV_self (s : State) (cid tid n : Nat) (w : Word) (lat : Nat) : (s.putV cid tid n w lat).getV tid n = w :=
  State.getV_setV_self ..

theorem State.getV_putV_ne (s : State) {cid tid n tid' n' : Nat} (w : Word) (lat : Nat) (h : vKey tid' n' ≠ vKey tid n) :
    (s.putV cid tid n w lat).getV tid' n' = s.getV tid' n' :=
  (State.getV_setV_ne _ w h).trans (State.getV_of_vreg rfl ..)

theorem State.getP_putP_self (s : State) (cid tid n : Nat) (b : Bool) (lat : Nat) : (s.putP cid tid n b lat).getP tid n = (n == 7 || b) :=
  State.getP_setP_self ..

theorem State.getP_putP_ne (s : State) {cid tid n tid' n' : Nat} (b : Bool) (lat : Nat) (h : pKey tid' n' ≠ pKey tid n) :
    (s.putP cid tid n b lat).getP tid' n' = s.getP tid' n' :=
  (State.getP_setP_ne _ b h).trans (State.getP_of_preg rfl ..)

@[simp] theorem State.putV_preg (s : State) (cid tid n : Nat) (w : Word) (lat : Nat) : (s.putV cid tid n w lat).preg = s.preg := rfl
@[simp] theorem State.putV_kreg (s : State) (cid tid n : Nat) (w : Word) (lat : Nat) : (s.putV cid tid n w lat).kreg = s.kreg := rfl
@[simp] theorem State.putV_crews (s : State) (cid tid n : Nat) (w : Word) (lat : Nat) : (s.putV cid tid n w lat).crews = s.crews := rfl

@[simp] theorem State.putP_vreg (s : State) (cid tid n : Nat) (b : Bool) (lat : Nat) : (s.putP cid tid n b lat).vreg = s.vreg := by
  simp [State.putP]
@[simp] theorem State.putP_kreg (s : State) (cid tid n : Nat) (b : Bool) (lat : Nat) : (s.putP cid tid n b lat).kreg = s.kreg := by
  simp [State.putP]
@[simp] theorem State.putP_crews (s : State) (cid tid n : Nat) (b : Bool) (lat : Nat) : (s.putP cid tid n b lat).crews = s.crews := by
  simp [State.putP]

/-! ### A lane's register or pair -/

theorem vKey_succ_ne (tid n : Nat) : vKey tid n ≠ vKey tid (n + 1) := by unfold vKey; omega

theorem kKey_succ_ne (crew n : Nat) : kKey crew n ≠ kKey crew (n + 1) := by unfold kKey; omega

theorem State.getV_putLane_low (s : State) (cid tid n : Nat) (wide : Bool) (v lat : Nat) :
    (s.putLane cid tid n wide v lat).getV tid n = BitVec.ofNat 32 v := by
  unfold State.putLane
  dsimp only
  split
  · rw [State.getV_putV_ne _ _ _ (vKey_succ_ne tid n), State.getV_putV_self]
  · exact State.getV_putV_self ..

theorem State.getV_putLane_high (s : State) (cid tid n : Nat) (v lat : Nat) :
    (s.putLane cid tid n true v lat).getV tid (n + 1) = BitVec.ofNat 32 (v / 2 ^ 32) := State.getV_putV_self ..

theorem State.getV_putLane_ne (s : State) {cid tid n tid' n' : Nat} {wide : Bool} (v lat : Nat) (h : vKey tid' n' ≠ vKey tid n)
    (hw : wide = true → vKey tid' n' ≠ vKey tid (n + 1)) : (s.putLane cid tid n wide v lat).getV tid' n' = s.getV tid' n' := by
  unfold State.putLane
  dsimp only
  split
  · next e => rw [State.getV_putV_ne _ _ _ (hw e), State.getV_putV_ne _ _ _ h]
  · exact State.getV_putV_ne _ _ _ h

@[simp] theorem State.putLane_preg (s : State) (cid tid n : Nat) (wide : Bool) (v lat : Nat) :
    (s.putLane cid tid n wide v lat).preg = s.preg := by
  unfold State.putLane; dsimp only; split <;> rfl
@[simp] theorem State.putLane_kreg (s : State) (cid tid n : Nat) (wide : Bool) (v lat : Nat) :
    (s.putLane cid tid n wide v lat).kreg = s.kreg := by
  unfold State.putLane; dsimp only; split <;> rfl
@[simp] theorem State.putLane_crews (s : State) (cid tid n : Nat) (wide : Bool) (v lat : Nat) :
    (s.putLane cid tid n wide v lat).crews = s.crews := by
  unfold State.putLane; dsimp only; split <;> rfl

/-! ### A crew's register or pair (R129) -/

/-- A write that comes after every earlier one of its register is the last. -/
theorem placeK_last {k : KPend} {w : Word} {es : List KPend} (h : ∀ e ∈ es, e.reg = k.reg → e.ready < k.ready) : (placeK k w es).2 = true := by
  induction es with
  | nil => rfl
  | cons e es ih =>
    unfold placeK
    rw [if_neg]
    · exact ih fun e he => h e (List.mem_cons_of_mem _ he)
    · have he := h e List.mem_cons_self
      simp only [Bool.and_eq_true, Bool.or_eq_true, beq_iff_eq, decide_eq_true_eq, not_and, not_or]
      intro hr
      have := he hr
      omega

/-- Taking a place touches no write of another register. -/
theorem mem_of_mem_placeK {k e : KPend} {w : Word} {es : List KPend} (he : e ∈ (placeK k w es).1) (hr : e.reg ≠ k.reg) : e ∈ es := by
  induction es with
  | nil => simp only [placeK, List.mem_singleton] at he; exact absurd (he ▸ rfl) hr
  | cons d es ih =>
    unfold placeK at he
    split at he
    · next hc =>
      simp only [Bool.and_eq_true, beq_iff_eq] at hc
      simp only [List.mem_cons] at he ⊢
      obtain rfl | rfl | he := he
      · exact absurd rfl hr
      · exact absurd hc.1 hr
      · exact .inr he
    · simp only [List.mem_cons] at he ⊢
      exact he.imp_right ih

/-- Every write of a crew's register before is written before a clock. -/
def State.kWritten (s : State) (crew n clock : Nat) : Prop := ∀ w, s.crews.find crew = some w → ∀ e ∈ w.kPend, e.reg = n → e.ready < clock

theorem State.putK_of_no_crew {s : State} {cid crew n : Nat} {w : Word} {lat : Nat} (h : s.crews.find crew = none) :
    ∃ least, s.putK cid crew n w lat = (s.pendWrite cid .k (kKey crew n) (s.getK crew n).toNat lat least).setK crew n w := by
  unfold State.putK
  dsimp only
  rw [State.pendWrite_crews, h]
  exact ⟨_, rfl⟩

/-- The state in which a write of a crew register has its place among the crew's. -/
def State.placed (s : State) (crew : Nat) (es : List KPend) : State := s.modCrew crew fun r => { r with kPend := es }

theorem State.putK_of_crew {s : State} {cid crew n : Nat} {w : Word} {lat : Nat} {r : Crew} (h : s.crews.find crew = some r) :
    ∃ least k, k.reg = n ∧ s.clock + lat ≤ k.ready ∧ s.putK cid crew n w lat =
      let u := (s.pendWrite cid .k (kKey crew n) (s.getK crew n).toNat lat least).placed crew (placeK k w r.kPend).1
      if (placeK k w r.kPend).2 then u.setK crew n w else u := by
  unfold State.putK
  dsimp only
  rw [State.pendWrite_crews, h]
  exact ⟨_, ⟨n, s.getK crew n, cid, _, _, _, []⟩, rfl, le_max_left .., rfl⟩

theorem State.getK_putK_self {s : State} {cid crew n : Nat} {w : Word} {lat : Nat} (h : s.kWritten crew n (s.clock + lat)) :
    (s.putK cid crew n w lat).getK crew n = w := by
  cases hr : s.crews.find crew with
  | none =>
    obtain ⟨least, e⟩ := State.putK_of_no_crew (cid := cid) (n := n) (w := w) (lat := lat) hr
    rw [e]; exact State.getK_setK_self ..
  | some r =>
    obtain ⟨least, k, hk, hready, e⟩ := State.putK_of_crew (cid := cid) (n := n) (w := w) (lat := lat) hr
    rw [e, placeK_last fun d hd hn => lt_of_lt_of_le (h r hr d hd (hn.trans hk)) hready]
    exact State.getK_setK_self ..

theorem State.getK_putK_ne (s : State) {cid crew n crew' n' : Nat} (w : Word) (lat : Nat) (h : kKey crew' n' ≠ kKey crew n) :
    (s.putK cid crew n w lat).getK crew' n' = s.getK crew' n' := by
  cases hr : s.crews.find crew with
  | none =>
    obtain ⟨least, e⟩ := State.putK_of_no_crew (cid := cid) (n := n) (w := w) (lat := lat) hr
    rw [e, State.getK_setK_ne _ _ h]; exact State.getK_of_kreg rfl ..
  | some r =>
    obtain ⟨least, k, -, -, e⟩ := State.putK_of_crew (cid := cid) (n := n) (w := w) (lat := lat) hr
    rw [e]
    dsimp only
    split
    · rw [State.getK_setK_ne _ _ h]; exact State.getK_of_kreg rfl ..
    · exact State.getK_of_kreg rfl ..

theorem State.putK_kWritten {s : State} {cid crew n m clock : Nat} {w : Word} {lat : Nat} (h : s.kWritten crew m clock) (hm : m ≠ n) :
    (s.putK cid crew n w lat).kWritten crew m clock := by
  cases hr : s.crews.find crew with
  | none =>
    obtain ⟨least, e⟩ := State.putK_of_no_crew (cid := cid) (n := n) (w := w) (lat := lat) hr
    rw [e]; exact h
  | some r =>
    obtain ⟨least, k, hk, -, e⟩ := State.putK_of_crew (cid := cid) (n := n) (w := w) (lat := lat) hr
    intro v hv d hd hn
    have hv : ((s.crews.modify crew fun r' => { r' with kPend := (placeK k w r.kPend).1 }).find crew) = some v := by
      rw [e] at hv
      dsimp only at hv
      split at hv <;> exact hv
    rw [Map.find_modify_self, hr] at hv
    obtain rfl := Option.some.inj hv
    exact h r hr d (mem_of_mem_placeK hd (by omega)) hn

@[simp] theorem State.putK_vreg (s : State) (cid crew n : Nat) (w : Word) (lat : Nat) : (s.putK cid crew n w lat).vreg = s.vreg := by
  unfold State.putK; dsimp only; split
  · rfl
  · split <;> rfl
@[simp] theorem State.putK_preg (s : State) (cid crew n : Nat) (w : Word) (lat : Nat) : (s.putK cid crew n w lat).preg = s.preg := by
  unfold State.putK; dsimp only; split
  · rfl
  · split <;> rfl
@[simp] theorem State.putK_clock (s : State) (cid crew n : Nat) (w : Word) (lat : Nat) : (s.putK cid crew n w lat).clock = s.clock := by
  unfold State.putK; dsimp only; split
  · rfl
  · split <;> rfl

/-- A conduit of a crew. -/
def State.conduitOf (s : State) (crew q : Nat) : Option Conduit := (s.crews.find crew).bind (·.conduit q)

theorem State.conduitOf_of_crews {s t : State} (h : t.crews = s.crews) (crew q : Nat) : t.conduitOf crew q = s.conduitOf crew q := by
  simp only [State.conduitOf, h]

/-- Changing a crew's k writes leaves its conduits. -/
theorem State.conduitOf_modCrew (s : State) {crew : Nat} {f : Crew → Crew} (h : ∀ w, (f w).conduits = w.conduits) (crew' q : Nat) :
    (s.modCrew crew f).conduitOf crew' q = s.conduitOf crew' q := by
  unfold State.conduitOf
  rw [State.modCrew_crews]
  by_cases hc : crew' = crew
  · subst hc
    rw [Map.find_modify_self]
    cases s.crews.find crew' with
    | none => rfl
    | some w => simp [Crew.conduit, h]
  · rw [Map.find_modify_ne _ _ hc]

@[simp] theorem State.placed_conduitOf (s : State) (crew : Nat) (es : List KPend) (crew' q : Nat) :
    (s.placed crew es).conduitOf crew' q = s.conduitOf crew' q :=
  s.conduitOf_modCrew (f := fun r => { r with kPend := es }) (fun _ => rfl) ..

@[simp] theorem State.putK_conduitOf (s : State) (cid crew n : Nat) (w : Word) (lat crew' q : Nat) :
    (s.putK cid crew n w lat).conduitOf crew' q = s.conduitOf crew' q := by
  cases hr : s.crews.find crew with
  | none =>
    obtain ⟨least, e⟩ := State.putK_of_no_crew (cid := cid) (n := n) (w := w) (lat := lat) hr
    rw [e]; exact State.conduitOf_of_crews rfl ..
  | some r =>
    obtain ⟨least, k, -, -, e⟩ := State.putK_of_crew (cid := cid) (n := n) (w := w) (lat := lat) hr
    have h (u : State) (hu : u.crews = s.crews) : (u.placed crew (placeK k w r.kPend).1).conduitOf crew' q = s.conduitOf crew' q :=
      (u.placed_conduitOf ..).trans (State.conduitOf_of_crews hu ..)
    rw [e]
    dsimp only
    split
    · exact (State.conduitOf_of_crews rfl ..).trans (h _ rfl)
    · exact h _ rfl

theorem State.getK_putCrew_low {s : State} {cid crew n : Nat} {wide : Bool} {v lat : Nat} (h : s.kWritten crew n (s.clock + lat)) :
    (s.putCrew cid crew n wide v lat).getK crew n = BitVec.ofNat 32 v := by
  unfold State.putCrew
  dsimp only
  split
  · rw [State.getK_putK_ne _ _ _ (kKey_succ_ne crew n), State.getK_putK_self h]
  · exact State.getK_putK_self h

theorem State.getK_putCrew_high {s : State} {cid crew n : Nat} {v lat : Nat} (h : s.kWritten crew (n + 1) (s.clock + lat)) :
    (s.putCrew cid crew n true v lat).getK crew (n + 1) = BitVec.ofNat 32 (v / 2 ^ 32) :=
  State.getK_putK_self (by rw [State.putK_clock]; exact State.putK_kWritten h (by omega))

theorem State.getK_putCrew_ne (s : State) {cid crew n crew' n' : Nat} {wide : Bool} (v lat : Nat) (h : kKey crew' n' ≠ kKey crew n)
    (hw : wide = true → kKey crew' n' ≠ kKey crew (n + 1)) : (s.putCrew cid crew n wide v lat).getK crew' n' = s.getK crew' n' := by
  unfold State.putCrew
  dsimp only
  split
  · next e => rw [State.getK_putK_ne _ _ _ (hw e), State.getK_putK_ne _ _ _ h]
  · exact State.getK_putK_ne _ _ _ h

@[simp] theorem State.putCrew_vreg (s : State) (cid crew n : Nat) (wide : Bool) (v lat : Nat) :
    (s.putCrew cid crew n wide v lat).vreg = s.vreg := by
  unfold State.putCrew; dsimp only; split <;> simp
@[simp] theorem State.putCrew_preg (s : State) (cid crew n : Nat) (wide : Bool) (v lat : Nat) :
    (s.putCrew cid crew n wide v lat).preg = s.preg := by
  unfold State.putCrew; dsimp only; split <;> simp
@[simp] theorem State.putCrew_conduitOf (s : State) (cid crew n : Nat) (wide : Bool) (v lat crew' q : Nat) :
    (s.putCrew cid crew n wide v lat).conduitOf crew' q = s.conduitOf crew' q := by
  unfold State.putCrew; dsimp only; split <;> simp

/-! ### A conduit (R90) -/

theorem State.pushQ_conduit {s : State} {crew q : Nat} {w : Crew} {cd : Conduit} (hw : s.crews.find crew = some w) (hq : w.conduit q = some cd)
    (ws : List Word) (ready : Nat) : ∃ w', (s.pushQ crew q ws ready).crews.find crew = some w' ∧
      w'.conduit q = some { cd with fifo := cd.fifo ++ ws.map (·, ready) } := by
  refine ⟨_, by rw [State.pushQ, State.modCrew_crews, Map.find_modify_self, hw]; rfl, ?_⟩
  obtain ⟨hlt, -⟩ := List.getElem?_eq_some_iff.1 hq
  simp only [hq]
  exact List.getElem?_set_self hlt

theorem State.pushQ_conduitOf_ne (s : State) {crew q crew' q' : Nat} (ws : List Word) (ready : Nat) (h : ¬(crew' = crew ∧ q' = q)) :
    (s.pushQ crew q ws ready).conduitOf crew' q' = s.conduitOf crew' q' := by
  unfold State.conduitOf State.pushQ
  rw [State.modCrew_crews]
  by_cases hc : crew' = crew
  · subst hc
    rw [Map.find_modify_self]
    cases s.crews.find crew' with
    | none => rfl
    | some w =>
      simp only [Option.map_some, Option.bind_some]
      split
      · rfl
      · exact List.getElem?_set_ne fun e => h ⟨rfl, e.symm⟩
  · rw [Map.find_modify_ne _ _ hc]

end Sys2Proof.Machine
end

section
/-! SUPPORT. What results leave in a destination of each kind, and that they are written as the statements say. -/

namespace Sys2Proof.Machine
open Sys2Proof.Claims

/-- A destination's registers lie in their file: a pair of lane registers starts at an even one, and crew registers are 64. -/
structure DestFits (sp : OpSpec) (d : Reg) : Prop where
  lane : d.file = .v → sp.span = .pair → d.num.toNat + 1 < 256
  crew : d.file = .k → takesRegs sp → d.num.toNat < 64
  crewPair : d.file = .k → sp.span = .pair → d.num.toNat + 1 < 64

/-! ### The kinds of destination -/

theorem State.writeDst_pred {sp : OpSpec} (h : sp.span = .pred) (s : State) (c : Cohort) (d : Reg) (lat : Nat) (res : List (Lane × Nat)) :
    s.writeDst c sp d lat res = res.foldl (fun s r => s.putP c.id r.1.tid (d.num.toNat % 8) (r.2 % 2 == 1) lat) s := by
  simp only [State.writeDst, h]

theorem State.writeDst_absent {sp : OpSpec} (h : sp.span = .absent) (s : State) (c : Cohort) (d : Reg) (lat : Nat) (res : List (Lane × Nat)) :
    s.writeDst c sp d lat res = s := by
  simp only [State.writeDst, h]

section
variable {sp : OpSpec} {d : Reg} (h : takesRegs sp)
include h

theorem State.writeDst_v (hd : d.file = .v) (s : State) (c : Cohort) (lat : Nat) (res : List (Lane × Nat)) :
    s.writeDst c sp d lat res = res.foldl (fun s r => s.putLane c.id r.1.tid d.num.toNat (sp.span == .pair) r.2 lat) s := by
  rcases h with h | h <;> simp only [State.writeDst, h, hd]

theorem State.writeDst_k_cons (hd : d.file = .k) (s : State) (c : Cohort) (lat : Nat) (r : Lane × Nat) (res : List (Lane × Nat)) :
    s.writeDst c sp d lat (r :: res) = s.putCrew c.id c.crew d.num.toNat (sp.span == .pair) r.2 lat := by
  rcases h with h | h <;> simp only [State.writeDst, h, hd]

theorem State.writeDst_k_nil (hd : d.file = .k) (s : State) (c : Cohort) (lat : Nat) : s.writeDst c sp d lat [] = s := by
  rcases h with h | h <;> simp only [State.writeDst, h, hd]

theorem State.writeDst_q (hd : d.file = .q) (s : State) (c : Cohort) (lat : Nat) (res : List (Lane × Nat)) :
    s.writeDst c sp d lat res =
      (s.pushQ c.crew d.num.toNat (res.flatMap fun r => pushWords (sp.span == .pair) r.2) (s.clock + lat)).modCohort c.id
        fun k => { k with pushed := max k.pushed (s.clock + lat) } := by
  rcases h with h | h <;> simp only [State.writeDst, h, hd] <;> rfl

end

/-- A destination has no place, is a predicate, or takes lane registers, a crew register or a conduit. -/
theorem dest_cases (sp : OpSpec) (d : Reg) : sp.span = .absent ∨ sp.span = .pred ∨
    (takesRegs sp ∧ (d.file = .v ∨ d.file = .k ∨ d.file = .q)) := by
  unfold takesRegs
  cases sp.span <;> cases d.file <;> simp

/-! ### What is kept -/

theorem State.writeDst_vreg {sp : OpSpec} {d : Reg} (h : ¬(takesRegs sp ∧ d.file = .v)) (s : State) (c : Cohort) (lat : Nat)
    (res : List (Lane × Nat)) : (s.writeDst c sp d lat res).vreg = s.vreg := by
  obtain ha | hp | ⟨ht, hv | hk | hq⟩ := dest_cases sp d
  · rw [State.writeDst_absent ha]
  · rw [State.writeDst_pred hp]; exact foldl_keeps (g := State.vreg) (fun r _ s => s.putP_vreg ..) s
  · exact absurd ⟨ht, hv⟩ h
  · cases res with
    | nil => rw [State.writeDst_k_nil ht hk]
    | cons r res => rw [State.writeDst_k_cons ht hk]; exact s.putCrew_vreg ..
  · rw [State.writeDst_q ht hq]; rfl

theorem State.writeDst_preg {sp : OpSpec} (h : sp.span ≠ .pred) (s : State) (c : Cohort) (d : Reg) (lat : Nat) (res : List (Lane × Nat)) :
    (s.writeDst c sp d lat res).preg = s.preg := by
  obtain ha | hp | ⟨ht, hv | hk | hq⟩ := dest_cases sp d
  · rw [State.writeDst_absent ha]
  · exact absurd hp h
  · rw [State.writeDst_v ht hv]; exact foldl_keeps (g := State.preg) (fun r _ s => s.putLane_preg ..) s
  · cases res with
    | nil => rw [State.writeDst_k_nil ht hk]
    | cons r res => rw [State.writeDst_k_cons ht hk]; exact s.putCrew_preg ..
  · rw [State.writeDst_q ht hq]; rfl

theorem State.writeDst_kreg {sp : OpSpec} {d : Reg} (h : ¬(takesRegs sp ∧ d.file = .k)) (s : State) (c : Cohort) (lat : Nat)
    (res : List (Lane × Nat)) : (s.writeDst c sp d lat res).kreg = s.kreg := by
  obtain ha | hp | ⟨ht, hv | hk | hq⟩ := dest_cases sp d
  · rw [State.writeDst_absent ha]
  · rw [State.writeDst_pred hp]; exact foldl_keeps (g := State.kreg) (fun r _ s => s.putP_kreg ..) s
  · rw [State.writeDst_v ht hv]; exact foldl_keeps (g := State.kreg) (fun r _ s => s.putLane_kreg ..) s
  · exact absurd ⟨ht, hk⟩ h
  · rw [State.writeDst_q ht hq]; rfl

theorem State.writeDst_conduitOf {sp : OpSpec} {d : Reg} {s : State} {c : Cohort} {crew q : Nat} (h : ¬(crew = c.crew ∧ isDest sp d .q q))
    (lat : Nat) (res : List (Lane × Nat)) : (s.writeDst c sp d lat res).conduitOf crew q = s.conduitOf crew q := by
  obtain ha | hp | ⟨ht, hv | hk | hq⟩ := dest_cases sp d
  · rw [State.writeDst_absent ha]
  · rw [State.writeDst_pred hp]
    exact foldl_keeps (g := fun s => s.conduitOf crew q) (fun r _ s => State.conduitOf_of_crews (s.putP_crews ..) ..) s
  · rw [State.writeDst_v ht hv]
    exact foldl_keeps (g := fun s => s.conduitOf crew q) (fun r _ s => State.conduitOf_of_crews (s.putLane_crews ..) ..) s
  · cases res with
    | nil => rw [State.writeDst_k_nil ht hk]
    | cons r res => rw [State.writeDst_k_cons ht hk]; exact s.putCrew_conduitOf ..
  · rw [State.writeDst_q ht hq]
    exact (State.conduitOf_of_crews rfl ..).trans (s.pushQ_conduitOf_ne _ _ fun ⟨hc, hn⟩ => h ⟨hc, hq, .inl ⟨ht, hn⟩⟩)

theorem State.getV_writeDst_ne {sp : OpSpec} {d : Reg} (hf : DestFits sp d) {s : State} {c : Cohort} {res : List (Lane × Nat)} {tid n : Nat}
    (hn : n < 256) (h : ¬((∃ r ∈ res, r.1.tid = tid) ∧ isDest sp d .v n)) (lat : Nat) : (s.writeDst c sp d lat res).getV tid n = s.getV tid n := by
  by_cases hv : takesRegs sp ∧ d.file = .v
  · obtain ⟨ht, hd⟩ := hv
    rw [State.writeDst_v ht hd]
    refine foldl_keeps (g := fun s => s.getV tid n) (fun r hr s => State.getV_putLane_ne _ _ _ (fun e => ?_) fun hw e => ?_) s
    · obtain ⟨rfl, rfl⟩ := (vKey_inj hn (by omega)).1 e
      exact h ⟨⟨r, hr, rfl⟩, hd, .inl ⟨ht, rfl⟩⟩
    · have hw := eq_of_beq hw
      obtain ⟨rfl, rfl⟩ := (vKey_inj hn (hf.lane hd hw)).1 e
      exact h ⟨⟨r, hr, rfl⟩, hd, .inr ⟨hw, rfl⟩⟩
  · exact State.getV_of_vreg (State.writeDst_vreg hv ..) ..

theorem State.getP_writeDst_ne {sp : OpSpec} {d : Reg} {s : State} {c : Cohort} {res : List (Lane × Nat)} {tid n : Nat}
    (hn : n < 8) (h : ¬((∃ r ∈ res, r.1.tid = tid) ∧ sp.span = .pred ∧ n = d.num.toNat % 8)) (lat : Nat) :
    (s.writeDst c sp d lat res).getP tid n = s.getP tid n := by
  by_cases hp : sp.span = .pred
  · rw [State.writeDst_pred hp]
    refine foldl_keeps (g := fun s => s.getP tid n) (fun r hr s => State.getP_putP_ne _ _ _ fun e => ?_) s
    obtain ⟨rfl, rfl⟩ := (pKey_inj hn (by omega)).1 e
    exact h ⟨⟨r, hr, rfl⟩, hp, rfl⟩
  · exact State.getP_of_preg (State.writeDst_preg hp ..) ..

theorem State.getK_writeDst_ne {sp : OpSpec} {d : Reg} (hf : DestFits sp d) {s : State} {c : Cohort} {crew n : Nat} (hn : n < 64)
    (h : ¬(crew = c.crew ∧ isDest sp d .k n)) (lat : Nat) (res : List (Lane × Nat)) :
    (s.writeDst c sp d lat res).getK crew n = s.getK crew n := by
  by_cases hk : takesRegs sp ∧ d.file = .k
  · obtain ⟨ht, hd⟩ := hk
    cases res with
    | nil => rw [State.writeDst_k_nil ht hd]
    | cons r res =>
      rw [State.writeDst_k_cons ht hd]
      refine State.getK_putCrew_ne _ _ _ (fun e => ?_) fun hw e => ?_
      · obtain ⟨rfl, rfl⟩ := (kKey_inj hn (hf.crew hd ht)).1 e
        exact h ⟨rfl, hd, .inl ⟨ht, rfl⟩⟩
      · have hw := eq_of_beq hw
        obtain ⟨rfl, rfl⟩ := (kKey_inj hn (hf.crewPair hd hw)).1 e
        exact h ⟨rfl, hd, .inr ⟨hw, rfl⟩⟩
  · exact State.getK_of_kreg (State.writeDst_kreg hk ..) ..

/-! ### What is written -/

section
variable {sp : OpSpec} {d : Reg} {res : List (Lane × Nat)} {i : Nat} {r : Lane × Nat} (hi : res[i]? = some r)
  (hl : ∀ (j : Nat) (q : Lane × Nat), i < j → res[j]? = some q → q.1.tid ≠ r.1.tid)
include hi hl

theorem State.getV_writeDst_low (hf : DestFits sp d) (ht : takesRegs sp) (hd : d.file = .v) (s : State) (c : Cohort) (lat : Nat) :
    (s.writeDst c sp d lat res).getV r.1.tid d.num.toNat = BitVec.ofNat 32 r.2 := by
  rw [State.writeDst_v ht hd]
  refine foldl_sets (g := fun s => s.getV r.1.tid d.num.toNat) hi (fun s => s.getV_putLane_low ..) (fun j q hj hq s => ?_) s
  refine State.getV_putLane_ne _ _ _ (fun e => ?_) fun hw e => ?_
  · exact hl j q hj hq ((vKey_inj (by omega) (by omega)).1 e).1.symm
  · exact hl j q hj hq ((vKey_inj (by omega) (hf.lane hd (eq_of_beq hw))).1 e).1.symm

theorem State.getV_writeDst_high (hf : DestFits sp d) (hw : sp.span = .pair) (hd : d.file = .v) (s : State) (c : Cohort) (lat : Nat) :
    (s.writeDst c sp d lat res).getV r.1.tid (d.num.toNat + 1) = BitVec.ofNat 32 (r.2 / 2 ^ 32) := by
  have hb : (sp.span == .pair) = true := by simp [hw]
  rw [State.writeDst_v (.inr hw) hd, hb]
  refine foldl_sets (g := fun s => s.getV r.1.tid (d.num.toNat + 1)) hi (fun s => s.getV_putLane_high ..) (fun j q hj hq s => ?_) s
  have hlt := hf.lane hd hw
  exact State.getV_putLane_ne _ _ _ (fun e => hl j q hj hq ((vKey_inj hlt (by omega)).1 e).1.symm)
    fun _ e => hl j q hj hq ((vKey_inj hlt hlt).1 e).1.symm

theorem State.getP_writeDst (hp : sp.span = .pred) (s : State) (c : Cohort) (lat : Nat) :
    (s.writeDst c sp d lat res).getP r.1.tid (d.num.toNat % 8) = (d.num.toNat % 8 == 7 || r.2 % 2 == 1) := by
  rw [State.writeDst_pred hp]
  refine foldl_sets (g := fun s => s.getP r.1.tid (d.num.toNat % 8)) hi (fun s => s.getP_putP_self ..) (fun j q hj hq s => ?_) s
  exact State.getP_putP_ne _ _ _ fun e => hl j q hj hq ((pKey_inj (by omega) (by omega)).1 e).1.symm

end

theorem State.getK_writeDst {sp : OpSpec} {d : Reg} {s : State} {c : Cohort} {lat i : Nat} {r : Lane × Nat} {res : List (Lane × Nat)}
    (hh : res.head? = some r) (hd : d.file = .k) (hi : i = 0 ∧ takesRegs sp ∨ i = 1 ∧ sp.span = .pair)
    (hw : s.kWritten c.crew (d.num.toNat + i) (s.clock + lat)) :
    (s.writeDst c sp d lat res).getK c.crew (d.num.toNat + i) = BitVec.ofNat 32 (r.2 / 2 ^ (32 * i)) := by
  obtain ⟨res, rfl⟩ : ∃ l, res = r :: l := by
    cases res with
    | nil => simp at hh
    | cons q l => simp only [List.head?_cons, Option.some.injEq] at hh; exact ⟨l, by rw [hh]⟩
  obtain ⟨rfl, ht⟩ | ⟨rfl, hp⟩ := hi
  · rw [State.writeDst_k_cons ht hd, Nat.add_zero, State.getK_putCrew_low (by simpa using hw)]
    simp
  · rw [State.writeDst_k_cons (.inr hp) hd, show (sp.span == .pair) = true by simp [hp], State.getK_putCrew_high hw]

theorem State.conduit_writeDst {sp : OpSpec} {d : Reg} {s : State} {c : Cohort} {w : Crew} {q : Conduit} (hw : s.crews.find c.crew = some w)
    (hq : w.conduit d.num.toNat = some q) (hd : d.file = .q) (ht : takesRegs sp) (lat : Nat) (res : List (Lane × Nat)) :
    ∃ w', (s.writeDst c sp d lat res).crews.find c.crew = some w' ∧ w'.conduit d.num.toNat =
      some { q with fifo := q.fifo ++ (res.flatMap fun r => pushWords (sp.span == .pair) r.2).map (·, s.clock + lat) } := by
  rw [State.writeDst_q ht hd]
  exact State.pushQ_conduit hw hq ..

end Sys2Proof.Machine

namespace Sys2Proof.Claims
open Machine

/-- Results are written as the statements say. -/
theorem writeDst_written {sp : OpSpec} {d : Reg} (hf : DestFits sp d) (s : State) (c : Cohort) (lat : Nat) (res : List (Lane × Nat)) :
    Written s (s.writeDst c sp d lat res) c sp d lat res where
  lane _ _ hi hl hd ht := ⟨State.getV_writeDst_low hi hl hf ht hd .., fun hp => State.getV_writeDst_high hi hl hf hp hd ..⟩
  pred _ _ hi hl hp := State.getP_writeDst hi hl hp ..
  crew _ _ hh hd hi hw := State.getK_writeDst hh hd hi hw
  conduit _ _ hw hq hd ht := State.conduit_writeDst hw hq hd ht ..
  vKept _ _ hn h := State.getV_writeDst_ne hf hn h lat
  pKept _ _ hn h := State.getP_writeDst_ne hn h lat
  kKept _ _ hn h := State.getK_writeDst_ne hf hn h ..
  crews := (s.writeDst_kept ..).crews
  qKept _ _ h := State.writeDst_conduitOf h ..

/-- What is written stays so where the registers and the crews do. -/
theorem Written.of_regsKept {s t u : State} {c : Cohort} {sp : OpSpec} {d : Reg} {lat : Nat} {res : List (Lane × Nat)}
    (h : Written s t c sp d lat res) (k : RegsKept t u) : Written s u c sp d lat res where
  lane i r hi hl hd ht := by simpa only [State.getV, k.v] using h.lane i r hi hl hd ht
  pred i r hi hl hp := by simpa only [State.getP, k.p] using h.pred i r hi hl hp
  crew r i hh hd hi hw := by simpa only [State.getK, k.k] using h.crew r i hh hd hi hw
  conduit w q hw hq hd ht := by simpa only [k.crews] using h.conduit w q hw hq hd ht
  vKept tid n hn hne := by simpa only [State.getV, k.v] using h.vKept tid n hn hne
  pKept tid n hn hne := by simpa only [State.getP, k.p] using h.pKept tid n hn hne
  kKept crew n hn hne := by simpa only [State.getK, k.k] using h.kKept crew n hn hne
  crews := h.crews.trans (.of_eq k.crews)
  qKept crew q hne := by simpa only [k.crews] using h.qKept crew q hne

/-! ### The destination of a form -/

theorem RegUse.fits_of_use {sp : OpSpec} {d : Reg} (h : ∀ u ∈ sp.use d, u.odd = false ∧ (u.file = some .k → u.num + u.n ≤ 64)) : DestFits sp d := by
  have hn := d.num.isLt
  refine ⟨fun hd hp => ?_, fun hd ht => ?_, fun hd hp => ?_⟩
  · obtain ⟨ho, -⟩ := h ⟨some d.file, d.num.toNat, 2⟩ (by simp [OpSpec.use, hp])
    simp [RegUse.odd, hd] at ho
    omega
  · obtain hp | hp := ht
    · obtain ⟨-, hk⟩ := h ⟨some d.file, d.num.toNat, 1⟩ (by simp [OpSpec.use, hp])
      have := hk (by rw [hd])
      dsimp only at this
      omega
    · obtain ⟨-, hk⟩ := h ⟨some d.file, d.num.toNat, 2⟩ (by simp [OpSpec.use, hp])
      have := hk (by rw [hd])
      dsimp only at this
      omega
  · obtain ⟨-, hk⟩ := h ⟨some d.file, d.num.toNat, 2⟩ (by simp [OpSpec.use, hp])
    have := hk (by rw [hd])
    dsimp only at this
    omega

/-- A destination whose registers an instruction may name fits. -/
theorem destFits_of_regsOk {i : Instr} {sp : OpSpec} {d : Reg} (h : i.regsOk = true) (hu : ∀ u ∈ sp.use d, u ∈ i.writes) : DestFits sp d := by
  refine RegUse.fits_of_use fun u hm => ?_
  simp only [Instr.regsOk, Bool.and_eq_true, List.all_eq_true] at h
  obtain ⟨h, -⟩ := h
  have hk := h u (List.mem_append_left _ (List.mem_append_right _ (hu u hm)))
  obtain ⟨⟨ho, hk⟩, -⟩ := hk
  refine ⟨by simpa using ho, fun hf => ?_⟩
  simpa [hf] using hk

end Sys2Proof.Claims
end

section
/-! SUPPORT. What finishing an instruction changes, and the statement about it, settled. -/

namespace Sys2Proof.Machine

/-- Noting the registers of an instruction changes what has been read and broken. -/
theorem Cohort.noteRegs_eq (k : Cohort) (i : Instr) (wrote : Bool) : ∃ rs br, k.noteRegs i wrote = { k with readSet := rs, broken := br } := by
  unfold Cohort.noteRegs
  split
  · exact ⟨_, _, rfl⟩
  · exact ⟨_, _, rfl⟩

theorem State.canIssue_nextIssue {s : State} {c : Cohort} (h : s.canIssue c = true) : c.nextIssue ≤ s.clock := by
  simp only [State.canIssue, Bool.and_eq_true, decide_eq_true_eq] at h
  obtain ⟨⟨⟨⟨⟨⟨⟨-, hn⟩, -⟩, -⟩, -⟩, -⟩, -⟩, -⟩ := h
  exact hn

end Sys2Proof.Machine

namespace Sys2Proof.Claims
open Machine

/-! ### The finished state -/

theorem finished_find_self {s u : State} {c k : Cohort} (i : Instr) (p : Pred) (stall : BitVec 4) (h : u.cohorts.find c.id = some k) :
    ∃ rs br, (finished s u c i p stall).cohorts.find c.id = some
      { k with readSet := rs, broken := br, pc := k.pc + 1, nextIssue := u.clock + max stall.toNat 1, st := .ready } := by
  obtain ⟨rs, br, e⟩ := k.noteRegs_eq i (!(s.execLanes c p).isEmpty)
  refine ⟨rs, br, ?_⟩
  simp only [finished, State.advance, State.modCohort_cohorts, Map.find_modify_self, h, Option.map_some, e]
  rfl

theorem finished_find_ne (s u : State) {c : Cohort} (i : Instr) (p : Pred) (stall : BitVec 4) {n : Nat} (h : n ≠ c.id) :
    (finished s u c i p stall).cohorts.find n = u.cohorts.find n := by
  simp only [finished, State.advance, State.modCohort_cohorts]
  rw [Map.find_modify_ne _ _ h, Map.find_modify_ne _ _ h]

theorem finished_only_cohorts (s u : State) (c : Cohort) (i : Instr) (p : Pred) (stall : BitVec 4) :
    ∃ l, finished s u c i p stall = { u with cohorts := l } := ⟨_, rfl⟩

theorem finished_regsKept (s u : State) (c : Cohort) (i : Instr) (p : Pred) (stall : BitVec 4) :
    RegsKept u (finished s u c i p stall) := ⟨rfl, rfl, rfl, rfl⟩

theorem finished_restKept (s u : State) (c : Cohort) (i : Instr) (p : Pred) (stall : BitVec 4) :
    RestKept u (finished s u c i p stall) := .of_eq rfl rfl rfl rfl rfl rfl rfl rfl rfl rfl rfl rfl rfl rfl rfl

/-- An effect that changes only what the cohort's results wait for leaves the cohort advanced. -/
theorem finished_advanced {s u : State} {c : Cohort} (hc : s.cohorts.find c.id = some c) (hp : PendOnly s u c.id) (hk : u.clock = s.clock)
    (r : State) (i : Instr) (p : Pred) (stall : BitVec 4) : Advanced s (finished r u c i p stall) c stall := by
  refine ⟨?_, fun n hn => (finished_find_ne r u i p stall hn).trans (hp.others n hn)⟩
  have hself := hp.self
  rw [hc, Option.map_some] at hself
  obtain ⟨k, hu, e⟩ := Option.map_eq_some_iff.1 hself
  have same {α : Type} (f : Cohort → α) := congrArg f e
  obtain ⟨rs, br, hf⟩ := finished_find_self (s := r) i p stall hu
  refine ⟨_, hf, ?_, by rw [hk], rfl, ?_, ?_, ?_, ?_⟩
  · exact same (·.pc + 1)
  · exact same Cohort.lanes
  · exact same Cohort.hdr
  · exact same Cohort.irr
  · exact same Cohort.crew

/-- Settles O18: the finished state changes the cohort's registers read, its pc, its next issue and its state, and `canIssue` compares the next
issue with the clock. -/
theorem finishedCohortGoesOn : Obligations.FinishedCohortGoesOn := by
  refine ⟨fun s u c k i p stall h => ⟨?_, fun n => finished_find_ne s u i p stall, finished_only_cohorts ..⟩,
    fun s c => State.canIssue_nextIssue⟩
  obtain ⟨rs, br, hf⟩ := finished_find_self (s := s) i p stall h
  exact ⟨_, hf, rfl, rfl, rfl, rfl, rfl, rfl, rfl, rfl, rfl⟩

end Sys2Proof.Claims
end

section
/-! SUPPORT. The arithmetic instructions: what one of them leaves once its operands are read and its results written. -/

namespace Sys2Proof.Machine
open Sys2Proof.Claims

/-! ### The lanes of the operands -/

theorem State.readSrc_length (s : State) (keep : List Nat) (c : Cohort) (lanes : List Lane) (sp : OpSpec) (t : Ty) (z : Bool) (x : Src) :
    (s.readSrc keep c lanes sp t z x).1.length = lanes.length := by
  unfold State.readSrc
  dsimp only
  split
  · exact List.length_map _
  · exact List.length_map _
  · split
    · exact List.length_map _
    · split <;> exact List.length_map _
    · exact (List.length_map _).trans List.length_range

theorem State.readB_length (s : State) (keep : List Nat) (c : Cohort) (lanes : List Lane) (sp : OpSpec) (t : Ty) (z : Bool) (b : SrcB) :
    (s.readB keep c lanes sp t z b).1.length = lanes.length := by
  unfold State.readB
  split
  · exact State.readSrc_length ..
  · exact List.length_map _

/-- Operands are read in every executing lane, in lane order. -/
theorem State.operands_lanes (s : State) (c : Cohort) (o : AluOp) (x : Alu) (lanes : List Lane) :
    (s.operands c o x lanes).1.map ExLane.lane = lanes := by
  simp only [State.operands, List.map_map]
  refine List.map_fst_zip ?_
  simp only [List.length_zip, State.readSrc_length, State.readB_length]
  omega

/-- A value of each executing lane beside its lane. -/
theorem zip_map_of_lanes {α : Type} {lanes : List Lane} {ex : List ExLane} (h : ex.map ExLane.lane = lanes) (f : ExLane → α) :
    lanes.zip (ex.map f) = ex.map fun e => (e.lane, f e) := by
  subst h
  exact List.zip_map' ..

/-! ### Disturbances (R171) -/

theorem filterMap_eq_self {α : Type} {f : α → Option α} {l : List α} (h : ∀ a ∈ l, f a = some a) : l.filterMap f = l := by
  rw [List.filterMap_congr h, List.filterMap_some]

theorem State.strike_of_calm {s : State} {core : Nat} (h : ∀ d ∈ s.pkg.disturb, d.core ≠ core) (lane res : Nat) :
    s.strike core lane res = (res, s) := by
  have hsees : ∀ d ∈ s.pkg.disturb, (d.core == core && d.lane.all (· == lane)) = false := fun d hd => by simp [h d hd]
  unfold State.strike
  dsimp only
  rw [List.filter_eq_nil_iff.2 fun d hd => by simp [hsees d hd]]
  refine Prod.ext rfl ?_
  simp only [State.modPkg]
  rw [filterMap_eq_self fun d hd => by rw [if_neg (by simp [hsees d hd])]]

theorem State.strikeParts_of_calm {s : State} {core : Nat} (h : ∀ d ∈ s.pkg.disturb, d.core ≠ core) (lane : Nat) (ps : List Part) :
    s.strikeParts core lane ps = ((ps, false), s) := by
  induction ps with
  | nil => rfl
  | cons p ps ih => simp [State.strikeParts, State.strike_of_calm h, ih]

theorem State.strikeLanes_of_calm {s : State} {core : Nat} (h : ∀ d ∈ s.pkg.disturb, d.core ≠ core) (all : List (Lane × List Part)) :
    s.strikeLanes core all = (all.map fun a => (a.1, a.2, false), s) := by
  induction all with
  | nil => rfl
  | cons a all ih => simp [State.strikeLanes, State.strikeParts_of_calm h, ih]

/-- With no disturbance of a core to come, its checked results are what they are. -/
theorem State.checkLanes_of_calm {s : State} {core : Nat} (h : ∀ d ∈ s.pkg.disturb, d.core ≠ core) (ha : s.armedFp core = [])
    (all : List (Lane × List Part)) : s.checkLanes core all = (all.map fun a => (a.1, a.2, false), s) := by
  unfold State.checkLanes
  rw [State.strikeLanes_of_calm h]
  simp only [ha]

theorem State.armedFp_of_ctxs {s t : State} (h : t.ctxs = s.ctxs) (core : Nat) : t.armedFp core = s.armedFp core := by
  simp only [State.armedFp, h]

end Sys2Proof.Machine

namespace Sys2Proof.Claims
open Machine

theorem alu?_instr (o : AluOp) (x : Alu) : (o.instr x).alu? = some (o, x) := by cases o <;> rfl

theorem use_mem_writes {o : AluOp} {x : Alu} {u : RegUse} (h : u ∈ (o.shape x.sub.toNat x.ty).d.use x.d) : u ∈ (o.instr x).writes := by
  simp only [Instr.writes, alu?_instr, Alu.writes]
  exact List.mem_append_left _ h

/-- A destination fits that an arithmetic instruction names. -/
theorem destFits_of_alu {o : AluOp} {x : Alu} (h : (o.instr x).regsOk = true) : DestFits (o.shape x.sub.toNat x.ty).d x.d :=
  destFits_of_regsOk h fun _ => use_mem_writes

theorem readOperands_read (s : State) (c : Cohort) (o : AluOp) (x : Alu) : OperandsRead (begun s) (readOperands s c o x).2 :=
  State.operands_read ..

theorem readOperands_lanes (s : State) (c : Cohort) (o : AluOp) (x : Alu) :
    (readOperands s c o x).1.map ExLane.lane = s.execLanes c x.pred := State.operands_lanes ..

theorem begun_restKept (s : State) : RestKept s (begun s) := .of_eq rfl rfl rfl rfl rfl rfl rfl rfl rfl rfl rfl rfl rfl rfl rfl

theorem begun_only (s : State) (cid : Nat) : PendOnly s (begun s) cid := .of_eq rfl

theorem begun_crewsKept (s : State) : CrewsKept s (begun s) := .of_eq rfl

/-- What reading operands and then writing results leaves beside the registers. -/
theorem OperandsRead.put_kept {s t u : State} {cid : Nat} (h : OperandsRead (begun s) t) (k : PutKept t u cid) : PutKept s u cid :=
  ⟨((begun_only s cid).trans (.of_eq h.cohorts)).trans k.cohorts, ((begun_crewsKept s).trans h.crews).trans k.crews,
    ((begun_restKept s).trans h.rest).trans k.rest⟩

/-- An instruction that writes the values of a rule to its destination and is finished completes. -/
theorem arithmeticCompletes_of_exec {s : State} {c : Cohort} {o : AluOp} {x : Alu} {vals : List ExLane → List Nat} (hm : MayIssue s c o x)
    (he : exec (o.instr x) s = .next (finished s ((readOperands s c o x).2.writeDst c (o.shape x.sub.toNat x.ty).d x.d (aluLat o x)
      ((s.execLanes c x.pred).zip (vals (readOperands s c o x).1))) c (o.instr x) x.pred x.stall)) : ArithmeticCompletes s c o x vals := by
  obtain ⟨⟨-, hc⟩, -, -, hregs⟩ := hm
  have hread := readOperands_read s c o x
  have hkept := hread.put_kept ((readOperands s c o x).2.writeDst_kept c (o.shape x.sub.toNat x.ty).d x.d (aluLat o x)
    ((s.execLanes c x.pred).zip (vals (readOperands s c o x).1)))
  exact ⟨_, he, hread, (writeDst_written (destFits_of_alu hregs) ..).of_regsKept (finished_regsKept ..),
    hkept.rest.trans (finished_restKept ..), finished_advanced hc hkept.cohorts hkept.rest.clock ..⟩

/-- The predicate written beside a lane's result (R133). -/
def putBeside (cid n lat : Nat) (s : State) (r : Lane × Out) : State :=
  match r.2.p with
  | some b => s.putP cid r.1.tid n b lat
  | none => s

/-- Results without a predicate beside them write none. -/
theorem foldl_putBeside_none {s : State} {cid n lat : Nat} {res : List (Lane × Out)} (h : ∀ r ∈ res, r.2.p = none) :
    res.foldl (putBeside cid n lat) s = s :=
  foldl_keeps (g := id) (fun r hr s => by simp only [putBeside, h r hr]) s

/-- Results computed without a predicate beside them have none. -/
theorem p_of_map {α : Type} {g : α → Nat} {l : List α} : ∀ r ∈ l.map fun a => (⟨g a, none⟩ : Out), r.p = none := by
  intro r hr
  obtain ⟨a, -, rfl⟩ := List.mem_map.1 hr
  rfl

theorem d_of_map {α : Type} {g : α → Nat} {l : List α} : (l.map fun a => (⟨g a, none⟩ : Out)).map Out.d = l.map g := List.map_map ..

/-! ### The three ways to issue -/

theorem issueAlu_next {s : State} {c : Cohort} {o : AluOp} {x : Alu} (hm : MayIssue s c o x) (f : List ExLane → List Out) :
    (begun s).issueAlu c o x f = finished s (((s.execLanes c x.pred).zip (f (readOperands s c o x).1)).foldl
      (putBeside c.id x.sub.toNat (aluLat o x))
      ((readOperands s c o x).2.writeDst c (o.shape x.sub.toNat x.ty).d x.d (aluLat o x)
        ((s.execLanes c x.pred).zip ((f (readOperands s c o x).1).map Out.d)))) c (o.instr x) x.pred x.stall := by
  obtain ⟨-, hq, hp, -⟩ := hm
  have hq : (begun s).conduitsOk c o x = true := hq
  unfold State.issueAlu
  rw [if_neg (by simp [hq])]
  exact issue_passes hp ..

/-- An instruction whose lanes' results have no predicate beside them. -/
theorem arithmeticCompletes_of_issueAlu {s : State} {c : Cohort} {o : AluOp} {x : Alu} {f : Cohort → State → List ExLane → List Out}
    {vals : List ExLane → List Nat} (hm : MayIssue s c o x) (he : exec (o.instr x) s = onCohort s fun c s => s.issueAlu c o x (f c s))
    (hd : ∀ ex, (f c (begun s) ex).map Out.d = vals ex) (hp : ∀ ex, ∀ r ∈ f c (begun s) ex, r.p = none) :
    ArithmeticCompletes s c o x vals := by
  refine arithmeticCompletes_of_exec hm ?_
  rw [he, onCohort_next hm.1, issueAlu_next hm, foldl_putBeside_none fun r hr => hp _ _ (List.of_mem_zip hr).2, hd]

theorem arithmeticCompletes_of_issueLanes {s : State} {c : Cohort} {o : AluOp} {x : Alu} {f : ExLane → Nat} (hm : MayIssue s c o x)
    (he : exec (o.instr x) s = onCohort s fun c s => s.issueLanes c o x f) : ArithmeticCompletes s c o x fun ex => ex.map f := by
  exact arithmeticCompletes_of_issueAlu (f := fun _ _ ex => ex.map fun e => ⟨f e, none⟩) hm he (fun _ => d_of_map) fun _ => p_of_map

theorem arithmeticCompletes_of_issueChecked {s : State} {c : Cohort} {o : AluOp} {x : Alu} {parts : ExLane → List Part} (hm : MayIssue s c o x)
    (hc : ∀ d ∈ s.pkg.disturb, d.core ≠ c.core) (ha : s.armedFp c.core = [])
    (he : exec (o.instr x) s = onCohort s fun c s => s.issueChecked c o x parts) :
    ArithmeticCompletes s c o x fun ex => ex.map fun e => joinParts (parts e) := by
  refine arithmeticCompletes_of_exec hm ?_
  obtain ⟨hi, hq, hp, -⟩ := hm
  rw [he, onCohort_next hi]
  have hq : (begun s).conduitsOk c o x = true := hq
  unfold State.issueChecked
  rw [if_neg (by simp [hq])]
  refine congrArg Host.Outcome.next ((issue_passes hp ..).trans ?_)
  have hread := (readOperands_read s c o x).rest
  have hcheck := State.checkLanes_of_calm (s := (readOperands s c o x).2) (core := c.core) (by rw [hread.pkg]; exact hc)
    ((State.armedFp_of_ctxs hread.ctxs _).trans ha)
  rw [zip_map_of_lanes (readOperands_lanes s c o x)]
  unfold readOperands at hcheck ⊢
  simp only [hcheck]
  congr 1
  simp [Function.comp_def]

/-! ### The rules -/

theorem exec_of_integerRule {o : AluOp} {f : Alu → ExLane → Nat} (h : integerRule o = some f) (x : Alu) (s : State) :
    exec (o.instr x) s = onCohort s fun c s => s.issueLanes c o x (f x) := by
  cases o <;> cases h <;> rfl

theorem exec_of_floatRule {o : AluOp} {f : Alu → ExLane → Nat} (h : floatRule o = some f) (x : Alu) (s : State) :
    exec (o.instr x) s = onCohort s fun c s => s.issueLanes c o x (f x) := by
  cases o <;> cases h <;> rfl

theorem exec_of_checkedRule {o : AluOp} {f : Alu → ExLane → List Part} (h : checkedRule o = some f) (x : Alu) (s : State) :
    exec (o.instr x) s = onCohort s fun c s => s.issueChecked c o x (f x) := by
  cases o <;> cases h <;> rfl

theorem scanFrom_p {t : Ty} {sub : Nat} {ex : List ExLane} : ∀ {acc : Nat}, ∀ r ∈ scanFrom t sub acc ex, r.p = none := by
  induction ex with
  | nil => simp [scanFrom]
  | cons e ex ih =>
    intro acc r hr
    simp only [scanFrom, List.mem_cons] at hr
    obtain rfl | hr := hr
    · rfl
    · exact ih r hr

/-- What SHFL gives a lane (R148). -/
def shflOut (c : Cohort) (s : State) (x : Alu) (e : ExLane) : Out :=
  let src := shflSrc x.sub.toNat e.lane.pos e.b
  match if 0 ≤ src ∧ src ≤ 31 then c.lanes.find? fun r => (r.pos : Int) == src else none with
  | some r => ⟨s.laneVal c x.a.reg.num.toNat x.ty.is64 r, none⟩
  | none => ⟨if e.b.testBit 6 then e.a else 0, none⟩

theorem shflOut_p (c : Cohort) (s : State) (x : Alu) (e : ExLane) : (shflOut c s x e).p = none := by
  unfold shflOut
  dsimp only
  split <;> rfl

theorem execShfl_eq (x : Alu) (s : State) :
    execShfl x s = onCohort s fun c s => s.issueAlu c .shfl x fun ex => ex.map (shflOut c s x) := rfl

theorem exchangeRule_shfl {s : State} {c : Cohort} {f : Alu → List ExLane → List Nat} (h : exchangeRule s c .shfl = some f) (x : Alu)
    (ex : List ExLane) : f x ex = ex.map fun e => (shflOut c s x e).d := by
  cases h
  refine List.map_congr_left fun e _ => ?_
  unfold shflOut
  dsimp only
  split <;> next hr => simp [hr]

theorem execVote_eq (x : Alu) (s : State) :
    execVote x s = onCohort s fun c s => s.issueAlu c .vote x fun ex => ex.map fun _ => ⟨vote x.sub.toNat ex, none⟩ := rfl

theorem execMatchv_eq (x : Alu) (s : State) : execMatchv x s =
    onCohort s fun c s => s.issueAlu c .matchv x fun ex => ex.map fun e => ⟨laneMask (ex.filter fun f => f.a == e.a), none⟩ := rfl

theorem execCompact_eq (x : Alu) (s : State) : execCompact x s = onCohort s fun c s => s.issueAlu c .compact x fun ex =>
    (List.range ex.length).map fun q => ⟨((ex.filter fun e => e.c == 1).map (·.a)).getD q 0, none⟩ := rfl

theorem execScan_eq (x : Alu) (s : State) : execScan x s =
    onCohort s fun c s => s.issueAlu c .scan x (scanFrom x.ty x.sub.toNat (exchId x.ty x.sub.toNat)) := rfl

theorem execRedux_eq (x : Alu) (s : State) : execRedux x s = onCohort s fun c s => s.issueAlu c .redux x fun ex =>
    ex.map fun _ => ⟨ex.foldl (fun acc e => exchOp x.ty x.sub.toNat acc e.a) (exchId x.ty x.sub.toNat), none⟩ := rfl

theorem integerInstructionsComplete : IntegerInstructionsComplete := fun _ _ h x s _ hm =>
  arithmeticCompletes_of_issueLanes hm (exec_of_integerRule h x s)

theorem uncheckedFloatInstructionsComplete : UncheckedFloatInstructionsComplete := fun _ _ h x s _ hm =>
  arithmeticCompletes_of_issueLanes hm (exec_of_floatRule h x s)

theorem checkedFloatInstructionsComplete : CheckedFloatInstructionsComplete := fun _ _ h x s _ hm hc ha =>
  arithmeticCompletes_of_issueChecked hm hc ha (exec_of_checkedRule h x s)

/-- Each exchange computes the values of its rule; none writes a predicate beside them. -/
theorem laneExchangesComplete : LaneExchangesComplete := by
  intro o s c f h x hm
  cases o
  case shfl =>
    refine arithmeticCompletes_of_issueAlu hm (execShfl_eq x s) (fun ex => ?_) fun ex r hr => ?_
    · rw [List.map_map, exchangeRule_shfl h]; rfl
    · obtain ⟨e, -, rfl⟩ := List.mem_map.1 hr
      exact shflOut_p ..
  case vote =>
    cases h
    exact arithmeticCompletes_of_issueAlu hm (execVote_eq x s) (fun _ => d_of_map) fun _ => p_of_map
  case matchv =>
    cases h
    exact arithmeticCompletes_of_issueAlu hm (execMatchv_eq x s) (fun _ => d_of_map) fun _ => p_of_map
  case compact =>
    cases h
    exact arithmeticCompletes_of_issueAlu hm (execCompact_eq x s) (fun _ => d_of_map) fun _ => p_of_map
  case scan =>
    cases h
    exact arithmeticCompletes_of_issueAlu hm (execScan_eq x s) (fun _ => rfl) fun _ => scanFrom_p
  case redux =>
    cases h
    exact arithmeticCompletes_of_issueAlu hm (execRedux_eq x s) (fun _ => d_of_map) fun _ => p_of_map
  all_goals cases h

/-- Settles O15: the operands are read by `State.operands_read`, the results written by `writeDst_written`, and the cohort advanced by
`finished_advanced`; what is left is that each instruction computes the values of its rule. -/
theorem arithmeticInstructionsComplete : Obligations.ArithmeticInstructionsComplete :=
  ⟨integerInstructionsComplete, uncheckedFloatInstructionsComplete, checkedFloatInstructionsComplete, laneExchangesComplete⟩

end Sys2Proof.Claims
end

section
/-! SUPPORT. IADDC and LOP3, and the statement about them, settled. -/

namespace Sys2Proof.Claims
open Machine

/-! ### IADDC (R133) -/

/-- The carries beside the sums are written as results of the predicate that sub names. -/
theorem foldl_putBeside_iaddc (u : State) (c : Cohort) (x : Alu) (lat : Nat) {lanes : List Lane} {ex : List ExLane}
    (h : ex.map ExLane.lane = lanes) : (lanes.zip (ex.map (iaddc x))).foldl (putBeside c.id x.sub.toNat lat) u =
      u.writeDst c .pred ⟨.v, x.sub.setWidth 8⟩ lat
        (lanes.zip (ex.map fun e => (decide (2 ^ widthOf x.ty ≤ e.a + e.b + e.p.toNat)).toNat)) := by
  have hsub : (x.sub.setWidth 8).toNat % 8 = x.sub.toNat := by
    have := x.sub.isLt
    simp only [BitVec.toNat_setWidth]
    omega
  rw [State.writeDst_pred rfl, zip_map_of_lanes h, zip_map_of_lanes h, List.foldl_map, List.foldl_map, hsub]
  refine congrArg (fun f => ex.foldl f u) (funext fun s => funext fun e => ?_)
  simp only [putBeside, iaddc, addCarry]
  congr 1
  by_cases hc : 2 ^ widthOf x.ty ≤ e.a + e.b + e.p.toNat <;> simp [hc]

theorem destFits_pred (n : BitVec 8) : DestFits .pred ⟨.v, n⟩ :=
  ⟨fun _ h => by simp [OpSpec.pred] at h, fun h => by simp at h, fun h => by simp at h⟩

theorem addWithCarryCompletes : AddWithCarryCompletes := by
  intro x s c hm r n lanes
  have hread := readOperands_read s c .iaddc x
  have hlanes := readOperands_lanes s c .iaddc x
  have he := onCohort_next hm.1 fun c s => s.issueAlu c .iaddc x fun ex => ex.map (iaddc x)
  rw [issueAlu_next hm, foldl_putBeside_iaddc _ _ _ _ hlanes, List.map_map] at he
  obtain ⟨⟨-, hc⟩, -, -, hregs⟩ := hm
  have hkept (sp sp' : OpSpec) (d d' : Reg) (lat : Nat) (v w : List (Lane × Nat)) :=
    hread.put_kept ((r.2.writeDst_kept c sp d lat v).trans (State.writeDst_kept _ c sp' d' lat w))
  exact ⟨_, _, he, hread, writeDst_written (destFits_of_alu (o := .iaddc) hregs) ..,
    (writeDst_written (destFits_pred _) ..).of_regsKept (finished_regsKept ..), (hkept ..).rest.trans (finished_restKept ..),
    finished_advanced hc (hkept ..).cohorts (hkept ..).rest.clock ..⟩

/-! ### LOP3 (R135) -/

theorem use_mem_writes_lop3 (x : Alu) (tt : BitVec 8) : ∀ u ∈ (OpSpec.dst false).use x.d, u ∈ (Instr.lop3 x tt).writes := fun _ h => h

theorem execLop3_next {s u₁ u₂ u₃ : State} {c : Cohort} {x : Alu} {tt : BitVec 8} {keep as bs cs : List Nat} (hi : Issues s c)
    (hp : Passes s c (.lop3 x tt) x.pred) (hq : ConduitsReady s c x.pred (lop3Pops x) (pushOf x.d false))
    (hk : keep = if (s.execLanes c x.pred).isEmpty then [] else (pushOf x.d false).map (·.1))
    (ha : (begun s).readSrc keep c (s.execLanes c x.pred) (.src false false) .u32 false x.a = (as, u₁))
    (hb : u₁.readB keep c (s.execLanes c x.pred) (.src false false) .u32 false x.b = (bs, u₂))
    (hc : u₂.readSrc keep c (s.execLanes c x.pred) (.src false false) .u32 false x.c = (cs, u₃)) :
    ∃ lat, exec (.lop3 x tt) s = .next (finished s (u₃.writeDst c (OpSpec.dst false) x.d lat
      (((s.execLanes c x.pred).zip (as.zip (bs.zip cs))).map fun e => (e.1, lop3 tt e.2.1 e.2.2.1 e.2.2.2))) c (.lop3 x tt) x.pred x.stall) := by
  subst hk
  have hd : onConduit x.d = pushOf x.d false := rfl
  rw [show exec (.lop3 x tt) s = execLop3 x tt s from rfl, execLop3, onCohort_next hi]
  dsimp only
  rw [if_neg, issue_passes hp]
  · simp only [hd, ha, hb, hc]
    exact ⟨_, rfl⟩
  · simp only [Bool.not_eq_true', Bool.not_eq_false, hd]
    split
    · rfl
    · next w hw => exact hq w hw

theorem truthTableInstructionCompletes : TruthTableInstructionCompletes := by
  intro x tt s c hi hp hregs hq sp lanes keep a b d
  have hread : OperandsRead (begun s) d.2 := ((State.readSrc_read ..).trans (State.readB_read ..)).trans (State.readSrc_read ..)
  have hkept (lat : Nat) (res : List (Lane × Nat)) := hread.put_kept (d.2.writeDst_kept c (OpSpec.dst false) x.d lat res)
  obtain ⟨lat, he⟩ := execLop3_next (tt := tt) hi hp hq (keep := keep) rfl (show _ = (a.1, a.2) from rfl) (show _ = (b.1, b.2) from rfl)
    (show _ = (d.1, d.2) from rfl)
  obtain ⟨-, hc⟩ := hi
  exact ⟨_, lat, he, hread, (writeDst_written (destFits_of_regsOk hregs (use_mem_writes_lop3 x tt)) ..).of_regsKept (finished_regsKept ..),
    (hkept ..).rest.trans (finished_restKept ..), finished_advanced hc (hkept ..).cohorts (hkept ..).rest.clock ..⟩

/-- Settles O16: the sums and the carries are two writes of results, one after the other; LOP3 is one. -/
theorem carryAndTruthTableComplete : Obligations.CarryAndTruthTableComplete := ⟨addWithCarryCompletes, truthTableInstructionCompletes⟩

end Sys2Proof.Claims
end

section
/-! SUPPORT. The statement about the value instructions, refuted. -/

namespace Sys2Proof.Claims
open Machine

/-- The fields of a CALLSV whose destination is crew register 70: the register check of a service looks at a pair of lane registers of that number, and
no crew register has it. -/
def strayFields : ImmI := ⟨⟨false, 7⟩, 0, .u64, ⟨.k, 70⟩, ⟨.v, 0⟩, 0⟩

/-- The placed cohort of one lane, of crew 1, as its turn has been taken. -/
def strayState : State := { State.reset.placeWord 0 with cur := some 3, agenda := [] }

theorem stray_issues : Issues strayState (placedCohort 0 0) ∧ Passes strayState (placedCohort 0 0) (.callsvUnknown strayFields) strayFields.pred ∧
    (Instr.callsvUnknown strayFields).regsOk = true := by decide +kernel

/-- Crew 1's register 70 lies where register 6 of crew 2 does. -/
def strayRegister (o : Host.Outcome State Fault Refusal) : Option Word :=
  match o with
  | .next t => some (t.getK 2 6)
  | _ => none

theorem stray_writes : strayRegister (exec (.callsvUnknown strayFields) strayState) = some 0xffffffff := by decide +kernel

theorem stray_before : (begun strayState).getK 2 6 = 0 := by decide +kernel

/-- Refutes O17: the register check of an answering service counts its destination as lane registers whatever its file, so one that names crew
register 70 may issue, and the answer is written in register 6 of the next crew, which had to keep its value. The instruction has fields that no
word has, which the statement does not exclude. -/
theorem not_valueInstructionsComplete : ¬Obligations.ValueInstructionsComplete := by
  intro ⟨_, h⟩
  obtain ⟨hi, hp, hr⟩ := stray_issues
  obtain ⟨t, he, hw, -⟩ := h strayState (placedCohort 0 0) (.callsvUnknown strayFields) hi hp hr nofun fun _ _ => rfl
  have hkept : t.getK 2 6 = (begun strayState).getK 2 6 := hw.kKept 2 6 (by decide) fun hd => absurd hd.1 (by decide)
  have hwrites := stray_writes
  rw [show exec (.callsvUnknown strayFields) strayState = .next t from he] at hwrites
  have hones : t.getK 2 6 = 0xffffffff := Option.some.inj hwrites
  rw [hkept, stray_before] at hones
  exact absurd hones (by decide)

end Sys2Proof.Claims
end

section
/-! SUPPORT. TRAP, BRK and ILLEGAL, and what a trace's own instructions do; the statements about them, settled. -/

namespace Sys2Proof.Machine

/-! ### Effects in the buffer (R103, R125) -/

theorem State.inBudget_of_room {s : State} {c : Cohort} {l : Lane} (h : l.buf.length < c.budget) (f : State → State) : s.inBudget c l f = f s := by
  unfold State.inBudget
  rw [if_neg]
  simp only [Bool.and_eq_true, decide_eq_true_eq, ge_iff_le, not_and, not_le]
  exact fun _ => h

theorem State.trapLane_irr {c : Cohort} (h : c.irr = true) (s : State) (cause : Cause) (code : Word) (l : Lane) :
    s.trapLane c cause code l = (s.dropLanes c.id [l.tid]).enterHandler l.tid c.snap.trapvec c.core
      ⟨cause, code, c.traceId, c.offset, c.pc + 1, some (c.here (c.pc + 1))⟩ 0 := if_pos h

theorem State.trapLane_revocable {c : Cohort} {l : Lane} (h : c.irr = false) (hl : l.buf.length < c.budget) (s : State) (cause : Cause) (code : Word) :
    s.trapLane c cause code l = s.buffer c l (.trap ⟨cause, code, c.offset, c.traceId⟩) := by
  unfold State.trapLane
  rw [if_neg (by simp [h]), State.inBudget_of_room hl]

/-! ### TRIGGER (R124) -/

theorem State.requestTrigger_of_untriggered {s : State} {c : Cohort} {w : Crew} (hw : s.crews.find c.crew = some w) (ht : w.triggered = false)
    (hd : w.decremented = false) : s.requestTrigger c =
      ((s.releaseFlush c.core .sys).modCrew c.crew fun k => { k with triggered := true }).urge (.hw (.joinDecrement c.crew)) := by
  unfold State.requestTrigger
  rw [if_neg (by simp [hw, ht, hd])]

end Sys2Proof.Machine

namespace Sys2Proof.Claims
open Machine

/-- An instruction that is issued as it stands, where its meaning begins. -/
theorem issue_next {s : State} {c : Cohort} {i : Instr} {p : Pred} {stall : BitVec 4} {f : Cohort → State → List Lane → State} (hi : Issues s c)
    (hp : Passes s c i p) : (onCohort s fun c s => s.issue c i p stall (f c)) =
      .next (finished s (f c (begun s) (s.execLanes c p)) c i p stall) :=
  (onCohort_next hi _).trans (congrArg Host.Outcome.next (issue_passes hp ..))

/-! ### TRAP, BRK and ILLEGAL -/

theorem exec_trap {s : State} {c : Cohort} {x : ImmI} {i : Instr} {cause : Cause} (hc : i = .trap x ∧ cause = .trap ∨ i = .brk x ∧ cause = .brk)
    (hi : Issues s c) (hp : Passes s c i x.pred) : exec i s =
      .next (finished s ((s.execLanes c x.pred).foldl (fun u l => u.trapLane c cause x.imm l) (begun s)) c i x.pred x.stall) := by
  obtain ⟨rfl, rfl⟩ | ⟨rfl, rfl⟩ := hc
  · exact issue_next (f := fun c s lanes => lanes.foldl (fun s l => s.trapLane c .trap x.imm l) s) hi hp
  · exact issue_next (f := fun c s lanes => lanes.foldl (fun s l => s.trapLane c .brk x.imm l) s) hi hp

theorem trapAndBreakComplete : TrapAndBreakComplete := by
  intro s c x i cause hc hi hp
  rw [exec_trap hc hi hp]
  refine ⟨fun h => ?_, fun h hl => ?_⟩
  · rw [List.foldl_ext _ _ _ fun u l _ => u.trapLane_irr h ..]
  · rw [List.foldl_ext _ _ _ fun u l hm => u.trapLane_revocable h (hl l hm) ..]
    rfl

theorem illegalInstructionRaisesIllop : IllegalInstructionRaisesIllop :=
  fun _ _ hi => onCohort_next hi fun c s => s.raiseAll c .illop 0

/-- Settles O22: TRAP and BRK are one lane's trap after another, which an irrevocable trace takes and a revocable one buffers. -/
theorem trapInstructionsComplete : Obligations.TrapInstructionsComplete := ⟨trapAndBreakComplete, illegalInstructionRaisesIllop⟩

/-! ### The instructions of a trace -/

theorem execTrc_next {s : State} {c : Cohort} (hi : Issues s c) (x : Trc) (ht : c.st = .trc) : exec (.trc x) s = .next ((begun s).setCohort { c with
    hdr := c.pc, pc := c.pc + 1, irr := x.irr, full := x.full, traceId := x.traceId, budget := x.budget.toNat, len := x.len.toNat,
    readSet := [], broken := [], nextIssue := s.clock + max x.stall.toNat 1,
    st := if x.irr = false ∧ x.budget ≠ 0 then .buffer else .ready }) := by
  rw [show exec (.trc x) s = execTrc x s from rfl, execTrc, onCohort_next hi, if_neg (not_not.2 ht)]
  have hst : (!x.irr && x.budget != 0) = true ↔ x.irr = false ∧ x.budget ≠ 0 := by simp
  simp only [hst]
  rfl

theorem execMatchKey_next {s : State} {c : Cohort} {x : Alu} (hm : MayIssue s c .matchKey x) : exec (.matchKey x) s =
    .next (finished s ((readOperands s c .matchKey x).1.foldl (fun u e => u.modLane c.id e.lane.tid fun l => { l with key := BitVec.ofNat 16 e.a })
      (readOperands s c .matchKey x).2) c (.matchKey x) x.pred x.stall) := by
  obtain ⟨hi, hq, hp, -⟩ := hm
  have hq : (begun s).conduitsOk c .matchKey x = true := hq
  rw [show exec (.matchKey x) s = execMatchKey x s from rfl, execMatchKey, onCohort_next hi, if_neg (by simp [hq]),
    issue_passes (i := .matchKey x) hp]
  rfl

theorem execYield_next {s : State} {c : Cohort} {x : Ctl} (hi : Issues s c) (hp : Passes s c (.yield x) x.pred) (hl : s.execLanes c x.pred ≠ []) :
    exec (.yield x) s = .next (finished s ((begun s).modCohort c.id fun k => { k with
      yieldFor := (s.cohorts.vals.filter fun o => o.id != c.id && o.core == c.core && o.port == c.port && s.canIssue o).map (·.id) })
      c (.yield x) x.pred x.stall) := by
  rw [show exec (.yield x) s = execYield x s from rfl, execYield, onCohort_next hi, issue_passes hp, if_neg (by simpa using hl)]
  rfl

theorem execQstat_next {s : State} {c : Cohort} {x : Alu} {w : Crew} {q : Conduit} (hi : Issues s c) (hp : Passes s c (.qstat x) x.pred)
    (hw : s.crews.find c.crew = some w) (hq : w.conduit x.a.reg.num.toNat = some q) : exec (.qstat x) s =
    .next (finished s ((begun s).writeDst c (OpSpec.lane false .vk) x.d 4 ((s.execLanes c x.pred).map fun l => (l, qstatWord q)))
      c (.qstat x) x.pred x.stall) := by
  rw [show exec (.qstat x) s = execQstat x s from rfl, execQstat, onCohort_next hi, issue_passes hp]
  have hv : ((((begun s).crews.find c.crew).bind (·.conduit x.a.reg.num.toNat)).map qstatWord).getD 0 = qstatWord q := by
    rw [show (begun s).crews = s.crews from rfl, hw, Option.bind_some, hq]
    rfl
  simp only [hv]
  rfl

theorem execTrigger_irr {s : State} {c : Cohort} {x : Ctl} {w : Crew} {low : Lane} {rest : List Lane} (hi : Issues s c) (hc : c.irr = true)
    (hl : s.execLanes c x.pred = low :: rest) (hp : Passes ((begun s).flushQuantum c.core) c (.trigger x) x.pred)
    (hlanes : ((begun s).flushQuantum c.core).execLanes c x.pred ≠ []) (hr : ((begun s).flushQuantum c.core).releaseWaits low.tid = false)
    (hw : ((begun s).flushQuantum c.core).crews.find c.crew = some w) (ht : w.triggered = false) (hd : w.decremented = false) :
    exec (.trigger x) s = .next (finished ((begun s).flushQuantum c.core) (((((begun s).flushQuantum c.core).releaseFlush c.core .sys).modCrew c.crew
      fun k => { k with triggered := true }).urge (.hw (.joinDecrement c.crew))) c (.trigger x) x.pred x.stall) := by
  have hlow : (begun s).execLanes c x.pred = low :: rest := hl
  rw [← State.requestTrigger_of_untriggered hw ht hd, show exec (.trigger x) s = execTrigger x s from rfl, execTrigger, onCohort_next hi]
  simp only [hlow, hc, List.take_succ_cons, List.take_zero, List.isEmpty_cons, Bool.not_false, Bool.and_self, if_true]
  rw [if_neg (by simp [State.lanesReleaseWait, hr]), issue_of_passes hp, if_neg (by simpa using hlanes)]

theorem execTrigger_revocable {s : State} {c : Cohort} {x : Ctl} (hi : Issues s c) (hp : Passes s c (.trigger x) x.pred) (hc : c.irr = false)
    (hl : ∀ l ∈ s.execLanes c x.pred, l.buf.length < c.budget) : exec (.trigger x) s =
    .next (finished s ((s.execLanes c x.pred).foldl (fun u l => u.buffer c l .trigger) (begun s)) c (.trigger x) x.pred x.stall) := by
  rw [show exec (.trigger x) s = execTrigger x s from rfl, execTrigger, onCohort_next hi]
  simp only [hc, Bool.false_and, Bool.false_eq_true, if_false]
  rw [issue_passes hp, List.foldl_ext _ _ _ fun u l hm => State.inBudget_of_room (hl l hm) _]

/-- Settles O19: each instruction by its own lemma. -/
theorem traceInstructionsComplete : Obligations.TraceInstructionsComplete := by
  intro s c hi
  refine ⟨fun x hp => issue_next (f := fun _ s _ => s) hi hp, execTrc_next hi, fun x hp => ?_, fun x => execMatchKey_next, fun x => execYield_next hi,
    fun x w q => execQstat_next hi, fun x w low rest hc hl => execTrigger_irr hi hc hl, fun x => execTrigger_revocable hi⟩
  exact issue_next (f := fun c s lanes => lanes.foldl (fun u l => u.modLane c.id l.tid fun l =>
    { l with skipTo := max l.skipTo (c.offset + x.n.toNat + 1) }) s) hi hp

end Sys2Proof.Claims
end

section
/-! SUPPORT. The tile instructions and the matrix queue, and the statement about them, settled. -/

namespace Sys2Proof.Claims
open Machine

/-- A tile instruction whose entries are ready and captured enters its operation in a queue with room. -/
theorem issueTile_queues {s u v : State} {c : Cohort} {i : Instr} {x : Mat} {full : Bool} {hs : List (BitVec 12)} {l : Lane} {rest : List Lane}
    {es : List (Nat × Nat)} (hfull : full = true → c.drawnFull = true) (hroom : (s.opsOf c.core).length < 32)
    (hl : u.execLanes c x.pred = l :: rest) (hp : Passes u c i x.pred) (hr : (begun s).entriesReady c hs = (true, u))
    (hc : u.captures c (l :: rest) hs = (some es, v)) (spec : State → TileSpec × State) : (begun s).issueTile c i x full hs spec =
      finished u (((spec v).2.enqueueTile c (c.lanes.headD l) (spec v).1 es).dropFetched c.id) c i x.pred x.stall := by
  have hroom : ¬((begun s).opsOf c.core).length ≥ 32 := not_le.2 hroom
  unfold State.issueTile
  rw [if_neg (by simpa using hfull), if_neg hroom]
  simp only [hr]
  rw [issue_of_passes hp]
  simp only [hl, hc]

theorem issueTile_fullcohort {s : State} {c : Cohort} (h : c.drawnFull = false) (i : Instr) (x : Mat) (hs : List (BitVec 12))
    (spec : State → TileSpec × State) : s.issueTile c i x true hs spec = s.raiseIn c c.lanes .fullcohort c.offset fun _ => 0 :=
  if_pos (by simp [h])

theorem tileInstructionsEnterTheQueue : TileInstructionsEnterTheQueue := by
  intro s u v c x l rest es hi hroom hl queues
  have enters {i : Instr} {full : Bool} {hs : List (BitVec 12)} {spec : Cohort → State → TileSpec × State} (hfull : full = true → c.drawnFull = true)
      (he : exec i s = onCohort s fun c s => s.issueTile c i x full hs (spec c)) : queues i hs (spec c v) := fun hp hr hc =>
    (he.trans (onCohort_next hi _)).trans (congrArg Host.Outcome.next (issueTile_queues hfull hroom hl hp hr hc (spec c)))
  exact ⟨fun h => enters (full := true) (spec := fun c s => s.mmaSpec c x false) (fun _ => h) rfl,
    fun h => enters (full := true) (spec := fun c s => s.mmaSpec c x true) (fun _ => h) rfl,
    enters (full := false) (spec := fun _ s => (⟨.zero, x.tile.toNat, false, 0, 0, 0, 0⟩, s)) nofun rfl,
    enters (full := false) (spec := fun c s => s.moveSpec c x (.load x.ta)) nofun rfl,
    enters (full := false) (spec := fun c s => s.moveSpec c x (.store x.ta x.sat)) nofun rfl⟩

theorem matrixProductsNeedFullCohorts : MatrixProductsNeedFullCohorts := by
  rintro s c x i (rfl | rfl) hi hfull
  · exact (onCohort_next hi fun c s => s.issueTile c (.mma x) x true [x.hA, x.hB] fun s => s.mmaSpec c x false).trans
      (congrArg Host.Outcome.next (issueTile_fullcohort hfull ..))
  · exact (onCohort_next hi fun c s => s.issueTile c (.mmasp x) x true [x.hA, x.hB] fun s => s.mmaSpec c x true).trans
      (congrArg Host.Outcome.next (issueTile_fullcohort hfull ..))

theorem queueEntryHoldsTheOperation : QueueEntryHoldsTheOperation := fun _ _ _ _ _ =>
  ⟨_, rfl, rfl, rfl, rfl, rfl, rfl, rfl, rfl, rfl, rfl, rfl, rfl, rfl, rfl, rfl⟩

/-- Settles O34: the five instructions are one issue with a queue entry of their own, which a product's cohort not drawn full does not reach. -/
theorem tileInstructionsQueue : Obligations.TileInstructionsQueue :=
  ⟨tileInstructionsEnterTheQueue, matrixProductsNeedFullCohorts, queueEntryHoldsTheOperation⟩

end Sys2Proof.Claims
end

section
/-! SUPPORT. The effective address, what an address out of its window or out of alignment raises, and the statement about them, settled. -/

namespace Sys2Proof.Machine

/-! ### The address (R219) -/

theorem offOf_eq_toInt (off : BitVec 24) : offOf off = off.toInt := by
  have hlt := off.isLt
  unfold offOf intOf
  simp only [BitVec.toInt_eq_toNat_cond, Bool.true_and, decide_eq_true_eq, Nat.mod_eq_of_lt hlt]
  split <;> split <;> omega

theorem SysRegs.win_eq (r : SysRegs) (w : BitVec 2) :
    r.win w = if w = 0 then r.win0 else if w = 1 then r.win1 else if w = 2 then r.win2 else r.win3 := by
  obtain rfl | rfl | rfl | rfl : w = 0 ∨ w = 1 ∨ w = 2 ∨ w = 3 := by revert w; decide
  all_goals rfl

/-! ### A lane without an address, and one with a misaligned address -/

section
variable {s : State} {c : Cohort} {x : Mem} {l : Lane}

theorem State.withEA_of_none (h : s.laneEA c x l = none) (n : Nat) (f : State → Nat → State) :
    s.withEA c x n l f = s.raiseIn c [l] .addrovf c.offset fun _ => 0 := by
  simp only [State.withEA, h]

theorem State.withEA_of_misaligned {va n : Nat} (h : s.laneEA c x l = some va) (hn : va % n ≠ 0) (f : State → Nat → State) :
    s.withEA c x n l f = s.raiseIn c [l] .misalign c.offset fun _ => va := by
  simp only [State.withEA, h]
  exact if_pos (by simpa using hn)

/-- A load finds nothing for a lane without an address. -/
theorem State.loadLanes_of_none (h : s.laneEA c x l = none) (first : Nat) :
    s.loadLanes c first x [l] = s.raiseIn c [l] .addrovf c.offset fun _ => 0 := by
  simp only [State.loadLanes, State.reachLanes, h, List.foldl_nil, List.foldl_cons]
  exact State.withEA_of_none h ..

theorem State.loadLanes_of_misaligned {va : Nat} (h : s.laneEA c x l = some va) (hn : va % widthBytes x.width ≠ 0) (first : Nat) :
    s.loadLanes c first x [l] = s.raiseIn c [l] .misalign c.offset fun _ => va := by
  have hb : (va % widthBytes x.width != 0) = true := by simpa using hn
  simp only [State.loadLanes, State.reachLanes, h, hb, if_true, List.foldl_nil, List.foldl_cons]
  exact State.withEA_of_misaligned h hn _

theorem State.kldLanes_of_none (h : s.laneEA c x l = none) (lanes : List Lane) :
    s.kldLanes c x l lanes = s.raiseIn c lanes .addrovf c.offset fun _ => 0 := by
  simp only [State.kldLanes, h]

theorem State.kldLanes_of_misaligned {va : Nat} (h : s.laneEA c x l = some va) (hn : va % widthBytes x.width ≠ 0) (lanes : List Lane) :
    s.kldLanes c x l lanes = s.raiseIn c lanes .misalign c.offset fun _ => va := by
  simp only [State.kldLanes, h]
  exact if_pos (by simpa using hn)

end

/-- A load that does not split leaves its lanes together. -/
theorem State.splitGroups_nil (s : State) : s.splitGroups [] = ([], s) := rfl

theorem mergeGroups_nil (free : Nat) : mergeGroups free [] = [] := by
  unfold mergeGroups
  split
  · rfl
  · next h => simp [Nat.pos_of_ne_zero h]

end Sys2Proof.Machine

namespace Sys2Proof.Claims
open Machine

theorem effectiveAddress : EffectiveAddress := by
  intro r w base off win low
  have hwin : r.win w = win := r.win_eq w
  unfold eaOf
  rw [offOf_eq_toInt, hwin]
  refine ⟨fun ⟨h0, h1⟩ => if_neg ?_, fun h => if_pos ?_⟩
  · rintro (h | h)
    · exact absurd h (not_lt.2 h0)
    · exact absurd h1 (not_lt.2 h)
  · exact h

/-! ### Where one lane acts -/

section
variable {s : State} {c : Cohort} {x : Mem} {l : Lane} {n : Nat} {acc : Acc} (hl : s.execLanes c x.pred = [l])
  (hb : (flushed s c x n acc [l]).execLanes c x.pred = [l])
include hl hb

/-- A store or atomic of one lane that does not release and waits for nothing. -/
theorem issueMem_of_one {i : Instr} {f : State → Lane → State} (hr : releases x.order = false)
    (hw : (flushed s c x n acc [l]).laneWaits c x n acc l = false) (hp : Passes (flushed s c x n acc [l]) c i x.pred) :
    (begun s).issueMem c i x n acc f = finished (flushed s c x n acc [l]) (f (flushed s c x n acc [l]) l) c i x.pred x.stall := by
  have hl : (begun s).execLanes c x.pred = [l] := hl
  unfold State.issueMem
  simp only [hl, hr, Bool.and_false, Bool.false_and, Bool.false_eq_true, if_false]
  rw [if_neg (by simpa [flushed] using hw)]
  refine (issue_of_passes hp ..).trans ?_
  rw [hb]
  rfl

end

section
variable {s : State} {c : Cohort} {x : Mem} {l : Lane} (hi : Issues s c) (hl : s.execLanes c x.pred = [l])
  (hb : (flushed s c x (widthBytes x.width) .read [l]).execLanes c x.pred = [l])
include hi hl hb

theorem execLd_of_one (hr : releases x.order = false) (hs : x.split = false)
    (hw : (flushed s c x (widthBytes x.width) .read [l]).laneWaits c x (widthBytes x.width) .read l = false)
    (hp : Passes (flushed s c x (widthBytes x.width) .read [l]) c (.ld x) x.pred) : ∃ first, exec (.ld x) s =
      .next (finished (flushed s c x (widthBytes x.width) .read [l])
        ((flushed s c x (widthBytes x.width) .read [l]).loadLanes c first x [l]) c (.ld x) x.pred x.stall) := by
  have hl : (begun s).execLanes c x.pred = [l] := hl
  have hsc : (x.order == .sc) = false := by
    cases ho : x.order <;> simp_all [releases]
  rw [show exec (.ld x) s = execLd x s from rfl, execLd, onCohort_next hi]
  simp only [hl, hs, hsc, Bool.false_and, Bool.false_eq_true, if_false, State.splitGroups_nil, mergeGroups_nil, List.reverse_nil, List.foldl_nil]
  rw [if_neg (by simpa [flushed] using hw)]
  refine ⟨(flushed s c x (widthBytes x.width) .read [l]).nextId, congrArg Host.Outcome.next ((issue_of_passes hp ..).trans ?_)⟩
  rw [hb]
  rfl

theorem execKld_of_one (hw : (flushed s c x (widthBytes x.width) .read [l]).laneWaitsAt (icAgent c.core) c x (widthBytes x.width) .read l = false)
    (hp : Passes (flushed s c x (widthBytes x.width) .read [l]) c (.kld x) x.pred) : exec (.kld x) s =
      .next (finished (flushed s c x (widthBytes x.width) .read [l])
        ((flushed s c x (widthBytes x.width) .read [l]).kldLanes c x l [l]) c (.kld x) x.pred x.stall) := by
  have hl : (begun s).execLanes c x.pred = [l] := hl
  rw [show exec (.kld x) s = execKld x s from rfl, execKld, onCohort_next hi]
  simp only [hl, List.any_nil, Bool.or_false]
  rw [if_neg (by simpa [flushed] using hw)]
  refine congrArg Host.Outcome.next ((issue_of_passes hp ..).trans ?_)
  rw [hb]

end

/-- What a lane's access leaves that has no address, or a misaligned one. -/
structure FaultsAt (b u : State) (c : Cohort) (x : Mem) (l : Lane) (n : Nat) : Prop where
  none : b.laneEA c x l = none → u = b.raiseIn c [l] .addrovf c.offset fun _ => 0
  misaligned : ∀ va, b.laneEA c x l = some va → va % n ≠ 0 → u = b.raiseIn c [l] .misalign c.offset fun _ => va

theorem FaultsAt.withEA (b : State) (c : Cohort) (x : Mem) (l : Lane) (n : Nat) (f : State → Nat → State) : FaultsAt b (b.withEA c x n l f) c x l n :=
  ⟨fun h => State.withEA_of_none h n f, fun _ h hn => State.withEA_of_misaligned h hn f⟩

theorem FaultsAt.loadLanes (b : State) (c : Cohort) (first : Nat) (x : Mem) (l : Lane) :
    FaultsAt b (b.loadLanes c first x [l]) c x l (widthBytes x.width) :=
  ⟨fun h => State.loadLanes_of_none h first, fun _ h hn => State.loadLanes_of_misaligned h hn first⟩

theorem FaultsAt.kldLanes (b : State) (c : Cohort) (x : Mem) (l : Lane) : FaultsAt b (b.kldLanes c x l [l]) c x l (widthBytes x.width) :=
  ⟨fun h => State.kldLanes_of_none h _, fun _ h hn => State.kldLanes_of_misaligned h hn _⟩

/-- A lane whose effects are performed at once, or has room in its budget, comes to its address. -/
theorem inBudget_of {c : Cohort} {l : Lane} (h : c.irr = true ∨ l.buf.length < c.budget) (s : State) (f : State → State) : s.inBudget c l f = f s := by
  obtain h | h := h
  · exact if_neg (by simp [h])
  · exact State.inBudget_of_room h f

theorem FaultsAt.storeLane {c : Cohort} {l : Lane} (h : c.irr = true ∨ l.buf.length < c.budget) (b : State) (x : Mem) :
    FaultsAt b (b.storeLane c x l) c x l (widthBytes x.width) := by
  unfold State.storeLane
  rw [inBudget_of h]
  exact FaultsAt.withEA ..

theorem FaultsAt.casLane {c : Cohort} {l : Lane} (h : c.irr = true ∨ l.buf.length < c.budget) (b : State) (x : Mem) :
    FaultsAt b (b.casLane c x l) c x l (widthBytes x.width) := by
  unfold State.casLane
  dsimp only
  rw [inBudget_of h]
  exact FaultsAt.withEA ..

theorem FaultsAt.atomLane {c : Cohort} {l : Lane} (h : c.irr = true ∨ l.buf.length < c.budget) (b : State) (x : Mem) (op : AtomOp) (cls : BitVec 2) :
    FaultsAt b (b.atomLane c x op cls l) c x l (atomSize x cls) := by
  unfold State.atomLane
  dsimp only
  rw [inBudget_of h]
  exact FaultsAt.withEA ..

/-- The two faults of an instruction whose one lane's access faults at its address. -/
theorem FaultsAt.exec {s b u : State} {c : Cohort} {x : Mem} {l : Lane} {n : Nat} {i : Instr} (h : FaultsAt b u c x l n)
    (he : exec i s = .next (finished b u c i x.pred x.stall)) :
    (b.laneEA c x l = .none → Machine.exec i s = .next (finished b (b.raiseIn c [l] .addrovf c.offset fun _ => 0) c i x.pred x.stall)) ∧
    ∀ va, b.laneEA c x l = some va → va % n ≠ 0 →
      Machine.exec i s = .next (finished b (b.raiseIn c [l] .misalign c.offset fun _ => va) c i x.pred x.stall) :=
  ⟨fun ha => h.none ha ▸ he, fun va ha hn => h.misaligned va ha hn ▸ he⟩

theorem badAddressesTrap : BadAddressesTrap := by
  intro s c x l hi hl hr raises
  refine ⟨fun hs hb hw hp => ?_, fun hb hw hp => ?_, fun hroom => ⟨fun hb hw hp => ?_, fun hb hw hp => ?_, fun op cls ha hb hw hp => ?_⟩⟩
  · obtain ⟨first, he⟩ := execLd_of_one hi hl hb hr hs hw hp
    exact (FaultsAt.loadLanes ..).exec he
  · exact (FaultsAt.kldLanes ..).exec (execKld_of_one hi hl hb hw hp)
  · exact (FaultsAt.storeLane hroom ..).exec ((onCohort_next hi fun c s =>
      s.issueMem c (.st x) x (widthBytes x.width) .write fun s l => s.storeLane c x l).trans
      (congrArg Host.Outcome.next (issueMem_of_one hl hb hr hw hp)))
  · exact (FaultsAt.casLane hroom ..).exec ((onCohort_next hi fun c s =>
      s.issueMem c (.atomcas x) x (widthBytes x.width) .both fun s l => s.casLane c x l).trans
      (congrArg Host.Outcome.next (issueMem_of_one hl hb hr hw hp)))
  · refine (FaultsAt.atomLane hroom _ x op cls).exec ?_
    have hl' : (begun s).execLanes c x.pred = [l] := hl
    rw [show Machine.exec (.atom x op cls) s = execAtom x op cls s from rfl, execAtom, onCohort_next hi, if_neg (by simp [hl', ha])]
    simp only [beq_iff_eq]
    exact congrArg Host.Outcome.next (issueMem_of_one hl hb hr hw hp)

/-- Settles O24: the address by its definition; the five instructions each come to their one lane's address with nothing accessed before it. -/
theorem effectiveAddressAndItsFaults : Obligations.EffectiveAddressAndItsFaults := ⟨effectiveAddress, badAddressesTrap⟩

end Sys2Proof.Claims
end

section
/-! SUPPORT. The fields of an encoding of a binary format, and the statement about FinishFloat, settled. -/

namespace Sys2Proof.Machine

theorem Fmt.enc_eq (F : Fmt) (s : Bool) (ex fr : Nat) : F.enc s ex fr = (s.toNat * 2 ^ F.eb + ex) * 2 ^ F.m + fr := by
  unfold Fmt.enc
  ring

theorem Fmt.expo_enc (F : Fmt) (s : Bool) {ex fr : Nat} (hex : ex < 2 ^ F.eb) (hfr : fr < 2 ^ F.m) : F.expo (F.enc s ex fr) = ex := by
  have hdiv : F.enc s ex fr / 2 ^ F.m = s.toNat * 2 ^ F.eb + ex := by
    rw [F.enc_eq, add_comm, Nat.add_mul_div_right _ _ (Nat.two_pow_pos _), Nat.div_eq_of_lt hfr, zero_add]
  rw [Fmt.expo, hdiv, Nat.mul_add_mod_self_right, Nat.mod_eq_of_lt hex]

theorem Fmt.frac_enc (F : Fmt) (s : Bool) (ex : Nat) {fr : Nat} (hfr : fr < 2 ^ F.m) : F.frac (F.enc s ex fr) = fr := by
  rw [Fmt.frac, F.enc_eq, Nat.mul_add_mod_self_right, Nat.mod_eq_of_lt hfr]

end Sys2Proof.Machine

namespace Sys2Proof.Claims
open Machine

theorem fields_pos_of_mem_formats {F : Fmt} (hF : F ∈ formats) : 0 < F.m ∧ 0 < F.eb := by
  revert F
  decide

theorem isNaN_canonNaN {F : Fmt} (hF : F ∈ formats) : F.isNaN F.canonNaN = true := by
  obtain ⟨hm, -⟩ := fields_pos_of_mem_formats hF
  have hex : F.allOnes < 2 ^ F.eb := Nat.sub_lt (Nat.two_pow_pos _) one_pos
  have hfr : 2 ^ (F.m - 1) < 2 ^ F.m := Nat.pow_lt_pow_right one_lt_two (Nat.sub_lt hm one_pos)
  simp [Fmt.isNaN, Fmt.canonNaN, F.expo_enc false hex hfr, F.frac_enc false _ hfr]

theorem isInf_maxOf {F : Fmt} (hF : F ∈ formats) (s : Bool) : F.isInf (F.maxOf s) = false := by
  obtain ⟨-, heb⟩ := fields_pos_of_mem_formats hF
  have hones : 0 < F.allOnes := Nat.sub_pos_of_lt (Nat.one_lt_two_pow heb.ne')
  have hex : F.allOnes - 1 < 2 ^ F.eb := by unfold Fmt.allOnes at *; omega
  have hne : F.allOnes - 1 ≠ F.allOnes := by omega
  simp [Fmt.isInf, Fmt.maxOf, F.expo_enc s hex (Nat.sub_lt (Nat.two_pow_pos _) one_pos), hne]

/-- Settles O9: of FinishFloat's two branches one is Round, whose NaN is the canonical one, and the other a largest finite value. -/
theorem saturationReplacesInfinities : Obligations.SaturationReplacesInfinities := by
  intro F hF x mode ftz sat
  have hnan : F.isInf F.canonNaN = false := by
    have h := isNaN_canonNaN hF
    simp only [Fmt.isNaN, Fmt.isInf, Bool.and_eq_true, bne_iff_ne] at h ⊢
    simp [h.2]
  refine ⟨by simp [Fmt.finish], ?_, by simp [Fmt.finish, Fmt.round, hnan], isNaN_canonNaN hF⟩
  cases h : F.isInf (F.round x mode ftz)
  · simp [Fmt.finish, h]
  · simp [Fmt.finish, h, isInf_maxOf hF]

end Sys2Proof.Claims
end

section
/-! SUPPORT. The elements of an integer result (R57, R131), and the statement about them, settled. -/

namespace Sys2Proof.Machine

theorem intOf_mod_two_pow (v w : Nat) (sg : Bool) : intOf (v % 2 ^ w) w sg = intOf v w sg := by
  simp only [intOf, Nat.mod_mod]

theorem wrapInt_lt (t : Int) (w : Nat) : wrapInt t w < 2 ^ w := by
  have := Int.emod_lt_of_pos t (b := (2 ^ w : Nat)) (by exact_mod_cast Nat.two_pow_pos w)
  have := Int.emod_nonneg t (b := (2 ^ w : Nat)) (by exact_mod_cast (Nat.two_pow_pos w).ne')
  unfold wrapInt
  omega

theorem wrapInt_cast (t : Int) (w : Nat) : (wrapInt t w : Int) = t % 2 ^ w := by
  unfold wrapInt
  rw [Int.toNat_of_nonneg (Int.emod_nonneg _ (by positivity))]
  norm_cast

/-- Reading a number's bits gives the number back where it is in the range of signed ones. -/
theorem intOf_wrapInt_of_signed {t : Int} {w : Nat} (hw : 0 < w) (hlo : -2 ^ (w - 1) ≤ t) (hhi : t < 2 ^ (w - 1)) :
    intOf (wrapInt t w) w true = t := by
  obtain ⟨n, rfl⟩ : ∃ n, w = n + 1 := ⟨w - 1, by omega⟩
  rw [Nat.add_sub_cancel] at hlo hhi
  have hpow : (2 : Int) ^ (n + 1) = 2 * 2 ^ n := by ring
  have hbits : (wrapInt t (n + 1) : Int) = if t < 0 then t + 2 ^ (n + 1) else t := by
    rw [wrapInt_cast]
    split
    · rw [← Int.add_emod_right, Int.emod_eq_of_lt (by omega) (by omega)]
    · exact Int.emod_eq_of_lt (by omega) (by omega)
  have hge : wrapInt t (n + 1) ≥ 2 ^ n ↔ t < 0 := by
    rw [ge_iff_le, ← Nat.cast_le (α := Int), hbits]
    push_cast
    split <;> omega
  simp only [intOf, Nat.mod_eq_of_lt (wrapInt_lt ..), Nat.add_sub_cancel, hge, hbits, Bool.true_and, decide_eq_true_eq]
  split <;> omega

theorem intBits_lt (t : Int) (w : Nat) (sg sat : Bool) : intBits t w sg sat < 2 ^ w := by
  unfold intBits
  split <;> exact wrapInt_lt ..

/-- Each element of a result is the function of the operands' elements in its place. -/
theorem mapElems_replicate_elem {w : Nat} (f : Nat → Nat → Nat → Nat → Nat) {k i : Nat} (hi : i < k) (a b c : Nat) :
    mapElems (List.replicate k w) f a b c / 2 ^ (w * i) % 2 ^ w =
      f w (a / 2 ^ (w * i) % 2 ^ w) (b / 2 ^ (w * i) % 2 ^ w) (c / 2 ^ (w * i) % 2 ^ w) % 2 ^ w := by
  induction i generalizing k a b c with
  | zero =>
    obtain ⟨k, rfl⟩ : ∃ j, k = j + 1 := ⟨k - 1, by omega⟩
    simp [mapElems, List.replicate_succ]
  | succ i ih =>
    obtain ⟨k, rfl⟩ : ∃ j, k = j + 1 := ⟨k - 1, by omega⟩
    have hpow : 2 ^ (w * (i + 1)) = 2 ^ w * 2 ^ (w * i) := by rw [← pow_add]; ring_nf
    simp only [mapElems, List.replicate_succ, hpow, ← Nat.div_div_eq_div_mul]
    rw [Nat.add_mul_div_left _ _ (Nat.two_pow_pos w), Nat.div_eq_of_lt (Nat.mod_lt _ (Nat.two_pow_pos w)), zero_add,
      ih (by omega)]

theorem elemsOf_pos {ty : Ty} {w : Nat} (h : w ∈ elemsOf ty) : 0 < w := by
  cases ty <;> simp [elemsOf] at h <;> omega

end Sys2Proof.Machine

namespace Sys2Proof.Claims
open Machine

/-- Settles O12: an element of the result is the bits of the wrapped or clamped integer of its own elements, and reads as that. -/
theorem integerElementsWrapOrSaturate : Obligations.IntegerElementsWrapOrSaturate := by
  intro x f e k w i hty hi sg elem t r
  have hw : 0 < w := elemsOf_pos (hty ▸ List.mem_replicate.2 ⟨by omega, rfl⟩)
  have hr : r = intBits t w sg x.sat := by
    simp only [r, intMould, hty, mapElems_replicate_elem _ hi, intOf_mod_two_pow, Nat.mod_eq_of_lt (intBits_lt ..)]
    rfl
  rw [hr]
  have hp : (0 : Int) < 2 ^ (w - 1) := by positivity
  refine ⟨fun hs => ?_, fun hs hg => ?_, fun hs hg => ?_⟩
  · simp [intBits, hs, wrapInt_cast]
  · have hp : (0 : Int) < 2 ^ w := by positivity
    simp only [intBits, hs, hg, if_true, wrapInt_cast, Bool.false_eq_true, if_false]
    exact Int.emod_eq_of_lt (by unfold satU; omega) (by unfold satU; omega)
  · simp only [intBits, hs, hg, if_true]
    exact intOf_wrapInt_of_signed hw (by unfold satS; omega) (by unfold satS; omega)

end Sys2Proof.Claims
end

section
/-! SUPPORT. Rounding (R53): the significand on the grid of its exponent as a rational number, rounded as one, and the statement about
Round, settled. -/

namespace Sys2Proof.Claims
open Machine

theorem intLog_two_natCast_mul_zpow {m : Nat} (hm : m ≠ 0) (e : Int) : Int.log 2 ((m : ℚ) * 2 ^ e) = Nat.log2 m + e := by
  have hpos : (0 : ℚ) < m := by exact_mod_cast Nat.pos_of_ne_zero hm
  have hscaled : (0 : ℚ) < m * 2 ^ e := by positivity
  have hshift (k : Int) : (2 : ℚ) ^ (k + e) = 2 ^ k * 2 ^ e := zpow_add₀ two_ne_zero k e
  have hlog : (Nat.log2 m : Int) = Int.log 2 (m : ℚ) := by rw [Int.log_natCast, Nat.log2_eq_log_two]
  refine le_antisymm ?_ ?_
  · refine Int.lt_add_one_iff.1 ((Int.lt_zpow_iff_log_lt one_lt_two hscaled).1 ?_)
    rw [hlog, add_right_comm, Nat.cast_ofNat, hshift]
    exact mul_lt_mul_of_pos_right (by exact_mod_cast Int.lt_zpow_succ_log_self (R := ℚ) one_lt_two m) (by positivity)
  · refine (Int.zpow_le_iff_le_log one_lt_two hscaled).1 ?_
    rw [hlog, Nat.cast_ofNat, hshift]
    exact mul_le_mul_of_nonneg_right (by exact_mod_cast Int.zpow_log_le_self (R := ℚ) one_lt_two hpos) (by positivity)

/-- A magnitude in units of a grid, as its whole part, how the rest compares with one half, and whether there is a rest. -/
def SplitAs (q : ℚ) (w : Nat × Ordering × Bool) : Prop :=
  ∃ t : ℚ, 0 ≤ t ∧ t < 1 ∧ q = w.1 + t ∧ w.2.1 = cmp t (1 / 2) ∧ w.2.2 = decide (t ≠ 0)

theorem splitAs_onGrid_add (m d : Nat) (g : Int) : SplitAs ((m : ℚ) * 2 ^ d) (onGrid m (g + d) g false) := by
  refine ⟨0, le_rfl, one_pos, ?_, ?_, ?_⟩
  · simp [onGrid]
  · simp [onGrid, (cmp_eq_lt_iff ..).2]
  · simp [onGrid]

theorem splitAs_onGrid_sub (m : Nat) {d : Nat} (hd : 0 < d) (g : Int) : SplitAs ((m : ℚ) / 2 ^ d) (onGrid m (g - d) g false) := by
  have hlt : ¬g - d ≥ g := by omega
  have hD : (0 : ℚ) < 2 ^ d := by positivity
  have hhalf : (2 : ℚ) ^ d = 2 * (2 ^ (d - 1) : Nat) := by
    push_cast
    rw [← pow_succ', Nat.sub_add_cancel hd]
  refine ⟨(m % 2 ^ d : Nat) / 2 ^ d, by positivity, ?_, ?_, ?_, ?_⟩
  · rw [div_lt_one hD]
    exact_mod_cast Nat.mod_lt _ (Nat.two_pow_pos d)
  · have hsplit : (2 ^ d * (m / 2 ^ d : Nat) + (m % 2 ^ d : Nat) : ℚ) = m := by exact_mod_cast Nat.div_add_mod m (2 ^ d)
    simp only [onGrid, if_neg hlt, sub_sub_cancel, Int.toNat_natCast]
    field_simp
    linarith
  · have hless : ((m % 2 ^ d : Nat) : ℚ) / 2 ^ d < 1 / 2 ↔ m % 2 ^ d < 2 ^ (d - 1) := by
      rw [div_lt_iff₀ hD, hhalf, ← Nat.cast_lt (α := ℚ)]
      constructor <;> intro h <;> linarith
    have hsame : ((m % 2 ^ d : Nat) : ℚ) / 2 ^ d = 1 / 2 ↔ m % 2 ^ d = 2 ^ (d - 1) := by
      rw [div_eq_iff hD.ne', hhalf, ← Nat.cast_inj (R := ℚ)]
      constructor <;> intro h <;> linarith
    simp only [onGrid, if_neg hlt, sub_sub_cancel, Int.toNat_natCast, Bool.not_false, Bool.and_true, beq_iff_eq]
    split
    · next h => exact ((cmp_eq_lt_iff ..).2 (hless.2 h)).symm
    · next h =>
      split
      · next h' => exact ((cmp_eq_eq_iff ..).2 (hsame.2 h')).symm
      · next h' => exact ((cmp_eq_gt_iff ..).2 (lt_of_le_of_ne (not_lt.1 (mt hless.1 h)) (Ne.symm (mt hsame.1 h')))).symm
  · have hnone : ((m % 2 ^ d : Nat) : ℚ) / 2 ^ d = 0 ↔ m % 2 ^ d = 0 := by
      rw [div_eq_zero_iff, or_iff_left hD.ne', Nat.cast_eq_zero]
    simp only [onGrid, if_neg hlt, sub_sub_cancel, Int.toNat_natCast, Bool.or_false, ne_eq, hnone]
    exact Bool.eq_iff_iff.2 (by simp)

theorem splitAs_onGrid (m : Nat) (e g : Int) : SplitAs ((m : ℚ) * 2 ^ e / 2 ^ g) (onGrid m e g false) := by
  rw [mul_div_assoc, ← zpow_sub₀ two_ne_zero]
  by_cases hge : g ≤ e
  · obtain ⟨d, rfl⟩ := Int.le.dest hge
    simpa using splitAs_onGrid_add m d g
  · obtain ⟨d, hd, rfl⟩ : ∃ d : Nat, 0 < d ∧ e = g - d := ⟨(g - e).toNat, by omega, by omega⟩
    simpa [div_eq_mul_inv] using splitAs_onGrid_sub m hd g

/-- A split magnitude, rounded as the machine does, is the magnitude rounded as a rational number. -/
theorem SplitAs.roundWhole_eq {q : ℚ} {w : Nat × Ordering × Bool} (h : SplitAs q w) (s : Bool) (mode : Rnd) :
    (roundWhole s mode w.1 w.2.1 w.2.2 : Int) = rounded mode s q := by
  obtain ⟨t, h0, h1, rfl, hhalf, hany⟩ := h
  rw [hhalf, hany]
  have hfloor : ⌊(w.1 : ℚ) + t⌋ = w.1 := by
    rw [Int.floor_natCast_add, Int.floor_eq_zero_iff.2 ⟨h0, h1⟩, add_zero]
  have hceil : ⌈(w.1 : ℚ) + t⌉ = if t ≠ 0 then (w.1 : Int) + 1 else w.1 := by
    rw [Int.ceil_natCast_add]
    split
    · next h =>
      have : ⌈t⌉ = 1 := Int.ceil_eq_iff.2 ⟨by simpa using lt_of_le_of_ne h0 (Ne.symm h), by simpa using h1.le⟩
      rw [this]
    · next h => simp [not_not.1 h]
  cases mode with
  | rn =>
    have hrest : (w.1 : ℚ) + t - (w.1 : Int) = t := by push_cast; ring
    simp only [roundWhole, rounded, hfloor, hrest]
    rcases lt_trichotomy t (1 / 2) with h | h | h
    · simp only [(cmp_eq_lt_iff ..).2 h, h, true_or, if_true]
      rfl
    · have hparity : (w.1 : Int) % 2 = 0 ↔ ¬w.1 % 2 = 1 := by omega
      simp [h, hparity, apply_ite]
    · simp only [(cmp_eq_gt_iff ..).2 h, h.not_gt, h.ne', false_and, or_self, if_false]
      rfl
  | rz => simp [roundWhole, rounded, hfloor]
  | ru => cases s <;> simp [roundWhole, rounded, hfloor, hceil, apply_ite]
  | rd => cases s <;> simp [roundWhole, rounded, hfloor, hceil, apply_ite]

theorem round_fin (F : Fmt) (mode : Rnd) (ftz s : Bool) {m : Nat} (hm : m ≠ 0) {e x : Int} (hx : max ((Nat.log2 m : Int) + e) F.emin = x) :
    let n := rounded mode s ((m : ℚ) * 2 ^ e / 2 ^ (x - F.m))
    let y := if n = 2 ^ (F.m + 1) then x + 1 else x
    let k := if n = 2 ^ (F.m + 1) then 2 ^ F.m else n
    F.round (.fin s m e false) mode ftz =
      if n = 0 then F.zeroOf s
      else if (F.bias : Int) < y then F.overflow s mode
      else if k < 2 ^ F.m then (if ftz then F.zeroOf s else F.enc s 0 k.toNat)
      else F.enc s (y + F.bias).toNat (k - 2 ^ F.m).toNat := by
  intro n
  have hn : _ = n := (splitAs_onGrid m e (x - F.m)).roundWhole_eq s mode
  rw [← hn]
  simp only [Fmt.round, beq_iff_eq, hm, Bool.not_false, Bool.and_true, if_false, hx]
  generalize roundWhole s mode _ _ _ = q
  have hcarry : (q : Int) = 2 ^ (F.m + 1) ↔ q = 2 ^ (F.m + 1) := by norm_cast
  have hsub : (q : Int) < 2 ^ F.m ↔ q < 2 ^ F.m := by norm_cast
  have hfrac : ((q : Int) - 2 ^ F.m).toNat = q - 2 ^ F.m := by
    have : ((2 ^ F.m : Nat) : Int) = 2 ^ F.m := by norm_cast
    omega
  by_cases hq : q = 2 ^ (F.m + 1)
  · simp [hq]
  · simp [hcarry, hq, hsub, hfrac]

/-- Settles O8: the significand on the grid is a rational number's whole part and rest, rounded as that number. -/
theorem roundingFollowsTheRule : Obligations.RoundingFollowsTheRule := by
  intro F _ mode ftz
  refine ⟨rfl, fun s => ⟨rfl, fun _ => rfl, ?_, fun m e hm => ?_⟩⟩
  · cases mode <;> cases s <;> rfl
  · simpa only [intLog_two_natCast_mul_zpow hm] using round_fin F mode ftz s hm (e := e) rfl

end Sys2Proof.Claims
end

section
/-! SUPPORT. Exact products and sums (R54, R154), and the statement about them, settled. -/

namespace Sys2Proof.Claims
open Machine

/-! ### The common exponent of a sum -/

/-- Whether a value is a whole multiple of 2^g. -/
def LiesOn (g : Int) : XReal → Prop
  | .fin _ m e _ => m ≠ 0 → g ≤ e
  | _ => False

theorem minExp_le_start (l : List XReal) (start : Int) : minExp l start ≤ start := by
  induction l generalizing start with
  | nil => exact le_rfl
  | cons x l ih =>
    refine (ih _).trans ?_
    dsimp only
    split
    · split
      · exact le_rfl
      · exact min_le_left ..
    · exact le_rfl

theorem liesOn_minExp {l : List XReal} {x : XReal} (hx : x ∈ l) (he : exact x) (start : Int) : LiesOn (minExp l start) x := by
  induction l generalizing start with
  | nil => cases hx
  | cons y l ih =>
    rcases List.mem_cons.1 hx with rfl | hx
    · cases x with
      | fin s m e t =>
        refine fun hm => (minExp_le_start l _).trans ?_
        simp [hm]
      | _ => exact he.elim
    · exact ih hx _

theorem real_eq_wholeAt {g : Int} {x : XReal} (h : LiesOn g x) : real x = x.wholeAt g * 2 ^ g := by
  cases x with
  | fin s m e t =>
    rcases eq_or_ne m 0 with rfl | hm
    · simp [real, XReal.wholeAt]
    · obtain ⟨d, rfl⟩ := Int.le.dest (h hm)
      cases s <;> simp [real, XReal.wholeAt, zpow_add₀ (two_ne_zero (α := ℚ))] <;> ring
  | _ => exact h.elim

theorem sum_real_eq (l : List XReal) (g : Int) (h : ∀ x ∈ l, LiesOn g x) :
    (l.map real).sum = ((l.map (XReal.wholeAt g)).sum : Int) * 2 ^ g := by
  induction l with
  | nil => simp
  | cons x l ih =>
    rw [List.forall_mem_cons] at h
    rw [List.map_cons, List.sum_cons, real_eq_wholeAt h.1, ih h.2, List.map_cons, List.sum_cons]
    push_cast
    ring

theorem real_fin_of_int {t : Int} (g : Int) : real (.fin (t < 0) t.natAbs g false) = t * 2 ^ g := by
  rcases lt_or_ge t 0 with h | h
  · simp [real, h, Nat.cast_natAbs, abs_of_neg h]
  · simp [real, h.not_gt, Nat.cast_natAbs, abs_of_nonneg h]

theorem isZero_iff_real {x : XReal} (h : exact x) : x.isZero = true ↔ real x = 0 := by
  cases x with
  | fin s m e t =>
    obtain rfl : t = false := h
    cases s <;> simp [XReal.isZero, real, zpow_ne_zero]
  | _ => exact h.elim

/-! ### Exact sums -/

theorem exactSum_nan {l : List XReal} (h : .nan ∈ l ∨ (.inf false ∈ l ∧ .inf true ∈ l)) (mode : Rnd) : exactSum l mode = .nan := by
  unfold exactSum
  rw [if_pos (by simpa using h)]

theorem exactSum_inf {l : List XReal} {s : Bool} (hnan : .nan ∉ l) (hs : .inf s ∈ l) (hns : .inf (!s) ∉ l) (mode : Rnd) :
    exactSum l mode = .inf s := by
  cases s <;> simp [exactSum, hnan, hs, (by simpa using hns : XReal.inf _ ∉ l)]

/-- The sign of a zero sum. -/
def zeroSumSign (l : List XReal) (mode : Rnd) : Bool :=
  if l.all (·.isZero) && l.all (·.sgn) && !l.isEmpty then true
  else if l.all (·.isZero) && l.all (!·.sgn) then false
  else mode == .rd

theorem exactSum_of_exact {l : List XReal} (h : ∀ x ∈ l, exact x) (mode : Rnd) : exactSum l mode =
    let t := (l.map (XReal.wholeAt (minExp l 4096))).sum
    if t = 0 then .fin (zeroSumSign l mode) 0 0 false else .fin (t < 0) t.natAbs (minExp l 4096) false := by
  have hnan : .nan ∉ l := fun hx => h _ hx
  have hinf (s : Bool) : .inf s ∉ l := fun hx => h _ hx
  simp only [exactSum, zeroSumSign, List.contains_iff_mem, hnan, hinf, Bool.or_eq_true, Bool.and_eq_true, false_and, or_self, if_false, beq_iff_eq]
  split_ifs <;> rfl

theorem zeroSumSign_eq {l : List XReal} (h : ∀ x ∈ l, exact x) (hl : l ≠ []) (mode : Rnd) : zeroSumSign l mode =
    if ∃ s, ∀ x ∈ l, real x = 0 ∧ x.sgn = s then (l.headD .nan).sgn else mode == .rd := by
  obtain ⟨x, l, rfl⟩ := List.exists_cons_of_ne_nil hl
  have hzero (s : Bool) : (∀ y ∈ x :: l, real y = 0 ∧ y.sgn = s) ↔ (x :: l).all (·.isZero) = true ∧ (x :: l).all (·.sgn == s) = true := by
    rw [List.all_eq_true, List.all_eq_true, ← forall₂_and]
    exact forall₂_congr fun y hy => and_congr (isZero_iff_real (h y hy)).symm (beq_iff_eq).symm
  have hhead (s : Bool) : (x :: l).all (·.sgn == s) = true → x.sgn = s := fun hs => by simpa using List.all_eq_true.1 hs x List.mem_cons_self
  have htrue := hhead true
  have hfalse := hhead false
  simp only [hzero, zeroSumSign, Bool.exists_bool, beq_true, beq_false, List.isEmpty_cons, Bool.not_false, Bool.and_true, Bool.and_eq_true,
    List.headD_cons] at htrue hfalse ⊢
  split_ifs with hneg hany hpos hany hany
  · exact (htrue hneg.2).symm
  · exact absurd (.inr hneg) hany
  · exact (hfalse hpos.2).symm
  · exact absurd (.inl hpos) hany
  · exact (hany.elim hpos hneg).elim
  · rfl

theorem exactSum_of_exact_spec {l : List XReal} (h : ∀ x ∈ l, exact x) (mode : Rnd) :
    exact (exactSum l mode) ∧ real (exactSum l mode) = (l.map real).sum ∧
      ((l.map real).sum ≠ 0 → (exactSum l mode).sgn = decide ((l.map real).sum < 0)) ∧
      (l ≠ [] → (l.map real).sum = 0 → (exactSum l mode).sgn =
        if ∃ s, ∀ x ∈ l, real x = 0 ∧ x.sgn = s then (l.headD .nan).sgn else mode == .rd) := by
  have hpow : (0 : ℚ) < 2 ^ minExp l 4096 := by positivity
  rw [sum_real_eq l (minExp l 4096) fun x hx => liesOn_minExp hx (h x hx) _, exactSum_of_exact h]
  generalize (l.map (XReal.wholeAt (minExp l 4096))).sum = t
  by_cases ht : t = 0
  · refine ⟨?_, ?_, ?_, fun hl _ => ?_⟩
    · simp [ht, exact]
    · simp [ht, real]
    · simp [ht]
    · simp only [ht, if_true]
      exact zeroSumSign_eq h hl mode
  · refine ⟨?_, ?_, ?_, ?_⟩
    · simp [ht, exact]
    · simp only [ht, if_false, real_fin_of_int]
    · simp [ht, XReal.sgn, mul_neg_iff, hpow, hpow.not_gt]
    · simp [ht, hpow.ne']

/-- Settles O10: the products by their kinds; a sum of exact values on the grid of the smallest exponent among them. -/
theorem exactProductsAndSums : Obligations.ExactProductsAndSums := by
  refine ⟨fun s s' m m' e e' => ⟨?_, rfl, rfl, rfl, rfl, fun hm => ⟨?_, ?_⟩⟩, fun x => ⟨?_, ?_⟩, fun l mode =>
    ⟨fun h => exactSum_nan h mode, fun s h hs hns => exactSum_inf h hs hns mode, fun h => exactSum_of_exact_spec h mode⟩⟩
  · cases s <;> cases s' <;> simp [XReal.prod, real, zpow_add₀ (two_ne_zero (α := ℚ))] <;> ring
  · simp [XReal.prod, hm]
  · simp [XReal.prod, hm, bne_comm]
  · cases x <;> rfl
  · cases x <;> rfl

end Sys2Proof.Claims
end

section
/-! SUPPORT. Logarithmic numbers (R60 to R62): the search for the nearest code, and the statement about LogMul and L6Enc, settled. -/

namespace Sys2Proof.Machine

/-- How far the value of a code is from a magnitude. -/
def codeDist (v : Nat → Nat) (a k : Nat) : Nat := if a ≥ v k then a - v k else v k - a

/-- The nearer of the best code so far and a later one; a tie goes to the even one. -/
def nearerCode (v : Nat → Nat) (a b k : Nat) : Nat :=
  if codeDist v a k < codeDist v a b || (codeDist v a k == codeDist v a b && k % 2 == 0) then k else b

theorem codeDist_cast (v : Nat → Nat) (a k : Nat) : (codeDist v a k : ℚ) = |(a : ℚ) - v k| := by
  unfold codeDist
  split
  · next h =>
    rw [Nat.cast_sub h, abs_of_nonneg (sub_nonneg.2 (Nat.cast_le.2 h))]
  · next h =>
    have h := (not_le.1 h).le
    rw [Nat.cast_sub h, abs_sub_comm, abs_of_nonneg (sub_nonneg.2 (Nat.cast_le.2 h))]

/-- A code is nearest among the first n, and shares that only if it is even. -/
def NearestBelow (v : Nat → Nat) (a n b : Nat) : Prop :=
  ∀ j < n, codeDist v a b ≤ codeDist v a j ∧ (codeDist v a b = codeDist v a j → j ≠ b → b % 2 = 0)

/-- Two codes at one distance, with none nearer between them, are neighbours. -/
theorem eq_succ_of_codeDist_eq {v : Nat → Nat} (hv : StrictMono v) {a b n : Nat} (hb : b < n) (hnear : NearestBelow v a n b)
    (htie : codeDist v a n = codeDist v a b) : n = b + 1 := by
  by_contra hne
  have hlo : v b < v (b + 1) := hv (by omega)
  have hhi : v (b + 1) < v n := hv (by omega)
  have hmid := (hnear (b + 1) (by omega)).1
  unfold codeDist at htie hmid
  split_ifs at htie hmid <;> omega

theorem nearestBelow_nearerCode {v : Nat → Nat} (hv : StrictMono v) {a b n : Nat} (hb : b < n) (hnear : NearestBelow v a n b) :
    NearestBelow v a (n + 1) (nearerCode v a b n) := by
  intro j hj
  rcases lt_trichotomy (codeDist v a n) (codeDist v a b) with hlt | htie | hgt
  · rw [nearerCode, if_pos (by simp [hlt])]
    rcases Nat.lt_succ_iff_lt_or_eq.1 hj with hj | rfl
    · have := (hnear j hj).1
      exact ⟨by omega, fun h => by omega⟩
    · exact ⟨le_rfl, fun _ h => absurd rfl h⟩
  · have hn : n = b + 1 := eq_succ_of_codeDist_eq hv hb hnear htie
    by_cases heven : n % 2 = 0
    · rw [nearerCode, if_pos (by simp [htie, heven])]
      refine ⟨?_, fun _ _ => heven⟩
      rcases Nat.lt_succ_iff_lt_or_eq.1 hj with hj | rfl
      · exact htie.trans_le (hnear j hj).1
      · exact le_rfl
    · rw [nearerCode, if_neg (by simp [htie, heven])]
      refine ⟨?_, fun _ _ => by omega⟩
      rcases Nat.lt_succ_iff_lt_or_eq.1 hj with hj | rfl
      · exact (hnear j hj).1
      · exact htie.ge
  · rw [nearerCode, if_neg (by simp [hgt.not_gt, hgt.ne'])]
    rcases Nat.lt_succ_iff_lt_or_eq.1 hj with hj | rfl
    · exact hnear j hj
    · exact ⟨hgt.le, fun h => absurd h hgt.ne⟩

theorem foldl_nearerCode {v : Nat → Nat} (hv : StrictMono v) (a n : Nat) :
    (List.range (n + 1)).foldl (nearerCode v a) 0 < n + 1 ∧ NearestBelow v a (n + 1) ((List.range (n + 1)).foldl (nearerCode v a) 0) := by
  induction n with
  | zero =>
    have hzero : nearerCode v a 0 0 = 0 := by simp [nearerCode]
    refine ⟨by simp [hzero], fun j hj => ?_⟩
    obtain rfl : j = 0 := by omega
    simp [hzero]
  | succ n ih =>
    obtain ⟨hlt, hnear⟩ := ih
    rw [List.range_succ, List.foldl_append]
    refine ⟨?_, nearestBelow_nearerCode hv hlt hnear⟩
    simp only [List.foldl_cons, List.foldl_nil, nearerCode]
    split <;> omega

/-- The value of a code at scale 0, in units of 2^-14 (R60). -/
def codeUnits (k : Nat) : Nat := if k = 0 then 0 else lgT k * 2 ^ (k / 4)

theorem lgT_four_mul_add (q r : Nat) : lgT (4 * q + r) = lgT r := by
  unfold lgT
  rw [Nat.mul_add_mod]

theorem lgT_mul_lt_succ (k : Nat) : lgT k * 2 ^ (k / 4) < lgT (k + 1) * 2 ^ ((k + 1) / 4) := by
  obtain ⟨q, r, hr, rfl⟩ : ∃ q r, r < 4 ∧ k = 4 * q + r := ⟨k / 4, k % 4, Nat.mod_lt _ (by decide), (Nat.div_add_mod k 4).symm⟩
  have hpow : 0 < 2 ^ q := Nat.two_pow_pos q
  have hdiv : (4 * q + r) / 4 = q := by omega
  rw [hdiv, lgT_four_mul_add]
  rcases eq_or_ne r 3 with rfl | hr3
  · rw [show 4 * q + 3 + 1 = 4 * (q + 1) + 0 by ring, lgT_four_mul_add, Nat.add_zero, Nat.mul_div_cancel_left _ (by decide), pow_succ]
    change 1722 * 2 ^ q < 1024 * (2 ^ q * 2)
    omega
  · have hstep : lgT r < lgT (r + 1) := by
      have : r < 3 := by omega
      interval_cases r <;> decide
    rw [add_assoc, lgT_four_mul_add, show (4 * q + (r + 1)) / 4 = q by omega]
    exact Nat.mul_lt_mul_of_pos_right hstep hpow

theorem codeUnits_strictMono : StrictMono codeUnits := by
  refine strictMono_nat_of_lt_succ fun k => ?_
  rw [codeUnits, codeUnits, if_neg (Nat.succ_ne_zero k)]
  split
  · exact (Nat.zero_le _).trans_lt (lgT_mul_lt_succ k)
  · exact lgT_mul_lt_succ k

/-- The codes' values on the grid 2^g of the magnitude. -/
def codeGrid (scale g : Int) (k : Nat) : Nat := if k == 0 then 0 else lgT k * 2 ^ (scale - 14 - g + (k / 4 : Nat)).toNat

theorem codeGrid_eq {scale g : Int} (hg : g ≤ scale - 14) (k : Nat) : codeGrid scale g k = codeUnits k * 2 ^ (scale - 14 - g).toNat := by
  have hexp : (scale - 14 - g + (k / 4 : Nat)).toNat = k / 4 + (scale - 14 - g).toNat := by omega
  rw [codeGrid, codeUnits, hexp, pow_add]
  by_cases hk : k = 0 <;> simp [hk, mul_assoc]

theorem codeGrid_strictMono {scale g : Int} (hg : g ≤ scale - 14) : StrictMono (codeGrid scale g) := fun j k h => by
  rw [codeGrid_eq hg, codeGrid_eq hg]
  exact Nat.mul_lt_mul_of_pos_right (codeUnits_strictMono h) (Nat.two_pow_pos _)

/-- The code that L6Enc searches for. -/
def l6Code (m : Nat) (e scale : Int) : Nat :=
  (List.range 32).foldl (nearerCode (codeGrid scale (min e (scale - 14))) (m * 2 ^ (e - min e (scale - 14)).toNat)) 0

theorem l6Enc_fin (s t : Bool) (m : Nat) (e scale : Int) :
    l6Enc (.fin s m e t) scale = if l6Code m e scale = 0 then 0 else s.toNat * 32 + l6Code m e scale := by
  delta l6Enc l6Code nearerCode codeDist codeGrid
  simp only [beq_iff_eq]

theorem l6Code_lt (m : Nat) (e scale : Int) : l6Code m e scale < 32 :=
  (foldl_nearerCode (codeGrid_strictMono (min_le_right ..)) _ 31).1

theorem l6Enc_mod (s t : Bool) (m : Nat) (e scale : Int) : l6Enc (.fin s m e t) scale % 32 = l6Code m e scale := by
  have := l6Code_lt m e scale
  rw [l6Enc_fin]
  split <;> omega

theorem l6Enc_div (s t : Bool) (m : Nat) (e scale : Int) :
    l6Enc (.fin s m e t) scale / 32 = if l6Code m e scale = 0 then 0 else s.toNat := by
  have := l6Code_lt m e scale
  rw [l6Enc_fin]
  split <;> omega

end Sys2Proof.Machine

namespace Sys2Proof.Claims
open Machine

/-- The value of a code (R60). -/
def codeValue (scale : Int) (k : Nat) : ℚ :=
  if k = 0 then 0 else 2 ^ ((k / 4 : Nat) - 4 + scale) * ([1024, 1218, 1448, 1722].getD (k % 4) 0 : ℚ) / 1024

theorem getD_cast_lgT (k : Nat) : ([1024, 1218, 1448, 1722].getD (k % 4) 0 : ℚ) = lgT k := by
  have h : k % 4 < 4 := Nat.mod_lt _ (by decide)
  unfold lgT
  generalize k % 4 = r at h
  interval_cases r <;> rfl

theorem codeGrid_mul_zpow {scale g : Int} (hg : g ≤ scale - 14) (k : Nat) : (codeGrid scale g k : ℚ) * 2 ^ g = codeValue scale k := by
  obtain ⟨d, hd⟩ := Int.le.dest hg
  obtain rfl : scale = g + d + 14 := by omega
  rw [codeGrid_eq hg, codeUnits, codeValue, getD_cast_lgT]
  by_cases hk : k = 0
  · simp [hk]
  · rw [if_neg hk, if_neg hk, show ((k / 4 : Nat) : Int) - 4 + (g + d + 14) = (k / 4 : Nat) + d + g + (10 : Nat) by push_cast; ring,
      show (g + d + 14 - 14 - g).toNat = d by omega]
    simp only [zpow_add₀ (two_ne_zero (α := ℚ)), zpow_natCast]
    push_cast
    ring

theorem abs_sub_codeValue (m : Nat) (e scale : Int) (k : Nat) : |(m : ℚ) * 2 ^ e - codeValue scale k| =
    codeDist (codeGrid scale (min e (scale - 14))) (m * 2 ^ (e - min e (scale - 14)).toNat) k * 2 ^ min e (scale - 14) := by
  have hpow : (0 : ℚ) < 2 ^ min e (scale - 14) := by positivity
  have hm : (m : ℚ) * 2 ^ e = ((m * 2 ^ (e - min e (scale - 14)).toNat : Nat) : ℚ) * 2 ^ min e (scale - 14) := by
    push_cast
    rw [mul_assoc, ← zpow_natCast, ← zpow_add₀ two_ne_zero, Int.toNat_of_nonneg (by omega), sub_add_cancel]
  rw [hm, ← codeGrid_mul_zpow (min_le_right ..), ← sub_mul, abs_mul, abs_of_pos hpow, codeDist_cast]

theorem l6Code_nearest (m : Nat) (e scale : Int) {j : Nat} (hj : j < 32) :
    |(m : ℚ) * 2 ^ e - codeValue scale (l6Code m e scale)| ≤ |(m : ℚ) * 2 ^ e - codeValue scale j| ∧
      (|(m : ℚ) * 2 ^ e - codeValue scale (l6Code m e scale)| = |(m : ℚ) * 2 ^ e - codeValue scale j| → j ≠ l6Code m e scale →
        l6Code m e scale % 2 = 0) := by
  have hpow : (0 : ℚ) < 2 ^ min e (scale - 14) := by positivity
  have h := (foldl_nearerCode (codeGrid_strictMono (min_le_right e (scale - 14))) (m * 2 ^ (e - min e (scale - 14)).toNat) 31).2 j hj
  simp only [abs_sub_codeValue, mul_le_mul_iff_left₀ hpow, mul_left_inj' hpow.ne', Nat.cast_le, Nat.cast_inj]
  exact h

/-! ### The product (R61) -/

theorem logMul_of_nar {a b : Nat} (h : a = 32 ∨ b = 32) (p q : Int) : logMul a b p q = .nan := by
  rcases h with rfl | rfl <;> simp [logMul]

/-- A 6-bit pattern that is not NaR has no sign at code 0. -/
theorem nar_false {a : Nat} (ha : a < 64) (h : a ≠ 32) : (a / 32 % 2 == 1 && a % 32 == 0) = false := by
  simp only [Bool.and_eq_false_iff, beq_eq_false_iff_ne]
  omega

theorem logMul_of_zero {a b : Nat} (ha : a < 64) (hb : b < 64) (hna : a ≠ 32) (hnb : b ≠ 32) (h : a = 0 ∨ b = 0) (p q : Int) :
    logMul a b p q = .fin false 0 0 false := by
  simp only [logMul, nar_false ha hna, nar_false hb hnb]
  rcases h with rfl | rfl <;> simp

theorem signs_differ_iff {x y : Nat} (hx : x < 2) (hy : y < 2) : ((x % 2 == 1) != (y % 2 == 1)) = true ↔ ¬x = y := by
  interval_cases x <;> interval_cases y <;> decide

theorem logMul_of_numbers {a b : Nat} (ha : a < 64) (hb : b < 64) (ha0 : a % 32 ≠ 0) (hb0 : b % 32 ≠ 0) (p q : Int) :
    exact (logMul a b p q) ∧ real (logMul a b p q) = (if a / 32 = b / 32 then 1 else -1) *
      2 ^ (((a % 32 + b % 32) / 4 : Nat) - 8 + p + q) * ([1024, 1218, 1448, 1722].getD ((a % 32 + b % 32) % 4) 0 : ℚ) / 1024 := by
  have hmul : logMul a b p q = .fin ((a / 32 % 2 == 1) != (b / 32 % 2 == 1)) (lgT (a % 32 + b % 32))
      (((a % 32 + b % 32) / 4 : Nat) - 18 + p + q) false := by
    simp [logMul, ha0, hb0]
  have hsign : ((a / 32 % 2 == 1) != (b / 32 % 2 == 1)) = true ↔ ¬a / 32 = b / 32 :=
    signs_differ_iff (by omega) (by omega)
  have hexp : ((a % 32 + b % 32) / 4 : Nat) - 8 + p + q = ((a % 32 + b % 32) / 4 : Nat) - 18 + p + q + ((10 : Nat) : Int) := by
    push_cast
    ring
  rw [hmul]
  refine ⟨rfl, ?_⟩
  rw [getD_cast_lgT, hexp, zpow_add₀ two_ne_zero, zpow_natCast, real]
  simp only [hsign, ite_not]
  ring

/-- Settles O11: the product by its cases, and the search's code as the nearest on a grid that the magnitude and the codes' values share. -/
theorem logarithmicNumbersEncode : Obligations.LogarithmicNumbersEncode := by
  refine ⟨fun a b p q ha hb => ⟨fun h => ?_, fun h h' h0 => ?_, fun ha0 hb0 => ?_⟩, fun _ => ⟨rfl, fun _ => rfl⟩, fun s m e scale => ?_⟩
  · exact logMul_of_nar h p q
  · exact logMul_of_zero ha hb h h' h0 p q
  · exact logMul_of_numbers ha hb ha0 hb0 p q
  · refine ⟨?_, ?_, fun j hj => ?_⟩
    · have := l6Code_lt m e scale
      have := s.toNat_le
      rw [l6Enc_fin]
      split <;> omega
    · rw [l6Enc_mod, l6Enc_div]
    · rw [l6Enc_mod]
      exact l6Code_nearest m e scale hj

end Sys2Proof.Claims
end

section
/-! SUPPORT. The order of encodings (R155, R156): the key of a number orders as the extended number that it encodes, and the statement about
minimum, maximum and the compares, settled. -/

namespace Sys2Proof.Machine

variable {F : Fmt}

/-! ### Magnitudes -/

/-- The magnitude of an encoding without its sign, in units of the least subnormal (R50). -/
def Fmt.units (F : Fmt) (k : Nat) : Nat := if k / 2 ^ F.m = 0 then k else (2 ^ F.m + k % 2 ^ F.m) * 2 ^ (k / 2 ^ F.m - 1)

theorem Fmt.units_of_fields (ex : Nat) {fr : Nat} (hfr : fr < 2 ^ F.m) :
    F.units (2 ^ F.m * ex + fr) = if ex = 0 then fr else (2 ^ F.m + fr) * 2 ^ (ex - 1) := by
  have hdiv : (2 ^ F.m * ex + fr) / 2 ^ F.m = ex := by
    rw [Nat.mul_add_div (Nat.two_pow_pos _), Nat.div_eq_of_lt hfr, add_zero]
  rw [Fmt.units, hdiv, Nat.mul_add_mod, Nat.mod_eq_of_lt hfr]
  split
  · next h => rw [h, mul_zero, zero_add]
  · rfl

theorem Fmt.units_zero : F.units 0 = 0 := by simp [Fmt.units]

theorem Fmt.units_strictMono (F : Fmt) : StrictMono F.units := by
  refine strictMono_nat_of_lt_succ fun k => ?_
  have hpos : 0 < 2 ^ F.m := Nat.two_pow_pos F.m
  obtain ⟨ex, fr, hfr, rfl⟩ : ∃ ex fr, fr < 2 ^ F.m ∧ k = 2 ^ F.m * ex + fr := ⟨_, _, Nat.mod_lt _ hpos, (Nat.div_add_mod k _).symm⟩
  rw [F.units_of_fields ex hfr]
  rcases eq_or_lt_of_le (Nat.succ_le_of_lt hfr) with hcarry | hroom
  · rw [show 2 ^ F.m * ex + fr + 1 = 2 ^ F.m * (ex + 1) + 0 by rw [add_assoc, ← Nat.succ_eq_add_one fr, hcarry]; ring,
      F.units_of_fields (ex + 1) hpos, if_neg (Nat.succ_ne_zero ex), add_zero, Nat.add_sub_cancel]
    cases ex with
    | zero => simpa using hfr
    | succ ex =>
      rw [if_neg (Nat.succ_ne_zero ex), Nat.add_sub_cancel, pow_succ', ← mul_assoc]
      exact Nat.mul_lt_mul_of_pos_right (by omega) (Nat.two_pow_pos ex)
  · rw [add_assoc, F.units_of_fields ex hroom]
    split
    · exact Nat.lt_succ_self fr
    · exact Nat.mul_lt_mul_of_pos_right (by omega) (Nat.two_pow_pos _)

/-- A magnitude's units with the sign of an order key. -/
def Fmt.signedUnits (F : Fmt) (z : Int) : Int := if z < 0 then -F.units z.natAbs else F.units z.natAbs

theorem Fmt.signedUnits_natCast (n : Nat) : F.signedUnits n = F.units n := if_neg (by omega)

theorem Fmt.signedUnits_neg_natCast (n : Nat) : F.signedUnits (-n) = -F.units n := by
  rcases Nat.eq_zero_or_pos n with rfl | hn
  · simp [Fmt.signedUnits, F.units_zero]
  · rw [Fmt.signedUnits, if_pos (by omega), Int.natAbs_neg, Int.natAbs_natCast]

theorem Fmt.signedUnits_strictMono (F : Fmt) : StrictMono F.signedUnits := by
  refine strictMono_int_of_lt_succ fun z => ?_
  cases z with
  | ofNat n =>
    have h : F.units n < F.units (n + 1) := F.units_strictMono n.lt_succ_self
    have hz := F.signedUnits_natCast (n + 1)
    push_cast at hz
    rw [Int.ofNat_eq_natCast, F.signedUnits_natCast, hz]
    exact_mod_cast h
  | negSucc n =>
    have h : F.units n < F.units (n + 1) := F.units_strictMono n.lt_succ_self
    rw [Int.negSucc_eq, show -((n : Int) + 1) + 1 = -(n : Int) by ring, F.signedUnits_neg_natCast, ← Nat.cast_succ, F.signedUnits_neg_natCast]
    exact neg_lt_neg (by exact_mod_cast h)

/-- The exponent and fraction fields of an encoding, as one number. -/
def Fmt.magnitude (F : Fmt) (n : Nat) : Nat := n % 2 ^ (F.m + F.eb)

theorem Fmt.magnitude_div (n : Nat) : F.magnitude n / 2 ^ F.m = F.expo n := by
  rw [Fmt.magnitude, Fmt.expo, pow_add, Nat.mod_mul_right_div_self]

theorem Fmt.magnitude_mod (n : Nat) : F.magnitude n % 2 ^ F.m = F.frac n :=
  Nat.mod_mod_of_dvd n (pow_dvd_pow 2 (Nat.le_add_right ..))

theorem Fmt.key_eq (n : Nat) : F.key n = if F.sign n then -(F.magnitude n : Int) else F.magnitude n := rfl

/-- The magnitude of an infinity. -/
def Fmt.top (F : Fmt) : Nat := F.allOnes * 2 ^ F.m

theorem Fmt.magnitude_eq (n : Nat) : F.magnitude n = 2 ^ F.m * F.expo n + F.frac n := by
  rw [← F.magnitude_div, ← F.magnitude_mod, Nat.div_add_mod]

theorem Fmt.frac_lt (n : Nat) : F.frac n < 2 ^ F.m := Nat.mod_lt _ (Nat.two_pow_pos _)

theorem Fmt.expo_le (n : Nat) : F.expo n ≤ F.allOnes :=
  Nat.le_sub_one_of_lt (Nat.mod_lt _ (Nat.two_pow_pos _))

/-- A number is an infinity, whose magnitude is the top, or lies below it. -/
theorem Fmt.isInf_or_lt_top {n : Nat} (h : F.isNaN n = false) :
    F.isInf n = true ∧ F.magnitude n = F.top ∨ F.isInf n = false ∧ F.magnitude n < F.top := by
  rw [F.magnitude_eq, Fmt.top, mul_comm F.allOnes]
  rcases eq_or_lt_of_le (F.expo_le n) with hones | hless
  · have hzero : F.frac n = 0 := by simpa [Fmt.isNaN, hones] using h
    exact .inl ⟨by simp [Fmt.isInf, hones, hzero], by rw [hones, hzero, add_zero]⟩
  · refine .inr ⟨by simp [Fmt.isInf, hless.ne], ?_⟩
    calc 2 ^ F.m * F.expo n + F.frac n < 2 ^ F.m * F.expo n + 2 ^ F.m := Nat.add_lt_add_left (F.frac_lt n) _
      _ = 2 ^ F.m * (F.expo n + 1) := by ring
      _ ≤ 2 ^ F.m * F.allOnes := Nat.mul_le_mul_left _ hless

theorem Fmt.magnitude_le {n : Nat} (h : F.isNaN n = false) : F.magnitude n ≤ F.top :=
  (F.isInf_or_lt_top h).elim (fun hi => hi.2.le) fun hf => hf.2.le

theorem Fmt.isZero_iff (n : Nat) : F.isZero n = true ↔ F.magnitude n = 0 := by
  rw [F.magnitude_eq]
  simp [Fmt.isZero]

end Sys2Proof.Machine

namespace Sys2Proof.Claims
open Machine

/-- The extended number of an order key. -/
def numberOfKey (F : Fmt) (z : Int) : WithBot (WithTop ℚ) :=
  if z ≤ -F.top then ⊥ else if (F.top : Int) ≤ z then ⊤ else ((F.signedUnits z * 2 ^ (F.emin - F.m) : ℚ) : WithTop ℚ)

theorem numberOfKey_strictMonoOn (F : Fmt) : StrictMonoOn (numberOfKey F) (Set.Icc (-F.top) F.top) := by
  intro z hz w hw hlt
  have hw_low : ¬w ≤ -F.top := not_le.2 (hz.1.trans_lt hlt)
  have hz_high : ¬(F.top : Int) ≤ z := not_le.2 (hlt.trans_le hw.2)
  rw [numberOfKey, numberOfKey, if_neg hw_low, if_neg hz_high]
  split
  · split
    · exact WithBot.bot_lt_coe _
    · exact WithBot.bot_lt_coe _
  · split
    · exact WithBot.coe_lt_coe.2 (WithTop.coe_lt_top _)
    · have hpow : (0 : ℚ) < 2 ^ (F.emin - F.m) := by positivity
      refine WithBot.coe_lt_coe.2 (WithTop.coe_lt_coe.2 (mul_lt_mul_of_pos_right ?_ hpow))
      exact_mod_cast F.signedUnits_strictMono hlt

theorem value_of_finite {F : Fmt} {n : Nat} (h : F.isNaN n = false) (hf : F.isInf n = false) : F.value n =
    if F.expo n = 0 then .fin (F.sign n) (F.frac n) (F.emin - F.m) false
    else .fin (F.sign n) (2 ^ F.m + F.frac n) (F.expo n - F.bias - F.m) false := by
  simp [Fmt.value, h, hf]

theorem extended_of_finite {F : Fmt} {n : Nat} (h : F.isNaN n = false) (hf : F.isInf n = false) :
    extended (F.value n) = ((F.signedUnits (F.key n) * 2 ^ (F.emin - F.m) : ℚ) : WithTop ℚ) := by
  have hkey : (F.signedUnits (F.key n) : ℚ) = (if F.sign n then -1 else 1) * F.units (F.magnitude n) := by
    rw [F.key_eq]
    split
    · rw [F.signedUnits_neg_natCast]
      push_cast
      ring
    · rw [F.signedUnits_natCast]
      push_cast
      ring
  rw [hkey, F.magnitude_eq, F.units_of_fields _ (F.frac_lt n), value_of_finite h hf]
  by_cases hex : F.expo n = 0
  · rw [if_pos hex, if_pos hex]
    rfl
  · obtain ⟨ex, hsucc⟩ := Nat.exists_eq_add_one_of_ne_zero hex
    have hexp : ((ex + 1 : Nat) : Int) - F.bias - F.m = ex + (F.emin - F.m) := by
      unfold Fmt.emin
      push_cast
      ring
    rw [if_neg hex, if_neg hex, extended, real, hsucc, hexp, zpow_add₀ two_ne_zero, zpow_natCast, Nat.add_sub_cancel, Nat.cast_mul,
      Nat.cast_pow, Nat.cast_ofNat, ← mul_assoc, ← mul_assoc]

theorem extended_value {F : Fmt} (htop : 0 < F.top) {n : Nat} (h : F.isNaN n = false) : extended (F.value n) = numberOfKey F (F.key n) := by
  rcases F.isInf_or_lt_top h with ⟨hinf, hmag⟩ | ⟨hfin, hmag⟩
  · have hvalue : F.value n = .inf (F.sign n) := by simp [Fmt.value, h, hinf]
    rw [hvalue, numberOfKey, F.key_eq, hmag]
    cases F.sign n
    · rw [if_neg (by simp; omega), if_pos (by simp)]
      rfl
    · rw [if_pos (by simp)]
      rfl
  · have hlow : ¬F.key n ≤ -F.top := by rw [F.key_eq]; split <;> omega
    have hhigh : ¬(F.top : Int) ≤ F.key n := by rw [F.key_eq]; split <;> omega
    rw [extended_of_finite h hfin, numberOfKey, if_neg hlow, if_neg hhigh]

theorem key_mem {F : Fmt} {n : Nat} (h : F.isNaN n = false) : F.key n ∈ Set.Icc (-(F.top : Int)) F.top := by
  have := F.magnitude_le h
  rw [F.key_eq]
  split <;> constructor <;> omega

theorem top_pos {F : Fmt} (hF : F ∈ formats) : 0 < F.top := by
  revert F
  decide

section
variable {F : Fmt} (hF : F ∈ formats) {a b : Nat} (ha : F.isNaN a = false) (hb : F.isNaN b = false)
include hF ha hb

theorem extended_lt_iff_key : extended (F.value a) < extended (F.value b) ↔ F.key a < F.key b := by
  rw [extended_value (top_pos hF) ha, extended_value (top_pos hF) hb]
  exact (numberOfKey_strictMonoOn F).lt_iff_lt (key_mem ha) (key_mem hb)

theorem extended_eq_iff_key : extended (F.value a) = extended (F.value b) ↔ F.key a = F.key b := by
  rw [extended_value (top_pos hF) ha, extended_value (top_pos hF) hb]
  exact (numberOfKey_strictMonoOn F).injOn.eq_iff (key_mem ha) (key_mem hb)

theorem extended_le_iff_key : extended (F.value a) ≤ extended (F.value b) ↔ F.key a ≤ F.key b := by
  rw [le_iff_lt_or_eq, extended_lt_iff_key hF ha hb, extended_eq_iff_key hF ha hb, ← le_iff_lt_or_eq]

end

/-- What a positive zero stands above a negative one by (R155). -/
def zeroBit (F : Fmt) (n : Nat) : Int := if F.isZero n && !F.sign n then 1 else 0

/-- The key that minimum and maximum go by. -/
def zeroKey (F : Fmt) (n : Nat) : Int := 2 * F.key n + zeroBit F n

theorem minMax_of_numbers {F : Fmt} {a b : Nat} (ha : F.isNaN a = false) (hb : F.isNaN b = false) (big : Bool) : F.minMax big a b =
    if big then (if zeroKey F b > zeroKey F a then b else a) else (if zeroKey F b < zeroKey F a then b else a) := by
  simp only [Fmt.minMax, ha, hb, Bool.and_self, Bool.false_eq_true, if_false]
  rfl

theorem zeroBit_bounds (F : Fmt) (n : Nat) : 0 ≤ zeroBit F n ∧ zeroBit F n ≤ 1 := by
  unfold zeroBit
  split <;> decide

theorem zeroBit_of_negative {F : Fmt} {n : Nat} (h : F.sign n = true) : zeroBit F n = 0 := by simp [zeroBit, h]

theorem zeroBit_of_positive {F : Fmt} {n : Nat} (h : F.sign n = false) : zeroBit F n = if F.key n = 0 then 1 else 0 := by
  simp [zeroBit, F.key_eq, h, F.isZero_iff]

theorem zeroBit_lt_iff {F : Fmt} {p q : Nat} (h : F.key p = F.key q) :
    zeroBit F p < zeroBit F q ↔ F.sign p = true ∧ F.sign q = false := by
  cases hp : F.sign p with
  | false =>
    have hle : zeroBit F q ≤ zeroBit F p := by
      cases hq : F.sign q with
      | false => rw [zeroBit_of_positive hp, zeroBit_of_positive hq, h]
      | true => exact zeroBit_of_negative hq ▸ (zeroBit_bounds F p).1
    simp [hle]
  | true =>
    cases hq : F.sign q with
    | false =>
      have hzero : F.key q = 0 := by
        have hp' := F.key_eq p
        have hq' := F.key_eq q
        simp only [hp, hq, if_true, Bool.false_eq_true, if_false] at hp' hq'
        omega
      simp [zeroBit_of_negative hp, zeroBit_of_positive hq, hzero]
    | true => simp [zeroBit_of_negative hp, zeroBit_of_negative hq]

theorem zeroKey_lt_iff (F : Fmt) (p q : Nat) :
    zeroKey F p < zeroKey F q ↔ F.key p < F.key q ∨ (F.key p = F.key q ∧ F.sign p = true ∧ F.sign q = false) := by
  have hp := zeroBit_bounds F p
  have hq := zeroBit_bounds F q
  unfold zeroKey
  rcases lt_trichotomy (F.key p) (F.key q) with h | h | h
  · exact iff_of_true (by omega) (.inl h)
  · simp [h, zeroBit_lt_iff h]
  · exact iff_of_false (by omega) (by omega)

/-- Settles O14: on numbers, the compares and minimum and maximum go by keys, which order as the numbers that they stand for. -/
theorem floatsCompareAsNumbers : Obligations.FloatsCompareAsNumbers := by
  intro F hF a b _ _ x y nan before
  have hbefore {p q : Nat} (hp : F.isNaN p = false) (hq : F.isNaN q = false) : before p q ↔ zeroKey F p < zeroKey F q := by
    rw [zeroKey_lt_iff, ← extended_lt_iff_key hF hp hq, ← extended_eq_iff_key hF hp hq]
  refine ⟨fun big => ⟨fun ha hb => ?_, fun ha hb => ?_, fun ha hb => ?_⟩, fun hn => ?_, ?_⟩
  · simp [Fmt.minMax, ha, hb]
  · simp [Fmt.minMax, ha, hb]
  · simp [Fmt.minMax, ha, hb]
  · obtain ⟨ha, hb⟩ := Bool.or_eq_false_iff.1 hn
    simp only [minMax_of_numbers ha hb, hbefore ha hb, hbefore hb ha]
    exact ⟨fun h => if_pos h, fun h => if_neg h, fun h => if_pos h, fun h => if_neg h⟩
  · rcases hn : nan with _ | _
    · obtain ⟨ha, hb⟩ := Bool.or_eq_false_iff.1 hn
      have hlt := extended_lt_iff_key hF ha hb
      have hle := extended_le_iff_key hF ha hb
      have heq := extended_eq_iff_key hF ha hb
      have hgt := extended_lt_iff_key hF hb ha
      have hge := extended_le_iff_key hF hb ha
      simp [floatCond, ha, hb, x, y, hlt, hle, heq, hgt, hge]
    · have hnan : (F.isNaN a || F.isNaN b) = true := hn
      simp [floatCond, hnan]

end Sys2Proof.Claims
end

section
/-! SUPPORT. Which threads a filing moves, and what taking a thread-level cause leaves; the statement about it, settled. -/

namespace Sys2Proof.Machine
open Sys2Proof.Claims

/-! ### Threads that a filing moves into a bin (R77) -/

theorem Thread.toBin_of_overflow (t : Thread) : t.toBin = t ∨ ∃ f, t.place = .filed f ∧ f.overflow = true := by
  unfold Thread.toBin
  cases hp : t.place with
  | filed f =>
    cases hf : f.overflow with
    | true => exact .inr ⟨f, rfl, hf⟩
    | false => refine .inl ?_; dsimp only; rw [← hf, ← hp]
  | _ => exact .inl rfl

/-- A thread that waits on a core stands in the table with its key and filing. -/
theorem State.mem_waitingOn {s : State} {core : Nat} {e : Thread × BinKey × Filing} (h : e ∈ s.waitingOn core) :
    e.1 ∈ s.threads.vals ∧ e.1.waits = some e.2 := by
  obtain ⟨t, ht, he⟩ := List.mem_filterMap.1 h
  split at he
  · next k f hw =>
    split at he
    · obtain rfl := Option.some.inj he
      exact ⟨ht, hw⟩
    · cases he
  · cases he

/-- A thread is as before, or is put into a bin with the threads of a key on a core, of which one has its name. -/
theorem State.takeIn_find (s : State) (core : Nat) (k : BinKey) (n : Nat) : (s.takeIn core k).threads.find n = s.threads.find n ∨
    ((s.takeIn core k).threads.find n = (s.threads.find n).map Thread.toBin ∧ ∃ e ∈ s.waitingOn core, e.1.id = n ∧ e.2.1 = k) := by
  unfold State.takeIn
  suffices h : ∀ (l : List (Thread × BinKey × Filing)) (u : State),
      (l.foldl (fun s e => if e.2.1 == k then s.modThread e.1.id Thread.toBin else s) u).threads.find n = u.threads.find n ∨
      ((l.foldl (fun s e => if e.2.1 == k then s.modThread e.1.id Thread.toBin else s) u).threads.find n = (u.threads.find n).map Thread.toBin ∧
        ∃ e ∈ l, e.1.id = n ∧ e.2.1 = k) from h _ _
  intro l
  induction l with
  | nil => exact fun u => .inl rfl
  | cons a l ih =>
    intro u
    rw [List.foldl_cons]
    by_cases ha : a.2.1 = k ∧ a.1.id = n
    · obtain ⟨hk, rfl⟩ := ha
      refine .inr ⟨?_, a, List.mem_cons_self, rfl, hk⟩
      rw [if_pos (by simp [hk])]
      rcases ih (u.modThread a.1.id Thread.toBin) with h | ⟨h, -⟩ <;> rw [h, State.find_modThread_self]
      rw [Option.map_map]
      congr 1
      exact funext Thread.toBin_toBin
    · have hsame : (if a.2.1 == k then u.modThread a.1.id Thread.toBin else u).threads.find n = u.threads.find n := by
        split
        · next hk => exact State.find_modThread_ne _ _ fun h => ha ⟨by simpa using hk, h.symm⟩
        · rfl
      rcases ih (if a.2.1 == k then u.modThread a.1.id Thread.toBin else u) with h | ⟨h, e, he, hn⟩
      · exact .inl (h.trans hsame)
      · exact .inr ⟨by rw [h, hsame], e, List.mem_cons_of_mem _ he, hn⟩

/-- Of the other threads a filing changes only those of its key on the overflow list, which it puts into its bin (R77). -/
theorem State.file_find_other (s : State) {tid n : Nat} (f : Filing) {th o : Thread} (hth : s.threads.find tid = some th) (hn : n ≠ tid)
    (ho : s.threads.find n = some o) : (s.file tid f).threads.find n = some o ∨ ((s.file tid f).threads.find n = some o.toBin ∧
      (∃ g, o.place = .filed g ∧ g.overflow = true) ∧ ∃ e ∈ s.threads.vals, e.id = n ∧ ∃ g, e.waits = some (f.key th.crew, g)) := by
  have put (u : State) (b : Bool) : (u.modThread tid fun t => { t with place := .filed { f with overflow := b } }).threads.find n = u.threads.find n :=
    State.find_modThread_ne _ _ hn
  unfold State.file
  rw [hth]
  dsimp only
  split
  · exact .inl ((put _ _).trans ho)
  next core _ =>
  split
  · exact .inl ((put _ _).trans ho)
  split
  · rw [put]
    rcases s.takeIn_find core (f.key th.crew) n with h | ⟨h, e, he, hid, hk⟩
    · exact .inl (h.trans ho)
    · rw [ho, Option.map_some] at h
      rcases o.toBin_of_overflow with hb | hb
      · exact .inl (by rw [h, hb])
      · obtain ⟨hmem, hw⟩ := State.mem_waitingOn he
        exact .inr ⟨h, hb, e.1, hmem, hid, e.2.2, by rw [hw, ← hk]⟩
  · exact .inl ((put _ _).trans ho)

/-- A thread of a changed table is one of the table before, changed or not. -/
theorem Map.mem_vals_modify {α : Type} {m : Map α} {k : Nat} {f : α → α} {v : α} (h : v ∈ (Map.modify m k f).vals) : ∃ w ∈ m.vals, v = w ∨ v = f w := by
  obtain ⟨e, he, rfl⟩ := List.mem_map.1 h
  obtain ⟨a, ha, rfl⟩ := List.mem_map.1 he
  refine ⟨a.2, List.mem_map_of_mem ha, ?_⟩
  split
  · exact .inr rfl
  · exact .inl rfl

/-! ### Taking a thread-level cause (R317, R318) -/

/-- The thread with its trap registers written, in its handler. -/
def Thread.trapped (t : Thread) (e : TrapEntry) : Thread :=
  { t with
    handler := true, trapcause := BitVec.ofNat 32 e.cause.code, trapinfo := trapInfo e.offset e.traceId e.code
    trapret := BitVec.ofNat 64 (e.ret % 2 ^ 32), resume := e.resume }

theorem State.enterHandler_files {s : State} {tid : Nat} {vec : Dword} {th : Thread} (h : s.threads.find tid = some th) (hv : vec[32] = true)
    (hh : th.handler = false) (core : Nat) (e : TrapEntry) (addr : Nat) :
    s.enterHandler tid vec core e addr = (s.modThread tid (·.trapped e)).file tid (Filing.at' (loWord vec).toNat 0 s.clock) := by
  unfold State.enterHandler
  rw [h]
  dsimp only
  rw [if_pos (by simp [hv, hh])]
  rfl

theorem State.enterHandler_terminates {s : State} {tid : Nat} {vec : Dword} {th : Thread} (h : s.threads.find tid = some th)
    (hv : vec[32] = false ∨ th.handler = true) (core : Nat) (e : TrapEntry) (addr : Nat) : s.enterHandler tid vec core e addr =
      let u := s.modThread tid fun t => { t with place := .faulted }
      u.terminateBy { u.recordOf e.cause th core e.traceId e.offset addr with handler := th.handler } := by
  unfold State.enterHandler
  rw [h]
  dsimp only
  rw [if_neg (by rcases hv with hv | hv <;> simp [hv])]

theorem State.report_mem_agenda (s : State) (r : FaultRec) : Turn.hw (.faultRecordWrite r) ∈ (s.report r).agenda :=
  List.mem_append_right _ List.mem_cons_self

end Sys2Proof.Machine

namespace Sys2Proof.Claims
open Machine

theorem threadCauseEntersHandler : ThreadCauseEntersHandler := by
  intro s tid core addr vec e th hth hv hh t
  let u := s.modThread tid (·.trapped e)
  have ht : t = u.file tid (Filing.at' (loWord vec).toNat 0 s.clock) := State.enterHandler_files hth hv hh core e addr
  have hu : u.threads.find tid = some (th.trapped e) := by rw [State.find_modThread_self, hth]; rfl
  refine ⟨?_, fun n hn o ho => ?_, ?_⟩
  · obtain ⟨b, hb⟩ := u.file_find tid (Filing.at' (loWord vec).toNat 0 s.clock) hu
    exact ⟨_, _, by rw [ht, hb], rfl, rfl, rfl, rfl, rfl, rfl, rfl, rfl, rfl⟩
  · have hou : u.threads.find n = some o := (State.find_modThread_ne s _ hn).trans ho
    rw [ht]
    refine (u.file_find_other _ hu hn hou).imp_right fun ⟨hbin, hover, w, hw, hid, g, hg⟩ => ⟨hbin, hover, ?_⟩
    obtain ⟨w', hw', rfl | rfl⟩ := Map.mem_vals_modify (m := s.threads) (k := tid) (f := (·.trapped e)) hw
    · exact ⟨w, hw', hid, g, hg⟩
    · exact ⟨w', hw', hid, g, hg⟩
  · rw [ht]
    exact (ThreadsOnly.modThread s tid _).trans (u.file_only tid _)

theorem threadCauseWithoutHandlerTerminates : ThreadCauseWithoutHandlerTerminates := by
  intro s tid core addr vec e th hth hv t
  have ht : t = _ := State.enterHandler_terminates hth hv core e addr
  rw [ht]
  refine ⟨⟨{ th with place := .faulted }, ?_, rfl, rfl, rfl, rfl, rfl⟩, _, State.report_mem_agenda .., rfl, rfl, rfl, rfl, rfl, rfl, rfl, rfl, rfl⟩
  exact (State.find_modThread_self s tid fun t => { t with place := .faulted }).trans (by rw [hth, Option.map_some])

/-- Settles O23: with a way in, the thread's registers are written and it is filed, which moves none but its key's overflow threads; without one it is
faulted and its record stands in the agenda. -/
theorem threadCausesEnterTheHandler : Obligations.ThreadCausesEnterTheHandler :=
  ⟨threadCauseEntersHandler, threadCauseWithoutHandlerTerminates⟩

end Sys2Proof.Claims
end

section
/-! SUPPORT. Stalled conduits and probes; the statement about them, settled. -/

namespace Sys2Proof.Machine
open Sys2Proof.Claims

section
variable {s : State} {c : Cohort} {since : Nat} (hc : s.cohorts.find c.id = some c) (hst : c.st = .conduit since)
include hc hst

theorem execConduitStallResume_of_ready (h : s.conduitReadyAt c = true) :
    execConduitStallResume c.id s = .next (s.setCohort { c with st := .ready }) := by
  unfold execConduitStallResume
  simp only [hc, hst, h, if_true]

/-- A stall of 512 clocks sends a probe where the crew is stuck, and otherwise is counted anew (R92). -/
theorem execDeadlockProbeStart_of_late (h : since + 512 ≤ s.clock) : execDeadlockProbeStart c.id s = .next
    (if s.deadlocked c.crew then s.modCrew c.crew fun w => { w with probe := w.probe.or (some c.id) }
      else s.setCohort { c with st := .conduit s.clock }) := by
  unfold execDeadlockProbeStart
  simp only [hc, hst, Nat.not_lt.2 h, if_false]

end

/-- The stall of a cohort is counted anew. -/
def State.restall (s : State) (cid : Nat) : State := s.modCohort cid fun c => match c.st with
  | .conduit _ => { c with st := .conduit s.clock }
  | _ => c

theorem State.restall_find {s : State} {c : Cohort} {since : Nat} (hc : s.cohorts.find c.id = some c) (hst : c.st = .conduit since) :
    (s.restall c.id).cohorts.find c.id = some { c with st := .conduit s.clock } := by
  rw [State.restall, State.modCohort, Map.find_modify_self, hc, Option.map_some]
  simp only [hst]

/-- A crew whose probe has come back. -/
def State.unprobed (s : State) (crew : Nat) : State := s.modCrew crew fun w => { w with probe := none }

section
variable {s : State} {crew cid : Nat} {w : Crew} (hw : s.crews.find crew = some w) (hp : w.probe = some cid)
include hw hp

/-- A probe whose conditions no longer hold dies (R92). -/
theorem execDeadlockProbeReturn_of_freed (h : (s.unprobed crew).deadlocked crew = false) :
    execDeadlockProbeReturn crew s = .next ((s.unprobed crew).restall cid) := by
  unfold State.unprobed at h
  unfold execDeadlockProbeReturn
  simp only [hw, hp, h, Bool.not_false, if_true]
  rfl

/-- With no push that lacks room QDEAD is raised where entries lack (R93). -/
theorem execDeadlockProbeReturn_of_no_push (h : (s.unprobed crew).deadlocked crew = true) (hs : (s.unprobed crew).stalls w true = []) :
    execDeadlockProbeReturn crew s = .next ((s.unprobed crew).qdead ((s.unprobed crew).stalls w false)) := by
  unfold State.unprobed at h hs
  unfold execDeadlockProbeReturn
  simp only [hw, hp, h, hs, Bool.not_true, Bool.false_eq_true, if_false]
  rfl

/-- The lowest conduit short of room is granted its reserve row, once (R93). -/
theorem execDeadlockProbeReturn_of_push {p : Cohort × Nat} {ps : List (Cohort × Nat)} {cd : Conduit} (h : (s.unprobed crew).deadlocked crew = true)
    (hs : (s.unprobed crew).stalls w true = p :: ps) (hcd : w.conduit ((p :: ps).foldl (fun m e => min m e.2) p.2) = some cd) :
    execDeadlockProbeReturn crew s = .next (if cd.reserve
      then (s.unprobed crew).qdead ((p :: ps).filter (·.2 == (p :: ps).foldl (fun m e => min m e.2) p.2))
      else ((s.unprobed crew).modCrew crew fun w =>
        { w with conduits := w.conduits.set ((p :: ps).foldl (fun m e => min m e.2) p.2) { cd with reserve := true } }).restall cid) := by
  unfold State.unprobed at h hs
  unfold execDeadlockProbeReturn
  simp only [hw, hp, h, hs, hcd, Bool.not_true, Bool.false_eq_true, if_false]
  rfl

end

theorem State.unprobed_find {s : State} {crew : Nat} {w : Crew} (hw : s.crews.find crew = some w) :
    (s.unprobed crew).crews.find crew = some { w with probe := none } := by
  rw [State.unprobed, State.modCrew, Map.find_modify_self, hw, Option.map_some]

end Sys2Proof.Machine

namespace Sys2Proof.Claims
open Machine

/-- Settles O42: each of the three steps by what it does in the case, and what that leaves of the crew and the cohort. -/
theorem conduitStepsComplete : Obligations.ConduitStepsComplete := by
  intro s c w since hc hst hw _
  refine ⟨execConduitStallResume_of_ready hc hst, fun hlate hd => ?_, fun hlate hd hp => ?_, fun hp => ?_⟩
  · exact (execDeadlockProbeStart_of_late hc hst hlate).trans (by rw [hd]; rfl)
  · have hnext := execDeadlockProbeStart_of_late hc hst hlate
    rw [if_pos hd] at hnext
    refine ⟨_, hnext, ?_, rfl⟩
    rw [State.modCrew, Map.find_modify_self, hw, Option.map_some, hp, Option.none_or]
  · refine ⟨fun hd => ?_, fun p ps cd hd hs hcd => ?_, execDeadlockProbeReturn_of_no_push hw hp⟩
    · exact ⟨_, execDeadlockProbeReturn_of_freed hw hp hd, State.unprobed_find hw, State.restall_find hc hst⟩
    · have hnext := execDeadlockProbeReturn_of_push hw hp hd hs hcd
      refine ⟨fun hr => ?_, fun hr => hnext.trans (by rw [if_pos hr]; rfl)⟩
      rw [if_neg (by simp [hr])] at hnext
      have hfind := Map.find_modify_self (s.unprobed c.crew).crews c.crew fun w =>
        { w with conduits := w.conduits.set ((p :: ps).foldl (fun m e => min m e.2) p.2) { cd with reserve := true } }
      rw [State.unprobed_find hw, Option.map_some] at hfind
      exact ⟨_, _, hnext, hfind, rfl, State.restall_find hc hst⟩

end Sys2Proof.Claims
end

section
/-! SUPPORT. The end of a crew, its admission and the stealing of records; the statement about them, settled. -/

namespace Sys2Proof.Machine
open Sys2Proof.Claims

/-! ### The end of a crew (R88) -/

/-- The state in which a crew's decrement is considered: with its last thread gone its core's quantum buffer is flushed. -/
def State.exitFlush (s : State) (w : Crew) : State := match w.core with
  | some core => if (s.unexited w.id).isEmpty then s.flushQuantum core else s
  | none => s

section
variable {s : State} {w : Crew} {l : Launch} (hw : s.crews.find w.id = some w) (hl : s.launchOf w = some l)
include hw hl

theorem execJoinDecrement_of_due (hd : w.decremented = false)
    (h : w.triggered = true ∨ (s.unexited w.id).isEmpty = true ∧ (s.exitFlush w).crewStored w.id = true) :
    execJoinDecrement w.id s = .next ((s.exitFlush w).decrement w l) := by
  have hdue : (w.triggered || ((s.unexited w.id).isEmpty && (s.exitFlush w).crewStored w.id)) = true := by
    simpa only [Bool.or_eq_true, Bool.and_eq_true] using h
  unfold execJoinDecrement
  simp only [hw, hl, hd, Bool.not_false, if_true]
  exact congrArg Host.Outcome.next (if_pos hdue)

theorem execJoinDecrement_of_last (hd : w.decremented = true) (he : (s.unexited w.id).isEmpty = true) (hs : (s.exitFlush w).crewStored w.id = true)
    (ht : ∀ o ∈ (s.exitFlush w).eng.tileOps, o.crew ≠ w.id)
    (hc : ∀ o ∈ (s.exitFlush w).eng.copyOps, o.at'.stream = none → o.at'.crew ≠ w.id) : execJoinDecrement w.id s =
      .next ((((s.exitFlush w).freeCrew w).modLaunch w.launch fun l => { l with decremented := l.decremented + 1 }).post
        (.hw (.launchFinish w.launch))) := by
  have hdone : ((s.unexited w.id).isEmpty && (s.exitFlush w).crewStored w.id && !((s.exitFlush w).eng.tileOps.any (·.crew == w.id)) &&
      !((s.exitFlush w).eng.copyOps.any fun o => o.at'.crew == w.id && o.at'.stream.isNone)) = true := by
    simp only [he, hs, Bool.and_self, Bool.true_and, Bool.and_eq_true, Bool.not_eq_true', List.any_eq_false, beq_iff_eq, Option.isNone_iff_eq_none]
    exact ⟨ht, fun o ho h => hc o ho h.2 h.1⟩
  unfold execJoinDecrement
  simp only [hw, hl, hd, Bool.not_true, Bool.false_eq_true, if_false]
  exact congrArg Host.Outcome.next (if_pos hdone)

end

/-- No thread of a freed crew is left. -/
theorem State.freeCrew_threads (s : State) (w : Crew) : ∀ t ∈ (s.freeCrew w).threads.vals, t.crew ≠ w.id := by
  intro t ht
  obtain ⟨e, he, rfl⟩ := List.mem_map.1 ht
  simpa using (List.mem_filter.1 he).2

/-! ### Admission (R72 to R74, R308) -/

/-- A crew of a launch as it is admitted on a core, and one of its threads before it has a row. -/
def Launch.crewAt (l : Launch) (id core ord : Nat) : Crew :=
  { id := id, ctx := l.ctx, launch := l.slot, crewId := BitVec.ofNat 64 (l.crewIdOf ord), ordinal := ord,
    size := l.size, core := some core, running := true, timer := 0, clk := 0, triggered := false,
    decremented := false, conduits := l.depths.map fun d => ⟨d * l.size, [], false⟩, barriers := [], groups := [],
    kPend := [], probe := none, stopping := none }

def Launch.threadAt (l : Launch) (id ord i : Nat) : Thread :=
  ⟨id + 1 + i, id, i, BitVec.ofNat 64 (l.widOf ord i), 128, .ended, false, 0, 0, 0, none, false, false, false, none, []⟩

/-- The record that is left once its first crew has been admitted. -/
def Record.next (r : Record) : List Record := if r.count ≤ 1 then [] else [{ r with first := r.first + r.stride, count := r.count - 1 }]

/-- The state in which an admitted crew's threads are made. -/
def State.withCrew (s : State) (core : Nat) (r : Record) (l : Launch) : State :=
  { (s.modCmd fun c => { c with records := c.records.flatMap fun q => if q = r then r.next else [q] }).setCrew (l.crewAt s.nextId core r.first) with
    nextId := s.nextId + 1 + l.size }

/-- Threads are filed at a trace's address, one after the other. -/
def State.fileAll (s : State) (entry : Nat) (ts : List Thread) : State := ts.foldl (fun s t => s.file t.id (Filing.at' entry 0 s.clock)) s

section
variable {s : State} {core : Nat} {r : Record} (hr : s.pickRecord core = some r)
include hr

theorem execCrewAdmit_of_left {w : Crew} (h : s.leftBelow r.slot (s.recOrd r) = some w) : execCrewAdmit core s = .next (s.resumeCrew w) := by
  unfold execCrewAdmit
  simp only [hr, h]

theorem execCrewAdmit_of_resumed {crew : Nat} (h : s.leftBelow r.slot (s.recOrd r) = none) (hc : r.resumed = some crew) :
    execCrewAdmit core s = .next (s.urge (.hw (.crewRestore crew core))) := by
  unfold execCrewAdmit
  simp only [hr, h, hc]

theorem execCrewAdmit_of_range {l : Launch} (h : s.leftBelow r.slot (s.recOrd r) = none) (hc : r.resumed = none)
    (hl : s.cmd.launches.find r.slot = some l) : execCrewAdmit core s =
      .next (((s.withCrew core r l).giveRows core ((List.range l.size).map (l.threadAt s.nextId r.first))).fileAll l.entry
        ((List.range l.size).map (l.threadAt s.nextId r.first))) := by
  unfold execCrewAdmit
  simp only [hr, h]
  split
  · next hsome => exact absurd (hc.symm.trans hsome) nofun
  · next hnone => exact absurd (hl.symm.trans hnone) nofun
  · next hfind =>
    obtain rfl := Option.some.inj (hl.symm.trans hfind)
    rfl

end

theorem State.giveRows_only (s : State) (core : Nat) (ts : List Thread) : ThreadsOnly s (s.giveRows core ts) := by
  induction ts generalizing s with
  | nil => exact .refl s
  | cons t ts ih => exact (ThreadsOnly.setThread s _).trans (ih _)

theorem State.giveRows_find_ne (s : State) (core : Nat) {ts : List Thread} {n : Nat} (h : n ∉ ts.map Thread.id) :
    (s.giveRows core ts).threads.find n = s.threads.find n := by
  induction ts generalizing s with
  | nil => rfl
  | cons t ts ih =>
    rw [List.map_cons, List.mem_cons, not_or] at h
    exact (ih _ h.2).trans (Map.find_insert_ne _ _ h.1)

/-- Each thread stands in the table, in a row. -/
theorem State.giveRows_find (s : State) (core : Nat) {ts : List Thread} (hd : (ts.map Thread.id).Nodup) {t : Thread} (ht : t ∈ ts) :
    ∃ row, (s.giveRows core ts).threads.find t.id = some { t with row := row } := by
  induction ts generalizing s with
  | nil => cases ht
  | cons a ts ih =>
    obtain ⟨ha, hd⟩ := List.nodup_cons.1 hd
    rcases List.mem_cons.1 ht with rfl | ht
    · exact ⟨_, (State.giveRows_find_ne _ core ha).trans (Map.find_insert_self ..)⟩
    · exact ih _ hd ht

theorem State.file_clock (s : State) (tid : Nat) (f : Filing) : (s.file tid f).clock = s.clock := by
  obtain ⟨m, h⟩ := s.file_only tid f
  rw [h]

theorem State.fileAll_only (s : State) (entry : Nat) (ts : List Thread) : ThreadsOnly s (s.fileAll entry ts) :=
  ThreadsOnly.foldl (f := fun s (t : Thread) => s.file t.id (Filing.at' entry 0 s.clock)) (fun s t => s.file_only t.id _) s ts

theorem State.fileAll_cons (s : State) (entry : Nat) (t : Thread) (ts : List Thread) :
    s.fileAll entry (t :: ts) = (s.file t.id (Filing.at' entry 0 s.clock)).fileAll entry ts := rfl

/-- A thread as it is filed at an address, in a bin or on the overflow list. -/
def Thread.filedAt (t : Thread) (entry clock : Nat) (b : Bool) : Thread := { t with place := .filed { Filing.at' entry 0 clock with overflow := b } }

section
variable {s : State} {clock : Nat} (hk : s.clock = clock)
include hk

theorem State.file_filedAt {n entry : Nat} {t : Thread} {b : Bool} (h : s.threads.find n = some (t.filedAt entry clock b)) (tid : Nat) :
    ∃ b', (s.file tid (Filing.at' entry 0 s.clock)).threads.find n = some (t.filedAt entry clock b') := by
  subst hk
  by_cases hn : n = tid
  · subst hn
    exact (s.file_find n _ h).imp fun _ hb => hb
  · cases ht : s.threads.find tid with
    | none => exact ⟨b, by rw [State.file, ht]; exact h⟩
    | some th =>
      rcases s.file_find_other (Filing.at' entry 0 s.clock) ht hn h with hb | ⟨hb, -⟩
      · exact ⟨b, hb⟩
      · exact ⟨false, hb⟩

/-- A filed thread stays filed while others are. -/
theorem State.fileAll_filedAt {n entry : Nat} {t : Thread} (ts : List Thread) {b : Bool} (h : s.threads.find n = some (t.filedAt entry clock b)) :
    ∃ b', (s.fileAll entry ts).threads.find n = some (t.filedAt entry clock b') := by
  induction ts generalizing s b with
  | nil => exact ⟨b, h⟩
  | cons a ts ih =>
    obtain ⟨b', hb⟩ := State.file_filedAt hk h a.id
    exact ih ((State.file_clock ..).trans hk) hb

/-- Every thread of a list that waits nowhere is filed. -/
theorem State.fileAll_find {entry : Nat} {ts : List Thread} {t th : Thread} (ht : t ∈ ts) (h : s.threads.find t.id = some th)
    (hw : th.waits = none) : ∃ b, (s.fileAll entry ts).threads.find t.id = some (th.filedAt entry clock b) := by
  induction ts generalizing s with
  | nil => cases ht
  | cons a ts ih =>
    have hclock := (s.file_clock a.id (Filing.at' entry 0 s.clock)).trans hk
    rw [State.fileAll_cons]
    by_cases ha : t.id = a.id
    · obtain ⟨b, hb⟩ := s.file_find a.id (Filing.at' entry 0 s.clock) (ha ▸ h)
      rw [ha]
      exact State.fileAll_filedAt hclock ts (hb.trans (by rw [hk]; rfl))
    · have hmem : t ∈ ts := (List.mem_cons.1 ht).resolve_left fun e => ha (congrArg Thread.id e)
      exact ih hclock hmem (s.file_find_ne _ ha h hw)

end

theorem Launch.threadAt_nodup (l : Launch) (id ord n : Nat) : (((List.range n).map (l.threadAt id ord)).map Thread.id).Nodup := by
  rw [List.map_map]
  exact List.Nodup.map (fun i j h => by simpa [Launch.threadAt] using h) List.nodup_range

/-- Each thread of an admitted crew is filed at the launch's entry, in a row of the core. -/
theorem State.admitted_find (s : State) (core id ord : Nat) (l : Launch) {i : Nat} (hi : i < l.size) :
    ∃ row b, ((s.giveRows core ((List.range l.size).map (l.threadAt id ord))).fileAll l.entry ((List.range l.size).map (l.threadAt id ord))).threads.find
      (id + 1 + i) = some ({ l.threadAt id ord i with row := row }.filedAt l.entry s.clock b) := by
  have hmem : l.threadAt id ord i ∈ (List.range l.size).map (l.threadAt id ord) := List.mem_map_of_mem (List.mem_range.2 hi)
  obtain ⟨row, hrow⟩ := s.giveRows_find core (l.threadAt_nodup id ord l.size) hmem
  obtain ⟨m, hm⟩ := s.giveRows_only core ((List.range l.size).map (l.threadAt id ord))
  obtain ⟨b, hb⟩ := State.fileAll_find (by rw [hm]) (entry := l.entry) hmem hrow rfl
  exact ⟨row, b, hb⟩

end Sys2Proof.Machine

namespace Sys2Proof.Claims
open Machine

theorem joinDecrementCompletes : JoinDecrementCompletes := by
  intro s w l hw hl
  refine ⟨fun hd h => execJoinDecrement_of_due hw hl hd h, fun hd he hs ht hc => ?_⟩
  refine ⟨_, execJoinDecrement_of_last hw hl hd he hs ht hc, Map.find_erase_self .., State.freeCrew_threads _ w, fun k hk => ?_,
    List.mem_append_right _ List.mem_cons_self, rfl⟩
  have hk : (s.exitFlush w).cmd.launches.find w.launch = some k := hk
  exact (Map.find_modify_self (s.exitFlush w).cmd.launches w.launch fun l => { l with decremented := l.decremented + 1 }).trans
    (by rw [hk, Option.map_some])

theorem crewAdmissionCompletes : CrewAdmissionCompletes := by
  intro s core r hr
  refine ⟨fun w => execCrewAdmit_of_left hr, fun crew => execCrewAdmit_of_resumed hr, fun l hleft hres hl => ?_⟩
  let ts := (List.range l.size).map (l.threadAt s.nextId r.first)
  obtain ⟨m, hm⟩ := ((s.withCrew core r l).giveRows_only core ts).trans (State.fileAll_only _ l.entry ts)
  refine ⟨_, l.crewAt s.nextId core r.first, execCrewAdmit_of_range hr hleft hres hl, ?_, rfl, rfl, rfl, rfl, rfl, rfl, rfl, rfl, fun i hi => ?_, ?_, ?_⟩
  · rw [hm]
    exact Map.find_insert_self ..
  · obtain ⟨row, b, hfind⟩ := (s.withCrew core r l).admitted_find core s.nextId r.first l hi
    exact ⟨⟨_, _, hfind, rfl, rfl, rfl, rfl, rfl⟩, _, hfind, rfl, rfl, rfl, rfl⟩
  · rw [hm]
    rfl
  · rw [hm]
    rfl

theorem stealingTakesTheUpperHalf : StealingTakesTheUpperHalf := by
  intro s die core r hmaster hcore hcan hnone hsteal keep
  have hstarved : s.starved die = true := by
    simp only [State.starved, hmaster, Bool.not_false, Bool.true_and, List.any_eq_true, Bool.and_eq_true, Bool.not_eq_true', List.any_eq_false,
      Bool.not_eq_true]
    exact ⟨core, hcore, hcan, hnone⟩
  have hstealable : s.stealable die = some r := hsteal
  have hnext : execSteal die s = .next (s.modCmd fun c => { c with records := (c.records.flatMap fun q => if q = r then [{ r with count := keep }] else [q]) ++
      [{ r with die := die, first := r.first + r.stride * keep, count := r.count - keep }] }) := by
    unfold execSteal
    simp only [hstarved, hstealable, Bool.not_true, Bool.false_eq_true, if_false]
    rfl
  exact ⟨_, hnext, rfl, _, rfl⟩

/-- Settles O43: the branches of the three steps, and the threads of an admitted crew, which are made in their rows and then filed one by one. -/
theorem crewStepsComplete : Obligations.CrewStepsComplete := ⟨joinDecrementCompletes, crewAdmissionCompletes, stealingTakesTheUpperHalf⟩

end Sys2Proof.Claims
end

section
/-! SUPPORT. Drawing cohorts, aged and late bins, and the trace buffer; the statement about them, settled. -/

namespace Sys2Proof.Machine
open Sys2Proof.Claims

/-! ### A draw (R75, R78, R220) -/

/-- Where a context's translations are all made from one root, none is dropped for it. -/
theorem State.dropRoot_of_current {s : State} {ctx : Nat} {ptroot : Dword}
    (h : ∀ e ∈ s.coh.tlb ++ s.coh.lastPage.vals, e.ctx = ctx → e.root = ptroot.toNat) : s.dropRoot ctx ptroot = s := by
  have hnone : (s.coh.tlb ++ s.coh.lastPage.vals).filter (fun e => e.ctx == ctx && e.root != ptroot.toNat) = [] := by
    rw [List.filter_eq_nil_iff]
    intro e he hd
    simp only [Bool.and_eq_true, beq_iff_eq, bne_iff_ne] at hd
    exact hd.2 (h e he hd.1)
  unfold State.dropRoot State.forgetAll
  rw [hnone]
  rfl

/-- The threads that a draw takes: of those that arrived first, the ones whose saved sleep is the first one's. -/
def WaitGroup.drawn (g : WaitGroup) : List Waiter := g.take.filter fun w => w.2.2.sleep == (g.take.head?.map fun w => w.2.2.sleep).getD 0

/-- The cohort that a draw makes of them. -/
def State.drawnCohort (s : State) (core port : Nat) (g : WaitGroup) : Cohort :=
  let sleep := (g.take.head?.map fun w => w.2.2.sleep).getD 0
  let lanes := g.drawn.map fun w =>
    (⟨w.1.lane, w.1.id, w.2.2.skipTo, if g.key.resume.isSome then w.2.2.tag else 0, [], [], none, false, none, 0⟩ : Lane)
  let base : Cohort :=
    { id := s.nextId, core := core, port := port, crew := g.key.crew, st := .trc, hdr := g.key.next, pc := g.key.next, irr := true,
      full := false, traceId := 0, budget := 0, len := 0, drawnFull := g.drawn.length == 32, group := 0, lanes := lanes,
      snap := s.regsOf (s.ctxOf g.key.crew), readSet := [], broken := [], pend := [], nextIssue := s.clock + 1, yieldFor := [], tb := 0, waits := [],
      rexec := [], code := none, pushed := 0, xops := none }
  match g.key.resume with
  | none => base
  | some r => { base with
      st := if sleep > 0 then .asleep (((s.crews.find g.key.crew).map (·.clk)).getD 0 + sleep) else .ready
      hdr := r.hdr, pc := r.addr, irr := r.irr, full := r.full, traceId := r.traceId, budget := r.budget, len := r.len
      group := r.group, drawnFull := r.drawnFull || g.drawn.length == 32 }

/-- Threads stand in a cohort. -/
def State.inCohort (s : State) (id : Nat) (ws : List Waiter) : State := ws.foldl (fun s w => s.setThread { w.1 with place := .inCohort id }) s

theorem State.makeCohort_eq (s : State) (core port : Nat) (g : WaitGroup) : s.makeCohort core port g =
    { (((s.inCohort s.nextId g.drawn).dropFetched (headId g.key.crew)).setCohort (s.drawnCohort core port g)) with nextId := s.nextId + 1 } := rfl

theorem State.drawnCohort_always (s : State) (core port : Nat) (g : WaitGroup) : (s.drawnCohort core port g).id = s.nextId ∧
    (s.drawnCohort core port g).core = core ∧ (s.drawnCohort core port g).port = port ∧ (s.drawnCohort core port g).crew = g.key.crew ∧
    (s.drawnCohort core port g).lanes.map (·.tid) = g.drawn.map (·.1.id) ∧ (s.drawnCohort core port g).lanes.map (·.pos) = g.drawn.map (·.1.lane) ∧
    (s.drawnCohort core port g).snap = s.regsOf (s.ctxOf g.key.crew) := by
  unfold State.drawnCohort
  cases g.key.resume <;> exact ⟨rfl, rfl, rfl, rfl, List.map_map .., List.map_map .., rfl⟩

theorem State.drawnCohort_of_fresh {g : WaitGroup} (h : g.key.resume = none) (s : State) (core port : Nat) :
    (s.drawnCohort core port g).st = .trc ∧ (s.drawnCohort core port g).pc = g.key.next ∧
      (s.drawnCohort core port g).drawnFull = (g.drawn.length == 32) := by
  unfold State.drawnCohort
  rw [h]
  exact ⟨rfl, rfl, rfl⟩

theorem State.drawnCohort_of_resume {g : WaitGroup} {r : Resume} (h : g.key.resume = some r) (s : State) (core port : Nat) :
    (s.drawnCohort core port g).pc = r.addr ∧ (s.drawnCohort core port g).hdr = r.hdr ∧ (s.drawnCohort core port g).irr = r.irr ∧
      (s.drawnCohort core port g).traceId = r.traceId ∧ (s.drawnCohort core port g).len = r.len := by
  unfold State.drawnCohort
  rw [h]
  exact ⟨rfl, rfl, rfl, rfl, rfl⟩

theorem State.inCohort_only (s : State) (id : Nat) (ws : List Waiter) : ThreadsOnly s (s.inCohort id ws) :=
  ThreadsOnly.foldl (f := fun s (w : Waiter) => s.setThread { w.1 with place := .inCohort id }) (fun s _ => .setThread s _) s ws

/-- A thread that stands in the cohort stays there, whatever others are put into it. -/
theorem State.inCohort_stays {s : State} {id n : Nat} {th : Thread} (ws : List Waiter) (h : s.threads.find n = some th) (hp : th.place = .inCohort id) :
    ∃ th', (s.inCohort id ws).threads.find n = some th' ∧ th'.place = .inCohort id := by
  induction ws generalizing s th with
  | nil => exact ⟨th, h, hp⟩
  | cons w ws ih =>
    by_cases hn : n = w.1.id
    · subst hn
      exact ih (s := s.setThread { w.1 with place := .inCohort id }) (Map.find_insert_self ..) rfl
    · exact ih (s := s.setThread { w.1 with place := .inCohort id }) ((Map.find_insert_ne _ _ hn).trans h) hp

theorem State.inCohort_find (s : State) (id : Nat) {ws : List Waiter} {w : Waiter} (hw : w ∈ ws) :
    ∃ th, (s.inCohort id ws).threads.find w.1.id = some th ∧ th.place = .inCohort id := by
  induction ws generalizing s with
  | nil => cases hw
  | cons a ws ih =>
    rcases List.mem_cons.1 hw with rfl | hw
    · exact State.inCohort_stays (s := s.setThread { w.1 with place := .inCohort id }) ws (Map.find_insert_self ..) rfl
    · exact ih (s.setThread { a.1 with place := .inCohort id }) hw

/-! ### What a core draws (R77, R78) -/

/-- The ports below a number draw, one after the other. -/
def State.drawPorts (s : State) (core p : Nat) : State :=
  (List.range p).foldl (init := s) fun s port =>
    if s.portLoad core port ≥ 16 then s
    else match s.pickGroup core with
      | some g => s.draw core port g
      | none => s

theorem State.drawPorts_succ (s : State) (core p : Nat) : s.drawPorts core (p + 1) =
    if (s.drawPorts core p).portLoad core p ≥ 16 then s.drawPorts core p
    else match (s.drawPorts core p).pickGroup core with
      | some g => (s.drawPorts core p).draw core p g
      | none => s.drawPorts core p := by
  unfold State.drawPorts
  rw [List.range_succ, List.foldl_append]
  rfl

theorem firstBy_ne_none {α : Type} {before : α → α → Bool} {l : List α} {a : α} (h : a ∈ l) : firstBy before l ≠ none := by
  cases l with
  | nil => cases h
  | cons x xs =>
    unfold firstBy
    cases firstBy before xs with
    | none => nofun
    | some y => dsimp only; split <;> nofun

/-- A group is drawn where a bin of a running crew is full, or has aged in a trace known to be without F. -/
theorem State.pickGroup_ne_none {s : State} {core : Nat} {g : WaitGroup} (hg : g ∈ s.groupsOn core)
    (hr : (s.crews.find g.key.crew).any (·.running) = true) (ho : g.overflow = false)
    (h : g.full = true ∨ s.keyKnown g.key = true ∧ s.keyFull g.key = false ∧ s.aged g = true) : s.pickGroup core ≠ none := by
  have hgs : g ∈ (s.groupsOn core).filter fun g => (s.crews.find g.key.crew).any (·.running) := List.mem_filter.2 ⟨hg, hr⟩
  unfold State.pickGroup
  rw [ne_eq, Option.or_eq_none_iff, not_and_or]
  by_cases hfull : g.full = true
  · exact .inl (firstBy_ne_none (List.mem_filter.2 ⟨hgs, by simp [hfull, ho]⟩))
  · obtain ⟨hknown, hplain, haged⟩ := h.resolve_left hfull
    exact .inr (firstBy_ne_none (List.mem_append_left _ (List.mem_filter.2 ⟨hgs, by simp [hfull, ho, hknown, hplain, haged]⟩)))

theorem execFullcohortTimeout_of_late {s : State} {core : Nat} {g : WaitGroup} {t : Thread}
    (hg : (s.groupsOn core).find? (fun g => s.keyFull g.key && !g.full && s.clock ≥ g.oldest + 2 ^ 20) = some g) (ht : s.groupTop g = some t) :
    ∃ id addr, execFullcohortTimeout core s = .next (s.terminateBy (s.recordOf .fullcohort t core id 0 addr)) := by
  unfold execFullcohortTimeout
  simp only [hg, ht]
  exact ⟨_, _, rfl⟩

/-! ### The trace buffer (R102) -/

theorem State.byPrec_singleton (s : State) (c : Cohort) : s.byPrec 1 [c] = [c] := rfl

theorem execTraceBufferGrant_of_one {s : State} {core : Nat} {c : Cohort}
    (h : s.cohorts.vals.filter (fun k => k.core == core && k.st == .buffer) = [c]) : execTraceBufferGrant core s =
      .next (if ((s.cohorts.vals.filter fun k => k.core == core).map (·.tb)).sum + 32 * c.budget > 8192 then s
        else s.modCohort c.id fun k => { k with tb := 32 * c.budget, st := .ready }) := by
  unfold execTraceBufferGrant
  simp only [h, List.length_singleton, State.byPrec_singleton]
  rfl

end Sys2Proof.Machine

namespace Sys2Proof.Claims
open Machine

theorem drawMakesACohort : DrawMakesACohort := by
  intro r s core port g hs
  refine ⟨fun h => hs ▸ State.dropRoot_of_current h, ?_⟩
  intro sleep ws t
  have ht : t = _ := (congrArg (State.makeCohort · core port g) hs).trans (s.makeCohort_eq core port g)
  obtain ⟨hid, hcore, hport, hcrew, htids, hpos, hsnap⟩ := s.drawnCohort_always core port g
  obtain ⟨m, hm⟩ := s.inCohort_only s.nextId g.drawn
  rw [ht]
  refine ⟨rfl, ⟨s.drawnCohort core port g, ?_, hcore, hport, hcrew, htids, hpos, hsnap, fun h => s.drawnCohort_of_fresh h core port,
    fun r h => s.drawnCohort_of_resume h core port⟩, fun n hn => ?_, fun w => s.inCohort_find s.nextId, ?_, ?_⟩
  · exact hid ▸ Map.find_insert_self ..
  · rw [hm]
    exact Map.find_insert_ne _ _ (hid ▸ hn)
  · rw [hm]
    rfl
  · rw [hm]
    rfl

theorem drawsOfACoreComplete : DrawsOfACoreComplete := by
  intro s core
  refine ⟨⟨s.drawPorts core, rfl, rfl, fun p _ => ⟨fun h => ?_, fun g hload hpick => ?_⟩⟩, fun g => State.pickGroup_ne_none, fun h => ?_, fun g t hg ht => ?_⟩
  · rw [State.drawPorts_succ]
    rcases h with h | h
    · exact if_pos h
    · simp only [h, ite_self]
  · rw [State.drawPorts_succ, if_neg (Nat.not_le.2 hload), hpick]
  · exact congrArg Host.Outcome.next (if_pos (Option.isSome_iff_ne_none.2 h))
  · obtain ⟨id, addr, hnext⟩ := execFullcohortTimeout_of_late hg ht
    exact ⟨_, _, hnext, State.report_mem_agenda .., rfl, rfl, rfl, rfl, rfl⟩

theorem traceBufferIsGranted : TraceBufferIsGranted := by
  intro s core c hone hc used
  have hfind := Map.find_modify_self s.cohorts c.id fun k => { k with tb := 32 * c.budget, st := .ready }
  rw [hc, Option.map_some] at hfind
  exact ⟨fun h => ⟨_, (execTraceBufferGrant_of_one hone).trans (congrArg Host.Outcome.next (if_neg (Nat.not_lt.2 h))), hfind⟩,
    fun h => (execTraceBufferGrant_of_one hone).trans (congrArg Host.Outcome.next (if_pos h))⟩

/-- Settles O41: the cohort that a draw makes and the threads put into it; the ports' draws one by one; the one cohort that waits for the buffer. -/
theorem drawingStepsComplete : Obligations.DrawingStepsComplete := ⟨drawMakesACohort, drawsOfACoreComplete, traceBufferIsGranted⟩

end Sys2Proof.Claims
end


section
/-! SUPPORT. The statement about the commits, refuted. -/

namespace Sys2Proof.Claims
open Machine

/-- A relaxed store of the word 7 to address 0x100 by thread 2, of device scope. -/
def crowdedStore : MemEff := ⟨0, 1, 2, 0, 0, 0x100, [7, 0, 0, 0], .store, .rlx, .dev, .sync⟩

/-- A lane before its commit point that has buffered the store, with all 256 entries of its core's side log reserved in its name. -/
def crowdedLane : Lane := ⟨0, 2, 0, 0, [.mem crowdedStore 0x100 .clean], [], none, false, none, 256⟩

/-- The placed cohort, in a revocable trace of one instruction, with that lane. -/
def crowdedCohort : Cohort := { placedCohort 0 0 with irr := false, len := 1, lanes := [crowdedLane] }

/-- The state in which that cohort's turn at its commit has come. -/
def crowdedState : State :=
  let s := State.reset.placeWord 0
  { s with cur := some 3, agenda := [], cohorts := s.cohorts.insert 3 crowdedCohort }

/-- COMMIT.NEXT without moves. -/
def crowdedCommit : Commit := ⟨Pred.always, 0, 0, 0, 0, 0, none, none, 0, 0⟩

/-- The state past the commit point, where the statement translates the store's address. -/
def crowdedPast : State := ((begun crowdedState).modThread 2 fun t => { t with jewelUsed := false, resvLost := false }).modLane 3 2 fun k =>
  { k with past := true, logRes := 1 }

/-- The key of a translation that a place was found for. -/
def placeKey : Reach × State → Option Nat
  | (.go key _ _, _) => some key
  | _ => none

/-- Whether the cohort is still there when an instruction has been executed. -/
def cohortStays (n : Nat) : Host.Outcome State Fault Refusal → Bool
  | .next t => (t.cohorts.find n).isSome
  | _ => false

theorem crowded_issues : Issues crowdedState crowdedCohort := by decide +kernel

theorem crowded_threads : crowdedState.threads.find 2 = some placedThread := by decide +kernel

theorem crowded_quiet : Quiet crowdedState := ⟨by decide +kernel, by decide +kernel, by decide +kernel⟩

theorem crowded_sound : Sound crowdedState := ⟨by decide +kernel, by decide +kernel, by decide +kernel, by decide +kernel⟩

theorem crowded_past : ∀ d ∈ crowdedState.cohorts.vals, ∀ r ∈ d.lanes, r.past = false := by decide +kernel

theorem crowded_reaches : placeKey (crowdedPast.reach crowdedCohort 0 0x100 .write) = some 0x100 := by decide +kernel

theorem crowded_unstalled : (crowdedPast.reach crowdedCohort 0 0x100 .write).2.stalled 2 0x100 4 = false ∧
    (crowdedPast.reach crowdedCohort 0 0x100 .write).2.remoteKey 0x100 = false := by decide +kernel

/-- No entry of the side log is left for the store, so the cohort is held before its commit point. -/
theorem crowded_stays : cohortStays 3 (exec (.commitNext crowdedCommit) crowdedState) = true := by decide +kernel

/-- A translation with a place and its parts. -/
theorem reached_of_placeKey {r : Reach × State} {key : Nat} (h : placeKey r = some key) : ∃ pte unit, r = (.go key pte unit, r.2) := by
  obtain ⟨q, u⟩ := r
  cases q with
  | go k pte unit => exact ⟨pte, unit, by rw [Option.some.inj h]⟩
  | _ => exact nomatch h

/-- Refutes O21: `CommittedStoreIsInMemory` does not ask for room in the side log. In `crowdedState` every lane is before its commit point, and one
reserves all 256 entries of its core, so its COMMIT.NEXT waits for an entry and its cohort stays, which the statement denies. -/
theorem not_commitsComplete : ¬Obligations.CommitsComplete := by
  intro ⟨_, _, _, _, _, _, h⟩
  obtain ⟨pte, unit, hreach⟩ := reached_of_placeKey crowded_reaches
  obtain ⟨hstall, hremote⟩ := crowded_unstalled
  obtain ⟨t, he, -, -, -, hgone⟩ := h crowdedState _ crowdedCohort crowdedLane placedThread crowdedCommit crowdedStore 0x100 0x100 unit pte
    crowded_issues rfl rfl rfl rfl rfl rfl (by decide) (by decide) crowded_quiet crowded_sound (by decide +kernel) (by decide +kernel)
    (by decide +kernel) crowded_past crowded_threads rfl rfl (.inr rfl) rfl rfl hreach hstall hremote
  have hstays := crowded_stays
  rw [he] at hstays
  have hfound : (t.cohorts.find 3).isSome = true := hstays
  rw [show t.cohorts.find 3 = none from hgone] at hfound
  exact nomatch hfound

end Sys2Proof.Claims
end


section
/-! SUPPORT. What translating an address, reading a home and flushing buffers leave as it is: no page changes its bias, and where no write is under way
none comes to be and memory stays. One lemma for each operation of memory that they are made of; each unfolds that one operation and goes by the lemmas
of the operations that it calls. -/

namespace Sys2Proof.Claims
open Machine

/-- The bias of the pages is as it was; and, where `q` holds, no write has come under way where none was, and memory is as it was then. An operation
that lands writes at their homes keeps for `q := False` alone. -/
structure Keeps (q : Prop) (s t : State) : Prop where
  bias : t.coh.bias = s.coh.bias
  quiet : q → Quiet s → Quiet t ∧ t.mem = s.mem

namespace Keeps

variable {q : Prop} {s t u : State}

theorem refl (s : State) : Keeps q s s := ⟨rfl, fun _ h => ⟨h, rfl⟩⟩

theorem trans (h : Keeps q s t) (g : Keeps q t u) : Keeps q s u :=
  ⟨g.bias.trans h.bias, fun k hs => ⟨(g.quiet k (h.quiet k hs).1).1, (g.quiet k (h.quiet k hs).1).2.trans (h.quiet k hs).2⟩⟩

/-- An operation that lands writes, of which a quiet state holds none. -/
theorem still (h : Keeps q s t) (hu : Keeps False t u) (hq : Quiet t → u = t) : Keeps q s u :=
  h.trans ⟨hu.bias, fun _ ht => by rw [hq ht]; exact ⟨ht, rfl⟩⟩

/-- What an operation that lands writes makes, as to the bias. -/
theorem lands (h : Keeps False s t) (hu : u.coh.bias = t.coh.bias) : Keeps False s u := ⟨hu.trans h.bias, nofun⟩

/-! ### Folds and choices -/

theorem foldl {α : Type} {f : State → α → State} {l : List α} (hf : ∀ t a, Keeps q s t → Keeps q s (f t a)) (h : Keeps q s t) :
    Keeps q s (l.foldl f t) := by
  induction l generalizing t with
  | nil => exact h
  | cons a l ih => exact ih (hf t a h)

theorem ite {p : Prop} [Decidable p] (ht : Keeps q s t) (hu : Keeps q s u) : Keeps q s (if p then t else u) := by
  split
  · exact ht
  · exact hu

/-- The state of a pair is the state of what the pair is matched with. -/
theorem of_eq {α : Type} {p : α × State} {a : α} (h : Keeps q s p.2) (e : p = (a, t)) : Keeps q s t := by
  subst e; exact h

/-! ### Changes of one part of the state -/

theorem modCoh {f : Coh → Coh} (hf : ∀ c, (f c).bias = c.bias ∧ (f c).dieWrites = c.dieWrites ∧ (f c).halves = c.halves) (h : Keeps q s t) :
    Keeps q s (t.modCoh f) := by
  obtain ⟨hb, hd, hh⟩ := hf t.coh
  exact h.trans ⟨hb, fun _ ⟨d, e, g⟩ => ⟨⟨hd.trans d, hh.trans e, g⟩, rfl⟩⟩

theorem modEng {f : Engines → Engines} (hf : ∀ g, g.quantum = [] → (f g).quantum = []) (h : Keeps q s t) : Keeps q s (t.modEng f) :=
  h.trans ⟨rfl, fun _ ⟨d, e, g⟩ => ⟨⟨d, e, hf _ g⟩, rfl⟩⟩

theorem modPkg {f : Package → Package} (h : Keeps q s t) : Keeps q s (t.modPkg f) := h.trans ⟨rfl, fun _ ⟨d, e, g⟩ => ⟨⟨d, e, g⟩, rfl⟩⟩

theorem modThread {n : Nat} {f : Thread → Thread} (h : Keeps q s t) : Keeps q s (t.modThread n f) :=
  h.trans ⟨rfl, fun _ ⟨d, e, g⟩ => ⟨⟨d, e, g⟩, rfl⟩⟩

theorem withCohorts {m : Map Cohort} (h : Keeps q s t) : Keeps q s { t with cohorts := m } :=
  h.trans ⟨rfl, fun _ ⟨d, e, g⟩ => ⟨⟨d, e, g⟩, rfl⟩⟩

theorem withCrews {m : Map Crew} (h : Keeps q s t) : Keeps q s { t with crews := m } :=
  h.trans ⟨rfl, fun _ ⟨d, e, g⟩ => ⟨⟨d, e, g⟩, rfl⟩⟩

theorem withNextId {n : Nat} (h : Keeps q s t) : Keeps q s { t with nextId := n } :=
  h.trans ⟨rfl, fun _ ⟨d, e, g⟩ => ⟨⟨d, e, g⟩, rfl⟩⟩

theorem setV {tid n : Nat} {w : Word} (h : Keeps q s t) : Keeps q s (t.setV tid n w) := h.trans ⟨rfl, fun _ ⟨d, e, g⟩ => ⟨⟨d, e, g⟩, rfl⟩⟩

theorem post {a : Turn} (h : Keeps q s t) : Keeps q s (t.post a) := h.trans ⟨rfl, fun _ ⟨d, e, g⟩ => ⟨⟨d, e, g⟩, rfl⟩⟩

theorem urge {a : Turn} (h : Keeps q s t) : Keeps q s (t.urge a) := h.trans ⟨rfl, fun _ ⟨d, e, g⟩ => ⟨⟨d, e, g⟩, rfl⟩⟩

theorem postAll {l : List Turn} (h : Keeps q s t) : Keeps q s (t.postAll l) := h.trans ⟨rfl, fun _ ⟨d, e, g⟩ => ⟨⟨d, e, g⟩, rfl⟩⟩

theorem drawNat (h : Keeps q s t) : Keeps q s t.drawNat.2 := h.trans ⟨rfl, fun _ ⟨d, e, g⟩ => ⟨⟨d, e, g⟩, rfl⟩⟩

/-! ### Tokens, translation caches and messages -/

theorem setUnit {sec : Nat} {v : CohUnit} (h : Keeps q s t) : Keeps q s (t.setUnit sec v) := modCoh (fun _ => ⟨rfl, rfl, rfl⟩) h

theorem noteFmt {key pte : Nat} (h : Keeps q s t) : Keeps q s (t.noteFmt key pte) := ite h (modCoh (fun _ => ⟨rfl, rfl, rfl⟩) h)

theorem trimL2 {slice set : Nat} (h : Keeps q s t) : Keeps q s (t.trimL2 slice set) := ite h (urge h)

theorem divert {core : Nat} {es : List MemEff} {unit : Option Nat} (h : Keeps q s t) : Keeps q s (t.divert core es unit) :=
  postAll (modEng (fun _ => id) h)

theorem sendFlit {port : Nat} {cls : BitVec 8} {b : FlitBody} (h : Keeps q s t) : Keeps q s (t.sendFlit port cls b) := by
  unfold State.sendFlit
  exact modPkg h

theorem toPeer {id : Nat} {r : Remote} (h : Keeps q s t) : Keeps q s (t.toPeer id r) := by
  unfold State.toPeer
  split
  · exact h
  · exact foldl (fun _ _ => sendFlit) h

theorem sendRemote {r : Remote} (h : Keeps q s t) : Keeps q s (t.sendRemote r).2 := by
  have hs : Keeps q s { t.modCoh (fun c => { c with remote := c.remote.insert t.nextId r }) with nextId := t.nextId + 1 } :=
    withNextId (modCoh (fun _ => ⟨rfl, rfl, rfl⟩) h)
  exact ite (toPeer hs) hs

theorem sendWrite {agent : Nat} {e : MemEff} {key : Nat} {watch : Bool} (h : Keeps q s t) : Keeps q s (t.sendWrite agent e key watch) := sendRemote h

theorem askHost {agent sec : Nat} (h : Keeps q s t) : Keeps q s (t.askHost agent sec) := ite h (sendRemote h)

theorem moveQuantum {core : Nat} {hit : MemEff → Bool} {unit : Option Nat} (h : Keeps q s t) : Keeps q s (t.moveQuantum core hit unit) :=
  ite h (divert (modEng (fun g hg => by simp [hg]) h))

theorem cancelRemote {id : Nat} {r : Remote} {hit : MemEff → Bool} {hitVa : Nat → Bool} {unit : Option Nat} (h : Keeps q s t) :
    Keeps q s (t.cancelRemote id r hit hitVa unit) := by
  have herased : Keeps q s (t.modCoh fun c => { c with remote := c.remote.erase id }) := modCoh (fun _ => ⟨rfl, rfl, rfl⟩) h
  have hagain : Keeps q s ((t.modCoh fun c => { c with remote := c.remote.insert id { r with gone := true } }).post (.reissue id)) :=
    post (modCoh (fun _ => ⟨rfl, rfl, rfl⟩) h)
  unfold State.cancelRemote
  dsimp only
  split
  · exact ite herased h
  · refine ite h ?_
    split
    · exact ite hagain (divert herased)
    · exact hagain
  · exact ite hagain h
  · exact h

theorem dropTrans {agent : Nat} {p : TlbEntry → Bool} {unit : Option Nat} (h : Keeps q s t) : Keeps q s (t.dropTrans agent p unit) := by
  unfold State.dropTrans
  refine ite h (modCoh (fun _ => ⟨rfl, rfl, rfl⟩) (foldl (fun _ _ k => ite (cancelRemote k) k) ?_))
  split
  · exact h
  · exact moveQuantum (withCohorts h)

theorem surrender {sec agent : Nat} (h : Keeps q s t) : Keeps q s (t.surrender sec agent) := ite (dropTrans h) h

theorem rouse {agent : Nat} (h : Keeps q s t) : Keeps q s (t.rouse agent) := by
  unfold State.rouse
  split
  · exact ite h (urge h)
  · exact h

theorem gatherSec {writer sec : Nat} (h : Keeps q s t) : Keeps q s (t.gatherSec writer sec) :=
  ite h (setUnit (modCoh (fun _ => ⟨rfl, rfl, rfl⟩) (foldl (fun _ _ k => rouse (surrender k)) h)))

theorem gather {sec writer : Nat} (h : Keeps q s t) : Keeps q s (t.gather sec writer) := foldl (fun _ _ => gatherSec) h

/-! ### Damage and the reads of a home -/

theorem injectAt {kinds : List Nat} {sec : Nat} (h : Keeps q s t) : Keeps q s (t.injectAt kinds sec) := foldl (fun _ _ => urge) h

theorem poisonSecs {f : Finder} {secs : List Nat} (h : Keeps q s t) : Keeps q s (t.poisonSecs f secs) := modCoh (fun _ => ⟨rfl, rfl, rfl⟩) h

theorem probeHarm {crc : Bool} {sec : Nat} (h : Keeps q s t) : Keeps q s (t.probeHarm crc sec) := by
  have hclear : Keeps q s (t.modCoh fun c => { c with harm := c.harm.erase sec }) := modCoh (fun _ => ⟨rfl, rfl, rfl⟩) h
  have hlast {v : State} {p : Prop} [Decidable p] (k : Keeps q s v) : Keeps q s (if p then v.poisonSecs .check [sec] else v) := ite (poisonSecs k) k
  unfold State.probeHarm
  refine hlast ?_
  split
  · exact h
  · exact hclear
  · exact ite (poisonSecs hclear) (urge hclear)
  · exact ite h (poisonSecs hclear)

theorem wakeHome {a : Nat} (h : Keeps q s t) : Keeps q s (t.wakeHome a) := ite h (modPkg h)

theorem fillSec {mod : Bool} {sec : Nat} (h : Keeps q s t) : Keeps q s (t.fillSec mod sec) := by
  have hfill (b : Block) : Keeps q s (t.modCoh fun c => { c with blocks := c.blocks.insert (sec / 16) b }) := modCoh (fun _ => ⟨rfl, rfl, rfl⟩) h
  exact ite (hfill _) (trimL2 (hfill _))

theorem fetchUnits {secs : List Nat} (h : Keeps q s t) : Keeps q s (t.fetchUnits secs) := foldl (fun _ _ k => ite k (fillSec (probeHarm k))) h

theorem sendReport {r : Report} (h : Keeps q s t) : Keeps q s (t.sendReport r) := by
  unfold State.sendReport
  split
  · exact post (modPkg h)
  · exact post (modPkg (withCrews (modPkg h)))

theorem detect {sec : Nat} {f : Finder} (h : Keeps q s t) : Keeps q s (t.detect sec f) := sendReport h

theorem checkSecs {crc : Bool} {secs : List Nat} (h : Keeps q s t) : Keeps q s (t.checkSecs crc secs).2 := foldl (fun _ _ => probeHarm) h

theorem inspect {crc : Bool} {secs : List Nat} (h : Keeps q s t) : Keeps q s (t.inspect crc secs) := by
  have hc := h.checkSecs (crc := crc) (secs := secs)
  unfold State.inspect
  split
  · next e => exact detect (hc.of_eq e)
  · next e => exact hc.of_eq e

theorem mergeCheck {a n : Nat} (h : Keeps q s t) : Keeps q s (t.mergeCheck a n).2 := by
  unfold State.mergeCheck
  split
  · exact h
  · exact checkSecs h

theorem readHome {a n : Nat} (h : Keeps q s t) : Keeps q s (t.readHome a n) :=
  ite (fetchUnits (inspect (foldl (fun _ _ => probeHarm) (wakeHome h)))) h

/-! ### Writes at their home -/

theorem noteWrite {tid key n : Nat} (h : Keeps q s t) : Keeps q s (t.noteWrite tid key n) := ite h (modCoh (fun _ => ⟨rfl, rfl, rfl⟩) h)

theorem noteRead {tid key n : Nat} (h : Keeps q s t) : Keeps q s (t.noteRead tid key n) := ite h (modThread h)

theorem wakeAt {a n : Nat} (h : Keeps q s t) : Keeps q s (t.wakeAt a n) := postAll (ite h (modEng (fun _ => id) h))

theorem failResv {a n : Nat} (h : Keeps q s t) : Keeps q s (t.failResv a n) := withCohorts h

theorem wakeOps {a n : Nat} (h : Keeps q s t) : Keeps q s (t.wakeOps a n) := by
  unfold State.wakeOps
  exact modEng (fun _ => id) h

theorem tagBlock {a : Nat} {w : Option Writer} (h : Keeps q s t) : Keeps q s (t.tagBlock a w) := ite (modCoh (fun _ => ⟨rfl, rfl, rfl⟩) (fillSec h)) h

theorem landPiece {a : Nat} {bs : List Byte} {w : Option Writer} (h : Keeps False s t) : Keeps False s (t.landPiece a bs w) := by
  have hunit : Keeps False s ((t.wakeHome a).gather (sectorOf a) (proxyAgent (homeDie a))) := gather (wakeHome h)
  have hfetched := ite (p := a < hbmEnd) (fetchUnits (secs := ((t.wakeHome a).gather (sectorOf a) (proxyAgent (homeDie a))).unitSecs (sectorOf a)) hunit) hunit
  exact ite hfetched (injectAt (tagBlock ((modCoh (fun _ => ⟨rfl, rfl, rfl⟩) hfetched).lands rfl)))

theorem landBytes {a : Nat} {bs : List Byte} {w : Option Writer} (h : Keeps False s t) : Keeps False s (t.landBytes a bs w) :=
  wakeAt (wakeOps (failResv (foldl (fun _ _ => landPiece) h)))

theorem landDie {w : DieWrite} (h : Keeps False s t) : Keeps False s (t.landDie w) := by
  have hc := h.mergeCheck (a := w.pa) (n := w.bytes.length)
  have hkeep {v : State} (k : Keeps False s v) : Keeps False s (v.modCoh fun c => { c with dieWrites := c.dieWrites ++ [w] }) := k.lands rfl
  unfold State.landDie
  refine ite (hkeep h) (ite ?_ ?_)
  · split
    · exact ite h (ite (hkeep h) (divert h))
    · exact h
  · split
    · next e => exact hkeep (detect (hc.of_eq e))
    · next e => exact landBytes (hc.of_eq e)

theorem flushDies {p : DieWrite → Bool} (h : Keeps q s t) : Keeps q s (t.flushDies p) :=
  h.still (ite (refl t) (foldl (fun _ _ => landDie) ((refl t).lands rfl))) fun ⟨hd, _, _⟩ => if_pos (by simp [hd])

theorem flushUnits {a n : Nat} (h : Keeps q s t) : Keeps q s (t.flushUnits a n) := flushDies h

theorem countWrite {a : Nat} {w : Writer} (h : Keeps False s t) : Keeps False s (t.countWrite a w) := landBytes (inspect (flushUnits h))

theorem land {a : Nat} {bs : List Byte} {w : Writer} {watch : Bool} (h : Keeps False s t) : Keeps False s (t.land a bs w watch) :=
  landBytes (ite (countWrite h) h)

theorem returnHalf {e : Half} {old : Nat} (h : Keeps q s t) : Keeps q s (t.returnHalf e old) := by
  unfold State.returnHalf
  split
  · exact h
  · exact ite (setV (noteRead h)) (withCohorts (setV (noteRead h)))

theorem landHalf {e : Half} (h : Keeps False s t) : Keeps False s (t.landHalf e) := by
  have hc := h.mergeCheck (a := e.pa) (n := 2)
  have hkeep {v : State} (k : Keeps False s v) : Keeps False s (v.modCoh fun c => { c with halves := c.halves ++ [e] }) := k.lands rfl
  unfold State.landHalf
  refine ite (hkeep h) (ite ?_ ?_)
  · split
    · exact ite h (ite (hkeep h) (divert h))
    · exact h
  · split
    · next e => exact hkeep (detect (hc.of_eq e))
    · next e => exact returnHalf (landBytes (flushUnits (hc.of_eq e)))

theorem flushHalves {p : Half → Bool} (h : Keeps q s t) : Keeps q s (t.flushHalves p) :=
  h.still (ite (refl t) (foldl (fun _ _ => landHalf) ((refl t).lands rfl))) fun ⟨_, hh, _⟩ => if_pos (by simp [hh])

theorem performHalf {req tid a e : Nat} {w : Writer} {eff : Option (Nat × MemEff)} {ret : Option (Nat × Nat)} {watch : Bool} (h : Keeps False s t) :
    Keeps False s (t.performHalf req tid a e w eff ret watch) := by
  have hhalf {v : State} {g f : Half} (k : Keeps False s v) : Keeps False s (((v.modCoh fun c => { c with halves := c.halves ++ [g] }).landHalf f).post .half) :=
    post (landHalf (k.lands rfl))
  have hdraw (o : Option Half) : Keeps False s (match o with
      | some h => (if h.pa == a then 1 else 0, t)
      | none => (t.drawNat.1 % 2, t.drawNat.2)).2 := by
    cases o with
    | none => exact drawNat h
    | some _ => exact h
  exact hhalf (flushHalves (ite (countWrite (flushUnits (hdraw _))) (flushUnits (hdraw _))))

/-! ### The quantum buffer -/

theorem refuseEntry {e : QEntry} (h : Keeps False s t) : Keeps False s (t.refuseEntry e) := ite (h.lands rfl) (divert h)

theorem landEntry {e : QEntry} (h : Keeps False s t) : Keeps False s (t.landEntry e) := by
  have hc := h.mergeCheck (a := e.pa) (n := e.eff.bytes.length)
  unfold State.landEntry
  refine ite (refuseEntry h) ?_
  split
  · next e => exact refuseEntry (detect (hc.of_eq e))
  · next e =>
    have hf {p : Half → Bool} {a n : Nat} := (hc.of_eq e).flushUnits (a := a) (n := n) |>.flushHalves (p := p)
    refine noteWrite ?_
    split
    · exact performHalf (withNextId hf)
    · exact land hf
    · exact hf

theorem applyEntry {fuel : Nat} {e : QEntry} (h : Keeps False s t) : Keeps False s (State.applyEntry fuel e t) := by
  induction fuel generalizing e t with
  | zero => exact h
  | succ fuel ih =>
    have hu : Keeps False s (t.unbuffer e) := h.lands rfl
    unfold State.applyEntry
    exact ite (sendWrite hu) (landEntry (foldl (fun _ _ k => ite (ih k) k) (ite hu (flushHalves (flushDies hu)))))

theorem applyEntries {l : List QEntry} (h : Keeps q s t) : Keeps q s (t.applyEntries l) := by
  refine h.still (foldl (fun _ _ k => ite (applyEntry k) k) (refl t)) fun ⟨_, _, hq⟩ => ?_
  unfold State.applyEntries
  induction l with
  | nil => rfl
  | cons e l ih => simpa [hq] using ih

theorem spill {agent : Nat} {p : TlbEntry → Bool} (h : Keeps q s t) : Keeps q s (t.spill agent p) := applyEntries h

theorem complete {secs : List Nat} (h : Keeps q s t) : Keeps q s (t.complete secs) :=
  ite h (foldl (fun _ _ => spill) (flushHalves (flushDies h)))

theorem flushQuantum {core : Nat} (h : Keeps q s t) : Keeps q s (t.flushQuantum core) := applyEntries h

theorem flushNamed {core key n : Nat} (h : Keeps q s t) : Keeps q s (t.flushNamed core key n) := ite (flushQuantum h) h

theorem flushFor {c : Cohort} {x : Mem} {n : Nat} {acc : Acc} {lanes : List Lane} (h : Keeps q s t) : Keeps q s (t.flushFor c x n acc lanes) := by
  refine foldl (fun v l k => ?_) h
  split
  · exact ite (flushNamed k) (ite (flushQuantum k) k)
  · exact k

/-! ### Read tokens -/

theorem give {sec agent : Nat} {source : Option Nat} (h : Keeps q s t) : Keeps q s (t.give sec agent source) := by
  unfold State.give
  dsimp only
  split
  · exact ite (setUnit h) (modCoh (fun _ => ⟨rfl, rfl, rfl⟩) (setUnit h))
  · exact setUnit h

theorem grantSec {sec agent : Nat} (h : Keeps q s t) : Keeps q s (t.grantSec sec agent) := by
  unfold State.grantSec
  refine ite h (ite (give h) (ite (give h) ?_))
  split
  · exact give h
  · exact give (gather (complete h))

theorem grant {sec agent : Nat} (h : Keeps q s t) : Keeps q s (t.grant sec agent) := foldl (fun _ _ => grantSec) h

theorem sendEvict {sec agent : Nat} (h : Keeps q s t) : Keeps q s (t.sendEvict sec agent) :=
  ite h (post (setUnit (surrender (ite (complete h) (flushDies h)))))

theorem trimCache {agent sets cap sec : Nat} {desc : Bool} (h : Keeps q s t) : Keeps q s (t.trimCache agent sets cap sec desc) :=
  ite h (foldl (fun _ _ => sendEvict) (drawNat h))

theorem grantIc {core key n : Nat} {desc : Bool} (h : Keeps q s t) : Keeps q s (t.grantIc core key n desc) := by
  have hg := foldl (l := sectorsOf key n) (fun t sec => grant (sec := sec) (agent := icAgent core)) h
  exact trimCache (ite (modCoh (fun _ => ⟨rfl, rfl, rfl⟩) hg) hg)

/-! ### The walk -/

theorem readPte {agent sec : Nat} (h : Keeps q s t) : Keeps q s (t.readPte agent sec) := ite h (grantSec (probeHarm (flushHalves (flushDies h))))

theorem noteEntry {e : TlbEntry} (h : Keeps q s t) : Keeps q s (t.noteEntry e) :=
  ite h (ite h (modCoh (fun _ => ⟨rfl, rfl, rfl⟩) (ite h (dropTrans (spill h)))))

theorem noteWalk {agent ctx : Nat} {root : Dword} {va lvl : Nat} {as : List Nat} {r : Tr} (h : Keeps q s t) :
    Keeps q s (t.noteWalk agent ctx root va lvl as r) := by
  unfold State.noteWalk
  split
  · exact foldl (fun _ _ => noteEntry) h
  · exact h

theorem walkFor {agent ctx : Nat} {root : Dword} {priv : Bool} {va : Nat} {acc : Acc} (h : Keeps q s t) :
    Keeps q s (t.walkFor agent ctx root priv va acc).2 := by
  have hread (l : List Nat) := foldl (l := l) (fun t a => readPte (agent := agent) (sec := sectorOf a)) h
  unfold State.walkFor
  dsimp only
  split
  · exact askHost (hread _)
  · exact noteWalk (hread _)

theorem translate {agent ctx : Nat} {root : Dword} {priv : Bool} {va : Nat} {acc : Acc} {slot : Option Nat} (h : Keeps q s t) :
    Keeps q s (t.translate agent ctx root priv va acc slot).2 := by
  have hfound (o : Option Tr) : Keeps q s (match o with
      | some r => (r, t)
      | none => t.walkFor agent ctx root priv va acc).2 := by
    cases o with
    | none => exact walkFor h
    | some _ => exact h
  unfold State.translate
  dsimp only
  split
  · refine noteFmt ?_
    split
    · exact modCoh (fun _ => ⟨rfl, rfl, rfl⟩) (hfound _)
    · exact hfound _
  · exact hfound _

theorem reach {c : Cohort} {lane va : Nat} {acc : Acc} (h : Keeps q s t) : Keeps q s (t.reach c lane va acc).2 := translate h

end Keeps

end Sys2Proof.Claims
end

section
/-! SUPPORT. A loaded value in its lane's registers, and the lanes of one read. -/

namespace Sys2Proof.Claims
open Machine

/-! ### The value -/

theorem intOf_signed_eq_toInt (v : Nat) {w : Nat} (hw : 0 < w) : intOf v w true = (BitVec.ofNat w v).toInt := by
  obtain ⟨k, rfl⟩ : ∃ k, w = k + 1 := ⟨w - 1, by omega⟩
  have hpow : 2 ^ (k + 1) = 2 * 2 ^ k := Nat.pow_succ'
  have hcast : (2 : Int) ^ (k + 1) = ((2 ^ (k + 1) : Nat) : Int) := (Int.natCast_pow 2 (k + 1)).symm
  unfold intOf
  simp only [BitVec.toInt_eq_toNat_cond, BitVec.toNat_ofNat, Bool.true_and, decide_eq_true_eq, Nat.add_sub_cancel]
  rw [hcast]
  generalize 2 ^ (k + 1) = m at *
  split <;> split <;> omega

theorem ofNat_wrapInt (t : Int) (w : Nat) : BitVec.ofNat w (wrapInt t w) = BitVec.ofInt w t :=
  BitVec.eq_of_toNat_eq (by rw [BitVec.toNat_ofNat, BitVec.toNat_ofInt, Nat.mod_eq_of_lt (wrapInt_lt t w)]; rfl)

/-- A value that is read with its sign and wrapped to a word is sign-extended (R257). -/
theorem ofNat_wrapInt_intOf (v : Nat) {w : Nat} (hw : 0 < w) : BitVec.ofNat 32 (wrapInt (intOf v w true) 32) = (BitVec.ofNat w v).signExtend 32 := by
  rw [intOf_signed_eq_toInt v hw, ofNat_wrapInt]; rfl

theorem loadedWords_length (w : Width) (bs : List Byte) : (loadedWords w bs).length = w.regs := by
  cases w <;> rfl

/-! ### One lane -/

/-- Putting a loaded value into a lane's registers changes no other register that a thread has. -/
theorem getV_putLoad_ne (s : State) {cid tid o n : Nat} {d : BitVec 8} {w : Width} (bs : List Byte) (hd : d.toNat + w.regs ≤ 256) (hn : n < 256)
    (ho : o ≠ tid) : (s.putLoad cid tid d w bs).getV o n = s.getV o n := by
  have hne {k : Nat} (hk : k < w.regs) : vKey o n ≠ vKey tid (d.toNat + k) := fun e => ho ((vKey_inj hn (by omega)).1 e).1
  unfold State.putLoad
  cases w with
  | b64 => exact State.getV_putLane_ne _ _ _ (hne (k := 0) (by decide)) fun _ => hne (k := 1) (by decide)
  | b128 =>
    exact (State.getV_putLane_ne _ _ _ (hne (k := 2) (by decide)) fun _ => hne (k := 3) (by decide)).trans
      (State.getV_putLane_ne _ _ _ (hne (k := 0) (by decide)) fun _ => hne (k := 1) (by decide))
  | _ => exact State.getV_putV_ne _ _ _ (hne (k := 0) (by decide))

/-- The registers of a loaded value hold it. -/
theorem putLoad_loadedIn (s : State) (cid tid : Nat) {d : BitVec 8} {w : Width} (bs : List Byte) (hd : d.toNat + w.regs ≤ 256) :
    LoadedIn (s.putLoad cid tid d w bs) tid d w bs := by
  intro i v hv
  have hi : i < w.regs := loadedWords_length w bs ▸ (List.getElem?_eq_some_iff.1 hv).1
  unfold State.putLoad
  cases w with
  | b64 =>
    obtain rfl | rfl : i = 0 ∨ i = 1 := by simp only [Width.regs] at hi; omega
    · exact (State.getV_putLane_low ..).trans (Option.some.inj hv)
    · exact (State.getV_putLane_high ..).trans (Option.some.inj hv)
  | b128 =>
    simp only [Width.regs] at hd hi
    have hlow {k : Nat} (hk : k < 2) (u : Nat) (t : State) : (t.putLane cid tid (d.toNat + 2) true u 0).getV tid (d.toNat + k) = t.getV tid (d.toNat + k) :=
      State.getV_putLane_ne _ _ _ (by unfold vKey; omega) fun _ => by unfold vKey; omega
    obtain rfl | rfl | rfl | rfl : i = 0 ∨ i = 1 ∨ i = 2 ∨ i = 3 := by omega
    · exact (hlow (by decide) _ _).trans ((State.getV_putLane_low ..).trans ((congrArg _ (Nat.div_one _).symm).trans (Option.some.inj hv)))
    · exact (hlow (by decide) _ _).trans ((State.getV_putLane_high ..).trans (Option.some.inj hv))
    · exact (State.getV_putLane_low ..).trans (Option.some.inj hv)
    · exact (State.getV_putLane_high ..).trans ((congrArg _ (Nat.div_div_eq_div_mul ..)).trans (Option.some.inj hv))
  | s8 | s16 =>
    obtain rfl : i = 0 := by simp only [Width.regs] at hi; omega
    exact (State.getV_putV_self ..).trans ((ofNat_wrapInt_intOf _ (by decide)).trans (Option.some.inj hv))
  | u8 | u16 | b32 =>
    obtain rfl : i = 0 := by simp only [Width.regs] at hi; omega
    exact (State.getV_putV_self ..).trans (Option.some.inj hv)

/-- A thread whose registers keep their words keeps the value that they hold. -/
theorem LoadedIn.of_getV {s t : State} {tid : Nat} {d : BitVec 8} {w : Width} {bs : List Byte} (h : LoadedIn s tid d w bs) (hd : d.toNat + w.regs ≤ 256)
    (ht : ∀ n < 256, t.getV tid n = s.getV tid n) : LoadedIn t tid d w bs := by
  intro i v hv
  have hi : i < w.regs := loadedWords_length w bs ▸ (List.getElem?_eq_some_iff.1 hv).1
  rw [ht _ (by omega)]
  exact h i v hv

/-! ### The lanes of one read -/

/-- What a lane sees at an address is the memory's and its effects'. -/
theorem loadBytes_of_same {s t : State} (hc : t.coh = s.coh) (hm : t.mem = s.mem) (core : Nat) (buf : List Effect) (va key n : Nat) :
    t.loadBytes core buf va key n = s.loadBytes core buf va key n := by
  unfold State.loadBytes State.seenByte State.viaHost State.viewByte
  rw [hc, hm]

theorem putLane_coh (s : State) (cid tid n : Nat) (wide : Bool) (v lat : Nat) : (s.putLane cid tid n wide v lat).coh = s.coh := by
  unfold State.putLane
  dsimp only
  split <;> rfl

theorem putLoad_coh (s : State) (cid tid : Nat) (d : BitVec 8) (w : Width) (bs : List Byte) : (s.putLoad cid tid d w bs).coh = s.coh := by
  unfold State.putLoad
  cases w with
  | b64 => exact putLane_coh ..
  | b128 => exact (putLane_coh ..).trans (putLane_coh ..)
  | _ => rfl

theorem noteRead_coh (s : State) (tid key n : Nat) : (s.noteRead tid key n).coh = s.coh := by
  unfold State.noteRead
  dsimp only
  split <;> rfl

theorem noteRead_vreg (s : State) (tid key n : Nat) : (s.noteRead tid key n).vreg = s.vreg := by
  unfold State.noteRead
  dsimp only
  split <;> rfl

/-- A lane of a crew's read takes the value that it sees. -/
def takeRead (c : Cohort) (x : Mem) (va key n : Nat) (s : State) (l : Lane) : State :=
  (s.noteRead l.tid key n).putLoad c.id l.tid x.d x.width (s.loadBytes c.core (if c.irr then [] else l.buf) va key n)

section
variable {c : Cohort} {x : Mem} {va key n : Nat}

theorem takeRead_coh (s : State) (l : Lane) : (takeRead c x va key n s l).coh = s.coh := (putLoad_coh ..).trans (noteRead_coh ..)

theorem takeRead_mem (s : State) (l : Lane) : (takeRead c x va key n s l).mem = s.mem := (State.putLoad_mem ..).trans (State.noteRead_mem ..)

theorem foldl_takeRead_mem (s : State) (lanes : List Lane) : (lanes.foldl (takeRead c x va key n) s).mem = s.mem :=
  State.foldl_mem takeRead_mem s lanes

variable (hd : x.d.toNat + x.width.regs ≤ 256)
include hd

/-- The threads of other lanes keep their registers. -/
theorem foldl_takeRead_getV (s : State) {lanes : List Lane} {o m : Nat} (hm : m < 256) (ho : o ∉ lanes.map (·.tid)) :
    (lanes.foldl (takeRead c x va key n) s).getV o m = s.getV o m := by
  induction lanes generalizing s with
  | nil => rfl
  | cons l lanes ih =>
    rw [List.map_cons, List.mem_cons, not_or] at ho
    obtain ⟨hl, hrest⟩ := ho
    exact (ih _ hrest).trans ((getV_putLoad_ne _ _ hd hm hl).trans (State.getV_of_vreg (noteRead_vreg ..) ..))

/-- Every lane of a crew's read holds the value that it sees, whose threads are distinct. -/
theorem foldl_takeRead_loadedIn (s : State) {lanes : List Lane} (hn : (lanes.map (·.tid)).Nodup) : ∀ l ∈ lanes,
    LoadedIn (lanes.foldl (takeRead c x va key n) s) l.tid x.d x.width (s.loadBytes c.core (if c.irr then [] else l.buf) va key n) := by
  induction lanes generalizing s with
  | nil => nofun
  | cons r lanes ih =>
    rw [List.map_cons, List.nodup_cons] at hn
    obtain ⟨hr, hrest⟩ := hn
    intro l hl
    obtain rfl | hl := List.mem_cons.1 hl
    · exact (putLoad_loadedIn _ _ _ _ hd).of_getV hd fun m hm => foldl_takeRead_getV hd _ hm hr
    · rw [← loadBytes_of_same (takeRead_coh s r) (takeRead_mem s r)]
      exact ih _ hrest l hl

end

end Sys2Proof.Claims
end

section
/-! SUPPORT. A crew's read, a fence, and the group of a splitting load; the statement about them, settled. -/

namespace Sys2Proof.Claims
open Machine

/-! ### KLD -/

theorem Keeps.remoteKey {q : Prop} {s t : State} (h : Keeps q s t) (a : Nat) : t.remoteKey a = s.remoteKey a := by
  simp only [State.remoteKey, State.viaHost, h.bias]

theorem farRead_of_near {s : State} {key : Nat} (h : s.remoteKey key = false) : s.farRead key = false := by
  simp only [State.remoteKey, Bool.or_eq_false_iff] at h
  obtain ⟨hhost, hpeer⟩ := h
  simp [State.farRead, State.hostMiss, hhost, hpeer]

/-- Threads without a half under way bring none in. -/
theorem foldl_ownHalves_eq {s : State} {key n : Nat} {lanes : List Lane} (h : ∀ l ∈ lanes, ∀ e ∈ s.coh.halves, e.thread ≠ l.tid) :
    lanes.foldl (fun s l => s.ownHalves l.tid key n) s = s := by
  induction lanes with
  | nil => rfl
  | cons l lanes ih =>
    have hl : s.ownHalves l.tid key n = s := if_neg (by simpa using fun e he ht => absurd ht (h l (List.mem_cons_self ..) e he))
    rw [List.foldl_cons, hl]
    exact ih fun r hr => h r (List.mem_cons_of_mem _ hr)

section
variable {s u : State} {c : Cohort} {x : Mem} {low : Lane} {lanes : List Lane} {va key unit : Nat} {pte : Dword}

/-- The state in which a crew's read has been made at its home. -/
def homeRead (u : State) (c : Cohort) (x : Mem) (key : Nat) : State :=
  (u.flushNamed c.core key (widthBytes x.width)).readHome key (widthBytes x.width)

theorem homeRead_keeps {q : Prop} (u : State) (c : Cohort) (x : Mem) (key : Nat) : Keeps q u (homeRead u c x key) := .readHome (.flushNamed (.refl u))

/-- A crew's read of memory that the device holds and that nothing damages: every lane takes what it sees. -/
theorem kldLanes_eq (hva : s.laneEA c x low = some va) (hn : va % widthBytes x.width = 0) (hr : s.reach c low.pos va .read = (.go key pte unit, u))
    (hnear : u.remoteKey key = false) (hh : ∀ l ∈ lanes, ∀ e ∈ (homeRead u c x key).coh.halves, e.thread ≠ l.tid)
    (hp : (homeRead u c x key).poisonedIn key (widthBytes x.width) = none) : s.kldLanes c x low lanes =
      lanes.foldl (takeRead c x va key (widthBytes x.width)) ((homeRead u c x key).grantIc c.core key (widthBytes x.width) false) := by
  have hfar : (u.flushNamed c.core key (widthBytes x.width)).farRead key = false :=
    farRead_of_near ((Keeps.remoteKey (.flushNamed (.refl (q := False) u)) key).trans hnear)
  have hown : lanes.foldl (fun s l => s.ownHalves l.tid key (widthBytes x.width)) (homeRead u c x key) = homeRead u c x key := foldl_ownHalves_eq hh
  have hlocal : (homeRead u c x key).remoteKey key = false := ((homeRead_keeps (q := False) u c x key).remoteKey key).trans hnear
  unfold homeRead at hown hlocal hp
  unfold State.kldLanes
  simp only [hva, hn, hr, hfar, hown, hp, hlocal, ite_self, bne_self_eq_false, Bool.false_eq_true, if_false]
  rfl

end

theorem execKld_eq {s : State} {c : Cohort} {x : Mem} {low : Lane} {rest : List Lane} {va : Nat} (hi : Issues s c)
    (hl : s.execLanes c x.pred = low :: rest) (hb : (flushed s c x (widthBytes x.width) .read [low]).execLanes c x.pred = low :: rest)
    (hp : Passes (flushed s c x (widthBytes x.width) .read [low]) c (.kld x) x.pred)
    (hw : (flushed s c x (widthBytes x.width) .read [low]).laneWaitsAt (icAgent c.core) c x (widthBytes x.width) .read low = false)
    (hva : (flushed s c x (widthBytes x.width) .read [low]).laneEA c x low = some va)
    (ho : ∀ l ∈ rest, (flushed s c x (widthBytes x.width) .read [low]).ownUnderWay c va (widthBytes x.width) l = false) :
    exec (.kld x) s = .next (finished (flushed s c x (widthBytes x.width) .read [low])
      ((flushed s c x (widthBytes x.width) .read [low]).kldLanes c x low (low :: rest)) c (.kld x) x.pred x.stall) := by
  have hl : (begun s).execLanes c x.pred = low :: rest := hl
  have hwait : ((flushed s c x (widthBytes x.width) .read [low]).laneWaitsAt (icAgent c.core) c x (widthBytes x.width) .read low ||
      rest.any ((flushed s c x (widthBytes x.width) .read [low]).ownUnderWay c
        (((flushed s c x (widthBytes x.width) .read [low]).laneEA c x low).getD 0) (widthBytes x.width))) = false := by
    rw [hw, hva]
    simpa using ho
  rw [show exec (.kld x) s = execKld x s from rfl, execKld, onCohort_next hi]
  simp only [hl]
  refine congrArg Host.Outcome.next ?_
  refine (if_neg (by rw [Bool.not_eq_true]; exact hwait)).trans ((issue_of_passes hp ..).trans ?_)
  rw [hb]

theorem finished_mem (s u : State) (c : Cohort) (i : Instr) (p : Pred) (stall : BitVec 4) : (finished s u c i p stall).mem = u.mem := rfl

theorem widthBytes_pos (w : Width) : 0 < widthBytes w := by cases w <;> decide

/-- The registers that a crew's read may name are of one thread. -/
theorem kld_fits {x : Mem} (h : (Instr.kld x).regsOk = true) : x.d.toNat + x.width.regs ≤ 256 := by
  have hlt := x.d.isLt
  simp only [Instr.regsOk, Bool.and_eq_true, List.all_eq_true] at h
  obtain ⟨h, -⟩ := h
  have hwrites : (Instr.kld x).writes = [⟨some .v, x.d.toNat, x.width.regs⟩] := rfl
  obtain ⟨⟨hodd, -⟩, -⟩ := h ⟨some .v, x.d.toNat, x.width.regs⟩ (List.mem_append_left _ (List.mem_append_right _ (by simp [hwrites])))
  have hregs : x.width.regs = 1 ∨ x.width.regs = 2 ∨ x.width.regs = 4 := by cases x.width <;> decide
  have hthree : x.width.regs ≠ 3 := by omega
  have hdiv : x.d.toNat % x.width.regs = 0 := by simpa [RegUse.odd, hthree] using hodd
  obtain e | e | e := hregs <;> rw [e] at hdiv ⊢ <;> omega

/-- Where no die has performed a write, an agent reads the device's bytes in memory. -/
theorem seenByte_of_near {s : State} {a : Nat} (hr : s.remoteKey a = false) (hd : s.coh.dieWrites = []) (die : Nat) : s.seenByte die a = s.mem.read a := by
  simp only [State.remoteKey, Bool.or_eq_false_iff] at hr
  obtain ⟨hr, -⟩ := hr
  simp [State.seenByte, State.viewByte, hr, hd]

theorem crewLoadReads {s u : State} {c : Cohort} {x : Mem} {low : Lane} {rest : List Lane} {va key unit : Nat} {pte : Dword} :
    let n := widthBytes x.width
    let b := flushed s c x n .read [low]
    Issues s c → s.execLanes c x.pred = low :: rest → b.execLanes c x.pred = low :: rest → Passes b c (.kld x) x.pred →
    ((low :: rest).map (·.tid)).Nodup → b.laneWaitsAt (icAgent c.core) c x n .read low = false →
    b.laneEA c x low = some va → (∀ l ∈ rest, b.ownUnderWay c va n l = false) →
    va % n = 0 → b.reach c low.pos va .read = (.go key pte unit, u) →
    (∀ i, i < n → u.remoteKey (key + i) = false) → (Instr.kld x).regsOk = true →
    let v := (u.flushNamed c.core key n).readHome key n
    (∀ l ∈ low :: rest, ∀ h ∈ v.coh.halves, h.thread ≠ l.tid) → v.poisonedIn key n = none →
    let w := v.grantIc c.core key n false
    ∃ t, exec (.kld x) s = .next t ∧ (∀ l ∈ low :: rest, LoadedIn t l.tid x.d x.width
      ((List.range n).map fun i =>
        fwdByte (fun a => w.seenByte (dieOf c.core) (key + a - va)) (if c.irr then [] else l.buf.reverse) (va + i))) ∧
      (Quiet s → (∀ i < n, w.seenByte (dieOf c.core) (key + i) = s.mem.read (key + i)) ∧ t.mem = s.mem) := by
  intro n b hi hl hb hp hnodup hw hva hown hn hr hnear hregs v hh hpois w
  have hd := kld_fits hregs
  have hbegun {q : Prop} : Keeps q s (begun s) := ⟨rfl, fun _ ⟨d, e, g⟩ => ⟨⟨d, e, g⟩, rfl⟩⟩
  have hu {q : Prop} : Keeps q s u := .of_eq (.reach (.flushFor hbegun)) hr
  have huw {q : Prop} : Keeps q u w := .grantIc (homeRead_keeps u c x key)
  have hsw : Keeps True s w := hu.trans huw
  refine ⟨_, execKld_eq hi hl hb hp hw hva hown, fun l hmem => ?_, fun hs => ⟨fun i hi => ?_, ?_⟩⟩
  · rw [kldLanes_eq hva hn hr (hnear 0 (widthBytes_pos _)) hh hpois]
    have hload := foldl_takeRead_loadedIn (va := va) (key := key) (n := n) (c := c) hd w hnodup l hmem
    rw [State.loadBytes, apply_ite List.reverse, List.reverse_nil] at hload
    exact hload.of_getV hd fun m _ => State.getV_of_vreg (finished_regsKept ..).v ..
  · obtain ⟨⟨hdies, -, -⟩, hmem⟩ := hsw.quiet trivial hs
    rw [seenByte_of_near ((huw.remoteKey (q := True) _).trans (hnear i hi)) hdies, hmem]
  · rw [kldLanes_eq hva hn hr (hnear 0 (widthBytes_pos _)) hh hpois]
    exact (finished_mem ..).trans ((foldl_takeRead_mem w _).trans (hsw.quiet trivial hs).2)

/-! ### FENCE -/

theorem fenceActs {s : State} {c : Cohort} {x : Mem} (hi : Issues s c) :
    let lanes := s.execLanes c x.pred
    let u := if lanes = [] then begun s else (begun s).flushQuantum c.core
    (lanes ≠ [] → (releases x.order = true → ∀ l ∈ lanes, u.releaseWaits l.tid = false) ∧ u.kUnwritten c = false ∧
      (wideScope x.scope = true → ∀ l ∈ lanes, (u.unanswered l.tid fun r => r.due.isSome) = false)) →
    Passes u c (.fence x) x.pred →
    let w := if wideScope x.scope then u.flushDies fun d => lanes.any (·.tid == d.thread) else u
    exec (.fence x) s = .next (finished u (if u.execLanes c x.pred = [] then w
      else (w.orderFlush c.core x.order x.scope).settleK c.crew (some c)) c (.fence x) x.pred x.stall) := by
  intro lanes u hready hp w
  have hu : u = if lanes.isEmpty then begun s else (begun s).flushQuantum c.core := by
    simp only [u, List.isEmpty_iff]
  have hgoes : (releases x.order && u.lanesReleaseWait lanes || !lanes.isEmpty && u.kUnwritten c ||
      wideScope x.scope && lanes.any fun l => u.unanswered l.tid fun r => r.due.isSome) = false := by
    by_cases hl : lanes = []
    · simp [hl, State.lanesReleaseWait]
    · obtain ⟨hrel, hk, hun⟩ := hready hl
      simpa [hk, State.lanesReleaseWait] using ⟨hrel, hun⟩
  rw [show exec (.fence x) s = execFence x s from rfl, execFence, onCohort_next hi]
  dsimp only
  rw [show (begun s).execLanes c x.pred = lanes from rfl, ← hu]
  refine congrArg Host.Outcome.next ((if_neg (by rw [Bool.not_eq_true]; exact hgoes)).trans ((issue_of_passes hp ..).trans ?_))
  simp only [List.isEmpty_iff]
  rfl

theorem crewLoadAndFenceComplete : CrewLoadAndFenceComplete := fun _ _ _ hi =>
  ⟨fun _ _ _ _ _ _ _ => crewLoadReads hi, fenceActs hi⟩

/-! ### LD_SPLIT_GROUP -/

theorem CrewsKept.setCohort {s t : State} {c : Cohort} (h : CrewsKept s t) : CrewsKept s (t.setCohort c) := h.trans (.of_eq rfl)

theorem CrewsKept.modCrew_of {s t : State} {n : Nat} {f : Crew → Crew} (hf : ∀ w, bare (f w) = bare w) (h : CrewsKept s t) :
    CrewsKept s (t.modCrew n f) := h.trans (.modCrew t n hf)

theorem splitGroupLeaves : SplitGroupLeaves := by
  intro s c lanes hc hid hfree part rest hpart hrest
  have hroom : s.freeContexts c.core c.port ≠ 0 := by
    unfold State.freeContexts
    omega
  have hstays : ¬(s.freeContexts c.core c.port = 0 || part.isEmpty || rest.isEmpty) = true := by
    simp [hroom, hpart, hrest]
  rw [show exec (.ldSplitGroup c.id lanes) s = execLdSplitGroup c.id lanes s from rfl, execLdSplitGroup, hc]
  dsimp only
  rw [if_neg hstays]
  generalize hv : List.foldl _ _ _ = v
  obtain ⟨ths, rfl⟩ : ThreadsOnly _ v := hv ▸ ThreadsOnly.foldl (fun u (l : Lane) => .modThread u l.tid _) _ _
  refine ⟨_, _, _, rfl, rfl, Map.find_insert_self .., rfl, rfl, rfl, (Map.find_insert_ne _ _ hid.ne).trans (Map.find_insert_self ..), rfl, rfl,
    rfl, rfl, rfl, rfl, .setCohort (.setCohort (.modCrew_of (fun _ => rfl) (.of_eq rfl)))⟩

/-- Settles O29: every lane of KLD takes what it sees in the state that one read of its home leaves; FENCE acts where nothing of its lanes is waited for;
a group leaves with the next identity. -/
theorem crewLoadsFencesAndSplits : Obligations.CrewLoadsFencesAndSplits := ⟨crewLoadAndFenceComplete, splitGroupLeaves⟩

end Sys2Proof.Claims
end

section
/-! SUPPORT. The proof of O20: the guards, and the filing of the lanes that fail one. -/

namespace Sys2Proof.Claims
open Machine

/-- A guard issues: the lanes that do not pass fail one after another. -/
theorem issueGuard_passes {s : State} {c : Cohort} {i : Instr} {p : Pred} {x : Guard} (pass : State → Lane → Bool) (hp : Passes s c i p) :
    (begun s).issueGuard c i p x pass = finished s
      (((s.execLanes c p).filter fun l => !pass (begun s) l).foldl (fun u l => u.failGuard c (codeTarget c.pc x.tgt) l) (begun s)) c i p x.stall :=
  issue_passes hp ..

theorem guardInstructionsComplete : GuardInstructionsComplete := by
  intro s c x hi alt afterFails
  have halt : alt = codeTarget c.pc x.tgt := by rw [codeTarget, offOf_eq_toInt]
  have hfails : ∀ p pass, afterFails p pass =
      ((s.execLanes c p).filter fun l => !pass l).foldl (fun u l => u.failGuard c (codeTarget c.pc x.tgt) l) (begun s) := by
    intro p pass
    rw [← halt]
    rfl
  simp only [hfails]
  refine ⟨fun hp => ?_, fun hp => ?_, fun hp => ?_⟩
  · rw [show exec (.guard x) s = execGuard x s from rfl, execGuard, onCohort_next hi]
    exact congrArg Host.Outcome.next (issueGuard_passes (fun s l => s.predTrue c x.pred l.tid) hp)
  · rw [show exec (.guardr x) s = execGuardr x s from rfl, execGuardr, onCohort_next hi]
    exact congrArg Host.Outcome.next (issueGuard_passes (fun s l =>
      x.lo.toInt ≤ (s.seenV c l.tid x.ra.toNat).toInt && (s.seenV c l.tid x.ra.toNat).toInt ≤ x.hi.toInt) hp)
  · rw [show exec (.guardnz x) s = execGuardnz x s from rfl, execGuardnz, onCohort_next hi]
    exact congrArg Host.Outcome.next (issueGuard_passes (fun s l => s.seenV c l.tid x.ra.toNat != 0) hp)

theorem guardFailureFiles : GuardFailureFiles := by
  intro s th tid alt hth hplace
  have hexec : exec (.guardFailFiling tid alt) s = .next (s.file tid (Filing.at' alt 0 s.clock)) := by
    rw [show exec (.guardFailFiling tid alt) s = execGuardFailFiling tid alt s from rfl, execGuardFailFiling, hth]
    exact congrArg Host.Outcome.next (if_pos hplace)
  obtain ⟨b, hb⟩ := s.file_find tid (Filing.at' alt 0 s.clock) hth
  exact ⟨_, hexec, ⟨_, _, hb, rfl, rfl, rfl, rfl, rfl⟩, s.file_only ..⟩

/-- Settles O20: each guard is the failing of the lanes that do not pass, one after another; the filing that follows is the one of a thread that has
left at a guard. -/
theorem guardsComplete : Obligations.GuardsComplete := ⟨guardInstructionsComplete, guardFailureFiles⟩

end Sys2Proof.Claims
end

section
/-! SUPPORT. The proof of O30: the scratchpad instructions. -/

namespace Sys2Proof.Claims
open Machine

/-- A scratchpad instruction that may issue handles its executing lanes in order, what its order asks for done before. -/
theorem issueSpad_acts {s : State} {c : Cohort} {i : Instr} {x : Mem} (f : Cohort → State → Lane → State) (hi : Issues s c) :
    let lanes := s.execLanes c x.pred
    let rel : Prop := (c.irr = true ∨ i = .lds x) ∧ releases x.order = true ∧ lanes ≠ []
    let u := if rel then (begun s).flushQuantum c.core else begun s
    (rel → u.orderWaits c x.order lanes = false) → Passes u c i x.pred →
    (onCohort s fun c s => s.issueSpad c i x (f c)) =
      .next (finished u ((u.execLanes c x.pred).foldl (f c) (if rel then u.fenceFirst c x.order .crew else u)) c i x.pred x.stall) := by
  intro lanes rel u hready hp
  have hrel : ((c.irr || i == .lds x) && releases x.order && !lanes.isEmpty) = true ↔ rel := by
    simp [rel, and_assoc]
  have hgoes : ¬(((c.irr || i == .lds x) && releases x.order && !lanes.isEmpty) && u.orderWaits c x.order lanes) = true := by
    rw [Bool.and_eq_true, hrel]
    exact fun ⟨h, hw⟩ => Bool.false_ne_true ((hready h).symm.trans hw)
  rw [onCohort_next hi, State.issueSpad]
  rw [show (begun s).execLanes c x.pred = lanes from rfl]
  simp only [hrel] at hgoes ⊢
  rw [if_neg hgoes, issue_of_passes hp]

/-- Settles O30: the six are one issue with six rules for a lane. -/
theorem scratchpadInstructionsComplete : Obligations.ScratchpadInstructionsComplete := by
  intro s c x hi
  exact ⟨issueSpad_acts (fun c u l => u.ldsLane c x l) hi, issueSpad_acts (fun c u l => u.stsLane c x l) hi,
    issueSpad_acts (fun c u l => u.atomsLane c x l) hi, issueSpad_acts (fun c u l => u.renewLane c x l) hi,
    issueSpad_acts (fun c u l => u.armLane c x l) hi, issueSpad_acts (fun c u l => u.spageLane c x l) hi⟩

end Sys2Proof.Claims
end

section
/-! SUPPORT. The proof of O48: fade, and the timers of crews. -/

namespace Sys2Proof.Machine

/-- A table whose entries change under their keys. -/
theorem Map.find_mapEntries {α : Type} (m : Map α) (f : Nat → α → α) (k : Nat) :
    Map.find (m.map fun e => (e.1, f e.1 e.2)) k = (m.find k).map (f k) := by
  induction m with
  | nil => rfl
  | cons e m ih =>
    rw [List.map_cons, Map.find, Map.find]
    split
    · next h => rw [Option.map_some, h]
    · exact ih

/-- A crew's segment after a change of the segments of a core's crews. -/
theorem State.find_modSegs {s : State} {core crew j : Nat} {w : Crew} (p : Crew → Bool) (f : Nat → Nat → Seg → Seg)
    (hw : s.crews.find crew = some w) (hc : w.core = some core) (hp : p w = true) (hj : j < 4096) :
    (s.modSegs core p f).segs.find (segKey crew j) = (s.segs.find (segKey crew j)).map (f crew j) := by
  have hcrew : segKey crew j / 4096 = crew := by unfold segKey; omega
  have hseg : segKey crew j % 4096 = j := by unfold segKey; omega
  let g (k : Nat) (e : Seg) : Seg :=
    if (s.crews.find (k / 4096)).any fun w => w.core == some core && p w then f (k / 4096) (k % 4096) e else e
  have hg : g (segKey crew j) = f crew j := by
    funext e
    simp only [g, hcrew, hseg, hw, Option.any_some, hc, hp, beq_self_eq_true, Bool.and_self, if_true]
  have hmap : (s.modSegs core p f).segs = s.segs.map fun e => (e.1, g e.1 e.2) :=
    List.map_congr_left fun e _ => by dsimp only [g]; split <;> rfl
  rw [hmap, Map.find_mapEntries, hg]

end Sys2Proof.Machine

namespace Sys2Proof.Claims
open Machine

theorem garnetStepsComplete : GarnetStepsComplete := by
  intro s core crew j w g hw hc hj hg
  refine ⟨fun hr => ⟨_, rfl, ?_, _, rfl⟩, fun hr => ⟨_, rfl, ?_, _, rfl⟩⟩
  · rw [State.find_modSegs _ _ hw hc hr hj, hg, Option.map_some]
    simp
  · rw [State.find_modSegs _ _ hw hc (by simp [hr]) hj, hg, Option.map_some]
    simp [or_assoc]

/-- A thread for which TIMER is pending. -/
def timed (t : Thread) : Thread := { t with timerPend := true }

/-- Of the threads of a list TIMER is pending in the end. -/
theorem foldl_timed_find (l : List Thread) {s : State} {n : Nat} {th : Thread} (h : s.threads.find n = some th) :
    (l.foldl (fun u t => u.modThread t.id timed) s).threads.find n = some (if n ∈ l.map (·.id) then timed th else th) := by
  induction l generalizing s th with
  | nil => simpa using h
  | cons a l ih =>
    rw [List.foldl_cons]
    by_cases ha : n = a.id
    · rw [ih (th := timed th) (by rw [ha, State.find_modThread_self, ← ha, h]; rfl)]
      simp [ha, timed]
    · rw [ih ((State.find_modThread_ne _ _ ha).trans h)]
      simp [ha]

theorem crewTimerFires : CrewTimerFires := by
  intro s w hw htimer hclk
  let u := s.setCrew { w with timer := w.timer &&& 0x7fffffffffffffff }
  have hexec : exec (.crewTimerFire w.id) s = .next ((s.unexited w.id).foldl (fun u t => u.modThread t.id timed) u) := by
    rw [show exec (.crewTimerFire w.id) s = execCrewTimerFire w.id s from rfl, execCrewTimerFire, hw]
    exact congrArg Host.Outcome.next (if_pos (by simpa [htimer] using hclk))
  obtain ⟨l, hl⟩ : ThreadsOnly u ((s.unexited w.id).foldl (fun u t => u.modThread t.id timed) u) := ThreadsOnly.foldl (fun _ _ => .modThread ..) ..
  refine ⟨_, hexec, ?_, fun th hmem hth => ?_, ?_⟩
  · rw [hl]
    exact Map.find_insert_self ..
  · rw [foldl_timed_find _ (s := u) hth, if_pos (List.mem_map_of_mem hmem)]
    rfl
  · rw [hl]
    rfl

/-- Settles O48: a step of fade changes the segments of a core's crews where they stand; a timer that fires makes TIMER pending thread by thread. -/
theorem fadeAndTimersComplete : Obligations.FadeAndTimersComplete := ⟨garnetStepsComplete, crewTimerFires⟩

end Sys2Proof.Claims
end

section
/-! SUPPORT. The statement about the atomics, refuted. -/

namespace Sys2Proof.Claims
open Machine

/-- A relaxed ADD of thread 2's register 2 to the word at 0x100, without a destination. -/
def damagedAdd : Mem := ⟨Pred.always, 0, .b32, 0, 4, 2, 0, .rlx, .dev, .sync, false, 0, 0x100⟩

/-- The lane that executes it. -/
def damagedLane : Lane := ⟨0, 2, 0, 0, [], [], none, false, none, 0⟩

/-- The placed cohort in an irrevocable trace of four instructions. -/
def damagedCohort : Cohort := { placedCohort 0 0 with len := 4 }

/-- The state in which that cohort's turn at the ADD has come, its operand 7. Block 0 is stored compressed and kept in units of four sectors; the L2 holds
its sector 15, and HBM has an error in sector 9, which is in one unit with the word's sector 8. -/
def damagedState : State :=
  let s := (State.reset.placeWord 0).setV 2 2 7
  { s with
    cur := some 3, agenda := [], cohorts := s.cohorts.insert 3 damagedCohort
    coh := { s.coh with blocks := [(0, { Block.empty with valid := secBit 15 })], fmts := [(0, (1, false))], comp := [(0, 2)], harm := [(9, .hbm)] } }

/-- The state at the ADD's issue. -/
def damagedIssue : State := flushed damagedState damagedCohort damagedAdd 4 .write [damagedLane]

/-- The translation of its address. -/
def damagedReach : Reach × State := damagedIssue.reach damagedCohort 0 0x100 .write

/-- Whether a translation has found an entry of a page that is not watched. -/
def placeUnwatched : Reach → Bool
  | .go _ pte _ => !pte[10]
  | _ => false

/-- The byte at an address when an instruction has been executed. -/
def byteAfter (a : Nat) : Host.Outcome State Fault Refusal → Option Byte
  | .next t => some (t.mem.read a)
  | _ => none

theorem damaged_quiet : Quiet damagedState := ⟨by decide +kernel, by decide +kernel, by decide +kernel⟩

theorem damaged_acts : LaneActs false damagedState damagedIssue damagedIssue damagedCohort damagedAdd damagedLane 4 .write
    (.atom damagedAdd .add 0) 0x100 :=
  ⟨⟨by decide +kernel, by decide +kernel⟩, by decide +kernel, by decide +kernel, rfl, Bool.noConfusion, by decide +kernel, by decide +kernel, rfl,
    by decide +kernel, rfl⟩

theorem damaged_reaches : placeKey damagedReach = some 0x100 := by decide +kernel

theorem damaged_unwatched : placeUnwatched damagedReach.1 = true := by decide +kernel

/-- The home finds nothing in the word's own sector. -/
theorem damaged_merges : damagedReach.2.mergeCheck 0x100 4 = (none, (damagedReach.2.mergeCheck 0x100 4).2) := by
  have hfound : (damagedReach.2.mergeCheck 0x100 4).1 = none := by decide +kernel
  rw [← hfound]

theorem damaged_unpoisoned : (damagedReach.2.mergeCheck 0x100 4).2.poisonedIn 0x100 4 = none := by decide +kernel

/-- The fetch of the unit finds the error and poisons the block, so the sum is not stored. -/
theorem damaged_lost : byteAfter 0x100 (exec (.atom damagedAdd .add 0) damagedState) = some 0 := by decide +kernel

/-- Refutes O28: `AtomicsWithoutResult` asks for soundness of the word's own sector alone where its page is not watched. In `damagedState` another sector of
its unit has an error that the landing finds; the compressed block is poisoned, and the ADD of 7 to 0 leaves 0 in memory. -/
theorem not_atomicsUpdateMemory : ¬Obligations.AtomicsUpdateMemory := by
  intro ⟨_, h, _⟩
  obtain ⟨pte, unit, hreach⟩ := reached_of_placeKey damaged_reaches
  have hwatch : pte[10] = false := by
    have hun := damaged_unwatched
    rw [hreach] at hun
    exact Bool.not_eq_true' _ ▸ hun
  obtain ⟨t, hexec, -, -, -, -, hsync, -⟩ := h damagedState damagedIssue damagedIssue damagedReach.2 (damagedReach.2.mergeCheck 0x100 4).2 damagedCohort
    damagedAdd damagedLane 0x100 0x100 unit pte .add 0 (by decide) rfl (by decide) damaged_quiet (.inl hwatch) (by decide) (.inl (by decide))
    (by decide +kernel) damaged_acts (by decide +kernel) hreach (by decide +kernel) damaged_merges damaged_unpoisoned
  have hsum := (hsync (by decide)).2.bytes 0x100 (by simp [hwatch])
  have hlost := damaged_lost
  rw [hexec] at hlost
  have hzero : t.mem.read 0x100 = 0 := Option.some.inj hlost
  rw [hzero] at hsum
  exact absurd hsum (by decide +kernel)

end Sys2Proof.Claims
end

section
/-! SUPPORT. What the operations of memory that land nothing leave as it is: one lemma for each operation, which unfolds that one and goes by the lemmas of
the operations that it calls. -/

namespace Sys2Proof.Claims
open Machine

/-- The parts of a state that only landing a write, or an instruction, changes. -/
structure Landscape where
  mem     : Memory
  vreg    : Map Word
  preg    : Map Bool
  kreg    : Map Word
  crews   : Map Crew
  clock   : Nat
  dies    : List DieWrite
  halves  : List Half
  fmts    : Map (Nat × Bool)
  bias    : Map Bool
  retired : List Nat
  wvBase  : Nat

/-- Those parts of a state. -/
def landscape (s : State) : Landscape :=
  ⟨s.mem, s.vreg, s.preg, s.kreg, s.crews, s.clock, s.coh.dieWrites, s.coh.halves, s.coh.fmts, s.coh.bias, s.pkg.retireList, s.pkg.wvBase⟩

/-- They are as they were, what the homes hold undamaged is undamaged still, and no report of damage has gone. -/
structure Calm (s t : State) : Prop where
  same    : landscape t = landscape s
  sound   : Sound s → Sound t
  reports : ∀ r ∈ s.pkg.reports, r ∈ t.pkg.reports

namespace Calm

variable {s t u : State}

theorem refl (s : State) : Calm s s := ⟨rfl, id, fun _ h => h⟩

theorem trans (h : Calm s t) (g : Calm t u) : Calm s u :=
  ⟨g.same.trans h.same, g.sound ∘ h.sound, fun r hr => g.reports r (h.reports r hr)⟩

theorem mem (h : Calm s t) : t.mem = s.mem := congrArg Landscape.mem h.same
theorem vreg (h : Calm s t) : t.vreg = s.vreg := congrArg Landscape.vreg h.same
theorem preg (h : Calm s t) : t.preg = s.preg := congrArg Landscape.preg h.same
theorem kreg (h : Calm s t) : t.kreg = s.kreg := congrArg Landscape.kreg h.same
theorem crews (h : Calm s t) : t.crews = s.crews := congrArg Landscape.crews h.same
theorem clock (h : Calm s t) : t.clock = s.clock := congrArg Landscape.clock h.same
theorem dies (h : Calm s t) : t.coh.dieWrites = s.coh.dieWrites := congrArg Landscape.dies h.same
theorem halves (h : Calm s t) : t.coh.halves = s.coh.halves := congrArg Landscape.halves h.same
theorem fmts (h : Calm s t) : t.coh.fmts = s.coh.fmts := congrArg Landscape.fmts h.same
theorem bias (h : Calm s t) : t.coh.bias = s.coh.bias := congrArg Landscape.bias h.same
theorem retired (h : Calm s t) : t.pkg.retireList = s.pkg.retireList := congrArg Landscape.retired h.same
theorem wvBase (h : Calm s t) : t.pkg.wvBase = s.pkg.wvBase := congrArg Landscape.wvBase h.same

/-- A change of other parts, which computation shows to leave these as they were. -/
theorem step (h : Calm s t) (e : landscape u = landscape t) (k : Sound t → Sound u := by exact fun ⟨a, b, c, d⟩ => ⟨a, b, c, d⟩)
    (g : ∀ r ∈ t.pkg.reports, r ∈ u.pkg.reports := by exact fun _ h => h) : Calm s u :=
  h.trans ⟨e, k, g⟩

/-! ### Folds and choices -/

theorem foldl {α : Type} {f : State → α → State} {l : List α} (hf : ∀ t a, Calm s t → Calm s (f t a)) (h : Calm s t) : Calm s (l.foldl f t) := by
  induction l generalizing t with
  | nil => exact h
  | cons a l ih => exact ih (hf t a h)

theorem ite {p : Prop} [Decidable p] (ht : Calm s t) (hu : Calm s u) : Calm s (if p then t else u) := by
  split
  · exact ht
  · exact hu

/-- The state of a pair is the state of what the pair is matched with. -/
theorem of_eq {α : Type} {p : α × State} {a : α} (h : Calm s p.2) (e : p = (a, t)) : Calm s t := by
  subst e; exact h

/-! ### Tokens, translation caches and messages -/

theorem setUnit {sec : Nat} {v : CohUnit} (h : Calm s t) : Calm s (t.setUnit sec v) := h.step rfl

theorem trimL2 {slice set : Nat} (h : Calm s t) : Calm s (t.trimL2 slice set) := ite h (h.step rfl)

theorem divert {core : Nat} {es : List MemEff} {unit : Option Nat} (h : Calm s t) : Calm s (t.divert core es unit) := h.step rfl

theorem sendFlit {port : Nat} {cls : BitVec 8} {b : FlitBody} (h : Calm s t) : Calm s (t.sendFlit port cls b) := h.step rfl

theorem toPeer {id : Nat} {r : Remote} (h : Calm s t) : Calm s (t.toPeer id r) := by
  unfold State.toPeer
  split
  · exact h
  · exact foldl (fun _ _ => sendFlit) h

theorem sendRemote {r : Remote} (h : Calm s t) : Calm s (t.sendRemote r).2 := by
  have hs : Calm s { t.modCoh (fun c => { c with remote := c.remote.insert t.nextId r }) with nextId := t.nextId + 1 } := h.step rfl
  exact ite (toPeer hs) hs

theorem askHost {agent sec : Nat} (h : Calm s t) : Calm s (t.askHost agent sec) := ite h (sendRemote h)

theorem moveQuantum {core : Nat} {hit : MemEff → Bool} {unit : Option Nat} (h : Calm s t) : Calm s (t.moveQuantum core hit unit) := ite h (h.step rfl)

theorem cancelRemote {id : Nat} {r : Remote} {hit : MemEff → Bool} {hitVa : Nat → Bool} {unit : Option Nat} (h : Calm s t) :
    Calm s (t.cancelRemote id r hit hitVa unit) := by
  have herased : Calm s (t.modCoh fun c => { c with remote := c.remote.erase id }) := h.step rfl
  have hagain : Calm s ((t.modCoh fun c => { c with remote := c.remote.insert id { r with gone := true } }).post (.reissue id)) := h.step rfl
  unfold State.cancelRemote
  dsimp only
  split
  · exact ite herased h
  · refine ite h ?_
    split
    · exact ite hagain (divert herased)
    · exact hagain
  · exact ite hagain h
  · exact h

theorem dropTrans {agent : Nat} {p : TlbEntry → Bool} {unit : Option Nat} (h : Calm s t) : Calm s (t.dropTrans agent p unit) := by
  unfold State.dropTrans
  refine ite h (step (foldl (fun _ _ k => ite (cancelRemote k) k) ?_) rfl)
  split
  · exact h
  · exact moveQuantum (h.step rfl)

theorem surrender {sec agent : Nat} (h : Calm s t) : Calm s (t.surrender sec agent) := ite (dropTrans h) h

theorem rouse {agent : Nat} (h : Calm s t) : Calm s (t.rouse agent) := by
  unfold State.rouse
  split
  · exact ite h (h.step rfl)
  · exact h

theorem gatherSec {writer sec : Nat} (h : Calm s t) : Calm s (t.gatherSec writer sec) :=
  ite h (setUnit (step (foldl (fun _ _ k => rouse (surrender k)) h) rfl))

theorem gather {sec writer : Nat} (h : Calm s t) : Calm s (t.gather sec writer) := foldl (fun _ _ => gatherSec) h

theorem give {sec agent : Nat} {source : Option Nat} (h : Calm s t) : Calm s (t.give sec agent source) := by
  unfold State.give
  dsimp only
  split
  · exact ite (h.step rfl) (h.step rfl)
  · exact setUnit h

/-! ### Damage and the reads of a home -/

theorem injectAt {kinds : List Nat} {sec : Nat} (h : Calm s t) : Calm s (t.injectAt kinds sec) := foldl (fun _ _ k => k.step rfl) h

/-- Nothing is found where nothing is damaged. -/
theorem unharmed (hs : Sound t) (crc : Bool) (sec : Nat) : t.probeHarm crc sec = t := by
  have hnone : t.coh.harm.find sec = none := by rw [hs.harm]; rfl
  have hmatch : t.mismatch sec = false := by rw [State.mismatch, hs.checks]; rfl
  unfold State.probeHarm
  simp only [hnone, hmatch, Bool.and_false, Bool.false_eq_true, if_false]

theorem probeHarm {crc : Bool} {sec : Nat} (h : Calm s t) : Calm s (t.probeHarm crc sec) := by
  have hlast {v : State} {p : Prop} [Decidable p] (k : landscape v = landscape t ∧ v.pkg = t.pkg) :
      landscape (if p then v.poisonSecs .check [sec] else v) = landscape t ∧ (if p then v.poisonSecs .check [sec] else v).pkg = t.pkg := by
    split <;> exact k
  have hsame : landscape (t.probeHarm crc sec) = landscape t ∧ (t.probeHarm crc sec).pkg = t.pkg := by
    unfold State.probeHarm
    refine hlast ?_
    split
    · exact ⟨rfl, rfl⟩
    · exact ⟨rfl, rfl⟩
    · split <;> exact ⟨rfl, rfl⟩
    · split <;> exact ⟨rfl, rfl⟩
  exact h.trans ⟨hsame.1, fun hs => by rw [unharmed hs]; exact hs, fun _ hr => by rw [hsame.2]; exact hr⟩

theorem wakeHome {a : Nat} (h : Calm s t) : Calm s (t.wakeHome a) := ite h (h.step rfl)

theorem fillSec {mod : Bool} {sec : Nat} (h : Calm s t) : Calm s (t.fillSec mod sec) := by
  have hfill (b : Block) : Calm s (t.modCoh fun c => { c with blocks := c.blocks.insert (sec / 16) b }) := h.step rfl
  exact ite (hfill _) (trimL2 (hfill _))

theorem fetchUnits {secs : List Nat} (h : Calm s t) : Calm s (t.fetchUnits secs) := foldl (fun _ _ k => ite k (fillSec (probeHarm k))) h

theorem detect {sec : Nat} {f : Finder} (h : Calm s t) : Calm s (t.detect sec f) :=
  h.step rfl (g := fun _ => List.mem_append_left _)

theorem checkSecs {crc : Bool} {secs : List Nat} (h : Calm s t) : Calm s (t.checkSecs crc secs).2 := foldl (fun _ _ => probeHarm) h

theorem inspect {crc : Bool} {secs : List Nat} (h : Calm s t) : Calm s (t.inspect crc secs) := by
  have hc := h.checkSecs (crc := crc) (secs := secs)
  unfold State.inspect
  split
  · next e => exact detect (hc.of_eq e)
  · next e => exact hc.of_eq e

theorem mergeCheck {a n : Nat} (h : Calm s t) : Calm s (t.mergeCheck a n).2 := by
  unfold State.mergeCheck
  split
  · exact h
  · exact checkSecs h

theorem readHome {a n : Nat} (h : Calm s t) : Calm s (t.readHome a n) :=
  ite (fetchUnits (inspect (foldl (fun _ _ => probeHarm) (wakeHome h)))) h

/-! ### What follows a write -/

theorem noteWrite {tid key n : Nat} (h : Calm s t) : Calm s (t.noteWrite tid key n) := ite h (h.step rfl)

theorem noteRead {tid key n : Nat} (h : Calm s t) : Calm s (t.noteRead tid key n) := ite h (h.step rfl)

theorem postAll {l : List Turn} (h : Calm s t) : Calm s (t.postAll l) := h.step rfl

theorem wakeAt {a n : Nat} (h : Calm s t) : Calm s (t.wakeAt a n) := postAll (ite h (h.step rfl))

theorem failResv {a n : Nat} (h : Calm s t) : Calm s (t.failResv a n) := h.step rfl

theorem wakeOps {a n : Nat} (h : Calm s t) : Calm s (t.wakeOps a n) := h.step rfl

theorem tagBlock {a : Nat} {w : Option Writer} (h : Calm s t) : Calm s (t.tagBlock a w) := ite (step (fillSec h) rfl) h

theorem refuseEntry {e : QEntry} (h : Calm s t) : Calm s (t.refuseEntry e) := ite (h.step rfl) (divert h)

end Calm

end Sys2Proof.Claims
end

section
/-! SUPPORT. The registers and crews under the operations of memory that land writes: only a half that returns a value writes a register. -/

namespace Sys2Proof.Claims
open Machine

/-- No half under way returns a value. -/
def Unreturning (s : State) : Prop := ∀ h ∈ s.coh.halves, h.ret = none

/-- No register but those of lanes that wait for halves, no crew, not the clock and, where `q` holds, no block's format has changed, and no report of
damage and no retired page has gone; where no half returned a value, none does and every register is as it was. A translation keeps for `q := False` alone. -/
structure Steady (q : Prop) (s t : State) : Prop where
  preg    : t.preg = s.preg
  kreg    : t.kreg = s.kreg
  crews   : t.crews = s.crews
  clock   : t.clock = s.clock
  fmts    : q → t.coh.fmts = s.coh.fmts
  retired : t.pkg.retireList = s.pkg.retireList
  reports : ∀ r ∈ s.pkg.reports, r ∈ t.pkg.reports
  vreg    : Unreturning s → Unreturning t ∧ t.vreg = s.vreg

theorem Calm.steady {q : Prop} {s t : State} (h : Calm s t) : Steady q s t :=
  ⟨h.preg, h.kreg, h.crews, h.clock, fun _ => h.fmts, h.retired, h.reports, fun hs => ⟨fun e he => hs e (h.halves ▸ he), h.vreg⟩⟩

namespace Steady

variable {q : Prop} {s t u : State}

theorem refl (s : State) : Steady q s s := (Calm.refl s).steady

theorem trans (h : Steady q s t) (g : Steady q t u) : Steady q s u :=
  ⟨g.preg.trans h.preg, g.kreg.trans h.kreg, g.crews.trans h.crews, g.clock.trans h.clock, fun k => (g.fmts k).trans (h.fmts k),
    g.retired.trans h.retired, fun r hr => g.reports r (h.reports r hr), fun hs =>
    let ⟨ht, hv⟩ := h.vreg hs
    let ⟨hu, hw⟩ := g.vreg ht
    ⟨hu, hw.trans hv⟩⟩

/-- An operation that lands nothing goes on. -/
theorem calm (h : Steady q s t) (g : Calm t u) : Steady q s u := h.trans g.steady

theorem regsKept (h : Steady q s t) (hs : Unreturning s) : RegsKept s t := ⟨(h.vreg hs).2, h.preg, h.kreg, h.crews⟩

/-! ### Folds and choices -/

theorem foldl_mem {α : Type} {f : State → α → State} {l : List α} (hf : ∀ t, ∀ a ∈ l, Steady q s t → Steady q s (f t a)) (h : Steady q s t) :
    Steady q s (l.foldl f t) := by
  induction l generalizing t with
  | nil => exact h
  | cons a l ih => exact ih (fun t b hb => hf t b (List.mem_cons_of_mem a hb)) (hf t a (List.mem_cons_self ..) h)

theorem foldl {α : Type} {f : State → α → State} {l : List α} (hf : ∀ t a, Steady q s t → Steady q s (f t a)) (h : Steady q s t) :
    Steady q s (l.foldl f t) := foldl_mem (fun t a _ => hf t a) h

theorem ite {p : Prop} [Decidable p] (ht : Steady q s t) (hu : Steady q s u) : Steady q s (if p then t else u) := by
  split
  · exact ht
  · exact hu

theorem of_eq {α : Type} {p : α × State} {a : α} (h : Steady q s p.2) (e : p = (a, t)) : Steady q s t := by
  subst e; exact h

/-! ### Changes of one part of the state -/

/-- Only other parts of the state have changed. -/
theorem step (h : Steady q s t) (hv : u.vreg = t.vreg) (hp : u.preg = t.preg) (hk : u.kreg = t.kreg) (hc : u.crews = t.crews) (hl : u.clock = t.clock)
    (hf : u.coh.fmts = t.coh.fmts) (hg : u.pkg = t.pkg) (hh : Unreturning t → Unreturning u) : Steady q s u :=
  h.trans ⟨hp, hk, hc, hl, fun _ => hf, by rw [hg], fun _ hr => by rw [hg]; exact hr, fun ht => ⟨hh ht, hv⟩⟩

theorem modCoh {f : Coh → Coh} (hf : ∀ c, (f c).halves = c.halves ∧ (f c).fmts = c.fmts) (h : Steady q s t) : Steady q s (t.modCoh f) :=
  h.step rfl rfl rfl rfl rfl (hf t.coh).2 rfl fun ht e he => ht e ((hf t.coh).1 ▸ he)

theorem modEng {f : Engines → Engines} (h : Steady q s t) : Steady q s (t.modEng f) := h.step rfl rfl rfl rfl rfl rfl rfl fun ht => ht

theorem post {a : Turn} (h : Steady q s t) : Steady q s (t.post a) := h.step rfl rfl rfl rfl rfl rfl rfl fun ht => ht

theorem drawNat (h : Steady q s t) : Steady q s t.drawNat.2 := h.step rfl rfl rfl rfl rfl rfl rfl fun ht => ht

theorem withNextId {n : Nat} (h : Steady q s t) : Steady q s { t with nextId := n } := h.step rfl rfl rfl rfl rfl rfl rfl fun ht => ht

/-- One more half is due. -/
theorem addHalf {e : Half} (he : Unreturning s → e.ret = none) (h : Steady q s t) : Steady q s (t.modCoh fun c => { c with halves := c.halves ++ [e] }) :=
  ⟨h.preg, h.kreg, h.crews, h.clock, h.fmts, h.retired, h.reports, fun hs =>
    ⟨fun g hg => (List.mem_append.1 hg).elim ((h.vreg hs).1 g) fun hg => List.mem_singleton.1 hg ▸ he hs, (h.vreg hs).2⟩⟩

/-! ### Writes at their home -/

theorem landPiece {a : Nat} {bs : List Byte} {w : Option Writer} (h : Steady q s t) : Steady q s (t.landPiece a bs w) := by
  have hunit : Calm t ((t.wakeHome a).gather (sectorOf a) (proxyAgent (homeDie a))) := (Calm.refl t).wakeHome.gather
  unfold State.landPiece
  dsimp only
  generalize (t.wakeHome a).gather (sectorOf a) (proxyAgent (homeDie a)) = u at hunit
  have hfetched := h.calm (Calm.ite (p := a < hbmEnd) (hunit.fetchUnits (secs := u.unitSecs (sectorOf a))) hunit)
  generalize (if a < hbmEnd then u.fetchUnits (u.unitSecs (sectorOf a)) else u) = v at hfetched
  let x := v.modCoh fun c => { c with poison := c.poison.erase (sectorOf a), checks := c.checks.erase (sectorOf a) }
  have hwritten : Steady q s { x with mem := x.mem.writeBytes a bs } := hfetched.step rfl rfl rfl rfl rfl rfl rfl fun hv => hv
  exact ite hfetched (hwritten.calm (Calm.refl _).tagBlock.injectAt)

theorem landBytes {a : Nat} {bs : List Byte} {w : Option Writer} (h : Steady q s t) : Steady q s (t.landBytes a bs w) :=
  calm (foldl (fun _ _ => landPiece) h) (Calm.refl _).failResv.wakeOps.wakeAt

theorem landDie {w : DieWrite} (h : Steady q s t) : Steady q s (t.landDie w) := by
  have hc := h.calm ((Calm.refl t).mergeCheck (a := w.pa) (n := w.bytes.length))
  have hkeep {v : State} (k : Steady q s v) : Steady q s (v.modCoh fun c => { c with dieWrites := c.dieWrites ++ [w] }) := modCoh (fun _ => ⟨rfl, rfl⟩) k
  unfold State.landDie
  refine ite (hkeep h) (ite ?_ ?_)
  · split
    · exact ite h (ite (hkeep h) (h.calm (Calm.refl t).divert))
    · exact h
  · split
    · next e => exact hkeep ((hc.of_eq e).calm (Calm.refl _).detect)
    · next e => exact landBytes (hc.of_eq e)

theorem flushDies {p : DieWrite → Bool} (h : Steady q s t) : Steady q s (t.flushDies p) := ite h (foldl (fun _ _ => landDie) (modCoh (fun _ => ⟨rfl, rfl⟩) h))

theorem flushUnits {a n : Nat} (h : Steady q s t) : Steady q s (t.flushUnits a n) := flushDies h

theorem countWrite {a : Nat} {w : Writer} (h : Steady q s t) : Steady q s (t.countWrite a w) := landBytes ((flushUnits h).calm (Calm.refl _).inspect)

theorem land {a : Nat} {bs : List Byte} {w : Writer} {watch : Bool} (h : Steady q s t) : Steady q s (t.land a bs w watch) := landBytes (ite (countWrite h) h)

/-- The value of a half that returns one goes to its lane's register, and its cohort may wait no longer. -/
theorem returnHalf_eq (t : State) (e : Half) (old : Nat) : ∃ u v m, Calm t u ∧ t.returnHalf e old = { u with vreg := v, cohorts := m } := by
  unfold State.returnHalf
  split
  · exact ⟨t, t.vreg, t.cohorts, .refl t, rfl⟩
  · dsimp only
    generalize BitVec.ofNat 32 _ = w
    split
    · exact ⟨_, _, _, (Calm.refl t).noteRead, rfl⟩
    · exact ⟨_, _, _, (Calm.refl t).noteRead, rfl⟩

theorem returnHalf {e : Half} {old : Nat} (he : Unreturning s → e.ret = none) (h : Steady q s t) : Steady q s (t.returnHalf e old) := by
  obtain ⟨u, v, m, hu, heq⟩ := returnHalf_eq t e old
  have hnone (hs : Unreturning s) : t.returnHalf e old = t := by rw [State.returnHalf, he hs]
  refine ⟨?_, ?_, ?_, ?_, fun hq => ?_, ?_, fun r hr => ?_, fun hs => by rw [hnone hs]; exact h.vreg hs⟩
  · rw [heq]; exact hu.preg.trans h.preg
  · rw [heq]; exact hu.kreg.trans h.kreg
  · rw [heq]; exact hu.crews.trans h.crews
  · rw [heq]; exact hu.clock.trans h.clock
  · rw [heq]; exact hu.fmts.trans (h.fmts hq)
  · rw [heq]; exact hu.retired.trans h.retired
  · rw [heq]; exact hu.reports r (h.reports r hr)

theorem landHalf {e : Half} (he : Unreturning s → e.ret = none) (h : Steady q s t) : Steady q s (t.landHalf e) := by
  have hc := h.calm ((Calm.refl t).mergeCheck (a := e.pa) (n := 2))
  unfold State.landHalf
  refine ite (addHalf he h) (ite ?_ ?_)
  · split
    · exact ite h (ite (addHalf he h) (h.calm (Calm.refl t).divert))
    · exact h
  · split
    · next e => exact addHalf he ((hc.of_eq e).calm (Calm.refl _).detect)
    · next e => exact returnHalf he (landBytes (flushUnits (hc.of_eq e)))

theorem flushHalves {p : Half → Bool} (h : Steady q s t) : Steady q s (t.flushHalves p) := by
  have hkept : Steady q s (t.modCoh fun c => { c with halves := c.halves.filter fun e => !p e }) :=
    h.step rfl rfl rfl rfl rfl rfl rfl fun ht e he => ht e (List.mem_of_mem_filter he)
  exact ite h (foldl_mem (fun _ e he => landHalf fun hs => (h.vreg hs).1 e (List.mem_of_mem_filter he)) hkept)

theorem performHalf {req tid a e : Nat} {w : Writer} {eff : Option (Nat × MemEff)} {ret : Option (Nat × Nat)} {watch : Bool} (hr : Unreturning s → ret = none)
    (h : Steady q s t) : Steady q s (t.performHalf req tid a e w eff ret watch) := by
  have hdraw (o : Option Half) : Steady q s (match o with
      | some h => (if h.pa == a then 1 else 0, t)
      | none => (t.drawNat.1 % 2, t.drawNat.2)).2 := by
    cases o with
    | none => exact drawNat h
    | some _ => exact h
  exact post (landHalf hr (addHalf hr (flushHalves (ite (countWrite (flushUnits (hdraw _))) (flushUnits (hdraw _))))))

/-! ### The quantum buffer -/

theorem landEntry {e : QEntry} (h : Steady q s t) : Steady q s (t.landEntry e) := by
  have hc := h.calm ((Calm.refl t).mergeCheck (a := e.pa) (n := e.eff.bytes.length))
  unfold State.landEntry
  refine ite (h.calm (Calm.refl t).refuseEntry) ?_
  split
  · next e => exact (hc.of_eq e).calm (Calm.refl _).detect.refuseEntry
  · next e =>
    have hf {p : Half → Bool} {a n : Nat} := (hc.of_eq e).flushUnits (a := a) (n := n) |>.flushHalves (p := p)
    refine calm ?_ (Calm.refl _).noteWrite
    split
    · exact performHalf (fun _ => rfl) (withNextId hf)
    · exact land hf
    · exact hf

theorem applyEntry {fuel : Nat} {e : QEntry} (h : Steady q s t) : Steady q s (State.applyEntry fuel e t) := by
  induction fuel generalizing e t with
  | zero => exact h
  | succ fuel ih =>
    have hu : Steady q s (t.unbuffer e) := modEng h
    unfold State.applyEntry
    exact ite (hu.calm (Calm.refl _).sendRemote) (landEntry (foldl (fun _ _ k => ite (ih k) k) (ite hu (flushHalves (flushDies hu)))))

theorem applyEntries {l : List QEntry} (h : Steady q s t) : Steady q s (t.applyEntries l) := foldl (fun _ _ k => ite (applyEntry k) k) h

theorem spill {agent : Nat} {p : TlbEntry → Bool} (h : Steady q s t) : Steady q s (t.spill agent p) := applyEntries h

theorem complete {secs : List Nat} (h : Steady q s t) : Steady q s (t.complete secs) := ite h (foldl (fun _ _ => spill) (flushHalves (flushDies h)))

theorem flushQuantum {core : Nat} (h : Steady q s t) : Steady q s (t.flushQuantum core) := applyEntries h

theorem flushNamed {core key n : Nat} (h : Steady q s t) : Steady q s (t.flushNamed core key n) := ite (flushQuantum h) h

theorem flushFor {c : Cohort} {x : Mem} {n : Nat} {acc : Acc} {lanes : List Lane} (h : Steady q s t) : Steady q s (t.flushFor c x n acc lanes) := by
  refine foldl (fun v l k => ?_) h
  split
  · exact ite (flushNamed k) (ite (flushQuantum k) k)
  · exact k

theorem orderFlush {core : Nat} {order : Order} {scope : Scope} (h : Steady q s t) : Steady q s (t.orderFlush core order scope) := by
  have hr : Steady q s (t.releaseFlush core scope) := ite (flushDies (flushHalves (flushQuantum h))) (flushHalves (flushQuantum h))
  exact ite (flushDies (ite hr h)) (ite hr h)

/-! ### Read tokens -/

theorem grantSec {sec agent : Nat} (h : Steady q s t) : Steady q s (t.grantSec sec agent) := by
  unfold State.grantSec
  refine ite h (ite (h.calm (Calm.refl t).give) (ite (h.calm (Calm.refl t).give) ?_))
  split
  · exact h.calm (Calm.refl t).give
  · exact (complete h).calm (Calm.refl _).gather.give

theorem grant {sec agent : Nat} (h : Steady q s t) : Steady q s (t.grant sec agent) := foldl (fun _ _ => grantSec) h

theorem sendEvict {sec agent : Nat} (h : Steady q s t) : Steady q s (t.sendEvict sec agent) :=
  ite h (post (calm (ite (complete h) (flushDies h)) (Calm.refl _).surrender.setUnit))

theorem trimCache {agent sets cap sec : Nat} {desc : Bool} (h : Steady q s t) : Steady q s (t.trimCache agent sets cap sec desc) :=
  ite h (foldl (fun _ _ => sendEvict) (drawNat h))

theorem grantL1 {core key n : Nat} (h : Steady q s t) : Steady q s (t.grantL1 core key n) := ite h (trimCache (foldl (fun _ _ => grant) h))

/-! ### The walk -/

theorem readPte {agent sec : Nat} (h : Steady q s t) : Steady q s (t.readPte agent sec) :=
  ite h (grantSec ((flushHalves (flushDies h)).calm (Calm.refl _).probeHarm))

theorem noteEntry {e : TlbEntry} (h : Steady q s t) : Steady q s (t.noteEntry e) :=
  ite h (ite h (modCoh (fun _ => ⟨rfl, rfl⟩) (ite h ((spill h).calm (Calm.refl _).dropTrans))))

theorem noteWalk {agent ctx : Nat} {root : Dword} {va lvl : Nat} {as : List Nat} {r : Tr} (h : Steady q s t) :
    Steady q s (t.noteWalk agent ctx root va lvl as r) := by
  unfold State.noteWalk
  split
  · exact foldl (fun _ _ => noteEntry) h
  · exact h

theorem walkFor {agent ctx : Nat} {root : Dword} {priv : Bool} {va : Nat} {acc : Acc} (h : Steady q s t) :
    Steady q s (t.walkFor agent ctx root priv va acc).2 := by
  have hread (l : List Nat) := foldl (l := l) (fun t a => readPte (agent := agent) (sec := sectorOf a)) h
  unfold State.walkFor
  dsimp only
  split
  · exact (hread _).calm (Calm.refl _).askHost
  · exact noteWalk (hread _)

theorem noteFmt {key pte : Nat} (h : Steady False s t) : Steady False s (t.noteFmt key pte) :=
  ite h (h.trans ⟨rfl, rfl, rfl, rfl, nofun, rfl, fun _ hr => hr, fun ht => ⟨ht, rfl⟩⟩)

theorem translate {agent ctx : Nat} {root : Dword} {priv : Bool} {va : Nat} {acc : Acc} {slot : Option Nat} (h : Steady False s t) :
    Steady False s (t.translate agent ctx root priv va acc slot).2 := by
  have hfound (o : Option Tr) : Steady False s (match o with
      | some r => (r, t)
      | none => t.walkFor agent ctx root priv va acc).2 := by
    cases o with
    | none => exact walkFor h
    | some _ => exact h
  unfold State.translate
  dsimp only
  split
  · refine noteFmt ?_
    split
    · exact modCoh (fun _ => ⟨rfl, rfl⟩) (hfound _)
    · exact hfound _
  · exact hfound _

theorem reach {c : Cohort} {lane va : Nat} {acc : Acc} (h : Steady False s t) : Steady False s (t.reach c lane va acc).2 := translate h

end Steady

/-- Where no write is under way no half returns a value. -/
theorem Quiet.unreturning {s : State} (h : Quiet s) : Unreturning s := fun _ he => nomatch h.halves ▸ he

theorem translationStoresNothing : TranslationStoresNothing := by
  intro s c lane va acc hs u
  obtain ⟨hu, hmem⟩ := ((Keeps.refl (q := True) s).reach (c := c) (lane := lane) (va := va) (acc := acc)).quiet trivial hs
  exact ⟨hmem, hu, (Steady.refl (q := False) s).reach.regsKept hs.unreturning⟩

end Sys2Proof.Claims
end

section
/-! SUPPORT. The proof of O26: a load of one lane, and what a page that is not mapped does to a thread. -/

namespace Sys2Proof.Claims
open Machine

/-! ### The state in which a lane acts -/

namespace Keeps

variable {q : Prop} {s t : State}

theorem begun (s : State) : Keeps q s (begun s) := ⟨rfl, fun _ ⟨d, e, g⟩ => ⟨⟨d, e, g⟩, rfl⟩⟩

theorem orderFlush {core : Nat} {order : Order} {scope : Scope} (h : Keeps q s t) : Keeps q s (t.orderFlush core order scope) := by
  have hr : Keeps q s (t.releaseFlush core scope) := ite (flushDies (flushHalves (flushQuantum h))) (flushHalves (flushQuantum h))
  exact ite (flushDies (ite hr h)) (ite hr h)

theorem fenceFirst {c : Cohort} {order : Order} {scope : Scope} (h : Keeps q s t) : Keeps q s (t.fenceFirst c order scope) :=
  ite (withCrews (orderFlush h)) (orderFlush h)

theorem grantL1 {core key n : Nat} (h : Keeps q s t) : Keeps q s (t.grantL1 core key n) := ite h (trimCache (foldl (fun _ _ => grant) h))

theorem touchLoad {c : Cohort} {n : Nat} {r : Reach} (h : Keeps q s t) : Keeps q s (t.touchLoad c n r) := by
  unfold State.touchLoad
  split
  · exact ite (flushNamed h) (ite (readHome (flushNamed h)) (grantL1 (readHome (flushNamed h))))
  · exact h

end Keeps

theorem Steady.touchLoad {q : Prop} {s t : State} {c : Cohort} {n : Nat} {r : Reach} (h : Steady q s t) : Steady q s (t.touchLoad c n r) := by
  unfold State.touchLoad
  split
  · next key _ _ =>
    have hread : Steady q s ((t.flushNamed c.core key n).readHome key n) := h.flushNamed.calm (Calm.refl _).readHome
    exact ite h.flushNamed (ite hread hread.grantL1)
  · exact h

section
variable {rel : Bool} {s b u : State} {c : Cohort} {x : Mem} {l : Lane} {n : Nat} {acc : Acc} {i : Instr} {va : Nat}
  (h : LaneActs rel s b u c x l n acc i va)
include h

/-- Up to where a lane acts, no page changes its bias, and a quiet state stays quiet. -/
theorem LaneActs.keeps {q : Prop} : Keeps q s u := by
  obtain ⟨-, -, -, hb, -, -, -, hu, -, -⟩ := h
  have hflushed : Keeps q s (flushed s c x n acc [l]) := .flushFor (.begun s)
  have hissue : Keeps q s b := by rw [hb]; exact .ite (.flushQuantum hflushed) hflushed
  rw [hu]
  exact .ite (.fenceFirst hissue) hissue

/-- Up to where a lane acts, no register changes but those of lanes that wait for halves; crews see their k writes at a fence. -/
theorem LaneActs.steady : ∃ w m, Steady False s w ∧ u = { w with crews := m } := by
  obtain ⟨-, -, -, hb, -, -, -, hu, -, -⟩ := h
  have hbegun : Steady False s (begun s) := (Steady.refl s).step rfl rfl rfl rfl rfl rfl rfl fun hs => hs
  have hflushed : Steady False s (flushed s c x n acc [l]) := .flushFor hbegun
  have hissue : Steady False s b := by rw [hb]; exact .ite (.flushQuantum hflushed) hflushed
  rw [hu]
  cases rel with
  | false => exact ⟨b, b.crews, hissue, rfl⟩
  | true =>
    have hfence : Steady False s (b.orderFlush c.core x.order x.scope) := hissue.orderFlush
    by_cases hsc : (x.order == .sc) = true
    · exact ⟨_, _, hfence, (if_pos rfl).trans (if_pos hsc)⟩
    · exact ⟨_, _, hfence, (if_pos rfl).trans (if_neg hsc)⟩

end

/-! ### The load -/

theorem execLd_acts {s b u : State} {c : Cohort} {x : Mem} {l : Lane} {va : Nat}
    (h : LaneActs (x.order == .sc) s b u c x l (widthBytes x.width) .read (.ld x) va) (hs : x.split = false) :
    ∃ first, exec (.ld x) s = .next (finished b (u.loadLanes c first x [l]) c (.ld x) x.pred x.stall) := by
  obtain ⟨hi, hl, hw, hb, hready, hbl, hp, hu, -, -⟩ := h
  have hl : (begun s).execLanes c x.pred = [l] := hl
  have hwait : ¬([l].any ((flushed s c x (widthBytes x.width) .read [l]).laneWaits c x (widthBytes x.width) .read)) = true := by simpa using hw
  rw [show exec (.ld x) s = execLd x s from rfl, execLd, onCohort_next hi]
  simp only [hl, hs, List.isEmpty_cons, Bool.not_false, Bool.and_true, Bool.false_eq_true, if_false, State.splitGroups_nil, mergeGroups_nil,
    List.reverse_nil, List.foldl_nil]
  refine ⟨b.nextId, congrArg Host.Outcome.next ((if_neg hwait).trans ?_)⟩
  rw [show (begun s).flushFor c x (widthBytes x.width) .read [l] = flushed s c x (widthBytes x.width) .read [l] from rfl, ← hb]
  have hgoes : ¬(x.order == .sc && b.orderWaits c x.order [l]) = true := by
    rw [Bool.and_eq_true]
    exact fun ⟨hsc, hheld⟩ => Bool.false_ne_true ((hready hsc).symm.trans hheld)
  rw [if_neg hgoes, issue_of_passes hp, hbl, hu]
  by_cases hsc : (x.order == .sc) = true
  · rw [if_pos (by rw [hsc]; rfl), if_pos hsc, eq_of_beq hsc]
  · simp only [hsc, Bool.false_and, Bool.false_eq_true, if_false]

/-- A load of one lane binds what it has reached, its home read and no half of its thread in its way. -/
theorem loadLanes_of_one {u v w : State} {c : Cohort} {x : Mem} {l : Lane} {va : Nat} {r : Reach} (first : Nat) (hva : u.laneEA c x l = some va)
    (hn : va % widthBytes x.width = 0) (hr : u.reach c l.pos va .read = (r, v)) (hw : w = v.touchLoad c (widthBytes x.width) r)
    (hown : ∀ key pte unit, r = .go key pte unit → ∀ e ∈ w.coh.halves, e.thread ≠ l.tid) (hva' : w.laneEA c x l = some va) :
    u.loadLanes c first x [l] = w.bindLoad c first x l va r := by
  have hreach : u.reachLanes c x (widthBytes x.width) .read [l] = ([(l.tid, r)], v) := by
    simp only [State.reachLanes, hva, hn, hr, bne_self_eq_false, Bool.false_eq_true, if_false]
  unfold State.loadLanes
  simp only [hreach, List.foldl_cons, List.foldl_nil, ← hw]
  cases r with
  | go key pte unit =>
    have hkept : w.ownHalves l.tid key (widthBytes x.width) = w :=
      foldl_ownHalves_eq (lanes := [l]) fun r hr => List.mem_singleton.1 hr ▸ hown key pte unit rfl
    simp only [hkept, State.withEA, hva', hn, bne_self_eq_false, Bool.false_eq_true, if_false, List.find?_cons, beq_self_eq_true]
  | _ => simp only [State.withEA, hva', hn, bne_self_eq_false, Bool.false_eq_true, if_false, List.find?_cons, beq_self_eq_true]

/-- A lane's address is what its registers say. -/
theorem laneEA_of_vreg {s t : State} (hv : t.vreg = s.vreg) (hc : t.clock = s.clock) (c : Cohort) (x : Mem) (l : Lane) :
    t.laneEA c x l = s.laneEA c x l := by
  simp only [State.laneEA, State.laneVal, State.seenV, State.getV, hv, hc]

/-- A loaded value changes no register but its own. -/
theorem getV_putLoad_other (s : State) {cid tid o n : Nat} {d : BitVec 8} {w : Width} (bs : List Byte) (hd : d.toNat + w.regs ≤ 256) (hn : n < 256)
    (ho : ¬(o = tid ∧ d.toNat ≤ n ∧ n < d.toNat + w.regs)) : (s.putLoad cid tid d w bs).getV o n = s.getV o n := by
  by_cases hot : o = tid
  · subst hot
    have hne {k : Nat} (hk : k < w.regs) : vKey o n ≠ vKey o (d.toNat + k) := fun e => by
      have hkey := ((vKey_inj hn (by omega)).1 e).2
      exact ho ⟨rfl, by omega, by omega⟩
    unfold State.putLoad
    cases w with
    | b64 => exact State.getV_putLane_ne _ _ _ (hne (k := 0) (by decide)) fun _ => hne (k := 1) (by decide)
    | b128 =>
      exact (State.getV_putLane_ne _ _ _ (hne (k := 2) (by decide)) fun _ => hne (k := 3) (by decide)).trans
        (State.getV_putLane_ne _ _ _ (hne (k := 0) (by decide)) fun _ => hne (k := 1) (by decide))
    | _ => exact State.getV_putV_ne _ _ _ (hne (k := 0) (by decide))
  · exact getV_putLoad_ne s bs hd hn hot

/-- A load of what the device holds and nothing damages takes what its lane sees. -/
theorem bindLoad_near {w : State} {c : Cohort} {x : Mem} {l : Lane} {va key unit : Nat} {pte : Dword} (first : Nat) (hnear : w.remoteKey key = false)
    (hp : w.poisonedIn key (widthBytes x.width) = none) :
    w.bindLoad c first x l va (.go key pte unit) = takeRead c x va key (widthBytes x.width) w l := by
  unfold State.bindLoad
  simp only [farRead_of_near hnear, hp, ite_self, Bool.false_eq_true, if_false]
  rfl

theorem putLoad_otherFiles (s : State) (cid tid : Nat) (d : BitVec 8) (w : Width) (bs : List Byte) :
    (s.putLoad cid tid d w bs).preg = s.preg ∧ (s.putLoad cid tid d w bs).kreg = s.kreg := by
  unfold State.putLoad
  cases w with
  | b64 => exact ⟨State.putLane_preg .., State.putLane_kreg ..⟩
  | b128 => exact ⟨(State.putLane_preg ..).trans (State.putLane_preg ..), (State.putLane_kreg ..).trans (State.putLane_kreg ..)⟩
  | _ => exact ⟨rfl, rfl⟩

theorem loadBindsBytes : LoadBindsBytes := by
  intro s b u v c x l va key unit pte n hacts hsplit hregs hreach hnear hret w hpois hhalves bytes
  have hd : x.d.toNat + x.width.regs ≤ 256 := kld_fits hregs
  obtain ⟨-, -, -, -, -, -, -, -, hva, hn⟩ := id hacts
  obtain ⟨y, m, hy, hu⟩ := hacts.steady
  obtain ⟨hunret, hyv⟩ := hy.vreg hret
  have huy : u.vreg = y.vreg ∧ u.preg = y.preg ∧ u.kreg = y.kreg ∧ Unreturning u := by subst hu; exact ⟨rfl, rfl, rfl, hunret⟩
  obtain ⟨huv, hup, huk, huret⟩ := huy
  have huw : Steady False u w := (Steady.of_eq (.reach (.refl u)) hreach).touchLoad
  have hkept {q : Prop} : Keeps q v w := .touchLoad (.refl v)
  have hwva : w.laneEA c x l = some va := (laneEA_of_vreg (huw.vreg huret).2 huw.clock c x l).trans hva
  obtain ⟨first, hexec⟩ := execLd_acts hacts hsplit
  have hload : u.loadLanes c first x [l] = takeRead c x va key n w l :=
    (loadLanes_of_one first hva hn hreach rfl (fun _ _ _ _ => hhalves) hwva).trans
      (bindLoad_near first ((hkept.remoteKey (q := True) key).trans (hnear 0 (widthBytes_pos _))) hpois)
  rw [hload] at hexec
  have hbytes : w.loadBytes c.core (if c.irr then [] else l.buf) va key n = bytes := by
    rw [State.loadBytes, apply_ite List.reverse, List.reverse_nil]
  have hwv : (w.noteRead l.tid key n).vreg = s.vreg := (noteRead_vreg ..).trans ((huw.vreg huret).2.trans (huv.trans hyv))
  have hcoh : (takeRead c x va key n w l).coh = w.coh := takeRead_coh ..
  have hnote : Calm w (w.noteRead l.tid key n) := (Calm.refl w).noteRead
  have hputs : (takeRead c x va key n w l).preg = (w.noteRead l.tid key n).preg ∧ (takeRead c x va key n w l).kreg = (w.noteRead l.tid key n).kreg :=
    putLoad_otherFiles ..
  obtain ⟨hputp, hputk⟩ := hputs
  refine ⟨_, hexec, ⟨?_, fun o k hk ho => ?_, ?_, ?_⟩, fun hs => ?_⟩
  · exact hbytes ▸ putLoad_loadedIn (w.noteRead l.tid key n) c.id l.tid (w.loadBytes c.core (if c.irr then [] else l.buf) va key n) hd
  · rw [loadedWords_length] at ho
    exact (getV_putLoad_other _ _ hd hk ho).trans (State.getV_of_vreg hwv ..)
  · exact hputp.trans (hnote.preg.trans (huw.preg.trans (hup.trans hy.preg)))
  · exact hputk.trans (hnote.kreg.trans (huw.kreg.trans (huk.trans hy.kreg)))
  · have hsw : Keeps True s w := (hacts.keeps.trans (.of_eq (.reach (.refl u)) hreach)).trans hkept
    obtain ⟨⟨hdies, -, -⟩, hmem⟩ := hsw.quiet trivial hs
    have hmemt : (takeRead c x va key n w l).mem = s.mem := (takeRead_mem ..).trans hmem
    refine ⟨fun i hi => ?_, hmemt, fun die a => ?_⟩
    · rw [seenByte_of_near ((hkept.remoteKey (q := True) _).trans (hnear i hi)) hdies, hmem]
    · have hfin : (finished b (takeRead c x va key n w l) c (.ld x) x.pred x.stall).coh = w.coh := hcoh
      unfold State.viewByte
      rw [hfin, hdies, hs.dies, finished_mem, hmemt]

/-! ### A page that is not mapped -/

/-- An access of one lane that may issue is its lane's, in the state that its order leaves. -/
theorem issueMem_acts {s b u : State} {c : Cohort} {x : Mem} {l : Lane} {n : Nat} {acc : Acc} {i : Instr} {va : Nat} (f : State → Lane → State)
    (h : LaneActs (c.irr && releases x.order) s b u c x l n acc i va) :
    (begun s).issueMem c i x n acc f = finished b (f u l) c i x.pred x.stall := by
  obtain ⟨hi, hl, hw, hb, hready, hbl, hp, hu, -, -⟩ := h
  have hl : (begun s).execLanes c x.pred = [l] := hl
  have hwait : ¬([l].any ((flushed s c x n acc [l]).laneWaits c x n acc)) = true := by simpa using hw
  have hgoes : ¬((c.irr && releases x.order) && b.orderWaits c x.order [l]) = true := by
    rw [Bool.and_eq_true]
    exact fun ⟨hrel, hheld⟩ => Bool.false_ne_true ((hready hrel).symm.trans hheld)
  unfold State.issueMem
  simp only [hl, List.isEmpty_cons, Bool.not_false, Bool.and_true]
  rw [show (begun s).flushFor c x n acc [l] = flushed s c x n acc [l] from rfl, if_neg hwait, ← hb, if_neg hgoes, issue_of_passes hp, hbl, hu]
  rfl

theorem dropLanes_threads (s : State) (cid : Nat) (tids : List Nat) : (s.dropLanes cid tids).threads = s.threads := by
  unfold State.dropLanes
  split
  · rfl
  · dsimp only
    split <;> rfl

theorem scramble_threads (s : State) (c : Cohort) (tid : Nat) : (s.scramble c tid).threads = s.threads := by
  have hset (u : State) (n : Nat) (b : Bool) : (u.setP tid n b).threads = u.threads := by
    unfold State.setP
    split <;> rfl
  refine foldl_keeps (g := State.threads) (fun e _ u => ?_) s
  dsimp only
  split
  · exact hset ..
  · rfl

/-- A thread that is parked stands where its cohort left it. -/
theorem park_find {s : State} {th : Thread} (c : Cohort) {l : Lane} (why : ParkWhy) (page : Nat) (unit : Option Nat) (h : s.threads.find l.tid = some th) :
    (s.park c l why page unit).threads.find l.tid =
      some { th with place := .parked ⟨why, c.core, page, unit, false, c.offset, c.traceId, s.retryFiling c l⟩ } := by
  have hkept : (if c.irr then s.dropLanes c.id [l.tid] else s.rollback c l.tid).threads = s.threads := by
    split
    · exact dropLanes_threads ..
    · exact (dropLanes_threads ..).trans (scramble_threads ..)
  unfold State.park
  dsimp only
  rw [State.find_modThread_self, hkept, h]
  rfl

/-- A thread that meets a page that is not mapped, and that has no record open, is parked with a recoverable record. -/
theorem parkPage_reports {v : State} {c : Cohort} {l : Lane} {th : Thread} (va unit : Nat) (h : v.threads.find l.tid = some th) (hr : th.pendRec = none) :
    let t := v.parkPage c l va (some unit)
    ∃ p r, (∃ h, t.threads.find l.tid = some h ∧ h.place = .parked p) ∧ p.page = va / 2 ^ 16 ∧ p.why = .page ∧ p.unit = some unit ∧ p.core = c.core ∧
      Turn.hw (.faultRecordWrite r) ∈ t.agenda ∧ r.cause = .page ∧ r.recov = true ∧ r.sideLog = false ∧ r.addr = va ∧ r.wid = th.wid ∧ t.mem = v.mem := by
  have hnone : v.pendCore c l (va / 2 ^ 16) = none := by
    unfold State.pendCore
    rw [h, Option.bind_some, hr]
  have hpark := park_find c .page (va / 2 ^ 16) (some unit) h
  have heq : v.parkPage c l va (some unit) = (v.park c l .page (va / 2 ^ 16) (some unit)).report
      { (v.park c l .page (va / 2 ^ 16) (some unit)).recordOf .page
          { th with place := .parked ⟨.page, c.core, va / 2 ^ 16, some unit, false, c.offset, c.traceId, v.retryFiling c l⟩ } c.core c.traceId c.offset va with
        recov := true } := by
    unfold State.parkPage State.reportPage
    simp only [hnone, hpark]
  refine ⟨_, _, ⟨_, by rw [heq]; exact hpark, rfl⟩, rfl, rfl, rfl, rfl, by rw [heq]; exact State.report_mem_agenda .., rfl, rfl, rfl, rfl, rfl,
    State.parkPage_mem ..⟩

/-- An atomic with a result meets a page that is not mapped. -/
theorem atomReturn_page {u v : State} {c : Cohort} {l : Lane} {va : Nat} {unit : Option Nat} (n : Nat) (e : MemEff) (cmp : List Byte) (d : BitVec 8)
    (h : u.reach c l.pos va .both = (.page unit, v)) : u.atomReturn c l va n e cmp d = v.parkPage c l va unit := by
  unfold State.atomReturn
  rw [h]
  rfl

/-- Nothing supplies a byte without buffered effects. -/
theorem coveredByStores_nil (va : Nat) (w : Width) : coveredByStores [] va (widthBytes w) = false := by
  unfold coveredByStores
  rw [List.all_eq_false]
  exact ⟨0, List.mem_range.2 (widthBytes_pos w), by simp [suppliedByte]⟩

/-- A load that its own buffered effects do not supply meets a page that is not mapped. -/
theorem bindLoad_page {v : State} {c : Cohort} {x : Mem} {l : Lane} {va : Nat} {unit : Option Nat} (first : Nat)
    (h : c.irr = true ∨ coveredByStores l.buf va (widthBytes x.width) = false) :
    v.bindLoad c first x l va (.page unit) = v.parkPage c l va unit := by
  have hcover : coveredByStores (if c.irr then [] else l.buf) va (widthBytes x.width) = false := by
    split
    · exact coveredByStores_nil ..
    · next hirr => exact h.resolve_left hirr
  unfold State.bindLoad
  simp only [hcover, Bool.false_eq_true, if_false]

theorem unmappedReadsPark : UnmappedReadsPark := by
  intro s b u v c x l va unit th hs hv hr hva' parks
  have hparks {i : Instr} (h : exec i s = .next (finished b (v.parkPage c l va (some unit)) c i x.pred x.stall)) : parks i := by
    obtain ⟨p, r, hrest⟩ := parkPage_reports (c := c) va unit hv hr
    exact ⟨_, p, r, h, rfl, hrest⟩
  refine ⟨fun hacts hsplit hreach hcover => ?_, fun hirr huse hreach => ⟨fun op cls hd hacts => ?_, fun hacts => ?_⟩⟩
  · obtain ⟨-, -, -, -, -, -, -, -, hva, hn⟩ := id hacts
    obtain ⟨first, hexec⟩ := execLd_acts hacts hsplit
    have hparked : u.loadLanes c first x [l] = v.parkPage c l va (some unit) :=
      (loadLanes_of_one (w := v) first hva hn hreach rfl nofun hva').trans (bindLoad_page first hcover)
    exact hparks (hparked ▸ hexec)
  · obtain ⟨hi, -, -, -, -, -, -, -, hva, hn⟩ := id hacts
    rw [← Bool.true_and (releases x.order), ← hirr] at hacts
    refine hparks ?_
    have hd : (x.d == 0) = false := by simpa using hd
    have huse : (x.use == .spec) = false := by simpa using huse
    have hlane : u.atomLane c x op cls l = v.parkPage c l va (some unit) := by
      unfold State.atomLane State.inBudget State.withEA
      simp only [hirr, hva, hn, huse, bne, hd, Bool.not_true, Bool.false_and, Bool.not_false, Bool.false_eq_true, if_false, if_true, beq_self_eq_true]
      exact atomReturn_page _ _ _ _ hreach
    rw [show exec (.atom x op cls) s = execAtom x op cls s from rfl, execAtom, onCohort_next hi]
    simp only [hd, Bool.and_false, Bool.false_and, Bool.false_eq_true, if_false]
    rw [issueMem_acts _ hacts, hlane]
  · obtain ⟨hi, -, -, -, -, -, -, -, hva, hn⟩ := id hacts
    rw [← Bool.true_and (releases x.order), ← hirr] at hacts
    have huse : (x.use == .spec) = false := by simpa using huse
    have hlane : u.casLane c x l = v.parkPage c l va (some unit) := by
      unfold State.casLane State.inBudget State.withEA
      simp only [hirr, hva, hn, huse, bne, Bool.not_true, Bool.false_and, Bool.false_eq_true, if_false, beq_self_eq_true]
      exact atomReturn_page _ _ _ _ hreach
    refine hparks ?_
    rw [show exec (.atomcas x) s = execAtomcas x s from rfl, execAtomcas, onCohort_next hi, issueMem_acts _ hacts, hlane]

/-- Settles O26: a translation lands nothing that a quiet state holds; a load takes what its lane sees once its home is read; an access that meets a page
that is not mapped parks its thread. -/
theorem loadsReadMemory : Obligations.LoadsReadMemory := ⟨translationStoresNothing, loadBindsBytes, unmappedReadsPark⟩

end Sys2Proof.Claims
end

section
/-! SUPPORT. The proof of O27: stores on their way, at pages that are not mapped, and buffered. -/

namespace Sys2Proof.Claims
open Machine

theorem length_bytesOf (n v : Nat) : (bytesOf n v).length = n := by
  induction n generalizing v with
  | zero => rfl
  | succ n ih => exact congrArg (· + 1) (ih _)

/-! ### One lane's store -/

section
variable {s b u v : State} {c : Cohort} {x : Mem} {l : Lane} {va : Nat}

/-- The effect of a lane's store. -/
def storeEff (u : State) (c : Cohort) (x : Mem) (l : Lane) (va : Nat) : MemEff := u.memEff c l va (u.srcBytes c l.tid x.d x.width) .store x

/-- A store of one lane of an irrevocable trace that may issue writes now. -/
theorem execSt_acts (h : LaneActs (releases x.order) s b u c x l (widthBytes x.width) .write (.st x) va) (hc : c.irr = true) :
    exec (.st x) s = .next (finished b (u.writeNow c l (storeEff u c x l va) .write) c (.st x) x.pred x.stall) := by
  obtain ⟨hi, -, -, -, -, -, -, -, hva, hn⟩ := id h
  rw [← Bool.true_and (releases x.order), ← hc] at h
  have hlane : u.storeLane c x l = u.writeNow c l (storeEff u c x l va) .write := by
    unfold State.storeLane State.withEA
    rw [inBudget_of (.inl hc)]
    simp only [hva, hn, hc, bne_self_eq_false, Bool.false_eq_true, if_false, if_true]
    rfl
  rw [show exec (.st x) s = execSt x s from rfl, execSt, onCohort_next hi, issueMem_acts _ h, hlane]

/-- A store to the device heads for its home. -/
theorem writeNow_near {e : MemEff} {key unit : Nat} {pte : Dword} (hlog : u.logsPage l.tid e.va = false)
    (hr : u.reach c l.pos e.va .write = (.go key pte unit, v)) (hnear : v.remoteKey key = false) (hk : e.kind = .store) :
    u.writeNow c l e .write = v.sendHome (tcAgent c.core) c.id e key pte[10] := by
  have hpeer : ¬peerKey ≤ key := by
    simp only [State.remoteKey, Bool.or_eq_false_iff, decide_eq_false_iff_not] at hnear
    exact hnear.2
  unfold State.writeNow
  simp only [hlog, hr, hnear, hk, hpeer, decide_false, Bool.false_and, Bool.false_eq_true, if_false, beq_self_eq_true, if_true]
  rfl

/-- A store whose thread has nothing in the side log for its page meets a page that is not mapped. -/
theorem writeNow_page {e : MemEff} {unit : Nat} (hlog : u.logsPage l.tid e.va = false) (hr : u.reach c l.pos e.va .write = (.page (some unit), v)) :
    u.writeNow c l e .write =
      if e.logs then v.logOrPark c l e fun s => s.log c.core e (some unit) false true else v.parkPage c l e.va (some unit) := by
  unfold State.writeNow
  simp only [hlog, hr, Bool.false_eq_true, if_false]
  rfl

end

/-! ### On its way -/

/-- What heading for its home makes of a state: a message with a turn of its own, for which the cohort waits where the side log would not take the
store. -/
theorem sendHome_eq (v : State) (agent cohort : Nat) (e : MemEff) (key : Nat) (watch : Bool) : ∃ k < 512, ∃ w,
    v.sendHome agent cohort e key watch = w ∧ Calm v w ∧ w.threads = v.threads ∧ w.coh.remote.find v.nextId =
      some ⟨false, some e, key, e.bytes.length, [], .write, cohort, e.thread, agent, watch, false, some (v.clock + k)⟩ ∧
    Turn.arrive v.nextId ∈ w.agenda ∧
    w.cohorts = if e.logs then v.cohorts else v.cohorts.modify cohort fun d => { d with waits := d.waits ++ [v.nextId] } := by
  refine ⟨v.drawNat.1 % 512, Nat.mod_lt _ (by decide), _, rfl, ?_⟩
  unfold State.sendHome
  cases e.logs with
  | true =>
    refine ⟨(Calm.refl v).step rfl, rfl, Map.find_insert_self .., List.mem_append_right _ (List.mem_singleton_self _), rfl⟩
  | false =>
    refine ⟨(Calm.refl v).step rfl, rfl, Map.find_insert_self .., List.mem_append_right _ (List.mem_singleton_self _), rfl⟩

theorem Calm.viewByte {s t : State} (h : Calm s t) (die a : Nat) : t.viewByte die a = s.viewByte die a := by
  unfold State.viewByte
  rw [h.dies, h.mem]

/-- A cohort that has gone on waits for what it waited for. -/
theorem finished_waits {s u : State} {c d : Cohort} {i : Instr} {p : Pred} {stall : BitVec 4} (h : (finished s u c i p stall).cohorts.find c.id = some d) :
    ∃ k, u.cohorts.find c.id = some k ∧ d.waits = k.waits := by
  cases hk : u.cohorts.find c.id with
  | none => simp [finished, State.advance, Map.find_modify_self, hk] at h
  | some k =>
    obtain ⟨rs, br, hfound⟩ := finished_find_self (s := s) i p stall hk
    exact ⟨k, rfl, by rw [← Option.some.inj (hfound.symm.trans h)]⟩

theorem storeHeadsForItsHome : StoreHeadsForItsHome := by
  intro s b u v c x l va key unit pte n hacts hirr hlog hreach hnear e
  obtain ⟨y, m, hy, hu⟩ := hacts.steady
  have huv : Steady False u v := Steady.of_eq (.reach (.refl u)) hreach
  obtain ⟨k, hk, w, hw, hcalm, -, hfound, hposted, hcohorts⟩ := sendHome_eq v (tcAgent c.core) c.id e key pte[10]
  have hexec : exec (.st x) s = .next (finished b w c (.st x) x.pred x.stall) := by
    rw [execSt_acts hacts hirr, ← hw]
    exact congrArg (fun w => Host.Outcome.next (finished b w c (.st x) x.pred x.stall)) (writeNow_near (e := e) hlog hreach hnear rfl)
  have hclock : v.clock = s.clock := huv.clock.trans (by subst hu; exact hy.clock)
  refine ⟨_, k, _, hexec, fun die a => ?_, hcalm.mem, ⟨hcalm.vreg, hcalm.preg, hcalm.kreg, hcalm.crews⟩, fun hs => ?_, hk, hfound, rfl, length_bytesOf ..,
    rfl, rfl, rfl, rfl, congrArg (fun t => some (t + k)) hclock, rfl, rfl, rfl, hposted, fun d hd => ?_⟩
  · exact hcalm.viewByte die a
  · have hret : Unreturning s := fun e he => nomatch hs ▸ he
    obtain ⟨hyret, hyv⟩ := hy.vreg hret
    have huret : Unreturning u := by subst hu; exact hyret
    have huy : u.vreg = y.vreg ∧ u.preg = y.preg := by subst hu; exact ⟨rfl, rfl⟩
    exact ⟨hcalm.vreg.trans ((huv.vreg huret).2.trans (huy.1.trans hyv)), hcalm.preg.trans (huv.preg.trans (huy.2.trans hy.preg))⟩
  · obtain ⟨g, hg, hwaits⟩ := finished_waits hd
    rw [hwaits]
    rw [hcohorts] at hg
    cases hlogs : e.logs with
    | true =>
      rw [if_pos hlogs] at hg
      simp [hg]
    | false =>
      rw [if_neg (by simp [hlogs]), Map.find_modify_self] at hg
      obtain ⟨d', -, rfl⟩ := Option.map_eq_some_iff.1 hg
      simp

/-! ### In the side log -/

/-- A store that enters the side log: its entry, and perhaps a record that is written next. -/
theorem log_eq (v : State) (core : Nat) (e : MemEff) (unit : Option Nat) (held record : Bool) : ∃ ag, v.log core e unit held record =
    { v.modEng (fun g => { g with sideLog := g.sideLog ++ [⟨core, e, unit, held⟩] }) with agenda := ag } := by
  unfold State.log
  dsimp only
  split
  · exact ⟨_, rfl⟩
  · split
    · exact ⟨_, rfl⟩
    · exact ⟨_, rfl⟩

/-- The first entry of its core for a page has a record. -/
theorem log_records {v : State} {core : Nat} {e : MemEff} {unit : Option Nat} (held : Bool)
    (hfirst : ∀ f ∈ v.eng.sideLog, f.core = core → f.eff.ctx = e.ctx → f.eff.va / 2 ^ 16 ≠ e.va / 2 ^ 16)
    (ht : (v.threads.find e.thread).isSome = true) :
    ∃ r, Turn.hw (.faultRecordWrite r) ∈ (v.log core e unit held true).agenda ∧ r.cause = .page ∧ r.recov = true ∧ r.sideLog = true ∧ r.addr = e.va := by
  obtain ⟨th, hth⟩ := Option.isSome_iff_exists.1 ht
  have hnone : (v.eng.sideLog.any fun f => f.core == core && f.eff.ctx == e.ctx && pageOf f.eff.va == pageOf e.va) = false := by
    rw [List.any_eq_false]
    intro f hf
    simp only [Bool.and_eq_true, beq_iff_eq, not_and]
    exact fun h => hfirst f hf h.1 h.2
  have hth' : (v.modEng fun g => { g with sideLog := g.sideLog ++ [⟨core, e, unit, held⟩] }).threads.find e.thread = some th := hth
  unfold State.log
  simp only [hnone, hth', Bool.not_true, Bool.not_false, Bool.false_and, Bool.or_false, Bool.false_eq_true, if_false]
  exact ⟨_, State.report_mem_agenda .., rfl, rfl, rfl, rfl⟩

/-- Behind the entries of its thread for its page, a store enters with its own attribution. -/
theorem logBehind_eq (u : State) (core : Nat) (e : MemEff) : ∃ unit held ag, u.logBehind core e =
    { u.modEng (fun g => { g with sideLog := g.sideLog ++ [⟨core, e, unit, held⟩] }) with agenda := ag } := by
  unfold State.logBehind
  split
  · exact ⟨_, _, log_eq ..⟩
  · exact ⟨_, _, log_eq ..⟩

theorem unmappedStoresAreLogged : UnmappedStoresAreLogged := by
  intro s b u v c x l va unit hacts hirr e is
  have hexec : is (u.writeNow c l e .write) := execSt_acts hacts hirr
  refine ⟨fun hlog hreach => ?_, fun hlog hroom => ?_⟩
  · rw [writeNow_page (e := e) hlog hreach] at hexec
    refine ⟨fun hl hroom => ?_, fun hl hroom => ?_, fun hl => ?_⟩
    · rw [if_pos hl, State.logOrPark, if_neg hroom] at hexec
      obtain ⟨ag, heq⟩ := log_eq v c.core e (some unit) false true
      refine ⟨_, hexec, by rw [heq]; rfl, by rw [heq]; rfl, by rw [heq]; rfl, by rw [heq]; rfl, fun hfirst ht => log_records false hfirst ht⟩
    · rw [if_pos hl, State.logOrPark, if_pos hroom] at hexec
      exact hexec
    · rw [if_neg (by simp [hl])] at hexec
      exact hexec
  · have hbehind : u.writeNow c l e .write = u.logBehind c.core e := by
      unfold State.writeNow
      rw [if_pos (show u.logsPage l.tid e.va = true from hlog), State.logOrPark, if_neg hroom]
    rw [hbehind] at hexec
    obtain ⟨unit, held, ag, heq⟩ := logBehind_eq u c.core e
    exact ⟨_, ⟨c.core, e, unit, held⟩, hexec, by rw [heq]; rfl, rfl, rfl, by rw [heq]; rfl, by rw [heq]; rfl⟩

/-! ### In a buffer -/

section
variable {u v : State} {c : Cohort} {l : Lane} {e : MemEff}

theorem writeLater_reached {key unit : Nat} {pte : Dword} (h : u.reach c l.pos e.va .write = (.go key pte unit, v)) :
    u.writeLater c l e .write = v.modLane c.id l.tid fun k => { k with buf := k.buf ++ [.mem e key .clean] } := by
  unfold State.writeLater
  rw [h]
  rfl

theorem writeLater_page {unit : Option Nat} (h : u.reach c l.pos e.va .write = (.page unit, v)) :
    u.writeLater c l e .write = if e.logs then v.modLane c.id l.tid fun k => { k with buf := k.buf ++ [.mem e 0 .sideLog] }
      else v.parkPage c l e.va unit := by
  unfold State.writeLater
  rw [h]
  rfl

end

/-- A store of one lane of a revocable trace, or an atomic without a destination, is written later. -/
theorem exec_writesLater {s b u : State} {c : Cohort} {x : Mem} {l : Lane} {va n : Nat} {i : Instr} {bs : List Byte} {kind : EffKind}
    (hi : (i = .st x ∧ n = widthBytes x.width ∧ bs = u.srcBytes c l.tid x.d x.width ∧ kind = .store) ∨
      (∃ op cls, i = .atom x op cls ∧ x.d = 0 ∧ x.use ≠ .spec ∧ n = atomSize x cls ∧
        let e := atomOperand x cls (natOf (u.srcBytes c l.tid x.e x.width)); bs = e.1 ∧ kind = .atom op e.2))
    (h : LaneActs false s b u c x l n .write i va) (hc : c.irr = false) :
    exec i s = .next (finished b (u.inBudget c l fun u => u.writeLater c l (u.memEff c l va bs kind x) .write) c i x.pred x.stall) := by
  obtain ⟨hiss, -, -, -, -, -, -, -, hva, hn⟩ := id h
  have h : LaneActs (c.irr && releases x.order) s b u c x l n .write i va := by rw [hc]; exact h
  obtain ⟨rfl, rfl, rfl, rfl⟩ | ⟨op, cls, rfl, hd, huse, rfl, rfl, rfl⟩ := hi
  · have hlane : u.storeLane c x l = u.inBudget c l fun w => w.writeLater c l (w.memEff c l va (u.srcBytes c l.tid x.d x.width) .store x) .write := by
      unfold State.storeLane State.inBudget State.withEA
      simp only [hva, hn, hc, bne_self_eq_false, Bool.false_eq_true, if_false]
    rw [show exec (.st x) s = execSt x s from rfl, execSt, onCohort_next hiss, issueMem_acts _ h, hlane]
  · have huse : (x.use == .spec) = false := by simpa using huse
    have hlane : u.atomLane c x op cls l = u.inBudget c l fun w => w.writeLater c l (w.memEff c l va
        (atomOperand x cls (natOf (u.srcBytes c l.tid x.e x.width))).1 (.atom op (atomOperand x cls (natOf (u.srcBytes c l.tid x.e x.width))).2) x) .write := by
      unfold State.atomLane State.inBudget State.withEA
      simp only [hva, hn, hc, hd, huse, bne_self_eq_false, Bool.false_eq_true, if_false]
    rw [show exec (.atom x op cls) s = execAtom x op cls s from rfl, execAtom, onCohort_next hiss]
    simp only [hc, hd, Bool.false_and, Bool.false_eq_true, if_false, beq_self_eq_true, if_true]
    rw [issueMem_acts _ h, hlane]

theorem revocableStoresAreBuffered : RevocableStoresAreBuffered := by
  intro s b u v c x l va n i bs kind hi hacts hrev e is buffers
  have hexec := exec_writesLater hi hacts hrev
  refine ⟨fun hroom => ?_, fun hfull => ?_⟩
  · rw [State.inBudget_of_room hroom] at hexec
    refine ⟨fun key pte unit hreach => ?_, fun unit hreach => ?_⟩
    · rw [writeLater_reached (e := e) hreach] at hexec
      exact hexec
    · rw [writeLater_page (e := e) hreach] at hexec
      refine ⟨fun hl => ?_, fun hl => ?_⟩
      · rw [if_pos hl] at hexec
        exact hexec
      · rw [if_neg (by simp [hl])] at hexec
        exact hexec
  · rw [State.inBudget, if_pos (by simp [hrev, hfull])] at hexec
    exact hexec

end Sys2Proof.Claims
end

section
/-! SUPPORT. What landing bytes at their home writes. -/

namespace Sys2Proof.Machine

/-! ### Bytes cut at sectors -/

theorem Memory.writeBytes_append (m : Memory) (a : Nat) (xs ys : List Byte) :
    m.writeBytes a (xs ++ ys) = (m.writeBytes a xs).writeBytes (a + xs.length) ys := by
  induction xs generalizing m a with
  | nil => rfl
  | cons x xs ih =>
    rw [List.cons_append, Memory.writeBytes, ih, Memory.writeBytes, List.length_cons, show a + 1 + xs.length = a + (xs.length + 1) by omega]

/-- Memories that agree on some bytes read alike there. -/
theorem Memory.readBytes_congr {m k : Memory} {a n : Nat} (h : ∀ i < n, m.read (a + i) = k.read (a + i)) : m.readBytes a n = k.readBytes a n := by
  induction n generalizing a with
  | zero => rfl
  | succ n ih =>
    have hfirst : m.read a = k.read a := h 0 (Nat.succ_pos n)
    rw [Memory.readBytes, Memory.readBytes, hfirst, ih fun i hi => by rw [show a + 1 + i = a + (i + 1) by omega]; exact h _ (by omega)]

theorem pieces_nil (k a : Nat) : pieces k a [] = [] := by cases k <;> rfl

/-- The pieces of some bytes are among them. -/
theorem pieces_within {k a : Nat} {bs : List Byte} {p : Nat × List Byte} (hp : p ∈ pieces k a bs) : a ≤ p.1 ∧ p.1 + p.2.length ≤ a + bs.length := by
  induction k generalizing a bs with
  | zero => exact nomatch hp
  | succ k ih =>
    cases bs with
    | nil => exact nomatch hp
    | cons b bs =>
      rw [pieces, List.mem_cons] at hp
      obtain rfl | hp := hp
      · simp only [List.length_take]
        omega
      · cases hrest : (b :: bs).drop (32 - a % 32) with
        | nil => rw [hrest, pieces_nil] at hp; exact nomatch hp
        | cons d ds =>
          have hlen : ((b :: bs).drop (32 - a % 32)).length = ds.length + 1 := by rw [hrest]; rfl
          rw [List.length_drop] at hlen
          rw [hrest] at hp
          have hin := ih hp
          simp only [List.length_cons] at hin hlen ⊢
          omega

/-- Written one after another, the pieces are the bytes. -/
theorem foldl_pieces {k : Nat} (m : Memory) (a : Nat) {bs : List Byte} (h : bs.length ≤ k) :
    (pieces k a bs).foldl (fun m p => m.writeBytes p.1 p.2) m = m.writeBytes a bs := by
  induction k generalizing m a bs with
  | zero => rw [List.length_eq_zero_iff.1 (Nat.le_zero.1 h)]; rfl
  | succ k ih =>
    cases bs with
    | nil => rfl
    | cons b bs =>
      have hpos : 0 < 32 - a % 32 := by omega
      have hlen : ((b :: bs).drop (32 - a % 32)).length ≤ k := by
        rw [List.length_drop]
        omega
      rw [pieces, List.foldl_cons, ih _ _ hlen]
      by_cases hall : (b :: bs).length ≤ 32 - a % 32
      · rw [List.drop_of_length_le hall, List.take_of_length_le hall]
        rfl
      · conv_rhs => rw [← List.take_append_drop (32 - a % 32) (b :: bs), Memory.writeBytes_append, List.length_take_of_le (by omega)]

theorem natOf_bytesOf (n v : Nat) : natOf (bytesOf n v) = v % 256 ^ n := by
  induction n generalizing v with
  | zero => rw [Nat.pow_zero, Nat.mod_one]; rfl
  | succ n ih =>
    rw [bytesOf, natOf, ih, BitVec.toNat_ofNat]
    exact ((congrArg (v % ·) (Nat.pow_succ' ..)).trans Nat.mod_mul).symm

end Sys2Proof.Machine

namespace Sys2Proof.Claims
open Machine

/-! ### One piece -/

/-- A state in which a piece is written over what was there. -/
def written (s : State) (a : Nat) (bs : List Byte) : State :=
  { s.modCoh (fun c => { c with poison := c.poison.erase (sectorOf a), checks := c.checks.erase (sectorOf a) }) with mem := s.mem.writeBytes a bs }

theorem Sound.written {s : State} (h : Sound s) (a : Nat) (bs : List Byte) : Sound (written s a bs) :=
  ⟨h.harm, by simp [Claims.written, h.checks, Map.erase], by simp [Claims.written, h.poison, Map.erase], h.dies⟩

/-- No sector is poisoned where nothing is damaged. -/
theorem Sound.poisonAt {s : State} (h : Sound s) (sec : Nat) : s.poisonAt sec = none := by
  unfold State.poisonAt
  rw [h.poison, h.dies]
  simp [Map.find]

/-- A piece is written behind what its landing takes and fetches, unless poison stays there; where nothing is damaged it is. -/
theorem landPiece_writes (s : State) (a : Nat) (bs : List Byte) (w : Option Writer) : ∃ v, Calm s v ∧
    (s.landPiece a bs w = v ∨ Calm (written v a bs) (s.landPiece a bs w)) ∧ (Sound s → Calm (written v a bs) (s.landPiece a bs w)) := by
  have hunit : Calm s ((s.wakeHome a).gather (sectorOf a) (proxyAgent (homeDie a))) := (Calm.refl s).wakeHome.gather
  unfold State.landPiece
  dsimp only
  generalize (s.wakeHome a).gather (sectorOf a) (proxyAgent (homeDie a)) = u at hunit
  have hv : Calm s (if a < hbmEnd then u.fetchUnits (u.unitSecs (sectorOf a)) else u) := .ite hunit.fetchUnits hunit
  generalize (if a < hbmEnd then u.fetchUnits (u.unitSecs (sectorOf a)) else u) = v at hv
  have hland : Calm (written v a bs) (((written v a bs).tagBlock a w).injectAt [1, 2, 4] (sectorOf a)) := (Calm.refl _).tagBlock.injectAt
  refine ⟨v, hv, ?_, fun hs => ?_⟩
  · split
    · exact .inl rfl
    · exact .inr hland
  · rw [if_neg (by simp [(hv.sound hs).poisonAt])]
    exact hland

/-! ### Some bytes -/

/-- Only bytes of memory from a on, n of them, have changed beside what landing nothing may change. -/
structure WritesOnly (a n : Nat) (s t : State) : Prop where
  rest  : landscape t = { landscape s with mem := t.mem }
  bytes : ∀ x, ¬(a ≤ x ∧ x < a + n) → t.mem.read x = s.mem.read x

namespace WritesOnly

variable {a n : Nat} {s t u : State}

theorem of_calm (h : Calm s t) : WritesOnly a n s t := ⟨by rw [h.same, h.mem]; rfl, fun _ _ => by rw [h.mem]⟩

theorem trans (h : WritesOnly a n s t) (g : WritesOnly a n t u) : WritesOnly a n s u :=
  ⟨g.rest.trans (by rw [h.rest]), fun x hx => (g.bytes x hx).trans (h.bytes x hx)⟩

theorem calm (h : WritesOnly a n s t) (g : Calm t u) : WritesOnly a n s u := h.trans (of_calm g)

theorem dies (h : WritesOnly a n s t) : t.coh.dieWrites = s.coh.dieWrites := congrArg Landscape.dies h.rest
theorem halves (h : WritesOnly a n s t) : t.coh.halves = s.coh.halves := congrArg Landscape.halves h.rest
theorem fmts (h : WritesOnly a n s t) : t.coh.fmts = s.coh.fmts := congrArg Landscape.fmts h.rest
theorem wvBase (h : WritesOnly a n s t) : t.pkg.wvBase = s.pkg.wvBase := congrArg Landscape.wvBase h.rest
theorem regsKept (h : WritesOnly a n s t) : RegsKept s t :=
  ⟨congrArg Landscape.vreg h.rest, congrArg Landscape.preg h.rest, congrArg Landscape.kreg h.rest, congrArg Landscape.crews h.rest⟩

theorem written (s : State) {b : Nat} {bs : List Byte} (h : a ≤ b ∧ b + bs.length ≤ a + n) : WritesOnly a n s (written s b bs) :=
  ⟨rfl, fun x hx => Memory.read_writeBytes_outside _ _ _ (by omega)⟩

theorem landPiece {b : Nat} {bs : List Byte} {w : Option Writer} (h : a ≤ b ∧ b + bs.length ≤ a + n) : WritesOnly a n s (s.landPiece b bs w) := by
  obtain ⟨v, hv, hland | hland, -⟩ := landPiece_writes s b bs w
  · rw [hland]; exact of_calm hv
  · exact ((of_calm hv).trans (written v h)).calm hland

theorem landBytes {bs : List Byte} {w : Option Writer} : WritesOnly a bs.length s (s.landBytes a bs w) := by
  have hfold (l : List (Nat × List Byte)) (hl : ∀ p ∈ l, a ≤ p.1 ∧ p.1 + p.2.length ≤ a + bs.length) (s : State) :
      WritesOnly a bs.length s (l.foldl (fun s p => s.landPiece p.1 p.2 w) s) := by
    induction l generalizing s with
    | nil => exact of_calm (.refl s)
    | cons p l ih => exact (landPiece (hl p (List.mem_cons_self ..))).trans (ih (fun q hq => hl q (List.mem_cons_of_mem p hq)) _)
  exact (hfold _ (fun p hp => pieces_within hp) s).calm (Calm.refl _).failResv.wakeOps.wakeAt

end WritesOnly

/-- Where nothing is damaged, all the bytes are written, and nothing is damaged then. -/
theorem landBytes_of_sound {s : State} (hs : Sound s) (a : Nat) (bs : List Byte) (w : Option Writer) :
    (s.landBytes a bs w).mem = s.mem.writeBytes a bs ∧ Sound (s.landBytes a bs w) := by
  have hfold (l : List (Nat × List Byte)) {s : State} (hs : Sound s) :
      (l.foldl (fun s p => s.landPiece p.1 p.2 w) s).mem = l.foldl (fun m p => m.writeBytes p.1 p.2) s.mem ∧
        Sound (l.foldl (fun s p => s.landPiece p.1 p.2 w) s) := by
    induction l generalizing s with
    | nil => exact ⟨rfl, hs⟩
    | cons p l ih =>
      obtain ⟨v, hv, -, hland⟩ := landPiece_writes s p.1 p.2 w
      have hmem : (s.landPiece p.1 p.2 w).mem = s.mem.writeBytes p.1 p.2 := (hland hs).mem.trans (congrArg (·.writeBytes p.1 p.2) hv.mem)
      obtain ⟨hm, hsound⟩ := ih ((hland hs).sound ((hv.sound hs).written p.1 p.2))
      exact ⟨by rw [List.foldl_cons, hm, hmem]; rfl, hsound⟩
  obtain ⟨hm, hsound⟩ := hfold (pieces bs.length a bs) hs
  have hcalm := Calm.wakeAt (a := a) (n := bs.length) (Calm.refl (((pieces bs.length a bs).foldl (fun s p => s.landPiece p.1 p.2 w) s))
    |>.failResv (a := a) (n := bs.length) |>.wakeOps (a := a) (n := bs.length))
  exact ⟨hcalm.mem.trans (hm.trans (foldl_pieces _ _ (Nat.le_refl _))), hcalm.sound hsound⟩

/-! ### Where nothing has to come first -/

/-- No write that a die has performed meets a condition. -/
theorem flushDies_of_none {s : State} {p : DieWrite → Bool} (h : ∀ w ∈ s.coh.dieWrites, p w = false) : s.flushDies p = s := by
  have hnone : s.coh.dieWrites.filter p = [] := List.filter_eq_nil_iff.2 fun w hw => by simp [h w hw]
  unfold State.flushDies
  simp [hnone]

/-- No half that is due meets a condition. -/
theorem flushHalves_of_none {s : State} (p : Half → Bool) (h : s.coh.halves = []) : s.flushHalves p = s := by
  unfold State.flushHalves
  simp [h]

/-- Reading finds nothing where nothing is damaged. -/
theorem checkSecs_of_sound {s : State} (hs : Sound s) (crc : Bool) (secs : List Nat) : s.checkSecs crc secs = (none, s) := by
  have hfold (l : List Nat) : l.foldl (fun s k => s.probeHarm crc k) s = s := by
    induction l with
    | nil => rfl
    | cons k l ih => rw [List.foldl_cons, Calm.unharmed hs, ih]
  unfold State.checkSecs
  simp [hfold, hs.poisonAt]

theorem inspect_of_sound {s : State} (hs : Sound s) (crc : Bool) (secs : List Nat) : s.inspect crc secs = s := by
  unfold State.inspect
  rw [checkSecs_of_sound hs]

/-- The units of a range are those that their blocks' formats say. -/
theorem unitsOf_of_fmts {s t : State} (h : t.coh.fmts = s.coh.fmts) (a n : Nat) : t.unitsOf a n = s.unitsOf a n := by
  unfold State.unitsOf State.unitSecs
  rw [h]

/-- Counting a write, where no die has performed a write to the counter's unit, writes the counter alone. -/
theorem countWrite_writes {s : State} {a : Nat} (w : Writer)
    (h : ∀ d ∈ s.coh.dieWrites, ∀ k ∈ sectorsOf d.pa d.bytes.length, k ∉ s.unitsOf (s.counterOf a) 4) :
    WritesOnly (s.counterOf a) 4 s (s.countWrite a w) := by
  have hflush : s.flushUnits (s.counterOf a) 4 = s :=
    flushDies_of_none fun d hd => List.any_eq_false.2 fun k hk => by simpa using h d hd k hk
  unfold State.countWrite
  dsimp only
  rw [hflush]
  exact (WritesOnly.of_calm (Calm.refl s).inspect).trans (WritesOnly.landBytes (bs := bytesOf 4 _))

/-- What a write of some bytes, counted or not, makes of memory. -/
theorem landed_of_writeBytes {s t : State} {counter a : Nat} {bs : List Byte} {watch : Bool} (h : t.mem = Memory.writeBytes (if watch then
    s.mem.writeBytes counter (bytesOf 4 ((s.mem.readNat counter 4 + 1) % 2 ^ 32)) else s.mem) a bs) : Landed s t counter a bs watch := by
  have hlen : (bytesOf 4 ((s.mem.readNat counter 4 + 1) % 2 ^ 32)).length = 4 := length_bytesOf ..
  refine ⟨fun x hx => ?_, fun hw hapart => ?_⟩
  · rw [h]
    by_cases hin : a ≤ x ∧ x < a + bs.length
    · rw [if_pos hin]
      obtain ⟨i, rfl⟩ := Nat.exists_eq_add_of_le hin.1
      have hi : i < bs.length := by omega
      rw [Memory.read_writeBytes_inside _ _ _ hi, Nat.add_sub_cancel_left, List.getD_eq_getElem _ _ hi]
    · rw [if_neg hin, Memory.read_writeBytes_outside _ _ _ (by omega)]
      split
      · next hw => exact Memory.read_writeBytes_outside _ _ _ (by rw [hlen]; simp only [hw, true_and] at hx; omega)
      · rfl
  · have hread : t.mem.readBytes counter 4 = bytesOf 4 ((s.mem.readNat counter 4 + 1) % 2 ^ 32) := by
      rw [h, if_pos hw, Memory.readBytes_congr fun i hi => Memory.read_writeBytes_outside _ _ _ (by omega)]
      exact hlen ▸ Memory.readBytes_writeBytes ..
    rw [Memory.readNat, hread, natOf_bytesOf]
    exact Nat.mod_mod ..

/-- Counting a write, no write being under way and nothing damaged. -/
theorem countWrite_of_sound {s : State} (hd : s.coh.dieWrites = []) (hs : Sound s) (a : Nat) (w : Writer) : s.countWrite a w =
    s.landBytes (s.counterOf a) (bytesOf 4 ((s.mem.readNat (s.counterOf a) 4 + 1) % 2 ^ 32)) (some w) := by
  unfold State.countWrite
  dsimp only
  rw [State.flushUnits, flushDies_of_none (by rw [hd]; nofun), inspect_of_sound hs]

/-- What a write at its home leaves, no write being under way and nothing damaged. -/
theorem land_of_sound {s : State} (hd : s.coh.dieWrites = []) (hs : Sound s) (a : Nat) (bs : List Byte) (w : Writer) (watch : Bool) :
    let t := s.land a bs w watch
    Landed s t (s.counterOf a) a bs watch ∧ t.coh.dieWrites = [] ∧ t.coh.halves = s.coh.halves ∧ Sound t ∧ RegsKept s t := by
  intro t
  cases watch with
  | false =>
    obtain ⟨hmem, hsound⟩ := landBytes_of_sound hs a bs (some w)
    have hwrites : WritesOnly a bs.length s t := WritesOnly.landBytes
    exact ⟨landed_of_writeBytes hmem, hwrites.dies.trans hd, hwrites.halves, hsound, hwrites.regsKept⟩
  | true =>
    obtain ⟨hmem, hsound⟩ := landBytes_of_sound hs (s.counterOf a) (bytesOf 4 ((s.mem.readNat (s.counterOf a) 4 + 1) % 2 ^ 32)) (some w)
    obtain ⟨hmem', hsound'⟩ := landBytes_of_sound hsound a bs (some w)
    have ht : t = (s.landBytes (s.counterOf a) (bytesOf 4 ((s.mem.readNat (s.counterOf a) 4 + 1) % 2 ^ 32)) (some w)).landBytes a bs (some w) :=
      congrArg (State.landBytes · a bs (some w)) (countWrite_of_sound hd hs a w)
    rw [ht]
    have hcount := WritesOnly.landBytes (s := s) (a := s.counterOf a) (bs := bytesOf 4 ((s.mem.readNat (s.counterOf a) 4 + 1) % 2 ^ 32)) (w := some w)
    generalize s.landBytes (s.counterOf a) (bytesOf 4 ((s.mem.readNat (s.counterOf a) 4 + 1) % 2 ^ 32)) (some w) = u at *
    have hwrites : WritesOnly a bs.length u (u.landBytes a bs (some w)) := WritesOnly.landBytes
    obtain ⟨hv, hp, hk, hc⟩ := hcount.regsKept
    obtain ⟨hv', hp', hk', hc'⟩ := hwrites.regsKept
    exact ⟨landed_of_writeBytes (hmem'.trans (by rw [hmem]; rfl)), hwrites.dies.trans (hcount.dies.trans hd), hwrites.halves.trans hcount.halves, hsound',
      hv'.trans hv, hp'.trans hp, hk'.trans hk, hc'.trans hc⟩

/-! ### A store on its die -/

/-- The tokens of a die come to its L2, where no other die has performed a write: no write lands. -/
theorem gatherDie_calm {s : State} {die : Nat} (sec : Nat) (h : ∀ w ∈ s.coh.dieWrites, w.die = die) : Calm s (s.gatherDie die sec) := by
  have hflush : (s.flushDies fun d => d.die != die && (s.unitSecs sec).contains (sectorOf d.pa)) = s :=
    flushDies_of_none fun w hw => by simp [h w hw]
  unfold State.gatherDie
  dsimp only
  rw [hflush]
  have hfold : Calm s ((s.dieHolders die sec).foldl (fun s h => (s.surrender sec h.1).rouse h.1) s) := .foldl (fun _ _ k => k.surrender.rouse) (.refl s)
  generalize (s.dieHolders die sec).foldl (fun s h => (s.surrender sec h.1).rouse h.1) s = u at hfold
  have hread : Calm s (if ((u.unit sec).owner == if (secHome sec == die) = true then none else some (proxyAgent die)) = true then u
      else u.inspect false [sec]) := .ite hfold hfold.inspect
  generalize (if ((u.unit sec).owner == if (secHome sec == die) = true then none else some (proxyAgent die)) = true then u
      else u.inspect false [sec]) = v at hread
  split
  · exact hread.setUnit
  · refine .trimL2 ?_
    exact hread.step rfl

/-- A die's stores to some units gather them without a write that lands. -/
theorem foldl_gatherDie_calm {s : State} {die : Nat} (secs : List Nat) (h : ∀ w ∈ s.coh.dieWrites, w.die = die) :
    Calm s (secs.foldl (fun s sec => s.gatherDie die sec) s) := by
  induction secs generalizing s with
  | nil => exact .refl s
  | cons k secs ih =>
    have hk := gatherDie_calm k h
    exact hk.trans (ih (by rw [hk.dies]; exact h))

/-- A store that is performed on its die alone, whose units no translation derives from: no byte of memory changes but its page's counter, and the store
is the last of its die's; the token request follows. -/
theorem performOnDie_writes {s : State} {core a : Nat} {e : MemEff} {watch : Bool} (hh : s.coh.halves = []) (hhome : s.atHome a = false)
    (ht : s.translators (s.unitsOf a e.bytes.length) = []) (hd : ∀ w ∈ s.coh.dieWrites, w.die = dieOf core)
    (hc : watch = true → ∀ d ∈ s.coh.dieWrites, ∀ k ∈ sectorsOf d.pa d.bytes.length, k ∉ s.unitsOf (s.counterOf a) 4) :
    ∃ u, WritesOnly (s.counterOf a) (if watch then 4 else 0) s u ∧ s.performOnDie core e a watch =
      (u.modCoh fun k => { k with dieWrites := k.dieWrites ++ [⟨dieOf core, a, e.bytes, .ctx e.ctx, e.thread, some (core, e)⟩] }).post
        (.hw (.wrall (dieOf core) (sectorOf a))) := by
  have hgather := (foldl_gatherDie_calm (s.unitsOf a e.bytes.length) hd).fetchUnits (secs := s.unitsOf a e.bytes.length)
  unfold State.performOnDie
  simp only [hhome, ht, List.isEmpty_nil, Bool.not_true, Bool.or_false, Bool.false_eq_true, if_false]
  rw [flushHalves_of_none _ hh]
  generalize (List.foldl (fun s sec => s.gatherDie (dieOf core) sec) s (s.unitsOf a e.bytes.length)).fetchUnits (s.unitsOf a e.bytes.length) = u at hgather
  have hcount : WritesOnly (s.counterOf a) (if watch then 4 else 0) s (if watch then u.countWrite a (.ctx e.ctx) else u) := by
    cases watch with
    | false => exact .of_calm hgather
    | true =>
      have hcounter : u.counterOf a = s.counterOf a := by rw [State.counterOf, hgather.wvBase]; rfl
      refine (WritesOnly.of_calm hgather).trans (hcounter ▸ countWrite_writes (.ctx e.ctx) ?_)
      rw [hgather.dies, hcounter, unitsOf_of_fmts hgather.fmts]
      exact hc rfl
  generalize (if watch = true then u.countWrite a (.ctx e.ctx) else u) = v at hcount
  exact ⟨_, hcount.calm (Calm.failResv (.ite (.refl v) (.tagBlock (.refl v)))), rfl⟩

/-! ### The home begins a store -/

theorem probeHarm_units (s : State) (crc : Bool) (sec : Nat) : (s.probeHarm crc sec).coh.units = s.coh.units := by
  have hlast {v : State} {p : Prop} [Decidable p] (k : v.coh.units = s.coh.units) : (if p then v.poisonSecs .check [sec] else v).coh.units = s.coh.units := by
    split <;> exact k
  unfold State.probeHarm
  refine hlast ?_
  split
  · rfl
  · rfl
  · split <;> rfl
  · split <;> rfl

theorem checkSecs_units (s : State) (crc : Bool) (secs : List Nat) : (s.checkSecs crc secs).2.coh.units = s.coh.units :=
  foldl_keeps (g := fun s => s.coh.units) (fun k _ s => probeHarm_units s crc k) s

theorem mergeCheck_units (s : State) (a n : Nat) : (s.mergeCheck a n).2.coh.units = s.coh.units := by
  unfold State.mergeCheck
  split
  · rfl
  · exact checkSecs_units ..

/-- The translators of some units are those that hold tokens of them. -/
theorem translators_of_units {s t : State} (h : t.coh.units = s.coh.units) (secs : List Nat) : t.translators secs = s.translators secs := by
  unfold State.translators State.unit
  rw [h]

/-- The state in which a home begins a write, its check made and its message answered. -/
def beginsWrite (s : State) (id : Nat) (r : Remote) : State :=
  ((s.mergeCheck r.pa r.size).2.modCoh fun k => { k with remote := k.remote.erase id }).modCohort r.cohort fun c =>
    { c with waits := c.waits.filter (· != id) }

theorem beginsWrite_calm (s : State) (id : Nat) (r : Remote) : Calm s (beginsWrite s id r) :=
  ((Calm.refl s).mergeCheck (a := r.pa) (n := r.size)).step rfl

/-- A write that has reached its home, and that nothing there holds, is performed. -/
theorem reachHome_performs {s : State} {id τ : Nat} {r : Remote} {e : MemEff} (hr : s.coh.remote.find id = some r) (he : r.eff = some e)
    (hdue : r.due = some τ) (hτ : τ ≤ s.clock) (hth : e.thread ≠ 0) (hgone : r.gone = false) (hst : s.stalled r.thread r.pa r.size = false)
    (hb : s.behind id r = false) (hnear : s.remoteKey r.pa = false) (hret : r.pa / 2 ^ 16 ∉ s.pkg.retireList)
    (hm : (s.mergeCheck r.pa r.size).1 = none) :
    s.reachHome id = (beginsWrite s id r).doEff ((agentCore r.agent).getD 0) e r.pa r.watch := by
  have hret : s.pkg.retireList.contains (r.pa / 2 ^ 16) = false := by simpa using hret
  have hmerge : s.mergeCheck r.pa r.size = (none, (s.mergeCheck r.pa r.size).2) := by rw [← hm]
  unfold State.reachHome
  simp only [hr, he, hdue, hgone, Nat.not_lt.2 hτ, hst, hb, hnear, hret, hth, decide_false, Bool.or_false, Bool.false_eq_true, if_false]
  rw [hmerge]
  rfl

theorem noteWrite_agenda (s : State) (tid key n : Nat) : (s.noteWrite tid key n).agenda = s.agenda := by
  unfold State.noteWrite
  dsimp only
  split <;> rfl

/-- A die sees its own latest write where it writes, and what it saw before elsewhere. -/
theorem viewByte_append {s t : State} {w : DieWrite} {a : Nat} (hd : t.coh.dieWrites = s.coh.dieWrites ++ [w]) (hm : t.mem.read a = s.mem.read a) (die : Nat) :
    t.viewByte die a = if die = w.die ∧ w.pa ≤ a ∧ a < w.pa + w.bytes.length then w.bytes.getD (a - w.pa) 0 else s.viewByte die a := by
  unfold State.viewByte
  rw [hd, hm, List.foldl_append, List.foldl_cons, List.foldl_nil]
  by_cases hin : die = w.die ∧ w.pa ≤ a ∧ a < w.pa + w.bytes.length
  · obtain ⟨hdie, hle, hlt⟩ := hin
    rw [if_pos (by simp [hdie, hle]), if_pos ⟨hdie, hle, hlt⟩, List.getD_eq_getElem?_getD, List.getElem?_eq_getElem (by omega)]
    rfl
  · rw [if_neg hin]
    split
    · next hc =>
      simp only [Bool.and_eq_true, beq_iff_eq, decide_eq_true_eq] at hc
      rw [List.getElem?_eq_none (by have := hc.1; have := hc.2; by_contra hlt; exact hin ⟨hc.1.symm, hc.2, by omega⟩)]
      rfl
    · rfl

/-- No entry is spilled where the quantum buffers are empty. -/
theorem spill_of_quiet {s : State} (h : s.eng.quantum = []) (agent : Nat) (p : TlbEntry → Bool) : s.spill agent p = s := by
  have hnone : s.homeless agent p = [] := by
    unfold State.homeless
    split
    · rfl
    · simp [h]
  rw [State.spill, hnone]
  rfl

/-- Nothing has to come first at device scope where no write is under way. -/
theorem firstInLine_of_quiet {s : State} (h : Quiet s) (a n : Nat) : s.firstInLine a n = s := by
  have hdies (p : DieWrite → Bool) : s.flushDies p = s := flushDies_of_none (by rw [h.dies]; nofun)
  have hhalves (p : Half → Bool) : s.flushHalves p = s := flushHalves_of_none p h.halves
  have hspill (l : List Nat) (p : TlbEntry → Bool) : l.foldl (fun s a => s.spill a p) s = s := by
    induction l with
    | nil => rfl
    | cons b l ih => rw [List.foldl_cons, spill_of_quiet h.quantum, ih]
  have hcomplete (secs : List Nat) : s.complete secs = s := by
    unfold State.complete
    dsimp only
    rw [hdies, hhalves, hspill, ite_self]
  unfold State.firstInLine State.flushUnits
  rw [hcomplete, hdies, hhalves]

theorem storeReachesItsHome : StoreReachesItsHome := by
  intro s id τ r e hr he hdue hτ hk huse hth hgone hsize hst hb hnear hret hm hh die counter t
  have ht : t = (beginsWrite s id r).doEff ((agentCore r.agent).getD 0) e r.pa r.watch :=
    reachHome_performs hr he hdue hτ hth hgone hst hb hnear hret hm
  have hx : Calm s (beginsWrite s id r) := beginsWrite_calm s id r
  have hunits : (beginsWrite s id r).coh.units = s.coh.units := mergeCheck_units ..
  have hcounter : (beginsWrite s id r).counterOf r.pa = counter := by rw [State.counterOf, hx.wvBase]; rfl
  refine ⟨fun hlocal hhome htr hdies => ?_, fun hwide hq hs => ?_⟩
  · generalize hy : beginsWrite s id r = y at *
    have hperform : t = (y.performOnDie ((agentCore r.agent).getD 0) e r.pa r.watch).noteWrite e.thread r.pa e.bytes.length := by
      rw [ht, State.doEff, hk]
      simp only [hlocal, Bool.false_eq_true, if_false]
    obtain ⟨u, hu, hperformed⟩ := performOnDie_writes (s := y) (core := (agentCore r.agent).getD 0) (a := r.pa) (e := e) (watch := r.watch)
      (hx.halves.trans hh) (by rw [State.atHome, hx.fmts]; exact hhome)
      (by rw [unitsOf_of_fmts hx.fmts, translators_of_units hunits, ← hsize]; exact htr) (by rw [hx.dies]; exact fun w hw => (hdies w hw).1)
      (by rw [hx.dies, hcounter, unitsOf_of_fmts hx.fmts]; exact fun hw d hd => (hdies d hd).2 hw)
    rw [hperformed] at hperform
    have hnote := (Calm.refl ((u.modCoh fun k => { k with
      dieWrites := k.dieWrites ++ [⟨die, r.pa, e.bytes, .ctx e.ctx, e.thread, some ((agentCore r.agent).getD 0, e)⟩] }).post
        (.hw (.wrall die (sectorOf r.pa))))).noteWrite (tid := e.thread) (key := r.pa) (n := e.bytes.length)
    obtain ⟨hv, hp, hkr, hc⟩ := hu.regsKept
    refine ⟨fun d a ha => ?_, ?_, ?_⟩
    · have hmem : t.mem.read a = s.mem.read a := by
        rw [hperform, hnote.mem, ← hx.mem]
        refine hu.bytes a ?_
        rw [hcounter]
        intro hin
        cases hw : r.watch with
        | false => rw [hw] at hin; simp only [Bool.false_eq_true, if_false] at hin; omega
        | true => rw [hw] at hin ha; exact ha ⟨rfl, hin⟩
      rw [viewByte_append (by rw [hperform, hnote.dies, ← hx.dies, ← hu.dies]; rfl) hmem d, hsize]
    · rw [hperform]
      exact ⟨hnote.vreg.trans (hv.trans hx.vreg), hnote.preg.trans (hp.trans hx.preg), hnote.kreg.trans (hkr.trans hx.kreg),
        hnote.crews.trans (hc.trans hx.crews)⟩
    · rw [hperform, noteWrite_agenda]
      exact List.mem_append_right _ (List.mem_singleton_self _)
  · have hmerge : (s.mergeCheck r.pa r.size).2 = s := by
      unfold State.mergeCheck
      split
      · rfl
      · rw [checkSecs_of_sound hs]
    have hquiet : Quiet (beginsWrite s id r) := by
      unfold beginsWrite
      rw [hmerge]
      exact ⟨hq.dies, hq.halves, hq.quantum⟩
    generalize hy : beginsWrite s id r = y at *
    have hperform : t = (y.land r.pa e.bytes (.ctx e.ctx) r.watch).noteWrite e.thread r.pa e.bytes.length := by
      rw [ht, State.doEff, hk]
      simp only [hwide, if_true, State.perform, firstInLine_of_quiet hquiet]
    obtain ⟨⟨hbytes, hcount⟩, hdies, -, -, hv, hp, hkr, hc⟩ := land_of_sound hquiet.dies (hx.sound hs) r.pa e.bytes (.ctx e.ctx) r.watch
    have hnote := (Calm.refl (y.land r.pa e.bytes (.ctx e.ctx) r.watch)).noteWrite (tid := e.thread) (key := r.pa) (n := e.bytes.length)
    rw [hperform]
    rw [hcounter] at hbytes hcount
    refine ⟨⟨fun a ha => ?_, fun hw hapart => ?_⟩, hnote.dies.trans hdies, hnote.vreg.trans (hv.trans hx.vreg), hnote.preg.trans (hp.trans hx.preg),
      hnote.kreg.trans (hkr.trans hx.kreg), hnote.crews.trans (hc.trans hx.crews)⟩
    · rw [hnote.mem, hbytes a ha, hx.mem]
    · rw [hnote.mem, hcount hw hapart, hx.mem]

/-- Settles O27: a store is a message to its home; the home performs it on its die behind the tokens it gathers, or lands it; at a page that is not mapped
it enters the side log, and in a revocable trace its lane's buffer. -/
theorem storesWriteMemory : Obligations.StoresWriteMemory :=
  ⟨storeHeadsForItsHome, storeReachesItsHome, unmappedStoresAreLogged, revocableStoresAreBuffered⟩

end Sys2Proof.Claims
end

section
/-! SUPPORT. The units of coherence: what a read of one finds, and what an agent that drops translations leaves of them. -/

namespace Sys2Proof.Machine

@[simp] theorem State.unit_setUnit_self (s : State) (sec : Nat) (u : CohUnit) : (s.setUnit sec u).unit sec = u := Map.get_set_self ..

theorem State.unit_setUnit_ne (s : State) {sec k : Nat} (u : CohUnit) (h : k ≠ sec) : (s.setUnit sec u).unit k = s.unit k := Map.get_set_ne _ _ _ h

theorem State.unit_of_units {s t : State} (h : t.coh.units = s.coh.units) (k : Nat) : t.unit k = s.unit k := by
  unfold State.unit
  rw [h]

@[simp] theorem State.unit_post (s : State) (a : Turn) (k : Nat) : (s.post a).unit k = s.unit k := rfl

theorem Map.get_of_find {α : Type} {m : Map α} {k : Nat} {v d : α} (h : m.find k = some v) : m.get d k = v := by
  rw [Map.get, h]
  rfl

end Sys2Proof.Machine

namespace Sys2Proof.Claims
open Machine

/-- What agents give up: nothing lands, the units are as they were, and no translation has come. -/
structure Yields (s t : State) : Prop where
  calm  : Calm s t
  units : t.coh.units = s.coh.units
  tlb   : ∀ e ∈ t.coh.tlb, e ∈ s.coh.tlb

namespace Yields

variable {s t u : State}

theorem refl (s : State) : Yields s s := ⟨.refl s, rfl, fun _ h => h⟩

theorem trans (h : Yields s t) (g : Yields t u) : Yields s u := ⟨h.calm.trans g.calm, g.units.trans h.units, fun e he => h.tlb e (g.tlb e he)⟩

theorem unit (h : Yields s t) (k : Nat) : t.unit k = s.unit k := State.unit_of_units h.units k

theorem foldl {α : Type} {f : State → α → State} {l : List α} (hf : ∀ t a, Yields s t → Yields s (f t a)) (h : Yields s t) : Yields s (l.foldl f t) := by
  induction l generalizing t with
  | nil => exact h
  | cons a l ih => exact ih (hf t a h)

theorem ite {p : Prop} [Decidable p] (ht : Yields s t) (hu : Yields s u) : Yields s (if p then t else u) := by
  split
  · exact ht
  · exact hu

theorem moveQuantum {core : Nat} {hit : MemEff → Bool} {unit : Option Nat} (h : Yields s t) : Yields s (t.moveQuantum core hit unit) :=
  ite h (h.trans ⟨(Calm.refl t).step rfl, rfl, fun _ he => he⟩)

theorem cancelRemote {id : Nat} {r : Remote} {hit : MemEff → Bool} {hitVa : Nat → Bool} {unit : Option Nat} (h : Yields s t) :
    Yields s (t.cancelRemote id r hit hitVa unit) := by
  have herased : Yields s (t.modCoh fun c => { c with remote := c.remote.erase id }) := h.trans ⟨(Calm.refl t).step rfl, rfl, fun _ he => he⟩
  have hdiverted (core : Nat) (es : List MemEff) : Yields s ((t.modCoh fun c => { c with remote := c.remote.erase id }).divert core es unit) :=
    h.trans ⟨(Calm.refl t).step rfl, rfl, fun _ he => he⟩
  have hagain : Yields s ((t.modCoh fun c => { c with remote := c.remote.insert id { r with gone := true } }).post (.reissue id)) :=
    h.trans ⟨(Calm.refl t).step rfl, rfl, fun _ he => he⟩
  unfold State.cancelRemote
  dsimp only
  split
  · exact ite herased h
  · refine ite h ?_
    split
    · exact ite hagain (hdiverted ..)
    · exact hagain
  · exact ite hagain h
  · exact h

theorem dropTrans {agent : Nat} {p : TlbEntry → Bool} {unit : Option Nat} (h : Yields s t) : Yields s (t.dropTrans agent p unit) := by
  have hfiltered {v : State} (k : Yields s v) : Yields s (v.modCoh fun c => { c with
      tlb := c.tlb.filter fun e => !(e.agent == agent && p e), lastPage := c.lastPage.filter fun e => !(e.2.agent == agent && p e.2) }) :=
    k.trans ⟨(Calm.refl v).step rfl, rfl, fun _ he => List.mem_of_mem_filter he⟩
  unfold State.dropTrans
  refine ite h (hfiltered (foldl (fun _ _ k => ite (cancelRemote k) k) ?_))
  split
  · exact h
  · exact moveQuantum (h.trans ⟨(Calm.refl t).step rfl, rfl, fun _ he => he⟩)

theorem surrender {sec agent : Nat} (h : Yields s t) : Yields s (t.surrender sec agent) := ite (dropTrans h) h

theorem rouse {agent : Nat} (h : Yields s t) : Yields s (t.rouse agent) := by
  have hurged (a : Turn) : Yields s (t.urge a) := h.trans ⟨(Calm.refl t).step rfl, rfl, fun _ he => he⟩
  unfold State.rouse
  split
  · exact ite h (hurged _)
  · exact h

end Yields

/-- A translation cache that gives its tokens of a sector up holds no translation that derives from it (R229). -/
theorem surrender_drops (s : State) {sec a : Nat} (ha : translates a = true) : ∀ e ∈ (s.surrender sec a).coh.tlb, e.agent = a → sec ∉ e.units := by
  intro e he hagent hsec
  have hhit : (e.agent == a && e.units.contains sec) = true := by simp [hagent, hsec]
  rw [State.surrender, if_pos ha] at he
  unfold State.dropTrans at he
  dsimp only at he
  split at he
  · next hnone =>
    have hmem : e ∈ s.transOf a fun e => e.units.contains sec := List.mem_filter.2 ⟨List.mem_append_left _ he, hhit⟩
    rw [List.isEmpty_iff.1 hnone] at hmem
    exact nomatch hmem
  · have hkept := (List.mem_filter.1 he).2
    rw [hhit] at hkept
    exact nomatch hkept

end Sys2Proof.Claims
end

section
/-! SUPPORT. Atomic messages, replies, evictions, persistent requests, and probes. -/

namespace Sys2Proof.Claims
open Machine

/-! ### Atomic messages -/

theorem atomicMessageApplies : AtomicMessageApplies := by
  intro s v r retired
  have hexec : exec (.atomMessage r) s = execAtomMessage r s := rfl
  refine ⟨fun hret => ?_, fun hret hst => ?_, fun hret hst => ⟨fun sec f hm => ?_, fun hm => ⟨fun hone => ?_, fun hc hh => ?_⟩⟩⟩
  · rw [hexec, execAtomMessage, if_pos hret]
  · rw [hexec, execAtomMessage, if_neg (by rw [Bool.not_eq_true]; exact hret), if_pos hst]
  · rw [hexec, execAtomMessage, if_neg (by rw [Bool.not_eq_true]; exact hret), if_neg (by simp [hst]), hm]
  · have hsingle : (r.cls == 3 && !r.half) = false := by
      obtain hc | hh := hone
      · rw [beq_eq_false_iff_ne.2 hc]; rfl
      · rw [hh, Bool.not_true, Bool.and_false]
    rw [hexec, execAtomMessage, if_neg (by rw [Bool.not_eq_true]; exact hret), if_neg (by simp [hst]), hm]
    simp only [hsingle, Bool.false_eq_true, if_false]
    rfl
  · have hpair : (r.cls == 3 && !r.half) = true := by simp [hc, hh]
    rw [hexec, execAtomMessage, if_neg (by rw [Bool.not_eq_true]; exact hret), if_neg (by simp [hst]), hm]
    simp only [hpair, if_true]
    rfl

/-! ### Replies and evictions -/

/-- Nothing settles where no request waits at the home. -/
theorem settleReq_of_none {s : State} {sec : Nat} (h : (s.unit sec).req = none) : s.settleReq sec = s := by
  unfold State.settleReq
  rw [h]

/-- Nothing settles while replies are missing. -/
theorem settleReq_of_missing {s : State} {sec : Nat} {r : TokReq} (h : (s.unit sec).req = some r) (hr : r.got < r.expected) : s.settleReq sec = s := by
  unfold State.settleReq
  rw [h]
  exact if_pos hr

section
variable {s : State} {sec n : Nat} {own : Bool}

/-- An Ack of tokens under way. -/
theorem execAck_eq (source : Nat) (h : (n, own) ∈ (s.unit sec).flight) : exec (.ack sec source n own) s =
    .next ((s.setUnit sec (({ s.unit sec with flight := (s.unit sec).flight.erase (n, own) }.credit n own).reply)).settleReq sec) := by
  rw [show exec (.ack sec source n own) s = execAck sec source n own s from rfl, execAck]
  dsimp only
  rw [if_pos (by simpa using h)]

theorem ack_returns (source : Nat) (h : (n, own) ∈ (s.unit sec).flight) (hr : (s.unit sec).req = none) :
    ∃ t, exec (.ack sec source n own) s = .next t ∧ (t.unit sec).home = (s.unit sec).home + n ∧
      (t.unit sec).flight = (s.unit sec).flight.erase (n, own) ∧ t.mem = s.mem := by
  have hcredit : ({ s.unit sec with flight := (s.unit sec).flight.erase (n, own) }.credit n own).reply =
      { s.unit sec with flight := (s.unit sec).flight.erase (n, own), home := (s.unit sec).home + n } := by
    simp [CohUnit.credit, CohUnit.reply, hr]
  refine ⟨_, (execAck_eq source h).trans (congrArg Host.Outcome.next (settleReq_of_none ?_)), ?_, ?_, rfl⟩
  · rw [State.unit_setUnit_self, hcredit]; exact hr
  · rw [State.unit_setUnit_self, hcredit]
  · rw [State.unit_setUnit_self, hcredit]

theorem ack_counts (source : Nat) {r : TokReq} (h : (n, own) ∈ (s.unit sec).flight) (hr : (s.unit sec).req = some r) (hg : r.got + 1 < r.expected) :
    ∃ t, exec (.ack sec source n own) s = .next t ∧
      (t.unit sec).req = some { r with tokens := r.tokens + n, owner := r.owner || own, got := r.got + 1 } ∧ t.mem = s.mem := by
  have hreq : (({ s.unit sec with flight := (s.unit sec).flight.erase (n, own) }.credit n own).reply).req =
      some { r with tokens := r.tokens + n, owner := r.owner || own, got := r.got + 1 } := by
    simp [CohUnit.credit, CohUnit.reply, hr]
  refine ⟨_, (execAck_eq source h).trans (congrArg Host.Outcome.next
    (settleReq_of_missing (r := { r with tokens := r.tokens + n, owner := r.owner || own, got := r.got + 1 }) ?_ hg)), ?_, rfl⟩
  · rw [State.unit_setUnit_self, hreq]
  · rw [State.unit_setUnit_self, hreq]

/-- A NullAck is counted where the filter names its holders one by one. -/
theorem nullReply_counts (target : Nat) {r : TokReq} {l : List Nat} (hr : (s.unit sec).req = some r) (hg : r.got + 1 < r.expected)
    (hf : (s.unit sec).filter = .pointers l) :
    (s.nullReply sec target).unit sec = { s.unit sec with req := some { r with got := r.got + 1 } } ∧ (s.nullReply sec target).mem = s.mem := by
  have hreply : { (s.unit sec).reply with filter := (s.unit sec).filter } = { s.unit sec with req := some { r with got := r.got + 1 } } := by
    simp [CohUnit.reply, hr]
  have heq : s.nullReply sec target = s.setUnit sec { s.unit sec with req := some { r with got := r.got + 1 } } := by
    unfold State.nullReply
    simp only [hf]
    rw [← hf, hreply]
    exact settleReq_of_missing (r := { r with got := r.got + 1 }) (by rw [State.unit_setUnit_self]) hg
  rw [heq]
  exact ⟨State.unit_setUnit_self .., rfl⟩

/-- An agent that may evict gives up its tokens of a sector, which are under way (R251). -/
theorem sendEvict_leaves {agent : Nat} (hheld : (s.unit sec).held.get 0 agent ≠ 0) (haw : s.awaited agent sec = false)
    (hlate : translates agent = true → s.late [sec] = false) :
    let v := if translates agent then s.complete [sec] else s.flushDies fun d => proxyAgent d.die == agent && sectorOf d.pa == sec
    let own := (v.unit sec).owner == some agent
    (v.unit sec).held.find agent = some n →
      let t := s.sendEvict sec agent
      (t.unit sec).held.find agent = none ∧ (t.unit sec).evicts = (v.unit sec).evicts ++ [(agent, n, own)] ∧
      (t.unit sec).owner = (if own then none else (v.unit sec).owner) ∧ t.mem = v.mem ∧
      Turn.hw (if own && 902 ≤ agent && agent < 906 then .evictdata sec (agent - 902) else .evict sec agent) ∈ t.agenda := by
  intro v own hfind t
  have hgoes : ((s.unit sec).held.get 0 agent = 0 || s.awaited agent sec || (translates agent && s.late [sec])) = false := by
    have hl : (translates agent && s.late [sec]) = false := by
      cases ht : translates agent with
      | false => rfl
      | true => rw [hlate ht]; rfl
    simp [hheld, haw, hl]
  have hy : Yields v (v.surrender sec agent) := .surrender (.refl v)
  have ht : t = ((v.surrender sec agent).setUnit sec { v.unit sec with
      held := (v.unit sec).held.erase agent, evicts := (v.unit sec).evicts ++ [(agent, n, own)], owner := if own then none else (v.unit sec).owner }).post
        (.hw (if own && 902 ≤ agent && agent < 906 then .evictdata sec (agent - 902) else .evict sec agent)) := by
    refine (if_neg (by rw [Bool.not_eq_true]; exact hgoes)).trans ?_
    dsimp only
    rw [hy.unit, Map.get_of_find hfind]
  have hunit : t.unit sec = { v.unit sec with
      held := (v.unit sec).held.erase agent, evicts := (v.unit sec).evicts ++ [(agent, n, own)], owner := if own then none else (v.unit sec).owner } := by
    rw [ht]
    exact State.unit_setUnit_self ..
  rw [hunit]
  refine ⟨Map.find_erase_self .., rfl, rfl, ?_, ?_⟩
  · rw [ht]; exact hy.calm.mem
  · rw [ht]; exact List.mem_append_right _ (List.mem_singleton_self _)

/-- Tokens that an eviction sent arrive: beside its agent's pointers, which go, they are credited. -/
theorem evictArrives_eq (agent : Nat) : ∃ (u : State) (f : Filter), u.mem = s.mem ∧ s.evictArrives sec agent (agent, n, own) =
    (u.setUnit sec ({ s.unit sec with evicts := (s.unit sec).evicts.erase (agent, n, own), filter := f }.credit n own)).settleReq sec := by
  refine ⟨_, _, ?_, rfl⟩
  split
  · dsimp only
    split <;> rfl
  · rfl

theorem evictArrives_returns (agent : Nat) (hr : (s.unit sec).req = none) : let t := s.evictArrives sec agent (agent, n, own)
    (t.unit sec).home = (s.unit sec).home + n ∧ (t.unit sec).evicts = (s.unit sec).evicts.erase (agent, n, own) ∧ t.mem = s.mem := by
  obtain ⟨u, f, hmem, heq⟩ := evictArrives_eq (s := s) (sec := sec) (n := n) (own := own) agent
  have hcredit : { s.unit sec with evicts := (s.unit sec).evicts.erase (agent, n, own), filter := f }.credit n own =
      { s.unit sec with evicts := (s.unit sec).evicts.erase (agent, n, own), filter := f, home := (s.unit sec).home + n } := by
    simp [CohUnit.credit, hr]
  rw [hcredit, settleReq_of_none (by rw [State.unit_setUnit_self]; exact hr)] at heq
  intro t
  rw [show t = _ from heq, State.unit_setUnit_self]
  exact ⟨rfl, rfl, hmem⟩

theorem evictArrives_counts (agent : Nat) {r : TokReq} (hr : (s.unit sec).req = some r) (hg : r.got < r.expected) :
    let t := s.evictArrives sec agent (agent, n, own)
    (t.unit sec).req = some { r with tokens := r.tokens + n, owner := r.owner || own } ∧ t.mem = s.mem := by
  obtain ⟨u, f, hmem, heq⟩ := evictArrives_eq (s := s) (sec := sec) (n := n) (own := own) agent
  have hcredit : ({ s.unit sec with evicts := (s.unit sec).evicts.erase (agent, n, own), filter := f }.credit n own).req =
      some { r with tokens := r.tokens + n, owner := r.owner || own } := by
    simp [CohUnit.credit, hr]
  rw [settleReq_of_missing (r := { r with tokens := r.tokens + n, owner := r.owner || own }) (by rw [State.unit_setUnit_self]; exact hcredit) hg] at heq
  intro t
  rw [show t = _ from heq, State.unit_setUnit_self]
  exact ⟨hcredit, hmem⟩

end

theorem repliesAndEvictionsComplete : RepliesAndEvictionsComplete := by
  intro s sec source n r u
  refine ⟨fun own h hr => ack_returns source h hr, fun own h hr hg => ack_counts source h hr hg, fun l hr hg hf => ?_, fun hnone hown => ?_,
    fun die hdie hnone => ?_, sendEvict_leaves, fun own i hsome hi => ?_⟩
  · exact ⟨⟨_, rfl, nullReply_counts source hr hg hf⟩, _, rfl, nullReply_counts (1024 + source) hr hg hf⟩
  · rw [show exec (.evict sec source) s = execEvict sec source s from rfl, execEvict, hnone]
    exact congrArg Host.Outcome.next (if_neg (by simpa using hown))
  · subst hdie
    rw [show exec (.evictdata sec die) s = execEvictdata sec die s from rfl, execEvictdata, hnone]
  · have hexec : exec i s = .next (s.evictArrives sec source (source, n, own)) := by
      obtain rfl | ⟨die, rfl, rfl⟩ := hi
      · rw [show exec (.evict sec source) s = execEvict sec source s from rfl, execEvict, hsome]
      · rw [show exec (.evictdata sec die) s = execEvictdata sec die s from rfl, execEvictdata, hsome]
    exact ⟨fun hr => ⟨_, hexec, evictArrives_returns source hr⟩, fun hr hg => ⟨_, hexec, evictArrives_counts source hr hg⟩⟩

/-! ### Persistent requests -/

/-- Requests that wait behind another one age where they stand. -/
theorem ageQueue_ages (s : State) (sec : Nat) {r : TokReq} (hr : r ∈ (s.unit sec).queue) : ∃ q ∈ ((s.ageQueue sec).unit sec).queue,
    q = if r.since + 2048 ≤ s.clock then { r with fails := r.fails + 1, since := s.clock } else r := by
  refine ⟨_, ?_, rfl⟩
  have hunit : ((s.ageQueue sec).unit sec).queue =
      (s.unit sec).queue.map fun r => if r.old s.clock then { r with fails := r.fails + 1, since := s.clock } else r :=
    congrArg CohUnit.queue (State.unit_setUnit_self ..)
  rw [hunit, List.mem_map]
  refine ⟨r, hr, ?_⟩
  simp [TokReq.old]

theorem persistentRequestsComplete : PersistentRequestsComplete := by
  intro s agent sec u put
  have hpersreq (hn : agent ∉ u.pers) : exec (.persreq agent sec) s = if s.persTable sec ≥ 32 then .next (s.defer (.hw (.persistentTableRetry sec)))
      else .next (if u.pers.isEmpty then (put (u.pers.filter (· < agent) ++ agent :: u.pers.filter (· > agent))).servePers sec
        else put (u.pers.filter (· < agent) ++ agent :: u.pers.filter (· > agent))) := by
    rw [show exec (.persreq agent sec) s = execPersreq agent sec s from rfl, execPersreq]
    exact if_neg (by simpa using hn)
  have htimeout : exec (.tokenRequestTimeout sec) s = execTokenRequestTimeout sec s := rfl
  refine ⟨fun hn hroom => ⟨fun he => ?_, fun he => ?_⟩, fun hn hfull => ?_, fun hin => ?_, fun r hr hold hp hf => ⟨fun hg hm => ?_, fun hg => ?_⟩,
    fun r hr => ageQueue_ages s sec hr, fun r hr hf hp hold hroom => ?_⟩
  · rw [hpersreq hn, if_neg (Nat.not_le.2 hroom), he]
    rfl
  · rw [hpersreq hn, if_neg (Nat.not_le.2 hroom), if_neg (by simpa using he)]
  · rw [hpersreq hn, if_pos hfull]
  · rw [show exec (.persdone agent sec) s = execPersdone agent sec s from rfl, execPersdone]
    exact if_pos (by simpa using hin)
  · have hage : r.old (s.ageQueue sec).clock = true := by simpa [TokReq.old] using hold
    rw [htimeout, execTokenRequestTimeout, hr]
    dsimp only
    rw [if_neg (by rw [hage]; simp), if_pos (by simpa [hg] using hm)]
  · have hage : r.old (s.ageQueue sec).clock = true := by simpa [TokReq.old] using hold
    have hwait : ¬(r.got ≥ r.expected && (s.ageQueue sec).meets sec r) = true := by
      obtain hg | hm := hg
      · simp [Nat.not_le.2 hg]
      · simp [hm]
    rw [htimeout, execTokenRequestTimeout, hr]
    dsimp only
    rw [if_neg (by rw [hage]; simp), if_neg hwait, if_neg (by simp [hp]), if_neg (Nat.not_le.2 hf)]
  · rw [show exec (.persistentTableRetry sec) s = execPersistentTableRetry sec s from rfl, execPersistentTableRetry, hr]
    dsimp only
    rw [if_neg (by simpa [hp] using Nat.lt_of_succ_le hf), if_neg (Nat.not_lt.2 hold), if_pos hroom]

end Sys2Proof.Claims
end

section
/-! SUPPORT. The answers to probes. -/

namespace Sys2Proof.Claims
open Machine

/-- What agents give up beside a sector's unit: nothing lands, that unit is as it was, and no translation has come. -/
structure YieldsBeside (sec : Nat) (s t : State) : Prop where
  calm : Calm s t
  unit : t.unit sec = s.unit sec
  tlb  : ∀ e ∈ t.coh.tlb, e ∈ s.coh.tlb

/-- What an agent gives up of another sector, where its die has no store to that sector under way. -/
theorem YieldsBeside.comeHome {s t : State} {sec k a : Nat} (h : YieldsBeside sec s t) (hk : k ≠ sec)
    (hd : ∀ d ∈ s.coh.dieWrites, proxyAgent d.die = a → sectorOf d.pa ≠ k) : YieldsBeside sec s (t.comeHome k a) := by
  have hflush : (t.flushDies fun d => proxyAgent d.die == a && sectorOf d.pa == k) = t := flushDies_of_none fun d hdt => by
    rw [h.calm.dies] at hdt
    by_cases ha : proxyAgent d.die = a
    · simp [hd d hdt ha]
    · simp [ha]
  unfold State.comeHome
  rw [hflush]
  split
  · exact h
  · have hy : Yields t ((t.surrender k a).rouse a) := .rouse (.surrender (.refl t))
    exact ⟨(h.calm.trans hy.calm).setUnit, (State.unit_setUnit_ne _ _ (Ne.symm hk)).trans ((hy.unit sec).trans h.unit), fun e he => h.tlb e (hy.tlb e he)⟩

theorem YieldsBeside.foldl_comeHome {s t : State} {sec a : Nat} {l : List Nat} (h : YieldsBeside sec s t) (hl : ∀ k ∈ l, k ≠ sec)
    (hd : ∀ d ∈ s.coh.dieWrites, proxyAgent d.die = a → sectorOf d.pa ∉ l) : YieldsBeside sec s (l.foldl (fun s k => s.comeHome k a) t) := by
  induction l generalizing t with
  | nil => exact h
  | cons k l ih =>
    exact ih (h.comeHome (hl k (List.mem_cons_self ..)) fun d hds ha hsec => hd d hds ha (hsec ▸ List.mem_cons_self ..))
      (fun j hj => hl j (List.mem_cons_of_mem k hj)) fun d hds ha hsec => hd d hds ha (List.mem_cons_of_mem k hsec)

theorem unitSecs_of_fmts {s t : State} (h : t.coh.fmts = s.coh.fmts) (sec : Nat) : t.unitSecs sec = s.unitSecs sec := by
  unfold State.unitSecs
  rw [h]

/-- A single holder that gives all it has, and not the owner token, surrenders it: its tokens are under way in an Ack. -/
theorem probe_surrenders {s v : State} {sec target a n : Nat} (hv : v = if translates a then s.complete [sec] else s)
    (hheld : ((s.unitSecs sec).any fun k => s.heldBy 0 (32 * k) 32) = false) (hlate : s.late [sec] = false)
    (hans : s.answersFor sec target = [(a, n)]) (hown : (s.unit sec).owner ≠ some a) (hansv : v.answersFor sec target = [(a, n)])
    (hfind : (v.unit sec).held.find a = some n) (hownv : (v.unit sec).owner ≠ some a)
    (hd : ∀ d ∈ v.coh.dieWrites, proxyAgent d.die = a → sectorOf d.pa ∉ v.unitSecs sec) :
    ∃ w : State, w.mem = v.mem ∧ (translates a = true → ∀ e ∈ w.coh.tlb, e.agent = a → sec ∉ e.units) ∧
      exec (.probe sec target false) s = .next ((w.setUnit sec { v.unit sec with
        held := Map.set (v.unit sec).held 0 a 0, flight := (v.unit sec).flight ++ [(n, false)] }).post (.hw (.ack sec target n false))) := by
  have hleft : Yields v ((v.surrender sec a).rouse a) := .rouse (.surrender (.refl v))
  have hunits : ((v.surrender sec a).rouse a).unitSecs sec = v.unitSecs sec := unitSecs_of_fmts hleft.calm.fmts sec
  have hw : YieldsBeside sec ((v.surrender sec a).rouse a) (((v.unitSecs sec).filter (· != sec)).foldl (fun s k => s.comeHome k a)
      ((v.surrender sec a).rouse a)) := by
    refine .foldl_comeHome ⟨.refl _, rfl, fun _ he => he⟩ (fun k hk => by simpa using (List.mem_filter.1 hk).2) fun d hdl ha hsec => ?_
    exact hd d (hleft.calm.dies ▸ hdl) ha (List.mem_of_mem_filter hsec)
  refine ⟨_, hw.calm.mem.trans hleft.calm.mem,
    fun ht e he => surrender_drops v ht e ((Yields.rouse (.refl (v.surrender sec a))).tlb e (hw.tlb e he)), ?_⟩
  have howned : ((s.answersFor sec target).any fun h => (s.unit sec).owner == some h.1) = false := by simp [hans, hown]
  have htrans : ((s.answersFor sec target).any fun h => translates h.1) = translates a := by simp [hans]
  have hother : (v.unit sec).owner.any (a == ·) = false := by
    rw [Bool.eq_false_iff, ne_eq, Option.any_eq_true]
    rintro ⟨o, ho, hao⟩
    exact hownv (by rw [ho, beq_iff_eq.1 hao])
  rw [show exec (.probe sec target false) s = execProbe sec target false s from rfl, execProbe, if_neg (by simp [hheld, hlate])]
  simp only [howned, Bool.false_eq_true, if_false, htrans, ← hv, hansv, List.isEmpty_cons, List.filter_cons, List.filter_nil,
    Map.get_of_find hfind, beq_self_eq_true, if_true, List.foldl_cons, List.foldl_nil, List.contains_cons, Bool.true_or, hunits, hw.unit, hleft.unit,
    Nat.sub_self, List.any_cons, List.any_nil, Bool.or_false, List.map_cons, List.map_nil, List.sum_cons, List.sum_nil, Nat.add_zero, hother]

theorem probesAreAnswered : ProbesAreAnswered := by
  intro s sec target a n held
  have hprobe (one : Bool) : exec (.probe sec target one) s = execProbe sec target one s := rfl
  refine ⟨fun hwait one => ?_, fun hheld hlate hnone one => ?_, fun hheld hlate hans hown hansv hn hfind hownv hd => ?_⟩
  · have hstop : (held || s.late [sec]) = true := by simpa using hwait
    rw [hprobe, execProbe, if_pos hstop]
  · have hgo : (held || s.late [sec]) = false := by rw [hheld, hlate]; rfl
    rw [hprobe, execProbe, if_neg (by rw [Bool.not_eq_true]; exact hgo)]
    simp only [hnone, List.any_nil, Bool.false_eq_true, if_false, List.find?_nil, ite_self, List.isEmpty_nil, if_true]
    rfl
  · obtain ⟨w, hmem, htlb, hexec⟩ := probe_surrenders rfl hheld hlate hans hown hansv hfind hownv hd
    refine ⟨_, hexec, ?_⟩
    rw [State.unit_post, State.unit_setUnit_self]
    exact ⟨Map.find_erase_self .., rfl, rfl, List.mem_append_right _ (List.mem_singleton_self _), hmem, htlb⟩

end Sys2Proof.Claims
end

section
/-! SUPPORT. Read tokens, and the room that a cache makes for a block. -/

namespace Sys2Proof.Claims
open Machine

/-! ### One token passes -/

/-- An agent without a token of a unit, which may take one, and for which its die's proxy or the home has one. -/
def CanTake (k agent : Nat) (u : CohUnit) : Prop :=
  u.pers = [] ∧ u.held.get 0 agent = 0 ∧ (0 < u.spare k agent ∨ 1 < u.home ∨ (0 < u.home ∧ u.owner ≠ none))

/-- The unit `v` is `u` after an agent has taken a token: of its die's proxy where that had one to spare, and else of the home. -/
def TakesToken (k agent : Nat) (u v : CohUnit) : Prop :=
  v.queue = u.queue ∧ v.held.get 0 agent = 1 ∧ v.owner = u.owner ∧ v.home = (if 0 < u.spare k agent then u.home else u.home - 1) ∧
    ∀ a, a ≠ agent → v.held.get 0 a = if 0 < u.spare k agent ∧ proxyFor k agent = some a then u.held.get 0 a - 1 else u.held.get 0 a

/-- A unit that a token has left, the home's or a holder's. -/
def tokenLeft (u : CohUnit) : Option Nat → CohUnit
  | none => { u with home := u.home - 1 }
  | some h => u.lose h

/-- The unit in which a token passes: its giver's part, and its taker's. -/
theorem give_unit_self (s : State) (k agent : Nat) (source : Option Nat) : (s.give k agent source).unit k =
    { tokenLeft (s.unit k) source with
      held := (tokenLeft (s.unit k) source).held.insert agent ((tokenLeft (s.unit k) source).held.get 0 agent + 1)
      filter := (s.unit k).filter.add (secHome k) (recorded (secHome k) agent) } := by
  cases source with
  | none =>
    unfold State.give
    dsimp only
    split
    · split <;> exact State.unit_setUnit_self ..
    · exact State.unit_setUnit_self ..
  | some h =>
    unfold State.give
    dsimp only
    split
    · split <;> exact State.unit_setUnit_self ..
    · exact State.unit_setUnit_self ..

theorem give_unit_ne (s : State) {k o : Nat} (agent : Nat) (source : Option Nat) (h : o ≠ k) : (s.give k agent source).unit o = s.unit o := by
  unfold State.give
  dsimp only
  split
  · split
    · exact State.unit_setUnit_ne _ _ h
    · exact State.unit_setUnit_ne _ _ h
  · exact State.unit_setUnit_ne _ _ h

/-- A proxy is no core's agent. -/
theorem ne_of_proxyFor {k agent p : Nat} (h : proxyFor k agent = some p) : agent ≠ p := by
  simp only [proxyFor, agentCore, Option.bind_eq_some_iff, Option.map_eq_some_iff] at h
  obtain ⟨d, ⟨n, hn, -⟩, hd⟩ := h
  have hagent : agent < 864 := by
    split at hn
    · assumption
    · exact nomatch hn
  have hp : p = 902 + d := by
    split at hd
    · exact nomatch hd
    · exact (Option.some.inj hd).symm
  omega

theorem give_takes {s : State} {k agent : Nat} (h : CanTake k agent (s.unit k)) :
    TakesToken k agent (s.unit k) ((s.give k agent (if 0 < (s.unit k).spare k agent then proxyFor k agent else none)).unit k) := by
  obtain ⟨-, hnone, -⟩ := h
  rw [give_unit_self]
  by_cases hspare : 0 < (s.unit k).spare k agent
  · obtain ⟨p, hp⟩ : ∃ p, proxyFor k agent = some p := by
      cases hp : proxyFor k agent with
      | none => simp [CohUnit.spare, hp] at hspare
      | some p => exact ⟨p, rfl⟩
    have hkept : (tokenLeft (s.unit k) (some p)).held.get 0 agent = 0 := (Map.get_set_ne _ _ _ (ne_of_proxyFor hp)).trans hnone
    simp only [TakesToken, hspare, if_true, hp, true_and, hkept]
    refine ⟨rfl, by rw [Map.get, Map.find_insert_self]; rfl, rfl, rfl, fun a ha => ?_⟩
    rw [Map.get, Map.find_insert_ne _ _ ha]
    by_cases hpa : p = a
    · subst hpa
      rw [if_pos rfl]
      exact Map.get_set_self ..
    · rw [if_neg (by simpa using hpa)]
      exact Map.get_set_ne _ _ _ (Ne.symm hpa)
  · have hkept : (tokenLeft (s.unit k) none).held.get 0 agent = 0 := hnone
    simp only [TakesToken, hspare, if_false, false_and, hkept]
    refine ⟨rfl, by rw [Map.get, Map.find_insert_self]; rfl, rfl, rfl, fun a ha => ?_⟩
    rw [Map.get, Map.find_insert_ne _ _ ha]
    rfl

theorem grantSec_of_canTake {s : State} {k agent : Nat} (h : CanTake k agent (s.unit k)) :
    s.grantSec k agent = s.give k agent (if 0 < (s.unit k).spare k agent then proxyFor k agent else none) := by
  obtain ⟨hpers, hnone, hfrom⟩ := h
  unfold State.grantSec
  dsimp only
  rw [if_neg (by simp [hnone, CohUnit.keeps, hpers])]
  by_cases hspare : 0 < (s.unit k).spare k agent
  · rw [if_pos hspare, if_pos hspare]
  · rw [if_neg hspare, if_neg hspare]
    refine if_pos ?_
    obtain hs | hh | ⟨hh, ho⟩ := hfrom
    · exact absurd hs hspare
    · split <;> omega
    · rw [if_neg (by simpa using ho)]
      exact hh

/-- An agent takes a token of each of some sectors; no other unit changes. -/
theorem foldl_grantSec {s : State} {agent : Nat} {l : List Nat} (hl : l.Nodup) (h : ∀ k ∈ l, CanTake k agent (s.unit k)) :
    let t := l.foldl (fun s k => s.grantSec k agent) s
    Calm s t ∧ (∀ k ∈ l, TakesToken k agent (s.unit k) (t.unit k)) ∧ ∀ o, o ∉ l → t.unit o = s.unit o := by
  induction l generalizing s with
  | nil => exact ⟨.refl s, nofun, fun _ _ => rfl⟩
  | cons k l ih =>
    obtain ⟨hk, hl⟩ := List.nodup_cons.1 hl
    have hcan := h k (List.mem_cons_self ..)
    have hgive : s.grantSec k agent = _ := grantSec_of_canTake hcan
    have hcalm : Calm s (s.grantSec k agent) := hgive ▸ (Calm.refl s).give
    have htakes := hgive ▸ give_takes hcan
    have hother (o : Nat) (ho : o ≠ k) : (s.grantSec k agent).unit o = s.unit o := hgive ▸ give_unit_ne s agent _ ho
    obtain ⟨hc, ht, ho⟩ := ih hl fun j hj => by
      rw [hother j (fun e => hk (e ▸ hj))]
      exact h j (List.mem_cons_of_mem k hj)
    rw [List.foldl_cons]
    refine ⟨hcalm.trans hc, fun j hj => ?_, fun o hol => ?_⟩
    · obtain rfl | hj := List.mem_cons.1 hj
      · rw [ho j hk]
        exact htakes
      · rw [← hother j (fun e => hk (e ▸ hj))]
        exact ht j hj
    · rw [List.mem_cons, not_or] at hol
      rw [ho o hol.2, hother o hol.1]

theorem unitSecs_nodup (s : State) (sec : Nat) : (s.unitSecs sec).Nodup :=
  List.Nodup.map (fun _ _ h => Nat.add_left_cancel h) List.nodup_range

theorem mem_unitSecs_self (s : State) (sec : Nat) : sec ∈ s.unitSecs sec := by
  unfold State.unitSecs
  dsimp only
  refine List.mem_map.2 ⟨sec % _, List.mem_range.2 (Nat.mod_lt _ ?_), Nat.div_add_mod' ..⟩
  split <;> decide

/-- A sector is among those that an agent reads with it. -/
theorem mem_grain_self (s : State) (agent sec : Nat) : sec ∈ if translates agent then [sec] else s.unitSecs sec := by
  split
  · exact List.mem_singleton_self _
  · exact mem_unitSecs_self s sec

/-- A unit lies in one block, and each of its sectors is of it. -/
theorem unitSecs_of_mem {s : State} {sec k : Nat} (h : k ∈ s.unitSecs sec) : k / 16 = sec / 16 ∧ s.unitSecs k = s.unitSecs sec := by
  have hcut (n : Nat) (hn : n = 1 ∨ n = 4 ∨ n = 16) (hk : k ∈ (List.range n).map (sec / n * n + ·)) : k / 16 = sec / 16 ∧ k / n = sec / n := by
    obtain ⟨i, hi, rfl⟩ := List.mem_map.1 hk
    rw [List.mem_range] at hi
    obtain rfl | rfl | rfl := hn <;> omega
  obtain ⟨hblock, hunit⟩ := hcut _ (by split <;> decide) h
  refine ⟨hblock, ?_⟩
  unfold State.unitSecs
  simp only [hblock]
  rw [hunit]

/-! ### Room for the block -/

/-- A cache of a core, which holds no translation, evicts a sector: only that sector's unit changes. -/
theorem sendEvict_beside {agent : Nat} (ha : agent < 864) (ht : translates agent = false) (s : State) (k : Nat) :
    Calm s (s.sendEvict k agent) ∧ ∀ o, o ≠ k → (s.sendEvict k agent).unit o = s.unit o := by
  have hflush : (s.flushDies fun d => proxyAgent d.die == agent && sectorOf d.pa == k) = s := flushDies_of_none fun d _ => by
    have hne : proxyAgent d.die ≠ agent := by unfold proxyAgent; omega
    simp [hne]
  have hkept : s.surrender k agent = s := if_neg (by simp [ht])
  unfold State.sendEvict
  dsimp only
  split
  · exact ⟨.refl s, fun _ _ => rfl⟩
  · simp only [ht, Bool.false_eq_true, if_false]
    rw [hflush, hkept]
    exact ⟨(Calm.refl s).setUnit.step rfl, fun o ho => State.unit_setUnit_ne _ _ ho⟩

/-- What a cache evicts to make room lies in other blocks. -/
theorem trimCache_beside {agent sets cap : Nat} (ha : agent < 864) (ht : translates agent = false) (hcap : 0 < cap) (s : State) (sec : Nat) (desc : Bool) :
    Calm s (s.trimCache agent sets cap sec desc) ∧ ∀ o, o / 16 = sec / 16 → (s.trimCache agent sets cap sec desc).unit o = s.unit o := by
  have hfold (l : List (Nat × CohUnit)) (hl : ∀ e ∈ l, e.1 / 16 ≠ sec / 16) (t : State) (h : Calm s t ∧ ∀ o, o / 16 = sec / 16 → t.unit o = s.unit o) :
      Calm s (l.foldl (fun s e => s.sendEvict e.1 agent) t) ∧ ∀ o, o / 16 = sec / 16 → (l.foldl (fun s e => s.sendEvict e.1 agent) t).unit o = s.unit o := by
    induction l generalizing t with
    | nil => exact h
    | cons e l ih =>
      obtain ⟨hc, hu⟩ := sendEvict_beside ha ht t e.1
      refine ih (fun d hd => hl d (List.mem_cons_of_mem e hd)) _ ⟨h.1.trans hc, fun o ho => ?_⟩
      rw [hu o fun heq => hl e (List.mem_cons_self ..) (heq ▸ ho), h.2 o ho]
  unfold State.trimCache
  dsimp only
  split
  · exact ⟨.refl s, fun _ _ => rfl⟩
  · next hfull =>
    refine hfold _ (fun e he => ?_) _ ⟨(Calm.refl s).step rfl, fun _ _ => rfl⟩
    rw [beq_iff_eq.1 (List.mem_filter.1 he).2]
    have hlt := Nat.mod_lt s.drawNat.1 (Nat.lt_of_lt_of_le hcap (Nat.not_lt.1 hfull))
    rw [List.getD_eq_getElem _ _ hlt]
    have hmem := List.getElem_mem hlt
    rw [List.mem_eraseDups, List.mem_filter] at hmem
    simpa using hmem.2

/-- A reader's cache makes room for a sector's block. -/
def madeRoom (s : State) (agent sec : Nat) : State :=
  if agent < 288 then s.trimCache agent 64 8 sec false
  else if 576 ≤ agent && agent < 864 then s.trimCache agent 1 256 sec false
  else if 902 ≤ agent && agent < 906 then s.trimL2 (sliceIn (writingDie agent) (sec / 16)) (setOf (32 * sec))
  else s

/-- An L1 or an instruction cache evicts another block. -/
theorem madeRoom_beside (s : State) (agent sec : Nat) : Calm s (madeRoom s agent sec) ∧
    ∀ o, o / 16 = sec / 16 ∨ ¬(agent < 288 ∨ (576 ≤ agent ∧ agent < 864)) → (madeRoom s agent sec).unit o = s.unit o := by
  unfold madeRoom
  have htrans (h : agent < 288 ∨ 576 ≤ agent ∧ agent < 864) : translates agent = false := by
    simp only [translates, Bool.or_eq_false_iff, Bool.and_eq_false_iff, decide_eq_false_iff_not]
    omega
  by_cases h1 : agent < 288
  · simp only [h1, if_true]
    obtain ⟨hc, hu⟩ := trimCache_beside (sets := 64) (by omega) (htrans (.inl h1)) (by decide : 0 < 8) s sec false
    exact ⟨hc, fun o ho => hu o (ho.resolve_right fun hn => hn (.inl trivial))⟩
  by_cases h2 : 576 ≤ agent ∧ agent < 864
  · simp only [h1, if_false, h2, decide_true, Bool.and_true, if_true]
    obtain ⟨hc, hu⟩ := trimCache_beside (sets := 1) h2.2 (htrans (.inr h2)) (by decide : 0 < 256) s sec false
    exact ⟨hc, fun o ho => hu o (ho.resolve_right fun hn => hn (.inr ⟨trivial, trivial⟩))⟩
  have h2' : (decide (576 ≤ agent) && decide (agent < 864)) = false := by simpa using h2
  simp only [h1, if_false, h2', Bool.false_eq_true]
  refine ⟨.ite (Calm.refl s).trimL2 (.refl s), fun o _ => ?_⟩
  split
  · unfold State.trimL2
    split <;> rfl
  · rfl

/-! ### Requests at their home -/

/-- A request that nothing holds and that is not there already: it stands behind another one, or is satisfied, or its probes go out. -/
theorem request_eq {s : State} {sec agent need : Nat} (again : Turn) (hb : s.unitBarred sec = false) (hl : s.late [sec] = false)
    (hv : s.viaHost (32 * sec) = false) (hnew : ∀ q ∈ (s.unit sec).req.toList ++ (s.unit sec).queue, q.agent ≠ agent ∨ q.need ≠ need) :
    let r : TokReq := ⟨agent, need, 0, 0, 0, false, 0, s.clock, false⟩
    s.request sec agent need again =
      if (s.unit sec).req.isSome || !(s.unit sec).pers.isEmpty then s.setUnit sec { s.unit sec with queue := (s.unit sec).queue ++ [r] }
      else if s.meets sec r then s.satisfy sec r else s.sendProbes sec r := by
  have hnone : (((s.unit sec).req.toList ++ (s.unit sec).queue).any fun q => q.agent == agent && q.need == need) = false := by
    refine List.any_eq_false.2 fun q hq => ?_
    obtain h | h := hnew q hq <;> simp [h]
  unfold State.request
  simp only [hb, hl, hv, hnone, Bool.or_false, Bool.false_eq_true, if_false]

/-- Nobody is served behind a request where none waits. -/
theorem satisfy_of_alone {s : State} {sec : Nat} {r : TokReq} (h : ((s.grantReq sec r).unit sec).queue = []) : s.satisfy sec r = s.grantReq sec r := by
  unfold State.satisfy
  dsimp only
  rw [h]
  rfl

/-- The request of a reader, which is not persistent, is granted. -/
theorem grantReq_of_read {s : State} {sec : Nat} {r : TokReq} (hneed : r.need = 1) (hpers : r.persistent = false) : s.grantReq sec r =
    let y := (s.setUnit sec { s.unit sec with
      home := (s.unit sec).home + r.tokens, req := some { r with tokens := 0, owner := false } }).grant sec r.agent
    madeRoom (y.setUnit sec { y.unit sec with req := none }) r.agent sec := by
  unfold State.grantReq madeRoom
  simp only [hneed, hpers, Bool.false_eq_true, if_false, beq_self_eq_true, if_true, Bool.false_and, bne_self_eq_false]

/-- A reader's request is satisfied: its agent takes a token of each sector of its unit, and its cache makes room. -/
theorem grantReq_takes {s : State} {sec : Nat} {r : TokReq} (hneed : r.need = 1) (hpers : r.persistent = false) (htok : r.tokens = 0)
    (hcan : ∀ k ∈ if translates r.agent then [sec] else s.unitSecs sec, CanTake k r.agent (s.unit k)) :
    let secs := if translates r.agent then [sec] else s.unitSecs sec
    let t := s.grantReq sec r
    (∀ k ∈ secs, TakesToken k r.agent (s.unit k) (t.unit k)) ∧
      (∀ o, o ∉ secs → o / 16 = sec / 16 ∨ ¬(r.agent < 288 ∨ (576 ≤ r.agent ∧ r.agent < 864)) → t.unit o = s.unit o) ∧ t.mem = s.mem := by
  intro secs t
  have hself : sec ∈ secs := mem_grain_self s r.agent sec
  have hnodup : secs.Nodup := by
    change (if translates r.agent then [sec] else s.unitSecs sec).Nodup
    split
    · exact List.nodup_singleton _
    · exact unitSecs_nodup s sec
  let x := s.setUnit sec { s.unit sec with home := (s.unit sec).home + r.tokens, req := some { r with tokens := 0, owner := false } }
  have hx (k : Nat) (hk : k ≠ sec) : x.unit k = s.unit k := State.unit_setUnit_ne _ _ hk
  have hxsec : x.unit sec = { s.unit sec with home := (s.unit sec).home, req := some { r with tokens := 0, owner := false } } := by
    rw [State.unit_setUnit_self, htok, Nat.add_zero]
  obtain ⟨hcalm, htakes, hother⟩ := foldl_grantSec (s := x) hnodup fun k hk => by
    by_cases hks : k = sec
    · subst hks
      rw [hxsec]
      exact hcan k hk
    · rw [hx k hks]
      exact hcan k hk
  let y := secs.foldl (fun s k => s.grantSec k r.agent) x
  let z := y.setUnit sec { y.unit sec with req := none }
  obtain ⟨hroom, hbeside⟩ := madeRoom_beside z r.agent sec
  have ht : t = madeRoom z r.agent sec := by
    exact grantReq_of_read hneed hpers
  have hy (o : Nat) (ho : o ∉ secs) : y.unit o = s.unit o := (hother o ho).trans (hx o fun h => ho (h ▸ hself))
  refine ⟨fun k hk => ?_, fun o ho hroom => ?_, ?_⟩
  · have hblock : k / 16 = sec / 16 := by
      change k ∈ if translates r.agent then [sec] else s.unitSecs sec at hk
      split at hk
      · rw [List.mem_singleton.1 hk]
      · exact (unitSecs_of_mem hk).1
    rw [ht, hbeside k (.inl hblock)]
    by_cases hks : k = sec
    · subst hks
      have := htakes k hk
      rw [hxsec] at this
      rw [State.unit_setUnit_self]
      exact this
    · rw [State.unit_setUnit_ne _ _ hks, ← hx k hks]
      exact htakes k hk
  · rw [ht, hbeside o hroom, State.unit_setUnit_ne _ _ fun h : o = sec => ho (h ▸ hself)]
    exact hy o ho
  · rw [ht]
    exact hroom.mem.trans hcalm.mem

theorem readRequestTakesAToken : ReadRequestTakesAToken := by
  intro s agent sec hcomes
  have hexec : exec (.rdtok agent sec) s = execRdtok agent sec s := rfl
  refine ⟨fun hhost hb hl hnone hheld => ?_, fun hhost => ?_⟩
  · rw [hexec, execRdtok, if_neg (by simp [hcomes])]
    simp only [hhost, if_true, hnone, Nat.lt_irrefl, if_false, State.request, hb, hl, Bool.or_false, Bool.false_eq_true, beq_self_eq_true, hheld,
      Option.isNone_none, Bool.true_and]
  · intro u secs proxy hb hl hreq hqueue hcan
    have hcalm : Calm s u := .ite (Calm.refl s).inspect.readHome (.refl s)
    have hself : sec ∈ secs := mem_grain_self u agent sec
    obtain ⟨hpers, hnone, hfrom⟩ := hcan sec hself
    have hvia : u.viaHost (32 * sec) = false := by rw [State.viaHost, hcalm.bias]; exact hhost
    let r : TokReq := ⟨agent, 1, 0, 0, 0, false, 0, u.clock, false⟩
    have hmeets : u.meets sec r = true := by
      have hreach : 1 ≤ (u.unit sec).home + 0 + (u.unit sec).spare sec agent := by
        have hfrom : 0 < (u.unit sec).spare sec agent ∨ 1 < (u.unit sec).home ∨ 0 < (u.unit sec).home ∧ (u.unit sec).owner ≠ none := hfrom
        omega
      exact decide_eq_true hreach
    obtain ⟨htakes, hother, hmem⟩ := grantReq_takes (s := u) (sec := sec) (r := r) rfl rfl rfl hcan
    have hgrant : exec (.rdtok agent sec) s = .next (u.grantReq sec r) := by
      rw [hexec, execRdtok, if_neg (by simp [hcomes])]
      simp only [hhost, Bool.false_eq_true, if_false]
      rw [if_neg (by rw [show (u.unit sec).held.get 0 agent = 0 from hnone]; decide), request_eq _ hb hl hvia (by simp [hreq, hqueue]),
        if_neg (by simp [hreq, hpers]), if_pos hmeets, satisfy_of_alone ((htakes sec hself).1.trans hqueue)]
    exact ⟨_, hgrant, fun k hk => (htakes k hk).2, hother, hmem⟩

end Sys2Proof.Claims
end

section
/-! SUPPORT. The tokens that come to a writing L2, and the stores that come first. -/

namespace Sys2Proof.Claims
open Machine

/-! ### Stores that a decision on damage holds -/

/-- A store that cannot land: a decision on damage in its bytes is out, or its page is retired. -/
def HeldBack (s : State) (d : DieWrite) : Prop := s.undecided d.pa d.bytes.length = true ∨ d.pa / 2 ^ 16 ∈ s.pkg.retireList

theorem HeldBack.steady {q : Prop} {s t : State} {d : DieWrite} (h : HeldBack s d) (g : Steady q s t) : HeldBack t d := by
  obtain h | h := h
  · obtain ⟨r, hr, hin⟩ := List.any_eq_true.1 h
    exact .inl (List.any_eq_true.2 ⟨r, g.reports r hr, hin⟩)
  · exact .inr (g.retired ▸ h)

/-- What a merge check finds lies in the range. -/
theorem mergeCheck_found {s v : State} {a n sec : Nat} {f : Finder} (h : s.mergeCheck a n = (some (sec, f), v)) : sec ∈ sectorsOf a n := by
  unfold State.mergeCheck at h
  split at h
  · exact nomatch h
  · obtain ⟨k, hk, hfound⟩ := List.exists_of_findSome?_eq_some (congrArg Prod.fst h)
    split at hfound
    · cases hfound; exact hk
    · cases hfound; exact hk
    · exact nomatch hfound

/-- A store that comes to its home has landed, or is held. -/
theorem landDie_dies (s : State) (w : DieWrite) :
    (s.landDie w).coh.dieWrites = s.coh.dieWrites ∨ ((s.landDie w).coh.dieWrites = s.coh.dieWrites ++ [w] ∧ HeldBack (s.landDie w) w) := by
  have hmerge : Calm s (s.mergeCheck w.pa w.bytes.length).2 := (Calm.refl s).mergeCheck
  unfold State.landDie
  dsimp only
  split
  · next hu => exact .inr ⟨rfl, .inl hu⟩
  · split
    · next hret =>
      split
      · split
        · exact .inl rfl
        · split
          · exact .inr ⟨rfl, .inr (by simpa using hret)⟩
          · exact .inl rfl
      · exact .inl rfl
    · split
      · next sec f v hm =>
        refine .inr ⟨congrArg (· ++ [w]) (hmerge.of_eq hm).dies, .inl ?_⟩
        refine List.any_eq_true.2 ⟨_, List.mem_append_right _ (List.mem_singleton_self _), ?_⟩
        exact List.contains_iff_mem.2 (mergeCheck_found hm)
      · next v hm => exact .inl (WritesOnly.landBytes.dies.trans (hmerge.of_eq hm).dies)

/-- A store that is held changes no unit. -/
theorem landDie_units {s : State} {w : DieWrite} (h : HeldBack s w) : (s.landDie w).coh.units = s.coh.units := by
  unfold State.landDie
  dsimp only
  split
  · rfl
  · next hu =>
    obtain h | h := h
    · exact absurd h hu
    · rw [if_pos (by simpa using h)]
      split
      · split
        · rfl
        · split <;> rfl
      · rfl

theorem foldl_landDie_dies (l : List DieWrite) (s : State) :
    ∀ d ∈ (l.foldl State.landDie s).coh.dieWrites, d ∈ s.coh.dieWrites ∨ (d ∈ l ∧ HeldBack (l.foldl State.landDie s) d) := by
  induction l generalizing s with
  | nil => exact fun d hd => .inl hd
  | cons w l ih =>
    intro d hd
    have hrest : Steady True (s.landDie w) (l.foldl State.landDie (s.landDie w)) := .foldl (fun _ _ => .landDie) (.refl _)
    obtain hin | ⟨hin, hheld⟩ := ih (s.landDie w) d hd
    · obtain hsame | ⟨hadded, hheld⟩ := landDie_dies s w
      · exact .inl (hsame ▸ hin)
      · rw [hadded, List.mem_append, List.mem_singleton] at hin
        obtain hin | rfl := hin
        · exact .inl hin
        · exact .inr ⟨List.mem_cons_self .., hheld.steady hrest⟩
    · exact .inr ⟨List.mem_cons_of_mem w hin, hheld⟩

theorem foldl_landDie_units {l : List DieWrite} {s : State} (h : ∀ d ∈ l, HeldBack s d) : (l.foldl State.landDie s).coh.units = s.coh.units := by
  induction l generalizing s with
  | nil => rfl
  | cons w l ih =>
    have hstep : Steady True s (s.landDie w) := .landDie (.refl s)
    exact (ih fun d hd => (h d (List.mem_cons_of_mem w hd)).steady hstep).trans (landDie_units (h w (List.mem_cons_self ..)))

/-! ### Stores that have come first -/

/-- The sectors of the units in which a die has performed a store that meets a condition. -/
def dieSecs (s : State) (p : DieWrite → Bool) : List Nat := (s.coh.dieWrites.filter p).flatMap fun w => s.unitsOf w.pa w.bytes.length

/-- Whether a store meets some sectors. -/
def meetsSecs (secs : List Nat) (w : DieWrite) : Bool := (sectorsOf w.pa w.bytes.length).any secs.contains

/-- Every store to the units of those that meet a condition is held. -/
def Flushed (p : DieWrite → Bool) (s : State) : Prop := ∀ d ∈ s.coh.dieWrites, meetsSecs (dieSecs s p) d = true → HeldBack s d

theorem flushDies_eq (s : State) (p : DieWrite → Bool) : s.flushDies p =
    if (dieSecs s p).isEmpty then s
    else (s.coh.dieWrites.filter (meetsSecs (dieSecs s p))).foldl State.landDie
      (s.modCoh fun c => { c with dieWrites := c.dieWrites.filter fun w => !meetsSecs (dieSecs s p) w }) := rfl

theorem meetsSecs_nil (d : DieWrite) : meetsSecs [] d = false := List.any_eq_false.2 fun _ _ => by simp

/-- A flush leaves stores that were there, and of those in the units that it flushes only held ones. -/
theorem flushDies_left (s : State) (p : DieWrite → Bool) : ∀ d ∈ (s.flushDies p).coh.dieWrites,
    d ∈ s.coh.dieWrites ∧ (meetsSecs (dieSecs s p) d = true → HeldBack (s.flushDies p) d) := by
  intro d hd
  rw [flushDies_eq] at hd ⊢
  split at hd
  · next hempty =>
    rw [List.isEmpty_iff.1 hempty]
    exact ⟨hd, fun hm => absurd hm (by simp [meetsSecs_nil])⟩
  · next hsome =>
    rw [if_neg hsome]
    obtain hin | ⟨hin, hheld⟩ := foldl_landDie_dies _ _ d hd
    · obtain ⟨hin, hm⟩ := List.mem_filter.1 hin
      exact ⟨hin, fun hm' => by simp [hm'] at hm⟩
    · exact ⟨List.mem_of_mem_filter hin, fun _ => hheld⟩

theorem flushed_flushDies (s : State) (p : DieWrite → Bool) : Flushed p (s.flushDies p) := by
  have hsteady : Steady True s (s.flushDies p) := .flushDies (.refl s)
  intro d hd hm
  refine (flushDies_left s p d hd).2 ?_
  obtain ⟨k, hk, hin⟩ := List.any_eq_true.1 hm
  refine List.any_eq_true.2 ⟨k, hk, ?_⟩
  rw [List.contains_iff_mem] at hin ⊢
  obtain ⟨w, hw, hkw⟩ := List.mem_flatMap.1 hin
  obtain ⟨hw, hp⟩ := List.mem_filter.1 hw
  rw [unitsOf_of_fmts (hsteady.fmts trivial)] at hkw
  exact List.mem_flatMap.2 ⟨w, List.mem_filter.2 ⟨(flushDies_left s p w hw).1, hp⟩, hkw⟩

theorem Flushed.calm {p : DieWrite → Bool} {s t : State} (h : Flushed p s) (g : Calm s t) : Flushed p t := by
  have hsecs : dieSecs t p = dieSecs s p := by
    unfold dieSecs
    rw [g.dies]
    exact congrArg (List.flatMap · _) (funext fun w => unitsOf_of_fmts g.fmts ..)
  intro d hd hm
  rw [hsecs] at hm
  exact (h d (g.dies ▸ hd) hm).steady (q := True) g.steady

/-- Where every such store is held, none lands. -/
theorem Flushed.units {p : DieWrite → Bool} {s : State} (h : Flushed p s) : (s.flushDies p).coh.units = s.coh.units := by
  rw [flushDies_eq]
  split
  · rfl
  · refine (foldl_landDie_units fun d hd => ?_).trans rfl
    obtain ⟨hd, hm⟩ := List.mem_filter.1 hd
    exact h d hd hm

/-- A store that meets the condition, and writes something, is held. -/
theorem Flushed.held {p : DieWrite → Bool} {s : State} {d : DieWrite} (h : Flushed p s) (hd : d ∈ s.coh.dieWrites) (hp : p d = true) :
    d.bytes = [] ∨ HeldBack s d := by
  by_cases hb : d.bytes = []
  · exact .inl hb
  · have hpos : d.bytes.length ≠ 0 := fun e => hb (List.length_eq_zero_iff.1 e)
    have hfirst : sectorOf d.pa ∈ sectorsOf d.pa d.bytes.length := by
      rw [sectorsOf, if_neg hpos]
      exact List.mem_map.2 ⟨0, List.mem_range.2 (Nat.succ_pos _), rfl⟩
    have hunit : sectorOf d.pa ∈ s.unitsOf d.pa d.bytes.length :=
      List.mem_eraseDups.2 (List.mem_flatMap.2 ⟨_, hfirst, mem_unitSecs_self s _⟩)
    refine .inr (h d hd (List.any_eq_true.2 ⟨_, hfirst, ?_⟩))
    exact List.contains_iff_mem.2 (List.mem_flatMap.2 ⟨d, List.mem_filter.2 ⟨hd, hp⟩, hunit⟩)

/-! ### The tokens of a die at its L2 -/

/-- No agent of a die but its proxy is listed. -/
def OnlyProxy (die : Nat) (m : Map Nat) : Prop := ∀ h ∈ m, onDie die h.1 = true → h.1 = proxyAgent die

theorem OnlyProxy.set {die a n : Nat} {m : Map Nat} (h : OnlyProxy die m) (ha : n ≠ 0 → onDie die a = true → a = proxyAgent die) :
    OnlyProxy die (Map.set m 0 a n) := by
  intro e he
  unfold Map.set at he
  split at he
  · exact h e (Map.mem_erase he)
  · next hn =>
    obtain rfl | he := Map.mem_insert he
    · exact ha hn
    · exact h e he

theorem OnlyProxy.insert {die n : Nat} {m : Map Nat} (h : OnlyProxy die m) : OnlyProxy die (m.insert (proxyAgent die) n) := by
  intro e he
  obtain rfl | he := Map.mem_insert he
  · exact fun _ => rfl
  · exact h e he

/-- A token that leaves a holder brings in no other. -/
theorem OnlyProxy.lose {die : Nat} {u : CohUnit} (h : OnlyProxy die u.held) (a : Nat) : OnlyProxy die (u.lose a).held := by
  refine h.set fun hn => ?_
  cases hf : u.held.find a with
  | none => simp [Map.get, hf] at hn
  | some n => exact h _ (Map.mem_of_find hf)

/-- The tokens of a die in a unit are with its L2: the home slice where the unit is homed there, and else its proxy, which has the owner token. -/
def Gathered (die k : Nat) (u : CohUnit) : Prop :=
  OnlyProxy die u.held ∧ (secHome k ≠ die → u.owner = some (proxyAgent die)) ∧ (secHome k = die → u.owner = none)

theorem inspect_units (s : State) (crc : Bool) (secs : List Nat) : (s.inspect crc secs).coh.units = s.coh.units := by
  have hc := checkSecs_units s crc secs
  unfold State.inspect
  split
  · next e => rw [e] at hc; exact hc
  · next e => rw [e] at hc; exact hc

/-- The stores of other dies to a unit. -/
def fromOthers (die : Nat) (unit : List Nat) (d : DieWrite) : Bool := d.die != die && unit.contains (sectorOf d.pa)

/-- The holders that are left when those of a die beside its L2 are gone. -/
theorem onlyProxy_rest (s : State) (die k : Nat) : OnlyProxy die ((s.unit k).held.filter fun h => !(s.dieHolders die k).contains h) := by
  intro h hh hon
  obtain ⟨hin, hout⟩ := List.mem_filter.1 hh
  by_contra hne
  have hmine : h ∈ s.dieHolders die k := List.mem_filter.2 ⟨hin, by simp [hon, hne]⟩
  simp [hmine] at hout

theorem gatherDie_gathers (s : State) (die k : Nat) : let v := s.flushDies (fromOthers die (s.unitSecs k))
    Calm v (s.gatherDie die k) ∧ Gathered die k ((s.gatherDie die k).unit k) ∧ ∀ o, o ≠ k → (s.gatherDie die k).unit o = v.unit o := by
  intro v
  have hleft : Yields v ((v.dieHolders die k).foldl (fun s h => (s.surrender k h.1).rouse h.1) v) :=
    .foldl (fun _ _ g => .rouse (.surrender g)) (.refl v)
  have hread (w : State) (hw : Yields v w) (p : Prop) [Decidable p] :
      Calm v (if p then w else w.inspect false [k]) ∧ (if p then w else w.inspect false [k]).coh.units = v.coh.units := by
    split
    · exact ⟨hw.calm, hw.units⟩
    · exact ⟨hw.calm.inspect, (inspect_units ..).trans hw.units⟩
  unfold State.gatherDie
  dsimp only
  rw [show (s.flushDies fun d => d.die != die && (s.unitSecs k).contains (sectorOf d.pa)) = v from rfl]
  generalize (v.dieHolders die k).foldl (fun s h => (s.surrender k h.1).rouse h.1) v = w at hleft
  obtain ⟨hcalm, hunits⟩ := hread w hleft (((w.unit k).owner == if (secHome k == die) = true then none else some (proxyAgent die)) = true)
  generalize (if ((w.unit k).owner == if (secHome k == die) = true then none else some (proxyAgent die)) = true then w
      else w.inspect false [k]) = x at hcalm hunits
  have hrest := onlyProxy_rest x die k
  split
  · next hhome =>
    refine ⟨hcalm.setUnit, ?_, fun o ho => (State.unit_setUnit_ne _ _ ho).trans (State.unit_of_units hunits o)⟩
    rw [State.unit_setUnit_self]
    refine ⟨?_, fun hne => absurd (beq_iff_eq.1 hhome) hne, fun _ => ?_⟩
    · dsimp only
      split
      · exact OnlyProxy.lose hrest _
      · exact hrest
    · dsimp only
      split
      · rfl
      · assumption
  · next hhome =>
    have hne : secHome k ≠ die := by simpa using hhome
    have htrim {y : State} (o : Nat) : (y.trimL2 (sliceIn die (k / 16)) (setOf (32 * k))).unit o = y.unit o := by
      unfold State.trimL2
      split <;> rfl
    refine ⟨.trimL2 ?_, ?_, fun o ho => (htrim o).trans ((State.unit_setUnit_ne _ _ ho).trans (State.unit_of_units hunits o))⟩
    · exact hcalm.step rfl
    rw [htrim]
    change Gathered die k ((x.setUnit k _).unit k)
    rw [State.unit_setUnit_self]
    have hset (n : Nat) := hrest.set (a := proxyAgent die) (n := n) fun _ _ => rfl
    refine ⟨?_, fun _ => ?_, fun h => absurd h hne⟩
    · dsimp only
      split
      · split
        · exact hset _
        · exact (OnlyProxy.lose (hset _) _).insert
      · exact (hset _).insert
    · dsimp only
      split
      · next ho =>
        split
        · next hq => exact ho.trans (congrArg some (beq_iff_eq.1 hq))
        · rfl
      · rfl

end Sys2Proof.Claims
end

section
/-! SUPPORT. The requests of a writing L2. -/

namespace Sys2Proof.Claims
open Machine

/-- A die's tokens of some sectors of one unit come to its L2: after the first the other dies' stores to the unit have landed or are held, so that what
comes to one sector stays there. -/
theorem foldl_gatherDie_gathers {die : Nat} {unit l : List Nat} {s : State} (hl : ∀ k ∈ l, s.unitSecs k = unit) :
    let t := l.foldl (fun s k => s.gatherDie die k) s
    (∀ k ∈ l, Gathered die k (t.unit k)) ∧ (l ≠ [] ∨ Flushed (fromOthers die unit) s → Flushed (fromOthers die unit) t) ∧
      (Flushed (fromOthers die unit) s → ∀ o, o ∉ l → t.unit o = s.unit o) := by
  induction l generalizing s with
  | nil => exact ⟨nofun, fun h => h.resolve_left fun hn => hn rfl, fun _ _ _ => rfl⟩
  | cons k l ih =>
    obtain ⟨hcalm, hk, hother⟩ := gatherDie_gathers s die k
    rw [hl k (List.mem_cons_self ..)] at hcalm hother
    have hflushed : Flushed (fromOthers die unit) (s.gatherDie die k) := Flushed.calm (flushed_flushDies _ _) hcalm
    have hfmts : (s.gatherDie die k).coh.fmts = s.coh.fmts := hcalm.fmts.trans ((Steady.flushDies (q := True) (.refl s)).fmts trivial)
    obtain ⟨hl', hf, ho⟩ := ih (s := s.gatherDie die k) fun j hj => (unitSecs_of_fmts hfmts j).trans (hl j (List.mem_cons_of_mem k hj))
    refine ⟨fun j hj => ?_, fun _ => hf (.inr hflushed), fun hs o hol => ?_⟩
    · by_cases hjl : j ∈ l
      · exact hl' j hjl
      · obtain rfl | hj := List.mem_cons.1 hj
        · rw [List.foldl_cons, ho hflushed j hjl]
          exact hk
        · exact absurd hj hjl
    · rw [List.mem_cons, not_or] at hol
      rw [List.foldl_cons, ho hflushed o hol.2, hother o hol.1]
      exact State.unit_of_units hs.units o

section
variable {s : State} {die sec : Nat} {r : TokReq}

/-- The state in which a request that is not a reader's stands at the home when it is granted: what it gathered is the home's again. -/
def granting (s : State) (sec : Nat) (r : TokReq) : State :=
  let u := if r.persistent then s.post (.hw (.persdone r.agent sec)) else s
  u.setUnit sec { u.unit sec with home := (u.unit sec).home + r.tokens, req := some { r with tokens := 0, owner := false } }

theorem granting_calm (s : State) (sec : Nat) (r : TokReq) : Calm s (granting s sec r) :=
  .setUnit (.ite ((Calm.refl s).step rfl) (.refl s))

/-- A WRDIE is granted: the die's tokens come to its L2 in each sector of the unit. -/
theorem grantReq_of_needDie (hneed : r.need = needDie) : s.grantReq sec r =
    let v := ((granting s sec r).unitSecs sec).foldl (fun s k => s.gatherDie (writingDie r.agent) k) ((granting s sec r).complete [sec])
    v.setUnit sec { v.unit sec with req := none } := by
  have hread : (r.need == 1) = false := by rw [hneed]; rfl
  have hdie : (r.need == needDie) = true := by rw [hneed]; rfl
  unfold State.grantReq granting
  simp only [hread, hdie, bne, Bool.and_false, Bool.false_eq_true, if_false, if_true, Bool.not_false]

/-- A WRALL is granted: every token comes home, and the die's stores are device-performed. -/
theorem grantReq_of_all (hneed : r.need = 1024) : s.grantReq sec r =
    let v := (((granting s sec r).complete [sec]).gather sec r.agent).flushDies fun d => proxyAgent d.die == r.agent && sectorOf d.pa == sec
    v.setUnit sec { v.unit sec with req := none } := by
  have hread : (r.need == 1) = false := by rw [hneed]; rfl
  have hdie : (r.need == needDie) = false := by simp [hneed, needDie]
  unfold State.grantReq granting
  simp only [hread, hdie, bne, Bool.and_false, Bool.false_eq_true, if_false, if_true, Bool.not_false]

/-- What has come to the L2 of the die of a WRDIE that is granted. -/
theorem grantReq_gathers (hneed : r.need = needDie) (hagent : r.agent = proxyAgent die) {k : Nat} (hk : k ∈ s.unitSecs sec) :
    let t := s.grantReq sec r
    Gathered die k (t.unit k) ∧ ∀ d ∈ t.coh.dieWrites, sectorOf d.pa = k → d.die = die ∨ d.bytes = [] ∨ HeldBack t d := by
  have hdie : writingDie r.agent = die := hagent ▸ Nat.add_sub_cancel_left 902 die
  have hunit : (granting s sec r).unitSecs sec = s.unitSecs sec := unitSecs_of_fmts (granting_calm s sec r).fmts sec
  have hsteady : Steady True s ((granting s sec r).complete [sec]) := .complete (granting_calm s sec r).steady
  have hunits (j : Nat) (hj : j ∈ s.unitSecs sec) : ((granting s sec r).complete [sec]).unitSecs j = s.unitSecs sec :=
    (unitSecs_of_fmts (hsteady.fmts trivial) j).trans (unitSecs_of_mem hj).2
  obtain ⟨hall, hflushed, -⟩ := foldl_gatherDie_gathers (die := die) hunits
  have hflushed := hflushed (.inl (List.ne_nil_of_mem hk))
  intro t
  let v := (s.unitSecs sec).foldl (fun s k => s.gatherDie die k) ((granting s sec r).complete [sec])
  have ht : t = v.setUnit sec { v.unit sec with req := none } := by
    refine (grantReq_of_needDie hneed).trans ?_
    rw [hdie, hunit]
  rw [ht]
  refine ⟨?_, fun d hd hsec => ?_⟩
  · by_cases hks : k = sec
    · subst hks
      rw [State.unit_setUnit_self]
      exact hall k hk
    · rw [State.unit_setUnit_ne _ _ hks]
      exact hall k hk
  · by_cases hd' : d.die = die
    · exact .inl hd'
    · exact .inr (hflushed.held hd (by simp [fromOthers, hd', hsec, hk]))

/-- Of the die's stores to the sector of a WRALL that is granted, only held ones are left. -/
theorem grantReq_flushes (hneed : r.need = 1024) (hagent : r.agent = proxyAgent die) :
    let t := s.grantReq sec r
    ∀ d ∈ t.coh.dieWrites, d.die = die → sectorOf d.pa = sec → d.bytes = [] ∨ HeldBack t d := by
  let p (d : DieWrite) : Bool := proxyAgent d.die == r.agent && sectorOf d.pa == sec
  let v := (((granting s sec r).complete [sec]).gather sec r.agent).flushDies p
  have hflushed : Flushed p (v.setUnit sec { v.unit sec with req := none }) := Flushed.calm (flushed_flushDies _ _) (Calm.refl v).setUnit
  intro t
  have ht : t = v.setUnit sec { v.unit sec with req := none } := grantReq_of_all hneed
  rw [ht]
  intro d hd hdie hsec
  exact hflushed.held hd (by simp [p, hdie, hagent, hsec])

end

/-- A write request at its home. -/
theorem writeRequest_acts (s : State) {die sec need : Nat} {i : Instr} (hi : (i = .wrdie die sec ∧ need = needDie) ∨ (i = .wrall die sec ∧ need = 1024)) :
    exec i s = .next (s.request sec (proxyAgent die) need (.hw i)) := by
  obtain ⟨rfl, rfl⟩ | ⟨rfl, rfl⟩ := hi <;> rfl

theorem writeRequestsComplete : WriteRequestsComplete := by
  refine ⟨fun s die sec need i hi => ⟨fun hwait => ?_, fun hb hl hv hnew => ⟨fun hbehind => ?_, fun hreq hpers => ⟨fun hm => ?_, fun hm => ?_⟩⟩⟩,
    fun s die sec r hagent => ⟨satisfy_of_alone, fun hneed k hk => ?_, fun hneed d hd hdie hsec => ?_⟩⟩
  · rw [writeRequest_acts s hi]
    exact congrArg Host.Outcome.next (if_pos (by simpa using hwait))
  · rw [writeRequest_acts s hi, request_eq _ hb hl hv hnew, if_pos]
    obtain hr | hp := hbehind
    · simp [Option.isSome_iff_ne_none, hr]
    · simp [hp]
  · rw [writeRequest_acts s hi, request_eq _ hb hl hv hnew, if_neg (by simp [hreq, hpers]), if_pos hm]
  · rw [writeRequest_acts s hi, request_eq _ hb hl hv hnew, if_neg (by simp [hreq, hpers]), if_neg (by rw [hm]; decide)]
  · obtain ⟨⟨honly, hown, hnone⟩, hleft⟩ := grantReq_gathers hneed hagent hk
    exact ⟨hleft, honly, hown, hnone⟩
  · exact grantReq_flushes hneed hagent d hd hdie hsec

/-- Settles O53: message by message, each family by its own lemma. What a granted WRDIE gathers stays because the stores of other dies to the whole unit
have landed, or are held for a decision, before the tokens of its first sector come. -/
theorem coherenceMessagesComplete : Obligations.CoherenceMessagesComplete :=
  ⟨readRequestTakesAToken, writeRequestsComplete, atomicMessageApplies, probesAreAnswered, repliesAndEvictionsComplete, persistentRequestsComplete⟩

end Sys2Proof.Claims
end

section
/-! SUPPORT. The bits of shifts, funnels, fields, truth tables and counts (R135 to R139), and the statement about them, settled. -/

namespace Sys2Proof.Claims
open Machine

/-! ### Listed bits, and a signed shift cut to a width -/

theorem testBit_ofBits (bs : List Bool) (i : Nat) : (ofBits bs).testBit i = bs.getD i false := by
  induction bs generalizing i with
  | nil => simp [ofBits]
  | cons b bs ih =>
    have hpack : ofBits (b :: bs) = Nat.bit b (ofBits bs) := by
      rw [ofBits, Nat.bit_val, Nat.add_comm]
    cases i with
    | zero => rw [hpack, Nat.testBit_bit_zero, List.getD_cons_zero]
    | succ i => rw [hpack, Nat.testBit_bit_succ, List.getD_cons_succ, ih]

theorem testBit_ofBits_map_range (f : Nat → Bool) (n i : Nat) : (ofBits ((List.range n).map f)).testBit i = (decide (i < n) && f i) := by
  rw [testBit_ofBits]
  by_cases hi : i < n <;> simp [List.getD, hi]

/-- A pattern read with its sign, shifted down and wrapped to `m` bits, is the arithmetic shift of a bit vector, sign-extended to `m`. -/
theorem wrapInt_intOf_div (v k m : Nat) {n : Nat} (hn : 0 < n) :
    wrapInt (intOf v n true / 2 ^ k) m = (((BitVec.ofNat n v).sshiftRight k).signExtend m).toNat := by
  have hshift : intOf v n true / 2 ^ k = ((BitVec.ofNat n v).sshiftRight k).toInt := by
    rw [BitVec.toInt_sshiftRight, Int.shiftRight_eq_div_pow, intOf_signed_eq_toInt v hn, Nat.cast_pow, Nat.cast_ofNat]
  rw [hshift, BitVec.signExtend, BitVec.toNat_ofInt, wrapInt]

/-- Its bits are those of the pattern, `k` higher, and from the sign bit on the sign. -/
theorem testBit_wrapInt_intOf_div (v k m i : Nat) {n : Nat} (hn : 0 < n) :
    (wrapInt (intOf v n true / 2 ^ k) m).testBit i = (decide (i < m) && v.testBit (min (i + k) (n - 1))) := by
  rw [wrapInt_intOf_div v k m hn, BitVec.testBit_toNat, BitVec.getLsbD_signExtend, BitVec.getLsbD_sshiftRight, BitVec.msb_sshiftRight,
    BitVec.msb_eq_getLsbD_last]
  simp only [BitVec.getLsbD_ofNat]
  congr 1
  by_cases hlow : k + i < n
  · have hi : i < n := by omega
    simp [hlow, hi, Nat.add_comm i k, show min (k + i) (n - 1) = k + i by omega]
  · simp +contextual [hlow, hn, show min (i + k) (n - 1) = n - 1 by omega]

/-- With no shift the pattern is sign-extended. -/
theorem testBit_wrapInt_intOf (v m i : Nat) {n : Nat} (hn : 0 < n) :
    (wrapInt (intOf v n true) m).testBit i = (decide (i < m) && v.testBit (min i (n - 1))) := by
  simpa using testBit_wrapInt_intOf_div v 0 m i hn

theorem testBit_eq_false_of_le {v n i : Nat} (hv : v < 2 ^ n) (hi : n ≤ i) : v.testBit i = false :=
  Nat.testBit_lt_two_pow (hv.trans_le (Nat.pow_le_pow_right two_pos hi))

theorem widthOf_pos (t : Ty) : 0 < widthOf t := by
  unfold widthOf
  split <;> decide

/-! ### Shifts and funnels (R136, R137) -/

theorem testBit_shl (n i : Nat) (e : ExLane) : (shl n e).testBit i = (decide (i < n ∧ e.b ≤ i) && e.a.testBit (i - e.b)) := by
  unfold shl
  split
  · next hb =>
    have hnone : ¬(i < n ∧ e.b ≤ i) := by omega
    simp [hnone]
  · simp only [Nat.testBit_mod_two_pow, Nat.testBit_mul_two_pow, Bool.decide_and, Bool.and_assoc]

theorem testBit_shr {n : Nat} (i : Nat) {e : ExLane} (ha : e.a < 2 ^ n) : (shr n e).testBit i = e.a.testBit (i + e.b) := by
  unfold shr
  split
  · rw [Nat.zero_testBit, testBit_eq_false_of_le ha (by omega)]
  · exact Nat.testBit_div_two_pow ..

theorem testBit_sha {n : Nat} (hn : 0 < n) (i : Nat) (e : ExLane) :
    (sha n e).testBit i = (decide (i < n) && e.a.testBit (min (i + e.b) (n - 1))) := by
  have hclamp : min (i + min e.b n) (n - 1) = min (i + e.b) (n - 1) := by omega
  rw [sha, testBit_wrapInt_intOf_div _ _ _ _ hn, hclamp]

theorem testBit_funnel (x : Alu) (e : ExLane) (i : Nat) : (funnel x e).testBit i =
    (decide (i < 32) && (e.b * 2 ^ 32 + e.a).testBit (if x.sub = 0 then i + min e.c 32 else i + 32 - min e.c 32)) := by
  unfold funnel
  by_cases hsub : x.sub = 0
  · simp only [hsub, beq_self_eq_true, if_true, Nat.testBit_mod_two_pow, Nat.testBit_div_two_pow]
  · have hkept : min e.c 32 ≤ i + 32 := by omega
    simp only [hsub, beq_iff_eq, if_false, Nat.testBit_mod_two_pow, Nat.testBit_div_two_pow, Nat.testBit_mul_two_pow, hkept, decide_true, Bool.true_and]

/-! ### Fields (R138) -/

/-- Bit `j` of the field at `pos` of a word of `n` bits: past its top, the sign of a signed type (R138). -/
def fieldBit (a n pos : Nat) (sg : Bool) (j : Nat) : Bool := if pos + j < n then a.testBit (pos + j) else sg && a.testBit (n - 1)

theorem fieldBit_signed (a n pos j : Nat) : fieldBit a n pos true j = a.testBit (min (j + pos) (n - 1)) := by
  unfold fieldBit
  split
  · rw [show min (j + pos) (n - 1) = pos + j by omega]
  · rw [show min (j + pos) (n - 1) = n - 1 by omega, Bool.true_and]

theorem fieldBit_unsigned {a n : Nat} (ha : a < 2 ^ n) (pos j : Nat) : fieldBit a n pos false j = a.testBit (j + pos) := by
  unfold fieldBit
  split
  · rw [Nat.add_comm]
  · next hj => rw [Bool.false_and, testBit_eq_false_of_le ha (i := j + pos) (by omega)]

theorem bfe_of_length_zero {x : Alu} {e : ExLane} (hlen : min (e.b / 256 % 256) (widthOf x.ty) = 0) : bfe x e = 0 := if_pos (by simpa using hlen)

theorem bfe_of_unsigned {x : Alu} {e : ExLane} (hs : isSigned x.ty = false) (hlen : min (e.b / 256 % 256) (widthOf x.ty) ≠ 0) :
    bfe x e = e.a / 2 ^ (e.b % 256) % 2 ^ min (e.b / 256 % 256) (widthOf x.ty) := by
  simp only [bfe, beq_iff_eq, if_neg hlen, hs, Bool.false_eq_true, if_false]

theorem bfe_of_signed {x : Alu} {e : ExLane} (hs : isSigned x.ty = true) (hlen : min (e.b / 256 % 256) (widthOf x.ty) ≠ 0) :
    let len := min (e.b / 256 % 256) (widthOf x.ty)
    bfe x e = wrapInt (intOf (wrapInt (intOf e.a (widthOf x.ty) true / 2 ^ (e.b % 256)) len) len true) (widthOf x.ty) := by
  simp only [bfe, beq_iff_eq, if_neg hlen, hs, if_true]

/-- A field of an unsigned type is cut out; one of a signed type is cut out of the shifted pattern and sign-extended. -/
theorem testBit_bfe {x : Alu} {e : ExLane} (ha : e.a < 2 ^ widthOf x.ty) :
    let n := widthOf x.ty
    let len := min (e.b / 256 % 256) n
    let bit := fieldBit e.a n (e.b % 256) (isSigned x.ty)
    len ≠ 0 → ∀ i, (bfe x e).testBit i = (decide (i < n) && if i < len then bit i else isSigned x.ty && bit (len - 1)) := by
  intro n len bit hlen i
  have hpos : 0 < len := Nat.pos_of_ne_zero hlen
  have hle : len ≤ n := Nat.min_le_right ..
  cases hs : isSigned x.ty with
  | false =>
    have hbit (j : Nat) : bit j = e.a.testBit (j + e.b % 256) := by
      simpa only [bit, hs] using fieldBit_unsigned ha _ j
    rw [bfe_of_unsigned hs hlen, Nat.testBit_mod_two_pow, Nat.testBit_div_two_pow, hbit]
    by_cases hi : i < len
    · rw [if_pos hi, decide_eq_true hi, decide_eq_true (hi.trans_le hle)]
    · rw [if_neg hi, decide_eq_false hi, Bool.false_and, Bool.false_and, Bool.and_false]
  | true =>
    have hbit (j : Nat) : bit j = e.a.testBit (min (j + e.b % 256) (n - 1)) := by
      simpa only [bit, hs] using fieldBit_signed ..
    have hlast : min i (len - 1) < len := by omega
    rw [bfe_of_signed hs hlen, testBit_wrapInt_intOf _ _ _ hpos, testBit_wrapInt_intOf_div _ _ _ _ (widthOf_pos x.ty), hbit, hbit, decide_eq_true hlast]
    by_cases hi : i < len
    · rw [if_pos hi, show min i (len - 1) = i by omega, Bool.true_and]
    · rw [if_neg hi, show min i (len - 1) = len - 1 by omega, Bool.true_and]

/-- The mask of a field of `len` bits at `pos` in a word of `n` bits. -/
theorem testBit_fieldMask (len pos n i : Nat) :
    ((2 ^ len - 1) * 2 ^ pos % 2 ^ n).testBit i = decide (i < n ∧ pos ≤ i ∧ i < pos + len) := by
  rw [Bool.eq_iff_iff, Nat.testBit_mod_two_pow, Nat.testBit_mul_two_pow, Nat.testBit_two_pow_sub_one]
  simp only [Bool.and_eq_true, decide_eq_true_eq]
  omega

/-- The bits outside a mask. -/
theorem testBit_sub_mask {m n : Nat} (hm : m < 2 ^ n) (i : Nat) : (2 ^ n - 1 - m).testBit i = (decide (i < n) && !m.testBit i) := by
  rw [show 2 ^ n - 1 - m = 2 ^ n - (m + 1) by omega, Nat.testBit_two_pow_sub_succ hm]

theorem testBit_bfi (x : Alu) (e : ExLane) (i : Nat) :
    let len := min (e.c / 256 % 256) (widthOf x.ty)
    let pos := e.c % 256
    (bfi x e).testBit i = (decide (i < widthOf x.ty) && if pos ≤ i ∧ i < pos + len then e.b.testBit (i - pos) else e.a.testBit i) := by
  intro len pos
  have hbfi : bfi x e = (e.a &&& 2 ^ widthOf x.ty - 1 - (2 ^ len - 1) * 2 ^ pos % 2 ^ widthOf x.ty) |||
    (e.b * 2 ^ pos % 2 ^ widthOf x.ty &&& (2 ^ len - 1) * 2 ^ pos % 2 ^ widthOf x.ty) := rfl
  rw [hbfi, Nat.testBit_or, Nat.testBit_and, Nat.testBit_and, testBit_sub_mask (Nat.mod_lt _ (Nat.two_pow_pos _)), testBit_fieldMask,
    Nat.testBit_mod_two_pow, Nat.testBit_mul_two_pow]
  by_cases hi : i < widthOf x.ty
  · by_cases hin : pos ≤ i ∧ i < pos + len <;> simp [hi, hin]
  · simp [hi]

/-! ### Counts (R139) -/

theorem clz_eq {n a : Nat} (ha : a ≠ 0) : clz n a = n - 1 - Nat.log2 a := if_neg (by simpa using ha)

/-- The zeros above the highest one bit. -/
theorem clz_spec {n a : Nat} (hlt : a < 2 ^ n) (ha : a ≠ 0) :
    clz n a < n ∧ a.testBit (n - 1 - clz n a) = true ∧ ∀ i, n - 1 - clz n a < i → a.testBit i = false := by
  have htop : Nat.log2 a < n := (Nat.log2_lt ha).2 hlt
  have hhighest : n - 1 - clz n a = Nat.log2 a := by
    rw [clz_eq ha]
    omega
  rw [hhighest]
  refine ⟨?_, Nat.testBit_log2 ha, fun i hi => testBit_eq_false_of_le Nat.lt_log2_self hi⟩
  rw [clz_eq ha]
  omega

/-- Settles O13: shifts and fields with a sign by `testBit_wrapInt_intOf_div`, what is listed bit by bit by `testBit_ofBits_map_range`. -/
theorem shiftsAndFieldsMoveBits : Obligations.ShiftsAndFieldsMoveBits := by
  intro x e n sg ha hb
  have hn : 0 < n := widthOf_pos x.ty
  refine ⟨fun i => ⟨testBit_shl n i e, testBit_shr i ha, testBit_sha hn i e, testBit_ofBits_map_range ..⟩, fun _ => testBit_funnel x e,
    ⟨bfe_of_length_zero, testBit_bfe ha⟩, testBit_bfi x e, fun tt => testBit_ofBits_map_range _ _, rfl,
    fun h0 => if_pos (by simpa using h0), clz_spec ha⟩

end Sys2Proof.Claims
end

section
/-! SUPPORT. A divergence of Jewel's checks and its repetition (R169, R170), and the statement about them, settled. -/

namespace Sys2Proof.Machine

/-! ### Revocable traces -/

theorem State.divergence_first {s : State} {l : Lane} {th : Thread} (hth : s.threads.find l.tid = some th) (hunused : th.jewelUsed = false)
    (c : Cohort) : s.divergence c l = (s.refile c l.tid).modThread l.tid fun t => { t with jewelUsed := true } := by
  simp [State.divergence, hth, hunused]

theorem State.divergence_again {s : State} {l : Lane} {th : Thread} (hth : s.threads.find l.tid = some th) (hused : th.jewelUsed = true)
    (c : Cohort) : s.divergence c l = s.raiseIn c [l] .jewel c.offset fun _ => 0 := by
  simp [State.divergence, hth, hused]

/-! ### Irrevocable traces -/

/-- Whether a second execution leaves its destination alone: a push has its row already, and a crew register is the lowest lane's. -/
def Rexec.leavesDst (r : Rexec) : Bool := r.x.d.file == .q || (r.x.d.file == .k && !r.low)

theorem Rexec.leavesDst_eq_true {r : Rexec} (h : r.x.d.file = .q ∨ (r.x.d.file = .k ∧ r.low = false)) : r.leavesDst = true := by
  obtain hq | ⟨hk, hlow⟩ := h
  · simp [Rexec.leavesDst, hq]
  · simp [Rexec.leavesDst, hk, hlow]

theorem Rexec.leavesDst_eq_false {r : Rexec} (h : r.x.d.file = .v ∨ (r.x.d.file = .k ∧ r.low = true)) : r.leavesDst = false := by
  obtain hv | ⟨hk, hlow⟩ := h
  · simp [Rexec.leavesDst, hv]
  · simp [Rexec.leavesDst, hk, hlow]

/-- The second execution of a diverged lane, which does nothing for a lane that has left its cohort. -/
def State.reexecute (s : State) (c : Cohort) (r : Rexec) : State :=
  match c.laneOf r.tid with
  | none => s
  | some l =>
    if r.bad then s.raiseIn { c with pc := c.hdr + r.offset } [l] .jewel r.offset fun _ => 0
    else if r.leavesDst then s
    else s.writeDst c (r.op.shape r.x.sub.toNat r.x.ty).d r.x.d (aluLat r.op r.x) [(l, r.val)]

/-- The diverged lanes execute again one after another. -/
theorem execJewelReexecute_eq {s : State} {c : Cohort} (hc : s.cohorts.find c.id = some c) : execJewelReexecute c.id s =
    .next (c.rexec.foldl (fun s r => s.reexecute c r) (s.modCohort c.id fun k => { k with rexec := [] })) := by
  rw [execJewelReexecute, hc]
  rfl

theorem exec_jewelReexecute_single {s : State} {c : Cohort} {r : Rexec} (hc : s.cohorts.find c.id = some c) (hr : c.rexec = [r]) :
    exec (.jewelReexecute c.id) s = .next ((s.modCohort c.id fun k => { k with rexec := [] }).reexecute c r) := by
  have hexec : exec (.jewelReexecute c.id) s = execJewelReexecute c.id s := rfl
  rw [hexec, execJewelReexecute_eq hc, hr, List.foldl_cons, List.foldl_nil]

section
variable {c : Cohort} {r : Rexec} {l : Lane} (hl : c.laneOf r.tid = some l)
include hl

theorem State.reexecute_of_bad (hbad : r.bad = true) (s : State) :
    s.reexecute c r = s.raiseIn { c with pc := c.hdr + r.offset } [l] .jewel r.offset fun _ => 0 := by
  simp only [State.reexecute, hl, hbad, if_true]

theorem State.reexecute_of_leavesDst (hgood : r.bad = false) (hdst : r.leavesDst = true) (s : State) : s.reexecute c r = s := by
  simp only [State.reexecute, hl, hgood, hdst, Bool.false_eq_true, if_false, if_true]

theorem State.reexecute_of_writes (hgood : r.bad = false) (hdst : r.leavesDst = false) (s : State) :
    s.reexecute c r = s.writeDst c (r.op.shape r.x.sub.toNat r.x.ty).d r.x.d (aluLat r.op r.x) [(l, r.val)] := by
  simp only [State.reexecute, hl, hgood, hdst, Bool.false_eq_true, if_false]

end

end Sys2Proof.Machine

namespace Sys2Proof.Claims
open Machine

/-- Settles O44: the first divergence of a revocable lane files it again and the next one raises; an irrevocable cohort's one repeated lane raises,
leaves its destination alone or writes it. -/
theorem divergenceIsRepeated : Obligations.DivergenceIsRepeated := by
  refine ⟨fun s c l th hth => ⟨fun hunused => State.divergence_first hth hunused c, fun hused => State.divergence_again hth hused c⟩,
    fun s c r l hc hr hl => ?_⟩
  rw [exec_jewelReexecute_single hc hr]
  refine ⟨fun hgood hdst => ?_, fun hgood hdst => ?_, fun hbad => ?_⟩
  · rw [State.reexecute_of_writes hl hgood (Rexec.leavesDst_eq_false hdst)]
  · rw [State.reexecute_of_leavesDst hl hgood (Rexec.leavesDst_eq_true hdst)]
  · rw [State.reexecute_of_bad hl hbad]

end Sys2Proof.Claims
end

section
/-! SUPPORT. The proof of O32: what a read of a scratchpad window looks at, and what a write inside one segment leaves there. -/

namespace Sys2Proof.Machine

/-! ### What a read looks at (R175 to R177) -/

/-- What a crew's window is laid out by, and the ticks that ages are counted by. -/
structure WindowKept (s t : State) : Prop where
  crews : t.crews = s.crews
  cores : t.cores = s.cores
  cmd   : t.cmd = s.cmd

theorem WindowKept.refl (s : State) : WindowKept s s := ⟨rfl, rfl, rfl⟩

theorem WindowKept.trans {s t u : State} (h : WindowKept s t) (k : WindowKept t u) : WindowKept s u :=
  ⟨k.crews.trans h.crews, k.cores.trans h.cores, k.cmd.trans h.cmd⟩

theorem WindowKept.tickOf {s t : State} (h : WindowKept s t) (crew : Nat) : t.tickOf crew = s.tickOf crew := by
  simp only [State.tickOf, State.core, h.crews, h.cores]

theorem WindowKept.regionsOf {s t : State} (h : WindowKept s t) (crew : Nat) : t.regionsOf crew = s.regionsOf crew := by
  have hlaunch : t.launchOf = s.launchOf := funext fun w => by simp only [State.launchOf, h.cmd]
  simp only [State.regionsOf, h.crews, hlaunch]

/-- A segment found as before is as live as before. -/
theorem WindowKept.liveSeg {s t : State} (h : WindowKept s t) {crew j : Nat} (hseg : t.segs.find (segKey crew j) = s.segs.find (segKey crew j)) :
    t.liveSeg crew j = s.liveSeg crew j := by
  unfold State.liveSeg
  rw [hseg]
  cases s.segs.find (segKey crew j) with
  | none => rfl
  | some g =>
    dsimp only
    rw [State.ageOf, State.ageOf, h.tickOf, h.regionsOf]

/-- A segment that is stamped has age 0, which no lifetime is below (R176). -/
theorem State.liveSeg_of_stamped {s : State} {crew j : Nat} (h : s.segs.find (segKey crew j) = some ⟨s.tickOf crew, false⟩) :
    s.liveSeg crew j = true := by
  simp [State.liveSeg, State.ageOf, h]

/-- A read inside one segment is a read of a live segment's bytes (R177). -/
theorem State.spadRead_within (s : State) (crew : Nat) {o n : Nat} (hn : 0 < n) (hseg : o % 256 + n ≤ 256) : s.spadRead crew o n =
    if s.liveSeg crew (o / 256) then some ((List.range n).map fun i => s.spad.get 0 (spadKey crew (o + i))) else none := by
  have hone : (o + n - 1) / 256 - o / 256 + 1 = 1 := by omega
  simp [State.spadRead, hone]

theorem segKey_inj {crew j k : Nat} : segKey crew j = segKey crew k ↔ j = k := by unfold segKey; omega

theorem spadKey_inj {crew o p : Nat} : spadKey crew o = spadKey crew p ↔ o = p := by unfold spadKey; omega

/-- The key of a byte lies in its segment's row of keys. -/
theorem spadKey_div (crew o : Nat) : spadKey crew o / 256 = segKey crew (o / 256) := by unfold spadKey segKey; omega

/-! ### Bytes put one after another (R178) -/

/-- A key that a filter by keys lets pass is found as before. -/
theorem Map.find_filter_key {α : Type} (m : Map α) (p : Nat → Bool) {k : Nat} (hk : p k = true) :
    Map.find (m.filter fun e => p e.1) k = m.find k := by
  induction m with
  | nil => rfl
  | cons e m ih =>
    obtain ⟨j, v⟩ := e
    by_cases hj : j = k
    · subst hj
      simp [Map.find, hk]
    · cases hp : p j <;> simp [hp, Map.find, hj, ih]

/-- A byte of the scratchpad is set. -/
def State.setSpad (s : State) (k : Nat) (b : Byte) : State := { s with spad := s.spad.set 0 k b }

/-- Bytes go into a crew's window, `i` of them. -/
def State.putSpad (s : State) (crew o : Nat) (bs : List Byte) (n : Nat) : State :=
  (List.range n).foldl (fun u i => u.setSpad (spadKey crew (o + i)) (bs.getD i 0)) s

theorem State.putSpad_succ (s : State) (crew o : Nat) (bs : List Byte) (n : Nat) :
    s.putSpad crew o bs (n + 1) = (s.putSpad crew o bs n).setSpad (spadKey crew (o + n)) (bs.getD n 0) := by
  simp [State.putSpad, List.range_succ]

/-- Only the bytes of the scratchpad have changed. -/
def SpadOnly (s t : State) : Prop := ∃ m, t = { s with spad := m }

theorem SpadOnly.trans {s t u : State} (h : SpadOnly s t) (k : SpadOnly t u) : SpadOnly s u := by
  obtain ⟨m, rfl⟩ := h
  obtain ⟨n, rfl⟩ := k
  exact ⟨n, rfl⟩

theorem SpadOnly.coh {s t : State} (h : SpadOnly s t) : t.coh = s.coh := by
  obtain ⟨m, rfl⟩ := h
  rfl

theorem State.putSpad_only (s : State) (crew o : Nat) (bs : List Byte) (n : Nat) : SpadOnly s (s.putSpad crew o bs n) := by
  induction n with
  | zero => exact ⟨s.spad, rfl⟩
  | succ n ih => rw [State.putSpad_succ]; exact ih.trans ⟨_, rfl⟩

theorem State.putSpad_get (s : State) (crew o : Nat) (bs : List Byte) {n i : Nat} (hi : i < n) :
    (s.putSpad crew o bs n).spad.get 0 (spadKey crew (o + i)) = bs.getD i 0 := by
  induction n with
  | zero => omega
  | succ n ih =>
    rw [State.putSpad_succ]
    by_cases hin : i = n
    · subst hin
      exact Map.get_set_self ..
    · exact (Map.get_set_ne _ _ _ (mt spadKey_inj.1 (by omega))).trans (ih (by omega))

theorem State.putSpad_get_ne (s : State) (crew o : Nat) (bs : List Byte) (n : Nat) {k : Nat} (hk : ∀ i < n, k ≠ spadKey crew (o + i)) :
    (s.putSpad crew o bs n).spad.get 0 k = s.spad.get 0 k := by
  induction n with
  | zero => rfl
  | succ n ih =>
    rw [State.putSpad_succ]
    exact (Map.get_set_ne _ _ _ (hk n (by omega))).trans (ih fun i hi => hk i (by omega))

/-! ### A write inside one segment (R178, R354) -/

/-- The bytes of a segment become zero where it is not live. -/
def State.clearDead (s : State) (crew j : Nat) : State :=
  if s.liveSeg crew j then s else { s with spad := s.spad.filter fun e => e.1 / 256 != segKey crew j }

theorem State.clearDead_only (s : State) (crew j : Nat) : SpadOnly s (s.clearDead crew j) := by
  unfold State.clearDead
  split <;> exact ⟨_, rfl⟩

theorem State.clearDead_get (s : State) {crew j k : Nat} (hk : k / 256 ≠ segKey crew j) : (s.clearDead crew j).spad.get 0 k = s.spad.get 0 k := by
  unfold State.clearDead
  split
  · rfl
  · exact congrArg (Option.getD · 0) (Map.find_filter_key s.spad (fun n => n / 256 != segKey crew j) (by simpa using hk))

theorem State.probePart_of_sound {s : State} (h : s.coh.harm = []) (crew o : Nat) : s.probePart crew o = s := by
  simp [State.probePart, h]

/-- A byte of a write, which a poisoned part takes only with all its others (R354). -/
def State.offerByte (s : State) (crew o : Nat) (bs : List Byte) (i : Nat) : State :=
  if (s.coh.poison.find (partKey crew (o + i))).isSome && !(o ≤ (o + i) / 32 * 32 && (o + i) / 32 * 32 + 32 ≤ o + bs.length) then s
  else s.setSpad (spadKey crew (o + i)) (bs.getD i 0)

theorem State.foldl_offerByte {s : State} (hp : s.coh.poison = []) (crew o : Nat) (bs : List Byte) (n : Nat) :
    (List.range n).foldl (fun u i => u.offerByte crew o bs i) s = s.putSpad crew o bs n := by
  induction n with
  | zero => rfl
  | succ n ih =>
    have hput : (s.putSpad crew o bs n).coh.poison = [] := (congrArg Coh.poison (s.putSpad_only ..).coh).trans hp
    rw [State.putSpad_succ, List.range_succ, List.foldl_append, ih, List.foldl_cons, List.foldl_nil, State.offerByte, hput]
    rfl

/-- The parts that a write of `n` bytes covers whole. -/
def wholeParts (crew o n : Nat) : List Nat :=
  (List.range n).filterMap fun i => if (o + i) % 32 == 0 && i + 32 ≤ n then some (partKey crew (o + i)) else none

/-- The parts that a write covers whole are sound again. -/
def State.mendParts (s : State) (ps : List Nat) : State :=
  if ps.isEmpty then s else s.modCoh fun c => { c with poison := c.poison.filter fun e => !ps.contains e.1 }

theorem State.mendParts_of_sound {s : State} (hp : s.coh.poison = []) (ps : List Nat) : s.mendParts ps = s := by
  unfold State.mendParts
  split
  · rfl
  · rw [State.modCoh, hp, List.filter_nil, ← hp]

/-- Where no part is harmed or poisoned, a write clears a segment that is not live, puts its bytes and stamps the segment. -/
theorem State.spadWriteSeg_of_sound {s : State} (hp : s.coh.poison = []) (hh : s.coh.harm = []) (crew o : Nat) (bs : List Byte) :
    s.spadWriteSeg crew o bs = ((s.clearDead crew (o / 256)).putSpad crew o bs bs.length).stamp crew (o / 256) := by
  have hclear : (s.clearDead crew (o / 256)).coh.poison = [] := (congrArg Coh.poison (s.clearDead_only ..).coh).trans hp
  have hput : ((s.clearDead crew (o / 256)).putSpad crew o bs bs.length).coh.poison = [] := 
    (congrArg Coh.poison (State.putSpad_only ..).coh).trans hclear
  have hrow : spadKey crew (256 * (o / 256)) / 256 = segKey crew (o / 256) := by rw [spadKey_div]; congr 1; omega
  unfold State.spadWriteSeg
  rw [State.probePart_of_sound hh, State.probePart_of_sound hh]
  dsimp only
  rw [hrow]
  change (State.mendParts ((List.range bs.length).foldl (fun u i => u.offerByte crew o bs i) (s.clearDead crew (o / 256)))
    (wholeParts crew o bs.length)).stamp crew (o / 256) = _
  rw [State.foldl_offerByte hclear, State.mendParts_of_sound hput]

/-- A write that stays inside one segment is one write of a segment. -/
theorem State.spadWriteFrom_within (s : State) (crew : Nat) {o : Nat} {bs : List Byte} (hbs : 0 < bs.length) (hseg : o % 256 + bs.length ≤ 256) :
    s.spadWriteFrom crew bs.length o bs = s.spadWriteSeg crew o bs := by
  cases bs with
  | nil => cases hbs
  | cons b bs =>
    have hnil (u : State) (k p : Nat) : u.spadWriteFrom crew k p [] = u := by cases k <;> rfl
    rw [List.length_cons, State.spadWriteFrom, List.drop_eq_nil_of_le (by omega), hnil, List.take_of_length_le (by omega)]

end Sys2Proof.Machine

namespace Sys2Proof.Claims
open Machine

/-- Settles O32: a write inside one segment puts its bytes under keys of that segment, which it stamps, and no other segment's entry or bytes change. -/
theorem scratchpadReadsWhatWasWritten : Obligations.ScratchpadReadsWhatWasWritten := by
  intro s crew o bs hbs hseg hfits hp hh t
  let u := (s.clearDead crew (o / 256)).putSpad crew o bs bs.length
  have ht : t = u.stamp crew (o / 256) := (s.spadWriteFrom_within crew hbs hseg).trans (State.spadWriteSeg_of_sound hp hh ..)
  obtain ⟨m, hu⟩ : SpadOnly s u := (s.clearDead_only ..).trans (State.putSpad_only ..)
  have hwindow : WindowKept s t := by rw [ht, hu]; exact ⟨rfl, rfl, rfl⟩
  have hsegs : t.segs = s.segs.insert (segKey crew (o / 256)) ⟨s.tickOf crew, false⟩ := by rw [ht, hu]; rfl
  have hstamp : t.segs.find (segKey crew (o / 256)) = some ⟨s.tickOf crew, false⟩ := by rw [hsegs, Map.find_insert_self]
  refine ⟨?_, hstamp, fun p n hpo hn hpn _ => ?_⟩
  · have hlive : t.liveSeg crew (o / 256) = true := State.liveSeg_of_stamped (by rw [hstamp, hwindow.tickOf])
    rw [t.spadRead_within crew hbs hseg, if_pos hlive]
    refine congrArg some (List.ext_getElem (by simp) fun i _ hi => ?_)
    rw [List.getElem_map, List.getElem_range, ht]
    exact (State.putSpad_get _ crew o bs hi).trans (List.getD_eq_getElem _ _ hi)
  · have hlive : t.liveSeg crew (p / 256) = s.liveSeg crew (p / 256) :=
      hwindow.liveSeg (by rw [hsegs, Map.find_insert_ne _ _ (mt segKey_inj.1 hpo)])
    have hbyte : ∀ i < n, t.spad.get 0 (spadKey crew (p + i)) = s.spad.get 0 (spadKey crew (p + i)) := by
      intro i hi
      have hrow : (p + i) / 256 = p / 256 := by omega
      rw [ht]
      refine (State.putSpad_get_ne _ crew o bs _ fun j hj => mt spadKey_inj.1 (by omega)).trans (State.clearDead_get s ?_)
      rw [spadKey_div, hrow]
      exact mt segKey_inj.1 hpo
    rw [t.spadRead_within crew hn hpn, s.spadRead_within crew hn hpn, hlive,
      List.map_congr_left fun i hi => hbyte i (List.mem_range.1 hi)]

end Sys2Proof.Claims
end

section
/-! SUPPORT. The proof of O33: a read of a segment that is not live. -/

namespace Sys2Proof.Machine
open Sys2Proof.Claims

/-- A read whose first segment is not live finds nothing (R177). -/
theorem State.spadRead_of_dead {s : State} {crew o : Nat} (h : s.liveSeg crew (o / 256) = false) (n : Nat) : s.spadRead crew o n = none := by
  refine if_neg fun hall => ?_
  have hfirst := List.all_eq_true.1 hall 0 (List.mem_range.2 (Nat.succ_pos _))
  rw [Nat.add_zero, h] at hfirst
  cases hfirst

/-- An aligned address in the window is the one that is accessed (R174). -/
theorem State.withSpad_of_fits {s : State} {c : Cohort} {x : Mem} {k n : Nat} {l : Lane} (halign : s.spadAddr c x l % k = 0)
    (hlow : 0 ≤ s.spadAddr c x l) (hhigh : s.spadAddr c x l + n ≤ s.window c.crew) (f : State → Nat → State) :
    s.withSpad c x k n l f = f s (s.spadAddr c x l).toNat := by
  unfold State.withSpad
  dsimp only
  rw [if_neg (not_not.2 halign), if_neg (by omega)]

/-- In an irrevocable trace no buffered effect forwards a byte, so that a load from a segment that is not live is STALE (R186, R187). -/
theorem State.ldsLane_of_dead {s : State} {c : Cohort} {x : Mem} {l : Lane} (hirr : c.irr = true)
    (halign : s.spadAddr c x l % widthBytes x.width = 0) (hlow : 0 ≤ s.spadAddr c x l)
    (hhigh : s.spadAddr c x l + widthBytes x.width ≤ s.window c.crew) (hdead : s.liveSeg c.crew ((s.spadAddr c x l).toNat / 256) = false) :
    s.ldsLane c x l = s.raiseStale c l (s.spadAddr c x l).toNat := by
  have hown : ((List.range (widthBytes x.width)).all fun i => ([] : List Effect).any (suppliesByte ((s.spadAddr c x l).toNat + i))) = false :=
    List.all_eq_false.2 ⟨0, List.mem_range.2 (widthBytes_pos _), Bool.false_ne_true⟩
  rw [State.ldsLane, State.withSpad_of_fits halign hlow hhigh]
  simp only [hirr, if_true, hown, State.spadRead_of_dead hdead]

end Sys2Proof.Machine

namespace Sys2Proof.Claims
open Machine

/-- Settles O33: the one lane's load finds its segment not live, and no buffered effect supplies its bytes. -/
theorem staleReadsRaiseStale : Obligations.StaleReadsRaiseStale := by
  intro s c x l hi hp hlanes hirr hrel n a halign hlow hhigh hdead
  have hplain : ¬((c.irr = true ∨ Instr.lds x = .lds x) ∧ releases x.order = true ∧ s.execLanes c x.pred ≠ []) := fun ⟨_, h, _⟩ =>
    Bool.false_ne_true (hrel.symm.trans h)
  have hstale : (begun s).ldsLane c x l = (begun s).raiseStale c l a.toNat := State.ldsLane_of_dead hirr halign hlow hhigh hdead
  have hexec := (scratchpadInstructionsComplete s c x hi).1
  dsimp only at hexec
  rw [if_neg hplain] at hexec
  have hone : (begun s).execLanes c x.pred = [l] := hlanes
  rw [hexec (fun h => absurd h hplain) hp, if_neg hplain, hone, List.foldl_cons, List.foldl_nil, hstale]
  rfl

end Sys2Proof.Claims
end

section
/-! SUPPORT. The proof of O31: the test of a cohort at AWAIT, its three ways to end, and the tests after it. -/

namespace Sys2Proof.Machine
open Sys2Proof.Claims

/-! ### What keeps the generations of arrival words -/

/-- The scratchpad is as before, and all that its reads look at. -/
structure SpadKept (s t : State) : Prop extends WindowKept s t where
  spad : t.spad = s.spad
  segs : t.segs = s.segs

theorem SpadKept.refl (s : State) : SpadKept s s := ⟨.refl s, rfl, rfl⟩

theorem SpadKept.trans {s t u : State} (h : SpadKept s t) (k : SpadKept t u) : SpadKept s u :=
  ⟨h.toWindowKept.trans k.toWindowKept, k.spad.trans h.spad, k.segs.trans h.segs⟩

theorem SpadKept.generation {s t : State} (h : SpadKept s t) (crew o : Nat) : t.generation crew o = s.generation crew o := by
  have hlive : t.liveSeg crew = s.liveSeg crew := funext fun j => h.toWindowKept.liveSeg (by rw [h.segs])
  simp only [State.generation, State.spadRead, hlive, h.spad]

theorem SpadKept.of_threads {s t : State} (h : ThreadsOnly s t) : SpadKept s t := by
  obtain ⟨l, rfl⟩ := h
  exact ⟨⟨rfl, rfl, rfl⟩, rfl, rfl⟩

theorem SpadKept.setCohort (s : State) (c : Cohort) : SpadKept s (s.setCohort c) := ⟨⟨rfl, rfl, rfl⟩, rfl, rfl⟩

theorem State.noteRead_threads (s : State) (tid key n : Nat) : ThreadsOnly s (s.noteRead tid key n) := by
  unfold State.noteRead
  dsimp only
  split
  · exact .refl s
  · exact .modThread ..

/-! ### What STALE does to a cohort (R180) -/

/-- A cohort without the lanes of some threads, none where it has no others. -/
def Cohort.without (c : Cohort) (tids : List Nat) : Option Cohort :=
  let ls := c.lanes.filter fun l => !tids.contains l.tid
  if ls.isEmpty then none else some { c with lanes := ls }

theorem Cohort.without_nil {c : Cohort} (h : c.lanes ≠ []) : c.without [] = some c := by
  simp [Cohort.without, h]

theorem Cohort.without_all (c : Cohort) : c.without (c.lanes.map (·.tid)) = none := by
  have hnone : (c.lanes.filter fun l => !(c.lanes.map (·.tid)).contains l.tid) = [] :=
    List.filter_eq_nil_iff.2 fun l hl => by simpa using ⟨l, hl, rfl⟩
  rw [Cohort.without, hnone]
  rfl

/-- Where no thread has two lanes, those that are left are the others. -/
theorem Cohort.mem_rest {c : Cohort} {ls : List Lane} (hnodup : (c.lanes.map (·.tid)).Nodup) (hls : ∀ l ∈ ls, l ∈ c.lanes) (l : Lane) :
    l ∈ (c.lanes.filter fun l => !(ls.map (·.tid)).contains l.tid) ↔ l ∈ c.lanes ∧ l ∉ ls := by
  refine List.mem_filter.trans (and_congr_right fun hl => ?_)
  have hmem : l.tid ∈ ls.map (·.tid) ↔ l ∈ ls := by
    refine ⟨fun htid => ?_, fun h => List.mem_map_of_mem h⟩
    obtain ⟨a, ha, hsame⟩ := List.mem_map.1 htid
    exact List.inj_on_of_nodup_map hnodup (hls a ha) hl hsame ▸ ha
  rw [Bool.not_eq_true', ← Bool.not_eq_true, List.contains_iff_mem, hmem]

theorem Cohort.without_eq_some {c k : Cohort} {tids : List Nat} : c.without tids = some k ↔
    { c with lanes := c.lanes.filter fun l => !tids.contains l.tid } = k ∧ (c.lanes.filter fun l => !tids.contains l.tid) ≠ [] := by
  unfold Cohort.without
  dsimp only
  split
  · next h => exact ⟨nofun, fun hk => absurd (List.isEmpty_iff.1 h) hk.2⟩
  · next h => rw [Option.some.injEq]; exact ⟨fun hk => ⟨hk, mt List.isEmpty_iff.2 h⟩, And.left⟩

/-- Threads leave a cohort one after another. -/
theorem Cohort.without_cons (c : Cohort) (t : Nat) (ts : List Nat) : c.without (t :: ts) = (c.without [t]).bind (·.without ts) := by
  have hfilter : c.lanes.filter (fun l => !(t :: ts).contains l.tid) =
      (c.lanes.filter fun l => ! [t].contains l.tid).filter fun l => !ts.contains l.tid := by
    rw [List.filter_filter]
    congr 1
    funext l
    simp [Bool.and_comm]
  unfold Cohort.without
  dsimp only
  rw [hfilter]
  cases c.lanes.filter fun l => ! [t].contains l.tid <;> rfl

theorem State.dropLanes_kept (s : State) (cid : Nat) (tids : List Nat) : SpadKept s (s.dropLanes cid tids) := by
  unfold State.dropLanes
  split
  · exact .refl s
  · dsimp only
    split
    · exact ⟨⟨rfl, rfl, rfl⟩, rfl, rfl⟩
    · exact .setCohort ..

theorem State.find_dropLanes {s : State} {c : Cohort} (h : ∀ k, s.cohorts.find c.id = some k → k.id = c.id) (tids : List Nat) :
    (s.dropLanes c.id tids).cohorts.find c.id = (s.cohorts.find c.id).bind (·.without tids) := by
  unfold State.dropLanes
  cases hk : s.cohorts.find c.id with
  | none => exact hk
  | some k =>
    dsimp only [Option.bind_some, Cohort.without]
    split
    · exact Map.find_erase_self ..
    · rw [State.setCohort_cohorts, h k hk]
      exact Map.find_insert_self ..

/-- Only lane registers, predicates and the count of free values have changed. -/
def LaneRegsOnly (s t : State) : Prop := ∃ v p f, t = { s with vreg := v, preg := p, free := f }

theorem State.scramble_only (s : State) (c : Cohort) (tid : Nat) : LaneRegsOnly s (s.scramble c tid) := by
  unfold State.scramble
  generalize c.broken = l
  induction l generalizing s with
  | nil => exact ⟨_, _, _, rfl⟩
  | cons e l ih =>
    obtain ⟨isP, n⟩ := e
    have hstep : LaneRegsOnly s (if isP then s.drawWord.2.setP tid n s.drawWord.1[0] else s.drawWord.2.setV tid n s.drawWord.1) := by
      split
      · unfold State.setP
        split <;> exact ⟨_, _, _, rfl⟩
      · exact ⟨_, _, _, rfl⟩
    obtain ⟨v, p, f, hu⟩ := hstep
    obtain ⟨v', p', f', ht⟩ := ih (if isP then s.drawWord.2.setP tid n s.drawWord.1[0] else s.drawWord.2.setV tid n s.drawWord.1)
    exact ⟨v', p', f', ht.trans (by rw [hu])⟩

theorem LaneRegsOnly.kept {s t : State} (h : LaneRegsOnly s t) : SpadKept s t ∧ t.cohorts = s.cohorts := by
  obtain ⟨v, p, f, rfl⟩ := h
  exact ⟨⟨⟨rfl, rfl, rfl⟩, rfl, rfl⟩, rfl⟩

/-- Only threads and the agenda have changed. -/
def AgendaOnly (s t : State) : Prop := ∃ l a, t = { s with threads := l, agenda := a }

theorem State.enterHandler_only (s : State) (tid : Nat) (vec : Dword) (core : Nat) (e : TrapEntry) (addr : Nat) :
    AgendaOnly s (s.enterHandler tid vec core e addr) := by
  unfold State.enterHandler
  split
  · exact ⟨_, _, rfl⟩
  · split
    · obtain ⟨l, hl⟩ := (ThreadsOnly.modThread s tid _).trans (State.file_only _ tid _)
      exact ⟨l, s.agenda, hl⟩
    · exact ⟨_, _, rfl⟩

theorem AgendaOnly.kept {s t : State} (h : AgendaOnly s t) : SpadKept s t ∧ t.cohorts = s.cohorts := by
  obtain ⟨l, a, rfl⟩ := h
  exact ⟨⟨⟨rfl, rfl, rfl⟩, rfl, rfl⟩, rfl⟩

theorem State.rollback_kept {s : State} {c : Cohort} (h : ∀ k, s.cohorts.find c.id = some k → k.id = c.id) (tid : Nat) :
    SpadKept s (s.rollback c tid) ∧ (s.rollback c tid).cohorts.find c.id = (s.cohorts.find c.id).bind (·.without [tid]) := by
  obtain ⟨hkept, hcohorts⟩ := (s.scramble_only c tid).kept
  refine ⟨hkept.trans (State.dropLanes_kept ..), ?_⟩
  rw [State.rollback, State.find_dropLanes (by rwa [hcohorts]), hcohorts]

/-- A lane that raises STALE leaves its cohort; the scratchpad is as before. -/
theorem State.raiseStale_kept {s : State} {c : Cohort} (h : ∀ k, s.cohorts.find c.id = some k → k.id = c.id) (l : Lane) (a : Nat) :
    SpadKept s (s.raiseStale c l a) ∧ (s.raiseStale c l a).cohorts.find c.id = (s.cohorts.find c.id).bind (·.without [l.tid]) := by
  have hleft : SpadKept s (if c.irr then s.dropLanes c.id [l.tid] else s.rollback c l.tid) ∧
      (if c.irr then s.dropLanes c.id [l.tid] else s.rollback c l.tid).cohorts.find c.id =
        (s.cohorts.find c.id).bind (·.without [l.tid]) := by
    split
    · exact ⟨s.dropLanes_kept .., State.find_dropLanes h _⟩
    · exact State.rollback_kept h _
  unfold State.raiseStale
  generalize (if c.irr then s.dropLanes c.id [l.tid] else s.rollback c l.tid) = u at hleft ⊢
  obtain ⟨hkept, hfind⟩ := hleft
  have hthen {t : State} (ht : AgendaOnly u t) :
      SpadKept s t ∧ t.cohorts.find c.id = (s.cohorts.find c.id).bind (·.without [l.tid]) :=
    ⟨hkept.trans ht.kept.1, by rw [ht.kept.2, hfind]⟩
  dsimp only
  split
  · exact hthen (State.enterHandler_only ..)
  · split
    · exact ⟨hkept, hfind⟩
    · exact hthen ⟨_, _, rfl⟩

/-- Lanes that raise STALE one after another leave their cohort, which is gone once it has none. -/
theorem State.raiseStales_kept {c : Cohort} (addr : Lane → Nat) (ls : List Lane) {s : State}
    (h : ∀ k, s.cohorts.find c.id = some k → k.id = c.id ∧ k.lanes ≠ []) : SpadKept s (ls.foldl (fun u l => u.raiseStale c l (addr l)) s) ∧
      (ls.foldl (fun u l => u.raiseStale c l (addr l)) s).cohorts.find c.id = (s.cohorts.find c.id).bind (·.without (ls.map (·.tid))) := by
  induction ls generalizing s with
  | nil =>
    refine ⟨.refl s, ?_⟩
    cases hk : s.cohorts.find c.id with
    | none => exact hk
    | some k => exact hk.trans (Cohort.without_nil (h k hk).2).symm
  | cons l ls ih =>
    obtain ⟨hkept, hfind⟩ := State.raiseStale_kept (fun k hk => (h k hk).1) l (addr l)
    have hnext : ∀ k, (s.raiseStale c l (addr l)).cohorts.find c.id = some k → k.id = c.id ∧ k.lanes ≠ [] := by
      intro k hk
      obtain ⟨k', hk', hwithout⟩ := Option.bind_eq_some_iff.1 (hfind.symm.trans hk)
      obtain ⟨rfl, hne⟩ := Cohort.without_eq_some.1 hwithout
      exact ⟨(h k' hk').1, hne⟩
    obtain ⟨hkept', hfind'⟩ := ih hnext
    refine ⟨hkept.trans hkept', hfind'.trans ?_⟩
    rw [hfind, Option.bind_assoc]
    exact congrArg (Option.bind _) (funext fun k => (k.without_cons l.tid _).symm)

theorem State.raiseStales_of_here {s : State} {c : Cohort} (h : s.cohorts.find c.id = some c) (hne : c.lanes ≠ []) (addr : Lane → Nat)
    (ls : List Lane) : SpadKept s (ls.foldl (fun u l => u.raiseStale c l (addr l)) s) ∧
      (ls.foldl (fun u l => u.raiseStale c l (addr l)) s).cohorts.find c.id = c.without (ls.map (·.tid)) := by
  obtain ⟨hkept, hfind⟩ := State.raiseStales_kept (s := s) (c := c) addr ls fun k hk => Option.some.inj (h.symm.trans hk) ▸ ⟨rfl, hne⟩
  exact ⟨hkept, by rw [hfind, h, Option.bind_some]⟩

/-! ### One test (R191) -/

/-- A waiting lane with what its test has found, which stays true once it is. -/
def State.awaitLook (s : State) (crew : Nat) (l : Lane) : Lane :=
  match l.await with
  | none => l
  | some w => { l with await := some { w with ok := w.ok || (s.generation crew w.addr).any (· != w.gen) } }

/-- A cohort with what the tests of its lanes have found. -/
def State.awaitLooked (s : State) (c : Cohort) : Cohort := { c with lanes := c.lanes.map (s.awaitLook c.crew) }

/-- Whether every waiting lane's condition has been found true. -/
def Cohort.awaitMet (c : Cohort) : Bool := c.lanes.all fun l => l.await.all (·.ok)

/-- The lanes that raise STALE. -/
def State.awaitStales (s : State) (c : Cohort) : List Lane :=
  c.lanes.filter fun l => l.await.any fun w => (c.awaitMet || !w.ok) && (s.generation c.crew w.addr).isNone

/-- A released lane receives its word's generation. -/
def State.awaitTake (s : State) (c : Cohort) (d : Nat) (l : Lane) : State :=
  match l.await with
  | none => s
  | some w => (s.noteRead l.tid (spadByteKey c.crew w.addr) 16).putV c.id l.tid d ((s.generation c.crew w.addr).getD 0) 0

/-- A cohort of which every lane has received its generation goes on. -/
def State.awaitRelease (s : State) (c : Cohort) (d : Nat) (stall : BitVec 4) : State :=
  ((c.lanes.foldl (fun u l => u.awaitTake c d l) s).modCohort c.id fun k => { k with lanes := k.lanes.map fun l => { l with await := none } }).advance
    c.id stall

/-- The branches of a test. -/
theorem State.awaitTest_eq {s : State} {c : Cohort} {d : Nat} {stall : BitVec 4} (h : s.cohorts.find c.id = some c) (hst : c.st = .await d stall) :
    s.awaitTest c.id =
      if !(s.awaitStales (s.awaitLooked c)).isEmpty then
        (s.awaitStales (s.awaitLooked c)).foldl (fun u l => u.raiseStale c l ((l.await.map (·.addr)).getD 0)) (s.setCohort (s.awaitLooked c))
      else if (s.awaitLooked c).awaitMet then (s.setCohort (s.awaitLooked c)).awaitRelease (s.awaitLooked c) d stall
      else s.setCohort (s.awaitLooked c) := by
  unfold State.awaitTest
  rw [h]
  dsimp only
  split
  · next d' stall' hst' =>
    obtain ⟨rfl, rfl⟩ := CohSt.await.inj (hst'.symm.trans hst)
    rfl
  · next hno => exact absurd hst (hno d stall)

/-- While a condition is not met, a test takes no more than the stale lanes out. -/
theorem State.awaitTest_of_unmet {s : State} {c : Cohort} {d : Nat} {stall : BitVec 4} (h : s.cohorts.find c.id = some c) (hst : c.st = .await d stall)
    (hunmet : (s.awaitLooked c).awaitMet = false) : s.awaitTest c.id =
      (s.awaitStales (s.awaitLooked c)).foldl (fun u l => u.raiseStale c l ((l.await.map (·.addr)).getD 0)) (s.setCohort (s.awaitLooked c)) := by
  rw [State.awaitTest_eq h hst, hunmet, if_neg Bool.false_ne_true]
  cases s.awaitStales (s.awaitLooked c) <;> rfl

theorem State.awaitTest_of_met {s : State} {c : Cohort} {d : Nat} {stall : BitVec 4} (h : s.cohorts.find c.id = some c) (hst : c.st = .await d stall)
    (hlive : s.awaitStales (s.awaitLooked c) = []) (hmet : (s.awaitLooked c).awaitMet = true) :
    s.awaitTest c.id = (s.setCohort (s.awaitLooked c)).awaitRelease (s.awaitLooked c) d stall := by
  rw [State.awaitTest_eq h hst, hlive, hmet]
  rfl

theorem SpadKept.awaitLook {s t : State} (h : SpadKept s t) (crew : Nat) (l : Lane) : t.awaitLook crew l = s.awaitLook crew l := by
  unfold State.awaitLook
  split
  · rfl
  · rw [h.generation]

theorem State.awaitLook_tid (s : State) (crew : Nat) (l : Lane) : (s.awaitLook crew l).tid = l.tid := by
  unfold State.awaitLook
  split <;> rfl

theorem State.awaitLook_of_live {s : State} {crew : Nat} {l : Lane} {w : Await} {g : Word} (hw : l.await = some w)
    (hg : s.generation crew w.addr = some g) : s.awaitLook crew l = { l with await := some { w with ok := w.ok || g != w.gen } } := by
  rw [State.awaitLook, hw]
  dsimp only
  rw [hg]
  rfl

/-- A lane of which the test finds nothing new. -/
theorem State.awaitLook_same {s : State} {crew : Nat} {l : Lane}
    (h : ∀ w, l.await = some w → ∀ g, s.generation crew w.addr = some g → w.ok = true ∨ g = w.gen) : s.awaitLook crew l = l := by
  unfold State.awaitLook
  split
  · rfl
  · next w hw =>
    have hok : (w.ok || (s.generation crew w.addr).any (· != w.gen)) = w.ok := by
      cases hg : s.generation crew w.addr with
      | none => exact Bool.or_false _
      | some g => rcases h w hw g hg with hok | rfl <;> simp [*]
    rw [hok, ← hw]

theorem State.awaitLooked_tids (s : State) (c : Cohort) : (s.awaitLooked c).lanes.map (·.tid) = c.lanes.map (·.tid) :=
  List.map_map.trans (List.map_congr_left fun l _ => s.awaitLook_tid c.crew l)

theorem State.awaitLooked_same {s : State} {c : Cohort} (h : ∀ l ∈ c.lanes, s.awaitLook c.crew l = l) : s.awaitLooked c = c := by
  rw [State.awaitLooked, List.map_congr_left h, List.map_id']

theorem Cohort.awaitMet_eq_false {c : Cohort} {l : Lane} {w : Await} (hl : l ∈ c.lanes) (hw : l.await = some w) (hok : w.ok = false) :
    c.awaitMet = false := List.all_eq_false.2 ⟨l, hl, by simp [hw, hok]⟩

/-- Of a cohort's waiting lanes whose conditions have not been found true the stale ones are those whose words are. -/
theorem State.mem_awaitStales {s : State} {c : Cohort} {l : Lane} (hunmet : l ∈ c.lanes → ∀ w, l.await = some w → w.ok = false) :
    l ∈ s.awaitStales c ↔ l ∈ c.lanes ∧ ∃ w, l.await = some w ∧ s.generation c.crew w.addr = none := by
  refine List.mem_filter.trans (and_congr_right fun hl => ?_)
  cases hw : l.await with
  | none => simp
  | some w => simp [hunmet hl w hw]

theorem State.awaitStales_of_live {s : State} {c : Cohort} (h : ∀ l ∈ c.lanes, ∀ w, l.await = some w → s.generation c.crew w.addr ≠ none) :
    s.awaitStales c = [] := by
  refine List.filter_eq_nil_iff.2 fun l hl hany => ?_
  cases hw : l.await with
  | none => rw [hw] at hany; cases hany
  | some w =>
    rw [hw, Option.any_some, Bool.and_eq_true] at hany
    exact h l hl w hw (Option.isNone_iff_eq_none.1 hany.2)

/-- What a test has found it finds again. -/
theorem State.awaitLook_awaitLook (s : State) (crew : Nat) (l : Lane) : s.awaitLook crew (s.awaitLook crew l) = s.awaitLook crew l := by
  refine State.awaitLook_same fun w hw g hg => ?_
  cases hl : l.await with
  | none =>
    rw [State.awaitLook, hl] at hw
    cases hl.symm.trans hw
  | some v =>
    rw [State.awaitLook, hl] at hw
    obtain rfl := Option.some.inj hw
    dsimp only at hg ⊢
    rw [hg]
    by_cases hgen : g = v.gen
    · exact .inr hgen
    · exact .inl (by simp [hgen])

/-- The words of a cohort that has been looked at are the words it waited on. -/
theorem State.live_awaitLooked {s : State} {c : Cohort} (h : ∀ l ∈ c.lanes, ∀ w, l.await = some w → s.generation c.crew w.addr ≠ none) :
    ∀ l ∈ (s.awaitLooked c).lanes, ∀ w, l.await = some w → s.generation c.crew w.addr ≠ none := by
  intro l' hl' w' hw'
  obtain ⟨l, hl, rfl⟩ := List.mem_map.1 hl'
  cases hw : l.await with
  | none =>
    rw [State.awaitLook, hw] at hw'
    cases hw.symm.trans hw'
  | some w =>
    rw [State.awaitLook, hw] at hw'
    obtain rfl := Option.some.inj hw'
    exact h l hl w hw

/-! ### The tests after one (R191) -/

theorem State.awaitSettle_eq {s : State} {c : Cohort} (h : s.cohorts.find c.id = some c) :
    s.awaitSettle c.id = (s.awaitTest c.id).awaitTests c.id c.lanes.length := by
  rw [State.awaitSettle, h]
  rfl

/-- Nothing is tested where the cohort is gone or has gone on. -/
theorem State.awaitTests_of_done {s : State} {cid : Nat} (h : ∀ k, s.cohorts.find cid = some k → k.st = .ready) (n : Nat) :
    s.awaitTests cid n = s := by
  have htest : s.awaitTest cid = s := by
    unfold State.awaitTest
    split
    · rfl
    · next k hk => rw [h k hk]
  induction n with
  | zero => rfl
  | succ n ih => rw [State.awaitTests, htest, ih]

/-- A cohort whose words are live waits, a condition not met, and a test finds nothing new. -/
structure Held (s : State) (c : Cohort) : Prop where
  here  : s.cohorts.find c.id = some c
  waits : ∃ d stall, c.st = .await d stall
  seen  : ∀ l ∈ c.lanes, s.awaitLook c.crew l = l
  live  : ∀ l ∈ c.lanes, ∀ w, l.await = some w → s.generation c.crew w.addr ≠ none
  unmet : ∃ l ∈ c.lanes, ∃ w, l.await = some w ∧ w.ok = false

/-- It is held as long as its scratchpad is as it was. -/
theorem Held.of_kept {s t : State} {c : Cohort} (h : Held s c) (hkept : SpadKept s t) (hhere : t.cohorts.find c.id = some c) : Held t c where
  here := hhere
  waits := h.waits
  seen l hl := by rw [hkept.awaitLook]; exact h.seen l hl
  live l hl w hw := by rw [hkept.generation]; exact h.live l hl w hw
  unmet := h.unmet

theorem Held.test {s : State} {c : Cohort} (h : Held s c) : s.awaitTest c.id = s.setCohort c := by
  obtain ⟨d, stall, hst⟩ := h.waits
  obtain ⟨l, hl, w, hw, hok⟩ := h.unmet
  have hsame : s.awaitLooked c = c := State.awaitLooked_same h.seen
  rw [State.awaitTest_of_unmet h.here hst (by rw [hsame]; exact Cohort.awaitMet_eq_false hl hw hok), hsame, State.awaitStales_of_live h.live]
  rfl

/-- The tests of a cohort that is held leave it and the registers as they are. -/
theorem Held.tests {s : State} {c : Cohort} (h : Held s c) (n : Nat) :
    (s.awaitTests c.id n).cohorts.find c.id = some c ∧ (s.awaitTests c.id n).vreg = s.vreg := by
  induction n generalizing s with
  | zero => exact ⟨h.here, rfl⟩
  | succ n ih =>
    rw [State.awaitTests, h.test]
    exact ih (h.of_kept (.setCohort s c) (Map.find_insert_self ..))

/-- A condition that is not met holds a cohort whose words are live, from its first test on. -/
theorem Held.of_test {s : State} {c : Cohort} {d : Nat} {stall : BitVec 4} (h : s.cohorts.find c.id = some c) (hst : c.st = .await d stall)
    (hlive : ∀ l ∈ c.lanes, ∀ w, l.await = some w → s.generation c.crew w.addr ≠ none) {l : Lane} {w : Await} (hl : l ∈ c.lanes)
    (hw : l.await = some w) (hok : w.ok = false) (hsame : s.generation c.crew w.addr = some w.gen) :
    s.awaitTest c.id = s.setCohort (s.awaitLooked c) ∧ Held (s.setCohort (s.awaitLooked c)) (s.awaitLooked c) := by
  have hkept := SpadKept.setCohort s (s.awaitLooked c)
  have hlook : s.awaitLook c.crew l = l := State.awaitLook_same fun w' hw' g hg => by
    obtain rfl := Option.some.inj (hw.symm.trans hw')
    exact .inr (Option.some.inj (hg.symm.trans hsame))
  have hin : l ∈ (s.awaitLooked c).lanes := List.mem_map.2 ⟨l, hl, hlook⟩
  refine ⟨?_, Map.find_insert_self .., ⟨d, stall, hst⟩, fun l' hl' => ?_, fun l' hl' w' hw' => ?_, l, hin, w, hw, hok⟩
  · rw [State.awaitTest_of_unmet h hst (Cohort.awaitMet_eq_false hin hw hok), State.awaitStales_of_live (State.live_awaitLooked hlive)]
    rfl
  · obtain ⟨a, -, rfl⟩ := List.mem_map.1 hl'
    rw [hkept.awaitLook]
    exact s.awaitLook_awaitLook c.crew a
  · rw [hkept.generation]
    exact State.live_awaitLooked hlive l' hl' w' hw'

/-! ### Release (R177, R191) -/

theorem State.awaitTake_kept (s : State) (c : Cohort) (d : Nat) (l : Lane) : SpadKept s (s.awaitTake c d l) := by
  unfold State.awaitTake
  split
  · exact .refl s
  · exact (SpadKept.of_threads (s.noteRead_threads ..)).trans ⟨⟨rfl, rfl, rfl⟩, rfl, rfl⟩

theorem State.awaitTake_pendOnly (s : State) (c : Cohort) (d : Nat) (l : Lane) : PendOnly s (s.awaitTake c d l) c.id := by
  unfold State.awaitTake
  split
  · exact .refl s _
  · obtain ⟨ths, hths⟩ := s.noteRead_threads l.tid _ 16
    exact (PendOnly.of_eq (by rw [hths])).trans (State.putV_kept ..).cohorts

theorem PendOnly.foldl {α : Type} {cid : Nat} {f : State → α → State} (h : ∀ s a, PendOnly s (f s a) cid) (s : State) (l : List α) :
    PendOnly s (l.foldl f s) cid := by
  induction l generalizing s with
  | nil => exact .refl s cid
  | cons a l ih => exact (h s a).trans (ih _)

theorem State.getV_awaitTake (s : State) (c : Cohort) (d : Nat) {l : Lane} {w : Await} (hw : l.await = some w) :
    (s.awaitTake c d l).getV l.tid d = (s.generation c.crew w.addr).getD 0 := by
  rw [State.awaitTake, hw]
  exact State.getV_putV_self ..

theorem State.getV_awaitTake_ne (s : State) (c : Cohort) {d n tid : Nat} (l : Lane) (hd : d < 256) (hn : n < 256) (htid : tid ≠ l.tid) :
    (s.awaitTake c d l).getV tid n = s.getV tid n := by
  unfold State.awaitTake
  split
  · rfl
  · exact (State.getV_putV_ne _ _ _ (mt (vKey_inj hn hd).1 fun h => htid h.1)).trans (State.getV_of_vreg (noteRead_vreg ..) ..)

/-- Each waiting lane of a list has received its word's generation, whichever lane comes first. -/
theorem State.getV_awaitTakes {s : State} {c : Cohort} {d : Nat} (hd : d < 256) {ls : List Lane} (hnodup : (ls.map (·.tid)).Nodup) {l : Lane}
    {w : Await} (hl : l ∈ ls) (hw : l.await = some w) :
    (ls.foldl (fun u l => u.awaitTake c d l) s).getV l.tid d = (s.generation c.crew w.addr).getD 0 := by
  induction ls generalizing s with
  | nil => cases hl
  | cons a ls ih =>
    obtain ⟨hhead, htail⟩ := List.nodup_cons.1 hnodup
    rw [List.foldl_cons]
    rcases List.mem_cons.1 hl with rfl | hl
    · rw [← s.getV_awaitTake c d hw]
      exact foldl_keeps (g := fun u => u.getV l.tid d)
        (fun b hb u => u.getV_awaitTake_ne c b hd hd fun h => hhead (List.mem_map.2 ⟨b, hb, h.symm⟩)) _
    · rw [ih htail hl, (s.awaitTake_kept c d a).generation]

/-- A released cohort goes on, and no lane of it waits. -/
theorem State.awaitRelease_here {s : State} {c : Cohort} (h : s.cohorts.find c.id = some c) (d : Nat) (stall : BitVec 4) :
    ∃ k, (s.awaitRelease c d stall).cohorts.find c.id = some k ∧ k.pc = c.pc + 1 ∧ k.st = .ready ∧ ∀ l ∈ k.lanes, l.await = none := by
  have hself := (PendOnly.foldl (fun u l => u.awaitTake_pendOnly c d l) s c.lanes).self
  rw [h] at hself
  obtain ⟨k, hk, hsame⟩ := Option.map_eq_some_iff.1 hself
  have hpc : k.pc = c.pc := (congrArg Cohort.pc hsame :)
  unfold State.awaitRelease
  rw [State.advance, State.modCohort_cohorts, Map.find_modify_self, State.modCohort_cohorts, Map.find_modify_self, hk]
  refine ⟨_, rfl, congrArg (· + 1) hpc, rfl, fun l hl => ?_⟩
  obtain ⟨l', _, rfl⟩ := List.mem_map.1 hl
  rfl

/-- A cohort of which every waiting lane finds another generation is released by the first test. -/
theorem State.awaitSettle_of_met {s : State} {c : Cohort} {d : Nat} {stall : BitVec 4} (h : s.cohorts.find c.id = some c)
    (hst : c.st = .await d stall)
    (hmet : ∀ l ∈ c.lanes, ∀ w, l.await = some w → ∃ g, s.generation c.crew w.addr = some g ∧ g ≠ w.gen) :
    s.awaitSettle c.id = (s.setCohort (s.awaitLooked c)).awaitRelease (s.awaitLooked c) d stall := by
  have hlive := State.live_awaitLooked (s := s) (c := c) fun l hl w hw => by
    obtain ⟨g, hg, -⟩ := hmet l hl w hw
    rw [hg]
    nofun
  have hall : (s.awaitLooked c).awaitMet = true := List.all_eq_true.2 fun l' hl' => by
    obtain ⟨l, hl, rfl⟩ := List.mem_map.1 hl'
    cases hw : l.await with
    | none => simp [State.awaitLook, hw]
    | some w =>
      obtain ⟨g, hg, hdiffers⟩ := hmet l hl w hw
      simp [State.awaitLook_of_live hw hg, hdiffers]
  obtain ⟨r, hr, -, hready, -⟩ := State.awaitRelease_here (s := s.setCohort (s.awaitLooked c)) (Map.find_insert_self ..) d stall
  rw [State.awaitSettle_eq h, State.awaitTest_of_met h hst (State.awaitStales_of_live hlive) hall]
  exact State.awaitTests_of_done (fun r' hr' => Option.some.inj (hr.symm.trans hr') ▸ hready) _

/-- A test of a cohort that has found no condition true yet, and finds none, takes the stale lanes out. -/
theorem State.awaitTest_raises {s : State} {c : Cohort} {d : Nat} {stall : BitVec 4} (h : s.cohorts.find c.id = some c) (hsame : s.setCohort c = s)
    (hst : c.st = .await d stall) (hlook : ∀ l ∈ c.lanes, s.awaitLook c.crew l = l) {l : Lane} {w : Await} (hl : l ∈ c.lanes)
    (hw : l.await = some w) (hok : w.ok = false) : s.awaitTest c.id =
      (s.awaitStales c).foldl (fun u l => u.raiseStale c l ((l.await.map (·.addr)).getD 0)) s := by
  have hlooked : s.awaitLooked c = c := State.awaitLooked_same hlook
  rw [State.awaitTest_of_unmet h hst (by rw [hlooked]; exact Cohort.awaitMet_eq_false hl hw hok), hlooked, hsame]

end Sys2Proof.Machine

namespace Sys2Proof.Claims
open Machine

theorem awaitWaits : AwaitWaits := by
  intro s c x hi hstall lanes
  rw [show exec (.await x) s = execAwait x s from rfl, execAwait, onCohort_next hi]
  dsimp only
  rw [show (begun s).stallShort c (.await x) = false from hstall, if_neg Bool.false_ne_true, show (begun s).execLanes c x.pred = lanes from rfl]
  cases lanes with
  | nil => exact ⟨fun _ => rfl, fun h => absurd rfl h⟩
  | cons l ls => exact ⟨nofun, fun _ => rfl⟩

theorem awaitIsReleased : AwaitIsReleased := by
  intro s c d stall gen hc hst hd hgen hnodup t
  let k := s.awaitLooked c
  refine ⟨rfl, fun hdiffer => ?_, fun ⟨l, hl, w, hw, hok, hsame⟩ => ?_⟩
  · have ht : t = (s.setCohort k).awaitRelease k d stall :=
      State.awaitSettle_of_met hc hst fun l hl w hw => ⟨gen l, hgen l hl w hw, hdiffer l hl w hw⟩
    obtain ⟨r, hr, hpc, hready, hnone⟩ := State.awaitRelease_here (s := s.setCohort k) (Map.find_insert_self ..) d stall
    refine ⟨fun l hl hwaits => ?_, r, ht ▸ hr, hpc, hready, hnone⟩
    obtain ⟨w, hw⟩ := Option.ne_none_iff_exists'.1 hwaits
    have htids : (k.lanes.map (·.tid)).Nodup := (congrArg List.Nodup (s.awaitLooked_tids c)).mpr hnodup
    have htake := State.getV_awaitTakes (s := s.setCohort k) (c := k) hd htids (List.mem_map_of_mem hl)
      (congrArg Lane.await (State.awaitLook_of_live hw (hgen l hl w hw)))
    rw [State.awaitLook_tid, (SpadKept.setCohort s k).generation] at htake
    rw [ht]
    exact htake.trans (congrArg (Option.getD · 0) (hgen l hl w hw))
  · obtain ⟨htest, hheld⟩ := Held.of_test hc hst (fun l hl w hw => by rw [hgen l hl w hw]; nofun) hl hw hok ((hgen l hl w hw).trans (congrArg some hsame))
    obtain ⟨hfind, hvreg⟩ := hheld.tests c.lanes.length
    have ht : t = (s.setCohort k).awaitTests c.id c.lanes.length := (State.awaitSettle_eq hc).trans (by rw [htest])
    rw [ht]
    exact ⟨k, hfind, rfl, hst, hvreg⟩

theorem staleWaitsRaiseStale : StaleWaitsRaiseStale := by
  intro s c d stall hc hsame hst hnodup hunmet stale
  have hlook : ∀ l ∈ c.lanes, s.awaitLook c.crew l = l := fun l hl =>
    State.awaitLook_same fun w hw g hg => .inr ((hunmet l hl w hw).2 g hg)
  have hsettle : exec (.awaitStale c.id) s = .next ((s.awaitTest c.id).awaitTests c.id c.lanes.length) :=
    congrArg Host.Outcome.next (State.awaitSettle_eq hc)
  have hstales : ∀ l, l ∈ s.awaitStales c ↔ l ∈ c.lanes ∧ stale l := fun l =>
    State.mem_awaitStales fun hl w hw => (hunmet l hl w hw).1
  have hraised (hne : c.lanes ≠ []) (ls : List Lane) := State.raiseStales_of_here hc hne (fun l => (l.await.map (·.addr)).getD 0) ls
  refine ⟨fun hall hne => ?_, fun ⟨l, hl, hwaits, hlive⟩ => ?_⟩
  · have hevery : s.awaitStales c = c.lanes :=
      List.filter_eq_self.2 fun l hl => (List.mem_filter.1 ((hstales l).2 ⟨hl, hall l hl⟩)).2
    obtain ⟨l, hl⟩ := List.exists_mem_of_ne_nil _ hne
    obtain ⟨w, hw, -⟩ := hall l hl
    have hgone := (hraised hne c.lanes).2.trans c.without_all
    rw [hsettle, State.awaitTest_raises hc hsame hst hlook hl hw (hunmet l hl w hw).1, hevery,
      State.awaitTests_of_done fun k hk => nomatch hgone.symm.trans hk]
  · obtain ⟨w, hw⟩ := Option.ne_none_iff_exists'.1 hwaits
    have hok := (hunmet l hl w hw).1
    let r : Cohort := { c with lanes := c.lanes.filter fun l => !((s.awaitStales c).map (·.tid)).contains l.tid }
    have hrest : ∀ l, l ∈ r.lanes ↔ l ∈ c.lanes ∧ ¬stale l := fun l =>
      (Cohort.mem_rest hnodup (fun l hl => ((hstales l).1 hl).1) l).trans
        (and_congr_right fun hl => not_congr ((hstales l).trans (and_iff_right hl)))
    have hin : l ∈ r.lanes := (hrest l).2 ⟨hl, hlive⟩
    obtain ⟨hkept, hfind⟩ := hraised (List.ne_nil_of_mem hl) (s.awaitStales c)
    have hheld : Held ((s.awaitStales c).foldl (fun u l => u.raiseStale c l ((l.await.map (·.addr)).getD 0)) s) r :=
      ⟨hfind.trans (Cohort.without_eq_some.2 ⟨rfl, List.ne_nil_of_mem hin⟩), ⟨d, stall, hst⟩,
      fun l hl => by rw [hkept.awaitLook]; exact hlook l ((hrest l).1 hl).1,
      fun l hl w hw => by rw [hkept.generation]; exact fun hg => ((hrest l).1 hl).2 ⟨w, hw, hg⟩,
      l, hin, w, hw, hok⟩
    rw [hsettle, State.awaitTest_raises hc hsame hst hlook hl hw hok]
    exact ⟨_, r, rfl, (hheld.tests c.lanes.length).1, hst, rfl, hrest⟩

/-- Settles O31: a test either takes the stale lanes out, or releases the cohort, or leaves it as it is; the tests after it find nothing new. -/
theorem awaitWaitsUntilReleased : Obligations.AwaitWaitsUntilReleased := ⟨awaitWaits, awaitIsReleased, staleWaitsRaiseStale⟩

end Sys2Proof.Claims
end

section
/-! SUPPORT. The proof of O56: the power states, the clock under heat, and bring-up. -/

namespace Sys2Proof.Machine

/-! ### Leaving the power states (R381) -/

theorem State.wakeDie_cores (s : State) (die : Nat) : (s.wakeDie die).cores = s.cores := by
  unfold State.wakeDie
  split <;> rfl

theorem State.wakeDie_power (s : State) (die : Nat) : (s.wakeDie die).pkg.diePower.getD die 0 = 0 := by
  unfold State.wakeDie
  split
  · assumption
  · rw [State.modPkg_pkg, List.getD_eq_getElem?_getD, List.getElem?_set_self']
    cases s.pkg.diePower[die]? <;> rfl

/-- A crew of a cluster returns with its segments, unless it is stopped or its cluster frozen. -/
def State.crewReturns (cl : Nat) (s : State) (w : Crew) : State :=
  (s.restoreSegs w.id).setCrew { w with running := w.stopping.isNone && (s.pkg.frozen.find cl).isNone }

/-- A core of a cluster leaves C2 for C1: its clock goes on, and its crews return. -/
def State.wakeSleeper (cl : Nat) (s : State) (n : Nat) : State :=
  let u := s.setCore n { s.core n with power := 1, stopped := (s.core n).stopped + (s.clock - (s.core n).last), last := s.clock }
  (u.crewsOn n).foldl (State.crewReturns cl) u

/-- The cores of a cluster that are in C2. -/
def State.sleepers (s : State) (cl : Nat) : List Nat := ((List.range 8).map (8 * cl + ·)).filter fun n => (s.core n).power == 2

theorem State.wakeCluster_eq (s : State) (cl : Nat) :
    s.wakeCluster cl = ((s.wakeDie (cl / 9)).sleepers cl).foldl (State.wakeSleeper cl) (s.wakeDie (cl / 9)) := rfl

theorem State.wakeSleeper_pkg (cl : Nat) (s : State) (n : Nat) : (s.wakeSleeper cl n).pkg = s.pkg :=
  (foldl_keeps (f := State.crewReturns cl) (g := State.pkg) (fun _ _ _ => rfl) _).trans rfl

theorem State.wakeSleeper_cores_length (cl : Nat) (s : State) (n : Nat) : (s.wakeSleeper cl n).cores.length = s.cores.length :=
  (congrArg List.length (foldl_keeps (f := State.crewReturns cl) (g := State.cores) (fun _ _ _ => rfl) _)).trans List.length_set

theorem State.wakeCluster_pkg (s : State) (cl : Nat) : (s.wakeCluster cl).pkg = (s.wakeDie (cl / 9)).pkg := by
  rw [State.wakeCluster_eq]
  exact foldl_keeps (g := State.pkg) (fun n _ u => u.wakeSleeper_pkg cl n) _

theorem State.wakeCluster_cores_length (s : State) (cl : Nat) : (s.wakeCluster cl).cores.length = s.cores.length := by
  rw [State.wakeCluster_eq, ← s.wakeDie_cores (cl / 9)]
  exact foldl_keeps (g := fun u => u.cores.length) (fun n _ u => u.wakeSleeper_cores_length cl n) _

theorem State.core_setCore_self {s : State} {n : Nat} (h : n < s.cores.length) (k : CoreSt) : (s.setCore n k).core n = k := by
  rw [State.core, State.setCore_cores, List.getD_eq_getElem?_getD, List.getElem?_set_self h]
  rfl

/-- A woken core has come to C0, and its die has left C3, with its cluster or before it. -/
theorem State.wakeCore_awake {s : State} {n : Nat} (h : n < s.cores.length) : ((s.wakeCore n).core n).power = 0 ∧
    ((s.core n).power ≠ 0 → (s.wakeCore n).pkg.diePower.getD (dieOf n) 0 = 0) := by
  unfold State.wakeCore
  split
  · next hzero => exact ⟨hzero, absurd hzero⟩
  have hdie : clusterOf n / 9 = dieOf n := Nat.div_div_eq_div_mul ..
  dsimp only
  split
  · refine ⟨?_, fun _ => ?_⟩
    · rw [State.core_setCore_self (by rwa [State.wakeCluster_cores_length, State.wakeDie_cores])]
    · rw [State.setCore_pkg, State.wakeCluster_pkg, hdie]
      exact State.wakeDie_power ..
  · refine ⟨?_, fun _ => s.wakeDie_power _⟩
    rw [State.core_setCore_self (by rwa [State.wakeDie_cores])]

/-! ### The status register (R373) -/

/-- A sum over the kept elements, one element at a time. -/
theorem sum_filter_cons (p : Nat → Bool) (f : Nat → Nat) (d : Nat) (l : List Nat) :
    (((d :: l).filter p).map f).sum = f d * (p d).toNat + ((l.filter p).map f).sum := by
  cases hp : p d <;> simp [hp]

/-- The status register as a number: the step, a bit for each die in service, and the last two. -/
theorem statusOf_eq (step : Nat) (p : Nat → Bool) (failed ready : Bool) : statusOf step ((List.range 4).filter p) failed ready =
    BitVec.ofNat 32 (step + (2 ^ 16 * (p 0).toNat + (2 ^ 17 * (p 1).toNat + (2 ^ 18 * (p 2).toNat + 2 ^ 19 * (p 3).toNat))) +
      2 ^ 30 * failed.toNat + 2 ^ 31 * ready.toNat) := by
  rw [statusOf, show List.range 4 = [0, 1, 2, 3] from rfl, sum_filter_cons, sum_filter_cons, sum_filter_cons, sum_filter_cons]
  rfl

theorem statusOf_step (step : Nat) (p : Nat → Bool) (failed ready : Bool) :
    (statusOf step ((List.range 4).filter p) failed ready).extractLsb' 0 8 = BitVec.ofNat 8 step := by
  rw [statusOf_eq]
  refine BitVec.eq_of_toNat_eq ?_
  rw [BitVec.extractLsb'_toNat, BitVec.toNat_ofNat, BitVec.toNat_ofNat, Nat.shiftRight_zero]
  omega

/-- The bits of the dies, of failure and of readiness stand above every step. -/
theorem statusOf_bits {step : Nat} (hstep : step < 256) (p : Nat → Bool) (failed ready : Bool) :
    let w := statusOf step ((List.range 4).filter p) failed ready
    w[30] = failed ∧ w[31] = ready ∧ ∀ d < 4, w[16 + d]! = p d := by
  intro w
  have h0 := (p 0).toNat_le
  have h1 := (p 1).toNat_le
  have h2 := (p 2).toNat_le
  have h3 := (p 3).toNat_le
  have hf := failed.toNat_le
  have hr := ready.toNat_le
  have hbit (i : Nat) (hi : i < 32) (b : Bool) : w[i] = b ↔ (
      (step + (2 ^ 16 * (p 0).toNat + (2 ^ 17 * (p 1).toNat + (2 ^ 18 * (p 2).toNat + 2 ^ 19 * (p 3).toNat))) +
        2 ^ 30 * failed.toNat + 2 ^ 31 * ready.toNat) / 2 ^ i % 2 = 1 ↔ b.toNat = 1) := by
    rw [Bool.toNat_eq_one, BitVec.getElem_eq_testBit_toNat, show w = _ from statusOf_eq .., BitVec.toNat_ofNat, Nat.mod_eq_of_lt (by omega),
      Nat.testBit_eq_decide_div_mod_eq, Bool.eq_iff_iff, decide_eq_true_eq]
  refine ⟨(hbit 30 (by omega) _).2 (by omega), (hbit 31 (by omega) _).2 (by omega), fun d hd => ?_⟩
  rw [getElem!_pos _ _ (by omega), hbit]
  interval_cases d <;> omega

/-! ### Bring-up (R373, R383) -/

/-- The dies that the status register shows from step 4 on. -/
def State.shown (s : State) (step d : Nat) : Bool := decide (4 ≤ step) && !s.pkg.deadDies.contains d

theorem State.filter_shown (s : State) (step : Nat) : (if step < 4 then [] else s.dies) = (List.range 4).filter (s.shown step) := by
  split
  · next h =>
    refine (List.filter_eq_nil_iff.2 fun d _ => ?_).symm
    rw [State.shown, decide_eq_false (by omega)]
    exact Bool.false_ne_true
  · next h =>
    refine List.filter_congr fun d _ => ?_
    rw [State.shown, decide_eq_true (by omega)]
    rfl

theorem State.bringUpStops_status (s : State) (step code : Nat) :
    (s.bringUpStops step code).pkg.status = statusOf step ((List.range 4).filter (s.shown step)) true false :=
  congrArg (statusOf step · true false) (s.filter_shown step)

/-- Bring-up that stops at step 1 shows no die, and its code (R373). -/
theorem State.bringUpStops_first (s : State) (code : Nat) :
    (s.bringUpStops 1 code).pkg.status = 0x40000001#32 ∧ (s.bringUpStops 1 code).pkg.failure = failureOf 0 code := by
  refine ⟨?_, rfl⟩
  have hnone : s.shown 1 = fun _ => false := rfl
  rw [State.bringUpStops_status, statusOf_eq, hnone]
  simp

theorem State.bringUpTo_status (s : State) (step : Nat) (b : BringUp) :
    (s.bringUpTo step b).pkg.status = statusOf step ((List.range 4).filter (s.shown step)) false false :=
  congrArg (statusOf step · false false) (s.filter_shown step)

/-- The step that begins is named, nothing has failed, the device is not ready, and power-good's turn is to come again. -/
theorem State.bringUpTo_runs (s : State) {step : Nat} (hstep : step < 256) (b : BringUp) :
    let t := s.bringUpTo step b
    t.pkg.status.extractLsb' 0 8 = BitVec.ofNat 8 step ∧ t.ready = false ∧ t.pkg.status[30] = false ∧
      Turn.hw (.powerGood b) ∈ t.agenda ++ t.later := by
  intro t
  obtain ⟨hfailed, hready, -⟩ := statusOf_bits hstep (s.shown step) false false
  have hstatus : t.pkg.status = _ := s.bringUpTo_status step b
  refine ⟨?_, ?_, ?_, List.mem_append_right _ (List.mem_append_right _ List.mem_cons_self)⟩
  · rw [hstatus, statusOf_step]
  · rw [State.ready, hstatus, hready]
  · rw [hstatus, hfailed]

theorem State.bringUpTo_dies (s : State) {step d : Nat} (hstep : step < 256) (b : BringUp) (hd : d < 4) :
    (s.bringUpTo step b).pkg.status[16 + d]! = (decide (4 ≤ step) && !s.pkg.deadDies.contains d) := by
  rw [s.bringUpTo_status]
  exact (statusOf_bits hstep _ _ _).2.2 d hd

theorem State.bringUpTo_retireHeld (s : State) (step : Nat) (b : BringUp) : (s.bringUpTo step b).pkg.retireHeld = s.pkg.retireHeld := rfl
theorem State.bringUpTo_cmd (s : State) (step : Nat) (b : BringUp) : (s.bringUpTo step b).cmd = s.cmd := rfl

theorem State.bringUp_deadDies (s : State) (b : BringUp) (step : Nat) : (s.bringUp b step).pkg.deadDies =
    if step = 3 then ((b.badStacks.map (· / 2)) ++ b.badFabric ++ b.badDies).eraseDups else s.pkg.deadDies := by
  unfold State.bringUp
  split
  · rfl
  · rfl
  · rfl
  · dsimp only
    rw [State.modCmd_pkg, State.modPkg_pkg]
    rfl
  · next h _ _ _ => rw [if_neg h]

/-- Pages that are retired are those that were and the listed ones. -/
theorem State.mem_retireAll {s : State} {pages : List Nat} {g : Nat} :
    g ∈ (s.retireAll pages).pkg.retireList ↔ g ∈ s.pkg.retireList ∨ g ∈ pages := by
  simp only [State.retireAll, State.modPkg_pkg, List.mem_append, List.mem_eraseDups, List.mem_filter, Bool.not_eq_true', List.contains_eq_mem,
    decide_eq_false_iff_not]
  tauto

theorem State.bringUp_retireList (s : State) (b : BringUp) (step g : Nat) : g ∈ (s.bringUp b step).pkg.retireList ↔
    g ∈ s.pkg.retireList ∨ (step = 4 ∧ g ∈ s.pkg.retireHeld) := by
  unfold State.bringUp
  split
  · exact (or_iff_left fun h => by omega).symm
  · exact State.mem_retireAll.trans (or_congr_right (and_iff_right rfl).symm)
  · exact (or_iff_left fun h => by omega).symm
  · dsimp only
    rw [State.modCmd_pkg, State.modPkg_pkg]
    exact (or_iff_left fun h => by omega).symm
  · next h _ _ => exact (or_iff_left fun hg => h hg.1).symm

theorem State.bringUp_six_status (s : State) (b : BringUp) : (s.bringUp b 6).pkg.status = statusOf 6 s.dies false true := by
  rw [State.bringUp, State.modCmd_pkg, State.modPkg_pkg]

theorem State.bringUp_six_ports (s : State) (b : BringUp) :
    (s.bringUp b 6).pkg.ports = (List.range 16).map fun i => { Port.reset with up := !b.badPorts.contains i } := by
  rw [State.bringUp, State.modCmd_pkg, State.modPkg_pkg]

theorem State.bringUp_six_master (s : State) (b : BringUp) : (s.bringUp b 6).cmd.master = !s.pkg.deadDies.isEmpty := by
  rw [State.bringUp, State.modCmd_cmd, State.modPkg_pkg]

/-- The device is ready, and its status register shows the dies in service. -/
theorem State.bringUp_six_ready (s : State) (b : BringUp) :
    let t := s.bringUp b 6
    t.ready = true ∧ t.pkg.status.extractLsb' 0 8 = 6 ∧ ∀ d < 4, t.pkg.status[16 + d]! = !s.pkg.deadDies.contains d := by
  intro t
  obtain ⟨-, hready, hdies⟩ := statusOf_bits (step := 6) (by omega) (fun d => !s.pkg.deadDies.contains d) false true
  have hstatus : t.pkg.status = _ := s.bringUp_six_status b
  rw [State.ready, hstatus]
  exact ⟨hready, statusOf_step .., hdies⟩

theorem State.bringUp_six_port (s : State) (b : BringUp) {i : Nat} (hi : i < 16) :
    ((s.bringUp b 6).pkg.ports.getD i Port.reset).up = !b.badPorts.contains i := by
  rw [State.bringUp_six_ports, List.getD_eq_getElem _ _ (by simpa using hi), List.getElem_map, List.getElem_range]

section
variable {s : State} (hpower : s.pkg.powered = true) (hready : s.ready = false) (hfailed : s.pkg.status[30] = false) (b : BringUp)
include hpower hready hfailed

/-- Power-good's turn goes on where the device is powered, and neither ready nor failed. -/
theorem bringUp_guard : ¬(!s.pkg.powered || s.ready || s.pkg.status[30]) = true := by
  rw [hpower, hready, hfailed]
  exact Bool.false_ne_true

theorem exec_powerGood_begins (hstep : s.pkg.status.toNat % 16 = 0) : exec (.powerGood b) s = .next (s.bringUpTo 1 b) :=
  congrArg Host.Outcome.next ((if_neg (bringUp_guard hpower hready hfailed)).trans (if_pos hstep))

theorem exec_powerGood_checks (hstep : s.pkg.status.toNat % 16 = 1) : exec (.powerGood b) s =
    .next (if !b.keyOk then s.bringUpStops 1 2 else if !b.sigOk then s.bringUpStops 1 1 else s.bringUpTo 2 b) :=
  congrArg Host.Outcome.next ((if_neg (bringUp_guard hpower hready hfailed)).trans ((if_neg (by omega)).trans (if_pos hstep)))

/-- A later step is done, or stops where Rililo itself fails. -/
theorem exec_powerGood_later (hstep : 2 ≤ s.pkg.status.toNat % 16) :
    let step := s.pkg.status.toNat % 16
    let u := s.drawNat.2
    exec (.powerGood b) s = .next (if b.internal && (step ≥ 6 || s.drawNat.1 % 2 == 1) then u.bringUpStops step 7
      else if step ≥ 6 then u.bringUp b step else (u.bringUp b step).bringUpTo (step + 1) b) :=
  congrArg Host.Outcome.next ((if_neg (bringUp_guard hpower hready hfailed)).trans ((if_neg (by omega)).trans (if_neg (by omega))))

end

end Sys2Proof.Machine

namespace Sys2Proof.Claims
open Machine

/-- The clock runs at another frequency; what is left of each core's fade tick takes as long as before (R175, R382). -/
def clockAt (s : State) (mhz : Nat) : State := (s.modPkg fun p => { p with mhz := mhz }).scaleTicks s.pkg.mhz mhz

theorem exec_thermalThrottle (s : State) (milliC watts : Nat) : exec (.thermalThrottle milliC watts) s =
    .next (clockAt s (if milliC ≥ 100000 || watts + powerMargin ≥ 3200 then max 1800 (s.pkg.mhz - 100) else min 3600 (s.pkg.mhz + 100))) := by
  rw [show exec (.thermalThrottle milliC watts) s = execThermalThrottle milliC watts s from rfl, execThermalThrottle]
  dsimp only
  rw [State.modPkg_pkg]
  rfl

theorem exec_powerWake {s : State} (h : s.pkg.asleep = false) (r : PowerRes) : exec (.powerWake r) s =
    .next (match r with | .core n => s.wakeCore n | .cluster n => s.wakeCluster n | .die n => s.wakeDie n) :=
  congrArg Host.Outcome.next (if_neg (by rw [h]; exact Bool.false_ne_true))

theorem powerStatesComplete : PowerStatesComplete := by
  intro s
  refine ⟨fun core hcore hpower hidle hquiet htol => ?_, fun cl hmay => ?_, fun die hdie hcores htol hcopies hhomes => ?_,
    fun hdies hcopies hcolls htiles hstreams hreq htol => ?_, fun hawake => ?_, s.wakeDie_power, fun n hn => State.wakeCore_awake hn, rfl,
    ⟨fun milliC watts h => ?_, fun milliC watts hcool hlow => ?_⟩, fun milliC h => ?_⟩
  · refine congrArg Host.Outcome.next (if_pos ?_)
    simp only [Bool.and_eq_true, decide_eq_true_eq, beq_iff_eq]
    exact ⟨⟨⟨⟨hcore, hpower⟩, hidle⟩, hquiet⟩, htol⟩
  · exact congrArg Host.Outcome.next (if_neg (by rw [hmay]; exact Bool.false_ne_true))
  · refine congrArg Host.Outcome.next (if_pos ?_)
    simp only [Bool.and_eq_true, decide_eq_true_eq, beq_iff_eq, List.all_eq_true, List.mem_range, Bool.not_eq_true', List.any_eq_false]
    refine ⟨⟨⟨⟨hdie, hcores⟩, htol⟩, fun o ho h => ?_⟩, fun e he h => ?_⟩
    · rw [hcopies o ho h.1] at h
      cases h.2
    · rw [hhomes e he h.1] at h
      cases h.2
  · refine congrArg Host.Outcome.next (if_pos ?_)
    simp only [Bool.and_eq_true, beq_iff_eq, List.all_eq_true, List.mem_range, List.isEmpty_iff, Bool.or_eq_true, List.contains_iff_mem]
    exact ⟨⟨⟨⟨⟨⟨hdies, hcopies⟩, hcolls⟩, htiles⟩, hstreams⟩, hreq⟩, htol⟩
  · exact ⟨fun n => exec_powerWake hawake (.core n), fun n => exec_powerWake hawake (.cluster n), fun n => exec_powerWake hawake (.die n)⟩
  · exact (exec_thermalThrottle ..).trans (congrArg (fun m => Host.Outcome.next (clockAt s m)) (if_pos (by simpa using h)))
  · exact (exec_thermalThrottle ..).trans (congrArg (fun m => Host.Outcome.next (clockAt s m)) (if_neg (by simp; omega)))
  · exact ⟨_, congrArg Host.Outcome.next (if_neg (by omega)), rfl, rfl, rfl, rfl, rfl⟩

theorem bringUpCompletes : BringUpCompletes := by
  intro s b hpower hready hfailed step runs
  have hlater := exec_powerGood_later hpower hready hfailed b
  refine ⟨fun h => ⟨_, exec_powerGood_begins hpower hready hfailed b h, s.bringUpTo_runs (by omega) b⟩, fun h => ?_, fun h2 h6 hint => ?_,
    fun h6 hint => ?_, fun h6 hint => ?_⟩
  · have hchecks := exec_powerGood_checks hpower hready hfailed b h
    refine ⟨fun hkey => ?_, fun hkey hsig => ?_, fun hkey hsig => ?_⟩
    · rw [hchecks, hkey]
      exact ⟨_, rfl, s.bringUpStops_first 2⟩
    · rw [hchecks, hkey, hsig]
      exact ⟨_, rfl, s.bringUpStops_first 1⟩
    · rw [hchecks, hkey, hsig]
      exact ⟨_, rfl, s.bringUpTo_runs (by omega) b⟩
  · let u := s.drawNat.2.bringUp b step
    have hexec : exec (.powerGood b) s = .next (u.bringUpTo (step + 1) b) := by
      rw [hlater h2, hint, Bool.false_and, if_neg Bool.false_ne_true, if_neg (by omega)]
    refine ⟨_, hexec, u.bringUpTo_runs (by omega) b, ?_, ?_, fun d hd => ?_, fun g => ?_, fun h4 => ?_, fun h5 => ?_⟩
    · rw [State.bringUpTo_mem, State.bringUp_mem, State.drawNat_mem]
    · exact State.bringUp_deadDies s.drawNat.2 b step
    · refine (u.bringUpTo_dies (by omega) b hd).trans (congrArg (· && !u.pkg.deadDies.contains d) (decide_eq_decide.2 ?_))
      omega
    · exact State.bringUp_retireList s.drawNat.2 b step g
    · rw [State.bringUpTo_retireHeld, show u = s.drawNat.2.bringUp b 4 by rw [← h4]]
      rfl
    · rw [State.bringUpTo_cmd, show u = s.drawNat.2.bringUp b 5 by rw [← h5]]
      rfl
  · let u := s.drawNat.2.bringUp b 6
    have hexec : exec (.powerGood b) s = .next u := by
      rw [hlater (by omega), hint, Bool.false_and, if_neg Bool.false_ne_true, if_pos (by omega), show s.pkg.status.toNat % 16 = 6 from h6]
    obtain ⟨hready, hstep, hdies⟩ := State.bringUp_six_ready s.drawNat.2 b
    exact ⟨u, hexec, hready, hstep, hdies, State.bringUp_deadDies .., State.bringUp_six_master .., fun i hi => State.bringUp_six_port _ b hi,
      State.bringUp_mem ..⟩
  · have hexec : exec (.powerGood b) s = .next (s.drawNat.2.bringUpStops 6 7) := by
      rw [hlater (by omega), hint, if_pos (by simp; omega), show s.pkg.status.toNat % 16 = 6 from h6]
    obtain ⟨hfailed, hready, -⟩ := statusOf_bits (step := 6) (by omega) (State.shown s.drawNat.2 6) true false
    have hstatus := State.bringUpStops_status s.drawNat.2 6 7
    refine ⟨_, hexec, ?_, ?_, rfl, ?_⟩
    · rw [State.ready, hstatus, hready]
    · rw [hstatus, hfailed]
    · exact (congrArg (BitVec.extractLsb' 0 8) hstatus).trans (statusOf_step ..)

/-- Settles O56: each event of power finds its conditions met and makes its one change; each step of bring-up does its own and shows the next. -/
theorem powerStepsComplete : Obligations.PowerStepsComplete := ⟨powerStatesComplete, bringUpCompletes⟩

end Sys2Proof.Claims
end

section
/-! SUPPORT. The steps of a collective, and the statement about them, settled. -/

namespace Sys2Proof.Machine

/-! ### Operations found by their numbers -/

/-- A change of the entries of a number is a change of what is found under it. -/
theorem find?_changed {α : Type} (num : α → Nat) (id : Nat) {f : α → α} (hf : ∀ o, num (f o) = num o) (l : List α) :
    (l.map fun o => if num o = id then f o else o).find? (num · == id) = (l.find? (num · == id)).map f := by
  induction l with
  | nil => rfl
  | cons o l ih =>
    by_cases h : num o = id
    · simp [h, hf]
    · simpa [h] using ih

/-- Nothing is found under a number whose entries are taken out. -/
theorem find?_taken {α : Type} (num : α → Nat) (id : Nat) (l : List α) : (l.filter (num · != id)).find? (num · == id) = none := by
  simp

theorem State.modColl_collOp {s : State} {id : Nat} {o : CollOp} (h : s.collOp id = some o) {f : CollOp → CollOp} (hf : ∀ o, (f o).id = o.id) :
    (s.modColl id f).collOp id = some (f o) := (find?_changed CollOp.id id hf s.eng.collOps).trans (congrArg (Option.map f) h)

/-! ### What is sent to the other ranks -/

theorem State.foldl_eng {α : Type} {f : State → α → State} (h : ∀ s a, (f s a).eng = s.eng) (s : State) (l : List α) :
    (l.foldl f s).eng = s.eng := by
  induction l generalizing s with
  | nil => rfl
  | cons a l ih => exact (ih _).trans (h s a)

/-- Flits leave by the ports of the package. -/
theorem State.sendColl_eng (s : State) (o : CollOp) (k : Comm) (to' rank : Nat) (vals : List Dword) :
    (s.sendColl o k to' rank vals).eng = s.eng := by
  unfold State.sendColl
  split
  · rfl
  · exact State.foldl_eng (f := fun u i => u.sendFlit _ _ _) (fun _ _ => rfl) s _

theorem State.sendRanks_eng (s : State) (o : CollOp) (k : Comm) (rank : Nat) (vals : Nat → List Dword) :
    (s.sendRanks o k rank vals).eng = s.eng :=
  State.foldl_eng (fun s j => by split; exacts [rfl, s.sendColl_eng o k j rank _]) s _

theorem State.sendRanks_collOp (s : State) (o : CollOp) (k : Comm) (rank : Nat) (vals : Nat → List Dword) (id : Nat) :
    (s.sendRanks o k rank vals).collOp id = s.collOp id := by
  rw [State.collOp, State.sendRanks_eng, State.collOp]

end Sys2Proof.Machine

namespace Sys2Proof.Claims
open Machine

theorem collectiveStepsComplete : CollectiveStepsComplete := by
  intro s o k hop hturn hwaiting hasked hcomm
  have hexec : exec (.collectiveStep o.id) s = execCollectiveStep o.id s := rfl
  refine ⟨fun hstarted hcheck => ?_, fun cause va hstarted hcheck => ?_, fun hstarted hlost hdiffers hfits => ⟨fun hown hgives => ?_, ?_⟩⟩
  · refine ⟨s.modColl o.id fun p => { p with started := true }, ?_, State.modColl_collOp hop fun _ => rfl, rfl⟩
    simp [hexec, execCollectiveStep, hop, hturn, hwaiting, hasked, hcomm, hstarted, hcheck]
  · simp [hexec, execCollectiveStep, hop, hturn, hwaiting, hasked, hcomm, hstarted, hcheck, State.faultColl]
  all_goals have hfits : (o.got.any fun e => decide (e.2.length > o.expects k e.1)) = false := by simpa using hfits
  · simp [hexec, execCollectiveStep, hop, hturn, hwaiting, hasked, hcomm, hstarted, hlost, hdiffers, hfits, hown, hgives]
  · intro v w hown hready hlen
    dsimp only
    intro hkeys hmet hwritten
    have hown : ((o.got.find k.rank).isNone && (o.givers k).contains k.rank) = false := by
      rcases hown with h | h
      · simp [Option.isSome_iff_ne_none.1 h]
      · simp [h]
    have hkeys : ((((o.bytes k).drop (4096 * o.prog)).take 4096).any fun b => b.1.isNone) = false := by
      simpa only [List.any_eq_false, Bool.not_eq_true, Option.isNone_eq_false_iff] using hkeys
    simp only [hexec, execCollectiveStep, hop, hturn, hwaiting, hasked, hcomm, hstarted, hlost, hdiffers, hfits, hown, hready, hkeys, hmet, hwritten,
      not_le.2 hlen, ge_iff_le, Bool.and_eq_true, Bool.not_eq_true', decide_eq_true_eq, Option.isNone_iff_eq_none, and_assoc]
    rfl

/-- The sums of the group of the rank whose contribution is added (R298). -/
def groupSums (o : CollOp) (k : Comm) (vals : List Dword) : List Nat :=
  let xs := vals.map fun v => asF32 (TEntry.of o.es).format v.toNat
  if o.added % k.m = 0 then xs else (o.groupAcc.zip xs).map fun p => addF32 p.1 p.2

/-- The sums of the complete groups, once it is added (R298). -/
def totalSums (o : CollOp) (k : Comm) (vals : List Dword) : List Nat :=
  if o.added % k.m ≠ k.m - 1 then o.total else if o.added / k.m = 0 then groupSums o k vals
    else (o.total.zip (groupSums o k vals)).map fun p => addF32 p.1 p.2

/-- The elements that those sums are rounded to (R298). -/
def roundedSums (o : CollOp) (k : Comm) (vals : List Dword) : List Dword :=
  (totalSums o k vals).map fun v => BitVec.ofNat 64 (fromF32 (TEntry.of o.es).format v)

/-- An operation once its next contribution is added (R298). -/
def withAdded (o : CollOp) (k : Comm) (vals : List Dword) (p : CollOp) : CollOp :=
  { p with
    added := p.added + 1
    groupAcc := groupSums o k vals
    total := totalSums o k vals
    got := if o.added + 1 = k.n then p.got.insert (k.n + k.rank) (roundedSums o k vals) else p.got }

/-- A whole contribution is added; the last sum of an ALLRED goes to the other ranks (R297, R298). -/
theorem collectiveReduce_adds {s : State} {o : CollOp} {k : Comm} {vals : List Dword} (hop : s.collOp o.id = some o) (hcomm : s.commOf o = some k)
    (hkind : o.op = 0 ∨ o.op = 1) (hstarted : o.started = true) (hadded : o.added < k.n) (hgot : o.got.find o.added = some vals)
    (hlen : vals.length = o.expects k o.added) :
    let t := s.modColl o.id (withAdded o k vals)
    exec (.collectiveReduce o.id) s = .next
      (if o.added + 1 = k.n ∧ o.op = 0 then t.sendRanks o k (k.n + k.rank) fun _ => roundedSums o k vals else t) := by
  have hvals : o.got.get [] o.added = vals := Map.get_of_find hgot
  have hruns : (decide (o.op.toNat ≥ 2) || !o.started || decide (o.added ≥ k.n)) = false := by
    rcases hkind with h | h <;> simp [h, hstarted, hadded]
  have hfits : ¬vals.length > o.expects k o.added := by omega
  have hwhole : (!o.whole k o.added) = false := by simp [CollOp.whole, hvals, hlen]
  rw [show exec (.collectiveReduce o.id) s = execCollectiveReduce o.id s from rfl, execCollectiveReduce]
  simp only [hop, hcomm, hruns, hvals, if_neg hfits, hwhole, Bool.false_eq_true, if_false, Bool.and_eq_true, beq_iff_eq,
    Bool.not_eq_true', beq_eq_false_iff_ne]
  rfl

theorem collectiveReductionCompletes : CollectiveReductionCompletes := by
  intro s o k vals hop hcomm hkind hstarted hadded hgot hlen
  dsimp only
  have hfound : (s.modColl o.id (withAdded o k vals)).collOp o.id = some (withAdded o k vals o) := State.modColl_collOp hop fun _ => rfl
  refine ⟨_, withAdded o k vals o, collectiveReduce_adds hop hcomm hkind hstarted hadded hgot hlen, ?_, rfl, rfl, rfl, fun h => ?_, fun h => ?_, ?_⟩
  · split
    · rw [State.sendRanks_collOp, hfound]
    · exact hfound
  · rw [withAdded, if_pos h, Map.find_insert_self]
    rfl
  · rw [withAdded, if_neg h]
  · split <;> simp

/-- Settles O40: each step of a collective is one branch of its turn, and a reduction adds one whole contribution to two sums. -/
theorem collectivesComplete : Obligations.CollectivesComplete := ⟨collectiveStepsComplete, collectiveReductionCompletes⟩

end Sys2Proof.Claims
end

section
/-! SUPPORT. MWAIT, MRD, MWR and TDESC, and the statement about them, settled. -/

namespace Sys2Proof.Claims
open Machine

/-- An instruction on tiles that no pending operation names has its effect. -/
theorem tileAccess_completes {s : State} {c : Cohort} {x : Mat} {i : Instr} (f : Cohort → State → List Lane → State)
    (he : exec i s = onCohort s fun c s => if s.tileBusy c.crew (matTiles x) then s.hold c.id else s.issue c i x.pred x.stall (f c))
    (hi : Issues s c) (hidle : s.tileBusy c.crew (matTiles x) = false) (hp : Passes s c i x.pred) :
    exec i s = .next (finished s (f c (begun s) (s.execLanes c x.pred)) c i x.pred x.stall) := by
  have hidle : ¬(begun s).tileBusy c.crew (matTiles x) = true := ne_true_of_eq_false hidle
  rw [he, onCohort_next hi, if_neg hidle, issue_passes hp]

theorem tileAccessInstructionsComplete : TileAccessInstructionsComplete := by
  intro s c x hi hidle row col
  exact ⟨fun hp => tileAccess_completes _ rfl hi hidle hp, fun hp => tileAccess_completes _ rfl hi hidle hp,
    fun hp => tileAccess_completes _ rfl hi hidle hp⟩

theorem descriptorStoreCompletes : DescriptorStoreCompletes := by
  intro s u v w y c x low rest va key unit pte bs hi hready hp hlanes hva hbytes hreach hlocal hmerge
  have hdevice : ¬(decide (key ≥ peerKey) && !w.peerOk key) = true := fun h => by
    simp [State.remoteKey, (Bool.and_eq_true_iff.1 h).1] at hlocal
  rw [show exec (.tdesc x) s = execTdesc x s from rfl, execTdesc, onCohort_next hi]
  simp only [hready]
  rw [issue_of_passes hp]
  simp only [hlanes, hva, hbytes, hreach, if_neg hdevice, hlocal, hmerge]
  rfl

/-- Settles O35: the accesses are one issue on tiles that are free, and TDESC is one store whose translation goes on. -/
theorem tileAccessesComplete : Obligations.TileAccessesComplete := ⟨tileAccessInstructionsComplete, descriptorStoreCompletes⟩

end Sys2Proof.Claims
end

section
/-! SUPPORT. The words of a tile under the writes of an operation's elements. -/

namespace Sys2Proof.Machine

theorem tileKey_inj {c n i j c' n' i' j' : Nat} (hn : n < 16) (hi : i < 64) (hj : j < 64) (hn' : n' < 16) (hi' : i' < 64) (hj' : j' < 64) :
    tileKey c n i j = tileKey c' n' i' j' ↔ c = c' ∧ n = n' ∧ i = i' ∧ j = j' := by
  unfold tileKey; omega

theorem State.getTile_setTile (s : State) {c n i j c' n' i' j' : Nat} (w : Word) (hn : n < 16) (hi : i < 64) (hj : j < 64) (hn' : n' < 16)
    (hi' : i' < 64) (hj' : j' < 64) :
    (s.setTile c n i j w).getTile c' n' i' j' = if c' = c ∧ n' = n ∧ i' = i ∧ j' = j then w else s.getTile c' n' i' j' := by
  split_ifs with h
  · obtain ⟨rfl, rfl, rfl, rfl⟩ := h
    exact Map.get_set_self ..
  · exact Map.get_set_ne _ _ _ (mt (tileKey_inj hn' hi' hj' hn hi hj).1 h)

/-- The tiles of an operation are among the 16 of its crew (R195). -/
def TileOp.fits (o : TileOp) : Prop := o.tile < 15 ∨ (o.tile = 15 ∧ o.pair = false)

/-- The word that an element of an operation puts into a tile of a crew, if any (R212, R215). -/
def TileOp.wordIn (o : TileOp) (crew n v : Nat) : Option Word :=
  if crew = o.crew ∧ n = o.tile then some (BitVec.ofNat 32 v)
  else if o.pair = true ∧ crew = o.crew ∧ n = o.tile + 1 then some (BitVec.ofNat 32 (v / 2 ^ 32))
  else none

theorem TileOp.wordIn_tile (o : TileOp) (v : Nat) : o.wordIn o.crew o.tile v = some (BitVec.ofNat 32 v) := if_pos ⟨rfl, rfl⟩

theorem TileOp.wordIn_partner {o : TileOp} (h : o.pair = true) (v : Nat) :
    o.wordIn o.crew (o.tile + 1) v = some (BitVec.ofNat 32 (v / 2 ^ 32)) := by
  rw [TileOp.wordIn, if_neg (by omega), if_pos ⟨h, rfl, rfl⟩]

theorem TileOp.wordIn_other {o : TileOp} {crew n : Nat} (h : ¬(crew = o.crew ∧ (n = o.tile ∨ (o.pair = true ∧ n = o.tile + 1)))) (v : Nat) :
    o.wordIn crew n v = none := by
  rw [TileOp.wordIn, if_neg (by tauto), if_neg (by tauto)]

theorem State.putElem_getTile (s : State) {o : TileOp} {i j crew n i' j' : Nat} (v : Nat) (ho : o.fits) (hi : i < 64) (hj : j < 64) (hn' : n < 16)
    (hi' : i' < 64) (hj' : j' < 64) : (s.putElem o i j v).getTile crew n i' j' =
      if i' = i ∧ j' = j then (o.wordIn crew n v).getD (s.getTile crew n i' j') else s.getTile crew n i' j' := by
  unfold State.putElem TileOp.wordIn TileOp.fits at *
  dsimp only
  split
  · rw [State.getTile_setTile _ _ (by simp_all; omega) hi hj hn' hi' hj', State.getTile_setTile _ _ (by omega) hi hj hn' hi' hj']
    grind
  · rw [State.getTile_setTile _ _ (by omega) hi hj hn' hi' hj']
    grind

/-- Elements of an operation are written one after another. -/
def State.putElems (s : State) (o : TileOp) (v : Nat → Nat → Nat) (cells : List (Nat × Nat)) : State :=
  cells.foldl (fun s e => s.putElem o e.1 e.2 (v e.1 e.2)) s

theorem State.putElems_getTile (s : State) {o : TileOp} {v : Nat → Nat → Nat} {cells : List (Nat × Nat)} {crew n i j : Nat} (ho : o.fits)
    (hcells : ∀ e ∈ cells, e.1 < 64 ∧ e.2 < 64) (hn : n < 16) (hi : i < 64) (hj : j < 64) : (s.putElems o v cells).getTile crew n i j =
      if (i, j) ∈ cells then (o.wordIn crew n (v i j)).getD (s.getTile crew n i j) else s.getTile crew n i j := by
  induction cells generalizing s with
  | nil => rfl
  | cons e cells ih =>
    obtain ⟨a, b⟩ := e
    obtain ⟨ha, hb⟩ := hcells (a, b) List.mem_cons_self
    rw [State.putElems, List.foldl_cons, ← State.putElems, ih _ fun e he => hcells e (List.mem_cons_of_mem _ he),
      State.putElem_getTile s _ ho ha hb hn hi hj]
    by_cases h : i = a ∧ j = b
    · obtain ⟨rfl, rfl⟩ := h
      cases o.wordIn crew n (v i j) <;> simp
    · simp [h]

theorem State.putElem_rest (s : State) (o : TileOp) (i j v : Nat) : ∃ m, s.putElem o i j v = { s with tiles := m } := by
  unfold State.putElem
  dsimp only
  split <;> exact ⟨_, rfl⟩

/-- Only the words of tiles change. -/
theorem State.putElems_rest (s : State) (o : TileOp) (v : Nat → Nat → Nat) (cells : List (Nat × Nat)) :
    ∃ m, s.putElems o v cells = { s with tiles := m } := by
  induction cells generalizing s with
  | nil => exact ⟨s.tiles, rfl⟩
  | cons e cells ih =>
    obtain ⟨m, hm⟩ := s.putElem_rest o e.1 e.2 (v e.1 e.2)
    obtain ⟨m', hm'⟩ := ih (s.putElem o e.1 e.2 (v e.1 e.2))
    exact ⟨m', hm'.trans (by rw [hm])⟩

end Sys2Proof.Machine
end

section
/-! SUPPORT. The steps of a tile operation: its start, its fetches and its completion; the statement about them, settled. -/

namespace Sys2Proof.Machine

/-! ### The queue -/

theorem State.modTileOp_tileOp {s : State} {id : Nat} {o : TileOp} (h : s.tileOp id = some o) {f : TileOp → TileOp} (hf : ∀ o, (f o).id = o.id) :
    (s.modTileOp id f).tileOp id = some (f o) := (find?_changed TileOp.id id hf s.eng.tileOps).trans (congrArg (Option.map f) h)

theorem State.finishTile_tileOp (s : State) (o : TileOp) : (s.finishTile o).tileOp o.id = none := find?_taken TileOp.id o.id s.eng.tileOps

@[simp] theorem State.modTileOp_getTile (s : State) (id : Nat) (f : TileOp → TileOp) (c n i j : Nat) :
    (s.modTileOp id f).getTile c n i j = s.getTile c n i j := rfl

@[simp] theorem State.unpin_getTile (s : State) (o : TileOp) (c n i j : Nat) : (s.unpin o).getTile c n i j = s.getTile c n i j := rfl

@[simp] theorem State.modEng_getTile (s : State) (f : Engines → Engines) (c n i j : Nat) : (s.modEng f).getTile c n i j = s.getTile c n i j := rfl

/-! ### Rows and lines -/

/-- The elements that an MLD makes of an operation's bytes (R215). -/
def State.loaded (s : State) (o : TileOp) (ta : Bool) (i j : Nat) : Nat :=
  loadElem (TEntry.of o.ea) (s.fetchedOf o.id) (o.posT ta i j).1 (o.posT ta i j).2

/-- The cells of a row of a tile. -/
def rowCells (i : Nat) : List (Nat × Nat) := (List.range 64).map fun j => (i, j)

theorem mem_rowCells {a b i : Nat} : (a, b) ∈ rowCells i ↔ a = i ∧ b < 64 := by
  simp [rowCells, eq_comm, and_comm]

theorem State.loadRow_eq (s : State) (o : TileOp) (ta : Bool) : s.loadRow o ta =
    ((s.putElems o (s.loaded o ta) (rowCells o.prog)).unpin o).modTileOp o.id fun o => { o with prog := o.prog + 1 } := by
  rw [State.putElems, rowCells, List.foldl_map]
  rfl

/-- A row of an MLD is converted element by element, and counted (R215). -/
theorem State.loadRow_loads {s : State} {o : TileOp} (hop : s.tileOp o.id = some o) (ho : o.fits) (hrow : o.prog < 64) (ta : Bool) :
    (s.loadRow o ta).tileOp o.id = some { o with prog := o.prog + 1 } ∧
      ∀ j, j < 64 → (s.loadRow o ta).getTile o.crew o.tile o.prog j = BitVec.ofNat 32 (s.loaded o ta o.prog j) := by
  have htile : o.tile < 16 := by unfold TileOp.fits at ho; omega
  rw [s.loadRow_eq]
  refine ⟨State.modTileOp_tileOp ?_ fun _ => rfl, fun j hj => ?_⟩
  · obtain ⟨m, hm⟩ := s.putElems_rest o (s.loaded o ta) (rowCells o.prog)
    rw [hm]
    exact hop
  · have hcells : ∀ e ∈ rowCells o.prog, e.1 < 64 ∧ e.2 < 64 := fun ⟨_, _⟩ he => ⟨(mem_rowCells.1 he).1 ▸ hrow, (mem_rowCells.1 he).2⟩
    rw [State.modTileOp_getTile, State.unpin_getTile, s.putElems_getTile ho hcells htile hrow hj,
      if_pos (mem_rowCells.2 ⟨rfl, hj⟩), TileOp.wordIn_tile, Option.getD_some]

/-- A line is pinned, and what is fetched stays (R206). -/
theorem State.pin_pins (s : State) (id line : Nat) :
    line ∈ ((s.pin id line).eng.opData.get OpData.none id).lines ∧ (s.pin id line).fetchedOf id = s.fetchedOf id := by
  simp [State.pin, State.fetchedOf, Map.get]

/-! ### Tiles of zeros -/

/-- A key that a filter by keys takes out is not found. -/
theorem Map.find_filter_key_out {α : Type} (m : Map α) (p : Nat → Bool) {k : Nat} (hk : p k = false) :
    Map.find (m.filter fun e => p e.1) k = none := by
  induction m with
  | nil => rfl
  | cons e m ih =>
    obtain ⟨j, v⟩ := e
    by_cases hj : j = k
    · subst hj
      simpa [hk] using ih
    · cases hp : p j <;> simp [hp, Map.find, hj, ih]

theorem State.zeroTiles_getTile (s : State) {o : TileOp} {n i j : Nat} (hn : n ∈ o.tiles) (hi : i < 64) (hj : j < 64) :
    (s.zeroTiles o).getTile o.crew n i j = 0 := by
  have hkey : (!o.tiles.any fun t => tileKey o.crew n i j / 4096 == 16 * o.crew + t) = false := by
    have : tileKey o.crew n i j / 4096 = 16 * o.crew + n := by unfold tileKey; omega
    rw [this, Bool.not_eq_false', List.any_eq_true]
    exact ⟨n, hn, beq_self_eq_true _⟩
  rw [State.getTile, State.zeroTiles, Map.get, Map.find_filter_key_out s.tiles (fun k => !o.tiles.any fun t => k / 4096 == 16 * o.crew + t) hkey,
    Option.getD_none]

end Sys2Proof.Machine

namespace Sys2Proof.Claims
open Machine

theorem tileOperationStarts : TileOperationStarts := by
  intro s core o hnext hop
  have hexec : exec (.matrixOpStart core) s = execMatrixOpStart core s := rfl
  refine ⟨fun hcheck => ?_, fun cause va hcheck => ?_⟩
  · refine ⟨{ s.modTileOp o.id (fun o => { o with started := true, turn := s.nextId }) with nextId := s.nextId + 1 }, _, ?_,
      State.modTileOp_tileOp hop fun _ => rfl, rfl, _, rfl⟩
    simp only [hexec, execMatrixOpStart, hnext, hcheck]
  · simp only [hexec, execMatrixOpStart, hnext, hcheck, State.faultTile]

theorem tileFetchAdvances : TileFetchAdvances := by
  intro s o hop hstarted hruns hprog hasked
  have hexec : exec (.tileFetch o.id) s = execTileFetch o.id s := rfl
  refine ⟨fun ta hkind hcome ho => ?_, fun k ks u hlack hold hfetch => ?_⟩
  · have hrow : o.prog < 64 := by simpa [TileOp.groups, hkind] using hprog
    obtain ⟨hcounted, hloaded⟩ := State.loadRow_loads hop ho hrow ta
    refine ⟨s.loadRow o ta, ?_, ⟨_, hcounted, rfl⟩, hloaded, s.loadRow_mem o ta⟩
    simp [hexec, execTileFetch, hop, hstarted, hruns, not_le.2 hprog, hasked, hcome, hkind]
  · obtain ⟨hpinned, hfetched⟩ := u.pin_pins o.id (k / 512)
    refine ⟨u.pin o.id (k / 512), ?_, hpinned, hfetched, u.pin_mem ..⟩
    simp [hexec, execTileFetch, hop, hstarted, hruns, not_le.2 hprog, hasked, hlack, State.lineWaits, hold, hfetch]

theorem tileOperationCompletes : TileOperationCompletes := by
  intro s o hop hstarted hruns hdone hwriting gone
  have hexec : exec (.tileOpComplete o.id) s = execTileOpComplete o.id s := rfl
  have leaves {t : State} (h : exec (.tileOpComplete o.id) s = .next (t.finishTile o)) : gone (t.finishTile o) := ⟨h, t.finishTile_tileOp o⟩
  refine ⟨fun hzero => ⟨(s.zeroTiles o).finishTile o, leaves ?_, fun n hn i j hi hj _ => s.zeroTiles_getTile hn hi hj, rfl⟩,
    fun hkept => ⟨s.finishTile o, leaves ?_, rfl, rfl⟩, fun ta sat u n hkind hprog hstored hanswered => ?_⟩
  · rcases hzero with hkind | ⟨k, sp, ta, tb, sat, hkind, hlen⟩
    · simp [hexec, execTileOpComplete, hop, hstarted, hruns, not_lt.2 hdone, hwriting, hkind]
    · simp [hexec, execTileOpComplete, hop, hstarted, hruns, not_lt.2 hdone, hwriting, hkind, hlen]
  · rcases hkept with ⟨ta, hkind⟩ | ⟨k, sp, ta, tb, ovw, sat, hkind, hkeeps⟩
    · simp [hexec, execTileOpComplete, hop, hstarted, hruns, not_lt.2 hdone, hwriting, hkind]
    · have hkeeps : (o.kl == 0 && ovw) = false := by rcases hkeeps with h | h <;> simp [h]
      rw [hexec, execTileOpComplete]
      simp [hop, hstarted, hruns, not_lt.2 hdone, hwriting, hkind, hkeeps, -Bool.and_eq_true]
  · simp [hexec, execTileOpComplete, hop, hstarted, hruns, not_lt.2 hdone, hwriting, hkind, not_le.2 hprog, hstored, hanswered]

/-- Settles O36: each step finds its operation as it must be, and a row's elements go to words of their own. -/
theorem tileStepsComplete : Obligations.TileStepsComplete := ⟨tileOperationStarts, tileFetchAdvances, tileOperationCompletes⟩

end Sys2Proof.Claims
end

section
/-! SUPPORT. A group of products and its check, and the statement about them, settled. -/

namespace Sys2Proof.Machine

/-- The cells of a tile, row by row. -/
def tileCells : List (Nat × Nat) := (List.range 64).flatMap rowCells

theorem tileCells_eq : tileCells = (List.range 64).flatMap fun i => (List.range 64).map fun j => (i, j) := rfl

theorem mem_tileCells {i j : Nat} : (i, j) ∈ tileCells ↔ i < 64 ∧ j < 64 := by
  simp [tileCells, mem_rowCells]

/-- Where no disturbance is to come a group's elements are as computed, and none diverges (R210). -/
theorem State.strikeElems_of_calm {s : State} (h : s.pkg.disturb = []) {wrong : Nat → Nat → Nat → Nat → Bool}
    (hw : ∀ i j v, wrong i j v v = false) (core w : Nat) (vals : List (Nat × Nat × Nat)) :
    s.strikeElems core w wrong vals = ((vals, false), s) := by
  induction vals with
  | nil => rfl
  | cons v vals ih =>
    obtain ⟨i, j, v⟩ := v
    simp [State.strikeElems, h, ih, hw]

/-- The elements of a group, in row order (R212, R213). -/
def State.groupVals (s : State) (o : TileOp) (k : MmaKind) (sparse ta tb ovw sat : Bool) : List (Nat × Nat × Nat) :=
  tileCells.map fun e => (e.1, e.2, s.groupElem o k sparse ta tb ovw sat e.1 e.2)

/-- A group whose bytes are there is written, or counts as diverging where an injection is armed (R210, R339). -/
theorem mmaGroup_computes {s : State} {o : TileOp} {k : MmaKind} {sparse ta tb ovw sat : Bool} (hop : s.tileOp o.id = some o)
    (hkind : o.kind = .mma k sparse ta tb ovw sat) (hstarted : o.started = true) (hruns : s.tileRuns o = true) (hprog : o.prog < o.groups)
    (hcome : s.missing o = []) (hcalm : s.pkg.disturb = []) :
    let t := (s.armedFp o.at'.core).foldl (fun (t : State) (y : Ctx) => t.disarm y.num) s
    exec (.mmaGroup o.id) s = .next (if (s.armedFp o.at'.core).isEmpty then s.writeGroup o (s.groupVals o k sparse ta tb ovw sat)
      else if o.retried then t.faultTile o .jewel 0 else t.modTileOp o.id fun p => { p with retried := true }) := by
  have hworks : (!o.started || !s.tileRuns o || decide (o.prog ≥ o.groups) || !(s.missing o).isEmpty) = false := by
    simp [hstarted, hruns, hprog, hcome]
  rw [show exec (.mmaGroup o.id) s = execMmaGroup o.id s from rfl, execMmaGroup, State.groupVals, tileCells_eq]
  intro t
  -- the checked elements keep their name, so that nothing evaluates the list of 4096
  simp -zeta only [hop, hkind, hworks]
  extract_lets cells vals F wrong
  rw [State.strikeElems_of_calm hcalm fun i j v => by simp [wrong]]
  cases h : s.armedFp o.at'.core with
  | nil => simp [vals, cells]
  | cons y ys => simp [h, t]

theorem State.writeGroup_eq (s : State) (o : TileOp) (v : Nat → Nat → Nat) (cells : List (Nat × Nat)) :
    s.writeGroup o (cells.map fun e => (e.1, e.2, v e.1 e.2)) =
      (((s.putElems o v cells).unpin o).modTileOp o.id fun o => { o with prog := o.prog + 1, retried := false }).modEng fun g =>
        { g with tileProg := g.tileProg.set 0 (16 * o.crew + o.tile) (o.prog + 1) } := by
  rw [State.writeGroup, List.foldl_map]
  rfl

/-- Writing a group counts it, and changes no register (R209). -/
theorem State.writeGroup_counts {s : State} {o : TileOp} (hop : s.tileOp o.id = some o) (v : Nat → Nat → Nat) (cells : List (Nat × Nat)) :
    let t := s.writeGroup o (cells.map fun e => (e.1, e.2, v e.1 e.2))
    t.tileOp o.id = some { o with prog := o.prog + 1, retried := false } ∧ t.vreg = s.vreg := by
  obtain ⟨m, hm⟩ := s.putElems_rest o v cells
  rw [s.writeGroup_eq, hm]
  exact ⟨State.modTileOp_tileOp (s := State.unpin { s with tiles := m } o) hop fun _ => rfl, rfl⟩

/-- The words of a tile once a group is written (R212). -/
theorem State.writeGroup_getTile (s : State) {o : TileOp} (ho : o.fits) (k : MmaKind) (sparse ta tb ovw sat : Bool) {crew n i j : Nat}
    (hn : n < 16) (hi : i < 64) (hj : j < 64) : (s.writeGroup o (s.groupVals o k sparse ta tb ovw sat)).getTile crew n i j =
      (o.wordIn crew n (s.groupElem o k sparse ta tb ovw sat i j)).getD (s.getTile crew n i j) := by
  rw [State.groupVals, s.writeGroup_eq, State.modEng_getTile, State.modTileOp_getTile, State.unpin_getTile,
    s.putElems_getTile ho (fun ⟨_, _⟩ he => mem_tileCells.1 he) hn hi hj, if_pos (mem_tileCells.2 ⟨hi, hj⟩)]

end Sys2Proof.Machine

namespace Sys2Proof.Claims
open Machine

theorem matrixGroupAccumulates : MatrixGroupAccumulates := by
  intro s o k sparse ta tb ovw sat hop hkind hstarted hruns hprog hcome hcalm harmed ho
  have hexec := mmaGroup_computes hop hkind hstarted hruns hprog hcome hcalm
  simp only [harmed, List.isEmpty_nil, if_true] at hexec
  have htiles {crew n i j : Nat} := s.writeGroup_getTile (crew := crew) (n := n) (i := i) (j := j) ho k sparse ta tb ovw sat
  obtain ⟨hcounted, hregs⟩ := State.writeGroup_counts hop (s.groupElem o k sparse ta tb ovw sat) tileCells
  refine ⟨_, hexec, fun i j hi hj => ⟨?_, fun hpair => ?_⟩, fun crew n i j hn hi hj hother => ?_, ⟨_, hcounted, rfl⟩, s.writeGroup_mem .., hregs⟩
  · rw [htiles (by omega) hi hj, TileOp.wordIn_tile, Option.getD_some]
  · rw [htiles (by simp [hpair] at ho; omega) hi hj, TileOp.wordIn_partner hpair, Option.getD_some]
  · rw [htiles hn hi hj, TileOp.wordIn_other hother, Option.getD_none]

theorem matrixGroupDivergenceRepeats : MatrixGroupDivergenceRepeats := by
  intro s o y ys k sparse ta tb ovw sat hop hkind hstarted hruns hprog hcome hcalm harmed u
  have hexec := mmaGroup_computes hop hkind hstarted hruns hprog hcome hcalm
  rw [harmed] at hexec
  exact ⟨fun hfirst => by simpa [hfirst] using hexec, fun hagain => by simpa [hagain] using hexec⟩

/-- Settles O37: the cells of a tile are written once each, and an armed injection makes the one check of the group fail. -/
theorem matrixGroupsAccumulate : Obligations.MatrixGroupsAccumulate := ⟨matrixGroupAccumulates, matrixGroupDivergenceRepeats⟩

end Sys2Proof.Claims
end

section
/-! SUPPORT. The steps of a copy and the completion words, and the statement about them, settled. -/

namespace Sys2Proof.Machine

/-- The first number whose value is listed gives what is found among the numbers below n. -/
theorem findSome?_range {α : Type} {f : Nat → Option α} {n i : Nat} {b : α} (hi : i < n) (hb : f i = some b) (hnone : ∀ j < i, f j = none) :
    (List.range n).findSome? f = some b := by
  obtain ⟨m, rfl⟩ := Nat.exists_eq_add_of_lt hi
  refine List.findSome?_eq_some_iff.2 ⟨List.range i, i, (List.range m).map (i + Nat.succ ·), ?_, hb, fun j hj => hnone j (List.mem_range.1 hj)⟩
  rw [Nat.add_assoc, List.range_add, List.range_succ_eq_map, List.map_cons, List.map_map]
  rfl

theorem State.modCopy_copyOp {s : State} {id : Nat} {o : CopyOp} (h : s.copyOp id = some o) {f : CopyOp → CopyOp} (hf : ∀ o, (f o).id = o.id) :
    (s.modCopy id f).copyOp id = some (f o) := (find?_changed CopyOp.id id hf s.eng.copyOps).trans (congrArg (Option.map f) h)

/-- A copy that faults leaves its engine, and its record is written next (R293, R315). -/
theorem State.faultCopy_reports (s : State) (o : CopyOp) (cause : Cause) (va : Nat) : (s.faultCopy o cause va).copyOp o.id = none ∧
    ∃ r, Turn.hw (.faultRecordWrite r) ∈ (s.faultCopy o cause va).agenda ∧ r.cause = cause :=
  ⟨find?_taken CopyOp.id o.id s.eng.copyOps, _, State.report_mem_agenda (s.dropCopy o.id) _, rfl⟩

end Sys2Proof.Machine

namespace Sys2Proof.Claims
open Machine

/-- The core whose queue an engine looks at i-th, from the next one in turn (R290). -/
def inTurn (s : State) (die i : Nat) : Nat := 72 * die + (s.eng.copyTurn.get 0 die + i) % 72

/-- The first waiting copy of the cores in turn, and its core's place in the turn. -/
def coreCopy (s : State) (die : Nat) : Option (Nat × CopyOp) :=
  (List.range 72).findSome? fun i => (s.eng.copyOps.find? fun p =>
    p.engine.isNone && p.at'.stream.isNone && p.at'.core == inTurn s die i && s.attrRuns p.at').map (i, ·)

/-- The first waiting copy of a stream's command for a die. -/
def streamCopy (s : State) (die : Nat) : Option CopyOp :=
  s.eng.copyOps.find? fun p => p.engine.isNone && p.at'.stream.isSome && p.die == die

/-- An engine with room takes the copy that it finds, or drops it with its fault (R290, R293). -/
theorem copyEngine_takes {s : State} {engine i : Nat} {o : CopyOp} (hroom : (s.eng.copyOps.filter fun p => p.engine == some engine).length < 4)
    (hop : s.copyOp o.id = some o) (hpick : (coreCopy s (engine / 8)).or ((streamCopy s (engine / 8)).map (71, ·)) = some (i, o)) :
    ∃ t, exec (.copyEngineTake engine) s = .next t ∧ (o.check = none → t.copyOp o.id = some { o with engine := some engine }) ∧
      ∀ cause va, o.check = some (cause, va) → t.copyOp o.id = none ∧ ∃ r, Turn.hw (.faultRecordWrite r) ∈ t.agenda ∧ r.cause = cause := by
  let u := s.modEng fun g => { g with copyTurn := g.copyTurn.insert (engine / 8) ((s.eng.copyTurn.get 0 (engine / 8) + i + 1) % 72) }
  have hexec : exec (.copyEngineTake engine) s = execCopyEngineTake engine s := rfl
  simp only [coreCopy, streamCopy, inTurn] at hpick
  cases hcheck : o.check with
  | none =>
    refine ⟨u.modCopy o.id fun o => { o with engine := some engine }, ?_, fun _ => State.modCopy_copyOp (s := u) hop fun _ => rfl, nofun⟩
    simp only [hexec, execCopyEngineTake, if_neg (not_le.2 hroom), hpick, hcheck]
    rfl
  | some f =>
    refine ⟨u.faultCopy o f.1 f.2, ?_, nofun, fun cause va h => ?_⟩
    · simp only [hexec, execCopyEngineTake, if_neg (not_le.2 hroom), hpick, hcheck]
      rfl
    · obtain rfl := Option.some.inj h
      exact u.faultCopy_reports o cause va

theorem copyEnginesTakeInTurn : CopyEnginesTakeInTurn := by
  intro s engine o hroom hop turn waits taken
  refine ⟨fun i hi hbefore hfound => ?_, fun hcores hfound => ?_⟩
  · have hpick : coreCopy s (engine / 8) = some (i, o) :=
      findSome?_range hi (congrArg (Option.map (i, ·)) hfound) fun j hj => congrArg (Option.map (j, ·)) (hbefore j hj)
    exact copyEngine_takes hroom hop (by rw [hpick, Option.some_or])
  · have hpick : coreCopy s (engine / 8) = none :=
      List.findSome?_eq_none_iff.2 fun j hj => congrArg (Option.map (j, ·)) (hcores j (List.mem_range.1 hj))
    exact copyEngine_takes hroom hop (by rw [hpick, Option.none_or]; exact congrArg (Option.map (71, ·)) hfound)

theorem copyChunkCompletes : CopyChunkCompletes := by
  intro s u v w o e hop hengine hwaiting hruns hasked hprog hkeys
  have hexec : exec (.copyChunk o.id) s = execCopyChunk o.id s := rfl
  refine ⟨fun hwriting => ?_, fun hwriting => ?_⟩
  · simp [hexec, execCopyChunk, hop, hengine, hwaiting, hruns, hasked, not_le.2 hprog, hwriting]
  · intro agent src dst hfetched d runs hmet hwritten y
    have hkeys : (o.chunk.any fun b => b.1.isNone || b.2.isNone) = false := by
      simpa only [List.any_eq_false, Bool.or_eq_true, not_or, Bool.not_eq_true, Option.isNone_eq_false_iff] using hkeys
    have hmoved : exec (.copyChunk o.id) s = .next (if o.total ≤ 4096 * (o.prog + 1) ∧ o.comp = none ∧ y.opWriting o.id = false
        then ((y.copyOp o.id).map y.finishCopy).getD y else y) := by
      subst agent src dst d runs
      simp only [hexec, execCopyChunk, hop, hengine, hwaiting, hruns, hasked, not_le.2 hprog, hwriting, hkeys, hfetched, hmet, hwritten,
        and_assoc, Bool.and_eq_true, decide_eq_true_eq, Option.isNone_iff_eq_none, Bool.not_eq_true', ge_iff_le]
      cases y.copyOp o.id <;> rfl
    refine ⟨fun hmore => ?_, fun p hlast hcomp hanswered hfound => ?_⟩
    · refine hmoved.trans (congrArg _ (if_neg fun ⟨hlast, hcomp, hanswered⟩ => ?_))
      rcases hmore with h | h | h
      · omega
      · exact h hcomp
      · exact Bool.false_ne_true (hanswered.symm.trans h)
    · rw [hmoved, if_pos ⟨hlast, hcomp, hanswered⟩, hfound]
      rfl

theorem completionWordCompletes : CompletionWordCompletes := by
  refine ⟨fun s u o w e hop hcomp hengine hdone hwaiting hwriting hruns hword hstored hanswered => ?_,
    fun s u o w k hnone hop hcomp hcomm hstarted hready hdone hwaiting hwriting hword hstored hanswered => ?_⟩
  · have hanswered : (u.modCopy o.id fun p => { p with word := false }).opWriting o.id = false := hanswered
    rw [show exec (.completionWordWrite o.id) s = execCompletionWordWrite o.id s from rfl, execCompletionWordWrite]
    simp [hop, hcomp, hengine, not_lt.2 hdone, hwaiting, hwriting, hruns, hword, hstored, hanswered]
  · have hanswered : (u.modColl o.id fun p => { p with word := false }).opWriting o.id = false := hanswered
    rw [show exec (.completionWordWrite o.id) s = execCompletionWordWrite o.id s from rfl, execCompletionWordWrite]
    simp [hnone, hop, hcomp, hcomm, hstarted, hready, not_lt.2 hdone, hwaiting, hwriting, hword, hstored, hanswered]

/-- Settles O39: an engine takes the first copy of the first core in turn, and a chunk goes through once its bytes are read, met and written. -/
theorem copiesComplete : Obligations.CopiesComplete := ⟨copyEnginesTakeInTurn, copyChunkCompletes, completionWordCompletes⟩

end Sys2Proof.Claims
end
